-- ==== Sys2Proof/Word.lean ====
section
/-! DEFINITION. The word types of Felka and their plainest arithmetic (R3). -/

namespace Sys2Proof

/-- A byte of memory. -/
abbrev Byte := BitVec 8
/-- A 32-bit instruction word (R94). -/
abbrev IWord := BitVec 32
/-- The 64-bit word of the scalar pipe and of the system registers. -/
abbrev Word := BitVec 64
/-- The 128 bits of a general register (R34). -/
abbrev Quad := BitVec 128
/-- The 256 bytes of an operand entry, of the vector latch and of a tile row (R33). -/
abbrev Row := BitVec 2048
/-- A label: bit i stands for party slot i (R48). -/
abbrev Label := BitVec 16
/-- A core of the device: die in [9:8], row y in [7:4], column x in [3:0] (R31, R45). -/
abbrev CoreId := BitVec 10
/-- A 24-bit endpoint ID (R379). -/
abbrev Endpoint := BitVec 24
/-- A 48-bit task identifier (R31). -/
abbrev Tid := BitVec 48

/-- One label is a subset of another (R50). -/
def Label.sub (a b : Label) : Bool := a &&& ~~~b == 0#16

end Sys2Proof
end

