-- ==== Sys2Proof/Config.lean ====
section
/-! DEFINITION. What an implementation fixes and the free values: constants without a body, so that nothing in Lean can
evaluate one or prove a value of it. A claim about one holds whatever it is. -/

namespace Sys2Proof.Config

/-- Free choices, applied to the counter `Device.free` (log entry 5): whether a load is served from the read cache
(R78), whether a stale translation is still used (R311). -/
opaque freeBit : Nat → Bool

/-- Free doublewords, applied to the counter `Device.free`: among them DETAIL of the cause table (R374, log entry 5). -/
opaque freeWord : Nat → Word

/-- Free operand entries and rows of 256 bytes, applied to the counter `Device.free` (log entry 5). -/
opaque freeRow : Nat → Row

/-- For a special function (by its code), a format (by its code) and the lower of the two adjacent values: the first
ordered rank of the operand from which the upper value is returned (R70, log entry 6). -/
opaque vsfThreshold : Nat → Nat → Nat → Nat

/-- SHAKE256 with a 256-bit output (R128, R370, R425, log entry 7). -/
opaque shake256 : List Byte → BitVec 256

/-- Whether an ML-DSA-65 signature over a message verifies under a public key (R376, R426, log entry 7). -/
opaque mldsaVerify : List Byte → List Byte → List Byte → Bool

/-- A signature of the device's identity key over a message (R430, log entry 7). -/
opaque mldsaSign : List Byte → List Byte

/-- AES-256-GCM opening of a sealed group under a key, an initialisation vector and the authenticated headers: the
payload, or none when the tag fails (R382, log entry 7). -/
opaque gcmOpen : BitVec 256 → BitVec 96 → BitVec 256 → List Byte → BitVec 128 → Option (List Byte)

/-- AES-256-GCM sealing (R382, log entry 7). -/
opaque gcmSeal : BitVec 256 → BitVec 96 → BitVec 256 → List Byte → List Byte

/-- The link key and salt of a port's direction and generation, derived from the session secret (R395, log entry 7). -/
opaque linkKey : Nat → Bool → Nat → BitVec 256 × BitVec 32

/-- A fresh nonce (R369), by how many have been issued (log entry 7). -/
opaque nonce : Nat → BitVec 256

/-- The hash of the root public key that the boot ROM holds, and of the ROM itself (R426, R430, log entry 7). -/
opaque romRootHash : BitVec 256
opaque romHash : BitVec 256

/-- The public keys of 1,952 bytes that are offered with an image (R426, log entry 13). -/
opaque imageKeys : List Byte → List (List Byte)

/-- What a configuration image body holds (R426, log entry 13): the device number, BRFW of each die, the route table,
the certificate chain. -/
opaque cfgDevice : List Byte → BitVec 12
opaque cfgBrfw : List Byte → Nat → Word
opaque cfgRoutes : List Byte → List (BitVec 12 × BitVec 32)
opaque cfgChain : List Byte → List Byte

/-- The machine trap entry that a firmware image sets on a die (R284, log entry 13). -/
opaque fwMtvec : List Byte → Nat → Word

/-- A responder's part of a key exchange, and whether a requester's verify data is good (R430, log entry 7). -/
opaque spdmExchange : List Byte → List Byte
opaque spdmVerify : BitVec 256 → Bool

/-- Which of the eight channels of a die serves a physical address, for the fences of R356 (log entry 15). -/
opaque channelOf : Nat → BitVec 3

/-- The ring that the data of a queue tail packet name, and the index: producer, queue number, index (R184, R330, R385, log
entry 13). -/
opaque tailRing : List Byte → Endpoint × Nat × Nat

/-- The beats of a link's receive buffer for a virtual channel (R381, log entry 13). -/
opaque receiveBeats : Nat → Nat

/-- The payload of a capability record, from what it tells (R429, log entry 13). -/
opaque capPayload : Nat → List Nat → BitVec 96

/-- The data that an SPDM message signs, from the request's nonce or exchange data and what the response says (R430, log entry
7). -/
opaque spdmSigned : List Byte → List Byte → List Byte

/-- Where the `.cap` granules of a linked image lie, as (in a shared section, address): the file format names no table of
them (R117, R123, log entry 13). -/
opaque capGranules : List Byte → List (Bool × Nat)

/-- The page label of a ring's memory, by the number of its 4 KiB frame: ring pools are in no translation that would name
one (R183, R330, log entry 16). -/
opaque ringLabel : Nat → Label

/-- The place in DETAIL of *poison consumed* for a poisoned row of a tile, by the tile's number, and for a line of host memory, by its
PA: R352 lists no code for them (log entry 128). -/
opaque poisonCode : Nat → Nat

end Sys2Proof.Config
end

