-- ==== Sys2Proof/Syntax.lean ====
section
/-! DEFINITION. The syntax of Felka FKL-1024A: the operand types of the major map (R95 to R100) and the one
inductive `Instr`, with one constructor for every row of the table of operations and events. The first rows are
the 224 instruction forms; the others are the part's events (a reply arriving, a slice accepting a post, a die
controller's command), whose operands name the unit they happen at and what the outside world brings. -/

namespace Sys2Proof

/-- A 5-bit scalar register specifier (R97): g0 to g15, the latch L, ZERO, TID, and the maintenance ports
Q0 to Q7 (R298). -/
inductive SReg where
  | g (n : BitVec 4)
  | l
  | zero
  | tid
  | q (n : BitVec 3)
  deriving DecidableEq, Repr

/-- A 4-bit vector specifier (R98): O0 to O7, LV and ZV. -/
inductive VReg where
  | o (n : BitVec 3)
  | lv
  | zv
  deriving DecidableEq, Repr

/-- The scopes of R79, with the codes 0 to 8 of R99. -/
inductive Scope where
  | task | eng | core | clus | die | part | pod | host | sys
  deriving DecidableEq, Repr

/-- The order codes of R99. -/
inductive Order where
  | plain | acq | rel | acqrel
  deriving DecidableEq, Repr

/-- The size codes of R99. -/
inductive Size where
  | b | h | w | d | q | cap
  deriving DecidableEq, Repr

/-- The width of an integer atomic (R156): `w` is 4 bytes, `d` is 8. -/
inductive ASize where
  | w | d
  deriving DecidableEq, Repr

/-- The scalar floating formats of `fpu` and `fatom` (R145, R159). -/
inductive SFmt where
  | f32 | f64
  deriving DecidableEq, Repr

/-- The format codes 0 to 7 of `fcvt` (R147). -/
inductive CFmt where
  | f32 | f64 | f16 | bf16 | i32 | u32 | i64 | u64
  deriving DecidableEq, Repr

/-- The floating formats of the vector unit (R221), in their code order. -/
inductive VFmt where
  | f32 | bf16 | f16 | f64
  deriving DecidableEq, Repr

/-- The integer formats of the vector unit (R223), in their code order. -/
inductive IFmt where
  | i32 | u32 | i16 | i8
  deriving DecidableEq, Repr

/-- The formats of `vred` (R228), in their code order. -/
inductive RFmt where
  | f32 | bf16 | f16 | f64 | i32 | u32 | i16 | i8
  deriving DecidableEq, Repr

/-- The formats of `vld` and `vst` (R230), in their code order. -/
inductive MFmt where
  | raw | f32 | bf16 | f16 | f64 | i32 | i16 | i8
  deriving DecidableEq, Repr

/-- The format tags 0 to 13 of R39. -/
inductive FTag where
  | none | fp32 | bf16 | fp16 | fp64 | int32 | uint32 | int16 | int8 | bq7 | bq4 | bq2 | keys | raw
  deriving DecidableEq, Repr

/-- The key formats of `sort` (R100), in their code order. -/
inductive KFmt where
  | i32 | u32 | f32 | f16 | bf16 | i64 | u64
  deriving DecidableEq, Repr

/-- The pair forms of `sort` (R253). -/
inductive KForm where
  | k32p32 | k64
  deriving DecidableEq, Repr

/-- The destination of `cp.tensor` (R246). -/
inductive CpDest where
  | spad | pipea | pipeb
  deriving DecidableEq, Repr

/-- The migration override of a `hint.mod` prefix (R104). -/
inductive Mig where
  | none | remote | migrate
  deriving DecidableEq, Repr

/-- The three engines of a core, by mask letter (R100): matrix, copy, sort. -/
inductive Engine where
  | matrix | copy | sort
  deriving DecidableEq, Repr

/-- The system registers of R284. -/
inductive SysReg where
  | tsw | tlevel | utvec | uepc | ucause | uval
  | dqBase | dqLimit | dqBot | dqTop | jsel | barown | cycle | coreId | notice
  | jobid | jscap | upentry | udeleg | pt1root | asid | pt2root | vmid
  | stvec | sdeleg | htvec | hdeleg | mtvec
  deriving DecidableEq, Repr

/-- What a fence closes (R356). -/
inductive FenceTarget where
  | core (c : CoreId)
  | slice (c : CoreId)
  | channel (die : BitVec 2) (channel : BitVec 3)
  | link (port : BitVec 5)
  | die (d : BitVec 2)
  deriving DecidableEq, Repr

/-- The memory that an error is found in (R357, R358): a line of memory named by physical address, a line of a
core's scratchpad, a line of the shared window, a row of a core's tiles (tile × 64 + row), or a register file. -/
inductive MemPlace where
  | phys
  | spad (c : CoreId)
  | shared
  | tile (c : CoreId)
  | regs (c : CoreId)
  deriving DecidableEq, Repr

/-- A debug unit (R397): the trace unit or the counter bank of a core, or the counter bank of a die. -/
inductive UnitId where
  | trace (c : CoreId)
  | bank (c : CoreId)
  | dieBank (d : BitVec 2)
  deriving DecidableEq, Repr

/-- What an agent outside the device brings with a reply (R155, R384): the STATUS byte, the poison flag, the LABEL and up
to 64 bytes of data, counted from bit 0. -/
structure OutReply where
  status : BitVec 8
  poison : Bool
  label : BitVec 16
  data : BitVec 512
  deriving DecidableEq, Repr

/-- The fabric window as the host driver has written it when it writes RMSYNC (R386): the job table and the region maps by
entry of 16 bytes, the route table by entry of 4. Entries not listed are 0. -/
structure FabricWindow where
  jobs : List (BitVec 6 × BitVec 128)
  routes : List (BitVec 12 × BitVec 32)
  regions : List (BitVec 6 × BitVec 6 × BitVec 128)
  deriving DecidableEq, Repr

/-- A bring-up step that fails at this boot (R428): the step number, the unit of the journal record (R427) and
the failure code. What fails is physical and comes from outside the model. -/
structure StepFailure where
  step : BitVec 8
  unit : BitVec 16
  code : BitVec 32
  deriving DecidableEq, Repr

/-- The rows of the table of operations and events, one constructor each. In the instruction forms `sw` is the
switch marker S of R94; a form that must carry the marker, and a prefix, which must not, have no `sw`. -/
inductive Instr where
  /-- `ialu.add` (R133). Adds G[a] and G[b] modulo 2^64 into G[d] and L. -/
  | ialuAdd (sw : Bool) (d a b : SReg)
  /-- `ialu.sub` (R133). Subtracts G[b] from G[a] modulo 2^64 into G[d] and L. -/
  | ialuSub (sw : Bool) (d a b : SReg)
  /-- `ialu.and` (R133). Bitwise AND of G[a] and G[b]. -/
  | ialuAnd (sw : Bool) (d a b : SReg)
  /-- `ialu.or` (R133). Bitwise OR of G[a] and G[b]. -/
  | ialuOr (sw : Bool) (d a b : SReg)
  /-- `ialu.xor` (R133). Bitwise XOR of G[a] and G[b]. -/
  | ialuXor (sw : Bool) (d a b : SReg)
  /-- `ialu.andn` (R133). G[a] AND NOT G[b]. -/
  | ialuAndn (sw : Bool) (d a b : SReg)
  /-- `ialu.sll` (R133). Shifts G[a] left by G[b][5:0]. -/
  | ialuSll (sw : Bool) (d a b : SReg)
  /-- `ialu.srl` (R133). Shifts G[a] right logically by G[b][5:0]. -/
  | ialuSrl (sw : Bool) (d a b : SReg)
  /-- `ialu.sra` (R133). Shifts G[a] right arithmetically by G[b][5:0]. -/
  | ialuSra (sw : Bool) (d a b : SReg)
  /-- `ialu.slt` (R133). Sets 1 if G[a] is below G[b] as signed values. -/
  | ialuSlt (sw : Bool) (d a b : SReg)
  /-- `ialu.sltu` (R133). Sets 1 if G[a] is below G[b] as unsigned values. -/
  | ialuSltu (sw : Bool) (d a b : SReg)
  /-- `ialu.min` (R133). Signed minimum of G[a] and G[b]. -/
  | ialuMin (sw : Bool) (d a b : SReg)
  /-- `ialu.max` (R133). Signed maximum of G[a] and G[b]. -/
  | ialuMax (sw : Bool) (d a b : SReg)
  /-- `ialu.minu` (R133). Unsigned minimum of G[a] and G[b]. -/
  | ialuMinu (sw : Bool) (d a b : SReg)
  /-- `ialu.maxu` (R133). Unsigned maximum of G[a] and G[b]. -/
  | ialuMaxu (sw : Bool) (d a b : SReg)
  /-- `ialui.add` (R134). Adds a sign-extended immediate to G[a]. -/
  | ialuiAdd (sw : Bool) (d a : SReg) (imm : BitVec 12)
  /-- `ialui.and` (R134). ANDs G[a] with a zero-extended immediate. -/
  | ialuiAnd (sw : Bool) (d a : SReg) (imm : BitVec 12)
  /-- `ialui.or` (R134). ORs G[a] with a zero-extended immediate. -/
  | ialuiOr (sw : Bool) (d a : SReg) (imm : BitVec 12)
  /-- `ialui.xor` (R134). XORs G[a] with a zero-extended immediate. -/
  | ialuiXor (sw : Bool) (d a : SReg) (imm : BitVec 12)
  /-- `ialui.sll` (R134). Shifts G[a] left by imm[5:0]. -/
  | ialuiSll (sw : Bool) (d a : SReg) (sh : BitVec 6)
  /-- `ialui.srl` (R134). Shifts G[a] right logically by imm[5:0]. -/
  | ialuiSrl (sw : Bool) (d a : SReg) (sh : BitVec 6)
  /-- `ialui.sra` (R134). Shifts G[a] right arithmetically by imm[5:0]. -/
  | ialuiSra (sw : Bool) (d a : SReg) (sh : BitVec 6)
  /-- `ialui.slt` (R134). Signed compare of G[a] with a sign-extended immediate. -/
  | ialuiSlt (sw : Bool) (d a : SReg) (imm : BitVec 12)
  /-- `lui` (R135). Loads a sign-extended upper immediate into G[d]. -/
  | lui (sw : Bool) (d : SReg) (imm : BitVec 20)
  /-- `ibit.clz` (R136). Counts leading zeros of G[a]. -/
  | ibitClz (sw : Bool) (d a : SReg)
  /-- `ibit.ctz` (R136). Counts trailing zeros of G[a]. -/
  | ibitCtz (sw : Bool) (d a : SReg)
  /-- `ibit.popc` (R136). Counts ones in G[a]. -/
  | ibitPopc (sw : Bool) (d a : SReg)
  /-- `ibit.brev` (R136). Reverses the bits of G[a]. -/
  | ibitBrev (sw : Bool) (d a : SReg)
  /-- `ibit.bswap` (R136). Reverses the bytes of G[a]. -/
  | ibitBswap (sw : Bool) (d a : SReg)
  /-- `ibit.sext` (R136). Sign-extends G[a] from bit pos. -/
  | ibitSext (sw : Bool) (d a b : SReg)
  /-- `ibit.zext` (R136). Zero-extends G[a] from bit pos. -/
  | ibitZext (sw : Bool) (d a b : SReg)
  /-- `ibit.bext` (R136). Extracts a bit field of G[a]. -/
  | ibitBext (sw : Bool) (d a b : SReg)
  /-- `ibit.bins` (R136). Inserts bits of G[a] into G[d] at pos and len. -/
  | ibitBins (sw : Bool) (d a b : SReg)
  /-- `ibit.rol` (R136). Rotates G[a] left by pos. -/
  | ibitRol (sw : Bool) (d a b : SReg)
  /-- `ibit.ror` (R136). Rotates G[a] right by pos. -/
  | ibitRor (sw : Bool) (d a b : SReg)
  /-- `imul.mul` (R137). Low 64 bits of the product. -/
  | imulMul (sw : Bool) (d a b : SReg)
  /-- `imul.mulh` (R137). High 64 bits of the signed product. -/
  | imulMulh (sw : Bool) (d a b : SReg)
  /-- `imul.mulhu` (R137). High 64 bits of the unsigned product. -/
  | imulMulhu (sw : Bool) (d a b : SReg)
  /-- `imul.mulhsu` (R137). High 64 bits of signed times unsigned. -/
  | imulMulhsu (sw : Bool) (d a b : SReg)
  /-- `imul.div` (R137). Signed quotient truncated toward zero; divide by zero faults at issue. -/
  | imulDiv (sw : Bool) (d a b : SReg)
  /-- `imul.divu` (R137). Unsigned quotient. -/
  | imulDivu (sw : Bool) (d a b : SReg)
  /-- `imul.rem` (R137). Signed remainder with the sign of the dividend. -/
  | imulRem (sw : Bool) (d a b : SReg)
  /-- `imul.remu` (R137). Unsigned remainder. -/
  | imulRemu (sw : Bool) (d a b : SReg)
  /-- `cap.getbase` (R138). Writes the decoded base of G[a]. -/
  | capGetbase (sw : Bool) (d a : SReg)
  /-- `cap.gettop` (R138). Writes the decoded top of G[a]. -/
  | capGettop (sw : Bool) (d a : SReg)
  /-- `cap.getlen` (R138). Writes top minus base of G[a]. -/
  | capGetlen (sw : Bool) (d a : SReg)
  /-- `cap.getperm` (R138). Writes the permissions of G[a]. -/
  | capGetperm (sw : Bool) (d a : SReg)
  /-- `cap.getspace` (R138). Writes the space of G[a]. -/
  | capGetspace (sw : Bool) (d a : SReg)
  /-- `cap.gettag` (R138). Writes 1 if G[a] is tagged. -/
  | capGettag (sw : Bool) (d a : SReg)
  /-- `cap.setcur` (R139). Sets the cursor from G[b], keeping the tag only if the bounds decode unchanged. -/
  | capSetcur (sw : Bool) (d a b : SReg)
  /-- `cap.addcur` (R139). Adds G[b] to the cursor, keeping the tag only if the bounds decode unchanged. -/
  | capAddcur (sw : Bool) (d a b : SReg)
  /-- `cap.setbnd` (R140). Narrows the bounds to a rounded range starting at the cursor of length G[b]. -/
  | capSetbnd (sw : Bool) (d a b : SReg)
  /-- `cap.setbndx` (R140). Narrows the bounds exactly, or faults with bounds. -/
  | capSetbndx (sw : Bool) (d a b : SReg)
  /-- `cap.andperm` (R141). ANDs the permissions with G[b][11:0]. -/
  | capAndperm (sw : Bool) (d a b : SReg)
  /-- `cap.setspace` (R141). Changes the space from generic to 1, 2 or 3 when the bounds fit that window. -/
  | capSetspace (sw : Bool) (d a b : SReg)
  /-- `capi.addcur` (R139). Adds a sign-extended immediate to the cursor. -/
  | capiAddcur (sw : Bool) (d a : SReg) (imm : BitVec 12)
  /-- `capi.setbnd` (R140). Narrows the bounds to an immediate length, rounding. -/
  | capiSetbnd (sw : Bool) (d a : SReg) (imm : BitVec 12)
  /-- `capi.setbndx` (R140). Narrows the bounds exactly to an immediate length. -/
  | capiSetbndx (sw : Bool) (d a : SReg) (imm : BitVec 12)
  /-- `capi.andperm` (R141). ANDs the permissions with an immediate mask. -/
  | capiAndperm (sw : Bool) (d a : SReg) (imm : BitVec 12)
  /-- `br.eq` (R142). Branches when G[a] equals G[b], raising the control label. -/
  | brEq (sw : Bool) (a b : SReg) (off : BitVec 12)
  /-- `br.ne` (R142). Branches when G[a] differs from G[b]. -/
  | brNe (sw : Bool) (a b : SReg) (off : BitVec 12)
  /-- `br.lt` (R142). Branches when G[a] is below G[b] signed. -/
  | brLt (sw : Bool) (a b : SReg) (off : BitVec 12)
  /-- `br.ge` (R142). Branches when G[a] is not below G[b] signed. -/
  | brGe (sw : Bool) (a b : SReg) (off : BitVec 12)
  /-- `br.ltu` (R142). Branches when G[a] is below G[b] unsigned. -/
  | brLtu (sw : Bool) (a b : SReg) (off : BitVec 12)
  /-- `br.geu` (R142). Branches when G[a] is not below G[b] unsigned. -/
  | brGeu (sw : Bool) (a b : SReg) (off : BitVec 12)
  /-- `br.bset` (R142). Branches when G[a] AND G[b] is non-zero. -/
  | brBset (sw : Bool) (a b : SReg) (off : BitVec 12)
  /-- `br.bclr` (R142). Branches when G[a] AND G[b] is zero. -/
  | brBclr (sw : Bool) (a b : SReg) (off : BitVec 12)
  /-- `jmp` (R143). Jumps to a PC-relative target. -/
  | jmp (sw : Bool) (off : BitVec 25)
  /-- `call` (R143). Jumps and writes a return capability into G[15]. -/
  | call (sw : Bool) (off : BitVec 25)
  /-- `jr.go` (R144). Jumps to the cursor of an executable capability. -/
  | jrGo (sw : Bool) (a : SReg)
  /-- `jr.link` (R144). Jumps through a capability and writes a return capability into G[d]. -/
  | jrLink (sw : Bool) (d a : SReg)
  /-- `fpu.add.fmt` (R145). Floating add rounded once under TSW.RM. -/
  | fpuAdd (sw : Bool) (d a b : SReg) (fmt : SFmt)
  /-- `fpu.sub.fmt` (R145). Floating subtract. -/
  | fpuSub (sw : Bool) (d a b : SReg) (fmt : SFmt)
  /-- `fpu.mul.fmt` (R145). Floating multiply. -/
  | fpuMul (sw : Bool) (d a b : SReg) (fmt : SFmt)
  /-- `fpu.div.fmt` (R145). Floating divide. -/
  | fpuDiv (sw : Bool) (d a b : SReg) (fmt : SFmt)
  /-- `fpu.sqrt.fmt` (R145). Floating square root. -/
  | fpuSqrt (sw : Bool) (d a : SReg) (fmt : SFmt)
  /-- `fpu.fma.fmt` (R145). Fused a times b plus G[d], rounded once. -/
  | fpuFma (sw : Bool) (d a b : SReg) (fmt : SFmt)
  /-- `fpu.min.fmt` (R146). Floating minimum with -0 below +0. -/
  | fpuMin (sw : Bool) (d a b : SReg) (fmt : SFmt)
  /-- `fpu.max.fmt` (R146). Floating maximum. -/
  | fpuMax (sw : Bool) (d a b : SReg) (fmt : SFmt)
  /-- `fpu.neg.fmt` (R145). Inverts the sign bit. -/
  | fpuNeg (sw : Bool) (d a : SReg) (fmt : SFmt)
  /-- `fpu.abs.fmt` (R145). Clears the sign bit. -/
  | fpuAbs (sw : Bool) (d a : SReg) (fmt : SFmt)
  /-- `fpu.sgnj.fmt` (R145). Magnitude of a with the sign of b. -/
  | fpuSgnj (sw : Bool) (d a b : SReg) (fmt : SFmt)
  /-- `fpu.cmpeq.fmt` (R145). Integer 1 when a equals b. -/
  | fpuCmpeq (sw : Bool) (d a b : SReg) (fmt : SFmt)
  /-- `fpu.cmplt.fmt` (R145). Integer 1 when a is below b. -/
  | fpuCmplt (sw : Bool) (d a b : SReg) (fmt : SFmt)
  /-- `fpu.cmple.fmt` (R145). Integer 1 when a is at most b. -/
  | fpuCmple (sw : Bool) (d a b : SReg) (fmt : SFmt)
  /-- `fpu.class.fmt` (R146). Writes a one-hot class mask of a. -/
  | fpuClass (sw : Bool) (d a : SReg) (fmt : SFmt)
  /-- `fcvt.dst.src` (R147). Converts G[a] between scalar floating and integer formats. -/
  | fcvt (sw : Bool) (d a : SReg) (dst src : CFmt)
  /-- `lbl.get` (R148). Writes the label of G[a] as a value. -/
  | lblGet (sw : Bool) (d a : SReg)
  /-- `lbl.ctl` (R148). Writes the control label as a value. -/
  | lblCtl (sw : Bool) (d : SReg)
  /-- `lbl.raise` (R148). Copies G[a] with its tag and raises its label by G[b]. -/
  | lblRaise (sw : Bool) (d a b : SReg)
  /-- `lbl.sub` (R148). Tests whether the label of G[a] is a subset of G[b][15:0]. -/
  | lblSub (sw : Bool) (d a b : SReg)
  /-- `ld.size.scope.order` (R153). Loads size bytes through a capability with the named scope and order. -/
  | ld (sw : Bool) (d a : SReg) (scope : Scope) (order : Order) (size : Size) (off : BitVec 6)
  /-- `st.size.scope.order` (R154). Stores size bytes of G[d] through a capability, checked against the page label. -/
  | st (sw : Bool) (d a : SReg) (scope : Scope) (order : Order) (size : Size) (off : BitVec 6)
  /-- `atom.swap.sz.scope.order` (R156). Atomically swaps a location with G[b], returning the old value. -/
  | atomSwap (sw : Bool) (d a b : SReg) (scope : Scope) (order : Order) (sz : ASize)
  /-- `atom.cas.sz.scope.order` (R156). Atomic compare-and-swap against G[d]. -/
  | atomCas (sw : Bool) (d a b : SReg) (scope : Scope) (order : Order) (sz : ASize)
  /-- `atom.add.sz.scope.order` (R156). Atomic add. -/
  | atomAdd (sw : Bool) (d a b : SReg) (scope : Scope) (order : Order) (sz : ASize)
  /-- `atom.and.sz.scope.order` (R156). Atomic AND. -/
  | atomAnd (sw : Bool) (d a b : SReg) (scope : Scope) (order : Order) (sz : ASize)
  /-- `atom.or.sz.scope.order` (R156). Atomic OR. -/
  | atomOr (sw : Bool) (d a b : SReg) (scope : Scope) (order : Order) (sz : ASize)
  /-- `atom.min.sz.scope.order` (R156). Atomic signed minimum. -/
  | atomMin (sw : Bool) (d a b : SReg) (scope : Scope) (order : Order) (sz : ASize)
  /-- `atom.max.sz.scope.order` (R156). Atomic signed maximum. -/
  | atomMax (sw : Bool) (d a b : SReg) (scope : Scope) (order : Order) (sz : ASize)
  /-- `atom.decf.sz.scope.order` (R157). Atomically decrements a fire cell's counter and fires a spawn when it reaches zero. -/
  | atomDecf (sw : Bool) (d a b : SReg) (scope : Scope) (order : Order) (sz : ASize)
  /-- `fatom.add.fmt.scope.order` (R159). Atomic floating add rounded once to nearest even. -/
  | fatomAdd (sw : Bool) (d a b : SReg) (scope : Scope) (order : Order) (fmt : SFmt)
  /-- `fatom.min.fmt.scope.order` (R159). Atomic floating minimum. -/
  | fatomMin (sw : Bool) (d a b : SReg) (scope : Scope) (order : Order) (fmt : SFmt)
  /-- `fatom.max.fmt.scope.order` (R159). Atomic floating maximum. -/
  | fatomMax (sw : Bool) (d a b : SReg) (scope : Scope) (order : Order) (fmt : SFmt)
  /-- `fence.sc.scope` (R161). Sequentially consistent fence at the named scope. -/
  | fenceSc (sw : Bool) (scope : Scope)
  /-- `fence.acq.scope` (R161). Acquire fence. -/
  | fenceAcq (sw : Bool) (scope : Scope)
  /-- `fence.rel.scope` (R161). Release fence. -/
  | fenceRel (sw : Bool) (scope : Scope)
  /-- `fence.acqrel.scope` (R161). Acquire and release fence. -/
  | fenceAcqrel (sw : Bool) (scope : Scope)
  /-- `bar.join.task` (R163). Joins a cluster barrier object, taking the lowest free slot and setting PIN. -/
  | barJoin (sw : Bool) (d a : SReg)
  /-- `bar.leave.task` (R163). Leaves a cluster barrier, possibly completing the phase. -/
  | barLeave (sw : Bool) (a : SReg)
  /-- `bar.arrive.scope` (R163). Releases, marks arrival, returns a phase ticket and completes the phase if all members arrived. -/
  | barArrive (sw : Bool) (d a : SReg) (scope : Scope)
  /-- `bar.wait.scope` (R163). Parks until the barrier's phase passes the ticket, then acquires. -/
  | barWait (sw : Bool) (a b : SReg) (scope : Scope)
  /-- `bar.sync.scope` (R163). Arrives and waits on its own ticket as one instruction. -/
  | barSync (sw : Bool) (d a : SReg) (scope : Scope)
  /-- `bar.miss.task` (R163). Returns the members not yet arrived and the phase. -/
  | barMiss (sw : Bool) (d a : SReg)
  /-- `bar.wregion.task` (R165). Sets the core's wire barrier region and resets its phase count. -/
  | barWregion (sw : Bool) (a : SReg)
  /-- `bar.warrive.scope` (R166). Arrives at the wire barrier for the whole core as a release, returning a ticket. -/
  | barWarrive (sw : Bool) (d : SReg) (scope : Scope)
  /-- `bar.wwait.scope` (R166). Parks until the wire phase passes the ticket or the time-out expires. -/
  | barWwait (sw : Bool) (d a : SReg) (scope : Scope)
  /-- `bar.wfcw.scope` (R167). Waits until a word differs from G[b], then acquires. -/
  | barWfcw (sw : Bool) (d a b : SReg) (scope : Scope)
  /-- `bar.wfcd.scope` (R167). Waits until a doubleword differs from G[b], then acquires. -/
  | barWfcd (sw : Bool) (d a b : SReg) (scope : Scope)
  /-- `inbox.pop` (R169). Stores and removes the oldest own message as an acquire at scope core, or parks while a reservation is held. -/
  | inboxPop (sw : Bool) (d a : SReg)
  /-- `inbox.peek` (R169). Returns bytes 7:0 of the oldest held message. -/
  | inboxPeek (sw : Bool) (d : SReg)
  /-- `inbox.count` (R169). Returns counts of held messages and reservations. -/
  | inboxCount (sw : Bool) (d : SReg)
  /-- `task.spawn.park` (R175). Pushes a checked child spawn record onto the own deque, or runs it inline on bounce. -/
  | taskSpawn (d a : SReg)
  /-- `task.spawnto.park` (R175). Sends a spawn request to a target core's hearth. -/
  | taskSpawnto (d a b : SReg)
  /-- `task.join.park` (R178). Waits for a join counter to reach zero, running own deque records inline meanwhile. -/
  | taskJoin (a : SReg)
  /-- `task.anchor.park` (R179). Requests the tiles of a mask and the per-core engine state. -/
  | taskAnchor (a : SReg)
  /-- `task.end.park` (R177). Optionally decrements a join counter, then returns from an inline frame or ends the task. -/
  | taskEnd (a : SReg)
  /-- `queue.push` (R183). Checks a record and writes it to the core's ring for the queue. -/
  | queuePush (sw : Bool) (a b : SReg)
  /-- `queue.pop` (R185). Stores a held pulled data record, or returns 0. -/
  | queuePop (sw : Bool) (d a b : SReg)
  /-- `queue.tail` (R184). Sends the ring's tail index to the consumer's hearth as a release at scope pod. -/
  | queueTail (sw : Bool) (a : SReg)
  /-- `pipe.send` (R186). Takes a credit and copies a message into the receiver's next pipe slot. -/
  | pipeSend (sw : Bool) (d a b : SReg)
  /-- `pipe.recv` (R186). Stores the next held message and returns a credit, or parks. -/
  | pipeRecv (sw : Bool) (d a b : SReg)
  /-- `pipe.close` (R186). Closes the pipe after the messages already sent. -/
  | pipeClose (sw : Bool) (a : SReg)
  /-- `ev.post` (R204). Posts a keyed value to its ember store slice as a release. -/
  | evPost (sw : Bool) (d a b : SReg)
  /-- `ev.postw` (R204). Posts and waits for the slice's outcome code. -/
  | evPostw (sw : Bool) (d a b : SReg)
  /-- `ev.take` (R205). Sends a take of the first eligible ember of a slice of a pull store. -/
  | evTake (sw : Bool) (d a b : SReg)
  /-- `ev.done` (R206). Ends the task's lease on a key. -/
  | evDone (sw : Bool) (a b : SReg)
  /-- `ev.thresh` (R207). Sets the threshold of every slice of the store. -/
  | evThresh (sw : Bool) (a b : SReg)
  /-- `ev.flush` (R207). Sets every slice of the store to flushing. -/
  | evFlush (sw : Bool) (a : SReg)
  /-- `ev.stat` (R208). Reads a slice's statistics. -/
  | evStat (sw : Bool) (d a b : SReg)
  /-- `eng.fork.mask` (R188). Releases, captures and starts engine programs named by a fork descriptor. -/
  | engFork (sw : Bool) (a b : SReg) (mask : BitVec 3)
  /-- `eng.rdv.mask` (R191). Parks until the forked programs of the mask end, then acquires at scope engines. -/
  | engRdv (sw : Bool) (mask : BitVec 3)
  /-- `vfp.add.fmt` (R221). Vector floating add per lane. -/
  | vfpAdd (sw : Bool) (d a b : VReg) (fmt : VFmt)
  /-- `vfp.sub.fmt` (R221). Vector floating subtract. -/
  | vfpSub (sw : Bool) (d a b : VReg) (fmt : VFmt)
  /-- `vfp.mul.fmt` (R221). Vector floating multiply. -/
  | vfpMul (sw : Bool) (d a b : VReg) (fmt : VFmt)
  /-- `vfp.fma.fmt` (R221). Vector fused multiply-add. -/
  | vfpFma (sw : Bool) (d a b c : VReg) (fmt : VFmt)
  /-- `vfp.min.fmt` (R221). Vector floating minimum. -/
  | vfpMin (sw : Bool) (d a b : VReg) (fmt : VFmt)
  /-- `vfp.max.fmt` (R221). Vector floating maximum. -/
  | vfpMax (sw : Bool) (d a b : VReg) (fmt : VFmt)
  /-- `vfp.abs.fmt` (R221). Vector absolute value. -/
  | vfpAbs (sw : Bool) (d a : VReg) (fmt : VFmt)
  /-- `vfp.neg.fmt` (R221). Vector negation. -/
  | vfpNeg (sw : Bool) (d a : VReg) (fmt : VFmt)
  /-- `vfp.div.fmt` (R221). Vector floating divide. -/
  | vfpDiv (sw : Bool) (d a b : VReg) (fmt : VFmt)
  /-- `vfp.sqrt.fmt` (R221). Vector square root. -/
  | vfpSqrt (sw : Bool) (d a : VReg) (fmt : VFmt)
  /-- `vfp.cmpeq.fmt` (R222). Writes a mask of lanes where va equals vb. -/
  | vfpCmpeq (sw : Bool) (a b : VReg) (mk : BitVec 2) (fmt : VFmt)
  /-- `vfp.cmplt.fmt` (R222). Writes a mask of lanes where va is below vb. -/
  | vfpCmplt (sw : Bool) (a b : VReg) (mk : BitVec 2) (fmt : VFmt)
  /-- `vfp.cmple.fmt` (R222). Writes a mask of lanes where va is at most vb. -/
  | vfpCmple (sw : Bool) (a b : VReg) (mk : BitVec 2) (fmt : VFmt)
  /-- `vfp.sel.fmt` (R222). Selects lanes of va or vb by a mask. -/
  | vfpSel (sw : Bool) (d a b : VReg) (mk : BitVec 2) (fmt : VFmt)
  /-- `vint.add.fmt` (R223). Vector integer add, wrapping. -/
  | vintAdd (sw : Bool) (d a b : VReg) (fmt : IFmt)
  /-- `vint.sub.fmt` (R223). Vector integer subtract, wrapping. -/
  | vintSub (sw : Bool) (d a b : VReg) (fmt : IFmt)
  /-- `vint.mul.fmt` (R223). Vector integer multiply, low bits. -/
  | vintMul (sw : Bool) (d a b : VReg) (fmt : IFmt)
  /-- `vint.adds.fmt` (R223). Vector saturating add. -/
  | vintAdds (sw : Bool) (d a b : VReg) (fmt : IFmt)
  /-- `vint.subs.fmt` (R223). Vector saturating subtract. -/
  | vintSubs (sw : Bool) (d a b : VReg) (fmt : IFmt)
  /-- `vint.min.fmt` (R223). Vector integer minimum. -/
  | vintMin (sw : Bool) (d a b : VReg) (fmt : IFmt)
  /-- `vint.max.fmt` (R223). Vector integer maximum. -/
  | vintMax (sw : Bool) (d a b : VReg) (fmt : IFmt)
  /-- `vint.and.fmt` (R223). Vector bitwise AND. -/
  | vintAnd (sw : Bool) (d a b : VReg) (fmt : IFmt)
  /-- `vint.or.fmt` (R223). Vector bitwise OR. -/
  | vintOr (sw : Bool) (d a b : VReg) (fmt : IFmt)
  /-- `vint.xor.fmt` (R223). Vector bitwise XOR. -/
  | vintXor (sw : Bool) (d a b : VReg) (fmt : IFmt)
  /-- `vint.sll.fmt` (R223). Vector shift left. -/
  | vintSll (sw : Bool) (d a b : VReg) (fmt : IFmt)
  /-- `vint.srl.fmt` (R223). Vector logical shift right. -/
  | vintSrl (sw : Bool) (d a b : VReg) (fmt : IFmt)
  /-- `vint.sra.fmt` (R223). Vector arithmetic shift right. -/
  | vintSra (sw : Bool) (d a b : VReg) (fmt : IFmt)
  /-- `vint.cmpeq.fmt` (R222). Writes a mask of lanes where va equals vb. -/
  | vintCmpeq (sw : Bool) (a b : VReg) (mk : BitVec 2) (fmt : IFmt)
  /-- `vint.cmplt.fmt` (R222). Writes a mask of lanes where va is below vb. -/
  | vintCmplt (sw : Bool) (a b : VReg) (mk : BitVec 2) (fmt : IFmt)
  /-- `vint.sel.fmt` (R222). Selects lanes of va or vb by a mask. -/
  | vintSel (sw : Bool) (d a b : VReg) (mk : BitVec 2) (fmt : IFmt)
  /-- `vmov.get` (R227). Moves a tile row into an operand entry. -/
  | vmovGet (sw : Bool) (d : VReg) (tile : BitVec 3) (row : BitVec 6)
  /-- `vmov.put` (R227). Writes an operand entry into a tile row as a single-row write. -/
  | vmovPut (sw : Bool) (a : VReg) (tile : BitVec 3) (row : BitVec 6)
  /-- `vmov.copy` (R227). Copies an entry, or broadcasts one lane. -/
  | vmovCopy (sw : Bool) (d a : VReg) (lane : Option (BitVec 8))
  /-- `vmov.clr` (R227). Clears a tile row to zero bits. -/
  | vmovClr (sw : Bool) (tile : BitVec 3) (row : BitVec 6)
  /-- `vcvt.dst.src.half` (R225). Converts or retags a vector entry between format tags. -/
  | vcvt (sw : Bool) (d a : VReg) (group : BitVec 4) (dst src : FTag) (hi : Bool)
  /-- `vsf.exp2.fmt` (R224). Vector exp2. -/
  | vsfExp2 (sw : Bool) (d a : VReg) (fmt : VFmt)
  /-- `vsf.log2.fmt` (R224). Vector log2. -/
  | vsfLog2 (sw : Bool) (d a : VReg) (fmt : VFmt)
  /-- `vsf.exp.fmt` (R224). Vector exp. -/
  | vsfExp (sw : Bool) (d a : VReg) (fmt : VFmt)
  /-- `vsf.log.fmt` (R224). Vector natural log. -/
  | vsfLog (sw : Bool) (d a : VReg) (fmt : VFmt)
  /-- `vsf.rcp.fmt` (R224). Vector reciprocal. -/
  | vsfRcp (sw : Bool) (d a : VReg) (fmt : VFmt)
  /-- `vsf.rsqrt.fmt` (R224). Vector reciprocal square root. -/
  | vsfRsqrt (sw : Bool) (d a : VReg) (fmt : VFmt)
  /-- `vred.sum.fmt` (R228). Places the sum of a tile row into lane j of va. -/
  | vredSum (sw : Bool) (d a : VReg) (tile : BitVec 3) (row : BitVec 6) (fmt : RFmt)
  /-- `vred.max.fmt` (R228). Places the maximum of a tile row into lane j. -/
  | vredMax (sw : Bool) (d a : VReg) (tile : BitVec 3) (row : BitVec 6) (fmt : RFmt)
  /-- `vred.min.fmt` (R228). Places the minimum of a tile row into lane j. -/
  | vredMin (sw : Bool) (d a : VReg) (tile : BitVec 3) (row : BitVec 6) (fmt : RFmt)
  /-- `vred.rowstat.fmt` (R229). Writes per-row maximum, sum and sum of squares of a tile into three entries. -/
  | vredRowstat (sw : Bool) (d : VReg) (tile : BitVec 3) (fmt : RFmt)
  /-- `vld.fmt.scope.order` (R231). Loads 256 bytes into an operand entry tagged fmt. -/
  | vld (sw : Bool) (d : VReg) (a : SReg) (scope : Scope) (order : Order) (fmt : MFmt) (off : BitVec 6)
  /-- `vst.fmt.scope.order` (R231). Stores 256 bytes of an entry, checked against page labels. -/
  | vst (sw : Bool) (d : VReg) (a : SReg) (scope : Scope) (order : Order) (fmt : MFmt) (off : BitVec 6)
  /-- `mx.mma` (R235). Accepts a matrix multiply-accumulate into a tile. -/
  | mxMma (sw : Bool) (a : SReg) (tile : BitVec 3)
  /-- `mx.mmaz` (R235). Accepts a matrix multiply into a zeroed tile. -/
  | mxMmaz (sw : Bool) (a : SReg) (tile : BitVec 3)
  /-- `mx.zero` (R234). Sets a tile to zero bits with a new tag. -/
  | mxZero (sw : Bool) (a : SReg) (tile : BitVec 3)
  /-- `mxc.send.pri` (R239). Sends a matrix command to a tile of another core. -/
  | mxcSend (sw : Bool) (a b : SReg) (tile pri : BitVec 3)
  /-- `sort.load.form.kfmt.ntf` (R261). Loads pairs from the scratchpad into a tile pair and binds the sort state. -/
  | sortLoad (sw : Bool) (a b : SReg) (tile : BitVec 3) (note : Bool) (kfmt : KFmt) (form : KForm)
  /-- `sort.store.form.kfmt.ntf` (R262). Writes the current pairs or origins to the scratchpad. -/
  | sortStore (sw : Bool) (a b : SReg) (tile : BitVec 3) (note : Bool) (kfmt : KFmt) (form : KForm)
  /-- `sort.run.form.kfmt.ntf` (R263). Executes a count of phases of the schedule. -/
  | sortRun (sw : Bool) (a : SReg) (tile : BitVec 3) (note : Bool) (kfmt : KFmt) (form : KForm)
  /-- `sort.rows.form.kfmt.ntf` (R264). Executes one row phase and marks the schedule complete. -/
  | sortRows (sw : Bool) (tile : BitVec 3) (note : Bool) (kfmt : KFmt) (form : KForm)
  /-- `sort.topk.form.kfmt.ntf` (R265). Completes the sort and writes the first k pairs. -/
  | sortTopk (sw : Bool) (a b : SReg) (tile : BitVec 3) (note : Bool) (kfmt : KFmt) (form : KForm)
  /-- `cp.tensor.dest.ntf` (R247). Accepts a tensor window copy into the scratchpad or an operand pipe. -/
  | cpTensor (sw : Bool) (a b : SReg) (dest : CpDest) (note : Bool)
  /-- `cp.bulk.spad.ntf` (R249). Accepts a contiguous copy between any windows. -/
  | cpBulk (sw : Bool) (a b : SReg) (note : Bool)
  /-- `cp.release.spad.ntf` (R250). Copies labelled data out of the partition through the release gate. -/
  | cpRelease (sw : Bool) (a b : SReg) (note : Bool)
  /-- `cp.raw.spad.ntf` (R251). Supervisor copy of stored page bytes, compressed pages as stored. -/
  | cpRaw (sw : Bool) (a b : SReg) (note : Bool)
  /-- `sys.rd` (R286). Reads a system register. -/
  | sysRd (sw : Bool) (d : SReg) (reg : SysReg)
  /-- `sys.wr` (R286). Writes a system register, checking level, field rules and labels. -/
  | sysWr (sw : Bool) (a : SReg) (reg : SysReg)
  /-- `sys.set` (R286). Sets bits of a system register, returning the old value. -/
  | sysSet (sw : Bool) (d a : SReg) (reg : SysReg)
  /-- `sys.clr` (R286). Clears bits of a system register, returning the old value. -/
  | sysClr (sw : Bool) (d a : SReg) (reg : SysReg)
  /-- `sys.xchg` (R286). Exchanges a system register with G[a]. -/
  | sysXchg (sw : Bool) (d a : SReg) (reg : SysReg)
  /-- `trap.call` (R294). Raises trap instruction with value G[a]. -/
  | trapCall (sw : Bool) (a : SReg)
  /-- `trap.ret` (R294). Ends a trap handler and restores the trapped task from its context area. -/
  | trapRet (sw : Bool)
  /-- `tlb.inv1` (R299). Drops first-stage entries containing a VA for an ASID. -/
  | tlbInv1 (sw : Bool) (a b : SReg)
  /-- `tlb.inv2` (R299). Drops second-stage entries of an IA and combined entries built from them. -/
  | tlbInv2 (sw : Bool) (a b : SReg)
  /-- `tlb.invid` (R299). Drops every entry of an ASID. -/
  | tlbInvid (sw : Bool) (a : SReg)
  /-- `tlb.invall` (R299). Drops every entry of a VMID. -/
  | tlbInvall (sw : Bool) (a : SReg)
  /-- `dbg.brk` (R300). Raises breakpoint, or stops an attached task. -/
  | dbgBrk (sw : Bool)
  /-- `dbg.mark` (R300). Writes a marker record into the trace stream. -/
  | dbgMark (sw : Bool) (a : SReg)
  /-- `dbg.rdctr` (R300). Reads a counter of a counter bank. -/
  | dbgRdctr (sw : Bool) (d a : SReg)
  /-- `hint.imm` (R106). Prefix supplying 20 upper bits to its consumer's immediate. -/
  | hintImm (ext : BitVec 20)
  /-- `hint.sched` (R149). Offers the task to be passed over for DEFER rounds. -/
  | hintSched (sw : Bool) (defer : BitVec 6)
  /-- `hint.mod.mig.msk.neg` (R104). Prefix giving a migration override or mask to its consumer. -/
  | hintMod (mig : Mig) (msk : Option (BitVec 2)) (neg : Bool)
  /-- `hint.br.taken` (R150). Predicts the next B-format word of the group taken or withdraws a prediction. -/
  | hintBr (sw : Bool) (taken : Bool)
  /-- `TCTL` (R400). A write of TCTL sets the trace log controls and clears TSTAT. -/
  | tctl (unit : CoreId) (value : BitVec 64)
  /-- `TRD` (R399). A write of TRD consumes trace ring bytes. -/
  | trd (unit : CoreId) (value : BitVec 64)
  /-- `STOPREQ` (R411). Stops a named task at its next unit boundary. -/
  | stopreq (unit : CoreId) (value : BitVec 64)
  /-- `RESUME` (R411). Resumes or single-steps a task the unit holds stopped. -/
  | resume (unit : CoreId) (value : BitVec 64)
  /-- `DUMPVA` (R412). Starts a core dump of the unit's core into job TJOB. -/
  | dumpva (unit : CoreId) (value : BitVec 64)
  /-- `RCTL` (R417). Sets record or replay mode for a job. -/
  | rctl (unit : CoreId) (value : BitVec 64)
  /-- `BPCTL` (R409). Writes a breakpoint control, copying TID entries to the partition table. -/
  | bpctl (unit : CoreId) (n : BitVec 3) (value : BitVec 64)
  /-- `UNIT_REGISTER_WRITE` (R398). Writes a trace or counter register that has no behaviour of its own. -/
  | unitRegisterWrite (unit : UnitId) (offset : BitVec 12) (value : BitVec 64)
  /-- `SETLABEL` (R372). Sets the label of a run of scratchpad or shared pages. -/
  | setlabel (part : BitVec 2) (operands : BitVec 512)
  /-- `PREEMPT` (R369). Supervisor command pre-empting a task by TID. -/
  | preempt (part : BitVec 2) (operands : BitVec 512)
  /-- `GETNONCE` (R369). Writes a fresh nonce as the partition's only outstanding one. -/
  | getnonce (part : BitVec 2) (operands : BitVec 512)
  /-- `INSTALL` (R376). Checks and installs a signed gate policy. -/
  | install (part : BitVec 2) (operands : BitVec 512)
  /-- `REMOVE` (R377). Removes an installed gate policy between admissions. -/
  | remove (part : BitVec 2) (operands : BitVec 512)
  /-- `QUERY` (R369). Returns the remaining budget of a policy. -/
  | query (part : BitVec 2) (operands : BitVec 512)
  /-- `CLAIM` (R378). Claims a counter bank or trace unit, possibly revoking a guest. -/
  | claim (part : BitVec 2) (hyp : Bool) (operands : BitVec 512)
  /-- `UNCLAIM` (R378). Releases a held unit or drops a frozen copy. -/
  | unclaim (part : BitVec 2) (hyp : Bool) (operands : BitVec 512)
  /-- `RESHAPE` (R369). Repartitions the dies and rewrites the bridge firewall. -/
  | reshape (part : BitVec 2) (operands : BitVec 512)
  /-- `VFUP` (R371). Writes a virtual function entry. -/
  | vfup (part : BitVec 2) (operands : BitVec 512)
  /-- `VFDOWN` (R373). Tears a function down, withdrawing its launches and draining. -/
  | vfdown (part : BitVec 2) (operands : BitVec 512)
  /-- `SLOTSET` (R370). Writes or clears a party slot entry. -/
  | slotset (part : BitVec 2) (operands : BitVec 512)
  /-- `LAUNCH_PACKET` (R328). An arriving launch packet is admitted by the access-control table or refused. -/
  | launchPacket (part : BitVec 2) (dev : BitVec 12) (job : BitVec 16) (word : BitVec 64)
  /-- `task.unanchor.park` (R179). Gives up everything the anchor granted. -/
  | taskUnanchor
  /-- `task.yield.park` (R180). Lets every other ready task of its level issue first. -/
  | taskYield
  /-- `trap.uret.park` (R295). Ends an in-task trap handler, restoring held state and resuming at UEPC. -/
  | trapUret
  /-- `tlb.sync.park` (R299). Parks until earlier invalidations have completed everywhere. -/
  | tlbSync
  /-- `PRIORITY_AGEING` (R15). A ready task passed over for 24 rounds has its effective priority raised by one. -/
  | priorityAgeing (core : CoreId)
  /-- `GROUP_END` (R17). When every result of a marked group has arrived, the group write buffer is applied and the latches reset. -/
  | groupEnd (core : CoreId) (tid : Tid)
  /-- `SLOT_GRANT` (R432). A freed slot is given to the upcall queue, the gang head, or the rotating classes, starting a task. -/
  | slotGrant (core : CoreId)
  /-- `ANCHOR_GRANT` (R14). A parked anchor request is granted once an anchor place and its tiles are free. -/
  | anchorGrant (core : CoreId)
  /-- `HEARTH_REMOTE_ACCESS` (R22). The hearth executes an arriving remote load, store or atomic to its scratchpad or slice. -/
  | hearthRemoteAccess (core : CoreId) (src : Endpoint)
  /-- `SPAWN_REQUEST` (R175). The target hearth checks an arriving spawn record and pushes it or returns a refusal. -/
  | spawnRequest (core : CoreId) (src : Endpoint)
  /-- `SPAWNTO_REFUSAL` (R176). A refusal reply reaches the spawning task, which runs the child inline or faults. -/
  | spawntoRefusal (core : CoreId) (src : Endpoint)
  /-- `STEAL` (R29). An idle core with a free slot sends steal requests to victims in widening domains. -/
  | steal (core : CoreId)
  /-- `STEAL_REQUEST` (R30). A victim's bank takes the record at TOP for a permitted thief or returns empty. -/
  | stealRequest (core : CoreId) (src : Endpoint)
  /-- `STEAL_REPLY` (R29). A steal reply reaches the thief, which starts the record or tries the next victim. -/
  | stealReply (core : CoreId) (src : Endpoint)
  /-- `MIGRATION` (R26). After its remote operations are acknowledged, a task marked to migrate sends a slot reservation. -/
  | migration (core : CoreId) (tid : Tid)
  /-- `SLOT_RESERVATION` (R26). The target hearth grants or refuses a migration slot reservation. -/
  | slotReservation (core : CoreId) (src : Endpoint)
  /-- `MIGRATION_REFUSED` (R26). A refused reservation leaves the task ready on its core with its mark cleared. -/
  | migrationRefused (core : CoreId) (src : Endpoint)
  /-- `TASK_CONTEXT_ARRIVAL` (R26). A packed context arrives at the target, the task becomes ready and the source slot frees. -/
  | taskContextArrival (core : CoreId) (src : Endpoint)
  /-- `QUEUE_TAIL_WRITE` (R184). The consumer's hearth accepts a tail index from a producer ring. -/
  | queueTailWrite (core : CoreId) (src : Endpoint)
  /-- `MATRIX_COMMAND` (R240). The target hearth accepts or refuses a remote matrix command. -/
  | matrixCommand (core : CoreId) (src : Endpoint)
  /-- `ACTIVE_MESSAGE` (R22). The hearth runs a handler-type active message under the group rules. -/
  | activeMessage (core : CoreId) (src : Endpoint)
  /-- `HEARTH_OVERRUN` (R24). An active message reaching its 513th instruction is stopped and the sender receives hearth overrun. -/
  | hearthOverrun (core : CoreId)
  /-- `REMOTE_REPLY` (R155). A reply to a result-writing remote operation arrives and its result enters the group write buffer. -/
  | remoteReply (core : CoreId) (op : Nat) (ext : Option OutReply)
  /-- `DEFERRED_ERROR_REPLY` (R353). An error reply to a non-result-writing operation is raised before the task's next unit. -/
  | deferredErrorReply (core : CoreId) (op : Nat) (status : BitVec 8)
  /-- `COMBINING_BUFFER_DRAIN` (R76). A combining-buffer entry drains to its home, by age limit or a trigger, and is acknowledged. -/
  | combiningBufferDrain (core : CoreId) (index : Nat)
  /-- `HOST_PORT_ATOMIC` (R83). The host port performs an atomic on host memory with CXL.io AtomicOp requests. -/
  | hostPortAtomic
  /-- `ATOMICOP_COMPLETION` (R83). A host AtomicOp completion arrives and the compare loop ends or retries. -/
  | atomicopCompletion (value : BitVec 64) (ok : Bool)
  /-- `BARRIER_WAIT_WAKE` (R163). A parked barrier wait whose phase has passed completes as an acquire. -/
  | barrierWaitWake (core : CoreId) (tid : Tid)
  /-- `WIRE_PHASE_COMPLETE` (R166). Completion of a wire phase reaches every core of the region. -/
  | wirePhaseComplete (core : CoreId)
  /-- `WIRE_WAIT_TIMEOUT` (R166). A wire wait ends without acquiring after TIMEOUT cycles, reporting missing rows and columns. -/
  | wireWaitTimeout (core : CoreId) (tid : Tid)
  /-- `WAIT_FOR_CHANGE_WAKE` (R167). A write to a watched location re-reads it for a parked wait for change. -/
  | waitForChangeWake (core : CoreId) (tid : Tid)
  /-- `JOIN_WAKE` (R178). A write to a join counter re-examines a parked join. -/
  | joinWake (core : CoreId) (tid : Tid)
  /-- `INBOX_MESSAGE` (R168). A completion or fault message enters the core's inbox for its task. -/
  | inboxMessage (core : CoreId)
  /-- `EMBER_POST_ACCEPT` (R202). A slice accepts a post, creating or folding an ember, or applies its overflow policy. -/
  | emberPostAccept (core : CoreId) (src : Endpoint)
  /-- `EMBER_DISPATCH` (R210). A slice removes the first eligible unleased ember and starts a handler task for it. -/
  | emberDispatch (core : CoreId) (job : BitVec 16) (store : BitVec 8)
  /-- `SLICE_TAKE` (R205). A slice serves an ev.take, removing and possibly leasing the first eligible ember. -/
  | sliceTake (core : CoreId) (src : Endpoint)
  /-- `LEASE_RELEASE` (R212). A slice accepts the end of a key's lease, making its pending ember dispatchable. -/
  | leaseRelease (core : CoreId) (src : Endpoint)
  /-- `SLICE_THRESHOLD` (R207). A slice accepts a new threshold. -/
  | sliceThreshold (core : CoreId) (src : Endpoint)
  /-- `SLICE_FLUSH` (R207). A slice accepts a flush and treats every ember as eligible. -/
  | sliceFlush (core : CoreId) (src : Endpoint)
  /-- `ASH_REPOST` (R216). A slice below LOWAT re-posts the oldest deferred record of its ash log. -/
  | ashRepost (core : CoreId) (job : BitVec 16) (store : BitVec 8)
  /-- `ENGINE_WORD` (R90). The next word of a forked engine program is accepted after the previous one ends. -/
  | engineWord (core : CoreId) (tid : Tid) (eng : Engine)
  /-- `MATRIX_KSTEP` (R235). The matrix array applies one k-step of the running operation to all elements of the tile. -/
  | matrixKstep (core : CoreId)
  /-- `MATRIX_QUEUE_AGEING` (R237). A waiting matrix queue entry's effective priority rises after 4,096 cycles. -/
  | matrixQueueAgeing (core : CoreId)
  /-- `COPY_SEGMENT` (R248). The copy engine runs one 4 KiB segment of a chosen copy. -/
  | copySegment (core : CoreId)
  /-- `COPY_AGEING` (R339). A waiting copy's effective priority rises after 4,096 cycles without a segment. -/
  | copyAgeing (core : CoreId)
  /-- `SORT_STEP` (R256). The sorting array executes one compare-exchange step of the current phase. -/
  | sortStep (core : CoreId)
  /-- `QUEUE_PULL` (R184). The consumer's scheduler pulls a producer ring's records in order. -/
  | queuePull (core : CoreId) (job : BitVec 16) (queue : BitVec 8) (producer : CoreId)
  /-- `STAGED_INPUT_PIN` (R313). The scheduler translates, pins and copies a staged record's windows once extent entries are free. -/
  | stagedInputPin (core : CoreId)
  /-- `FIRE_REFUSAL` (R157). A refused or bounced fire returns to the issuing task as remote error or inline child. -/
  | fireRefusal (core : CoreId) (src : Endpoint)
  /-- `PENDING_FIRE_PUSH` (R157). A pending fire is pushed onto its target's deque when a place frees. -/
  | pendingFirePush (core : CoreId)
  /-- `NOTICE` (R296). A supervisor write of NOTICE resumes a task or engine operations awaiting notice. -/
  | notice (core : CoreId) (value : BitVec 64)
  /-- `BAROWN` (R297). A write of BAROWN assigns or frees a barrier object and resets it. -/
  | barown (core : CoreId) (value : BitVec 64)
  /-- `DQ_BASE_LIMIT_WRITE` (R288). A write of DQ_BASE or DQ_LIMIT moves the deque bounds and resets both indices. -/
  | dqBaseLimitWrite (core : CoreId) (limit : Bool) (value : BitVec 64)
  /-- `Q_PORT_READ` (R298). A read of a maintenance port pops a doubleword or parks. -/
  | qPortRead (core : CoreId) (port : BitVec 3)
  /-- `Q_PORT_WRITE` (R298). A write of a maintenance port pushes a doubleword or parks. -/
  | qPortWrite (core : CoreId) (port : BitVec 3) (value : BitVec 64) (label : BitVec 16)
  /-- `FLIP_GRANT` (R318). The host driver's grant brings the page into its frame and the access is reissued. -/
  | flipGrant (vmid : BitVec 16) (ia : BitVec 64) (hostPa : Option (BitVec 64))
  /-- `FLIP_TO_HOST` (R319). A host request flips a device-owned page to the host after invalidation. -/
  | flipToHost (vmid : BitVec 16) (ia : BitVec 64) (hostPa : BitVec 64)
  /-- `HOST_MEM_READ` (R321). A host CXL.mem read is translated through its decoder and served or poisoned. -/
  | hostMemRead (addr : BitVec 64) (len : Nat)
  /-- `HOST_MEM_WRITE` (R321). A host CXL.mem write is performed or dropped under the label rule. -/
  | hostMemWrite (addr : BitVec 64) (data : List (BitVec 8))
  /-- `PREEMPTION` (R343). A die controller stops, quiesces and saves a task and frees its slot. -/
  | preemption (core : CoreId) (tid : Tid)
  /-- `TASK_RESTORE` (R345). A saved task is restored, its replay entries reissued, and made ready. -/
  | taskRestore (core : CoreId) (tid : Tid)
  /-- `REGISTER` (R324). Bytes 0 to 71 of a mailbox as the host writes them, the request record and, in bits 575:512, the command word:
  command 1 checks and registers a graph and writes its global sections. -/
  | register (func : BitVec 6) (mailbox : BitVec 576)
  /-- `UNREGISTER` (R326). The bits above CMD of a mailbox command word with CMD 2, which frees a handle and completes when its
  launches have ended. -/
  | unregister (func : BitVec 6) (word : BitVec 60)
  /-- `WITHDRAW` (R334). The bits above CMD of a mailbox command word with CMD 3, which withdraws a launch. -/
  | withdraw (func : BitVec 6) (word : BitVec 60)
  /-- `LAUNCH` (R328). A write to the LAUNCH doorbell queues a launch word or counts it in LDROP. -/
  | launch (func : BitVec 6) (word : BitVec 64)
  /-- `LAUNCH_WORD_SERVICE` (R329). The die controllers take a launch word, reserve, write images and place start tasks. -/
  | launchWordService (part : BitVec 2)
  /-- `GANG_PLACEMENT` (R335). The gang at the head of the queue starts all members once its whole need is held. -/
  | gangPlacement (part : BitVec 2)
  /-- `LAUNCH_COMPLETION` (R333). A launch with no live work is completed, its reservations freed and a record logged. -/
  | launchCompletion (part : BitVec 2) (number : BitVec 32)
  /-- `QOS_PERIOD_START` (R336). Every 52,500 cycles the QoS block is read and balances and debts reset. -/
  | qosPeriodStart
  /-- `CIDX` (R374). A driver write of CIDX consumes cause entries and re-arms MSI-X. -/
  | cidx (value : BitVec 64)
  /-- `FENCE` (R356). The die controllers fence a failing core, slice, channel, link or die. -/
  | fence (target : FenceTarget)
  /-- `UNCORRECTABLE_ERROR` (R357). An uncorrectable error marks its line, beat or row poisoned. -/
  | uncorrectableError (place : MemPlace) (addr : Nat)
  /-- `SOFT_ERROR` (R358). A single-bit error is corrected in place and counted. -/
  | softError (place : MemPlace) (addr : Nat)
  /-- `SCRUB` (R341). Scrub rewrites corrected HBM lines under its budget. -/
  | scrub (die : BitVec 2)
  /-- `FLIT_GROUP_RECEIVE` (R382). A sealed group of four flits is checked and delivered or discarded with a NAK. -/
  | flitGroupReceive (port : BitVec 5) (headers : BitVec 256) (payload : List (BitVec 8)) (tag : BitVec 128)
  /-- `NAK` (R383). A received NAK makes the sender resend from the failed group. -/
  | nak (port : BitVec 5) (ack : BitVec 24)
  /-- `LINK_DOWN` (R383). A failing link is taken down and retrained, and the failure recorded. -/
  | linkDown (port : BitVec 5)
  /-- `FABRIC_REQUEST` (R389). An arriving request is checked, sequenced, translated and executed, and answered. -/
  | fabricRequest (port : BitVec 5) (header : BitVec 256) (data : List (BitVec 8))
  /-- `REQUEST_RESEND` (R393). A request without a reply after 8 µs is resent with the replay flag. -/
  | requestResend (core : CoreId) (op : Nat)
  /-- `REQUEST_TIMEOUT` (R393). After 40 µs an outstanding request ends with remote error. -/
  | requestTimeout (core : CoreId) (op : Nat)
  /-- `ACKNOWLEDGEMENT_PACKET` (R392). An idle source sends an acknowledgement-only packet 2 µs after its last reply. -/
  | acknowledgementPacket (core : CoreId) (dev : BitVec 12)
  /-- `REPLY_CACHE_RECLAIM` (R392). A cache gateway reclaims a source's entries after 100 µs idle and all replies acknowledged. -/
  | replyCacheReclaim (src : Endpoint)
  /-- `REKEY` (R396). A link direction moves to a new key bank without draining. -/
  | rekey (port : BitVec 5) (sending : Bool)
  /-- `RMSYNC` (R386). A write to RMSYNC starts synchronisation of the fabric window structures. -/
  | rmsync (window : FabricWindow)
  /-- `TRACE_DRAIN` (R406). Staged trace records are drained into the ring and TWR raised. -/
  | traceDrain (unit : CoreId)
  /-- `SAMPLE` (R402). Every SPERIOD cycles a SAMPLE record of the issuing unit is written. -/
  | sample (unit : CoreId)
  /-- `REPLAY_CHUNK` (R421). In replay a chunk runs once every chunk of lower place has committed. -/
  | replayChunk (unit : CoreId)
  /-- `PACKAGE_RESET` (R428). Release of reset runs each die controller's verified bring-up steps. -/
  | packageReset (failures : List StepFailure)
  /-- `POWER_LOSS` (R423). Rails lost out of order make the next power-up a cold boot. -/
  | powerLoss (inOrder : Bool)
  /-- `VCORE_CURRENT_LIMIT` (R424). A rising VCORE current is brought below the limit by withholding issue cycles. -/
  | vcoreCurrentLimit (die : BitVec 2)
  /-- `JUNCTION_TEMPERATURE` (R424). A die at 105 °C is throttled and at 115 °C fenced. -/
  | junctionTemperature (die : BitVec 2) (celsius : Nat)
  /-- `GET_VERSION` (R430). SPDM request returning supported versions. -/
  | getVersion
  /-- `GET_CAPABILITIES` (R430). SPDM request returning capabilities. -/
  | getCapabilities
  /-- `NEGOTIATE_ALGORITHMS` (R430). SPDM request negotiating ML-DSA-65 and SHAKE256 as extended algorithms. -/
  | negotiateAlgorithms (asym hash : List (BitVec 32))
  /-- `GET_DIGESTS` (R430). SPDM request returning certificate chain digests. -/
  | getDigests
  /-- `GET_CERTIFICATE` (R430). SPDM request returning the certificate chain. -/
  | getCertificate (offset length : Nat)
  /-- `CHALLENGE` (R430). SPDM challenge signed with the identity key. -/
  | challenge (nonce : BitVec 256)
  /-- `GET_MEASUREMENTS` (R430). SPDM request returning the five measurements. -/
  | getMeasurements (index : BitVec 8) (nonce : BitVec 256)
  /-- `KEY_EXCHANGE` (R430). SPDM request starting a secure session. -/
  | keyExchange (exchange : List (BitVec 8))
  /-- `FINISH` (R430). SPDM request completing session establishment. -/
  | finish (verify : BitVec 256)
  /-- `KEY_UPDATE` (R430). SPDM request updating session keys. -/
  | keyUpdate
  /-- `END_SESSION` (R430). SPDM request ending a secure session. -/
  | endSession
  /-- `OPERATION_ACKNOWLEDGEMENT` (R204). The acknowledgement of a remote store, post or other non-result-writing operation reaches the issuing task, freeing an ev.post reservation and letting waiting releases and migrations proceed. -/
  | operationAcknowledgement (core : CoreId) (op : Nat)
  /-- `CXL_COMPLETION_TIMEOUT` (R83). A host-port AtomicOp that passes the CXL completion timeout ends its atomic with remote error. -/
  | cxlCompletionTimeout
  /-- `PACKAGE_POWER_LIMIT` (R424). The package power manager withholds issue cycles when average package power over a 10 ms window would exceed 3,000 W. -/
  | packagePowerLimit
  /-- `PIPE_MESSAGE_ARRIVAL` (R186). A sent pipe message, or the sender's close, reaches the receiver's slot and wakes a parked pipe.recv. -/
  | pipeMessageArrival (core : CoreId) (src : Endpoint)
  /-- `PIPE_CREDIT_RETURN` (R186). A credit returned by pipe.recv reaches the sender and wakes a pipe.send parked for a credit. -/
  | pipeCreditReturn (core : CoreId) (src : Endpoint)
  /-- `ILLEGAL_INSTRUCTION` (R101). Executing a word of an unassigned major, or with an unlisted operation or modifier value, raises illegal instruction at it. -/
  | illegalInstruction
  /-- `MAINTENANCE_PORT_ARRIVAL` (R298). A doubleword from the board management controller or another far end enters a maintenance port, or the far end frees outgoing room, waking a parked Q-port read or write. -/
  | maintenancePortArrival (die : BitVec 2) (port : BitVec 3) (value : Option (BitVec 64)) (freed : Nat)
  /-- `HOST_SKIP_ALT_RECORD` (R427). The host writes a SKIP or ALT record to the boot journal over the authenticated SPDM session. -/
  | hostSkipAltRecord (alt : Bool) (step : BitVec 8) (unit : BitVec 16) (arg : BitVec 96)
  deriving DecidableEq, Repr

/-- What moves next when the machine's agenda says so: an event of the table, or the issue port of a core. -/
inductive Turn where
  | event (i : Instr)
  | core (c : CoreId)
  deriving DecidableEq, Repr

end Sys2Proof
end

