-- ==== Sys2Proof/WellFormed.lean ====
section
/-! DEFINITION. Which terms of `Instr` stand for an instruction word that decodes (checks 2 and 3 of R102, as far as
they depend on the word alone). Event rows have no word and are always well formed. What depends on the state (the
anchor grant of R36, the maintenance mode of R97, the privilege level of R103) is checked by the meanings. -/

namespace Sys2Proof

/-- A destination of a fixed-latency scalar ALU instruction (R97): TID is illegal. -/
def SReg.aluDest : SReg → Bool
  | .tid => false
  | _ => true

/-- A destination of any other instruction (R19, R97): TID and L are illegal. -/
def SReg.dest : SReg → Bool
  | .tid => false
  | .l => false
  | _ => true

/-- A destination that R152, R144 and R285 restrict to g0 to g15 or ZERO. -/
def SReg.gDest : SReg → Bool
  | .g _ => true
  | .zero => true
  | _ => false

/-- The source of a store (R152): g0 to g15, L, ZERO or TID. -/
def SReg.stSource : SReg → Bool
  | .q _ => false
  | _ => true

/-- An operand entry (R227). -/
def VReg.isO : VReg → Bool
  | .o _ => true
  | _ => false

/-- An operand entry or LV (R227). -/
def VReg.isOLv : VReg → Bool
  | .zv => false
  | _ => true

/-- An operand entry or ZV (R230). -/
def VReg.isOZv : VReg → Bool
  | .lv => false
  | _ => true

/-- The scopes 2 to 5 of the barrier forms (R163, R166). -/
def Scope.barrier : Scope → Bool
  | .core | .clus | .die | .part => true
  | _ => false

/-- The scopes 0 to 5 of wait for change (R167). -/
def Scope.watch : Scope → Bool
  | .task | .eng | .core | .clus | .die | .part => true
  | _ => false

/-- The orders of a load (R99). -/
def Order.load : Order → Bool
  | .plain | .acq => true
  | _ => false

/-- The orders of a store (R99). -/
def Order.store : Order → Bool
  | .plain | .rel => true
  | _ => false

/-- A floating code of `fcvt` (R147). -/
def CFmt.floating : CFmt → Bool
  | .f32 | .f64 | .f16 | .bf16 => true
  | _ => false

/-- The row width of a format tag that has one in elements (R39): codes 1 to 8. -/
def FTag.width : FTag → Option Nat
  | .fp32 | .int32 | .uint32 => some 64
  | .bf16 | .fp16 | .int16 => some 128
  | .fp64 => some 32
  | .int8 => some 256
  | _ => Option.none

/-- A BQ tag. -/
def FTag.isBq : FTag → Bool
  | .bq7 | .bq4 | .bq2 => true
  | _ => false

/-- The groups of a BQ row in a conversion with BF16 (R226). -/
def FTag.groups : FTag → Nat
  | .bq7 => 2
  | .bq4 => 3
  | .bq2 => 4
  | _ => 0

/-- The pairs, group numbers and halves that `vcvt` allows (R225, R226). -/
def vcvtOk (group : BitVec 4) (dst src : FTag) (hi : Bool) : Bool :=
  dst != .none && src != .none && dst != src &&
  (if dst == .raw || src == .raw then group == 0 && !hi
   else match dst.width, src.width with
    | some wd, some ws =>
      group == 0 && (if wd == ws then !hi else (wd * 2 == ws || wd == ws * 2))
    | _, _ =>
      !hi && ((dst.isBq && src == .bf16 && group.toNat < dst.groups) ||
              (src.isBq && dst == .bf16 && group.toNat < src.groups)))

/-- Key format and pair form agree (R259). -/
def sortOk (kfmt : KFmt) (form : KForm) : Bool :=
  match kfmt with
  | .i64 | .u64 => form == .k64
  | _ => form == .k32p32

/-- The registers that a write form may name (R284, R285). -/
def SysReg.writable : SysReg → Bool
  | .dqBot | .dqTop | .cycle | .coreId | .jobid => false
  | _ => true

/-- The registers that `sys.set` and `sys.clr` may name: not JSCAP (R285), not BAROWN (R297). -/
def SysReg.bitwise (r : SysReg) : Bool := r.writable && r != .jscap && r != .barown

/-- Whether the term stands for a word that decodes. -/
def Instr.wf : Instr → Bool
  | .ialuAdd _ d _ _ | .ialuSub _ d _ _ | .ialuAnd _ d _ _ | .ialuOr _ d _ _ | .ialuXor _ d _ _
  | .ialuAndn _ d _ _ | .ialuSll _ d _ _ | .ialuSrl _ d _ _ | .ialuSra _ d _ _ | .ialuSlt _ d _ _
  | .ialuSltu _ d _ _ | .ialuMin _ d _ _ | .ialuMax _ d _ _ | .ialuMinu _ d _ _ | .ialuMaxu _ d _ _
  | .ialuiAdd _ d _ _ | .ialuiAnd _ d _ _ | .ialuiOr _ d _ _ | .ialuiXor _ d _ _ | .ialuiSll _ d _ _
  | .ialuiSrl _ d _ _ | .ialuiSra _ d _ _ | .ialuiSlt _ d _ _ | .lui _ d _
  | .ibitClz _ d _ | .ibitCtz _ d _ | .ibitPopc _ d _ | .ibitBrev _ d _ | .ibitBswap _ d _
  | .ibitSext _ d _ _ | .ibitZext _ d _ _ | .ibitBext _ d _ _ | .ibitBins _ d _ _ | .ibitRol _ d _ _
  | .ibitRor _ d _ _ | .imulMul _ d _ _ | .imulMulh _ d _ _ | .imulMulhu _ d _ _ | .imulMulhsu _ d _ _
  | .capGetbase _ d _ | .capGettop _ d _ | .capGetlen _ d _ | .capGetperm _ d _ | .capGetspace _ d _
  | .capGettag _ d _ | .capSetcur _ d _ _ | .capAddcur _ d _ _ | .capSetbnd _ d _ _ | .capSetbndx _ d _ _
  | .capAndperm _ d _ _ | .capSetspace _ d _ _ | .capiAddcur _ d _ _ | .capiSetbnd _ d _ _
  | .capiSetbndx _ d _ _ | .capiAndperm _ d _ _
  | .lblGet _ d _ | .lblCtl _ d | .lblRaise _ d _ _ | .lblSub _ d _ _ => d.aluDest
  | .imulDiv _ d _ _ | .imulDivu _ d _ _ | .imulRem _ d _ _ | .imulRemu _ d _ _
  | .fpuAdd _ d _ _ _ | .fpuSub _ d _ _ _ | .fpuMul _ d _ _ _ | .fpuDiv _ d _ _ _ | .fpuSqrt _ d _ _
  | .fpuFma _ d _ _ _ | .fpuMin _ d _ _ _ | .fpuMax _ d _ _ _ | .fpuNeg _ d _ _ | .fpuAbs _ d _ _
  | .fpuSgnj _ d _ _ _ | .fpuCmpeq _ d _ _ _ | .fpuCmplt _ d _ _ _ | .fpuCmple _ d _ _ _ | .fpuClass _ d _ _
  | .atomSwap _ d _ _ _ _ _ | .atomCas _ d _ _ _ _ _ | .atomAdd _ d _ _ _ _ _ | .atomAnd _ d _ _ _ _ _
  | .atomOr _ d _ _ _ _ _ | .atomMin _ d _ _ _ _ _ | .atomMax _ d _ _ _ _ _ | .atomDecf _ d _ _ _ _ _
  | .fatomAdd _ d _ _ _ _ _ | .fatomMin _ d _ _ _ _ _ | .fatomMax _ d _ _ _ _ _
  | .barJoin _ d _ | .barMiss _ d _ | .inboxPop _ d _ | .inboxPeek _ d | .inboxCount _ d
  | .taskSpawn d _ | .taskSpawnto d _ _ | .queuePop _ d _ _ | .pipeSend _ d _ _ | .pipeRecv _ d _ _
  | .evPostw _ d _ _ | .evTake _ d _ _ | .evStat _ d _ _ | .dbgRdctr _ d _ => d.dest
  | .fcvt _ d _ dst src => d.dest && dst != src && (dst.floating || src.floating)
  | .jrLink _ d _ => d.gDest
  | .ld _ d _ _ o _ _ => d.gDest && o.load
  | .st _ d _ _ o _ _ => d.stSource && o.store
  | .barArrive _ d _ sc | .barSync _ d _ sc | .barWwait _ d _ sc | .barWarrive _ d sc => d.dest && sc.barrier
  | .barWait _ _ _ sc => sc.barrier
  | .barWfcw _ d _ _ sc | .barWfcd _ d _ _ sc => d.dest && sc.watch
  | .engFork _ _ _ m | .engRdv _ m => m != 0
  | .vintCmpeq _ _ _ _ f | .vintCmplt _ _ _ _ f | .vintSel _ _ _ _ _ f => f != .i8
  | .vmovGet _ d _ _ => d.isO
  | .vmovPut _ a _ _ => a.isOLv
  | .vmovCopy _ d a _ => d.isO && a.isOLv
  | .vcvt _ _ _ g dst src hi => vcvtOk g dst src hi
  | .vredRowstat _ d _ f =>
    (match d with | .o n => n.toNat < 6 | _ => false) && (f == .f32 || f == .bf16 || f == .f16)
  | .vld _ d _ _ o _ _ => d.isOZv && o.load
  | .vst _ _ _ _ o _ _ => o.store
  | .sortLoad _ _ _ t _ k f | .sortStore _ _ _ t _ k f | .sortTopk _ _ _ t _ k f | .sortRun _ _ t _ k f
  | .sortRows _ t _ k f => t.toNat % 2 == 0 && sortOk k f
  | .sysRd _ d _ => d.gDest
  | .sysWr _ _ r => r.writable
  | .sysXchg _ d _ r => d.gDest && r.writable
  | .sysSet _ d _ r | .sysClr _ d _ r => d.gDest && r.bitwise
  | .hintMod _ msk neg => !neg || msk.isSome
  | _ => true

end Sys2Proof
end

