-- ==== Sys2Proof/Decode.lean ====
section
/-! DEFINITION. Decoding and encoding of instruction words (R94 to R104), from the formats of R95, the specifiers of R97
and R98, the codes of R99 and the major map of R100. Decoding is total and refuses by name; every refusal is *illegal
instruction* (R101, R102). -/

namespace Sys2Proof

/-- Why a word does not decode. -/
inductive DecodeError where
  | shortInput
  | unassignedMajor
  | unlistedOperation
  | fieldNotZero
  | badRegister
  | markerMissing
  | markedPrefix
  | illFormed
  deriving DecidableEq, Repr

/-! ### Fields of the formats (R95), read from the word as a number -/

def fS (w : Nat) : Bool := w / 2147483648 % 2 == 1
def fMajor (w : Nat) : Nat := w / 33554432 % 64
/-- Bits [24:20]: d, or a of formats B and X. -/
def fD (w : Nat) : Nat := w / 1048576 % 32
/-- Bits [19:15]: a, or b of formats B and X. -/
def fA (w : Nat) : Nat := w / 32768 % 32
/-- Bits [14:10]: b of format A. -/
def fB (w : Nat) : Nat := w / 1024 % 32
def fFn (w : Nat) : Nat := w % 1024
def fFn3 (w : Nat) : Nat := w / 4096 % 8
def fImm12 (w : Nat) : Nat := w % 4096
def fImm20 (w : Nat) : Nat := w % 1048576
def fOff25 (w : Nat) : Nat := w % 33554432
def fScopeM (w : Nat) : Nat := w / 2048 % 16
def fOrderM (w : Nat) : Nat := w / 512 % 4
def fSizeM (w : Nat) : Nat := w / 64 % 8
def fOff6 (w : Nat) : Nat := w % 64
def fVd (w : Nat) : Nat := w / 2097152 % 16
def fVa (w : Nat) : Nat := w / 131072 % 16
def fVb (w : Nat) : Nat := w / 8192 % 16
def fVc (w : Nat) : Nat := w / 512 % 16
def fFn9 (w : Nat) : Nat := w % 512
def fRow9 (w : Nat) : Nat := w / 256 % 512
def fFn8 (w : Nat) : Nat := w % 256
def fEng (w : Nat) : Nat := w / 4096 % 8
def fFn12 (w : Nat) : Nat := w % 4096
def fSys (w : Nat) : Nat := w / 8 % 4096
def fFn3S (w : Nat) : Nat := w % 8
def fKind (w : Nat) : Nat := w / 4194304 % 8
def fPay (w : Nat) : Nat := w % 4194304

/-! ### Codes -/

def boolCode (b : Bool) : Nat := if b then 1 else 0

/-- R97. -/
def SReg.code : SReg → Nat
  | .g n => n.toNat
  | .l => 16
  | .zero => 17
  | .tid => 18
  | .q n => 24 + n.toNat

/-- R97: 19 to 23 are reserved. -/
def sregOf (n : Nat) : Except DecodeError SReg :=
  if n < 16 then .ok (.g (BitVec.ofNat 4 n))
  else if n = 16 then .ok .l
  else if n = 17 then .ok .zero
  else if n = 18 then .ok .tid
  else if n < 24 then .error .badRegister
  else .ok (.q (BitVec.ofNat 3 (n - 24)))

/-- R98. -/
def VReg.code : VReg → Nat
  | .o n => n.toNat
  | .lv => 8
  | .zv => 9

/-- R98: 10 to 15 are illegal. -/
def vregOf (n : Nat) : Except DecodeError VReg :=
  if n < 8 then .ok (.o (BitVec.ofNat 3 n))
  else if n = 8 then .ok .lv
  else if n = 9 then .ok .zv
  else .error .badRegister

def Scope.code : Scope → Nat
  | .task => 0 | .eng => 1 | .core => 2 | .clus => 3 | .die => 4 | .part => 5 | .pod => 6 | .host => 7 | .sys => 8

def Order.code : Order → Nat
  | .plain => 0 | .acq => 1 | .rel => 2 | .acqrel => 3

def Size.code : Size → Nat
  | .b => 0 | .h => 1 | .w => 2 | .d => 3 | .q => 4 | .cap => 5

def ASize.code : ASize → Nat
  | .w => 0 | .d => 1

def SFmt.code : SFmt → Nat
  | .f32 => 0 | .f64 => 1

def CFmt.code : CFmt → Nat
  | .f32 => 0 | .f64 => 1 | .f16 => 2 | .bf16 => 3 | .i32 => 4 | .u32 => 5 | .i64 => 6 | .u64 => 7

def VFmt.code : VFmt → Nat
  | .f32 => 0 | .bf16 => 1 | .f16 => 2 | .f64 => 3

def IFmt.code : IFmt → Nat
  | .i32 => 0 | .u32 => 1 | .i16 => 2 | .i8 => 3

def RFmt.code : RFmt → Nat
  | .f32 => 0 | .bf16 => 1 | .f16 => 2 | .f64 => 3 | .i32 => 4 | .u32 => 5 | .i16 => 6 | .i8 => 7

def MFmt.code : MFmt → Nat
  | .raw => 0 | .f32 => 1 | .bf16 => 2 | .f16 => 3 | .f64 => 4 | .i32 => 5 | .i16 => 6 | .i8 => 7

/-- R39. -/
def FTag.code : FTag → Nat
  | .none => 0 | .fp32 => 1 | .bf16 => 2 | .fp16 => 3 | .fp64 => 4 | .int32 => 5 | .uint32 => 6 | .int16 => 7
  | .int8 => 8 | .bq7 => 9 | .bq4 => 10 | .bq2 => 11 | .keys => 12 | .raw => 13

def KFmt.code : KFmt → Nat
  | .i32 => 0 | .u32 => 1 | .f32 => 2 | .f16 => 3 | .bf16 => 4 | .i64 => 5 | .u64 => 6

def KForm.code : KForm → Nat
  | .k32p32 => 0 | .k64 => 1

def CpDest.code : CpDest → Nat
  | .spad => 0 | .pipea => 1 | .pipeb => 2

def Mig.code : Mig → Nat
  | .none => 0 | .remote => 1 | .migrate => 2

/-- The numbers of R284. -/
def SysReg.code : SysReg → Nat
  | .tsw => 0x000 | .tlevel => 0x001 | .utvec => 0x002 | .uepc => 0x003 | .ucause => 0x004 | .uval => 0x005
  | .dqBase => 0x010 | .dqLimit => 0x011 | .dqBot => 0x012 | .dqTop => 0x013 | .jsel => 0x014 | .barown => 0x015
  | .cycle => 0x016 | .coreId => 0x017 | .notice => 0x018 | .jobid => 0x020 | .jscap => 0x021 | .upentry => 0x022
  | .udeleg => 0x023 | .pt1root => 0x024 | .asid => 0x025 | .pt2root => 0x026 | .vmid => 0x027 | .stvec => 0x030
  | .sdeleg => 0x031 | .htvec => 0x038 | .hdeleg => 0x039 | .mtvec => 0x03F

/-- The mask field of a hint.mod prefix (R104): 0 none, 1 to 4 M0 to M3. -/
def mskCode : Option (BitVec 2) → Nat
  | none => 0
  | some k => k.toNat + 1

/-- The lane selector of `vmov.copy` (R227). -/
def laneCode : Option (BitVec 8) → Nat
  | none => 0
  | some k => 256 + k.toNat

/-- A listed value of a field, or the refusal that the table gives every other value (R100). -/
def pick {α : Type} (table : List α) (n : Nat) : Except DecodeError α :=
  match table[n]? with
  | some x => .ok x
  | none => .error .unlistedOperation

def scopeOf : Nat → Except DecodeError Scope := pick [.task, .eng, .core, .clus, .die, .part, .pod, .host, .sys]
def orderOf : Nat → Except DecodeError Order := pick [.plain, .acq, .rel, .acqrel]
def sizeOf : Nat → Except DecodeError Size := pick [.b, .h, .w, .d, .q, .cap]
def asizeOf : Nat → Except DecodeError ASize := pick [.w, .d]
def sfmtOf : Nat → Except DecodeError SFmt := pick [.f32, .f64]
def cfmtOf : Nat → Except DecodeError CFmt := pick [.f32, .f64, .f16, .bf16, .i32, .u32, .i64, .u64]
def vfmtOf : Nat → Except DecodeError VFmt := pick [.f32, .bf16, .f16, .f64]
def ifmtOf : Nat → Except DecodeError IFmt := pick [.i32, .u32, .i16, .i8]
def rfmtOf : Nat → Except DecodeError RFmt := pick [.f32, .bf16, .f16, .f64, .i32, .u32, .i16, .i8]
def mfmtOf : Nat → Except DecodeError MFmt := pick [.raw, .f32, .bf16, .f16, .f64, .i32, .i16, .i8]
def ftagOf : Nat → Except DecodeError FTag :=
  pick [.none, .fp32, .bf16, .fp16, .fp64, .int32, .uint32, .int16, .int8, .bq7, .bq4, .bq2, .keys, .raw]
def kfmtOf : Nat → Except DecodeError KFmt := pick [.i32, .u32, .f32, .f16, .bf16, .i64, .u64]
def kformOf : Nat → Except DecodeError KForm := pick [.k32p32, .k64]
def cpDestOf : Nat → Except DecodeError CpDest := pick [.spad, .pipea, .pipeb]
def migOf : Nat → Except DecodeError Mig := pick [.none, .remote, .migrate]
def mskOf : Nat → Except DecodeError (Option (BitVec 2)) := pick [none, some 0, some 1, some 2, some 3]

/-- R284: no other number names a system register. -/
def sysRegOf (n : Nat) : Except DecodeError SysReg :=
  match [SysReg.tsw, .tlevel, .utvec, .uepc, .ucause, .uval, .dqBase, .dqLimit, .dqBot, .dqTop, .jsel, .barown,
         .cycle, .coreId, .notice, .jobid, .jscap, .upentry, .udeleg, .pt1root, .asid, .pt2root, .vmid, .stvec,
         .sdeleg, .htvec, .hdeleg, .mtvec].find? (fun r => r.code == n) with
  | some r => .ok r
  | none => .error .unlistedOperation

/-! ### Operand shapes: the register fields that a form uses; every other one must be zero (R96) -/

/-- Refuses a word of which a field that must be zero is not. -/
def zero (n : Nat) (k : Except DecodeError Instr) : Except DecodeError Instr :=
  if n = 0 then k else .error .fieldNotZero

def withD (w : Nat) (k : SReg → Except DecodeError Instr) : Except DecodeError Instr :=
  match sregOf (fD w) with | .ok r => k r | .error e => .error e
def withA (w : Nat) (k : SReg → Except DecodeError Instr) : Except DecodeError Instr :=
  match sregOf (fA w) with | .ok r => k r | .error e => .error e
def withB (w : Nat) (k : SReg → Except DecodeError Instr) : Except DecodeError Instr :=
  match sregOf (fB w) with | .ok r => k r | .error e => .error e
/-- A decoded field. -/
def withF {α : Type} (x : Except DecodeError α) (k : α → Except DecodeError Instr) : Except DecodeError Instr :=
  match x with | .ok r => k r | .error e => .error e

def shDAB (w : Nat) (k : Bool → SReg → SReg → SReg → Instr) : Except DecodeError Instr :=
  withD w fun d => withA w fun a => withB w fun b => .ok (k (fS w) d a b)
def shDA (w : Nat) (k : Bool → SReg → SReg → Instr) : Except DecodeError Instr :=
  zero (fB w) (withD w fun d => withA w fun a => .ok (k (fS w) d a))
def shD (w : Nat) (k : Bool → SReg → Instr) : Except DecodeError Instr :=
  zero (fA w) (zero (fB w) (withD w fun d => .ok (k (fS w) d)))
def shAB (w : Nat) (k : Bool → SReg → SReg → Instr) : Except DecodeError Instr :=
  zero (fD w) (withA w fun a => withB w fun b => .ok (k (fS w) a b))
def shA (w : Nat) (k : Bool → SReg → Instr) : Except DecodeError Instr :=
  zero (fD w) (zero (fB w) (withA w fun a => .ok (k (fS w) a)))
def sh0 (w : Nat) (k : Bool → Instr) : Except DecodeError Instr :=
  zero (fD w) (zero (fA w) (zero (fB w) (.ok (k (fS w)))))

/-- A form that must carry the switch marker (R171, R295, R299). -/
def marked (w : Nat) (k : Except DecodeError Instr) : Except DecodeError Instr :=
  if fS w then k else .error .markerMissing

/-! ### The majors -/

def decIalu (w : Nat) : Except DecodeError Instr :=
  withF (pick [Instr.ialuAdd, .ialuSub, .ialuAnd, .ialuOr, .ialuXor, .ialuAndn, .ialuSll, .ialuSrl, .ialuSra,
    .ialuSlt, .ialuSltu, .ialuMin, .ialuMax, .ialuMinu, .ialuMaxu] (fFn w)) (shDAB w)

def decIalui (w : Nat) : Except DecodeError Instr :=
  withD w fun d => withA w fun a =>
    let i := BitVec.ofNat 12 (fImm12 w)
    let sh := BitVec.ofNat 6 (fImm12 w)
    let shift (k : Instr) : Except DecodeError Instr := zero (fImm12 w / 64) (.ok k)
    match fFn3 w with
    | 0 => .ok (.ialuiAdd (fS w) d a i)
    | 1 => .ok (.ialuiAnd (fS w) d a i)
    | 2 => .ok (.ialuiOr (fS w) d a i)
    | 3 => .ok (.ialuiXor (fS w) d a i)
    | 4 => shift (.ialuiSll (fS w) d a sh)
    | 5 => shift (.ialuiSrl (fS w) d a sh)
    | 6 => shift (.ialuiSra (fS w) d a sh)
    | _ => .ok (.ialuiSlt (fS w) d a i)

def decIbit (w : Nat) : Except DecodeError Instr :=
  match fFn w with
  | 0 => shDA w .ibitClz
  | 1 => shDA w .ibitCtz
  | 2 => shDA w .ibitPopc
  | 3 => shDA w .ibitBrev
  | 4 => shDA w .ibitBswap
  | 5 => shDAB w .ibitSext
  | 6 => shDAB w .ibitZext
  | 7 => shDAB w .ibitBext
  | 8 => shDAB w .ibitBins
  | 9 => shDAB w .ibitRol
  | 10 => shDAB w .ibitRor
  | _ => .error .unlistedOperation

def decImul (w : Nat) : Except DecodeError Instr :=
  withF (pick [Instr.imulMul, .imulMulh, .imulMulhu, .imulMulhsu, .imulDiv, .imulDivu, .imulRem, .imulRemu] (fFn w))
    (shDAB w)

def decCap (w : Nat) : Except DecodeError Instr :=
  match fFn w with
  | 0 => shDA w .capGetbase
  | 1 => shDA w .capGettop
  | 2 => shDA w .capGetlen
  | 3 => shDA w .capGetperm
  | 4 => shDA w .capGetspace
  | 5 => shDA w .capGettag
  | 6 => shDAB w .capSetcur
  | 7 => shDAB w .capAddcur
  | 8 => shDAB w .capSetbnd
  | 9 => shDAB w .capSetbndx
  | 10 => shDAB w .capAndperm
  | 11 => shDAB w .capSetspace
  | _ => .error .unlistedOperation

def decCapi (w : Nat) : Except DecodeError Instr :=
  withF (pick [Instr.capiAddcur, .capiSetbnd, .capiSetbndx, .capiAndperm] (fFn3 w)) fun k =>
    withD w fun d => withA w fun a => .ok (k (fS w) d a (BitVec.ofNat 12 (fImm12 w)))

def decBr (w : Nat) : Except DecodeError Instr :=
  withF (pick [Instr.brEq, .brNe, .brLt, .brGe, .brLtu, .brGeu, .brBset, .brBclr] (fFn3 w)) fun k =>
    withD w fun a => withA w fun b => .ok (k (fS w) a b (BitVec.ofNat 12 (fImm12 w)))

def decJr (w : Nat) : Except DecodeError Instr :=
  match fFn w with
  | 0 => shA w .jrGo
  | 1 => shDA w .jrLink
  | _ => .error .unlistedOperation

def decFpu (w : Nat) : Except DecodeError Instr :=
  withF (sfmtOf (fFn w / 256)) fun f =>
    match fFn8 w with
    | 0 => shDAB w (.fpuAdd · · · · f)
    | 1 => shDAB w (.fpuSub · · · · f)
    | 2 => shDAB w (.fpuMul · · · · f)
    | 3 => shDAB w (.fpuDiv · · · · f)
    | 4 => shDA w (.fpuSqrt · · · f)
    | 5 => shDAB w (.fpuFma · · · · f)
    | 6 => shDAB w (.fpuMin · · · · f)
    | 7 => shDAB w (.fpuMax · · · · f)
    | 8 => shDA w (.fpuNeg · · · f)
    | 9 => shDA w (.fpuAbs · · · f)
    | 10 => shDAB w (.fpuSgnj · · · · f)
    | 11 => shDAB w (.fpuCmpeq · · · · f)
    | 12 => shDAB w (.fpuCmplt · · · · f)
    | 13 => shDAB w (.fpuCmple · · · · f)
    | 14 => shDA w (.fpuClass · · · f)
    | _ => .error .unlistedOperation

def decFcvt (w : Nat) : Except DecodeError Instr :=
  withF (cfmtOf (fFn w / 32)) fun dst => withF (cfmtOf (fFn w % 32)) fun src => shDA w (.fcvt · · · dst src)

def decLbl (w : Nat) : Except DecodeError Instr :=
  match fFn w with
  | 0 => shDA w .lblGet
  | 1 => shD w .lblCtl
  | 2 => shDAB w .lblRaise
  | 3 => shDAB w .lblSub
  | _ => .error .unlistedOperation

def decLdSt (w : Nat) (k : Bool → SReg → SReg → Scope → Order → Size → BitVec 6 → Instr) : Except DecodeError Instr :=
  withF (scopeOf (fScopeM w)) fun sc => withF (orderOf (fOrderM w)) fun o => withF (sizeOf (fSizeM w)) fun z =>
    withD w fun d => withA w fun a => .ok (k (fS w) d a sc o z (BitVec.ofNat 6 (fOff6 w)))

def decAtom (w : Nat) : Except DecodeError Instr :=
  withF (scopeOf (fFn w / 64)) fun sc => withF (orderOf (fFn w / 16 % 4)) fun o => withF (asizeOf (fFn w / 8 % 2)) fun z =>
    withF (pick [Instr.atomSwap, .atomCas, .atomAdd, .atomAnd, .atomOr, .atomMin, .atomMax, .atomDecf] (fFn w % 8))
      fun k => shDAB w (k · · · · sc o z)

def decFatom (w : Nat) : Except DecodeError Instr :=
  withF (scopeOf (fFn w / 64)) fun sc => withF (orderOf (fFn w / 16 % 4)) fun o => withF (sfmtOf (fFn w / 8 % 2)) fun f =>
    withF (pick [Instr.fatomAdd, .fatomMin, .fatomMax] (fFn w % 8)) fun k => shDAB w (k · · · · sc o f)

def decFence (w : Nat) : Except DecodeError Instr :=
  zero (fFn w % 16) (withF (scopeOf (fFn w / 64)) fun sc =>
    withF (pick [Instr.fenceSc, .fenceAcq, .fenceRel, .fenceAcqrel] (fFn w / 16 % 4)) fun k => sh0 w (k · sc))

def decBar (w : Nat) : Except DecodeError Instr :=
  zero (fFn w / 16 % 4) (withF (scopeOf (fFn w / 64)) fun sc =>
    let task (k : Except DecodeError Instr) : Except DecodeError Instr :=
      if sc = .task then k else .error .unlistedOperation
    match fFn w % 16 with
    | 0 => task (shDA w .barJoin)
    | 1 => task (shA w .barLeave)
    | 2 => shDA w (.barArrive · · · sc)
    | 3 => shAB w (.barWait · · · sc)
    | 4 => shDA w (.barSync · · · sc)
    | 5 => task (shDA w .barMiss)
    | 6 => task (shA w .barWregion)
    | 7 => shD w (.barWarrive · · sc)
    | 8 => shDA w (.barWwait · · · sc)
    | 9 => shDAB w (.barWfcw · · · · sc)
    | 10 => shDAB w (.barWfcd · · · · sc)
    | _ => .error .unlistedOperation)

def decInbox (w : Nat) : Except DecodeError Instr :=
  match fFn w with
  | 0 => shDA w .inboxPop
  | 1 => shD w .inboxPeek
  | 2 => shD w .inboxCount
  | _ => .error .unlistedOperation

def decTask (w : Nat) : Except DecodeError Instr :=
  marked w (match fFn w with
    | 0 => shDA w (fun _ => .taskSpawn)
    | 1 => shDAB w (fun _ => .taskSpawnto)
    | 2 => shA w (fun _ => .taskJoin)
    | 3 => shA w (fun _ => .taskAnchor)
    | 4 => sh0 w (fun _ => .taskUnanchor)
    | 5 => shA w (fun _ => .taskEnd)
    | 6 => sh0 w (fun _ => .taskYield)
    | _ => .error .unlistedOperation)

def decQueue (w : Nat) : Except DecodeError Instr :=
  match fFn w with
  | 0 => shAB w .queuePush
  | 1 => shDAB w .queuePop
  | 2 => shA w .queueTail
  | _ => .error .unlistedOperation

def decPipe (w : Nat) : Except DecodeError Instr :=
  match fFn w with
  | 0 => shDAB w .pipeSend
  | 1 => shDAB w .pipeRecv
  | 2 => shA w .pipeClose
  | _ => .error .unlistedOperation

def decEv (w : Nat) : Except DecodeError Instr :=
  match fFn w with
  | 0 => shDAB w .evPost
  | 1 => shDAB w .evPostw
  | 2 => shDAB w .evTake
  | 3 => shAB w .evDone
  | 4 => shAB w .evThresh
  | 5 => shA w .evFlush
  | 6 => shDAB w .evStat
  | _ => .error .unlistedOperation

/-- The a and b of format X stand where d and a of format A do. -/
def shX (w : Nat) (k : Bool → SReg → SReg → Instr) : Except DecodeError Instr :=
  withD w fun a => withA w fun b => .ok (k (fS w) a b)
def shXA (w : Nat) (k : Bool → SReg → Instr) : Except DecodeError Instr :=
  zero (fA w) (withD w fun a => .ok (k (fS w) a))
def shX0 (w : Nat) (k : Bool → Instr) : Except DecodeError Instr :=
  zero (fD w) (zero (fA w) (.ok (k (fS w))))

def decEng (w : Nat) : Except DecodeError Instr :=
  zero (fFn12 w / 16) (match fFn12 w % 16 with
    | 0 => shX w (.engFork · · · (BitVec.ofNat 3 (fEng w)))
    | 1 => shX0 w (.engRdv · (BitVec.ofNat 3 (fEng w)))
    | _ => .error .unlistedOperation)

/-- The vector fields of format V that a form uses; every other one must be zero. -/
def vDAB (w : Nat) (k : Bool → VReg → VReg → VReg → Instr) : Except DecodeError Instr :=
  zero (fVc w) (withF (vregOf (fVd w)) fun d => withF (vregOf (fVa w)) fun a => withF (vregOf (fVb w)) fun b =>
    .ok (k (fS w) d a b))
def vDABC (w : Nat) (k : Bool → VReg → VReg → VReg → VReg → Instr) : Except DecodeError Instr :=
  withF (vregOf (fVd w)) fun d => withF (vregOf (fVa w)) fun a => withF (vregOf (fVb w)) fun b =>
    withF (vregOf (fVc w)) fun c => .ok (k (fS w) d a b c)
def vDA (w : Nat) (k : Bool → VReg → VReg → Instr) : Except DecodeError Instr :=
  zero (fVb w) (zero (fVc w) (withF (vregOf (fVd w)) fun d => withF (vregOf (fVa w)) fun a => .ok (k (fS w) d a)))
/-- A mask named by the vc field (R222). -/
def maskOf (n : Nat) : Except DecodeError (BitVec 2) :=
  if n < 4 then .ok (BitVec.ofNat 2 n) else .error .badRegister
def vCmp (w : Nat) (k : Bool → VReg → VReg → BitVec 2 → Instr) : Except DecodeError Instr :=
  zero (fVd w) (withF (vregOf (fVa w)) fun a => withF (vregOf (fVb w)) fun b => withF (maskOf (fVc w)) fun m =>
    .ok (k (fS w) a b m))
def vSel (w : Nat) (k : Bool → VReg → VReg → VReg → BitVec 2 → Instr) : Except DecodeError Instr :=
  withF (vregOf (fVd w)) fun d => withF (vregOf (fVa w)) fun a => withF (vregOf (fVb w)) fun b =>
    withF (maskOf (fVc w)) fun m => .ok (k (fS w) d a b m)

def decVfp (w : Nat) : Except DecodeError Instr :=
  withF (vfmtOf (fFn9 w / 64)) fun f =>
    match fFn9 w % 64 with
    | 0 => vDAB w (.vfpAdd · · · · f)
    | 1 => vDAB w (.vfpSub · · · · f)
    | 2 => vDAB w (.vfpMul · · · · f)
    | 3 => vDABC w (.vfpFma · · · · · f)
    | 4 => vDAB w (.vfpMin · · · · f)
    | 5 => vDAB w (.vfpMax · · · · f)
    | 6 => vDA w (.vfpAbs · · · f)
    | 7 => vDA w (.vfpNeg · · · f)
    | 8 => vDAB w (.vfpDiv · · · · f)
    | 9 => vDA w (.vfpSqrt · · · f)
    | 10 => vCmp w (.vfpCmpeq · · · · f)
    | 11 => vCmp w (.vfpCmplt · · · · f)
    | 12 => vCmp w (.vfpCmple · · · · f)
    | 13 => vSel w (.vfpSel · · · · · f)
    | _ => .error .unlistedOperation

def decVint (w : Nat) : Except DecodeError Instr :=
  withF (ifmtOf (fFn9 w / 64)) fun f =>
    match fFn9 w % 64 with
    | 0 => vDAB w (.vintAdd · · · · f)
    | 1 => vDAB w (.vintSub · · · · f)
    | 2 => vDAB w (.vintMul · · · · f)
    | 3 => vDAB w (.vintAdds · · · · f)
    | 4 => vDAB w (.vintSubs · · · · f)
    | 5 => vDAB w (.vintMin · · · · f)
    | 6 => vDAB w (.vintMax · · · · f)
    | 7 => vDAB w (.vintAnd · · · · f)
    | 8 => vDAB w (.vintOr · · · · f)
    | 9 => vDAB w (.vintXor · · · · f)
    | 10 => vDAB w (.vintSll · · · · f)
    | 11 => vDAB w (.vintSrl · · · · f)
    | 12 => vDAB w (.vintSra · · · · f)
    | 13 => vCmp w (.vintCmpeq · · · · f)
    | 14 => vCmp w (.vintCmplt · · · · f)
    | 15 => vSel w (.vintSel · · · · · f)
    | _ => .error .unlistedOperation

/-- A lane selector (R227): bit 8 selects broadcast; without it bits [7:0] are zero. -/
def laneOf (n : Nat) : Except DecodeError (Option (BitVec 8)) :=
  if 256 ≤ n then .ok (some (BitVec.ofNat 8 (n - 256))) else if n = 0 then .ok none else .error .fieldNotZero

def decVmov (w : Nat) : Except DecodeError Instr :=
  let t := BitVec.ofNat 3 (fRow9 w / 64)
  let r := BitVec.ofNat 6 (fRow9 w % 64)
  match fFn8 w with
  | 0 => zero (fVa w) (withF (vregOf (fVd w)) fun d => .ok (.vmovGet (fS w) d t r))
  | 1 => zero (fVd w) (withF (vregOf (fVa w)) fun a => .ok (.vmovPut (fS w) a t r))
  | 2 => withF (laneOf (fRow9 w)) fun k => withF (vregOf (fVd w)) fun d => withF (vregOf (fVa w)) fun a =>
      .ok (.vmovCopy (fS w) d a k)
  | 3 => zero (fVd w) (zero (fVa w) (.ok (.vmovClr (fS w) t r)))
  | _ => .error .unlistedOperation

def decVcvt (w : Nat) : Except DecodeError Instr :=
  zero (fVc w) (withF (ftagOf (fFn9 w / 32)) fun dst => withF (ftagOf (fFn9 w / 2 % 16)) fun src =>
    withF (vregOf (fVd w)) fun d => withF (vregOf (fVa w)) fun a =>
      .ok (.vcvt (fS w) d a (BitVec.ofNat 4 (fVb w)) dst src (fFn9 w % 2 == 1)))

def decVsf (w : Nat) : Except DecodeError Instr :=
  withF (vfmtOf (fFn9 w / 64)) fun f =>
    withF (pick [Instr.vsfExp2, .vsfLog2, .vsfExp, .vsfLog, .vsfRcp, .vsfRsqrt] (fFn9 w % 64)) fun k =>
      vDA w (k · · · f)

def decVred (w : Nat) : Except DecodeError Instr :=
  let t := BitVec.ofNat 3 (fRow9 w / 64)
  let r := BitVec.ofNat 6 (fRow9 w % 64)
  withF (rfmtOf (fFn8 w / 32)) fun f =>
    let red (k : Bool → VReg → VReg → BitVec 3 → BitVec 6 → RFmt → Instr) : Except DecodeError Instr :=
      withF (vregOf (fVd w)) fun d => withF (vregOf (fVa w)) fun a => .ok (k (fS w) d a t r f)
    match fFn8 w % 32 with
    | 0 => red .vredSum
    | 1 => red .vredMax
    | 2 => red .vredMin
    | 3 => zero (fRow9 w % 64) (zero (fVa w) (withF (vregOf (fVd w)) fun d => .ok (.vredRowstat (fS w) d t f)))
    | _ => .error .unlistedOperation

def decVldVst (w : Nat) (k : Bool → VReg → SReg → Scope → Order → MFmt → BitVec 6 → Instr) : Except DecodeError Instr :=
  zero (fD w / 16) (withF (scopeOf (fScopeM w)) fun sc => withF (orderOf (fOrderM w)) fun o =>
    withF (mfmtOf (fSizeM w)) fun f => withF (vregOf (fD w % 16)) fun d => withA w fun a =>
      .ok (k (fS w) d a sc o f (BitVec.ofNat 6 (fOff6 w))))

def decMx (w : Nat) : Except DecodeError Instr :=
  zero (fFn12 w / 16) (withF (pick [Instr.mxMma, .mxMmaz, .mxZero] (fFn12 w % 16)) fun k =>
    shXA w (k · · (BitVec.ofNat 3 (fEng w))))

def decMxc (w : Nat) : Except DecodeError Instr :=
  zero (fFn12 w / 128) (match fFn12 w % 16 with
    | 0 => shX w (.mxcSend · · · (BitVec.ofNat 3 (fEng w)) (BitVec.ofNat 3 (fFn12 w / 16)))
    | _ => .error .unlistedOperation)

def decSort (w : Nat) : Except DecodeError Instr :=
  let t := BitVec.ofNat 3 (fEng w)
  let n := fFn12 w / 1024 % 2 == 1
  zero (fFn12 w / 2048) (withF (kformOf (fFn12 w / 16 % 4)) fun fm => withF (kfmtOf (fFn12 w / 64 % 16)) fun kf =>
    match fFn12 w % 16 with
    | 0 => shX w (.sortLoad · · · t n kf fm)
    | 1 => shX w (.sortStore · · · t n kf fm)
    | 2 => shXA w (.sortRun · · t n kf fm)
    | 3 => shX0 w (.sortRows · t n kf fm)
    | 4 => shX w (.sortTopk · · · t n kf fm)
    | _ => .error .unlistedOperation)

def decCp (w : Nat) : Except DecodeError Instr :=
  let n := fFn12 w / 16 % 2 == 1
  zero (fFn12 w / 32) (match fFn12 w % 16 with
    | 0 => withF (cpDestOf (fEng w)) fun dst => shX w (.cpTensor · · · dst n)
    | 1 => zero (fEng w) (shX w (.cpBulk · · · n))
    | 2 => zero (fEng w) (shX w (.cpRelease · · · n))
    | 3 => zero (fEng w) (shX w (.cpRaw · · · n))
    | _ => .error .unlistedOperation)

def decSys (w : Nat) : Except DecodeError Instr :=
  withF (sysRegOf (fSys w)) fun r =>
    match fFn3S w with
    | 0 => zero (fA w) (withD w fun d => .ok (.sysRd (fS w) d r))
    | 1 => zero (fD w) (withA w fun a => .ok (.sysWr (fS w) a r))
    | 2 => withD w fun d => withA w fun a => .ok (.sysSet (fS w) d a r)
    | 3 => withD w fun d => withA w fun a => .ok (.sysClr (fS w) d a r)
    | 4 => withD w fun d => withA w fun a => .ok (.sysXchg (fS w) d a r)
    | _ => .error .unlistedOperation

def decTrap (w : Nat) : Except DecodeError Instr :=
  match fFn w with
  | 0 => shA w .trapCall
  | 1 => sh0 w .trapRet
  | 2 => marked w (sh0 w (fun _ => .trapUret))
  | _ => .error .unlistedOperation

def decTlb (w : Nat) : Except DecodeError Instr :=
  match fFn w with
  | 0 => shAB w .tlbInv1
  | 1 => shAB w .tlbInv2
  | 2 => shA w .tlbInvid
  | 3 => shA w .tlbInvall
  | 4 => marked w (sh0 w (fun _ => .tlbSync))
  | _ => .error .unlistedOperation

def decDbg (w : Nat) : Except DecodeError Instr :=
  match fFn w with
  | 0 => sh0 w .dbgBrk
  | 1 => shA w .dbgMark
  | 2 => shDA w .dbgRdctr
  | _ => .error .unlistedOperation

/-- The hint words (R104). A prefix that carries S is illegal (R105). -/
def decHint (w : Nat) : Except DecodeError Instr :=
  let prefixWord (k : Except DecodeError Instr) : Except DecodeError Instr :=
    if fS w then .error .markedPrefix else k
  match fKind w with
  | 0 => zero (fPay w / 1048576) (prefixWord (.ok (.hintImm (BitVec.ofNat 20 (fPay w)))))
  | 1 => zero (fPay w % 65536) (.ok (.hintSched (fS w) (BitVec.ofNat 6 (fPay w / 65536))))
  | 2 => zero (fPay w % 65536) (prefixWord (withF (migOf (fPay w / 1048576)) fun m =>
      withF (mskOf (fPay w / 131072 % 8)) fun k => .ok (.hintMod m k (fPay w / 65536 % 2 == 1))))
  | 3 => zero (fPay w % 2097152) (.ok (.hintBr (fS w) (fPay w / 2097152 == 1)))
  | _ => .error .unlistedOperation

/-- The major map (R100); a major it does not list is unassigned (R101). -/
def decodeMajor (w : Nat) : Except DecodeError Instr :=
  match fMajor w with
  | 0x01 => decIalu w
  | 0x02 => decIalui w
  | 0x03 => withD w fun d => .ok (.lui (fS w) d (BitVec.ofNat 20 (fImm20 w)))
  | 0x04 => decIbit w
  | 0x05 => decImul w
  | 0x06 => decCap w
  | 0x07 => decCapi w
  | 0x08 => decBr w
  | 0x09 => .ok (.jmp (fS w) (BitVec.ofNat 25 (fOff25 w)))
  | 0x0A => .ok (.call (fS w) (BitVec.ofNat 25 (fOff25 w)))
  | 0x0B => decJr w
  | 0x0C => decFpu w
  | 0x0D => decFcvt w
  | 0x0E => decLbl w
  | 0x10 => decLdSt w .ld
  | 0x11 => decLdSt w .st
  | 0x12 => decAtom w
  | 0x13 => decFatom w
  | 0x14 => decFence w
  | 0x15 => decBar w
  | 0x16 => decInbox w
  | 0x18 => decTask w
  | 0x19 => decQueue w
  | 0x1A => decPipe w
  | 0x1B => decEv w
  | 0x1C => decEng w
  | 0x20 => decVfp w
  | 0x21 => decVint w
  | 0x22 => decVmov w
  | 0x23 => decVcvt w
  | 0x24 => decVsf w
  | 0x25 => decVred w
  | 0x26 => decVldVst w .vld
  | 0x27 => decVldVst w .vst
  | 0x28 => decMx w
  | 0x29 => decMxc w
  | 0x2A => decSort w
  | 0x2B => decCp w
  | 0x30 => decSys w
  | 0x31 => decTrap w
  | 0x32 => decTlb w
  | 0x33 => decDbg w
  | 0x3F => decHint w
  | _ => .error .unassignedMajor

/-- Decodes the word whose bits are `w` (R94, R102 checks 1 to 3 as far as the word alone decides them). -/
def decodeWord (w : Nat) : Except DecodeError Instr :=
  match decodeMajor w with
  | .ok i => if i.wf then .ok i else .error .illFormed
  | .error e => .error e

/-- The number that four bytes hold, the first in the low bits (R3, R94). -/
def leWord (b0 b1 b2 b3 : Byte) : Nat :=
  b0.toNat + 256 * b1.toNat + 65536 * b2.toNat + 16777216 * b3.toNat

/-- Decodes the first four bytes, and gives the rest. Total on any bytes. -/
def decode : List Byte → Except DecodeError (Instr × List Byte)
  | b0 :: b1 :: b2 :: b3 :: rest =>
    match decodeWord (leWord b0 b1 b2 b3) with
    | .ok i => .ok (i, rest)
    | .error e => .error e
  | _ => .error .shortInput

/-- The four bytes of a word as memory holds them (R94). -/
def wordBytes (w : Nat) : List Byte :=
  [BitVec.ofNat 8 w, BitVec.ofNat 8 (w / 256), BitVec.ofNat 8 (w / 65536), BitVec.ofNat 8 (w / 16777216)]

/-- The instruction that the decoder reads from a word of the table. Every instruction is one word of 32 bits. -/
def decodeTableWord (nbits w : Nat) : Option Instr :=
  match decode (wordBytes (w % 2 ^ nbits)) with
  | .ok (i, _) => some i
  | .error _ => none

/-! ### Encoding, from the same tables -/

def encTop (sw : Bool) (major : Nat) : Nat := boolCode sw * 2147483648 + major * 33554432
def encA (sw : Bool) (major d a b fn : Nat) : Nat :=
  encTop sw major + d * 1048576 + a * 32768 + b * 1024 + fn
def encI (sw : Bool) (major d a fn3 imm : Nat) : Nat :=
  encTop sw major + d * 1048576 + a * 32768 + fn3 * 4096 + imm
def encU (sw : Bool) (major d imm : Nat) : Nat := encTop sw major + d * 1048576 + imm
def encB (sw : Bool) (major a b cond off : Nat) : Nat :=
  encTop sw major + a * 1048576 + b * 32768 + cond * 4096 + off
def encJ (sw : Bool) (major off : Nat) : Nat := encTop sw major + off
def encM (sw : Bool) (major d a scope order size off : Nat) : Nat :=
  encTop sw major + d * 1048576 + a * 32768 + scope * 2048 + order * 512 + size * 64 + off
def encV (sw : Bool) (major d a b c fn9 : Nat) : Nat :=
  encTop sw major + d * 2097152 + a * 131072 + b * 8192 + c * 512 + fn9
def encVR (sw : Bool) (major d a row9 fn8 : Nat) : Nat :=
  encTop sw major + d * 2097152 + a * 131072 + row9 * 256 + fn8
def encX (sw : Bool) (major a b eng fn12 : Nat) : Nat :=
  encTop sw major + a * 1048576 + b * 32768 + eng * 4096 + fn12
def encS (sw : Bool) (major d a sysreg fn3 : Nat) : Nat :=
  encTop sw major + d * 1048576 + a * 32768 + sysreg * 8 + fn3
def encH (sw : Bool) (kind payload : Nat) : Nat := encTop sw 0x3F + kind * 4194304 + payload

/-- The word of an instruction; an event row has none, and gets the word 0, which is illegal (R101). -/
def encode : Instr → Nat
  | .ialuAdd sw d a b => encA sw 0x01 d.code a.code b.code 0
  | .ialuSub sw d a b => encA sw 0x01 d.code a.code b.code 1
  | .ialuAnd sw d a b => encA sw 0x01 d.code a.code b.code 2
  | .ialuOr sw d a b => encA sw 0x01 d.code a.code b.code 3
  | .ialuXor sw d a b => encA sw 0x01 d.code a.code b.code 4
  | .ialuAndn sw d a b => encA sw 0x01 d.code a.code b.code 5
  | .ialuSll sw d a b => encA sw 0x01 d.code a.code b.code 6
  | .ialuSrl sw d a b => encA sw 0x01 d.code a.code b.code 7
  | .ialuSra sw d a b => encA sw 0x01 d.code a.code b.code 8
  | .ialuSlt sw d a b => encA sw 0x01 d.code a.code b.code 9
  | .ialuSltu sw d a b => encA sw 0x01 d.code a.code b.code 10
  | .ialuMin sw d a b => encA sw 0x01 d.code a.code b.code 11
  | .ialuMax sw d a b => encA sw 0x01 d.code a.code b.code 12
  | .ialuMinu sw d a b => encA sw 0x01 d.code a.code b.code 13
  | .ialuMaxu sw d a b => encA sw 0x01 d.code a.code b.code 14
  | .ialuiAdd sw d a imm => encI sw 0x02 d.code a.code 0 imm.toNat
  | .ialuiAnd sw d a imm => encI sw 0x02 d.code a.code 1 imm.toNat
  | .ialuiOr sw d a imm => encI sw 0x02 d.code a.code 2 imm.toNat
  | .ialuiXor sw d a imm => encI sw 0x02 d.code a.code 3 imm.toNat
  | .ialuiSll sw d a sh => encI sw 0x02 d.code a.code 4 sh.toNat
  | .ialuiSrl sw d a sh => encI sw 0x02 d.code a.code 5 sh.toNat
  | .ialuiSra sw d a sh => encI sw 0x02 d.code a.code 6 sh.toNat
  | .ialuiSlt sw d a imm => encI sw 0x02 d.code a.code 7 imm.toNat
  | .lui sw d imm => encU sw 0x03 d.code imm.toNat
  | .ibitClz sw d a => encA sw 0x04 d.code a.code 0 0
  | .ibitCtz sw d a => encA sw 0x04 d.code a.code 0 1
  | .ibitPopc sw d a => encA sw 0x04 d.code a.code 0 2
  | .ibitBrev sw d a => encA sw 0x04 d.code a.code 0 3
  | .ibitBswap sw d a => encA sw 0x04 d.code a.code 0 4
  | .ibitSext sw d a b => encA sw 0x04 d.code a.code b.code 5
  | .ibitZext sw d a b => encA sw 0x04 d.code a.code b.code 6
  | .ibitBext sw d a b => encA sw 0x04 d.code a.code b.code 7
  | .ibitBins sw d a b => encA sw 0x04 d.code a.code b.code 8
  | .ibitRol sw d a b => encA sw 0x04 d.code a.code b.code 9
  | .ibitRor sw d a b => encA sw 0x04 d.code a.code b.code 10
  | .imulMul sw d a b => encA sw 0x05 d.code a.code b.code 0
  | .imulMulh sw d a b => encA sw 0x05 d.code a.code b.code 1
  | .imulMulhu sw d a b => encA sw 0x05 d.code a.code b.code 2
  | .imulMulhsu sw d a b => encA sw 0x05 d.code a.code b.code 3
  | .imulDiv sw d a b => encA sw 0x05 d.code a.code b.code 4
  | .imulDivu sw d a b => encA sw 0x05 d.code a.code b.code 5
  | .imulRem sw d a b => encA sw 0x05 d.code a.code b.code 6
  | .imulRemu sw d a b => encA sw 0x05 d.code a.code b.code 7
  | .capGetbase sw d a => encA sw 0x06 d.code a.code 0 0
  | .capGettop sw d a => encA sw 0x06 d.code a.code 0 1
  | .capGetlen sw d a => encA sw 0x06 d.code a.code 0 2
  | .capGetperm sw d a => encA sw 0x06 d.code a.code 0 3
  | .capGetspace sw d a => encA sw 0x06 d.code a.code 0 4
  | .capGettag sw d a => encA sw 0x06 d.code a.code 0 5
  | .capSetcur sw d a b => encA sw 0x06 d.code a.code b.code 6
  | .capAddcur sw d a b => encA sw 0x06 d.code a.code b.code 7
  | .capSetbnd sw d a b => encA sw 0x06 d.code a.code b.code 8
  | .capSetbndx sw d a b => encA sw 0x06 d.code a.code b.code 9
  | .capAndperm sw d a b => encA sw 0x06 d.code a.code b.code 10
  | .capSetspace sw d a b => encA sw 0x06 d.code a.code b.code 11
  | .capiAddcur sw d a imm => encI sw 0x07 d.code a.code 0 imm.toNat
  | .capiSetbnd sw d a imm => encI sw 0x07 d.code a.code 1 imm.toNat
  | .capiSetbndx sw d a imm => encI sw 0x07 d.code a.code 2 imm.toNat
  | .capiAndperm sw d a imm => encI sw 0x07 d.code a.code 3 imm.toNat
  | .brEq sw a b off => encB sw 0x08 a.code b.code 0 off.toNat
  | .brNe sw a b off => encB sw 0x08 a.code b.code 1 off.toNat
  | .brLt sw a b off => encB sw 0x08 a.code b.code 2 off.toNat
  | .brGe sw a b off => encB sw 0x08 a.code b.code 3 off.toNat
  | .brLtu sw a b off => encB sw 0x08 a.code b.code 4 off.toNat
  | .brGeu sw a b off => encB sw 0x08 a.code b.code 5 off.toNat
  | .brBset sw a b off => encB sw 0x08 a.code b.code 6 off.toNat
  | .brBclr sw a b off => encB sw 0x08 a.code b.code 7 off.toNat
  | .jmp sw off => encJ sw 0x09 off.toNat
  | .call sw off => encJ sw 0x0A off.toNat
  | .jrGo sw a => encA sw 0x0B 0 a.code 0 0
  | .jrLink sw d a => encA sw 0x0B d.code a.code 0 1
  | .fpuAdd sw d a b fmt => encA sw 0x0C d.code a.code b.code (fmt.code * 256 + 0)
  | .fpuSub sw d a b fmt => encA sw 0x0C d.code a.code b.code (fmt.code * 256 + 1)
  | .fpuMul sw d a b fmt => encA sw 0x0C d.code a.code b.code (fmt.code * 256 + 2)
  | .fpuDiv sw d a b fmt => encA sw 0x0C d.code a.code b.code (fmt.code * 256 + 3)
  | .fpuSqrt sw d a fmt => encA sw 0x0C d.code a.code 0 (fmt.code * 256 + 4)
  | .fpuFma sw d a b fmt => encA sw 0x0C d.code a.code b.code (fmt.code * 256 + 5)
  | .fpuMin sw d a b fmt => encA sw 0x0C d.code a.code b.code (fmt.code * 256 + 6)
  | .fpuMax sw d a b fmt => encA sw 0x0C d.code a.code b.code (fmt.code * 256 + 7)
  | .fpuNeg sw d a fmt => encA sw 0x0C d.code a.code 0 (fmt.code * 256 + 8)
  | .fpuAbs sw d a fmt => encA sw 0x0C d.code a.code 0 (fmt.code * 256 + 9)
  | .fpuSgnj sw d a b fmt => encA sw 0x0C d.code a.code b.code (fmt.code * 256 + 10)
  | .fpuCmpeq sw d a b fmt => encA sw 0x0C d.code a.code b.code (fmt.code * 256 + 11)
  | .fpuCmplt sw d a b fmt => encA sw 0x0C d.code a.code b.code (fmt.code * 256 + 12)
  | .fpuCmple sw d a b fmt => encA sw 0x0C d.code a.code b.code (fmt.code * 256 + 13)
  | .fpuClass sw d a fmt => encA sw 0x0C d.code a.code 0 (fmt.code * 256 + 14)
  | .fcvt sw d a dst src => encA sw 0x0D d.code a.code 0 (dst.code * 32 + src.code)
  | .lblGet sw d a => encA sw 0x0E d.code a.code 0 0
  | .lblCtl sw d => encA sw 0x0E d.code 0 0 1
  | .lblRaise sw d a b => encA sw 0x0E d.code a.code b.code 2
  | .lblSub sw d a b => encA sw 0x0E d.code a.code b.code 3
  | .ld sw d a scope order size off => encM sw 0x10 d.code a.code scope.code order.code size.code off.toNat
  | .st sw d a scope order size off => encM sw 0x11 d.code a.code scope.code order.code size.code off.toNat
  | .atomSwap sw d a b scope order sz => encA sw 0x12 d.code a.code b.code (scope.code * 64 + order.code * 16 + sz.code * 8 + 0)
  | .atomCas sw d a b scope order sz => encA sw 0x12 d.code a.code b.code (scope.code * 64 + order.code * 16 + sz.code * 8 + 1)
  | .atomAdd sw d a b scope order sz => encA sw 0x12 d.code a.code b.code (scope.code * 64 + order.code * 16 + sz.code * 8 + 2)
  | .atomAnd sw d a b scope order sz => encA sw 0x12 d.code a.code b.code (scope.code * 64 + order.code * 16 + sz.code * 8 + 3)
  | .atomOr sw d a b scope order sz => encA sw 0x12 d.code a.code b.code (scope.code * 64 + order.code * 16 + sz.code * 8 + 4)
  | .atomMin sw d a b scope order sz => encA sw 0x12 d.code a.code b.code (scope.code * 64 + order.code * 16 + sz.code * 8 + 5)
  | .atomMax sw d a b scope order sz => encA sw 0x12 d.code a.code b.code (scope.code * 64 + order.code * 16 + sz.code * 8 + 6)
  | .atomDecf sw d a b scope order sz => encA sw 0x12 d.code a.code b.code (scope.code * 64 + order.code * 16 + sz.code * 8 + 7)
  | .fatomAdd sw d a b scope order fmt => encA sw 0x13 d.code a.code b.code (scope.code * 64 + order.code * 16 + fmt.code * 8 + 0)
  | .fatomMin sw d a b scope order fmt => encA sw 0x13 d.code a.code b.code (scope.code * 64 + order.code * 16 + fmt.code * 8 + 1)
  | .fatomMax sw d a b scope order fmt => encA sw 0x13 d.code a.code b.code (scope.code * 64 + order.code * 16 + fmt.code * 8 + 2)
  | .fenceSc sw scope => encA sw 0x14 0 0 0 (scope.code * 64 + 0)
  | .fenceAcq sw scope => encA sw 0x14 0 0 0 (scope.code * 64 + 16)
  | .fenceRel sw scope => encA sw 0x14 0 0 0 (scope.code * 64 + 32)
  | .fenceAcqrel sw scope => encA sw 0x14 0 0 0 (scope.code * 64 + 48)
  | .barJoin sw d a => encA sw 0x15 d.code a.code 0 0
  | .barLeave sw a => encA sw 0x15 0 a.code 0 1
  | .barArrive sw d a scope => encA sw 0x15 d.code a.code 0 (scope.code * 64 + 2)
  | .barWait sw a b scope => encA sw 0x15 0 a.code b.code (scope.code * 64 + 3)
  | .barSync sw d a scope => encA sw 0x15 d.code a.code 0 (scope.code * 64 + 4)
  | .barMiss sw d a => encA sw 0x15 d.code a.code 0 5
  | .barWregion sw a => encA sw 0x15 0 a.code 0 6
  | .barWarrive sw d scope => encA sw 0x15 d.code 0 0 (scope.code * 64 + 7)
  | .barWwait sw d a scope => encA sw 0x15 d.code a.code 0 (scope.code * 64 + 8)
  | .barWfcw sw d a b scope => encA sw 0x15 d.code a.code b.code (scope.code * 64 + 9)
  | .barWfcd sw d a b scope => encA sw 0x15 d.code a.code b.code (scope.code * 64 + 10)
  | .inboxPop sw d a => encA sw 0x16 d.code a.code 0 0
  | .inboxPeek sw d => encA sw 0x16 d.code 0 0 1
  | .inboxCount sw d => encA sw 0x16 d.code 0 0 2
  | .taskSpawn d a => encA true 0x18 d.code a.code 0 0
  | .taskSpawnto d a b => encA true 0x18 d.code a.code b.code 1
  | .taskJoin a => encA true 0x18 0 a.code 0 2
  | .taskAnchor a => encA true 0x18 0 a.code 0 3
  | .taskUnanchor => encA true 0x18 0 0 0 4
  | .taskEnd a => encA true 0x18 0 a.code 0 5
  | .taskYield => encA true 0x18 0 0 0 6
  | .queuePush sw a b => encA sw 0x19 0 a.code b.code 0
  | .queuePop sw d a b => encA sw 0x19 d.code a.code b.code 1
  | .queueTail sw a => encA sw 0x19 0 a.code 0 2
  | .pipeSend sw d a b => encA sw 0x1A d.code a.code b.code 0
  | .pipeRecv sw d a b => encA sw 0x1A d.code a.code b.code 1
  | .pipeClose sw a => encA sw 0x1A 0 a.code 0 2
  | .evPost sw d a b => encA sw 0x1B d.code a.code b.code 0
  | .evPostw sw d a b => encA sw 0x1B d.code a.code b.code 1
  | .evTake sw d a b => encA sw 0x1B d.code a.code b.code 2
  | .evDone sw a b => encA sw 0x1B 0 a.code b.code 3
  | .evThresh sw a b => encA sw 0x1B 0 a.code b.code 4
  | .evFlush sw a => encA sw 0x1B 0 a.code 0 5
  | .evStat sw d a b => encA sw 0x1B d.code a.code b.code 6
  | .engFork sw a b mask => encX sw 0x1C a.code b.code mask.toNat 0
  | .engRdv sw mask => encX sw 0x1C 0 0 mask.toNat 1
  | .vfpAdd sw d a b fmt => encV sw 0x20 d.code a.code b.code 0 (fmt.code * 64 + 0)
  | .vfpSub sw d a b fmt => encV sw 0x20 d.code a.code b.code 0 (fmt.code * 64 + 1)
  | .vfpMul sw d a b fmt => encV sw 0x20 d.code a.code b.code 0 (fmt.code * 64 + 2)
  | .vfpFma sw d a b c fmt => encV sw 0x20 d.code a.code b.code c.code (fmt.code * 64 + 3)
  | .vfpMin sw d a b fmt => encV sw 0x20 d.code a.code b.code 0 (fmt.code * 64 + 4)
  | .vfpMax sw d a b fmt => encV sw 0x20 d.code a.code b.code 0 (fmt.code * 64 + 5)
  | .vfpAbs sw d a fmt => encV sw 0x20 d.code a.code 0 0 (fmt.code * 64 + 6)
  | .vfpNeg sw d a fmt => encV sw 0x20 d.code a.code 0 0 (fmt.code * 64 + 7)
  | .vfpDiv sw d a b fmt => encV sw 0x20 d.code a.code b.code 0 (fmt.code * 64 + 8)
  | .vfpSqrt sw d a fmt => encV sw 0x20 d.code a.code 0 0 (fmt.code * 64 + 9)
  | .vfpCmpeq sw a b mk fmt => encV sw 0x20 0 a.code b.code mk.toNat (fmt.code * 64 + 10)
  | .vfpCmplt sw a b mk fmt => encV sw 0x20 0 a.code b.code mk.toNat (fmt.code * 64 + 11)
  | .vfpCmple sw a b mk fmt => encV sw 0x20 0 a.code b.code mk.toNat (fmt.code * 64 + 12)
  | .vfpSel sw d a b mk fmt => encV sw 0x20 d.code a.code b.code mk.toNat (fmt.code * 64 + 13)
  | .vintAdd sw d a b fmt => encV sw 0x21 d.code a.code b.code 0 (fmt.code * 64 + 0)
  | .vintSub sw d a b fmt => encV sw 0x21 d.code a.code b.code 0 (fmt.code * 64 + 1)
  | .vintMul sw d a b fmt => encV sw 0x21 d.code a.code b.code 0 (fmt.code * 64 + 2)
  | .vintAdds sw d a b fmt => encV sw 0x21 d.code a.code b.code 0 (fmt.code * 64 + 3)
  | .vintSubs sw d a b fmt => encV sw 0x21 d.code a.code b.code 0 (fmt.code * 64 + 4)
  | .vintMin sw d a b fmt => encV sw 0x21 d.code a.code b.code 0 (fmt.code * 64 + 5)
  | .vintMax sw d a b fmt => encV sw 0x21 d.code a.code b.code 0 (fmt.code * 64 + 6)
  | .vintAnd sw d a b fmt => encV sw 0x21 d.code a.code b.code 0 (fmt.code * 64 + 7)
  | .vintOr sw d a b fmt => encV sw 0x21 d.code a.code b.code 0 (fmt.code * 64 + 8)
  | .vintXor sw d a b fmt => encV sw 0x21 d.code a.code b.code 0 (fmt.code * 64 + 9)
  | .vintSll sw d a b fmt => encV sw 0x21 d.code a.code b.code 0 (fmt.code * 64 + 10)
  | .vintSrl sw d a b fmt => encV sw 0x21 d.code a.code b.code 0 (fmt.code * 64 + 11)
  | .vintSra sw d a b fmt => encV sw 0x21 d.code a.code b.code 0 (fmt.code * 64 + 12)
  | .vintCmpeq sw a b mk fmt => encV sw 0x21 0 a.code b.code mk.toNat (fmt.code * 64 + 13)
  | .vintCmplt sw a b mk fmt => encV sw 0x21 0 a.code b.code mk.toNat (fmt.code * 64 + 14)
  | .vintSel sw d a b mk fmt => encV sw 0x21 d.code a.code b.code mk.toNat (fmt.code * 64 + 15)
  | .vmovGet sw d tile row => encVR sw 0x22 d.code 0 (tile.toNat * 64 + row.toNat) 0
  | .vmovPut sw a tile row => encVR sw 0x22 0 a.code (tile.toNat * 64 + row.toNat) 1
  | .vmovCopy sw d a lane => encVR sw 0x22 d.code a.code (laneCode lane) 2
  | .vmovClr sw tile row => encVR sw 0x22 0 0 (tile.toNat * 64 + row.toNat) 3
  | .vcvt sw d a group dst src hi => encV sw 0x23 d.code a.code group.toNat 0 (dst.code * 32 + src.code * 2 + boolCode hi)
  | .vsfExp2 sw d a fmt => encV sw 0x24 d.code a.code 0 0 (fmt.code * 64 + 0)
  | .vsfLog2 sw d a fmt => encV sw 0x24 d.code a.code 0 0 (fmt.code * 64 + 1)
  | .vsfExp sw d a fmt => encV sw 0x24 d.code a.code 0 0 (fmt.code * 64 + 2)
  | .vsfLog sw d a fmt => encV sw 0x24 d.code a.code 0 0 (fmt.code * 64 + 3)
  | .vsfRcp sw d a fmt => encV sw 0x24 d.code a.code 0 0 (fmt.code * 64 + 4)
  | .vsfRsqrt sw d a fmt => encV sw 0x24 d.code a.code 0 0 (fmt.code * 64 + 5)
  | .vredSum sw d a tile row fmt => encVR sw 0x25 d.code a.code (tile.toNat * 64 + row.toNat) (fmt.code * 32 + 0)
  | .vredMax sw d a tile row fmt => encVR sw 0x25 d.code a.code (tile.toNat * 64 + row.toNat) (fmt.code * 32 + 1)
  | .vredMin sw d a tile row fmt => encVR sw 0x25 d.code a.code (tile.toNat * 64 + row.toNat) (fmt.code * 32 + 2)
  | .vredRowstat sw d tile fmt => encVR sw 0x25 d.code 0 (tile.toNat * 64) (fmt.code * 32 + 3)
  | .vld sw d a scope order fmt off => encM sw 0x26 d.code a.code scope.code order.code fmt.code off.toNat
  | .vst sw d a scope order fmt off => encM sw 0x27 d.code a.code scope.code order.code fmt.code off.toNat
  | .mxMma sw a tile => encX sw 0x28 a.code 0 tile.toNat 0
  | .mxMmaz sw a tile => encX sw 0x28 a.code 0 tile.toNat 1
  | .mxZero sw a tile => encX sw 0x28 a.code 0 tile.toNat 2
  | .mxcSend sw a b tile pri => encX sw 0x29 a.code b.code tile.toNat (pri.toNat * 16 + 0)
  | .sortLoad sw a b tile note kfmt form => encX sw 0x2A a.code b.code tile.toNat (boolCode note * 1024 + kfmt.code * 64 + form.code * 16 + 0)
  | .sortStore sw a b tile note kfmt form => encX sw 0x2A a.code b.code tile.toNat (boolCode note * 1024 + kfmt.code * 64 + form.code * 16 + 1)
  | .sortRun sw a tile note kfmt form => encX sw 0x2A a.code 0 tile.toNat (boolCode note * 1024 + kfmt.code * 64 + form.code * 16 + 2)
  | .sortRows sw tile note kfmt form => encX sw 0x2A 0 0 tile.toNat (boolCode note * 1024 + kfmt.code * 64 + form.code * 16 + 3)
  | .sortTopk sw a b tile note kfmt form => encX sw 0x2A a.code b.code tile.toNat (boolCode note * 1024 + kfmt.code * 64 + form.code * 16 + 4)
  | .cpTensor sw a b dest note => encX sw 0x2B a.code b.code dest.code (boolCode note * 16 + 0)
  | .cpBulk sw a b note => encX sw 0x2B a.code b.code 0 (boolCode note * 16 + 1)
  | .cpRelease sw a b note => encX sw 0x2B a.code b.code 0 (boolCode note * 16 + 2)
  | .cpRaw sw a b note => encX sw 0x2B a.code b.code 0 (boolCode note * 16 + 3)
  | .sysRd sw d reg => encS sw 0x30 d.code 0 reg.code 0
  | .sysWr sw a reg => encS sw 0x30 0 a.code reg.code 1
  | .sysSet sw d a reg => encS sw 0x30 d.code a.code reg.code 2
  | .sysClr sw d a reg => encS sw 0x30 d.code a.code reg.code 3
  | .sysXchg sw d a reg => encS sw 0x30 d.code a.code reg.code 4
  | .trapCall sw a => encA sw 0x31 0 a.code 0 0
  | .trapRet sw => encA sw 0x31 0 0 0 1
  | .trapUret => encA true 0x31 0 0 0 2
  | .tlbInv1 sw a b => encA sw 0x32 0 a.code b.code 0
  | .tlbInv2 sw a b => encA sw 0x32 0 a.code b.code 1
  | .tlbInvid sw a => encA sw 0x32 0 a.code 0 2
  | .tlbInvall sw a => encA sw 0x32 0 a.code 0 3
  | .tlbSync => encA true 0x32 0 0 0 4
  | .dbgBrk sw => encA sw 0x33 0 0 0 0
  | .dbgMark sw a => encA sw 0x33 0 a.code 0 1
  | .dbgRdctr sw d a => encA sw 0x33 d.code a.code 0 2
  | .hintImm ext => encH false 0 ext.toNat
  | .hintSched sw defer => encH sw 1 (defer.toNat * 65536)
  | .hintMod mig msk neg => encH false 2 (mig.code * 1048576 + mskCode msk * 131072 + boolCode neg * 65536)
  | .hintBr sw taken => encH sw 3 (boolCode taken * 2097152)  | _ => 0

end Sys2Proof
end

