-- ==== Sys2Proof/Machine/CoreState.lean ====
section
/-! DEFINITION. The plain data of one core: memory banks, values, tasks, engines, translation and scheduling state.
Everything is as the rules of the specification name it; the fields that are the model's own (identifiers of outstanding
operations, places that a stopped instruction waits at) say so. -/

namespace Sys2Proof.Machine

/-- Memory as a list of (address, byte) in canonical form: addresses strictly rising, no byte equal to 0, which is what
an unlisted address reads as (log entry 3). -/
abbrev Memory := List Host.Cell

/-- A memory with the tag bits of its 16-byte granules (R46), the labels of its 4 KiB pages (R48, R75) and its poisoned
64-byte lines (R357). The lists name only set tags, pages whose label is not 0, and poisoned lines. -/
structure Bank where
  mem : Memory
  tags : List Nat
  labels : List (Nat × Label)
  poison : List Nat
  deriving DecidableEq, Repr

/-- The value of a general register or of L: 128 bits, the hidden tag and the label (R9, R34). -/
structure Val where
  bits : Quad
  tag : Bool
  label : Label
  deriving DecidableEq, Repr

/-- The value of an operand entry, of LV or of a tile row: 256 bytes with a format tag and a label (R33, R39). -/
structure Entry where
  bits : Row
  fmt : FTag
  label : Label
  deriving DecidableEq, Repr

/-- A mask register M0 to M3 (R33). -/
structure Mask where
  bits : Quad
  label : Label
  deriving DecidableEq, Repr

/-- An accumulator tile: 64 rows, one format tag, one label (R37), and its poisoned rows (R357). -/
structure Tile where
  rows : Vector Row 64
  fmt : FTag
  label : Label
  poison : BitVec 64
  deriving DecidableEq, Repr

/-- The destination of a result that has not arrived yet: a general register, an operand entry, a maintenance port (R298). -/
inductive Dest where
  | g (n : BitVec 4)
  | o (n : BitVec 3)
  | q (p : BitVec 3)
  deriving DecidableEq, Repr

/-- An entry of the group write buffer (R51): a general register, an operand entry, a tile row, the triple of
`vred.rowstat` (R347), or the place of a result that operation `op` will bring (R17). -/
inductive BufEntry where
  | g (n : BitVec 4) (v : Val)
  | o (n : BitVec 3) (e : Entry)
  | row (t : BitVec 3) (r : BitVec 6) (e : Entry)
  | stat (n : BitVec 3) (m s k : Entry)
  | wait (op : Nat) (d : Dest)
  deriving DecidableEq, Repr

/-- The held state of an in-task trap (R295): the buffer with its parity, the latches and the migration mark set aside. -/
structure Held where
  buf : List BufEntry
  lost : Nat
  parity : Bool
  l : Val
  lv : Entry
  mark : Option CoreId
  deriving DecidableEq, Repr

/-- An inline frame (R176): what the TID register held before, and the return address. -/
structure Frame where
  tid : Tid
  ret : Word
  deriving DecidableEq, Repr

/-- An inbox message (R168). -/
structure Msg where
  type : BitVec 8
  src : BitVec 24
  cause : BitVec 8
  label : Label
  optag : Word
  payload : Quad
  deriving DecidableEq, Repr

/-- A forked engine program (R189): the captured words, the next word, the registers at the start of the fork's group,
the OPTAG, whether a word of it is running, whether its next word awaits notice, whether it has ended, and whether it still
holds its reservation. -/
structure Prog where
  words : List IWord
  next : Nat
  regs : Vector Val 16
  optag : Word
  forkPc : Word
  running : Bool
  suspended : Bool
  ended : Bool
  holds : Bool
  deriving DecidableEq, Repr

/-- The sort state of an anchored task (R254): the control fields and the plane of 4,096 extended origins of 32 bits,
origin n in bits [32n+31:32n]. -/
structure SortState where
  pairT : BitVec 3
  bound : Bool
  desc : Bool
  kfmt : KFmt
  form : KForm
  mid : Bool
  ph : BitVec 4
  step : BitVec 6
  xprev : Bool
  origins : BitVec 131072
  deriving DecidableEq, Repr

/-- A byte of an operand pipe: its value, the data label of its copy, and whether it is poisoned (R245, R357). -/
structure PipeByte where
  val : Byte
  label : Label
  bad : Bool
  deriving DecidableEq, Repr

/-- The engine state that anchoring grants (R14, R33, R245, R254). -/
structure Anchor where
  tiles : BitVec 8
  o : Vector Entry 8
  lv : Entry
  m : Vector Mask 4
  sort : SortState
  pipeA : List PipeByte
  pipeB : List PipeByte
  mprog : Option Prog
  cprog : Option Prog
  sprog : Option Prog
  deriving DecidableEq, Repr

/-- A pinned page of a staged task's extent table (R233, R313): the VA of the page, its PA, the first and the last byte of
the declared window in it, and the label held in the pin. -/
structure Pin where
  va : Nat
  pa : Nat
  lo : Nat
  hi : Nat
  label : Label
  comp : Bool
  deriving DecidableEq, Repr

/-- What a memory operation does at its home (R153, R154, R156, R159, R230, R231). -/
inductive AccKind where
  | ld (size : Size)
  | st (size : Size)
  | atom (op : BitVec 3) (sz : ASize)
  | fatom (op : BitVec 2) (fmt : SFmt)
  | vld (quarter : BitVec 2) (fmt : MFmt)
  | vst (quarter : BitVec 2)
  | poll (sz : ASize)
  deriving DecidableEq, Repr

/-- The home of a location (R72, R82): the bank of a core's scratchpad, the bank of a slice, a channel home of this
device (or the cluster unit that holds the line), host memory, or a peer device. -/
inductive Home where
  | spad
  | slice (c : CoreId)
  | channel
  | host
  | peer (dev : BitVec 12)
  deriving DecidableEq, Repr

/-- A memory operation as it travels to its home: the address (an offset in the scratchpad, a shared-window address, a
PA, or a VA at a peer), the operand, the compared value of a cas, the value label, the label of the address capability
with the control label, the tag of a stored capability, whether a loaded tag may be kept, scope and order. `lo` and `len`
are the whole access of which a vector quarter is part; `prio` and `launch` are what a fire carries on. -/
structure Access where
  kind : AccKind
  home : Home
  addr : Nat
  va : Nat
  n : Nat
  lo : Nat
  len : Nat
  data : BitVec 512
  cmp : BitVec 64
  vl : Label
  al : Label
  tag : Bool
  keep : Bool
  prio : BitVec 3
  launch : Nat
  page : Label
  /-- the page is stored compressed (R314) -/
  comp : Bool
  scope : Scope
  order : Order
  /-- the written bytes carry poison (R357) -/
  bad : Bool := false
  deriving DecidableEq, Repr

/-- What an operation brings back: the old bytes, the tag, the page label, the flags a fatom raises. -/
structure Result where
  data : BitVec 512
  tag : Bool
  label : Label
  flags : BitVec 5
  deriving DecidableEq, Repr

/-- The stage of an outstanding operation: waiting to be sent, sent to its home, executed with its result on the way
back, or answered with an error cause and detail. -/
inductive OpStage where
  | sent
  | executed (r : Result)
  /-- a quarter of a vector load that has arrived while others have not (R231) -/
  | arrived (r : Result)
  | failed (cause : BitVec 8) (detail : BitVec 32)
  deriving DecidableEq, Repr

/-- What an outstanding operation is: a memory access, a spawn, a post, a take and so on; `ack` covers the operations
whose only return is an acknowledgement. -/
inductive OpKind where
  | access (a : Access)
  | spawnto (tid : Tid)
  | postw
  | take (dst : Val) (store : BitVec 8)
  | stat
  | ack
  /-- a matrix command to a core of another device: target, tile and k-steps (R239) -/
  | command (target : Endpoint) (tile : BitVec 3) (ksteps : Nat)
  | post (key val : Word) (label : Label)
  | slices (left : Nat)
  deriving DecidableEq, Repr

/-- The header of a packet (R384). `opc` holds OPC with its reserved bits. -/
structure Header where
  opc : BitVec 24
  fn : BitVec 8
  size : BitVec 8
  ord : BitVec 8
  flags : BitVec 8
  status : BitVec 8
  len : BitVec 16
  dst : Endpoint
  src : Endpoint
  rack : BitVec 16
  seq : BitVec 16
  job : BitVec 16
  label : Label
  addr : Word
  deriving DecidableEq, Repr

/-- A packet: its header and its data. -/
structure Packet where
  hdr : Header
  data : List Byte
  deriving DecidableEq, Repr

/-- An outstanding operation of a task (R86, R155, R170). `id` is the model's own name for it. -/
structure PendOp where
  id : Nat
  pc : Word
  /-- address of the unit after it -/
  next : Word
  dest : Option Dest
  result : Bool
  kind : OpKind
  stage : OpStage
  clabel : Label
  peer : Bool
  host : Bool
  /-- the peer device it is a request to, and its SEQ there (R391) -/
  dev : BitVec 12 := 0#12
  seq : BitVec 16
  cycle : Nat
  /-- the core store counts of the first and the last store in it (R360) -/
  first : Nat := 0
  last : Nat := 0
  /-- the request packet of an operation on a peer, and how often it has been sent again (R393) -/
  packet : Option Packet := none
  resends : Nat := 0
  /-- the consumer word of its unit (R344) -/
  word : BitVec 32 := 0#32
  deriving DecidableEq, Repr

/-- What a parked task waits for (R16). Every wait but the first three is ended by issuing the instruction afresh. -/
inductive Wait where
  /-- the results of the group (R17) -/
  | group
  /-- an anchor grant (R14, R179) -/
  | anchor (mask : BitVec 8) (label : Label)
  /-- a notice (R296, R306) -/
  | notice
  /-- a cluster barrier phase to pass (R163) -/
  | phase (obj : BitVec 6) (ticket : BitVec 32)
  /-- the completion of the phase in which the task has already arrived (R163) -/
  | rearrive (obj : BitVec 6) (phase : BitVec 32)
  /-- a wire phase (R166), since the given cycle -/
  | wire (ticket : BitVec 32) (since : Nat)
  /-- the completion of the wire phase in which the core has already arrived (R166) -/
  | wireAgain (phase : BitVec 32)
  /-- a change of a watched location from the value last read (R167) -/
  | change (addr n seen : Nat)
  /-- a write to a join counter (R178) after those already counted -/
  | join (addr writes : Nat)
  /-- the acknowledgements before a migration, and the answer to the reservation it then asks for (R26) -/
  | migrate (goal : CoreId)
  | reserved (goal : CoreId)
  /-- a message (R169) -/
  | inbox
  /-- a free inbox place (R168) -/
  | room
  /-- a pipe credit or a pipe message (R186) -/
  | credit (pipe : Nat)
  | message (pipe : Nat)
  /-- the end of forked programs (R191) -/
  | engines (mask : BitVec 3)
  /-- the writes and operations that a release at this scope waits for (R86) -/
  | release (scope : Scope)
  /-- the completion of an acquire or of a same-location load (R85, R87) -/
  | order
  /-- an engine queue place, or the end of the engine's running program (R189, R237) -/
  | engine (e : Engine)
  /-- the end of the operations on these tiles (R38) -/
  | tiles (mask : BitVec 8)
  /-- a maintenance port (R298) -/
  | qport (p : BitVec 3) (write : Bool)
  /-- the completion of earlier invalidations: the operations named before `op` and the stores combined before `cycle`
  (R299) -/
  | tlbSync (op cycle : Nat)
  /-- a page being flipped (R318) -/
  | flip (vmid : BitVec 16) (ia : Nat)
  /-- engine work that a `task.end` waits for (R177) -/
  | ending
  /-- the landing of the outstanding operations of a task that a cause takes to another task (R293 step 2) -/
  | trap
  deriving DecidableEq, Repr

/-- The states of R16, a slot that holds no task, and a task that a debug unit holds stopped (R411). -/
inductive Status where
  | vacant
  | ready
  | parked (w : Wait)
  | departing (goal : CoreId)
  | stopped
  deriving DecidableEq, Repr

/-- The operands of a `hint.mod` prefix waiting for its consumer (R104). -/
structure ModPfx where
  mig : Mig
  msk : Option (BitVec 2)
  neg : Bool
  deriving DecidableEq, Repr

/-- A replay entry (R344). -/
structure Replay where
  op : PendOp
  cmp : Quad
  deriving DecidableEq, Repr

/-- A spawn record (R172, R173) with the launch it belongs to, which the device keeps with it. -/
structure SpawnRec where
  join : Quad
  arg2 : Quad
  arg1 : Quad
  rkind : BitVec 2
  tags : BitVec 3
  prio : BitVec 3
  entry : Word
  tid : Tid
  clabel : Label
  launch : Nat
  deriving DecidableEq, Repr

/-- A task (R9, R33, R284) with what the rules keep for it: its prefixes, buffer, held state, frames, outstanding
operations, inbox, anchor, leases, extents, scheduling counts and the launch it belongs to. -/
structure Task where
  status : Status
  g : Vector Val 16
  l : Val
  pc : Word
  tsw : Word
  clabel : Label
  /-- the task's own TID, by which every unit names it -/
  tid : Tid
  /-- what its TID register reads: its own TID, or that of the inline child it runs (R176) -/
  tidReg : Tid
  tlevel : Word
  utvec : Word
  uepc : Word
  ucause : Word
  uval : Word
  /-- address of the first word of the unit being issued (R105) -/
  unitPc : Word
  /-- the word that was last fetched for the task -/
  word : BitVec 32 := 0#32
  pfxImm : Option (BitVec 20)
  pfxMod : Option ModPfx
  /-- 1 once an instruction of the current group has issued (R346, STATE [0]) -/
  midGroup : Bool
  buf : List BufEntry
  /-- result-writing instructions of the group that count against its limit and have no entry left (R20, R160) -/
  lost : Nat
  held : Option Held
  frames : List Frame
  /-- the migration mark of the group (R25) -/
  mark : Option CoreId
  ops : List PendOp
  /-- the operations of a unit that is parked before they could be sent (R318, R343) -/
  unsent : List PendOp
  replay : List Replay
  inbox : List Msg
  resv : Nat
  /-- a notice has been received (R296, R346) -/
  noticed : Bool
  anchor : Option Anchor
  leases : List (BitVec 8 × Word)
  /-- the store whose handler count the task's end lowers (R212) -/
  handlerOf : Option (BitVec 8)
  pins : List Pin
  /-- causes to raise before the next unit (R353): cause, detail, value -/
  deferred : List (BitVec 8 × BitVec 32 × Word)
  /-- records to run inline at the end of the group (R157, R176, R178), with the return address; none stands for the pc
  at which the group ends -/
  bounced : List (SpawnRec × Option Word)
  /-- the trap that waits for the task's operations to land: level, cause word, value (R293) -/
  trap : Option (BitVec 2 × Word × Word)
  /-- for a trap handler task, the PA of the context area of the trapped task (R293) -/
  trapped : Option Nat
  /-- the ring whose record the task was started from, until its consumption is written back (R184) -/
  fromRing : Option Nat
  /-- barrier object and slot of which the task is a member (R163) -/
  member : Option (BitVec 6 × BitVec 6)
  ceil : BitVec 3
  job : BitVec 16
  launch : Nat
  entry : Word
  eff : BitVec 3
  age : Nat
  /-- the slots that must be chosen first after a yield (R180) -/
  yieldTo : BitVec 24
  /-- rounds for which the task offers to be passed over (R149) -/
  passOver : BitVec 6
  /-- the prediction that a hint.br left for the group's next B word (R150) -/
  predict : Option Bool
  /-- parity error in the group write buffer (R51); general registers poisoned by parity (R358) -/
  parity : Bool
  gpoison : BitVec 16
  /-- an arrival that a `bar.sync` at this address has made, with its ticket (R163, R170) -/
  arrival : Option (Word × BitVec 32)
  /-- the result of a wire wait that has timed out, until the instruction is issued again (R166) -/
  wireOut : Option Word
  /-- the unit that lets the task issue one unit and then stops it again (R411) -/
  single : Option CoreId
  /-- 1 for the run of a handler-type active message, whose task is the hearth's own (R22) -/
  onHearth : Bool
  /-- the doublewords that the unit reads at maintenance ports, and the ports they leave when the unit ends (R298) -/
  qin : Vector Word 8
  qtake : List (BitVec 3)
  deriving DecidableEq, Repr

/-- An entry of the store-combining buffer (R76), with what a pending record of a dump names (R360). -/
structure ScbEntry where
  line : Nat
  home : Home
  vaLine : Nat
  comp : Bool
  mask : BitVec 64
  data : BitVec 512
  tid : Tid
  job : BitVec 16
  made : Nat
  scope : Scope
  rel : Bool
  first : Nat
  last : Nat
  label : Label
  deriving DecidableEq, Repr

/-- A line of the global read cache (R78). `label` is that of its page, which for a line of a peer comes with the reply (R75). -/
structure CacheLine where
  home : Home
  line : Nat
  data : BitVec 512
  label : Label
  deriving DecidableEq, Repr

/-- A combined translation (R310). `leaf1` and `leaf2` name the entries it was built from by their addresses. -/
structure TlbEntry where
  asid : BitVec 16
  vmid : BitVec 16
  va : Nat
  size : Nat
  ia : Nat
  pa : Nat
  usr : Bool
  rd : Bool
  wr : Bool
  ex : Bool
  label : Label
  tier : BitVec 2
  comp : Bool
  leaf1 : Nat
  leaf2 : Nat
  lvl1 : BitVec 3
  lvl2 : BitVec 3
  rd1 : Bool
  wr1 : Bool
  ex1 : Bool
  deriving DecidableEq, Repr

/-- The system registers of one job on one core (R284). -/
structure JobRegs where
  job : BitVec 16
  jscap : Val
  upentry : Word
  udeleg : Word
  pt1root : Word
  asid : Word
  pt2root : Word
  vmid : Word
  deriving DecidableEq, Repr

/-- A matrix queue entry (R232 to R238). `id` is the model's own name for it and gives the acceptance order; `zero` is the
tag that `mx.zero` sets, `zfirst` zeroes the tile before the first k-step, `begun` says that it has started once, `needs`
names the operation on whose tag it was accepted (R431) and `doomed` that this one ended on a fault; `holds` says that it
has a reservation of its own; `remote` is the sender's core of a remote command. -/
structure MxOp where
  id : Nat
  owner : Tid
  job : BitVec 16
  launch : Nat
  level : BitVec 2
  tile : BitVec 3
  acap : Val
  bcap : Val
  astride : Nat
  bstride : Nat
  asstride : Nat
  bsstride : Nat
  asoff : Int
  bsoff : Int
  fmt : FTag
  asrc : Bool
  bsrc : Bool
  ksteps : Nat
  kd : Nat
  zfirst : Bool
  zero : Option FTag
  lab : Label
  prio : BitVec 3
  eff : BitVec 3
  age : Nat
  pc : Word
  optag : Word
  prog : Bool
  word : Nat
  holds : Bool
  remote : Option CoreId
  /-- the fabric request that a command of another device came in -/
  answer : Option Nat
  begun : Bool
  running : Bool
  /-- awaiting notice after an absent translation (R236) -/
  suspended : Bool
  needs : Option Nat
  doomed : Bool
  deriving DecidableEq, Repr

/-- A copy of the copy engine (R246 to R250). -/
inductive CpKind where
  | tensor (dest : CpDest)
  | bulk
  | release
  | rawCopy
  deriving DecidableEq, Repr

/-- An accepted copy (R246 to R250): `record` is the layout record of a tensor copy, `len` the bytes of its destination
span, `seg` its next segment, `seen` the labels of all that it has read, `acks` the operations on peers that its end waits for, `over` the cause it ends with once
they are back. -/
structure CpOp where
  id : Nat
  owner : Tid
  job : BitVec 16
  launch : Nat
  level : BitVec 2
  kind : CpKind
  note : Bool
  src : Nat
  dst : Nat
  record : BitVec 768
  len : Nat
  seg : Nat
  lab : Label
  flags : BitVec 5
  written : Nat
  prio : BitVec 3
  eff : BitVec 3
  age : Nat
  lastEnd : Nat
  pc : Word
  optag : Word
  prog : Bool
  word : Nat
  holds : Bool
  suspended : Bool
  acks : List Nat
  ended : Option (BitVec 8)
  seen : Label
  deriving DecidableEq, Repr

/-- What an accepted sort operation does (R261 to R265), with what is left of a run. -/
inductive SortKind where
  | load (half : BitVec 2) (desc : Bool) (sb : BitVec 20)
  | store (half : BitVec 2) (orig : Bool)
  | run (left : Nat)
  | rows
  | topk (k : Nat)
  deriving DecidableEq, Repr

/-- An accepted sort operation (R259 to R265). `addr` is the scratchpad address it loads from or stores to, `steps` the array
steps it has executed; the other fields are as in a matrix queue entry. -/
structure SortOp where
  id : Nat
  owner : Tid
  job : BitVec 16
  launch : Nat
  kind : SortKind
  tile : BitVec 3
  addr : Nat
  kfmt : KFmt
  form : KForm
  note : Bool
  lab : Label
  steps : Nat
  begun : Bool
  pc : Word
  optag : Word
  prog : Bool
  word : Nat
  holds : Bool
  needs : Option Nat
  doomed : Bool
  deriving DecidableEq, Repr

/-- Who holds a debug unit (R378). -/
inductive Holder where
  | free
  | guest (part : BitVec 2)
  | hyp
  deriving DecidableEq, Repr

/-- A record of the state-change log (R401), before its DELTA is formed: the class it belongs to is its TYPE. -/
structure TraceRec where
  type : BitVec 8
  cycle : Nat
  tid : Option Tid
  label : Label
  arg0 : Word
  arg1 : Word
  deriving DecidableEq, Repr

/-- A chunk that replay has read from the log (R420, R421): its place, task and kind, and the units that are left of it. -/
structure Chunk where
  place : Nat
  task : Option Tid
  kind : Nat
  left : Nat
  deriving DecidableEq, Repr

/-- A trace unit (R397, R399): its registers by name, the staging buffer (R406), the tasks it holds stopped with the
context areas they are saved in (R410), the open chunk of record mode (R418) and the place of replay (R421). -/
structure TraceUnit where
  holder : Holder
  tctl : Word
  tbase : Word
  tsize : Word
  tjob : Word
  twr : Word
  trd : Word
  tlost : Word
  tstat : Word
  rctl : Word
  stopreq : Word
  resume : Word
  dumpva : Word
  dumpmax : Word
  bpaddr : Vector Word 8
  bpctl : Vector Word 8
  staged : List TraceRec
  lastTime : Nat
  /-- the cycle of the last sample (R400) -/
  sampled : Nat
  /-- the next record written must be preceded by TIME (R403) -/
  needTime : Bool
  /-- records lost since the last LOST record (R406) -/
  unreported : Nat
  heldTids : List (Tid × Nat)
  /-- tasks to stop at their next unit boundary, with the reason (R411) -/
  pendingStops : List (Tid × BitVec 8)
  chunkTask : Option Tid
  chunkUnits : Nat
  /-- the group under way held a wait on another agent, so its chunk ends with it (R418) -/
  chunkEnds : Bool
  /-- in replay, the INPUT values and the created TIDs not yet consumed, and the chunk that has been read (R421) -/
  inputs : List (BitVec 8 × Word)
  creates : List Tid
  chunk : Option Chunk
  /-- tasks that had started before the last store of RCTL, with the RCTL that stays in force for them (R417) -/
  before : List (Tid × Word)
  /-- the partition from which the hypervisor has taken the unit (R378) -/
  revoked : Option (BitVec 2)
  deriving DecidableEq, Repr

/-- A counter bank (R413 to R416): the counts, BCTL, the holder, and the frozen copy of the guest it was revoked from. -/
structure CounterBank where
  holder : Holder
  bctl : Word
  counts : Vector Word 19
  revoked : Option (BitVec 2 × Word × Vector Word 19)
  deriving DecidableEq, Repr

/-- A staged record whose windows are still to be pinned and copied (R182, R313): SRC, LENGTH, SPOFF of each window. -/
structure Staged where
  spawn : SpawnRec
  windows : List (Val × Nat × Nat)
  ring : Nat
  deriving DecidableEq, Repr

/-- The run of a handler-type active message on the hearth (R22, R24): its task, its sender and the count. -/
structure HearthRun where
  task : Task
  src : CoreId
  op : Nat
  count : Nat
  deriving DecidableEq, Repr

/-- A search for a victim (R29): the width reached (0 cluster, 1 die, 2 partition) and the victims left to visit. -/
structure Search where
  domain : BitVec 2
  victim : CoreId
  left : List CoreId
  waiting : Bool
  deriving DecidableEq, Repr

/-- One core. -/
structure Core where
  id : CoreId
  fenced : Bool
  /-- the slot whose task is at the issue port; the task itself stands in the state beside the core -/
  port : BitVec 5
  slots : Vector (Option Task) 24
  /-- slot last chosen at each level (R15) -/
  lastAt : Vector (BitVec 5) 8
  /-- the class that took the core's previous slot (R432): 0 queued records, 1 ember dispatch, 2 deque -/
  lastClass : BitVec 2
  seq : BitVec 26
  seqWraps : Nat
  spad : Bank
  spadJob : BitVec 16
  dirty : BitVec 256
  dqBase : Word
  dqLimit : Word
  dqBot : Word
  dqTop : Word
  /-- launches of the records in the deque by index, and whether the record is void (R334) -/
  dqMeta : List (Nat × Nat × Bool)
  jsel : Word
  barown : Word
  noticeReg : Word
  jobs : List JobRegs
  scb : List ScbEntry
  stores : Nat
  cache : List CacheLine
  tlb : List TlbEntry
  tiles : Vector Tile 8
  /-- slots promised to migrating tasks, with their launches (R26) -/
  reserved : List (Tid × Nat)
  anchorQ : List Tid
  upcallQ : List Task
  startQ : List Task
  staging : List Staged
  pendFires : List SpawnRec
  mx : List MxOp
  cp : List CpOp
  srt : List SortOp
  hearth : Option HearthRun
  search : Option Search
  lastVictim : Vector (BitVec 10) 3
  /-- wire barrier (R165, R166): the region descriptor, the phase count and whether the core has arrived -/
  region : Option (BitVec 48)
  wphase : BitVec 32
  warrived : Bool
  trace : TraceUnit
  bank : CounterBank
  /-- slot and engine balances by tenant (R337): tenant, balance, debt, borrowed, for each kind -/
  slotBal : List (BitVec 4 × Int × Nat × Nat)
  engBal : List (BitVec 4 × Int × Nat × Nat)
  deriving DecidableEq, Repr

end Sys2Proof.Machine
end

