-- ==== Sys2Proof/Machine/DeviceState.lean ====
section
/-! DEFINITION. The plain data of the device around its cores: messages in flight, cluster units, ember slices,
registered graphs and launches, partitions and functions, the fabric, the host link, boot and identity. -/

namespace Sys2Proof.Machine

/-- The parameters of an ember store, decoded from its 64-byte declaration (R194). `num` is the store number. -/
structure StoreDecl where
  num : BitVec 8
  op : BitVec 4
  rule : BitVec 4
  hash : Bool
  refuse : Bool
  lease : Bool
  pull : Bool
  indexed : Bool
  hprio : BitVec 3
  hmax : Nat
  cap : Nat
  thresh : Word
  hentry : Word
  albase : Word
  pbase : Word
  pstride : Nat
  pkeys : Nat
  alsize : Nat
  lowat : Nat
  lmax : Label
  die : BitVec 2
  x0 : BitVec 4
  y0 : BitVec 4
  x1 : BitVec 4
  y1 : BitVec 4
  sloff : Nat
  deriving DecidableEq, Repr

/-- An ember (R201) without STATE, which follows from the slice's leases. -/
structure Ember where
  key : Word
  value : Word
  mag : Word
  label : Label
  deriving DecidableEq, Repr

/-- A slice of a store (R196, R202): its embers, threshold, flush state, ash log (as records, oldest first, R215), leases,
running handlers, the count of embers created, and the re-posts made in the period (R341). -/
structure Slice where
  core : CoreId
  job : BitVec 16
  launch : Nat
  decl : StoreDecl
  index : Nat
  embers : List Ember
  thresh : Word
  flushing : Bool
  ash : List (Word × Word)
  ashHead : Nat
  created : Nat
  handlers : Nat
  leases : List (Word × Tid)
  reposts : Nat
  deriving DecidableEq, Repr

/-- A declaration entry of a kernel header (R126). -/
inductive KDecl where
  | restart (lo hi target : Word)
  | input (argOff len spOff : Nat)
  | queue (id : Nat) (entries size : Nat) (pop : Bool)
  | pipe (id : Nat) (depth size : Nat) (recv : Bool)
  | gang (id : Nat)
  | evstore (num : BitVec 8)
  | party (slot : BitVec 4)
  deriving DecidableEq, Repr

/-- A kernel of a registered graph: its header (R126), its recomputed measurement (R128) and its placement (R323).
Queues, pipes and gangs are named by their numbers in the image. -/
structure Kernel where
  kind : BitVec 3
  prio : BitVec 3
  steal : BitVec 4
  anchor : Nat
  recomp : BitVec 8
  args : Nat
  text : Word
  textSize : Nat
  entry : Word
  measure : BitVec 256
  decls : List KDecl
  die : BitVec 2
  x0 : BitVec 4
  y0 : BitVec 4
  x1 : BitVec 4
  y1 : BitVec 4
  start : Nat
  deriving DecidableEq, Repr

/-- A section image of kind 5 or 6 that a launch writes (R329): address and bytes, and the capabilities of its `.cap`
granules (R117). -/
structure Image where
  shared : Bool
  addr : Nat
  bytes : List Byte
  caps : List (Nat × Quad)
  deriving DecidableEq, Repr

/-- A registered graph (R323, R324). -/
structure Graph where
  index : BitVec 12
  gen : BitVec 8
  part : BitVec 2
  func : BitVec 6
  job : BitVec 16
  tenant : BitVec 4
  priocap : BitVec 3
  level : BitVec 2
  logva : Nat
  logn : Nat
  bind : Word
  kernels : List Kernel
  images : List Image
  stores : List StoreDecl
  auth : List (Nat × Nat × BitVec 12)
  /-- false once unregistered; kept while launches of it live -/
  live : Bool
  deriving DecidableEq, Repr

/-- A queue ring (R181, R183, R184): producer, consumer, place, and its indices. `recv` is the last tail the consumer
received, `pulled` the records pulled, `back` the consumptions written back to the producer. -/
structure Ring where
  queue : Nat
  producer : CoreId
  consumer : CoreId
  pa : Nat
  entries : Nat
  size : Nat
  pushed : Nat
  recv : Nat
  pulled : Nat
  back : Nat
  deriving DecidableEq, Repr

/-- A pulled data record held for `queue.pop` (R185). -/
structure DataRec where
  queue : Nat
  ring : Nat
  bytes : List Byte
  clabel : Label
  deriving DecidableEq, Repr

/-- A pipe (R186): its members' cores, its slots in the receiver's scratchpad, the credits at the sender, the messages
in flight and held (slot index and label), and its ends. -/
structure Pipe where
  id : Nat
  sender : CoreId
  receiver : CoreId
  base : Nat
  size : Nat
  depth : Nat
  credits : Nat
  next : Nat
  held : List (Nat × Label)
  closed : Bool
  closeArrived : Bool
  recvEnded : Bool
  deriving DecidableEq, Repr

/-- The life of a launch (R329, R334, R335). -/
inductive LaunchState where
  | gangWaiting
  | live
  | withdrawing
  deriving DecidableEq, Repr

/-- A launch (R329). Its key is part × 2^32 + number. -/
structure Launch where
  key : Nat
  word : Word
  graph : BitVec 12
  gen : BitVec 8
  state : LaunchState
  rings : List Ring
  data : List DataRec
  pipes : List Pipe
  deriving DecidableEq, Repr

/-- The payload of a message between cores and hearths (R22, R23) and the replies that events deliver. -/
inductive MsgKind where
  | access (tid : Tid) (op : Nat) (a : Access)
  | spawn (tid : Tid) (op : Nat) (r : SpawnRec)
  | spawnRefused (tid : Tid) (op : Nat) (bounce : Bool) (r : SpawnRec)
  | fire (tid : Tid) (r : SpawnRec) (cell : Nat)
  /-- a refused fire with its cause; 0x0E says that it bounced -/
  | fireRefused (tid : Tid) (r : SpawnRec) (cell : Nat) (cause : BitVec 8)
  | stealReq (thief : CoreId) (jobs : List (BitVec 16))
  | stealReply (r : Option SpawnRec)
  | reserve (tid : Tid)
  | reserveRefused (tid : Tid)
  | context (t : Task)
  | tail (tid : Tid) (op : Nat) (launch ring : Nat) (index : Nat)
  | matrix (tid : Tid) (op : Nat) (m : MxOp)
  | active (tid : Tid) (op : Nat) (entry : Word) (args : Vector Word 4) (label : Label) (job : BitVec 16)
  | post (tid : Tid) (op : Nat) (job : BitVec 16) (store : BitVec 8) (key val : Word) (label : Label) (want : Bool) (pc : Word)
  | take (tid : Tid) (op : Nat) (job : BitVec 16) (store : BitVec 8)
  | stat (tid : Tid) (op : Nat) (job : BitVec 16) (store : BitVec 8)
  | done (tid : Tid) (op : Nat) (job : BitVec 16) (store : BitVec 8) (key : Word)
  | thresh (tid : Tid) (op : Nat) (job : BitVec 16) (store : BitVec 8) (v : Word)
  | flush (tid : Tid) (op : Nat) (job : BitVec 16) (store : BitVec 8)
  | pipeMsg (launch pipe slot : Nat) (label : Label)
  | pipeClose (launch pipe : Nat)
  | pipeCredit (launch pipe : Nat)
  | inbox (tid : Tid) (m : Msg)
  | wire
  /-- a fabric request to the core that waits for its turn at the hearth, by the model's name for it -/
  | request (op : Nat)
  deriving DecidableEq, Repr

/-- A message in flight. Messages of one source to one destination keep their order (R23). -/
structure NetMsg where
  src : CoreId
  dst : CoreId
  kind : MsgKind
  deriving DecidableEq, Repr

/-- A line of a peer's memory that an engine of a core has asked for, with the reply. -/
structure PeerLine where
  core : CoreId
  eng : Engine
  op : Nat
  tid : Tid
  dev : BitVec 12
  line : Nat
  seq : BitVec 16
  cycle : Nat
  packet : Option Packet
  resends : Nat
  got : Option OutReply
  deriving DecidableEq, Repr

/-- A barrier object of a cluster unit (R162); `labels` keeps the PLABEL of recent phases for the waits on them. -/
structure BarObj where
  cluster : BitVec 6
  obj : BitVec 6
  owner : BitVec 16
  members : BitVec 64
  arrived : BitVec 64
  phase : BitVec 32
  plabel : Label
  labels : List (BitVec 32 × Label)
  deriving DecidableEq, Repr

/-- A task saved in its context area (R343, R346): the area's PA and its bytes, the core it was saved from, its slot's
reservation, and the task with its engine work as they stood at the save, against which an edited area is checked (R294). `kept`
names the granted tiles that the area holds (R351). -/
structure Saved where
  area : Nat
  size : Nat
  core : CoreId
  kept : BitVec 8
  task : Task
  tiles : List (BitVec 3 × Tile)
  mxops : List MxOp
  cpops : List CpOp
  srtops : List SortOp
  /-- the unit that stopped it, if a debug unit did (R410) -/
  unit : Option CoreId
  /-- the slot kept for it on a machine-level trap (R293) -/
  slot : Option (BitVec 5)
  /-- its handler ended with task.end: it counts as awaiting notice (R332) -/
  awaiting : Bool
  deriving DecidableEq, Repr

/-- An installed gate policy (R375, R376) at its table place. -/
structure Policy where
  place : Nat
  id : Word
  labelset : Label
  cls : BitVec 8
  peer : BitVec 16
  budget : Nat
  expiry : Word
  measure : BitVec 256
  body : List Byte
  deriving DecidableEq, Repr

/-- A party slot entry (R370). -/
structure PartySlot where
  keyva : Word
  tenants : BitVec 16
  keyhash : BitVec 256
  deriving DecidableEq, Repr

/-- A function of the host link: its entry (R371), its mailbox (R322), LDROP (R328) and the cycle until which VFUP
refuses it (R373). -/
structure Func where
  valid : Bool
  host : Bool
  part : BitVec 2
  tenant : BitVec 4
  slot : BitVec 4
  request : BitVec 512
  result : Word
  ldrop : Word
  quarantine : Nat
  /-- an unregister command that waits for the launches of this graph -/
  pending : Option (BitVec 12 × BitVec 8)
  /-- a withdraw command that waits for the end of this launch -/
  withdrawing : Option Nat
  deriving DecidableEq, Repr

/-- A mailbox of the control block (R368): the result word and the command in progress. -/
structure Mailbox where
  operands : BitVec 512
  command : Word
  result : Word
  deriving DecidableEq, Repr

/-- A partition: its trap registers (R284), mailboxes, nonce, party slots, policies, launch queue (R329), gang queue
(R335), TID table (R409), the QoS block as read at the period's start (R336) and the commit count (R419). -/
structure Part where
  stvec : Word
  sdeleg : Word
  htvec : Word
  hdeleg : Word
  sup : Mailbox
  hyp : Mailbox
  nonce : Option (BitVec 256)
  slots : Vector PartySlot 16
  policies : List Policy
  launchNo : BitVec 32
  queue : List (Word × Option (BitVec 6))
  /-- gangs that wait: launch and gang, the head first (R335) -/
  gangs : List (Nat × Nat)
  attached : List (Tid × CoreId × BitVec 3)
  /-- tasks that a command has asked to pre-empt and that are not saved yet (R342, R369) -/
  preempting : List Tid
  qos : Vector Word 128
  commits : Nat
  deriving DecidableEq, Repr

/-- A cause table entry (R374) in order of its bytes. -/
structure CauseEntry where
  detail : Word
  stamp : BitVec 32
  kind : BitVec 8
  part : BitVec 8
  func : BitVec 8
  deriving DecidableEq, Repr

/-- An HDM decoder with its extension (R321): the host range and the fields IABASE, SLOT, VMID. -/
structure Hdm where
  base : Nat
  size : Nat
  en : Bool
  iabase : Nat
  slot : BitVec 4
  vmid : BitVec 16
  deriving DecidableEq, Repr

/-- A job table entry (R386). -/
structure JobMap where
  pod : BitVec 16
  job : BitVec 16
  part : BitVec 2
  valid : Bool
  deriving DecidableEq, Repr

/-- A cached reply of the cache gateway (R392): the SEQ, the reply; none while unanswered. -/
structure CachedReply where
  seq : BitVec 16
  reply : Option Packet
  deriving DecidableEq, Repr

/-- What a cache gateway keeps for a source (R391, R392): the highest SEQ passed on, the reply cache, the cycle of the last
request, and the requests that arrived ahead of a missing one, with their ingress ports. -/
structure Source where
  src : Endpoint
  part : BitVec 2
  high : BitVec 16
  cache : List CachedReply
  last : Nat
  ahead : List (BitVec 5 × Packet)
  /-- the source holds its 256 entries of the gateway -/
  granted : Bool
  deriving DecidableEq, Repr

/-- A link (R380 to R383, R395, R396). A sent group is kept as its first FSEQ, key bank and its flit headers and sealed
bytes, with the number of its retries. `tx` and `stream` are the payload bytes still to be sealed and those received but
not yet whole packets; a mark stands at each first byte of a packet. -/
structure Link where
  up : Bool
  fenced : Bool
  sendSeq : BitVec 24
  recvSeq : BitVec 24
  kept : List (BitVec 24 × Bool × List Byte)
  /-- the group that is being retried, and how often it has been -/
  retried : BitVec 24 × Nat
  /-- groups that have failed in the second that began at the given cycle -/
  fails : Nat × Nat
  /-- NAK is to be sent -/
  nak : Bool
  /-- receive-buffer beats to be returned to the peer, by virtual channel -/
  owed : Vector Nat 2
  /-- KGEN of the last good group -/
  recvGen : Bool
  sendGen : Bool
  sendKeys : Vector (Option (BitVec 256 × BitVec 32)) 2
  recvKeys : Vector (Option (BitVec 256 × BitVec 32)) 2
  sendCount : Vector Word 2
  recvCount : Vector Word 2
  tx : List (Bool × Byte)
  stream : List Byte
  /-- beats of each virtual channel that may be sent: 0 requests, 1 replies -/
  credits : Vector Nat 2
  deriving DecidableEq, Repr

/-- The atomic that the host port is performing (R83): its task, operation and the CAS requests made. -/
structure HostAtomic where
  core : CoreId
  tid : Tid
  op : Nat
  acc : Access
  compared : Option (BitVec 64)
  tries : Nat
  deriving DecidableEq, Repr

/-- A flash slot image (R425). -/
structure FlashImage where
  header : BitVec 512
  signature : List Byte
  body : List Byte
  deriving DecidableEq, Repr

/-- Flash, journal and bring-up state (R425 to R428). -/
structure Boot where
  firmware : Vector (Option FlashImage) 2
  config : Vector (Option FlashImage) 2
  journal : List (BitVec 256)
  count : Word
  /-- the step at which each die's bring-up stopped, if it did -/
  stopped : Vector (Option (BitVec 8)) 4
  released : Vector Bool 4
  absentPorts : List (BitVec 2 × BitVec 5)
  linkDown : List (BitVec 5)
  cxlUp : Bool
  mtvec : Vector Word 4
  caps : List (BitVec 128)
  failed : BitVec 16
  skipped : BitVec 16
  cold : Bool
  powered : Bool
  fwHash : BitVec 256
  cfgHash : BitVec 256
  fwVersion : Word
  /-- the certificate chain of the configuration image -/
  chain : List Byte
  deriving DecidableEq, Repr

/-- A response of the SPDM responder (R430), as what it says: the byte layouts are those of DMTF SPDM 1.2. -/
inductive SpdmReply where
  | version
  | capabilities
  | algorithms (asym hash : BitVec 32)
  | digests (digest : BitVec 256)
  | certificate (bytes : List Byte)
  | challengeAuth (digest : BitVec 256) (signature : List Byte)
  | measurements (blocks : List (BitVec 8 × List Byte)) (signature : List Byte)
  | keyExchange (exchange signature : List Byte)
  | finish
  | keyUpdate
  | endSession
  | error
  deriving DecidableEq, Repr

/-- The SPDM responder (R430): what has been negotiated, the session, and the responses it has given. -/
structure Spdm where
  started : Bool
  versioned : Bool
  capabilities : Bool
  negotiated : Bool
  session : Bool
  finished : Bool
  generation : Nat
  out : List SpdmReply
  deriving DecidableEq, Repr

/-- A maintenance port of a die controller (R298). -/
structure QPort where
  die : BitVec 2
  port : BitVec 3
  inward : List Word
  outward : List Word
  deriving DecidableEq, Repr

/-- A packet on its way out, with the port that it leaves through. -/
structure FabricOut where
  port : BitVec 5
  packet : Packet
  deriving DecidableEq, Repr

/-- A request for a page shared with the host (R317 to R319): to the device, or to the host at a PA of its own. The controller of the
frame's die serves it. -/
structure Flip where
  vmid : BitVec 16
  ia : Nat
  part : BitVec 2
  frame : Nat
  /-- where the host keeps the page, of a request of the host -/
  hostPa : Option Nat
  /-- the request has been sent to the driver, or the leaf has been taken from the device -/
  begun : Bool
  deriving DecidableEq, Repr

/-- What the device tells the host driver, or gives a host read (R319, R321). -/
inductive HostNote where
  | granted (vmid : BitVec 16) (ia : Nat)
  | refused (vmid : BitVec 16) (ia : Nat)
  /-- bytes that a host read has received, with the poison indication -/
  | line (addr : Nat) (bytes : List Byte) (poison : Bool)
  deriving DecidableEq, Repr

/-- Work of a die controller that goes on when a page of the host has been flipped (R318). -/
inductive CtlWork where
  /-- the registration that a function's mailbox holds -/
  | register (func : BitVec 6)
  /-- a record of a launch log: its word, KIND, STATUS and DETAIL -/
  | log (part : BitVec 2) (job : BitVec 16) (logva logn : Nat) (word : Word) (kind status detail : Nat)
  /-- INSTALL of a partition -/
  | install (part : BitVec 2) (operands : BitVec 512)
  /-- the dump of a core as it stood, for the job of its trace unit -/
  | dump (unit : CoreId) (job : BitVec 16) (va : Nat) (bytes : List Byte)
  /-- a deferred record for the ash log of a slice -/
  | ash (core : CoreId) (job : BitVec 16) (va : Nat) (key val : Word)
  deriving DecidableEq, Repr

/-- Work that waits for a page. -/
structure HeldWork where
  vmid : BitVec 16
  ia : Nat
  work : CtlWork
  deriving DecidableEq, Repr

/-- A request whose translation has stopped at the second stage (R306, R318, R389): the name that its handler knows it by, the
model's name for the request, whether its notice has been given, and the page that it awaits instead, by VMID and IA. -/
structure HeldRequest where
  name : Tid
  op : Nat
  noticed : Bool
  flip : Option (BitVec 16 × Nat)
  deriving DecidableEq, Repr

/-- The fabric side of the device (R379 to R396). -/
structure Fabric where
  device : BitVec 12
  jobs : List (BitVec 6 × JobMap)
  routes : List (BitVec 12 × BitVec 32)
  regions : List (BitVec 6 × BitVec 6 × BitVec 128)
  /-- next SEQ by source core and destination device -/
  seqs : List (CoreId × BitVec 12 × BitVec 16)
  sources : List Source
  links : Vector Link 32
  /-- the translation caches of the edge gateways, by port (R310, R380) -/
  gates : Vector (List TlbEntry) 32
  dropped : Nat
  /-- packets that wait for credits of their link -/
  out : List FabricOut
  /-- the cycle of a core's last reply from a device, and the pod job of its request -/
  lastReply : List (CoreId × BitVec 12 × Nat × BitVec 16)
  /-- requests that are still executed, by the model's name for them, with the port and the header of the reply -/
  pending : List (Nat × FabricOut)
  held : List HeldRequest
  syncs : Nat
  deriving DecidableEq, Repr

/-- A scratchpad save area (R349, R350): its base, and what a scratchpad keeps beside its bytes for the job that has given it
up. -/
structure SaveArea where
  job : BitVec 16
  core : CoreId
  base : Nat
  tags : List Nat
  labels : List (Nat × Label)
  poison : List Nat
  deriving DecidableEq, Repr

/-- A core dump (R359, R360) that the spec gives no place in memory: its header fields, the core with its tasks,
scratchpad and pending stores as they stood when it stopped, and the bytes of its slice. -/
structure Dump where
  causew : Word
  cycle : Nat
  tid : Tid
  core : Core
  slice : Memory
  deriving DecidableEq, Repr

/-- How far the machine's own order of events has come (log entry 11): what kind of step comes next (0 an internal event, 1 the
turn of a core, 2 a hearth), the place in the list of events after the last one that ran, the core that had the last turn and
the core whose hearth ran last. -/
structure Rota where
  kind : Nat
  event : Nat
  turn : CoreId
  hearth : CoreId
  deriving DecidableEq, Repr

/-- Everything outside the core in focus. -/
structure Device where
  /-- what moves next, before the machine's own order of events -/
  agenda : List Turn
  rota : Rota
  /-- the model's own counters: free values drawn, operations named -/
  free : Nat
  nextOp : Nat
  cycle : Nat
  /-- scheduling periods that have started (R336) -/
  periods : Nat
  cores : List Core
  shared : Bank
  /-- global and host memory by PA (R307); labels are unused, since global pages carry theirs in translations -/
  gmem : Bank
  /-- decoded copies of compressed pages in the memory-side buffer (R315): frame PA and page bytes -/
  decoded : List (Nat × Memory)
  net : List NetMsg
  /-- operations of tasks that have ended, still on their way to their homes -/
  orphans : List (CoreId × Tid × PendOp)
  peerLines : List PeerLine
  /-- writes executed at doublewords of the shared window, by address / 8 (R178) -/
  writes : List (Nat × Nat)
  clusterLines : List (BitVec 6 × Nat)
  barriers : List BarObj
  slices : List Slice
  graphs : List Graph
  generations : List (BitVec 2 × BitVec 12 × BitVec 8)
  launches : List Launch
  saved : List Saved
  saveAreas : List SaveArea
  parts : Vector Part 4
  brfw : Vector Word 4
  funcs : Vector Func 64
  causes : List CauseEntry
  pidx : Nat
  cidx : Nat
  causeDrop : Nat
  msix : Nat
  msixArmed : Bool
  hdm : Vector Hdm 8
  fabric : Fabric
  /-- requests for shared pages, in order of their arrival -/
  flips : List Flip
  hostSees : List HostNote
  heldWork : List HeldWork
  hostAtomic : Option HostAtomic
  hostQueue : List HostAtomic
  dieBanks : Vector CounterBank 4
  boot : Boot
  spdm : Spdm
  qports : List QPort
  /-- cores whose issue is withheld by the power manager (R424), as cycles left by die -/
  withheld : Vector Nat 4
  fencedSlices : List CoreId
  fencedChannels : List (BitVec 2 × BitVec 3)
  fencedDies : BitVec 4
  /-- background activity used in the period (R341): by die, activity, amount -/
  used : List (BitVec 2 × BitVec 3 × Nat)
  /-- HBM lines whose errors have been corrected and that scrub has not rewritten yet (R358) -/
  corrected : List Nat
  dumps : List Dump
  deriving DecidableEq, Repr

end Sys2Proof.Machine
end

