-- ==== Sys2Proof/Machine/State.lean ====
section
/-! DEFINITION. The state of the machine, its reset value, and the reasons a step can stop.

The state has three parts: the task at the issue port, the core in focus, and the device around it. The other cores stand
in `d.cores`, and a core that no event has touched is not listed: it stands at `Core.reset`. -/

namespace Sys2Proof.Machine

/-- The whole machine: the task at the issue port (`vacant` when there is none), the core in focus, the device. -/
structure State where
  t : Task
  c : Core
  d : Device
  deriving DecidableEq, Repr

/-- Why the machine stops. -/
inductive Fault where
  /-- Raised by `step` when the rails are down and the agenda holds nothing: no part of the device holds state (R423).
  Safe: the hardware does nothing either. -/
  | powerOff
  deriving DecidableEq, Repr

/-- Why an instruction has no meaning. -/
inductive Refusal where
  /-- Raised by an arm of `exec` for a row that is not modelled. Safe: nothing can be proved of its next state. -/
  | notModelled (mnemonic : String)
  deriving DecidableEq, Repr

/-- The value 0, untagged, with label 0 (R33). -/
def Val.zero : Val := { bits := 0#128, tag := false, label := 0#16 }
/-- The zero vector with format tag NONE and label 0 (R33). -/
def Entry.zero : Entry := { bits := 0#2048, fmt := .none, label := 0#16 }
/-- A mask of all ones with label 0 (R33). -/
def Mask.ones : Mask := { bits := BitVec.allOnes 128, label := 0#16 }
/-- A tile at its reset value (R33). -/
def Tile.zero : Tile := { rows := Vector.replicate 64 0#2048, fmt := .none, label := 0#16, poison := 0#64 }
/-- A memory that lists nothing. -/
def Bank.empty : Bank := { mem := [], tags := [], labels := [], poison := [] }
/-- The sort state as anchoring grants it (R254). -/
def SortState.zero : SortState :=
  { pairT := 0, bound := false, desc := false, kfmt := .i32, form := .k32p32, mid := false, ph := 0, step := 0,
    xprev := false, origins := 0#131072 }
/-- The engine state as anchoring grants it (R33, R36). -/
def Anchor.fresh (tiles : BitVec 8) : Anchor :=
  { tiles, o := Vector.replicate 8 Entry.zero, lv := Entry.zero, m := Vector.replicate 4 Mask.ones,
    sort := SortState.zero, pipeA := [], pipeB := [], mprog := none, cprog := none, sprog := none }

/-- A slot without a task; every field is at its reset value of R10, R11, R33 and R284. -/
def Task.vacant : Task :=
  { status := .vacant, g := Vector.replicate 16 Val.zero, l := Val.zero, pc := 0, tsw := 0, clabel := 0, tid := 0, tidReg := 0,
    tlevel := 0, utvec := 0, uepc := 0, ucause := 0, uval := 0, unitPc := 0, pfxImm := none, pfxMod := none,
    midGroup := false, buf := [], lost := 0, held := none, frames := [], mark := none, ops := [], unsent := [], replay := [], inbox := [],
    resv := 0, noticed := false, anchor := none, leases := [], handlerOf := none, pins := [], deferred := [],
    bounced := [], trap := none, trapped := none, fromRing := none, member := none, ceil := 0, job := 0, launch := 0, entry := 0, eff := 0, age := 0,
    yieldTo := 0, passOver := 0, predict := none, parity := false, gpoison := 0, arrival := none, wireOut := none,
    single := none, onHearth := false,
    qin := Vector.replicate 8 0, qtake := [] }

/-- A counter bank that no party holds (R413). -/
def CounterBank.reset : CounterBank :=
  { holder := .free, bctl := 0, counts := Vector.replicate 19 0, revoked := none }

/-- A trace unit at the reset values of R399: every register 0 but TSIZE, which is 12. -/
def TraceUnit.reset : TraceUnit :=
  { holder := .free, tctl := 0, tbase := 0, tsize := 12, tjob := 0, twr := 0, trd := 0, tlost := 0, tstat := 0,
    rctl := 0, stopreq := 0, resume := 0, dumpva := 0, dumpmax := 0, bpaddr := Vector.replicate 8 0,
    bpctl := Vector.replicate 8 0, staged := [], lastTime := 0, sampled := 0, needTime := true, unreported := 0, heldTids := [],
    pendingStops := [], chunkTask := none, chunkUnits := 0, chunkEnds := false, inputs := [], creates := [], chunk := none, before := [], revoked := none }

/-- A core as reset leaves it: no task, empty memories and caches, deque bounds and indices 0 (R284). The rules give no last victim of a
stealing domain: DESIGN CHOICE (log entry 116), the core itself, so that each rotation of R29 starts after it. -/
def Core.reset (id : CoreId) : Core :=
  { id, fenced := false, port := 0, slots := Vector.replicate 24 none, lastAt := Vector.replicate 8 0, lastClass := 0,
    seq := 0, seqWraps := 0, spad := Bank.empty, spadJob := 0, dirty := 0, dqBase := 0, dqLimit := 0, dqBot := 0,
    dqTop := 0, dqMeta := [], jsel := 0, barown := 0, noticeReg := 0, jobs := [], scb := [], stores := 0, cache := [],
    tlb := [], tiles := Vector.replicate 8 Tile.zero, reserved := [], anchorQ := [], upcallQ := [], startQ := [], staging := [],
    pendFires := [], mx := [], cp := [], srt := [], hearth := none, search := none,
    lastVictim := Vector.replicate 3 id, region := none, wphase := 0, warrived := false, trace := TraceUnit.reset,
    bank := CounterBank.reset, slotBal := [], engBal := [] }

/-- A mailbox with no command running (R368). -/
def Mailbox.reset : Mailbox := { operands := 0, command := 0, result := 1 }

/-- A partition as reset leaves it (R284, R336). -/
def Part.reset : Part :=
  { stvec := 0, sdeleg := 0, htvec := 0, hdeleg := 0, sup := Mailbox.reset, hyp := Mailbox.reset, nonce := none,
    slots := Vector.replicate 16 { keyva := 0, tenants := 0, keyhash := 0 }, policies := [], launchNo := 0,
    queue := [], gangs := [], attached := [], preempting := [], qos := Vector.replicate 128 0, commits := 0 }

/-- A function whose entry is not valid (R371). -/
def Func.reset : Func :=
  { valid := false, host := false, part := 0, tenant := 0, slot := 0, request := 0, result := 1, ldrop := 0,
    quarantine := 0, pending := none, withdrawing := none }

/-- A link before training (R381, R395): down, sequence numbers 0, no key loaded. -/
def Link.reset : Link :=
  { up := false, fenced := false, sendSeq := 0, recvSeq := 0, kept := [], retried := (0, 0), fails := (0, 0), nak := false,
    owed := Vector.replicate 2 0, recvGen := false,
    sendGen := false, sendKeys := Vector.replicate 2 none, recvKeys := Vector.replicate 2 none,
    sendCount := Vector.replicate 2 0, recvCount := Vector.replicate 2 0, tx := [], stream := [],
    credits := Vector.replicate 2 0 }

/-- The fabric before bring-up. -/
def Fabric.reset : Fabric :=
  { device := 0, jobs := [], routes := [], regions := [], seqs := [], sources := [],
    links := Vector.replicate 32 Link.reset, gates := Vector.replicate 32 [], dropped := 0, out := [], lastReply := [], pending := [], held := [], syncs := 0 }

/-- Flash and bring-up as they stand at the first release of reset: empty flash slots and journal, no die brought up. -/
def Boot.reset : Boot :=
  { firmware := Vector.replicate 2 none, config := Vector.replicate 2 none, journal := [], count := 0,
    stopped := Vector.replicate 4 none, released := Vector.replicate 4 false, absentPorts := [], linkDown := [],
    cxlUp := false, mtvec := Vector.replicate 4 0, caps := [], failed := 0, skipped := 0, cold := true, powered := true,
    fwHash := 0, cfgHash := 0, fwVersion := 0, chain := [] }

/-- The device as reset leaves it, before the bring-up steps of R428 have run: BRFW of die d names partition d (R366). -/
def Device.reset : Device :=
  { agenda := [], rota := { kind := 0, event := 0, turn := 0, hearth := 0 }, free := 0, nextOp := 1, cycle := 0, periods := 0, cores := [], shared := Bank.empty, gmem := Bank.empty,
    decoded := [], net := [], orphans := [], peerLines := [], writes := [], clusterLines := [], barriers := [], slices := [], graphs := [], generations := [],
    launches := [], saved := [],
    saveAreas := [],
    parts := Vector.replicate 4 Part.reset, brfw := #v[0x00, 0x10, 0x20, 0x30],
    funcs := Vector.replicate 64 Func.reset, causes := [], pidx := 0, cidx := 0, causeDrop := 0, msix := 0,
    msixArmed := true,
    hdm := Vector.replicate 8 { base := 0, size := 0, en := false, iabase := 0, slot := 0, vmid := 0 },
    fabric := Fabric.reset, flips := [], hostSees := [], heldWork := [], hostAtomic := none, hostQueue := [],
    dieBanks := Vector.replicate 4 CounterBank.reset, boot := Boot.reset,
    spdm := { started := false, versioned := false, capabilities := false, negotiated := false, session := false, finished := false,
              generation := 0, out := [] },
    qports := [], withheld := Vector.replicate 4 0, fencedSlices := [], fencedChannels := [], fencedDies := 0,
    used := [], corrected := [], dumps := [] }

/-- The machine at the release of the package reset (R428): no die has run its bring-up, core (0, 0) of die 0 is in
focus, and its issue port has no task. -/
def State.reset : State := { t := Task.vacant, c := Core.reset 0, d := Device.reset }

end Sys2Proof.Machine
end

