-- ==== Sys2Proof/Machine/Ops.lean ====
section
/-! DEFINITION. The named operations over memory, labels, registers, tasks and cores that every meaning is built from. -/

namespace Sys2Proof.Machine

/-! ### Bits -/

/-- Bits [lo+len-1:lo] of a number. -/
def bitsOf (n lo len : Nat) : Nat := n / 2 ^ lo % 2 ^ len
/-- A word with bits [lo+len-1:lo] replaced. -/
def setBits (w : Word) (lo len : Nat) (v : Nat) : Word :=
  BitVec.ofNat 64 (w.toNat - bitsOf w.toNat lo len * 2 ^ lo + v % 2 ^ len * 2 ^ lo)
/-- A bit of a word. -/
def bitAt (w : Word) (i : Nat) : Bool := w.toNat / 2 ^ i % 2 == 1
/-- Sign extension of the low `w` bits of a number, as an integer. -/
def signed (w n : Nat) : Int :=
  let m := n % 2 ^ w
  if 2 * m < 2 ^ w then (m : Int) else (m : Int) - (2 ^ w : Nat)
/-- A number of `n` bytes as a list, the lowest first (R3). -/
def toBytes : Nat → Nat → List Byte
  | 0, _ => []
  | n + 1, v => BitVec.ofNat 8 v :: toBytes n (v / 256)
/-- The number that bytes hold, the lowest first (R3). -/
def ofBytes : List Byte → Nat
  | [] => 0
  | b :: r => b.toNat + 256 * ofBytes r
/-- Bytes lo to lo+n-1 of a list, as a number. -/
def bytesAt (l : List Byte) (lo n : Nat) : Nat := ofBytes ((l.drop lo).take n)

/-- Changes one place of a vector. -/
def vmod {α : Type} {n : Nat} (v : Vector α n) (i : Nat) (f : α → α) : Vector α n :=
  match v[i]? with
  | some x => v.setIfInBounds i (f x)
  | none => v

/-! ### Memory -/

/-- One byte; an unlisted address reads 0. -/
def Memory.get : Memory → Nat → Byte
  | [], _ => 0
  | (b, v) :: r, a => if a = b then v else if a < b then 0 else Memory.get r a

/-- Writes one byte and keeps the canonical form. -/
def Memory.set : Memory → Nat → Byte → Memory
  | [], a, v => if v = 0 then [] else [(a, v)]
  | (b, x) :: r, a, v =>
    if a < b then (if v = 0 then (b, x) :: r else (a, v) :: (b, x) :: r)
    else if a = b then (if v = 0 then r else (a, v) :: r)
    else (b, x) :: Memory.set r a v

/-- Addresses strictly rise from `lo`, and no byte is 0. -/
def Memory.wfFrom : Nat → Memory → Bool
  | _, [] => true
  | lo, (a, v) :: r => decide (lo ≤ a) && v != 0 && Memory.wfFrom (a + 1) r

/-- The canonical form: addresses strictly rising, no entry equal to what an unlisted address reads as. -/
def Memory.wf (m : Memory) : Bool := Memory.wfFrom 0 m

/-- The number in the `n` bytes at `a`. -/
def Memory.read (m : Memory) (a : Nat) : Nat → Nat
  | 0 => 0
  | n + 1 => (m.get a).toNat + 256 * Memory.read m (a + 1) n

/-- Writes the low `n` bytes of `v` at `a`. -/
def Memory.write (m : Memory) (a : Nat) : Nat → Nat → Memory
  | 0, _ => m
  | n + 1, v => Memory.write (m.set a (BitVec.ofNat 8 v)) (a + 1) n (v / 256)

/-- The bytes at `a`. -/
def Memory.bytes (m : Memory) (a : Nat) : Nat → List Byte
  | 0 => []
  | n + 1 => m.get a :: Memory.bytes m (a + 1) n

/-- Writes bytes at `a`. -/
def Memory.writeBytes (m : Memory) (a : Nat) : List Byte → Memory
  | [] => m
  | b :: r => Memory.writeBytes (m.set a b) (a + 1) r

/-- Writes those bytes whose bit of `mask` is set. -/
def Memory.writeMasked (m : Memory) (a : Nat) : Nat → Nat → Nat → Memory
  | 0, _, _ => m
  | n + 1, mask, v =>
    Memory.writeMasked (if mask % 2 = 1 then m.set a (BitVec.ofNat 8 v) else m) (a + 1) n (mask / 2) (v / 256)

/-! ### Ascending lists of numbers and of pairs -/

def insertNat (n : Nat) : List Nat → List Nat
  | [] => [n]
  | a :: r => if n < a then n :: a :: r else if n = a then a :: r else a :: insertNat n r

def putPair {β : Type} (k : Nat) (v : β) : List (Nat × β) → List (Nat × β)
  | [] => [(k, v)]
  | (a, x) :: r => if k < a then (k, v) :: (a, x) :: r else if k = a then (k, v) :: r else (a, x) :: putPair k v r

/-- The numbers from `lo`, `n` of them. -/
def rangeFrom (lo : Nat) : Nat → List Nat
  | 0 => []
  | n + 1 => lo :: rangeFrom (lo + 1) n

/-- The units of `size` that the bytes [a, a+n) touch; none for no byte. -/
def units (size a n : Nat) : List Nat :=
  if n = 0 then [] else rangeFrom (a / size) ((a + n - 1) / size - a / size + 1)

/-- The lowest place of n bytes in a pool, at an alignment, that meets none of the ranges taken (base and size of each). -/
def firstFit (align base size n : Nat) (taken : List (Nat × Nat)) : Option Nat :=
  let cands := ((base + align - 1) / align * align) :: taken.map (fun t => (t.1 + t.2 + align - 1) / align * align)
  let ok (a : Nat) : Bool := decide (base ≤ a) && decide (a + n ≤ base + size) &&
    taken.all (fun t => decide (a + n ≤ t.1) || decide (t.1 + t.2 ≤ a))
  (cands.filter ok).foldl (fun (best : Option Nat) a => match best with
    | some b => if a < b then some a else best
    | none => some a) none

/-! ### Banks -/

/-- The label of a page (R48, R75). -/
def Bank.pageLabel (b : Bank) (page : Nat) : Label := (b.labels.lookup page).getD 0#16

/-- Sets the label of a page; label 0 is not listed. -/
def Bank.setLabel (b : Bank) (page : Nat) (l : Label) : Bank :=
  { b with labels := if l = 0#16 then b.labels.filter (fun p => p.1 != page) else putPair page l b.labels }

/-- The union of the labels of the pages that [a, a+n) touches. -/
def Bank.labelOf (b : Bank) (a n : Nat) : Label := (units 4096 a n).foldl (fun l p => l ||| b.pageLabel p) 0#16

/-- Whether a value label is a subset of the label of every page touched (R50). -/
def Bank.accepts (b : Bank) (a n : Nat) (vl : Label) : Bool := (units 4096 a n).all (fun p => vl.sub (b.pageLabel p))

/-- Whether a line touched by [a, a+n) is poisoned (R357). -/
def Bank.poisoned (b : Bank) (a n : Nat) : Bool := (units 64 a n).any (fun l => b.poison.contains l)

/-- The tag of the granule at `a` (R46). -/
def Bank.tagAt (b : Bank) (a : Nat) : Bool := b.tags.contains (a / 16)

/-- Poison after a write of [a, a+n): a write of a whole line clears it, a partial write leaves it (R357). -/
def Bank.poisonAfter (b : Bank) (a n : Nat) : List Nat :=
  b.poison.filter (fun l => !(decide (a ≤ 64 * l) && decide (64 * l + 64 ≤ a + n)))

/-- A write that is not a capability store: it clears the tag of every granule it touches (R46). -/
def Bank.put (b : Bank) (a n v : Nat) : Bank :=
  { b with mem := b.mem.write a n v, tags := b.tags.filter (fun g => !(units 16 a n).contains g),
           poison := b.poisonAfter a n }

/-- A write of bytes, as `put`. -/
def Bank.putBytes (b : Bank) (a : Nat) (l : List Byte) : Bank :=
  { b with mem := b.mem.writeBytes a l, tags := b.tags.filter (fun g => !(units 16 a l.length).contains g),
           poison := b.poisonAfter a l.length }

/-- A write of the bytes that a mask selects, as `put`. -/
def Bank.putMasked (b : Bank) (a n mask v : Nat) : Bank :=
  { b with mem := b.mem.writeMasked a n mask v, poison := if mask + 1 = 2 ^ n then b.poisonAfter a n else b.poison }

/-- A capability store: sixteen bytes and their tag as one unit (R46, R47). -/
def Bank.putCap (b : Bank) (a : Nat) (v : Quad) (tag : Bool) : Bank :=
  let c := b.put a 16 v.toNat
  if tag then { c with tags := insertNat (a / 16) c.tags } else c

/-- Marks the line of `a` poisoned. -/
def Bank.poisonLine (b : Bank) (a : Nat) : Bank := { b with poison := insertNat (a / 64) b.poison }

/-! ### Physical addresses (R307, R356) -/

/-- The HBM of a die, and the first PA of host memory. -/
def dieBytes : Nat := 2 ^ 37
def hostBase : Nat := 2 ^ 47

/-- The die of an HBM or second-tier PA. -/
def dieOfPa (pa : Nat) : BitVec 2 := BitVec.ofNat 2 (if pa < 4 * dieBytes then bitsOf pa 37 2 else bitsOf pa 38 2)

/-- Whether a channel that serves a PA is fenced: its lines read as poison and writes to it are dropped (R356). -/
def Device.channelDown (d : Device) (pa : Nat) : Bool :=
  pa < hostBase && (d.fencedChannels.contains (dieOfPa pa, Config.channelOf pa))

/-- Writes that a die controller makes at a PA in HBM: the bytes of a fenced channel are dropped (R356). -/
def Device.putArea (d : Device) (a : Nat) (l : List Byte) : Device :=
  if d.fencedChannels.isEmpty then { d with gmem := d.gmem.putBytes a l }
  else { d with gmem := l.zipIdx.foldl (fun (b : Bank) p => if d.channelDown (a + p.2) then b else b.putBytes (a + p.2) [p.1]) d.gmem }

/-! ### The task status word and TLEVEL (R11, R283) -/

def tswPin (w : Word) : Bool := bitAt w 21
def tswAnc (w : Word) : Bool := bitAt w 20
def tswKind (w : Word) : Nat := bitsOf w.toNat 17 3
def tswMig (w : Word) : Nat := bitsOf w.toNat 15 2
def tswPrio (w : Word) : Nat := bitsOf w.toNat 12 3
def tswRm (w : Word) : Nat := bitsOf w.toNat 10 2
def tswFpen (w : Word) : Nat := bitsOf w.toNat 5 5
def tswFpflg (w : Word) : Nat := bitsOf w.toNat 0 5
/-- The privilege level of a task. -/
def Task.level (t : Task) : Nat := bitsOf t.tlevel.toNat 0 2
def Task.ut (t : Task) : Bool := bitAt t.tlevel 2
def Task.maint (t : Task) : Bool := bitAt t.tlevel 3
def Task.prio (t : Task) : BitVec 3 := BitVec.ofNat 3 (tswPrio t.tsw)
def Task.kind (t : Task) : Nat := tswKind t.tsw

/-! ### Names of cores, endpoints and clusters -/

def CoreId.die (c : CoreId) : BitVec 2 := BitVec.ofNat 2 (c.toNat / 256)
def CoreId.y (c : CoreId) : Nat := c.toNat / 16 % 16
def CoreId.x (c : CoreId) : Nat := c.toNat % 16
/-- The cluster of a core: 4 x 4 cores (R1). -/
def CoreId.cluster (c : CoreId) : BitVec 6 :=
  BitVec.ofNat 6 (c.toNat / 256 * 16 + CoreId.y c / 4 * 4 + CoreId.x c / 4)
/-- The core at a column, a row and a die. -/
def coreAt (die x y : Nat) : CoreId := BitVec.ofNat 10 (die % 4 * 256 + y % 16 * 16 + x % 16)
/-- The endpoint ID of a core of a device (R379). -/
def endpointOf (dev : BitVec 12) (c : CoreId) : Endpoint := BitVec.ofNat 24 (dev.toNat * 4096 + c.toNat * 4)
/-- The core that an endpoint ID of KIND 0 names. -/
def Endpoint.core (e : Endpoint) : CoreId := BitVec.ofNat 10 (e.toNat / 4)
def Endpoint.kind (e : Endpoint) : Nat := e.toNat % 4
def Endpoint.dev (e : Endpoint) : BitVec 12 := BitVec.ofNat 12 (e.toNat / 4096)
/-- The core whose slice holds a shared-window address (R45). -/
def sliceCore (a : Nat) : CoreId := BitVec.ofNat 10 (a / 1048576)

/-! ### Cores and tasks -/

def lookupCore (id : CoreId) : List Core → Option Core
  | [] => none
  | c :: r => if c.id = id then some c else lookupCore id r

/-- Puts a core into the list, in ascending order of its number. -/
def storeCore (c : Core) : List Core → List Core
  | [] => [c]
  | k :: r => if c.id.toNat < k.id.toNat then c :: k :: r else if c.id = k.id then c :: r else k :: storeCore c r

def dropCore (id : CoreId) (l : List Core) : List Core := l.filter (fun c => c.id != id)

/-- The task of a slot, vacant when there is none. -/
def Core.slot (c : Core) (n : Nat) : Task := (c.slots[n]?.getD none).getD Task.vacant

/-- A core with a task in a slot; a vacant task leaves the slot empty. -/
def Core.setSlot (c : Core) (n : Nat) (t : Task) : Core :=
  { c with slots := c.slots.setIfInBounds n (if t.status = .vacant then none else some t) }

/-- The core in focus with its port task put back: into its slot, or into the hearth when it runs there (R22). -/
def State.whole (s : State) : Core :=
  if s.t.onHearth then { s.c with hearth := s.c.hearth.map (fun h => { h with task := s.t }) }
  else s.c.setSlot s.c.port.toNat s.t

/-- The state with a core in focus and the task of a slot of it at the issue port. -/
def seat (c : Core) (n : Nat) (d : Device) : State :=
  { t := c.slot n, c := { c with port := BitVec.ofNat 5 n, slots := c.slots.setIfInBounds n none }, d }

/-- Takes the task of a slot to the issue port. -/
def State.takeSlot (s : State) (n : Nat) : State := seat s.whole n s.d

/-- Puts a task into a slot of the core in focus; that of the port's slot stands at the port, unless the hearth runs there (R22). -/
def State.fillSlot (s : State) (n : Nat) (t : Task) : State :=
  if n = s.c.port.toNat ∧ !s.t.onHearth then { s with t } else { s with c := s.c.setSlot n t }

/-- Takes the run of the hearth to the issue port. -/
def State.toHearth (s : State) : State :=
  match s.c.hearth with
  | some h => if s.t.onHearth then s else { s with t := h.task, c := s.whole }
  | none => s

/-- Brings a core into focus, with the task of the slot it last had at its port. -/
def State.focus (s : State) (id : CoreId) : State :=
  if s.c.id = id then s
  else
    let c := (lookupCore id s.d.cores).getD (Core.reset id)
    let d := { s.d with cores := storeCore s.whole (dropCore id s.d.cores) }
    { t := c.slot c.port.toNat, c := { c with slots := c.slots.setIfInBounds c.port.toNat none }, d }

/-- The slot numbers. -/
def slotNumbers : List Nat := rangeFrom 0 24

/-- The slot of the task named by a TID on the core in focus. -/
def State.slotOf (s : State) (tid : Tid) : Option Nat :=
  let c := s.whole
  slotNumbers.find? (fun n => (c.slot n).status != .vacant && (c.slot n).tid == tid)

/-- Brings a task of the core in focus to the issue port, when there is one of that name. -/
def State.toPort (s : State) (tid : Tid) : State :=
  if s.t.status != .vacant && s.t.tid == tid && !s.t.onHearth then s
  else match s.slotOf tid with
    | some n => s.takeSlot n
    | none => s

/-- Focuses a core and a task of it; none when the core holds no such task. -/
def State.focusTask (s : State) (core : CoreId) (tid : Tid) : Option State :=
  let s := s.focus core
  let s := s.toPort tid
  if s.t.status != .vacant && s.t.tid == tid then some s else none

/-- The tasks of a core with their slots. -/
def Core.tasks (c : Core) : List (Nat × Task) :=
  (slotNumbers.map (fun n => (n, c.slot n))).filter (fun p => p.2.status != .vacant)

/-- The slots of a core that hold no task. -/
def Core.emptySlots (c : Core) : List Nat := slotNumbers.filter (fun n => (c.slot n).status == .vacant)

/-- A free slot of the core in focus, the lowest, when more are empty than are promised to migrating tasks (R26). -/
def State.freeSlot (s : State) : Option Nat :=
  let l := s.whole.emptySlots
  if s.c.reserved.length < l.length then l.head? else none

/-- Changes the task named by a TID on the core in focus, wherever it stands on it. -/
def State.modTask (s : State) (tid : Tid) (f : Task → Task) : State :=
  if s.t.status != .vacant && s.t.tid == tid && !s.t.onHearth then { s with t := f s.t }
  else { s with c := { s.c with slots := s.c.slots.map (fun o => o.map (fun t => if t.tid == tid then f t else t)) } }

/-- Changes a task of a core, wherever it stands on it. -/
def State.modTaskOn (s : State) (id : CoreId) (tid : Tid) (f : Task → Task) : State :=
  if s.c.id = id then s.modTask tid f
  else { s with d := { s.d with cores := s.d.cores.map (fun c => if c.id = id then
      { c with slots := c.slots.map (fun o => o.map (fun t => if t.tid == tid then f t else t)) } else c) } }

/-- Changes every task of the core in focus. -/
def State.mapTasks (s : State) (f : Task → Task) : State :=
  { s with t := if s.t.status == .vacant then s.t else f s.t,
           c := { s.c with slots := s.c.slots.map (fun o => o.map f) } }

/-- Changes another core, or the core in focus (whose port task is not in its slots). -/
def State.modCore (s : State) (id : CoreId) (f : Core → Core) : State :=
  if s.c.id = id then { s with c := f s.c }
  else { s with d := { s.d with cores := storeCore (f ((lookupCore id s.d.cores).getD (Core.reset id))) s.d.cores } }

/-- A core by its number, with its port task in its slot. -/
def State.core (s : State) (id : CoreId) : Core :=
  if s.c.id = id then s.whole else (lookupCore id s.d.cores).getD (Core.reset id)

/-- The cores that stand away from reset, the one in focus included. -/
def State.allCores (s : State) : List Core := storeCore s.whole s.d.cores

/-- Finds a live task by its TID: its core and its slot. -/
def State.find (s : State) (tid : Tid) : Option (CoreId × Nat) :=
  (s.allCores.flatMap (fun c => (c.tasks.filter (fun p => p.2.tid == tid)).map (fun p => (c.id, p.1)))).head?

/-- Does something at a task of another core and returns to the core and the task in focus. -/
def State.atCore (s : State) (id : CoreId) (f : State → State) : State :=
  let back := s.c.id
  let n := s.c.port.toNat
  if back = id then f s else ((f (s.focus id)).focus back).takeSlot n

/-! ### Partitions, jobs, graphs and launches -/

/-- The partition of a die (R366). -/
def Device.partOf (d : Device) (die : BitVec 2) : BitVec 2 := BitVec.ofNat 2 (bitsOf (d.brfw[die.toNat]?.getD 0).toNat 4 2)
/-- The partition of the core in focus. -/
def State.part (s : State) : BitVec 2 := s.d.partOf (CoreId.die s.c.id)
def Device.partState (d : Device) (p : BitVec 2) : Part := d.parts[p.toNat]?.getD Part.reset
def Device.modPart (d : Device) (p : BitVec 2) (f : Part → Part) : Device :=
  { d with parts := d.parts.setIfInBounds p.toNat (f (d.partState p)) }
def State.modPart (s : State) (p : BitVec 2) (f : Part → Part) : State := { s with d := s.d.modPart p f }
/-- The lowest die of a partition: its number (R365). -/
def partDies (d : Device) (p : BitVec 2) : List Nat := (rangeFrom 0 4).filter (fun n => d.partOf (BitVec.ofNat 2 n) == p)

/-- Whether a partition is stopped: it holds a fenced die (R356). -/
def Device.stopped (d : Device) (p : BitVec 2) : Bool := (partDies d p).any (fun n => d.fencedDies.getLsbD n)
/-- Whether the core in focus does nothing: it is fenced, or its partition is stopped. -/
def State.halted (s : State) : Bool := s.c.fenced || s.d.stopped s.part

/-- The registers of a job on a core (R284); a job without an entry has zeros. -/
def Core.jobRegs (c : Core) (job : BitVec 16) : JobRegs :=
  (c.jobs.find? (fun j => j.job == job)).getD
    { job, jscap := Val.zero, upentry := 0, udeleg := 0, pt1root := 0, asid := 0, pt2root := 0, vmid := 0 }
def Core.setJobRegs (c : Core) (j : JobRegs) : Core :=
  { c with jobs := j :: c.jobs.filter (fun k => k.job != j.job) }

def Device.launchOf (d : Device) (key : Nat) : Option Launch := d.launches.find? (fun l => l.key == key)
def Device.modLaunch (d : Device) (key : Nat) (f : Launch → Launch) : Device :=
  { d with launches := d.launches.map (fun l => if l.key == key then f l else l) }
def launchPart (key : Nat) : BitVec 2 := BitVec.ofNat 2 (key / 4294967296)
def launchNumber (key : Nat) : Nat := key % 4294967296
def Device.graphAt (d : Device) (p : BitVec 2) (index : BitVec 12) (gen : BitVec 8) : Option Graph :=
  d.graphs.find? (fun g => g.part == p && g.index == index && g.gen == gen)
/-- The graph of a launch. -/
def Device.launchGraph (d : Device) (key : Nat) : Option Graph :=
  match d.launchOf key with
  | some l => d.graphAt (launchPart key) l.graph l.gen
  | none => none
/-- The job of a launch. -/
def Device.jobOfLaunch (d : Device) (launch : Nat) : BitVec 16 := (d.launchGraph launch).elim 0 (·.job)

/-- The kernel of a graph whose text range holds an address. -/
def Graph.kernelAt (g : Graph) (pc : Nat) : Option Kernel :=
  g.kernels.find? (fun k => decide (k.text.toNat ≤ pc) && decide (pc < k.text.toNat + k.textSize))
/-- Whether a core lies in a kernel's placement region (R323). -/
def Kernel.covers (k : Kernel) (c : CoreId) : Bool :=
  k.die == CoreId.die c && decide (k.x0.toNat ≤ CoreId.x c) && decide (CoreId.x c ≤ k.x1.toNat) &&
  decide (k.y0.toNat ≤ CoreId.y c) && decide (CoreId.y c ≤ k.y1.toNat)
/-- Whether a core is one of the job's cores: in a region of a kernel of a graph of the job (R323). -/
def Device.jobHolds (d : Device) (p : BitVec 2) (job : BitVec 16) (c : CoreId) : Bool :=
  d.graphs.any (fun g => g.part == p && g.job == job && g.kernels.any (fun k => k.covers c))
/-- The cores of a kernel's region in row-major order (R329). -/
def Kernel.region (k : Kernel) : List CoreId :=
  (rangeFrom k.y0.toNat (k.y1.toNat + 1 - k.y0.toNat)).flatMap (fun y =>
    (rangeFrom k.x0.toNat (k.x1.toNat + 1 - k.x0.toNat)).map (fun x => coreAt k.die.toNat x y))
/-- The cores of a graph, each once. -/
def Graph.cores (g : Graph) : List CoreId := (g.kernels.flatMap Kernel.region).eraseDups

/-! ### Trace records and counters (R400 to R406, R414) -/

/-- The class bit of TCTL that a record type needs, none for the types always written (R400). -/
def traceClass : Nat → Option Nat
  | 2 | 3 | 4 | 5 | 6 => some 4
  | 7 | 8 | 9 | 10 => some 5
  | 11 => some 6
  | 12 | 13 => some 7
  | 14 => some 8
  | _ => none

/-- Whether the unit writes records of a type now. CHUNK and INPUT are written in record mode as if EN were 1 (R417). -/
def TraceUnit.writes (u : TraceUnit) (type : Nat) : Bool :=
  let rec1 := bitsOf u.rctl.toNat 16 2 == 1 && (type == 19 || type == 20)
  (bitAt u.tctl 0 || rec1) && !bitAt u.tstat 0 && (match traceClass type with | some b => bitAt u.tctl b | none => true)

/-- Puts a record into the staging buffer of 64 records, or counts it lost (R406). -/
def TraceUnit.emit (u : TraceUnit) (r : TraceRec) : TraceUnit :=
  if u.writes r.type.toNat then
    (if u.staged.length < 64 then { u with staged := u.staged ++ [r] }
     else { u with tlost := u.tlost + 1, unreported := u.unreported + 1 })
  else if bitAt u.tstat 0 && bitAt u.tctl 0 then { u with tlost := u.tlost + 1 }
  else u

/-- Writes a record about a task on the core in focus, labelled with the task's control label (R405). -/
def State.record (s : State) (type : Nat) (t : Task) (lab : Label) (arg0 arg1 : Word) : State :=
  let r : TraceRec :=
    { type := BitVec.ofNat 8 type, cycle := s.d.cycle, tid := some t.tidReg, label := t.clabel ||| lab, arg0, arg1 }
  { s with c := { s.c with trace := s.c.trace.emit r } }

/-- Writes a record that names no task. -/
def State.recordNone (s : State) (type : Nat) (arg0 arg1 : Word) : State :=
  let r : TraceRec := { type := BitVec.ofNat 8 type, cycle := s.d.cycle, tid := none, label := 0#16, arg0, arg1 }
  { s with c := { s.c with trace := s.c.trace.emit r } }

/-- Adds to a counter of a bank unless it is frozen (R413). -/
def CounterBank.add (b : CounterBank) (n k : Nat) : CounterBank :=
  if bitAt b.bctl 1 then b else { b with counts := vmod b.counts n (· + BitVec.ofNat 64 k) }
/-- Counts an event of the core in focus (R414). -/
def State.count (s : State) (n : Nat) : State := { s with c := { s.c with bank := s.c.bank.add n 1 } }
/-- Counts an event of a die (R415). -/
def State.countDie (s : State) (die : BitVec 2) (n k : Nat) : State :=
  { s with d := { s.d with dieBanks := vmod s.d.dieBanks die.toNat (·.add n k) } }

/-! ### Free values -/

/-- Draws a free choice. -/
def State.freeBit (s : State) : Bool × State := (Config.freeBit s.d.free, { s with d := { s.d with free := s.d.free + 1 } })

/-! ### Task identifiers (R31) -/

/-- The next TID of the core in focus; the count wraps modulo 2^26, and a wrap is logged. -/
def State.freshTid (s : State) : Tid × State :=
  let tid := BitVec.ofNat 48 (s.d.fabric.device.toNat * 68719476736 + s.c.id.toNat * 67108864 + s.c.seq.toNat)
  let s' := { s with c := { s.c with seq := s.c.seq + 1 } }
  if s.c.seq = BitVec.allOnes 26 then
    let s'' := { s' with c := { s'.c with seqWraps := s'.c.seqWraps + 1 } }
    (tid, s''.recordNone 17 (BitVec.ofNat 64 s''.c.seqWraps) 0)
  else (tid, s')

/-- A TID for a task of a job: the next one, or in replay the one that the log's CREATE record gives (R421). -/
def State.newTid (s : State) (job : BitVec 16) : Tid × State :=
  let u := s.c.trace
  match u.creates with
  | tid :: r =>
    if bitsOf u.rctl.toNat 16 2 = 2 ∧ bitsOf u.rctl.toNat 0 16 = job.toNat then
      (tid, { s with c := { s.c with trace := { u with creates := r } } })
    else s.freshTid
  | [] => s.freshTid

/-- A fresh name for an outstanding operation. -/
def State.newOp (s : State) : Nat × State := (s.d.nextOp, { s with d := { s.d with nextOp := s.d.nextOp + 1 } })

/-- Sends a message from the core in focus. -/
def State.send (s : State) (dst : CoreId) (k : MsgKind) : State :=
  { s with d := { s.d with net := s.d.net ++ [{ src := s.c.id, dst, kind := k }] } }

/-- Puts turns at the end of the agenda. -/
def State.schedule (s : State) (l : List Turn) : State := { s with d := { s.d with agenda := s.d.agenda ++ l } }

/-! ### The cause table (R374) -/

/-- Writes an entry: its kind, partition and function. The rules do not say what DETAIL holds, so it is a free value. A full
table counts the event in DROP; the vector is sent once between writes of CIDX. -/
def Device.causeAdd (d : Device) (kind part func : Nat) : Device :=
  if d.cidx + 4096 ≤ d.pidx then { d with causeDrop := d.causeDrop + 1 }
  else
    let e : CauseEntry := { detail := Config.freeWord d.free, stamp := BitVec.ofNat 32 d.cycle, kind := BitVec.ofNat 8 kind, part := BitVec.ofNat 8 part,
                            func := BitVec.ofNat 8 func }
    let l := d.causes ++ [e]
    { d with free := d.free + 1, causes := l.drop (l.length - 4096), pidx := d.pidx + 1, msix := d.msix + (if d.msixArmed then 1 else 0),
             msixArmed := false }

/-- The function that is the host of a partition (R371). -/
def Device.hostFunc (d : Device) (p : BitVec 2) : Option (BitVec 6 × Func) :=
  ((rangeFrom 0 64).map (fun i => (BitVec.ofNat 6 i, d.funcs[i]?.getD Func.reset))).find?
    (fun q => q.2.valid && q.2.host && q.2.part == p)

/-- The FUNC of an entry for a partition's host function. -/
def Device.hostFuncNo (d : Device) (p : BitVec 2) : Nat := (d.hostFunc p).elim 0xFF (fun q => q.1.toNat)

/-- Whether a page is on its way to the device. -/
def Device.flipping (d : Device) (vmid : BitVec 16) (ia : Nat) : Bool :=
  d.flips.any (fun f => f.vmid == vmid && f.ia == ia && f.hostPa.isNone)

/-- Puts a request for a shared page behind the others. It joins the page's last request when that goes the same way (R317). -/
def Device.askFlip (d : Device) (f : Flip) : Device :=
  match (d.flips.filter (fun g => g.vmid == f.vmid && g.ia == f.ia)).getLast? with
  | some g => if g.hostPa.isSome = f.hostPa.isSome then d else { d with flips := d.flips ++ [f] }
  | none => { d with flips := d.flips ++ [f] }

/-- A device access to a page that the host owns asks for it (R318). -/
def State.startFlip (s : State) (part : BitVec 2) (vmid : BitVec 16) (ia frame : Nat) : State :=
  { s with d := s.d.askFlip { vmid, ia := ia / 4096 * 4096, part, frame, hostPa := none, begun := false } }

/-! ### Inbox (R168) -/

def Core.inboxUse (c : Core) : Nat := (c.tasks.map (fun p => p.2.resv + p.2.inbox.length)).foldl (· + ·) 0
/-- The entries of the core in focus that ended tasks still hold: each is freed when its message is discarded, or when no message is
to come. They are those of refusals and completions on their way, of posts and commands sent, and of commands accepted elsewhere. -/
def State.endedUse (s : State) : Nat :=
  let gone (tid : Tid) : Bool := (s.find tid).isNone && s.d.saved.all (fun v => v.task.tid != tid)
  let coming (m : NetMsg) : Bool := match m.kind with
    | .inbox tid _ => m.dst == s.c.id && gone tid
    | .matrix tid _ _ => m.src == s.c.id && gone tid
    | _ => false
  let sent (o : PendOp) : Bool := o.stage == .sent && (match o.kind with | .post _ _ _ | .command _ _ _ => true | _ => false)
  (s.d.net.filter coming).length + (s.d.orphans.filter (fun p => p.1 == s.c.id && sent p.2.2)).length +
  (s.allCores.flatMap (fun c => c.mx.filter (fun o => o.remote == some s.c.id && gone o.owner))).length

/-- Whether one more reservation may be taken: at most 16 for the task and 64 for the core. -/
def State.roomForResv (s : State) (n : Nat) : Bool :=
  decide (s.t.resv + s.t.inbox.length + n ≤ 16) && decide (s.whole.inboxUse + s.endedUse + n ≤ 64)
/-- Puts a message that uses a reservation into a task's inbox; without a reservation it has no place. -/
def Task.receive (t : Task) (m : Msg) : Task := { t with resv := t.resv - 1, inbox := t.inbox ++ [m] }
/-- Frees a reservation without a message. -/
def Task.freeResv (t : Task) : Task := { t with resv := t.resv - 1 }
/-- The 32 bytes of a message (R168). -/
def Msg.bits (m : Msg) : BitVec 256 :=
  BitVec.ofNat 256 (m.type.toNat + m.src.toNat * 2 ^ 8 + m.cause.toNat * 2 ^ 32 + m.label.toNat * 2 ^ 48 +
    m.optag.toNat * 2 ^ 64 + m.payload.toNat * 2 ^ 128)

/-! ### Waiting and waking -/

/-- The reason code of a PARK record (R402). -/
def Wait.reason : Wait → Nat
  | .group => 0
  | .anchor _ _ => 2
  | .phase _ _ | .rearrive _ _ | .wire _ _ | .wireAgain _ => 3
  | .inbox | .room => 4
  | .notice => 6
  | _ => 1

/-- A stepped unit that waits and is issued afresh is still to be stepped (R411). -/
def State.unstep (s : State) : State :=
  let due (c : Core) : Bool := c.trace.pendingStops.any (fun p => p.1 == s.t.tid && p.2 == 0xFE)
  match s.allCores.find? due with
  | some c =>
    let s := { s with t := { s.t with single := some c.id } }
    s.modCore c.id (fun c => { c with trace := { c.trace with
      pendingStops := c.trace.pendingStops.filter (fun p => !(p.1 == s.t.tid && p.2 == 0xFE)) } })
  | none => s

/-- A unit that is issued afresh after its wait counts once in its chunk (R418, R421) and in its hearth run, and is stepped once. -/
def State.uncount (s : State) (w : Wait) : State :=
  if w = .group then s
  else
    let s := s.unstep
    let words := (s.t.pc.toNat - s.t.unitPc.toNat) / 4 + 1
    let s : State := if s.t.onHearth then { s with c := { s.c with hearth := s.c.hearth.map (fun (h : HearthRun) =>
        { h with count := h.count - words }) } } else s
    let u := s.c.trace
    let s : State := if u.chunkTask = some s.t.tid then { s with c := { s.c with trace := { u with chunkUnits := u.chunkUnits - 1 } } } else s
    match u.chunk with
    | some k =>
      if k.task = some s.t.tidReg ∧ k.kind = 0 then
        { s with c := { s.c with trace := { s.c.trace with chunk := some { k with left := k.left + 1 } } } }
      else s
    | none => s

/-- Parks the task at the port. A wait that is ended by issuing afresh leaves the pc at the unit's first word. -/
def State.park (s : State) (w : Wait) : State :=
  let s := s.uncount w
  let t := s.t
  let t' := match w with
    | .group => { t with status := .parked w }
    | _ => { t with status := .parked w, pc := t.unitPc, pfxImm := none, pfxMod := none }
  ({ s with t := t' }).record 5 t 0#16 t.unitPc (BitVec.ofNat 64 w.reason)

/-- Makes the task at the port ready. -/
def State.wake (s : State) : State :=
  ({ s with t := { s.t with status := .ready } }).record 6 s.t 0#16 0 0

end Sys2Proof.Machine
end

