-- ==== Sys2Proof/Machine/Caps.lean ====
section
/-! DEFINITION. Capabilities: their fields (R41, R42), the decoding of their bounds (R43), the windows (R45) and the
checks of an access (R44). -/

namespace Sys2Proof.Machine

/-! ### Fields (R41) -/

def capCursor (q : Quad) : Nat := bitsOf q.toNat 0 64
def capSpace (q : Quad) : Nat := bitsOf q.toNat 64 4
def capPerm (q : Quad) : Nat := bitsOf q.toNat 68 12
def capE (q : Quad) : Nat := bitsOf q.toNat 80 6
def capB (q : Quad) : Nat := bitsOf q.toNat 86 20
def capT (q : Quad) : Nat := bitsOf q.toNat 106 20

/-- A capability from its fields; the reserved bits are zero. -/
def mkCap (t b e perm space cursor : Nat) : Quad :=
  BitVec.ofNat 128 (t % 2 ^ 20 * 2 ^ 106 + b % 2 ^ 20 * 2 ^ 86 + e % 64 * 2 ^ 80 + perm % 4096 * 2 ^ 68 +
    space % 16 * 2 ^ 64 + cursor % 2 ^ 64)

/-! Permission bits (R42), as numbers of the PERM field. -/
def pLD : Nat := 1
def pST : Nat := 2
def pLDCAP : Nat := 4
def pSTCAP : Nat := 8
def pEXEC : Nat := 16
def pATOM : Nat := 32
def pEVPOST : Nat := 64
def pCMD : Nat := 128
def pGLOBAL : Nat := 256
def pRELEASE : Nat := 512

/-- Whether PERM holds every permission of a mask. -/
def hasPerm (q : Quad) (mask : Nat) : Bool := capPerm q &&& mask == mask

/-! ### Bounds (R43) -/

/-- The exponent that decoding uses; 45 to 63 are reserved and decode as 44. -/
def capExp (q : Quad) : Nat := min (capE q) 44

/-- The exact bounds [base, top) that E, B, T and a cursor decode to. -/
def boundsAt (q : Quad) (cursor : Nat) : Int × Int :=
  let e := capExp q
  let w := e + 20
  if e = 44 then
    (((capB q * 2 ^ 44 : Nat) : Int), ((if capT q = 0 then 2 ^ 64 else capT q * 2 ^ 44 : Nat) : Int))
  else
    let mid := bitsOf cursor e 20
    let rb := (capB q + 2 ^ 20 - 0x1000) % 2 ^ 20
    let hi : Int := (cursor / 2 ^ w : Nat)
    let dm : Int := if mid < rb then 1 else 0
    let cb : Int := (if capB q < rb then 1 else 0) - dm
    let ct : Int := (if capT q < rb then 1 else 0) - dm
    ((hi + cb) * (2 ^ w : Nat) + (capB q * 2 ^ e : Nat), (hi + ct) * (2 ^ w : Nat) + (capT q * 2 ^ e : Nat))

def capBase (q : Quad) : Int := (boundsAt q (capCursor q)).1
def capTop (q : Quad) : Int := (boundsAt q (capCursor q)).2

/-- The first address of the representable region of a capability whose cursor is `cursor` (R43); with E = 44 it is 0. -/
def regionAt (q : Quad) (cursor : Nat) : Int :=
  let e := capExp q
  let w := e + 20
  if e = 44 then 0
  else
    let mid := bitsOf cursor e 20
    let rb := (capB q + 2 ^ 20 - 0x1000) % 2 ^ 20
    let hi : Int := (cursor / 2 ^ w : Nat)
    (hi - (if mid < rb then 1 else 0)) * (2 ^ w : Nat) + (rb * 2 ^ e : Nat)

/-! ### Windows (R45) -/

/-- The windows of the address space. -/
inductive Win where
  | spad
  | shared
  | glob
  deriving DecidableEq, Repr

/-- The window that holds an address. -/
def winOf (a : Nat) : Option Win :=
  if a < 0x100000 then some .spad
  else if 0x40000000 ≤ a ∧ a < 0x80000000 then some .shared
  else if 0x100000000 ≤ a ∧ a < 2 ^ 57 then some .glob
  else none

/-- The bounds of a window. -/
def Win.lo : Win → Nat
  | .spad => 0 | .shared => 0x40000000 | .glob => 0x100000000
def Win.hi : Win → Nat
  | .spad => 0x100000 | .shared => 0x80000000 | .glob => 2 ^ 57

/-- The window that a space names (R41, R45): spaces 1, 2 and 3. -/
def spaceWin : Nat → Option Win
  | 1 => some .glob
  | 2 => some .shared
  | 3 => some .spad
  | _ => none

/-! ### The checks of an access (R44) -/

/-- Steps 1 and 2: the tag, the space and the permissions; the cause of the first failure. -/
def checkCap (v : Val) (spaces : List Nat) (perm : Nat) : Option Nat :=
  if !v.tag then some 0x04
  else if !(spaces.contains (capSpace v.bits)) || !(hasPerm v.bits perm) then some 0x06
  else none

/-- Step 3: for space 0 the window of the first byte must hold the last byte too. -/
def checkWin (v : Val) (a : Int) (n : Nat) : Except Nat Win :=
  match spaceWin (capSpace v.bits) with
  | some w => .ok w
  | none =>
    if a < 0 then .error 0x05
    else match winOf a.toNat with
      | none => .error 0x05
      | some w => if a.toNat + n ≤ w.hi then .ok w else .error 0x07

/-- Step 4: the bounds, on the exact integer address. -/
def inBounds (v : Val) (a : Int) (n : Nat) : Bool := decide (capBase v.bits ≤ a) && decide (a + n ≤ capTop v.bits)

/-- The spaces of loads, stores and atomics. -/
def memSpaces : List Nat := [0, 1, 2, 3]

/-- Steps 1 to 5 of R44 for an access of n bytes at a. `need` is the window that the instruction requires. -/
def checkAccess (v : Val) (spaces : List Nat) (perm : Nat) (a : Int) (n align : Nat) (need : Option Win) :
    Except Nat Win :=
  match checkCap v spaces perm with
  | some c => .error c
  | none =>
    match checkWin v a n with
    | .error c => .error c
    | .ok w =>
      if !(inBounds v a n) then .error 0x05
      else if need.any (· != w) then .error 0x06
      else if a % (align : Int) ≠ 0 then .error 0x08
      else .ok w

/-- The smallest exponent, from `e` up, for which [base, base+len) decodes exactly with the cursor at base: E, B, T
(R117, R140). -/
def encodeBounds (base len : Nat) (e : Nat) : Nat → Option (Nat × Nat × Nat)
  | 0 => none
  | fuel + 1 =>
    let b := base / 2 ^ e % 2 ^ 20
    let t := (base + len) / 2 ^ e % 2 ^ 20
    let q := mkCap t b e 0 0 base
    if boundsAt q base = ((base : Int), ((base + len : Nat) : Int)) then some (e, b, t)
    else encodeBounds base len (e + 1) fuel

/-- A tagged capability over exactly [base, base+len), when one exists. -/
def exactCap (base len perm space : Nat) (label : Label) : Option Val :=
  match encodeBounds base len 0 45 with
  | some (e, b, t) => some { bits := mkCap t b e perm space base, tag := true, label }
  | none => none

end Sys2Proof.Machine
end

