-- ==== Sys2Proof/Machine/Flags.lean ====
section
/-! DEFINITION. Floating-point values and every flag they raise (R53 to R58, R64, R65): values are exact (a sign, a
natural number and a power of two), an operation is computed exactly, and one rounding gives the result and its flags. -/

namespace Sys2Proof.Machine

/-! ### Flags, in FPFLG order (R11) -/

def fNV : Nat := 16
def fDZ : Nat := 8
def fOF : Nat := 4
def fUF : Nat := 2
def fNX : Nat := 1

/-! ### Formats (R53) -/

/-- A binary format: the widths of its exponent and fraction. -/
structure FFmt where
  e : Nat
  f : Nat
  deriving DecidableEq, Repr

def FFmt.fp64 : FFmt := { e := 11, f := 52 }
def FFmt.fp32 : FFmt := { e := 8, f := 23 }
def FFmt.fp16 : FFmt := { e := 5, f := 10 }
def FFmt.bf16 : FFmt := { e := 8, f := 7 }

def FFmt.width (F : FFmt) : Nat := 1 + F.e + F.f
def FFmt.bias (F : FFmt) : Nat := 2 ^ (F.e - 1) - 1
/-- The exponent of the smallest normal number. -/
def FFmt.emin (F : FFmt) : Int := 1 - (F.bias : Int)
/-- The exponent of the largest finite number. -/
def FFmt.emax (F : FFmt) : Int := F.bias
/-- The canonical quiet NaN. -/
def FFmt.qnan (F : FFmt) : Nat := (2 ^ F.e - 1) * 2 ^ F.f + 2 ^ (F.f - 1)
def FFmt.signBit (F : FFmt) (s : Bool) : Nat := if s then 2 ^ (F.e + F.f) else 0
def FFmt.inf (F : FFmt) (s : Bool) : Nat := F.signBit s + (2 ^ F.e - 1) * 2 ^ F.f
/-- The largest finite magnitude's bits. -/
def FFmt.maxFin (F : FFmt) (s : Bool) : Nat := F.signBit s + (2 ^ F.e - 2) * 2 ^ F.f + (2 ^ F.f - 1)
def FFmt.zero (F : FFmt) (s : Bool) : Nat := F.signBit s

/-! ### Values -/

/-- What bits stand for: a NaN (signalling or not), an infinity, or (−1)^s × m × 2^e. -/
inductive Num where
  | nan (signalling : Bool)
  | inf (s : Bool)
  | fin (s : Bool) (m : Nat) (e : Int)
  deriving DecidableEq, Repr

/-- The value of bits in a format (R53, R54). -/
def FFmt.decode (F : FFmt) (n : Nat) : Num :=
  let s := bitsOf n (F.e + F.f) 1 == 1
  let x := bitsOf n F.f F.e
  let fr := bitsOf n 0 F.f
  if x = 2 ^ F.e - 1 then
    (if fr = 0 then .inf s else .nan (fr < 2 ^ (F.f - 1)))
  else if x = 0 then .fin s fr (F.emin - F.f)
  else .fin s (fr + 2 ^ F.f) ((x : Int) - F.bias - F.f)

def Num.isSig : Num → Bool
  | .nan b => b
  | _ => false
def Num.isNan : Num → Bool
  | .nan _ => true
  | _ => false
def Num.sign : Num → Bool
  | .nan _ => false
  | .inf s => s
  | .fin s _ _ => s
def Num.isZero : Num → Bool
  | .fin _ 0 _ => true
  | _ => false
def Num.neg : Num → Num
  | .nan b => .nan b
  | .inf s => .inf (!s)
  | .fin s m e => .fin (!s) m e

/-! ### Rounding (R56) -/

/-- m × 2^(−sh) rounded to an integer under a mode (0 nearest even, 1 toward zero, 2 toward −∞, 3 toward +∞), and whether
it changed. -/
def roundShift (rm : Nat) (s : Bool) (m : Nat) (sh : Int) : Nat × Bool :=
  if sh ≤ 0 then (m * 2 ^ (-sh).toNat, false)
  else
    let d := 2 ^ sh.toNat
    let q := m / d
    let r := m % d
    let up := match rm with
      | 0 => 2 * r > d || (2 * r == d && q % 2 == 1)
      | 1 => false
      | 2 => s && r > 0
      | _ => !s && r > 0
    (if up then q + 1 else q, r != 0)

/-- The delivered overflow result of a mode. -/
def FFmt.overflow (F : FFmt) (rm : Nat) (s : Bool) : Nat :=
  match rm with
  | 0 => F.inf s
  | 1 => F.maxFin s
  | 2 => if s then F.inf s else F.maxFin s
  | _ => if s then F.maxFin s else F.inf s

/-- The bits of k × 2^(qe), with k below 2^(f+1) and qe at least emin − f. -/
def FFmt.pack (F : FFmt) (s : Bool) (k : Nat) (qe : Int) : Nat :=
  if k < 2 ^ F.f then F.signBit s + k
  else F.signBit s + (qe + F.f + F.bias).toNat * 2 ^ F.f + (k - 2 ^ F.f)

/-- The exact value (−1)^s × m × 2^e rounded once into a format, with overflow, underflow and inexact (R56, R57).
Tininess is judged after rounding with unbounded exponent. -/
def FFmt.round (F : FFmt) (rm : Nat) (s : Bool) (m : Nat) (e : Int) : Nat × Nat :=
  if m = 0 then (F.zero s, 0)
  else
    let x : Int := (Nat.log2 m : Int) + e
    let (ku, _) := roundShift rm s m (x - F.f - e)
    let xu := if ku = 2 ^ (F.f + 1) then x + 1 else x
    if F.emax < xu then (F.overflow rm s, fOF + fNX)
    else
      let qe := max (x - F.f) (F.emin - F.f)
      let (k, nx) := roundShift rm s m (qe - e)
      let (k, qe) := if k = 2 ^ (F.f + 1) then (2 ^ F.f, qe + 1) else (k, qe)
      (F.pack s k qe, (if nx then fNX else 0) + (if nx && xu < F.emin then fUF else 0))

/-- A value delivered in a format: NaN results are the canonical quiet NaN (R54). -/
def FFmt.deliver (F : FFmt) (rm : Nat) : Num → Nat × Nat
  | .nan b => (F.qnan, if b then fNV else 0)
  | .inf s => (F.inf s, 0)
  | .fin s m e => F.round rm s m e

/-! ### Exact arithmetic -/

/-- The integer that a finite value is at a common exponent. -/
def atExp (s : Bool) (m : Nat) (e e0 : Int) : Int :=
  let v : Int := ((m * 2 ^ (e - e0).toNat : Nat) : Int)
  if s then -v else v

/-- The sign of an exact zero sum: that of both when they agree, else + except toward −∞. -/
def zeroSign (rm : Nat) (a b : Bool) : Bool := if a == b then a else rm == 2

/-- The exact sum of two values; the second component is the invalid flag. -/
def addNum (rm : Nat) : Num → Num → Num × Nat
  | .nan a, .nan b => (.nan false, if a || b then fNV else 0)
  | .nan a, _ => (.nan false, if a then fNV else 0)
  | _, .nan b => (.nan false, if b then fNV else 0)
  | .inf a, .inf b => if a == b then (.inf a, 0) else (.nan false, fNV)
  | .inf a, .fin _ _ _ => (.inf a, 0)
  | .fin _ _ _, .inf b => (.inf b, 0)
  | .fin a m e, .fin b n f =>
    let e0 := min e f
    let v := atExp a m e e0 + atExp b n f e0
    if v = 0 then (.fin (zeroSign rm a b) 0 e0, 0) else (.fin (v < 0) v.natAbs e0, 0)

/-- The exact product; the second component is the invalid flag. -/
def mulNum : Num → Num → Num × Nat
  | .nan a, .nan b => (.nan false, if a || b then fNV else 0)
  | .nan a, _ => (.nan false, if a then fNV else 0)
  | _, .nan b => (.nan false, if b then fNV else 0)
  | .inf a, .inf b => (.inf (a != b), 0)
  | .inf a, .fin b n _ => if n = 0 then (.nan false, fNV) else (.inf (a != b), 0)
  | .fin a m _, .inf b => if m = 0 then (.nan false, fNV) else (.inf (a != b), 0)
  | .fin a m e, .fin b n f => (.fin (a != b) (m * n) (e + f), 0)

/-- Bits that keep any binary format's rounding of a quotient or a root exact: the extra low bit is the sticky bit. -/
def guardBits : Nat := 130

def fadd (F : FFmt) (rm a b : Nat) : Nat × Nat :=
  let (v, f) := addNum rm (F.decode a) (F.decode b)
  let (r, g) := F.deliver rm v
  (r, f ||| g)

def fsub (F : FFmt) (rm a b : Nat) : Nat × Nat :=
  let (v, f) := addNum rm (F.decode a) (F.decode b).neg
  let (r, g) := F.deliver rm v
  (r, f ||| g)

def fmul (F : FFmt) (rm a b : Nat) : Nat × Nat :=
  let (v, f) := mulNum (F.decode a) (F.decode b)
  let (r, g) := F.deliver rm v
  (r, f ||| g)

/-- a × b + c with one rounding; 0 × ∞ is invalid even with a quiet NaN addend (R145). -/
def ffma (F : FFmt) (rm a b c : Nat) : Nat × Nat :=
  let (p, f) := mulNum (F.decode a) (F.decode b)
  let (v, g) := addNum rm p (F.decode c)
  let (r, h) := F.deliver rm v
  (r, f ||| g ||| h)

def fdiv (F : FFmt) (rm a b : Nat) : Nat × Nat :=
  match F.decode a, F.decode b with
  | .nan x, .nan y => (F.qnan, if x || y then fNV else 0)
  | .nan x, _ => (F.qnan, if x then fNV else 0)
  | _, .nan y => (F.qnan, if y then fNV else 0)
  | .inf _, .inf _ => (F.qnan, fNV)
  | .inf s, .fin t _ _ => (F.inf (s != t), 0)
  | .fin s _ _, .inf t => (F.zero (s != t), 0)
  | .fin s m e, .fin t n f =>
    if n = 0 then (if m = 0 then (F.qnan, fNV) else (F.inf (s != t), fDZ))
    else if m = 0 then (F.zero (s != t), 0)
    else
      let num := m * 2 ^ guardBits
      F.round rm (s != t) (num / n * 2 + (if num % n = 0 then 0 else 1)) (e - f - guardBits - 1)

/-- The integer square root, found bit by bit from bit k − 1 down. -/
def isqrtGo (n : Nat) : Nat → Nat → Nat
  | 0, r => r
  | k + 1, r => isqrtGo n k (if (r + 2 ^ k) * (r + 2 ^ k) ≤ n then r + 2 ^ k else r)
def isqrt (n : Nat) : Nat := isqrtGo n (Nat.log2 n / 2 + 1) 0

def fsqrt (F : FFmt) (rm a : Nat) : Nat × Nat :=
  match F.decode a with
  | .nan x => (F.qnan, if x then fNV else 0)
  | .inf s => if s then (F.qnan, fNV) else (F.inf false, 0)
  | .fin s m e =>
    if m = 0 then (F.zero s, 0)
    else if s then (F.qnan, fNV)
    else
      let (m, e) := if e % 2 = 0 then (m, e) else (m * 2, e - 1)
      let n := m * 2 ^ (2 * guardBits)
      let r := isqrt n
      F.round rm false (r * 2 + (if r * r = n then 0 else 1)) (e / 2 - guardBits - 1)

/-- Exact comparison of two values that are no NaN: −1, 0 or 1; the zeros compare equal. -/
def cmpNum : Num → Num → Int
  | .inf a, .inf b => if a == b then 0 else if a then -1 else 1
  | .inf a, _ => if a then -1 else 1
  | _, .inf b => if b then 1 else -1
  | .fin a m e, .fin b n f =>
    let e0 := min e f
    let d := atExp a m e e0 - atExp b n f e0
    if d < 0 then -1 else if d = 0 then 0 else 1
  | _, _ => 0

/-- Minimum or maximum (R146): −0 below +0, a quiet NaN ignored, a signalling NaN invalid and then quiet. -/
def fminmax (F : FFmt) (wantMax : Bool) (a b : Nat) : Nat × Nat :=
  let x := F.decode a
  let y := F.decode b
  let fl := if x.isSig || y.isSig then fNV else 0
  match x.isNan, y.isNan with
  | true, true => (F.qnan, fl)
  | true, false => (b % 2 ^ F.width, fl)
  | false, true => (a % 2 ^ F.width, fl)
  | false, false =>
    let c := cmpNum x y
    let aLess := c < 0 || (c == 0 && x.sign && !y.sign)
    ((if aLess != wantMax then a else b) % 2 ^ F.width, fl)

def fneg (F : FFmt) (a : Nat) : Nat := (a % 2 ^ F.width) ^^^ F.signBit true
def fabs (F : FFmt) (a : Nat) : Nat := a % 2 ^ (F.width - 1)
def fsgnj (F : FFmt) (a b : Nat) : Nat := a % 2 ^ (F.width - 1) + F.signBit (bitsOf b (F.width - 1) 1 == 1)

/-- Equality: a signalling NaN is invalid (R145). -/
def fcmpeq (F : FFmt) (a b : Nat) : Bool × Nat :=
  let x := F.decode a
  let y := F.decode b
  (!x.isNan && !y.isNan && cmpNum x y == 0, if x.isSig || y.isSig then fNV else 0)

/-- Less, or less or equal: any NaN is invalid (R145). -/
def fcmplt (F : FFmt) (orEq : Bool) (a b : Nat) : Bool × Nat :=
  let x := F.decode a
  let y := F.decode b
  if x.isNan || y.isNan then (false, fNV)
  else
    let c := cmpNum x y
    (c < 0 || (orEq && c == 0), 0)

/-- The class mask of R146. -/
def fclass (F : FFmt) (a : Nat) : Nat :=
  match F.decode a with
  | .nan true => 256
  | .nan false => 512
  | .inf s => if s then 1 else 128
  | .fin s m _ =>
    if m = 0 then (if s then 8 else 16)
    else if m < 2 ^ F.f then (if s then 4 else 32)
    else if s then 2 else 64

/-- A conversion between floating formats (R65). -/
def fcvtff (F G : FFmt) (rm a : Nat) : Nat × Nat := G.deliver rm (F.decode a)

/-- A conversion of an integer into a floating format (R65). -/
def fcvtif (G : FFmt) (rm : Nat) (v : Int) : Nat × Nat := G.round rm (v < 0) v.natAbs 0

/-- A conversion of a value into an integer range (R64): the range check is made on the rounded value. -/
def numToInt (rm : Nat) (lo hi : Int) : Num → Int × Nat
  | .nan _ => (0, fNV)
  | .inf s => (if s then lo else hi, fNV)
  | .fin s m e =>
    let (k, nx) := roundShift rm s m (-e)
    let v : Int := if s then -(k : Int) else k
    if v < lo then (lo, fNV) else if hi < v then (hi, fNV) else (v, if nx then fNX else 0)

/-- The range of a signed or unsigned format of a width (R52). -/
def intLo (sgn : Bool) (w : Nat) : Int := if sgn then -((2 ^ (w - 1) : Nat) : Int) else 0
def intHi (sgn : Bool) (w : Nat) : Int := if sgn then ((2 ^ (w - 1) : Nat) : Int) - 1 else ((2 ^ w : Nat) : Int) - 1
/-- The value of bits in an integer format. -/
def intOf (sgn : Bool) (w n : Nat) : Int := if sgn then signed w n else ((n % 2 ^ w : Nat) : Int)
/-- Bits of an integer, modulo 2^w. -/
def wrap (w : Nat) (v : Int) : Nat := (v % ((2 ^ w : Nat) : Int)).toNat
/-- Saturation to a format (R65). -/
def saturate (sgn : Bool) (w : Nat) (v : Int) : Int := max (intLo sgn w) (min (intHi sgn w) v)

/-! ### Flags of the task (R57, R58, R287) -/

/-- Puts flags into TSW.FPFLG; when any is raised, the control label rises by the label of the result. -/
def Task.orFlags (t : Task) (fl : Nat) (label : Label) : Task :=
  if fl = 0 then t
  else { t with tsw := t.tsw ||| BitVec.ofNat 64 (fl % 32), clabel := t.clabel ||| label }

/-- Whether a raised flag is enabled (R58). -/
def Task.fpTraps (t : Task) (fl : Nat) : Bool := tswFpen t.tsw &&& fl != 0

end Sys2Proof.Machine
end

