-- ==== Sys2Proof/Machine/Ports.lean ====
section
/-! DEFINITION. The maintenance ports of the die controllers (R298) and the boot journal that Q7 leads to (R427). -/

namespace Sys2Proof.Machine

/-! ### The journal (R427) -/

/-- One step of CRC-32 (IEEE 802.3, reflected) over the bits of a byte. -/
def crcBits : Nat → Nat → Nat
  | 0, c => c
  | n + 1, c => crcBits n (if c % 2 = 1 then (c / 2) ^^^ 0xEDB88320 else c / 2)
/-- CRC-32 of bytes. -/
def crc32 (l : List Byte) : Nat := (l.foldl (fun c b => crcBits 8 (c ^^^ b.toNat)) 0xFFFFFFFF) ^^^ 0xFFFFFFFF

def jType (r : BitVec 256) : Nat := bitsOf r.toNat 0 8
def jStep (r : BitVec 256) : Nat := bitsOf r.toNat 8 8
def jUnit (r : BitVec 256) : Nat := bitsOf r.toNat 16 16
def jDetail (r : BitVec 256) : Nat := bitsOf r.toNat 32 32
def jBoot (r : BitVec 256) : Nat := bitsOf r.toNat 64 64
def jArg (r : BitVec 256) : Nat := bitsOf r.toNat 128 96
/-- Whether CHECK is the CRC of bytes 27:0. -/
def jOk (r : BitVec 256) : Bool := bitsOf r.toNat 224 32 == crc32 (toBytes 28 r.toNat)

/-- A journal record with its CHECK. -/
def jRecord (type step unit detail boot arg : Nat) : BitVec 256 :=
  let n := type % 256 + step % 256 * 2 ^ 8 + unit % 65536 * 2 ^ 16 + detail % 2 ^ 32 * 2 ^ 32 + boot % 2 ^ 64 * 2 ^ 64 +
    arg % 2 ^ 96 * 2 ^ 128
  BitVec.ofNat 256 (n + crc32 (toBytes 28 n) * 2 ^ 224)

/-- Appends a record. -/
def Device.journalAdd (d : Device) (r : BitVec 256) : Device :=
  { d with boot := { d.boot with journal := d.boot.journal ++ [r] } }

/-! ### The ports (R298) -/

/-- The port of a die controller. -/
def Device.qport (d : Device) (die : BitVec 2) (p : BitVec 3) : QPort :=
  (d.qports.find? (fun q => q.die == die && q.port == p)).getD { die, port := p, inward := [], outward := [] }
def Device.setQport (d : Device) (q : QPort) : Device :=
  { d with qports := q :: d.qports.filter (fun k => !(k.die == q.die && k.port == q.port)) }

/-- The far end of a port between die controllers: port Qp of die x leads to die p, where it is port Qx. -/
def Device.qforward (d : Device) (die : BitVec 2) (p : BitVec 3) : Nat → Device
  | 0 => d
  | n + 1 =>
    let q := d.qport die p
    match q.outward with
    | [] => d
    | v :: r =>
      let far := d.qport (BitVec.ofNat 2 p.toNat) (BitVec.ofNat 3 die.toNat)
      if far.inward.length < 16 then
        let d := d.setQport { q with outward := r }
        let far := d.qport (BitVec.ofNat 2 p.toNat) (BitVec.ofNat 3 die.toNat)
        (d.setQport { far with inward := far.inward ++ [v] }).qforward die p n
      else d

/-- The boot journal takes a SKIP or ALT record of four doublewords from Q7. -/
def Device.qjournal (d : Device) (die : BitVec 2) : Device :=
  let q := d.qport die 7
  if q.outward.length < 4 then d
  else
    let r := BitVec.ofNat 256 (ofBytes ((q.outward.take 4).flatMap (fun w => toBytes 8 w.toNat)))
    let d := d.setQport { q with outward := q.outward.drop 4 }
    if jOk r && (jType r == 3 || jType r == 4) then d.journalAdd r else d

/-- What the device itself does with the outgoing side of a port: Q0 to Q3 deliver to the other die controllers, Q7 to
the journal; Q4 to Q6 wait for their far ends. -/
def Device.qsettle (d : Device) (die : BitVec 2) (p : BitVec 3) : Device :=
  if p.toNat < 4 then d.qforward die p 16 else if p = 7 then d.qjournal die else d

/-- Pushes a doubleword. -/
def Device.qpush (d : Device) (die : BitVec 2) (p : BitVec 3) (v : Word) : Device :=
  let q := d.qport die p
  (d.setQport { q with outward := q.outward ++ [v] }).qsettle die p
/-- Whether the outgoing side is full. -/
def Device.qfull (d : Device) (die : BitVec 2) (p : BitVec 3) : Bool := decide (16 ≤ (d.qport die p).outward.length)
/-- Pops the oldest incoming doubleword; room at the port lets its far end deliver. -/
def Device.qpop (d : Device) (die : BitVec 2) (p : BitVec 3) : Option (Word × Device) :=
  let q := d.qport die p
  match q.inward with
  | [] => none
  | v :: r =>
    let d := d.setQport { q with inward := r }
    some (v, if p.toNat < 4 then d.qforward (BitVec.ofNat 2 p.toNat) (BitVec.ofNat 3 die.toNat) 16 else d)

end Sys2Proof.Machine
end

