-- ==== Sys2Proof/Machine/Packets.lean ====
section
/-! DEFINITION. Packets and links (R379 to R385, R391, R395): headers, the sequence numbers and paths of requests, the
sealing of groups, and the request that an operation on a peer makes. -/

namespace Sys2Proof.Machine

/-! ### Spawn records (R172, R173) -/

/-- PCW of a record. -/
def SpawnRec.pcw (r : SpawnRec) : Nat :=
  r.rkind.toNat * 2 ^ 62 + r.tags.toNat * 2 ^ 59 + r.prio.toNat * 2 ^ 56 + bitsOf r.entry.toNat 2 55

/-- The 64 bytes of a record, as a number. -/
def SpawnRec.bits (r : SpawnRec) : Nat :=
  r.clabel.toNat + r.tid.toNat * 2 ^ 16 + r.pcw * 2 ^ 64 + r.arg1.toNat * 2 ^ 128 + r.arg2.toNat * 2 ^ 256 +
    r.join.toNat * 2 ^ 384

/-- A record from its 64 bytes. -/
def spawnOf (n launch : Nat) : SpawnRec :=
  { join := BitVec.ofNat 128 (bitsOf n 384 128), arg2 := BitVec.ofNat 128 (bitsOf n 256 128),
    arg1 := BitVec.ofNat 128 (bitsOf n 128 128), rkind := BitVec.ofNat 2 (bitsOf n 126 2),
    tags := BitVec.ofNat 3 (bitsOf n 123 3), prio := BitVec.ofNat 3 (bitsOf n 120 3),
    entry := BitVec.ofNat 64 (bitsOf n 64 55 * 4), tid := BitVec.ofNat 48 (bitsOf n 16 48),
    clabel := BitVec.ofNat 16 (bitsOf n 0 16), launch }

/-! ### Headers (R384) -/

/-- The 32 bytes of a header, as a number. -/
def Header.bits (h : Header) : Nat :=
  h.opc.toNat + h.fn.toNat * 2 ^ 24 + h.size.toNat * 2 ^ 32 + h.ord.toNat * 2 ^ 40 + h.flags.toNat * 2 ^ 48 +
  h.status.toNat * 2 ^ 56 + h.len.toNat * 2 ^ 64 + h.dst.toNat * 2 ^ 80 + h.src.toNat * 2 ^ 104 + h.rack.toNat * 2 ^ 128 +
  h.seq.toNat * 2 ^ 144 + h.job.toNat * 2 ^ 160 + h.label.toNat * 2 ^ 176 + h.addr.toNat * 2 ^ 192

/-- The header that 32 bytes hold. -/
def headerOf (n : Nat) : Header :=
  { opc := BitVec.ofNat 24 (bitsOf n 0 24), fn := BitVec.ofNat 8 (bitsOf n 24 8), size := BitVec.ofNat 8 (bitsOf n 32 8),
    ord := BitVec.ofNat 8 (bitsOf n 40 8), flags := BitVec.ofNat 8 (bitsOf n 48 8), status := BitVec.ofNat 8 (bitsOf n 56 8),
    len := BitVec.ofNat 16 (bitsOf n 64 16), dst := BitVec.ofNat 24 (bitsOf n 80 24), src := BitVec.ofNat 24 (bitsOf n 104 24),
    rack := BitVec.ofNat 16 (bitsOf n 128 16), seq := BitVec.ofNat 16 (bitsOf n 144 16), job := BitVec.ofNat 16 (bitsOf n 160 16),
    label := BitVec.ofNat 16 (bitsOf n 176 16), addr := BitVec.ofNat 64 (bitsOf n 192 64) }

/-- The bytes of a packet. -/
def Packet.bytes (p : Packet) : List Byte := toBytes 32 p.hdr.bits ++ p.data

/-- Whether a packet is a reply: its opcode has 0x80 added (R385). -/
def Header.isReply (h : Header) : Bool := bitsOf h.opc.toNat 7 1 == 1

/-- The endpoint ID of a gateway of a die, and of the die controller of a die (R379). -/
def gatewayOf (dev : BitVec 12) (die index : Nat) : Endpoint := BitVec.ofNat 24 (dev.toNat * 4096 + die * 1024 + index * 4 + 1)
def controllerOf (dev : BitVec 12) (die : Nat) : Endpoint := BitVec.ofNat 24 (dev.toNat * 4096 + die * 1024 + 2)

/-- Whether the INDEX of an endpoint ID is in range for its KIND. -/
def Endpoint.valid (e : Endpoint) : Bool :=
  let index := bitsOf e.toNat 2 8
  match Endpoint.kind e with
  | 0 => true
  | 1 => decide (index < 8)
  | 2 => index == 0
  | _ => index == 0 && bitsOf e.toNat 10 2 == 0

/-! ### Sealing (R381, R382) -/

/-- Beats of 64 bytes that a packet takes. -/
def Packet.beats (p : Packet) : Nat := (32 + p.data.length + 63) / 64

/-- The virtual channel of a packet. -/
def Packet.channel (p : Packet) : Nat := if p.hdr.isReply then 1 else 0

/-- A packet's bytes as they join the stream, the first one marked. -/
def Packet.marked (p : Packet) : List (Bool × Byte) :=
  match p.bytes with
  | [] => []
  | b :: r => (true, b) :: r.map (fun x => (false, x))

/-- Where the first packet header that starts in a flit's payload lies; 0x7F for none. -/
def pstart : Nat → List (Bool × Byte) → Nat
  | _, [] => 0x7F
  | i, (m, _) :: r => if m then i else pstart (i + 1) r

/-- The place of flit i's payload in a group's: three of 120 bytes and one of 104. -/
def flitPayload (l : List (Bool × Byte)) (i : Nat) : List (Bool × Byte) := (l.drop (120 * i)).take (if i = 3 then 104 else 120)

/-- The last flit received with a good group. -/
def Link.acked (l : Link) : Nat := if l.recvSeq = 0 ∧ l.stream = [] ∧ l.recvCount[0] = 0 ∧ l.recvCount[1] = 0 then 0 else (l.recvSeq - 1).toNat

/-- A bank by its KGEN. -/
def bankIndex (gen : Bool) : Nat := if gen then 1 else 0

/-- The credits that flit i of the next group returns: two flits for each channel. -/
def Link.cred (l : Link) (i : Nat) : Nat := min 63 ((l.owed[i / 2]?.getD 0) - 63 * (i % 2))

/-- The header of flit i of the next group. -/
def Link.flitHeader (l : Link) (part : List (Bool × Byte)) (i : Nat) : Nat :=
  pstart 0 part + i / 2 * 2 ^ 7 + l.cred i * 2 ^ 8 + l.acked * 2 ^ 14 + (l.sendSeq + BitVec.ofNat 24 i).toNat * 2 ^ 38 +
  (if l.nak then 2 ^ 62 else 0) + (if l.sendGen then 2 ^ 63 else 0)

/-- The initialisation vector: the salt, then the counter. -/
def groupIv (salt : BitVec 32) (count : Word) : BitVec 96 := BitVec.ofNat 96 (salt.toNat + count.toNat * 2 ^ 32)

/-- Seals the next group of the stream under the bank in use, unless 256 groups await their acknowledgement. What no packet
fills of a group is zero. -/
def Link.sealGroup (l : Link) : Link :=
  let b := bankIndex l.sendGen
  match l.sendKeys[b]?.getD none with
  | none => l
  | some (key, salt) =>
    if !l.up || decide (256 ≤ l.kept.length) then l
    else
      let part := l.tx.take 464
      let part := part ++ List.replicate (464 - part.length) (false, 0#8)
      let hs := (rangeFrom 0 4).map (fun i => l.flitHeader (flitPayload part i) i)
      let aad := BitVec.ofNat 256 (hs.foldr (fun h acc => h + acc * 2 ^ 64) 0)
      let count := l.sendCount[b]?.getD 0
      let sealed := Config.gcmSeal key (groupIv salt count) aad (part.map (·.2))
      { l with
        tx := l.tx.drop 464, kept := l.kept ++ [(l.sendSeq, l.sendGen, toBytes 32 aad.toNat ++ sealed)], sendSeq := l.sendSeq + 4,
        nak := false, owed := l.owed.map (fun n => n - min n 126), sendCount := l.sendCount.setIfInBounds b (count + 1) }

/-- Seals groups until nothing is left to send. -/
def Link.seal (l : Link) : Nat → Link
  | 0 => l
  | n + 1 => if l.tx.isEmpty then l else l.sealGroup.seal n

/-- The first packet of a channel that waits at a port. -/
def firstOut (port : BitVec 5) (ch : Nat) (l : List FabricOut) : Option FabricOut :=
  l.find? (fun o => o.port == port && o.packet.channel == ch)

/-- Moves a waiting packet of a channel to the link when its beats have credits. -/
def Fabric.pass (f : Fabric) (port : BitVec 5) (ch : Nat) : Option Fabric :=
  match firstOut port ch f.out, f.links[port.toNat]? with
  | some o, some l =>
    let have_ := l.credits[ch]?.getD 0
    if !l.up || decide (have_ < o.packet.beats) then none
    else
      let l' := { l with tx := l.tx ++ o.packet.marked, credits := l.credits.setIfInBounds ch (have_ - o.packet.beats) }
      some { f with out := f.out.erase o, links := f.links.setIfInBounds port.toNat l' }
  | _, _ => none

/-- Moves what may be sent at a port: replies first, since a reply never waits for a request; then seals the groups. -/
def Fabric.pump (f : Fabric) (port : BitVec 5) : Nat → Fabric
  | 0 => f
  | n + 1 => match f.pass port 1 with
    | some f => f.pump port n
    | none => match f.pass port 0 with
      | some f => f.pump port n
      | none => { f with links := vmod f.links port.toNat (fun (x : Link) => x.seal (x.tx.length / 464 + 1)) }

/-- A packet leaves through a port. -/
def Fabric.put (f : Fabric) (port : BitVec 5) (p : Packet) : Fabric :=
  let f : Fabric := { f with out := f.out ++ [{ port, packet := p }] }
  f.pump port (f.out.length + 1)

/-! ### Replies (R385, R392) -/

/-- The header of a reply: source and destination changed, 0x80 added to the opcode. -/
def Header.reply (h : Header) (status : BitVec 8) (poison : Bool) (label : Label) (data : List Byte) : Header :=
  { h with
    opc := BitVec.ofNat 24 (bitsOf h.opc.toNat 0 8 ||| 0x80), dst := h.src, src := h.dst, status, label, addr := 0, rack := 0,
    flags := if poison then 1 else 0, len := BitVec.ofNat 16 data.length }

/-- Sends a reply and keeps it for its source. -/
def Fabric.answer (f : Fabric) (port : BitVec 5) (p : Packet) : Fabric :=
  let keep (c : CachedReply) : CachedReply := if c.seq = p.hdr.seq then { c with reply := some p } else c
  let sources := f.sources.map (fun (x : Source) => if x.src = p.hdr.dst then { x with cache := x.cache.map keep } else x)
  Fabric.put { f with sources } port p

/-- The reply to a fabric request that has been executed. -/
def Fabric.replied (f : Fabric) (op : Nat) (status : BitVec 8) (poison : Bool) (label : Label) (data : List Byte) : Fabric :=
  match f.pending.find? (fun p => p.1 == op) with
  | none => f
  | some (_, r) =>
    Fabric.answer { f with pending := f.pending.filter (fun p => p.1 != op) } r.port
      { hdr := r.packet.hdr.reply status poison label data, data }

def State.replied (s : State) (op : Nat) (status : BitVec 8) (label : Label) (data : List Byte) : State :=
  { s with d := { s.d with fabric := s.d.fabric.replied op status false label data } }

/-! ### Requests (R385, R391) -/

/-- The ports through which a device is reached, low bit first: those of its route entry that belong to dies of the core's
partition (R391). -/
def Device.portsTo (d : Device) (core : CoreId) (dev : BitVec 12) : List Nat :=
  let bits := (d.fabric.routes.lookup dev).getD 0#32
  (rangeFrom 0 32).filter (fun q => bits.getLsbD q && d.partOf (BitVec.ofNat 2 (q / 8)) == d.partOf (CoreId.die core))

/-- The port that a core's request to a device leaves through: set bit h mod k (R391). -/
def Device.pathTo (d : Device) (core : CoreId) (dev : BitVec 12) : Option (BitVec 5) :=
  let l := d.portsTo core dev
  (l[core.toNat % 256 % l.length]?).map (BitVec.ofNat 5)

/-- The next SEQ of a core towards a device; 0 is skipped (R391). -/
def Fabric.nextSeq (f : Fabric) (core : CoreId) (dev : BitVec 12) : BitVec 16 :=
  match f.seqs.find? (fun p => p.1 == core && p.2.1 == dev) with
  | some (_, _, q) => if q = 0xFFFF then 1 else q + 1
  | none => 1

/-- Takes the next SEQ of the core in focus towards a device. -/
def State.takeSeq (s : State) (dev : BitVec 12) : BitVec 16 × State :=
  let q := s.d.fabric.nextSeq s.c.id dev
  let l := (s.c.id, dev, q) :: s.d.fabric.seqs.filter (fun p => !(p.1 == s.c.id && p.2.1 == dev))
  (q, { s with d := { s.d with fabric := { s.d.fabric with seqs := l } } })

/-- Whether an operation is a request of a core to a device whose reply is still to come. -/
def PendOp.openTo (o : PendOp) (core : Endpoint) (dev : BitVec 12) : Bool :=
  o.peer && o.dev == dev && o.stage == .sent && o.packet.any (fun p => p.hdr.src == core)

/-- RACK of a core towards a device: the SEQ before the oldest request whose reply is still to come, or the last one. The requests of
saved tasks count, because they are sent again (R344), and so do those of a task restored on another core (R345). -/
def State.rackOf (s : State) (core : CoreId) (dev : BitVec 12) : BitVec 16 :=
  let here := endpointOf s.d.fabric.device core
  let open_ (o : PendOp) : Bool := o.openTo here dev
  let mine := (s.allCores.flatMap (fun c => c.tasks.flatMap (fun p => (p.2.ops.filter open_).map (·.seq)))) ++
    (s.d.saved.flatMap (fun v => ((v.task.replay.map (·.op)).filter open_).map (·.seq))) ++
    ((s.d.orphans.filter (fun p => open_ p.2.2)).map (fun p => p.2.2.seq)) ++
    ((s.d.peerLines.filter (fun p => p.core == core && p.dev == dev && p.got.isNone)).map (·.seq))
  let last := s.d.fabric.nextSeq core dev - 1
  -- the oldest is the one that lies farthest behind the last
  let oldest := mine.foldl (fun best q => if (last - best).toNat < (last - q).toNat then q else best) (last + 1)
  if mine.isEmpty then last else oldest - 1

/-- RACK of the core in focus. -/
def State.rack (s : State) (dev : BitVec 12) : BitVec 16 := s.rackOf s.c.id dev

/-- The pod job of a local job (R386): that of its job table entry. -/
def Device.podJob (d : Device) (p : BitVec 2) (job : BitVec 16) : BitVec 16 :=
  ((d.fabric.jobs.find? (fun e => e.2.valid && e.2.job == job && e.2.part == p)).map (fun e => e.2.pod)).getD 0

/-- The local job that a pod job names (R386). -/
def Fabric.localJob (f : Fabric) (pod : BitVec 16) : BitVec 16 :=
  ((f.jobs.find? (fun e => e.2.valid && e.2.pod == pod)).map (fun e => e.2.job)).getD 0

/-- What a request says beside its numbers: opcode, destination, FN, SIZE, ORD, label, address, data. -/
structure Ask where
  opc : Nat
  dst : Endpoint
  fn : Nat
  size : Nat
  ord : Nat
  label : Label
  addr : Nat
  data : List Byte
  bad : Bool := false
  deriving DecidableEq, Repr

/-- The request packet of the core in focus for a job, at a SEQ. -/
def State.request (s : State) (dev : BitVec 12) (job : BitVec 16) (q : Ask) (seq : BitVec 16) : Packet :=
  { hdr := {
      opc := BitVec.ofNat 24 q.opc, fn := BitVec.ofNat 8 q.fn, size := BitVec.ofNat 8 q.size, ord := BitVec.ofNat 8 q.ord,
      flags := if q.bad then 1 else 0, status := 0, len := BitVec.ofNat 16 q.data.length, dst := q.dst, src := endpointOf s.d.fabric.device s.c.id,
      rack := s.rack dev, seq, job := s.d.podJob s.part job, label := q.label, addr := BitVec.ofNat 64 q.addr },
    data := q.data }

/-- Bytes made up to a multiple of 8 (R384). -/
def pad8 (l : List Byte) : List Byte := l ++ List.replicate ((8 - l.length % 8) % 8) 0#8

/-- The size code of an atomic of n bytes (R99). -/
def sizeOfBytes (n : Nat) : Nat := if n = 1 then 0 else if n = 2 then 1 else if n = 4 then 2 else if n = 8 then 3 else if n = 16 then 4 else 0

/-- The request of an access (R385): its opcode, FN, SIZE and data. A load asks for its whole line, which the read cache keeps (R72,
R78; log entry 33). -/
def Access.ask (dev : BitVec 12) (a : Access) : Ask :=
  let v := a.data.toNat
  let line := match a.kind with | .ld _ | .vld _ _ => true | _ => false
  let (opc, fn, size, data) : Nat × Nat × Nat × List Byte := match a.kind with
    | .ld _ => (1, 0, 0, [])
    | .vld _ _ => (1, 0, 0, [])
    | .poll _ => (1, 0, sizeOfBytes a.n, [])
    | .st z => (2, 0, z.code, pad8 (toBytes a.n v))
    | .vst _ => (2, 0, 0, toBytes 64 v ++ toBytes 8 a.cmp.toNat)
    | .atom op _ => (3, op.toNat + (if a.n = 8 then 8 else 0), sizeOfBytes a.n, toBytes 8 v ++ toBytes 8 a.cmp.toNat)
    | .fatom op _ => (4, op.toNat + (if a.n = 8 then 8 else 0), sizeOfBytes a.n, toBytes 8 v)
  { opc, dst := gatewayOf dev 0 0, fn, size, ord := a.scope.code + a.order.code * 16, label := a.vl, addr := if line then a.va / 64 * 64 else a.va, data,
    bad := a.bad }

/-- A request to an endpoint. -/
def askEndpoint (opc : Nat) (dst : Endpoint) (label : Label) (data : List Byte) : Ask :=
  { opc, dst, fn := 0, size := 0, ord := 0, label, addr := 0, data := pad8 data }

/-- Sends a request again: with FLAGS[1] set and its original SRC and SEQ, on the path that R391 gives now; without a path nothing
leaves (R344, R393). -/
def State.resend (s : State) (q : Packet) : State :=
  let dev := Endpoint.dev q.hdr.dst
  let core := Endpoint.core q.hdr.src
  match s.d.pathTo core dev with
  | none => s
  | some port =>
    let q := { q with hdr := { q.hdr with flags := q.hdr.flags ||| 2, rack := s.rackOf core dev } }
    { s with d := { s.d with fabric := s.d.fabric.put port q } }

/-- An operation of the core in focus made a request to a peer: it is numbered and its packet leaves; without a path it has
failed at once (R391). -/
def State.toPeer (s : State) (dev : BitVec 12) (job : BitVec 16) (o : PendOp) (q : Ask) : PendOp × State :=
  match s.d.pathTo s.c.id dev with
  | none => ({ o with peer := true, dev, stage := .failed 0x11 0 }, s)
  | some port =>
    let (seq, s) := s.takeSeq dev
    let p := s.request dev job q seq
    ({ o with peer := true, dev, seq, packet := some p }, { s with d := { s.d with fabric := s.d.fabric.put port p } })

/-- An operation that is an access to a peer's memory. -/
def State.peerAccess (s : State) (dev : BitVec 12) (job : BitVec 16) (o : PendOp) : PendOp × State :=
  match o.kind with
  | .access a => s.toPeer dev job o (a.ask dev)
  | _ => (o, s)

end Sys2Proof.Machine
end

