-- ==== Sys2Proof/Machine/Lifecycle.lean ====
section
/-! DEFINITION. What the end of a task gives up (R163, R177, R187, R212), the withdrawal of a launch (R334) and the core
dump (R359). -/

namespace Sys2Proof.Machine

/-! ### Barrier objects (R162, R163) -/

/-- A barrier object of a cluster; an object that nothing has assigned is at its reset value. -/
def Device.barrier (d : Device) (cluster obj : BitVec 6) : BarObj :=
  (d.barriers.find? (fun b => b.cluster == cluster && b.obj == obj)).getD
    { cluster, obj, owner := 0, members := 0, arrived := 0, phase := 0, plabel := 0, labels := [] }

def Device.setBarrier (d : Device) (b : BarObj) : Device :=
  { d with barriers := b :: d.barriers.filter (fun k => !(k.cluster == b.cluster && k.obj == b.obj)) }

/-- Completes the phase when every member has arrived: ARRIVED and PLABEL clear and PHASE rises, in one step. A barrier
with no members never completes. The label of the phase is kept for the waits that complete on it. -/
def BarObj.settle (b : BarObj) : BarObj :=
  if b.members ≠ 0 ∧ b.arrived = b.members then
    { b with arrived := 0, plabel := 0, phase := b.phase + 1, labels := (b.phase, b.plabel) :: b.labels }
  else b

def slotBit (i : BitVec 6) : BitVec 64 := BitVec.ofNat 64 (2 ^ i.toNat)

/-- A member leaves: its bits clear, and the phase completes if every remaining member has arrived. -/
def BarObj.leave (b : BarObj) (i : BitVec 6) : BarObj :=
  ({ b with members := b.members &&& ~~~slotBit i, arrived := b.arrived &&& ~~~slotBit i }).settle

/-- Takes a task out of the barrier it is a member of. -/
def Device.leaveBarrier (d : Device) (cluster : BitVec 6) (t : Task) : Device :=
  match t.member with
  | some (obj, i) => d.setBarrier ((d.barrier cluster obj).leave i)
  | none => d

/-! ### The entries of a slice (R201) -/

/-- The 32 bytes of an ember, with STATE zero (R201). -/
def Ember.bits (e : Ember) : Nat :=
  e.key.toNat + e.value.toNat * 2 ^ 64 + e.mag.toNat * 2 ^ 128 + e.label.toNat * 2 ^ 192

/-- Where the ember area of a slice begins in the shared window (R196). -/
def Slice.area (sl : Slice) : Nat := 0x40000000 + sl.core.toNat * 0x100000 + sl.decl.sloff

def Slice.leased (sl : Slice) (key : Word) : Bool := sl.leases.any (fun p => p.1 == key)

/-- The entries of a slice's embers with their STATE, then free entries up to a number. R201 does not say in which entry an ember
lies: DESIGN CHOICE (log entry 10), in the order of the list. -/
def Slice.entries (sl : Slice) (n : Nat) : List Byte :=
  sl.embers.flatMap (fun e => toBytes 32 (e.bits + (if sl.leased e.key then 2 else 1) * 2 ^ 208)) ++
  List.replicate (32 * (n - sl.embers.length)) 0#8

/-- The embers that the bytes of an ember area hold: the entries whose STATE is not 0. -/
def emberOf (l : List Byte) : Option Ember :=
  if bytesAt l 26 1 = 0 then none
  else some { key := BitVec.ofNat 64 (bytesAt l 0 8), value := BitVec.ofNat 64 (bytesAt l 8 8), mag := BitVec.ofNat 64 (bytesAt l 16 8),
              label := BitVec.ofNat 16 (bytesAt l 24 2) }

/-- Changes every slice, each with the bytes of its entries (R201). -/
def Device.setSlices (d : Device) (f : Slice → Slice) : Device :=
  let put (b : Bank) (sl : Slice) : Bank :=
    let k := f sl
    if k.embers = sl.embers ∧ k.leases = sl.leases then b else b.putBytes sl.area (k.entries sl.embers.length)
  { d with slices := d.slices.map f, shared := d.slices.foldl put d.shared }

/-- After a write of bytes of the shared window, the slices whose ember areas it touches hold the entries written: only a privileged
access reaches an area (R197). -/
def Device.rereadSlices (d : Device) (a n : Nat) : Device :=
  { d with slices := d.slices.map (fun (sl : Slice) =>
      if sl.area < a + n ∧ a < sl.area + 32 * sl.decl.cap then
        { sl with embers := (rangeFrom 0 sl.decl.cap).filterMap (fun i => emberOf (d.shared.mem.bytes (sl.area + 32 * i) 32)) }
      else sl) }

/-! ### Leases and handlers (R212) -/

/-- Ends every lease of a task and, for a handler, lowers its slice's running count, in one step. -/
def Device.endLeases (d : Device) (core : CoreId) (t : Task) : Device :=
  d.setSlices (fun sl =>
    let sl := { sl with leases := sl.leases.filter (fun p => p.2 != t.tid) }
    if t.handlerOf == some sl.decl.num && sl.job == t.job && sl.core == core
    then { sl with handlers := sl.handlers - 1 } else sl)

/-! ### Pipes (R187) -/

/-- The kernel whose text range holds a task's entry point (R11, R181). -/
def Device.kernelOf (d : Device) (t : Task) : Option Kernel :=
  match d.launchGraph t.launch with
  | some g => g.kernelAt t.entry.toNat
  | none => none

/-- Whether a kernel declares a pipe, with which role: true for the receiver. -/
def Kernel.pipeRole (k : Kernel) (id : Nat) : Option Bool :=
  k.decls.findSome? (fun x => match x with | .pipe i _ _ r => if i == id then some r else none | _ => none)

/-- A sender that ends closes its pipes; a receiver that ends is marked ended. -/
def Device.endPipes (d : Device) (core : CoreId) (t : Task) : Device :=
  match d.kernelOf t with
  | none => d
  | some k => d.modLaunch t.launch (fun l => { l with pipes := l.pipes.map (fun p =>
      match k.pipeRole p.id with
      | some false => if p.sender == core then { p with closed := true, closeArrived := true } else p
      | some true => if p.receiver == core then { p with recvEnded := true } else p
      | none => p) })

/-- The operations of an ended task that are still on their way to a home. -/
def orphansOf (core : CoreId) (t : Task) : List (CoreId × Tid × PendOp) :=
  (t.ops.filter (fun o => o.stage == .sent)).map (fun o => (core, t.tid, o))

/-- The message of TYPE 2 that a remote command ends with, or is refused with (R240). -/
def MxOp.message (m : MxOp) (dev : BitVec 12) (core : CoreId) (cause : Nat) : Msg :=
  { type := 2, src := endpointOf dev core, cause := BitVec.ofNat 8 cause, label := m.lab, optag := m.pc,
    payload := BitVec.ofNat 128 (m.kd + m.tile.toNat * 2 ^ 16) }

/-- The end of a remote command of a core: the message goes to the core that sent it, or the reply to the device (R239, R240); a
local operation has neither. The reply carries PAYLOAD bytes 19:16, which its device cannot know otherwise (log entry 112). -/
def Device.endCommand (d : Device) (core : CoreId) (cause : Nat) (m : MxOp) : Device :=
  let msg := m.message d.fabric.device core cause
  match m.remote, m.answer with
  | some c, _ => { d with net := d.net ++ [{ src := core, dst := c, kind := .inbox m.owner msg }] }
  | none, some op =>
    { d with fabric := d.fabric.replied op msg.cause false m.lab (toBytes 8 (m.kd + m.tile.toNat * 2 ^ 16)) }
  | none, none => d

/-- The engine operations on the tiles of a task. -/
def Core.commandsOn (c : Core) (t : Task) : List MxOp :=
  c.mx.filter (fun o => (t.anchor.elim 0#8 (·.tiles)).getLsbD o.tile.toNat)

/-- Everything outside its core that a task's end gives up: its barrier, leases and pipes; the remote commands on its tiles, which
end with *target withdrawn*; and its operations on their way, which go on without it. -/
def Device.endTask (d : Device) (c : Core) (t : Task) : Device :=
  let d := ((d.leaveBarrier (CoreId.cluster c.id) t).endLeases c.id t).endPipes c.id t
  let d := (c.commandsOn t).foldl (fun d m => d.endCommand c.id 0x12 m) d
  { d with orphans := d.orphans ++ orphansOf c.id t }

/-- What a task's end removes from its core: engine operations it owns, those on its tiles, its anchor request. -/
def Core.endTask (c : Core) (t : Task) : Core :=
  let mask : BitVec 8 := match t.anchor with | some a => a.tiles | none => 0
  { c with mx := c.mx.filter (fun o => !mask.getLsbD o.tile.toNat), cp := c.cp.filter (fun o => o.owner != t.tid),
           srt := c.srt.filter (fun o => o.owner != t.tid), anchorQ := c.anchorQ.filter (· != t.tid) }

/-- Ends the task at the port and frees its slot (R177 step 3). -/
def State.endTask (s : State) : State :=
  let t := s.t
  let s := s.record 4 t 0#16 t.unitPc 0
  { t := Task.vacant, c := s.c.endTask t, d := s.d.endTask s.c t }

/-! ### Withdrawal of a launch (R334) -/

/-- Marks the deque records of a launch void in their places. -/
def voidRecords (key : Nat) (l : List (Nat × Nat × Bool)) : List (Nat × Nat × Bool) :=
  l.map (fun p => if p.2.1 == key then (p.1, p.2.1, true) else p)

/-- Takes the tasks and records of a launch out of a core. -/
def Core.withdraw (c : Core) (key : Nat) : Core :=
  let gone := (c.tasks.filter (fun p => p.2.launch == key)).map (·.2)
  let c := gone.foldl Core.endTask c
  { c with slots := c.slots.map (fun o => match o with | some t => if t.launch == key then none else some t | none => none),
           upcallQ := c.upcallQ.filter (fun t => t.launch != key), startQ := c.startQ.filter (fun t => t.launch != key),
           staging := c.staging.filter (fun r => r.spawn.launch != key),
           pendFires := c.pendFires.filter (fun r => r.launch != key), dqMeta := voidRecords key c.dqMeta,
           reserved := c.reserved.filter (fun r => r.2 != key), hearth := match c.hearth with
             | some h => if h.task.launch == key then none else some h
             | none => none }

/-- Whether a message carries a record or a task of a launch. -/
def NetMsg.ofLaunch (key : Nat) (m : NetMsg) : Bool :=
  match m.kind with
  | .spawn _ _ r => r.launch == key
  | .fire _ r _ => r.launch == key
  | .fireRefused _ r _ _ => r.launch == key
  | .stealReply (some r) => r.launch == key
  | .context t => t.launch == key
  | .tail _ _ l _ _ => l == key
  | .pipeMsg l _ _ _ => l == key
  | .pipeClose l _ => l == key
  | .pipeCredit l _ => l == key
  | _ => false

/-- Steps 1 to 3 of R334: every task of the launch ends, its records and embers are discarded; its reservations stay until
the drain window has passed. -/
def State.withdraw (s : State) (key : Nat) : State :=
  let gone := s.allCores.flatMap (fun c => (c.tasks.filter (fun p => p.2.launch == key)).map (fun p => (c, p.2)))
  let saved := s.d.saved.filter (fun v => v.task.launch == key)
  let d := gone.foldl (fun d p => d.endTask p.1 p.2) s.d
  let d := saved.foldl (fun d v =>
    Device.endTask d { (Core.reset v.core) with mx := v.mxops } v.task) d
  let d := d.modLaunch key (fun l => { l with state := .withdrawing, data := [] })
  let d := d.setSlices (fun (sl : Slice) => if sl.launch == key then
    { sl with embers := [], ash := [], leases := [], flushing := false } else sl)
  let d : Device := { d with
    saved := d.saved.filter (fun v => v.task.launch != key), net := d.net.filter (fun m => !m.ofLaunch key),
    cores := d.cores.map (fun (c : Core) => c.withdraw key) }
  let d := d.modPart (launchPart key) (fun p => { p with gangs := p.gangs.filter (fun x => x.1 != key) })
  if s.t.status != .vacant && s.t.launch == key then
    { t := Task.vacant, c := (s.c.endTask s.t).withdraw key, d }
  else { s with c := s.c.withdraw key, d }

/-! ### Core dumps (R359) -/

/-- The bytes of a memory that lie in [lo, hi). -/
def Memory.slice (m : Memory) (lo hi : Nat) : Memory := m.filter (fun p => decide (lo ≤ p.1) && decide (p.1 < hi))

/-- Writes a core dump of the core in focus. -/
def State.dump (s : State) (causew : Word) (tid : Tid) : State :=
  let lo := 0x40000000 + s.c.id.toNat * 0x100000
  let dmp : Dump := { causew, cycle := s.d.cycle, tid, core := s.whole, slice := s.d.shared.mem.slice lo (lo + 0x100000) }
  { s with d := { s.d with dumps := s.d.dumps ++ [dmp] } }

/-- A cause that finds a zero vector or reaches machine level (R291 step 5, R355): the task stops, a core dump is written
and its launch is withdrawn. -/
def State.stopAndWithdraw (s : State) (causew : Word) : State :=
  let key := s.t.launch
  let s := s.dump causew s.t.tidReg
  let s := s.withdraw key
  if s.t.status == .vacant then s else s.endTask

end Sys2Proof.Machine
end

