-- ==== Sys2Proof/Machine/Context.lean ====
section
/-! DEFINITION. The context area (R346 to R348): the bytes of a saved context, what a restore reads back from them, and
the saving and restoring of a task. The specification names the contents of the sections of TYPE 6 to 9 and gives no byte
layout of them: the layouts here are log entry 8. -/

namespace Sys2Proof.Machine

/-! ### Writing -/

/-- The packed context of R10, 320 bytes. -/
def packedContext (t : Task) : List Byte :=
  t.g.toList.flatMap (fun v => toBytes 16 v.bits.toNat) ++ t.g.toList.flatMap (fun v => toBytes 2 v.label.toNat) ++
  toBytes 8 t.pc.toNat ++ toBytes 8 t.tsw.toNat ++
  toBytes 2 ((rangeFrom 0 16).foldl (fun n i => if (t.g[i]?.getD Val.zero).tag then n + 2 ^ i else n) 0) ++
  toBytes 2 t.clabel.toNat ++ toBytes 6 t.tidReg.toNat ++ toBytes 6 0

/-- The 16-byte descriptor of a buffer entry (R347). -/
def descriptor (kind number : Nat) (tag : Bool) (ftag : Nat) (label : Label) : List Byte :=
  toBytes 1 kind ++ toBytes 1 0 ++ toBytes 2 number ++ toBytes 1 (if tag then 1 else 0) ++ toBytes 1 ftag ++
  toBytes 2 label.toNat ++ toBytes 8 0

/-- A buffer entry in the area (R347); the place of a result that a replay entry brings has none. -/
def BufEntry.toArea : BufEntry → List Byte
  | .g n v => descriptor 1 n.toNat v.tag 0 v.label ++ toBytes 16 v.bits.toNat
  | .o n e => descriptor 2 n.toNat false e.fmt.code e.label ++ toBytes 256 e.bits.toNat
  | .row t r e => descriptor 3 (t.toNat * 64 + r.toNat) false e.fmt.code e.label ++ toBytes 256 e.bits.toNat
  | .stat n m s k => descriptor 4 n.toNat false m.fmt.code m.label ++ toBytes 256 m.bits.toNat ++
      toBytes 256 s.bits.toNat ++ toBytes 256 k.bits.toNat
  | .wait _ _ => []

/-- A byte list padded to a multiple of 64 bytes. -/
def pad64 (l : List Byte) : List Byte := l ++ List.replicate ((64 - l.length % 64) % 64) 0#8

/-- A section with its header (R347). -/
def areaSection (type : Nat) (body : List Byte) : List Byte :=
  pad64 (toBytes 1 type ++ toBytes 7 0 ++ toBytes 8 body.length ++ body)

/-- Whether an access is a cas. -/
def Access.isCas (a : Access) : Bool :=
  match a.kind with
  | .atom op _ => op == 1
  | _ => false

/-- The specifier code of a result's destination: a register number, or 17 (R344). -/
def destCode : Option Dest → Nat
  | some (.g n) => n.toNat
  | some (.o n) => n.toNat
  | some (.q p) => 24 + p.toNat
  | none => 17

/-- The label of a replay entry: that of its request. -/
def Replay.label (r : Replay) : Label := (r.op.packet.map (·.hdr.label)).getD r.op.clabel

/-- A replay entry (R344). -/
def Replay.toArea (r : Replay) : List Byte :=
  let acc : Nat × Nat := match r.op.kind with
    | .access a => (a.data.toNat % 2 ^ 128, a.va)
    | _ => (0, 0)
  let old : Option Nat := match r.op.stage with
    | .executed x => some (x.data.toNat % 2 ^ 128)
    | _ => none
  toBytes 6 0 ++ toBytes 1 (destCode r.op.dest) ++ toBytes 1 (if old.isSome then 1 else 0) ++
  toBytes 2 r.label.toNat ++ toBytes 2 r.op.seq.toNat ++ toBytes 4 r.op.word.toNat ++ toBytes 8 r.op.pc.toNat ++
  toBytes 8 acc.2 ++ toBytes 16 r.cmp.toNat ++ toBytes 16 (old.getD acc.1)

/-- A vector value with its format tag and label: the 264 bytes of a held LV (R347). -/
def Entry.toArea (e : Entry) : List Byte :=
  toBytes 256 e.bits.toNat ++ toBytes 1 e.fmt.code ++ toBytes 1 0 ++ toBytes 2 e.label.toNat ++ toBytes 4 0

/-- The body of the held-state section (R347), on a device. -/
def Held.toArea (h : Held) (anchored : Bool) (dev : BitVec 12) : List Byte :=
  toBytes 16 h.l.bits.toNat ++ toBytes 2 h.l.label.toNat ++ toBytes 1 (if h.l.tag then 1 else 0) ++ toBytes 13 0 ++
  (if anchored then h.lv.toArea else []) ++
  toBytes 8 (match h.mark with | some c => (endpointOf dev c).toNat | none => 0) ++ h.buf.flatMap BufEntry.toArea

/-- The tiles of a mask. -/
def tilesOf (mask : BitVec 8) : List (BitVec 3) :=
  ((rangeFrom 0 8).filter (fun i => mask.getLsbD i)).map (BitVec.ofNat 3)

/-- A tile of a saved task. -/
def Saved.tile (v : Saved) (i : Nat) : Tile := (v.tiles.lookup (BitVec.ofNat 3 i)).getD Tile.zero

/-- The body of the anchor section (R347): 32 bytes of tile mask, tags and labels; O0 to O7 and LV; M0 to M3; the rows of the
kept tiles. -/
def Saved.anchorArea (v : Saved) (a : Anchor) : List Byte :=
  toBytes 1 a.tiles.toNat ++ toBytes 7 0 ++ (rangeFrom 0 8).flatMap (fun i => toBytes 1 (v.tile i).fmt.code) ++
  (rangeFrom 0 8).flatMap (fun i => toBytes 2 (v.tile i).label.toNat) ++
  a.o.toList.flatMap Entry.toArea ++ a.lv.toArea ++
  a.m.toList.flatMap (fun m => toBytes 16 m.bits.toNat ++ toBytes 2 m.label.toNat ++ toBytes 6 0) ++
  (tilesOf v.kept).flatMap (fun i => (v.tile i.toNat).rows.toList.flatMap (fun r => toBytes 256 r.toNat))

/-- The control word of the sort state (R254). -/
def SortState.control (x : SortState) : Nat :=
  x.pairT.toNat * 2 ^ 21 + (if x.bound then 2 ^ 20 else 0) + (if x.desc then 2 ^ 19 else 0) + x.kfmt.code * 2 ^ 16 +
  x.form.code * 2 ^ 15 + (if x.mid then 2 ^ 14 else 0) + x.ph.toNat * 2 ^ 10 + x.step.toNat * 2 ^ 4 + (if x.xprev then 8 else 0)

/-- The remaining count or k of a sort operation. -/
def SortKind.remaining : SortKind → Nat
  | .run left => left
  | .topk k => k
  | _ => 0

/-- The sort operation that is stopped with work remaining, if one is. -/
def Saved.sorting (v : Saved) : Option SortOp := v.srtops.find? (·.begun)

/-- The body of the sort section (R347): the control word, the origin plane, the remaining count or k, the destination. -/
def Saved.sortArea (v : Saved) (x : SortState) : List Byte :=
  toBytes 8 x.control ++ toBytes 16384 x.origins.toNat ++ toBytes 8 (v.sorting.elim 0 (·.kind.remaining)) ++
  toBytes 8 (v.sorting.elim 0 (·.addr))

/-- A matrix queue entry in the area, 96 bytes (R238, R347): its descriptor, its progress, priority and tile. -/
def MxOp.toArea (m : MxOp) : List Byte :=
  toBytes 16 m.acap.bits.toNat ++ toBytes 16 m.bcap.bits.toNat ++
  [m.astride, m.bstride, m.asstride, m.bsstride, (m.asoff % 2 ^ 32).toNat, (m.bsoff % 2 ^ 32).toNat, m.ksteps, m.kd].flatMap (toBytes 4) ++
  toBytes 1 m.fmt.code ++ toBytes 1 m.tile.toNat ++ toBytes 1 m.prio.toNat ++
  toBytes 1 ((if m.asrc then 1 else 0) + (if m.bsrc then 2 else 0) + (if m.zfirst then 4 else 0)) ++ toBytes 2 m.lab.toNat ++
  toBytes 2 0 ++ toBytes 8 m.optag.toNat ++ toBytes 16 0

/-- A forked program in the area, 16 bytes: its engine, its position and its OPTAG. -/
def Prog.toArea (code : Nat) (p : Prog) : List Byte := toBytes 4 code ++ toBytes 4 p.next ++ toBytes 8 p.optag.toNat

/-- A paused copy in the area, 32 bytes: its next segment, its cursors and its OPTAG. -/
def CpOp.toArea (c : CpOp) : List Byte :=
  toBytes 8 c.seg ++ toBytes 8 c.src ++ toBytes 8 c.dst ++ toBytes 8 c.optag.toNat

/-- The forked programs of an anchored task, with the codes 0 m, 1 c, 2 s. -/
def Anchor.progs (a : Anchor) : List (Nat × Prog) :=
  ([(0, a.mprog), (1, a.cprog), (2, a.sprog)].filterMap (fun p => p.2.map (fun q => (p.1, q))))

def Saved.progs (v : Saved) : List (Nat × Prog) := v.task.anchor.elim [] (·.progs)

/-- The body of the engine section (R347): 16 bytes of counts, then the matrix entries, the programs and the copies. -/
def Saved.engineArea (v : Saved) : List Byte :=
  toBytes 2 v.mxops.length ++ toBytes 2 v.progs.length ++ toBytes 2 v.cpops.length ++ toBytes 10 0 ++
  v.mxops.flatMap MxOp.toArea ++ v.progs.flatMap (fun p => p.2.toArea p.1) ++ v.cpops.flatMap CpOp.toArea

/-- The body of the pipe section (R347): two counts, then the bytes of pipe A and of pipe B, each followed by its label. -/
def Anchor.pipeArea (a : Anchor) : List Byte :=
  toBytes 8 a.pipeA.length ++ toBytes 8 a.pipeB.length ++
  (a.pipeA ++ a.pipeB).flatMap (fun p => p.val :: toBytes 2 p.label.toNat)

/-- The sections of a saved task, in the order of their types. -/
def Saved.sections (v : Saved) (dev : BitVec 12) : List (List Byte) :=
  let t := v.task
  (if t.buf.isEmpty then [] else [areaSection 1 (t.buf.flatMap BufEntry.toArea)]) ++
  (match t.held with | some h => [areaSection 2 (h.toArea t.anchor.isSome dev)] | none => []) ++
  (if t.frames.isEmpty then [] else
    [areaSection 3 (t.frames.flatMap (fun f => toBytes 6 f.tid.toNat ++ toBytes 2 0 ++ toBytes 8 f.ret.toNat))]) ++
  (if t.replay.isEmpty then [] else [areaSection 4 (t.replay.flatMap Replay.toArea)]) ++
  (if t.inbox.isEmpty && t.resv == 0 then [] else
    [areaSection 5 (toBytes 8 t.resv ++ t.inbox.flatMap (fun m => toBytes 32 m.bits.toNat))]) ++
  (match t.anchor with | some a => [areaSection 6 (v.anchorArea a), areaSection 7 (v.sortArea a.sort)] | none => []) ++
  (if v.mxops.isEmpty && v.cpops.isEmpty && v.progs.isEmpty then [] else [areaSection 8 v.engineArea]) ++
  (match t.anchor with
   | some a => if a.pipeA.isEmpty && a.pipeB.isEmpty then [] else [areaSection 9 a.pipeArea]
   | none => [])

/-- The STATE word (R346). -/
def Saved.stateWord (v : Saved) : Nat :=
  (if v.task.midGroup then 1 else 0) + (if v.task.held.isSome then 2 else 0) +
  (if v.awaiting || v.task.status == .parked .notice then 4 else 0) + (if v.task.noticed then 8 else 0)

/-- The bytes of a context area. -/
def Saved.bytes (v : Saved) (dev : BitVec 12) : List Byte :=
  let t := v.task
  let secs := v.sections dev
  let body := secs.flatMap id
  packedContext t ++ toBytes 8 t.tlevel.toNat ++ toBytes 8 t.utvec.toNat ++ toBytes 8 t.uepc.toNat ++
  toBytes 8 t.ucause.toNat ++ toBytes 8 t.uval.toNat ++ toBytes 16 t.l.bits.toNat ++ toBytes 2 t.l.label.toNat ++
  toBytes 2 (if t.l.tag then 1 else 0) ++ toBytes 4 v.stateWord ++ toBytes 8 secs.length ++
  toBytes 8 (512 + body.length) ++ List.replicate 112 0#8 ++ body

/-! ### Reading back -/

/-- The sections that follow the fixed part, as (TYPE, body). Types must be known, in order, each once (R348). -/
def readSections (m : Memory) (pos last : Nat) : Nat → Option (List (Nat × List Byte))
  | 0 => some []
  | n + 1 =>
    let type := m.read pos 1
    let len := m.read (pos + 8) 8
    if m.read (pos + 1) 7 ≠ 0 ∨ type ≤ last ∨ 9 < type then none
    else match readSections m (pos + (16 + len + 63) / 64 * 64) type n with
      | some r => some ((type, m.bytes (pos + 16) len) :: r)
      | none => none

/-- A label and a tag in an area never gain by an edit (R294, R348). -/
def editVal (old : Val) (bits : Nat) (tag : Bool) (label : Nat) : Val :=
  let b := BitVec.ofNat 128 bits
  { bits := b, tag := tag && old.tag && b == old.bits, label := BitVec.ofNat 16 label ||| old.label }

/-- The value of the g entry that stood at a place of the saved buffer. -/
def BufEntry.val : BufEntry → Val
  | .g _ v => v
  | _ => Val.zero
/-- The label of an entry. -/
def BufEntry.label : BufEntry → Label
  | .g _ v => v.label
  | .o _ e | .row _ _ e | .stat _ e _ _ => e.label
  | .wait _ _ => 0#16

/-- Entries read from a body, beside the entries that were saved; none for a reserved value (R347, R348). -/
def readEntries : Nat → List Byte → List BufEntry → Option (List BufEntry)
  | 0, l, _ => if l.isEmpty then some [] else none
  | fuel + 1, l, old =>
    if l.isEmpty then some []
    else
      let kind := bytesAt l 0 1
      let num := bytesAt l 2 2
      let o := old.head?.getD (.wait 0 (.g 0))
      let lab := BitVec.ofNat 16 (bytesAt l 6 2) ||| o.label
      let entry (f : FTag) (at_ : Nat) : Entry := { bits := BitVec.ofNat 2048 (bytesAt l at_ 256), fmt := f, label := lab }
      if bytesAt l 1 1 ≠ 0 ∨ bytesAt l 8 8 ≠ 0 ∨ 1 < bytesAt l 4 1 then none
      else match ftagOf (bytesAt l 5 1) with
        | .error _ => none
        | .ok f =>
          let r : Option (BufEntry × Nat) :=
            if kind = 1 ∧ num < 16 then
              some (.g (BitVec.ofNat 4 num) (editVal o.val (bytesAt l 16 16) (bytesAt l 4 1 == 1) lab.toNat), 32)
            else if kind = 2 ∧ num < 8 then some (.o (BitVec.ofNat 3 num) (entry f 16), 272)
            else if kind = 3 ∧ num < 512 then
              some (.row (BitVec.ofNat 3 (num / 64)) (BitVec.ofNat 6 num) (entry f 16), 272)
            else if kind = 4 ∧ num < 6 then some (.stat (BitVec.ofNat 3 num) (entry f 16) (entry f 272) (entry f 528), 784)
            else none
          match r with
          | none => none
          | some (e, n) =>
            match readEntries fuel (l.drop n) old.tail with
            | some rest => some (e :: rest)
            | none => none

/-- Puts entries read back into their places among the results that replay entries still bring. -/
def mergeEntries : List BufEntry → List BufEntry → List BufEntry
  | .wait i d :: r, new => .wait i d :: mergeEntries r new
  | _ :: r, e :: new => e :: mergeEntries r new
  | _ :: r, [] => mergeEntries r []
  | [], new => new

/-- The entries of a saved buffer that have bytes in the area. -/
def arrived (l : List BufEntry) : List BufEntry := l.filter (fun e => match e with | .wait _ _ => false | _ => true)

/-- A buffer read back from a section body. -/
def readBuffer (body : List Byte) (old : List BufEntry) : Option (List BufEntry) :=
  (readEntries body.length body (arrived old)).map (mergeEntries old)

/-- Chunks of n bytes. -/
def chunks (n : Nat) : Nat → List Byte → List (List Byte)
  | 0, _ => []
  | k + 1, l => if l.isEmpty then [] else l.take n :: chunks n k (l.drop n)

/-- All the values of a list of which none is absent. -/
def allSome {α : Type} : List (Option α) → Option (List α)
  | [] => some []
  | none :: _ => none
  | some x :: r => (allSome r).map (x :: ·)

/-- A value when a condition holds. -/
def check {α : Type} (b : Bool) (x : α) : Option α := if b then some x else none

/-- A label that an edit never lowers (R294). -/
def joinLabel (old : Label) (n : Nat) : Label := BitVec.ofNat 16 n ||| old

/-- A message from its 32 bytes (R168), beside the one that was saved there: its label is never lowered, byte 5 is reserved, and so
are the values of TYPE that no message has. -/
def readMsg (old : Option Msg) (l : List Byte) : Option Msg :=
  check (bytesAt l 5 1 == 0 && decide (0 < bytesAt l 0 1) && decide (bytesAt l 0 1 < 7))
    { type := BitVec.ofNat 8 (bytesAt l 0 1), src := BitVec.ofNat 24 (bytesAt l 1 3), cause := BitVec.ofNat 8 (bytesAt l 4 1),
      label := joinLabel (old.elim 0 (·.label)) (bytesAt l 6 2), optag := BitVec.ofNat 64 (bytesAt l 8 8),
      payload := BitVec.ofNat 128 (bytesAt l 16 16) }

/-- The request of an operation with its operands as they now stand. -/
def PendOp.asked (o : PendOp) (kind : OpKind) (seq : BitVec 16) (label : Label) : Option Packet :=
  o.packet.map (fun (p : Packet) =>
    let hdr := { p.hdr with seq, label }
    match kind with
    | .access a => let q := a.ask o.dev; { hdr := { hdr with addr := BitVec.ofNat 64 q.addr }, data := q.data }
    | _ => { p with hdr })

/-- The destination that a DEST byte names (R344), for an operation that had one; none for a reserved value. -/
def readDest (old : Option Dest) (n : Nat) : Option (Option Dest) :=
  if n = 17 then some none
  else match old with
    | some (.o _) => check (decide (n < 8)) (some (.o (BitVec.ofNat 3 n)))
    | _ => if 24 ≤ n ∧ n < 32 then some (some (.q (BitVec.ofNat 3 n))) else check (decide (n < 16)) (some (.g (BitVec.ofNat 4 n)))

/-- A replay entry as an edited area gives it (R344); its label is never lowered. STATE 1 says that DATA is the old value. -/
def Replay.edit (r : Replay) (l : List Byte) : Option Replay :=
  let lab := joinLabel r.label (bytesAt l 8 2)
  let seq := BitVec.ofNat 16 (bytesAt l 10 2)
  let data (n : Nat) : BitVec 512 := BitVec.ofNat 512 (bytesAt l 48 16 + n / 2 ^ 128 * 2 ^ 128)
  let done := bytesAt l 7 1 == 1
  let kind := match r.op.kind with
    | .access a => .access { a with
        data := (if done then a.data else data a.data.toNat), va := bytesAt l 24 8,
        cmp := (if a.isCas then BitVec.ofNat 64 (bytesAt l 32 16) else a.cmp) }
    | k => k
  let stage := match r.op.stage with
    | .executed x => if done then .executed { x with data := data x.data.toNat } else .sent
    | k => if done then .executed { data := data 0, tag := false, label := lab, flags := 0 } else k
  match readDest r.op.dest (bytesAt l 6 1) with
  | none => none
  | some dest => check (bytesAt l 0 6 == 0 && decide (bytesAt l 7 1 < 2))
      { op := { r.op with
          kind, stage, dest, pc := BitVec.ofNat 64 (bytesAt l 16 8), word := BitVec.ofNat 32 (bytesAt l 12 4), seq,
          packet := r.op.asked kind seq lab },
        cmp := BitVec.ofNat 128 (bytesAt l 32 16) }

/-- A value with its tag and label, 264 bytes, beside the one that was saved. -/
def readEntry (old : Entry) (l : List Byte) : Option Entry :=
  match ftagOf (bytesAt l 256 1) with
  | .ok f => check (bytesAt l 257 1 == 0 && bytesAt l 260 4 == 0)
      { bits := BitVec.ofNat 2048 (bytesAt l 0 256), fmt := f, label := joinLabel old.label (bytesAt l 258 2) }
  | .error _ => none

/-- Held state from its section body, on a device. -/
def readHeld (body : List Byte) (anchored : Bool) (old : Held) : Option Held :=
  let n := if anchored then 296 else 32
  let mark := bytesAt body n 8
  match (if anchored then readEntry old.lv ((body.drop 32).take 264) else some old.lv), readBuffer (body.drop (n + 8)) old.buf with
  | some lv, some buf => check (decide (bytesAt body 18 1 < 2) && bytesAt body 19 13 == 0 && decide (mark < 2 ^ 24))
      { old with
        buf, l := editVal old.l (bytesAt body 0 16) (bytesAt body 18 1 == 1) (bytesAt body 16 2), lv,
        mark := if mark = 0 then none else some (Endpoint.core (BitVec.ofNat 24 mark)) }
  | _, _ => none

/-- Results that replay entries still bring, in a buffer that has been read back: each entry with a destination has its place. -/
def placeWaits (rs : List Replay) (buf : List BufEntry) : List BufEntry :=
  let dests := rs.filterMap (fun r => r.op.dest.map (fun d => (r.op.id, d)))
  let kept := buf.filterMap (fun e => match e with
    | .wait i _ => (dests.lookup i).map (BufEntry.wait i)
    | e => some e)
  let has (i : Nat) : Bool := kept.any (fun e => match e with | .wait k _ => k == i | _ => false)
  kept ++ (dests.filter (fun p => !has p.1)).map (fun p => .wait p.1 p.2)

/-- The anchored engine state from its section body (R347), beside what was saved: the anchor, and the tiles with their tags,
labels and, when they are kept, rows. The grant itself is no part of what an edit changes. -/
def readAnchor (v : Saved) (a : Anchor) (l : List Byte) : Option (Anchor × List (BitVec 3 × Tile)) :=
  let entries := (rangeFrom 0 9).map (fun i =>
    readEntry ((a.o[i]?).getD a.lv) ((l.drop (32 + 264 * i)).take 264))
  let mask (i : Nat) : Option Mask :=
    let b := (l.drop (2408 + 24 * i)).take 24
    check (bytesAt b 18 6 == 0)
      { bits := BitVec.ofNat 128 (bytesAt b 0 16), label := joinLabel ((a.m[i]?.getD Mask.ones).label) (bytesAt b 16 2) }
  let kept := tilesOf v.kept
  let tile (p : BitVec 3 × Tile) : Option (BitVec 3 × Tile) :=
    let i := p.1.toNat
    match ftagOf (bytesAt l (8 + i) 1) with
    | .error _ => none
    | .ok f =>
      let at_ := 2504 + 16384 * (kept.takeWhile (· != p.1)).length
      let rows := if kept.contains p.1 then Vector.ofFn (fun (r : Fin 64) => BitVec.ofNat 2048 (bytesAt l (at_ + 256 * r.val) 256)) else p.2.rows
      some (p.1, { p.2 with rows, fmt := f, label := joinLabel p.2.label (bytesAt l (16 + 2 * i) 2) })
  if l.length ≠ 2504 + 16384 * kept.length ∨ bytesAt l 1 7 ≠ 0 then none
  else match allSome entries, allSome ((rangeFrom 0 4).map mask), allSome (v.tiles.map tile) with
    | some es, some ms, some ts =>
      some ({ a with o := Vector.ofFn (fun (i : Fin 8) => es[i.val]?.getD Entry.zero), lv := es[8]?.getD Entry.zero,
                     m := Vector.ofFn (fun (i : Fin 4) => ms[i.val]?.getD Mask.ones) }, ts)
    | _, _, _ => none

/-- The sort state that a control word and an origin plane give (R254); none for a reserved bit or value. -/
def readControl (n : Nat) (origins : BitVec 131072) : Option SortState :=
  match kfmtOf (bitsOf n 16 3), kformOf (bitsOf n 15 1) with
  | .ok kfmt, .ok form => check (n / 2 ^ 24 == 0 && n % 8 == 0 && decide (bitsOf n 10 4 < 14))
      { pairT := BitVec.ofNat 3 (bitsOf n 21 3), bound := bitsOf n 20 1 == 1, desc := bitsOf n 19 1 == 1, kfmt, form,
        mid := bitsOf n 14 1 == 1, ph := BitVec.ofNat 4 (bitsOf n 10 4), step := BitVec.ofNat 6 (bitsOf n 4 6),
        xprev := bitsOf n 3 1 == 1, origins }
  | _, _ => none

/-- A stopped sort operation with the remaining count or k and the destination of its section. -/
def SortOp.edit (o : SortOp) (left dst : Nat) : SortOp :=
  if o.begun then { o with addr := dst, kind := match o.kind with | .run _ => .run left | .topk _ => .topk left | k => k } else o

/-- A matrix queue entry from its 96 bytes, beside the one that was saved. -/
def MxOp.edit (m : MxOp) (l : List Byte) : Option MxOp :=
  match ftagOf (bytesAt l 64 1) with
  | .error _ => none
  | .ok fmt =>
    let cap (old : Val) (at_ : Nat) : Val := editVal old (bytesAt l at_ 16) old.tag old.label.toNat
    check (decide (bytesAt l 65 1 < 8) && decide (bytesAt l 66 1 < 8) && decide (bytesAt l 67 1 < 8) && bytesAt l 70 2 == 0 &&
        bytesAt l 80 16 == 0)
      { m with
        acap := cap m.acap 0, bcap := cap m.bcap 16, astride := bytesAt l 32 4, bstride := bytesAt l 36 4,
        asstride := bytesAt l 40 4, bsstride := bytesAt l 44 4, asoff := signed 32 (bytesAt l 48 4), bsoff := signed 32 (bytesAt l 52 4),
        ksteps := bytesAt l 56 4, kd := bytesAt l 60 4, fmt, tile := BitVec.ofNat 3 (bytesAt l 65 1),
        prio := BitVec.ofNat 3 (bytesAt l 66 1), asrc := bitsOf (bytesAt l 67 1) 0 1 == 1, bsrc := bitsOf (bytesAt l 67 1) 1 1 == 1,
        zfirst := bitsOf (bytesAt l 67 1) 2 1 == 1, lab := joinLabel m.lab (bytesAt l 68 2), optag := BitVec.ofNat 64 (bytesAt l 72 8) }

/-- A copy from its 32 bytes. -/
def CpOp.edit (c : CpOp) (l : List Byte) : CpOp :=
  { c with seg := bytesAt l 0 8, src := bytesAt l 8 8, dst := bytesAt l 16 8, optag := BitVec.ofNat 64 (bytesAt l 24 8) }

/-- Entries read back place by place: an area may drop the last of those that were saved and adds none. -/
def editAll {α : Type} (f : α → List Byte → Option α) (size : Nat) (old : List α) (l : List Byte) : Option (List α) :=
  let parts := chunks size l.length l
  if old.length < parts.length ∨ l.length % size ≠ 0 then none
  else allSome ((old.zip parts).map (fun p => f p.1 p.2))

/-- A forked program that has its position and OPTAG back, if the area still lists it. -/
def editProg (code : Nat) (l : List (List Byte)) (p : Option Prog) : Option Prog :=
  p.bind (fun p => (l.find? (fun b => bytesAt b 0 4 == code)).map (fun b =>
    { p with next := bytesAt b 4 4, optag := BitVec.ofNat 64 (bytesAt b 8 8) }))

/-- The engine work from its section body (R347). -/
def readEngines (v : Saved) (l : List Byte) : Option Saved :=
  let nm := bytesAt l 0 2; let np := bytesAt l 2 2; let nc := bytesAt l 4 2
  let body := l.drop 16
  let progs := chunks 16 np ((body.drop (96 * nm)).take (16 * np))
  match editAll MxOp.edit 96 v.mxops (body.take (96 * nm)),
        editAll (fun c b => some (CpOp.edit c b)) 32 v.cpops (body.drop (96 * nm + 16 * np)) with
  | some mxops, some cpops =>
    check (bytesAt l 6 10 == 0 && l.length == 16 + 96 * nm + 16 * np + 32 * nc && progs.all (fun b => decide (bytesAt b 0 4 < 3)))
      { v with mxops, cpops, task := { v.task with anchor := v.task.anchor.map (fun a => { a with
          mprog := editProg 0 progs a.mprog, cprog := editProg 1 progs a.cprog, sprog := editProg 2 progs a.sprog }) } }
  | _, _ => none

/-- The bytes of a pipe, beside those that were saved. -/
def readPipe (old : List PipeByte) (l : List Byte) : List PipeByte :=
  (chunks 3 l.length l).zipIdx.map (fun p =>
    { val := BitVec.ofNat 8 (bytesAt p.1 0 1), label := joinLabel (old[p.2]?.elim 0 (·.label)) (bytesAt p.1 1 2),
      bad := old[p.2]?.any (·.bad) })

/-- Whether the reserved bits of the fixed part are zero and the MIG field of the TSW is not reserved (R10, R11, R283, R292, R346). -/
def fixedOk (m : Memory) (a : Nat) : Bool :=
  m.read (a + 314) 6 == 0 && m.read (a + 378) 2 < 2 && m.read (a + 380) 4 < 16 && m.read (a + 400) 112 == 0 &&
  bitsOf (m.read (a + 296) 8) 22 42 == 0 && bitsOf (m.read (a + 296) 8) 15 2 < 2 && m.read (a + 320) 8 < 16 &&
  bitsOf (m.read (a + 344) 8) 11 21 == 0

/-- A TSW with the fields of a new value, KIND, ANC and PIN kept, PRIO held to the ceiling (R11). -/
def tswWith (old new : Word) (ceil : BitVec 3) : Word :=
  let kept := bitsOf old.toNat 17 5 * 2 ^ 17
  BitVec.ofNat 64 (kept + bitsOf new.toNat 15 2 * 2 ^ 15 + min (tswPrio new) ceil.toNat * 2 ^ 12 + bitsOf new.toNat 0 12)

/-- The task with the fixed part of its area. -/
def readFixed (m : Memory) (a : Nat) (old : Task) : Task :=
  let gtag := m.read (a + 304) 2
  { old with
    g := Vector.ofFn (fun (i : Fin 16) =>
      editVal (old.g[i]) (m.read (a + 16 * i.val) 16) (bitsOf gtag i.val 1 == 1) (m.read (a + 256 + 2 * i.val) 2)),
    pc := BitVec.ofNat 64 (m.read (a + 288) 8),
    tsw := tswWith old.tsw (BitVec.ofNat 64 (m.read (a + 296) 8)) old.ceil,
    clabel := joinLabel old.clabel (m.read (a + 306) 2),
    tlevel := setBits old.tlevel 2 1 (bitsOf (m.read (a + 320) 8) 2 1),
    utvec := BitVec.ofNat 64 (m.read (a + 328) 8 / 4 * 4), uepc := BitVec.ofNat 64 (m.read (a + 336) 8),
    ucause := BitVec.ofNat 64 (m.read (a + 344) 8), uval := BitVec.ofNat 64 (m.read (a + 352) 8),
    l := editVal old.l (m.read (a + 360) 16) (m.read (a + 378) 2 == 1) (m.read (a + 376) 2) }

/-- The task with the sections of TYPE 1 to 5 of its area; a section that the area has no longer is empty. -/
def readTaskSections (t : Task) (sec : Nat → List Byte) (has : Nat → Bool) : Option Task :=
  let frames := chunks 16 (sec 3).length (sec 3)
  let msgs := chunks 32 (sec 5).length ((sec 5).drop 8)
  match readBuffer (sec 1) t.buf, (match t.held with
      | some h => if has 2 then (readHeld (sec 2) t.anchor.isSome h).map some else some none
      | none => some none), editAll Replay.edit 64 t.replay (sec 4),
      allSome (msgs.zipIdx.map (fun p => readMsg (t.inbox[p.2]?) p.1)) with
  | some buf, some held, some replay, some inbox =>
    check (frames.all (fun l => bytesAt l 6 2 == 0))
      { t with
        buf := placeWaits replay buf, held, replay, inbox, resv := bytesAt (sec 5) 0 8,
        frames := frames.map (fun l => { tid := BitVec.ofNat 48 (bytesAt l 0 6), ret := BitVec.ofNat 64 (bytesAt l 8 8) }) }
  | _, _, _, _ => none

/-- The saved task with the sections of TYPE 6 and 7: without them its engine state is as anchoring grants it. -/
def readAnchorSections (v : Saved) (sec : Nat → List Byte) (has : Nat → Bool) : Option Saved :=
  match v.task.anchor with
  | none => some v
  | some a =>
    let fresh := Anchor.fresh a.tiles
    match (if has 6 then readAnchor v a (sec 6)
           else some ({ a with o := fresh.o, lv := fresh.lv, m := fresh.m }, v.tiles.map (fun p => (p.1, Tile.zero)))),
          (if has 7 then readControl (bytesAt (sec 7) 0 8) (BitVec.ofNat 131072 (bytesAt (sec 7) 8 16384)) else some fresh.sort) with
    | some (a, tiles), some sort => check (!has 7 || (sec 7).length == 16408)
        { v with
          tiles, task := { v.task with anchor := some { a with sort } },
          srtops := if has 7 then v.srtops.map (fun o => o.edit (bytesAt (sec 7) 16392 8) (bytesAt (sec 7) 16400 8))
                    else v.srtops.filter (fun o => !o.begun) }
    | _, _ => none

/-- The saved task with the sections of TYPE 8 and 9: without them it has no engine work and its pipes are empty. -/
def readEngineSections (v : Saved) (sec : Nat → List Byte) (has : Nat → Bool) : Option Saved :=
  let na := bytesAt (sec 9) 0 8; let nb := bytesAt (sec 9) 8 8
  let pipes (v : Saved) : Saved := { v with task := { v.task with anchor := v.task.anchor.map (fun a => { a with
    pipeA := readPipe a.pipeA (((sec 9).drop 16).take (3 * na)), pipeB := readPipe a.pipeB ((sec 9).drop (16 + 3 * na)) }) } }
  let none_ : Saved := { v with mxops := [], cpops := [], task := { v.task with anchor := v.task.anchor.map (fun a =>
    { a with mprog := none, cprog := none, sprog := none }) } }
  ((if has 8 then readEngines v (sec 8) else some none_).map pipes).bind (check (!has 9 || (sec 9).length == 16 + 3 * (na + nb)))

/-- The saved task as its area now gives it; none when the area breaks R348. -/
def readContext (m : Memory) (v : Saved) : Option Saved :=
  if !(fixedOk m v.area) then none
  else match readSections m (v.area + 512) 0 (m.read (v.area + 384) 8) with
    | none => none
    | some secs =>
      let sec (k : Nat) : List Byte := (secs.lookup k).getD []
      let has (k : Nat) : Bool := (secs.lookup k).isSome
      (readTaskSections (readFixed m v.area v.task) sec has).bind (fun t =>
        (readAnchorSections { v with task := t } sec has).bind (fun v => readEngineSections v sec has))

/-! ### Saving a task (R343 steps 2 to 4, R293 step 2) -/

/-- Whether an operation need not be awaited: it went to a peer and has had no reply within 2,048 cycles, or is the part of such a
load that has come. -/
def PendOp.replays (o : PendOp) (now : Nat) : Bool :=
  o.peer && (match o.stage with | .sent => decide (o.cycle + 2048 ≤ now) | .arrived _ => true | _ => false)

/-- The unit that a task is parked at before its operations could be sent, as operations of it (R343): their results have places,
and the task stands behind the unit, at the end of its group when the unit has the switch marker. -/
def Task.takeUnsent (t : Task) : Task :=
  match t.status, t.unsent with
  | .parked (.flip _ _), o :: _ =>
    { t with
      ops := t.ops ++ t.unsent, unsent := [], pc := o.next, unitPc := o.next,
      buf := t.buf ++ (match o.dest with | some d => [.wait o.id d] | none => []),
      status := if o.word.getLsbD 31 then .parked .group else .ready }
  | _, _ => t

/-- Operations that have not landed become replay entries. -/
def Task.stopOps (t : Task) : Task :=
  let t := t.takeUnsent
  { t with replay := t.ops.map (fun o => { op := o, cmp := match o.kind with
      | .access a => if a.isCas then BitVec.ofNat 128 a.cmp.toNat else 0
      | _ => 0 }), ops := [] }

/-- A parity error in the buffer that is found when it is saved raises its cause when the task resumes, and nothing of the buffer is
applied (R51); the same in the held buffer. -/
def Task.saveParity (t : Task) : Task :=
  if t.parity || t.held.any (·.parity) then
    { t with
      buf := if t.parity then [] else t.buf, parity := false,
      held := t.held.map (fun h => if h.parity then { h with buf := [], parity := false } else h),
      deferred := t.deferred ++ [(0x19, 0, 0)] }
  else t

/-- A task of a core as it is saved: its tiles, of which `kept` go into the area, and its engine work, stopped. -/
def Core.saved (c : Core) (t : Task) (kept : BitVec 8) (unit : Option CoreId) (slot : Option (BitVec 5)) (awaiting : Bool) : Saved :=
  let t := t.stopOps.saveParity
  let mask : BitVec 8 := t.anchor.elim 0 (·.tiles)
  let srts := c.srt.filter (fun o => o.owner == t.tid)
  -- a run, rows or topk that has begun is stopped with work remaining (R266)
  let t := if srts.any (·.begun) then { t with anchor := t.anchor.map (fun x => { x with sort := { x.sort with mid := true } }) } else t
  { area := 0, size := 0, core := c.id, kept := kept &&& mask, task := t,
    tiles := (tilesOf mask).map (fun i => (i, c.tiles[i.toNat]?.getD Tile.zero)),
    mxops := (c.mx.filter (fun o => mask.getLsbD o.tile.toNat)).map (fun (o : MxOp) => { o with running := false }),
    cpops := c.cp.filter (fun o => o.owner == t.tid), srtops := srts, unit, slot, awaiting }

/-- The context pool of a die: base and size (R346). -/
def contextPool (die : Nat) : Nat × Nat := (die * 2 ^ 37 + 0x1E00000000, 0x1DFFFE000)

/-- The bytes of a scratchpad save area (R350). -/
def saveAreaBytes : Nat := 2 ^ 20 + 4096

/-- The ranges of the context pools that are in use. -/
def Device.poolTaken (d : Device) : List (Nat × Nat) :=
  d.saved.map (fun v => (v.area, v.size)) ++ d.saveAreas.map (fun a => (a.base, saveAreaBytes))

/-- A free place of n bytes in the context pool of a die: the lowest (log entry 113). -/
def Device.poolFit (d : Device) (die align n : Nat) : Option Nat :=
  firstFit align (contextPool die).1 (contextPool die).2 n d.poolTaken

/-- Whether the task's operations have landed or will become replay entries, its combining-buffer entries have drained, and the
context pool has room for its area. -/
def State.quiet (s : State) : Bool :=
  s.t.ops.all (fun o => o.replays s.d.cycle) && s.c.scb.all (fun e => e.tid != s.t.tid) &&
  (s.d.poolFit (CoreId.die s.c.id).toNat 64
    ((s.c.saved s.t 0xFF none none false).bytes s.d.fabric.device).length).isSome

/-- Saves the task at the port into a new context area, with the tiles `kept` of it, and leaves the port vacant. The answer is the
area's PA. -/
def State.saveTask (s : State) (kept : BitVec 8) (unit : Option CoreId) (slot : Option (BitVec 5)) (awaiting : Bool) : Nat × State :=
  let v := s.c.saved s.t kept unit slot awaiting
  let bytes := v.bytes s.d.fabric.device
  let die := (CoreId.die s.c.id).toNat
  let area := (s.d.poolFit die 64 bytes.length).getD (contextPool die).1
  let d := s.d.putArea area bytes
  (area, { t := Task.vacant, c := s.c.endTask s.t,
           d := { d with saved := d.saved ++ [{ v with area, size := bytes.length }] } })

/-! ### Recomputable tiles (R351) -/

/-- The innermost restart region of a kernel that holds an address. -/
def Kernel.restartAt (k : Kernel) (pc : Nat) : Option Word :=
  let regions := k.decls.filterMap (fun x => match x with
    | .restart lo hi target => if lo.toNat ≤ pc ∧ pc < hi.toNat then some (hi.toNat - lo.toNat, target) else none
    | _ => none)
  (regions.foldl (fun (best : Option (Nat × Word)) r => match best with
    | some b => if r.1 < b.1 then some r else best
    | none => some r) none).map (·.2)

/-- A tile with zero bits, its tag and label unchanged. -/
def Tile.zeroBits (x : Tile) : Tile := { x with rows := Vector.replicate 64 0#2048, poison := 0 }

/-- The task at the port goes back to a restart label: its discarded work is gone (its matrix entries, its programs with the copies
and sorts that their words started, and their reservations), as are the buffer, the held state and the latches; its recomputable
tiles are zero. A remote command is discarded only on such a tile, and ends there (R238, R240). -/
def State.goBack (s : State) (target : Word) (recomp : BitVec 8) : State :=
  match s.t.anchor with
  | none => s
  | some x =>
    let tid := s.t.tid
    let local_ (o : MxOp) : Bool := o.owner == tid && o.remote.isNone && o.answer.isNone
    let ended (o : MxOp) : Bool := x.tiles.getLsbD o.tile.toNat && (local_ o || recomp.getLsbD o.tile.toNat)
    let word (owner : Tid) (prog : Bool) : Bool := owner == tid && prog
    let freed := (s.c.mx.filter (fun o => local_ o && o.holds)).length + (x.progs.filter (·.2.holds)).length +
      (s.c.cp.filter (fun o => word o.owner o.prog && o.holds)).length + (s.c.srt.filter (fun o => word o.owner o.prog && o.holds)).length
    let x' := { x with mprog := none, cprog := none, sprog := none, lv := Entry.zero }
    let t : Task := { s.t with
      anchor := some x', pc := target, unitPc := target, buf := [], lost := 0, parity := false, held := none, l := Val.zero,
      resv := s.t.resv - freed }
    let tiles := (tilesOf (recomp &&& x.tiles)).foldl (fun ts i => vmod ts i.toNat Tile.zeroBits) s.c.tiles
    { t, c := { s.c with
        tiles, mx := s.c.mx.filter (fun o => !ended o), cp := s.c.cp.filter (fun o => !word o.owner o.prog),
        srt := s.c.srt.filter (fun o => !word o.owner o.prog) },
      d := (s.c.mx.filter (fun o => ended o && !local_ o)).foldl (fun d m => d.endCommand s.c.id 0x12 m) s.d }

/-- Saves the task at the port at a pre-emption (R343 step 3), by a debug unit or not: within a restart region a task that holds a
recomputable tile goes back first, and those tiles are not saved. -/
def State.preemptSave (s : State) (unit : Option CoreId) : Nat × State :=
  let recomp := (s.d.kernelOf s.t).elim 0 (·.recomp)
  if s.t.anchor.any (fun x => recomp &&& x.tiles != 0) then
    match (s.d.kernelOf s.t).bind (fun k => k.restartAt s.t.pc.toNat) with
    | some target => (s.goBack target recomp).saveTask (~~~recomp) unit none false
    | none => s.saveTask 0xFF unit none false
  else s.saveTask 0xFF unit none false

/-- The saved context of a task. -/
def Device.savedOf (d : Device) (tid : Tid) : Option Saved := d.saved.find? (fun v => v.task.tid == tid)

/-- Tiles granted on a core: those of its anchored tasks, and those of the trapped tasks whose handlers hold their slots. -/
def State.grantedTiles (s : State) : BitVec 8 :=
  let live := (s.whole.tasks.map (fun p => match p.2.anchor with | some a => a.tiles | none => 0#8)).foldl (· ||| ·) 0#8
  let kept := ((s.d.saved.filter (fun v => v.core == s.c.id && v.slot.isSome)).map
    (fun v => match v.task.anchor with | some a => a.tiles | none => 0#8)).foldl (· ||| ·) 0#8
  live ||| kept

/-- How many anchor places of the core are taken. -/
def State.anchored (s : State) : Nat :=
  (s.whole.tasks.filter (fun p => p.2.anchor.isSome)).length +
  (s.d.saved.filter (fun v => v.core == s.c.id && v.slot.isSome && v.task.anchor.isSome)).length

/-- The status in which a saved task returns: the end of its group or a notice is still awaited; any other wait is ended by
issuing afresh (R343). -/
def resumed : Status → Status
  | .parked .group | .parked (.tlbSync _ _) => .parked .group
  | .parked .notice => .parked .notice
  | _ => .ready

/-- Puts a saved task back on the core in focus, at the vacant issue port: the area is read, the requests of replay entries to peers
leave again (R344), the engine work returns to its queues and the tiles to their places. Entries that were never sent, and those
whose old value is known, are left for `State.reissue`. A task whose area breaks R348 raises the cause when it resumes. -/
def State.restoreTask (s : State) (v : Saved) : State :=
  let v : Saved := match readContext s.d.gmem.mem v with
    | some v => v
    | none => { v with task := { v.task with deferred := v.task.deferred ++ [(0x02, 4, 0)] } }
  let all := v.task.replay.map (fun r => { r.op with cycle := s.d.cycle })
  let again (o : PendOp) : Bool := o.peer || o.stage != .sent
  let t : Task := { v.task with
    ops := all.filter again, unsent := all.filter (fun o => !again o), replay := [], unitPc := v.task.pc, eff := v.task.prio, age := 0,
    status := resumed v.task.status }
  let c : Core := { s.c with
    mx := s.c.mx ++ v.mxops.map (fun (o : MxOp) => { o with age := s.d.cycle }), cp := s.c.cp ++ v.cpops, srt := s.c.srt ++ v.srtops,
    tiles := v.tiles.foldl (fun ts (p : BitVec 3 × Tile) => vmod ts p.1.toNat (fun _ => p.2)) s.c.tiles }
  let s' : State := { t, c, d := { s.d with saved := s.d.saved.filter (fun w => w.area != v.area) } }
  let s' := (t.ops.filter (fun o => o.stage == .sent)).foldl (fun (s : State) o => (o.packet.map s.resend).getD s) s'
  s'.record 10 t 0#16 t.pc (BitVec.ofNat 64 v.area)

end Sys2Proof.Machine
end

