-- ==== Sys2Proof/Machine/Trap.lean ====
section
/-! DEFINITION. Raising a cause (R289 to R296, R306): where it goes, what is saved, and the handler or upcall task that
starts. This is the one operation through which every meaning raises. -/

namespace Sys2Proof.Machine

/-! ### Creating and starting tasks -/

/-- The priority ceiling of a launch's task that enters at an address: the smaller of PRIOCAP and the PRIO of the kernel that
holds the address (R11). -/
def Device.ceilOf (d : Device) (launch : Nat) (entry : Word) : BitVec 3 :=
  match d.launchGraph launch with
  | some g => (g.kernelAt entry.toNat).elim 0 (fun k => if g.priocap.toNat < k.prio.toNat then g.priocap else k.prio)
  | none => 0

def minPrio (a b : BitVec 3) : BitVec 3 := if a.toNat < b.toNat then a else b

/-- A new task at an entry point, with every other field at its creation value (R10, R11, R331). -/
def newTask (tid : Tid) (entry : Word) (kind : Nat) (prio ceil : BitVec 3) (level : Nat) (clabel : Label) (job : BitVec 16)
    (launch : Nat) : Task :=
  { Task.vacant with
    status := .ready, pc := entry, unitPc := entry, entry, tid, tidReg := tid, clabel, job, launch, ceil, eff := prio,
    tsw := BitVec.ofNat 64 (kind % 8 * 2 ^ 17 + prio.toNat * 2 ^ 12), tlevel := BitVec.ofNat 64 (level % 4) }

/-- Records the creation of a task (R402 TYPE 2). -/
def State.recordCreate (s : State) (t : Task) (how : Nat) (creator : Tid) : State :=
  s.record 2 t 0#16 t.entry (BitVec.ofNat 64 (how + creator.toNat * 2 ^ 16))

/-- Starts a task in a free slot. -/
def State.startAt (s : State) (n : Nat) (t : Task) : State :=
  let t := { t with status := .ready, eff := t.prio, age := 0, unitPc := t.pc }
  (s.fillSlot n t).record 3 t 0#16 t.entry (BitVec.ofNat 64 (t.kind + n * 256))

/-- A register of a new handler: its bits, untagged, under a label. -/
def plainVal (n : Nat) (label : Label) : Val := { bits := BitVec.ofNat 128 n, tag := false, label }

/-- The general registers g1 to g5 of a handler or upcall task; the others are zero. -/
def handlerRegs (g1 g2 g3 g4 g5 : Val) : Vector Val 16 :=
  ((((((Vector.replicate 16 Val.zero).set 1 g1).set 2 g2).set 3 g3).set 4 g4).set 5 g5)

/-! ### Routing (R291, R292) -/

/-- The cause word of R292. -/
def causeWord (cause detail level : Nat) (inTask : Bool) : Word :=
  BitVec.ofNat 64 (detail % 2 ^ 32 * 2 ^ 32 + (if inTask then 1024 else 0) + level % 4 * 256 + cause % 256)

/-- The destinations of a cause. -/
inductive Route where
  | inTask
  | upcall
  | level (h : BitVec 2)
  deriving DecidableEq, Repr

/-- The destination of a cause raised by the task at the port (R291). While UT is 1 the cause is routed as if UDELEG held
0 for it (R295). A declared access never finds its translation absent, because it uses the pin (R313). -/
def State.route (s : State) (cause : Nat) : Route :=
  let l := s.t.level
  let j := s.c.jobRegs s.t.job
  let p := s.d.partState s.part
  if l == 0 && bitAt j.udeleg cause && s.t.utvec != 0 && !s.t.ut then .inTask
  else if l == 0 && cause == 0x09 && j.upentry != 0 then .upcall
  else if l == 0 && bitAt p.sdeleg cause then .level 1
  else if l ≤ 1 && bitAt p.hdeleg cause then .level 2
  else .level 3

/-! ### In-task traps (R295) -/

/-- Delivers a cause inside the task: the group's buffer, latches and mark become held state and the task goes on at
UTVEC. -/
def Task.trapInside (t : Task) (pc cause value : Word) : Task :=
  { t with
    uepc := pc, ucause := cause, uval := value,
    held := some { buf := t.buf, lost := t.lost, parity := t.parity, l := t.l, lv := t.anchor.elim Entry.zero (·.lv), mark := t.mark },
    buf := [], lost := 0, parity := false, l := Val.zero, anchor := t.anchor.map (fun a => { a with lv := Entry.zero }), mark := none,
    tlevel := setBits t.tlevel 2 1 1, pc := t.utvec, unitPc := t.utvec, pfxImm := none, pfxMod := none,
    midGroup := false, predict := none, status := .ready }

/-! ### Upcalls and second-stage causes (R296, R306) -/

/-- Parks the faulting task awaiting notice, with its pc at the faulting unit and one inbox reservation. -/
def Task.awaitNotice (t : Task) (pc : Word) : Task :=
  { t with status := .parked .notice, pc, unitPc := pc, pfxImm := none, pfxMod := none, resv := t.resv + 1, noticed := false }

/-- Starts an upcall: the new task waits in the core's upcall queue for a slot. It has the PRIO of the faulting task, up to its own
ceiling, which is that of UPENTRY (R11). -/
def State.upcall (s : State) (pc cause value : Word) : State :=
  let f := s.t
  let (tid, s) := s.newTid s.t.job
  let entry := (s.c.jobRegs f.job).upentry
  let ceil := s.d.ceilOf f.launch entry
  let u := { newTask tid entry 0 (minPrio f.prio ceil) ceil 0 f.clabel f.job f.launch with
    g := handlerRegs (plainVal cause.toNat f.clabel) (plainVal value.toNat f.clabel) (plainVal f.tid.toNat f.clabel)
      (plainVal pc.toNat f.clabel) Val.zero }
  let s := { s with t := f.awaitNotice pc, c := { s.c with upcallQ := s.c.upcallQ ++ [u] } }
  (s.record 5 f 0#16 pc 6).recordCreate u 6 f.tid

/-! ### Traps to a higher level (R293) -/

/-- Draws a free doubleword. -/
def State.freeWord (s : State) : Word × State :=
  (Config.freeWord s.d.free, { s with d := { s.d with free := s.d.free + 1 } })

/-- A failure is recorded in the boot journal and, with KIND 1, in the cause table. The spec gives the record of a failure
that is no bring-up step neither STEP nor failure code: they are free values. -/
def State.noteFailure (s : State) (die : BitVec 2) (unit : Nat) : State :=
  let (a, s) := s.freeWord
  let r := jRecord 2 (bitsOf a.toNat 0 8) (die.toNat + unit * 4) (bitsOf a.toNat 8 32) s.d.boot.count.toNat 0
  { s with d := (s.d.journalAdd r).causeAdd 1 (s.d.partOf die).toNat 0xFF }

/-- Closes every bridge of a die (R366). -/
def Device.closeBridges (d : Device) (die : BitVec 2) : Device :=
  { d with brfw := vmod d.brfw die.toNat (fun w => setBits w 0 2 0) }

/-- A die is fenced: its partition stops and its bridges close (R356). -/
def State.fenceDie (s : State) (die : BitVec 2) : State :=
  let s := { s with d := ({ s.d with fencedDies := s.d.fencedDies ||| BitVec.ofNat 4 (2 ^ die.toNat) }).closeBridges die }
  s.noteFailure die 0

/-- The entry point of a level: STVEC, HTVEC, MTVEC. -/
def State.vector (s : State) (h : BitVec 2) : Word :=
  let p := s.d.partState s.part
  if h = 1 then p.stvec else if h = 2 then p.htvec else s.d.boot.mtvec[(CoreId.die s.c.id).toNat]?.getD 0

/-- Steps 2 and 3 of R293, once the outstanding operations of the task at the port have landed: the context is saved and
the handler task starts in the same slot. -/
def State.enterTrap (s : State) (h : BitVec 2) (cause value : Word) : State :=
  let f := s.t
  let n := s.c.port
  let (area, s) := s.saveTask 0xFF none (some n) false
  let (tid, s) := s.newTid f.job
  let total := s.d.gmem.mem.read (area + 392) 8
  let lab := f.clabel
  let cap := (exactCap (2 ^ 56 + area) total (pLD + pST + pLDCAP + pSTCAP) 1 0#16).getD Val.zero
  let u := { newTask tid (s.vector h) 0 7 7 h.toNat lab f.job f.launch with
    g := handlerRegs (plainVal cause.toNat lab) (plainVal value.toNat lab) (plainVal f.tid.toNat lab)
      (plainVal f.pc.toNat lab) cap,
    trapped := some area }
  (s.recordCreate u 7 f.tid).startAt n.toNat u

/-- The task as it is found at the address a cause names: no part of its unit has been taken. -/
def Task.backTo (t : Task) (pc : Word) : Task := { t with pc, unitPc := pc, pfxImm := none, pfxMod := none }

/-- A trap to level h: at once when nothing of the task is outstanding, else when its operations have landed. A vector of
0, and machine level, stop the task and withdraw its launch (R291 step 5, R355); a cause that a task of machine level raises
fences its die (R291). -/
def State.trapTo (s : State) (h : BitVec 2) (pc cause value : Word) : State :=
  let s := { s with t := s.t.backTo pc }
  if s.t.level = 3 then
    let die := CoreId.die s.c.id
    let fenced := s.d.fencedDies.getLsbD die.toNat
    let s := s.stopAndWithdraw cause
    if fenced then s else s.fenceDie die
  else if h = 3 ∨ s.vector h = 0 then s.stopAndWithdraw cause
  else
    let t := { s.t with status := .ready }
    let s := { s with t }
    if s.quiet then s.enterTrap h cause value
    else { s with t := { t with trap := some (h, cause, value), status := .parked .trap } }

/-! ### Raising -/

/-- Raises a cause at an address, with DETAIL and the value that accompanies it: the unit, when it is the faulting one,
has had no effect, and the address is that of its first word; for the causes of R293 step 1 that are raised after their
unit it is that of the unit after it. -/
def State.raiseAt (s : State) (pc : Word) (cause detail : Nat) (value : Word) : State :=
  let cw := causeWord cause detail s.t.level false
  let s := s.record 11 s.t 0#16 pc cw
  if s.t.onHearth then { s with t := { s.t with status := .stopped, ucause := cw, pc } }
  else match s.route cause with
    | .inTask => { s with t := s.t.trapInside pc (causeWord cause detail s.t.level true) value }
    | .upcall => s.upcall pc cw value
    | .level h => s.trapTo h pc cw value

/-- Raises a cause at the unit being issued. -/
def State.raise (s : State) (cause : Nat) (detail : Nat := 0) (value : Word := 0) : State :=
  s.raiseAt s.t.unitPc cause detail value

/-- A cause of the second stage (R306): the task awaits notice and a hypervisor handler waits for a free slot. -/
def State.raiseHyp (s : State) (cause detail : Nat) (va ia : Word) : State :=
  let f := s.t
  let pc := f.unitPc
  let cw := causeWord cause detail f.level false
  let s := s.record 11 f 0#16 pc cw
  if f.onHearth then { s with t := { f with status := .stopped, ucause := cw, pc } }
  else if s.vector 2 = 0 then ({ s with t := f.backTo pc }).stopAndWithdraw cw
  else
    let (tid, s) := s.newTid f.job
    let lab := f.clabel
    let u := { newTask tid (s.vector 2) 0 7 7 2 lab f.job f.launch with
      g := handlerRegs (plainVal cw.toNat lab) (plainVal va.toNat lab) (plainVal f.tid.toNat lab) (plainVal pc.toNat lab)
        (plainVal ia.toNat lab) }
    let s := { s with t := f.awaitNotice pc, c := { s.c with upcallQ := s.c.upcallQ ++ [u] } }
    (s.record 5 f 0#16 pc 6).recordCreate u 7 f.tid

/-- A failure that belongs to no running task (R354): a supervisor handler task at STVEC, in the core's upcall queue. -/
def State.report (s : State) (core : CoreId) (cause detail : Nat) (value : Word) (job : BitVec 16) (launch : Nat)
    (label : Label) : State :=
  s.atCore core (fun s =>
    if s.vector 1 = 0 then (s.dump (causeWord cause detail 0 false) 0).withdraw launch
    else
      let (tid, s) := s.newTid job
      let u := { newTask tid (s.vector 1) 0 7 7 1 label job launch with
        g := handlerRegs (plainVal (causeWord cause detail 0 false).toNat label) (plainVal value.toNat label) Val.zero
          Val.zero Val.zero }
      ({ s with c := { s.c with upcallQ := s.c.upcallQ ++ [u] } }).recordCreate u 7 0)

end Sys2Proof.Machine
end

