-- ==== Sys2Proof/Machine/Operands.lean ====
section
/-! DEFINITION. How an instruction reads its operands and delivers its results: the checks common to every form (R102,
R105), the registers (R34, R35, R97), the group write buffer and the latches (R18 to R20), the vector state (R36 to R40),
and the end of a unit. -/

namespace Sys2Proof.Machine

/-! ### Prefixes (R104 to R106) -/

/-- The prefix fields that a form accepts. -/
structure Accept where
  imm : Bool
  mig : Bool
  msk : Bool
  deriving DecidableEq, Repr

def Accept.none : Accept := { imm := false, mig := false, msk := false }
def Accept.immOnly : Accept := { imm := true, mig := false, msk := false }
/-- ld, st, vld, vst. -/
def Accept.mem : Accept := { imm := true, mig := true, msk := false }
/-- atom, fatom. -/
def Accept.migOnly : Accept := { imm := false, mig := true, msk := false }
def Accept.mskOnly : Accept := { imm := false, mig := false, msk := true }

/-- Whether a consumer accepts the prefixes before it. -/
def Task.accepts (t : Task) (a : Accept) : Bool :=
  (a.imm || t.pfxImm.isNone) &&
  (match t.pfxMod with
   | none => true
   | some m => (a.mig || m.mig == .none) && (a.msk || m.msk.isNone))

/-- The width and value of an immediate field of width w, widened by a hint.imm (R106). -/
def Task.field (t : Task) (w v : Nat) : Nat × Nat :=
  match t.pfxImm with
  | some ext => (w + 20, ext.toNat * 2 ^ w + v)
  | none => (w, v)
def Task.immS (t : Task) (w v : Nat) : Int := signed (t.field w v).1 (t.field w v).2
def Task.immZ (t : Task) (w v : Nat) : Nat := (t.field w v).2

/-! ### Scalar registers (R34, R35, R97) -/

/-- The value of a general register; one whose parity failed holds a free value (R358, log entry 14). -/
def State.g (s : State) (n : BitVec 4) : Val :=
  let v := s.t.g[n.toNat]?.getD Val.zero
  if s.t.gpoison.getLsbD n.toNat then
    { v with bits := (Config.freeRow s.d.free).setWidth 128, tag := false }
  else v

/-- The value of a source. A maintenance port gives the doubleword that the unit popped. -/
def State.rd (s : State) : SReg → Val
  | .g n => s.g n
  | .l => s.t.l
  | .zero => Val.zero
  | .tid => { bits := s.t.tidReg.setWidth 128, tag := false, label := 0#16 }
  | .q p => { bits := (s.t.qin[p.toNat]?.getD 0).setWidth 128, tag := false, label := 0#16 }

/-- Bits [63:0] of a source. -/
def State.x (s : State) (r : SReg) : Word := (s.rd r).bits.setWidth 64
/-- The label of a source. -/
def State.lab (s : State) (r : SReg) : Label := (s.rd r).label

/-- The label of a result: the union of the labels of its sources and the control label (R49). -/
def State.labs (s : State) (rs : List SReg) : Label := rs.foldl (fun a r => a ||| s.lab r) s.t.clabel

/-- Whether an instruction with this destination is result-writing (R20). -/
def srWrites : SReg → Bool
  | .g _ => true
  | _ => false

/-- The maintenance ports that a list of registers names. -/
def portsOf (rs : List SReg) : List (BitVec 3) :=
  (rs.filterMap (fun r => match r with | .q p => some p | _ => none)).eraseDups

/-- Reads the oldest doubleword of each port, or answers the first port that has none. -/
def State.readPorts (s : State) : List (BitVec 3) → Except (BitVec 3) State
  | [] => .ok s
  | p :: r =>
    match s.d.qpop (CoreId.die s.c.id) p with
    | none => .error p
    | some (v, _) => State.readPorts { s with t := { s.t with qin := s.t.qin.setIfInBounds p.toNat v } } r

/-- The doublewords that the unit has read leave their ports. -/
def State.takePorts (s : State) : State :=
  if s.t.qtake.isEmpty then s
  else { s with
    t := { s.t with qtake := [] },
    d := s.t.qtake.foldl (fun d p => (d.qpop (CoreId.die s.c.id) p).elim d (·.2)) s.d }

/-- The maintenance port part of issue: outside maintenance mode the names are illegal, a read of an empty port and a
write of a full one park. A unit that faults or waits leaves the ports as they were: they are popped where it ends. -/
def State.withPorts (s : State) (srcs : List SReg) (dst : SReg) (k : State → State) : State :=
  let ins := portsOf srcs
  let outs := portsOf [dst]
  if ins.isEmpty && outs.isEmpty then k s
  else if !s.t.maint then s.raise 0x01
  else match outs.find? (fun p => s.d.qfull (CoreId.die s.c.id) p) with
    | some p => s.park (.qport p true)
    | none => match s.readPorts ins with
      | .error p => s.park (.qport p false)
      | .ok s =>
        let s := k { s with t := { s.t with qtake := ins } }
        { s with t := { s.t with qtake := [] } }

/-- The checks before any effect: the unit is well formed, its maintenance ports are there, and a seventeenth
result-writing instruction raises group overflow (R20). `results` says whether the instruction is result-writing. -/
def State.issueWith (s : State) (a : Accept) (srcs : List SReg) (dst : SReg) (results : Bool) (k : State → State) : State :=
  if !(s.t.accepts a) then s.raise 0x01
  else s.withPorts srcs dst (fun s => if results && decide (16 ≤ s.t.buf.length + s.t.lost) then s.raise 0x0D else k s)

/-- The checks of a form with a scalar destination. -/
def State.issue (s : State) (a : Accept) (srcs : List SReg) (dst : SReg) (k : State → State) : State :=
  s.issueWith a srcs dst (srWrites dst) k

/-- The checks of a form without a destination. -/
def State.issueNone (s : State) (a : Accept) (srcs : List SReg) (k : State → State) : State :=
  s.issueWith a srcs .zero false k

/-- The level check of a form (check 5 of R102), which comes after the checks of its words and before its own. -/
def State.needs (s : State) (regs : List SReg) (level : Nat) (k : State → State) : State :=
  if !(s.t.accepts Accept.none) || (!(portsOf regs).isEmpty && !s.t.maint) then s.raise 0x01
  else if s.t.level < level then s.raise 0x16 else k s

/-! ### Results -/

/-- Adds an entry to the group write buffer. -/
def Task.buffer (t : Task) (e : BufEntry) : Task := { t with buf := t.buf ++ [e] }

/-- Delivers a result to a destination that is not a maintenance port: a general register through the buffer, L at once;
a fixed-latency scalar ALU instruction (`alu`) writes L whatever its destination (R19). -/
def Task.deliver (t : Task) (alu : Bool) (d : SReg) (v : Val) : Task :=
  let t := match d with
    | .g n => t.buffer (.g n v)
    | _ => t
  if alu then { t with l := v } else t

/-- Delivers a result and goes on; a push onto a maintenance port checks the label first (R298). -/
def State.put (s : State) (alu : Bool) (d : SReg) (v : Val) (k : State → State) : State :=
  match d with
  | .q p =>
    if v.label ||| s.t.clabel ≠ 0#16 then s.raise 0x0B ((v.label ||| s.t.clabel).toNat * 65536)
    else k { s with t := s.t.deliver alu d v, d := s.d.qpush (CoreId.die s.c.id) p (v.bits.setWidth 64) }
  | _ => k { s with t := s.t.deliver alu d v }

/-- Where an instruction whose result comes later has it delivered. -/
def laterDest : SReg → Option Dest
  | .g n => some (.g n)
  | .q p => some (.q p)
  | _ => none

/-- The place in the buffer that awaits the result of an operation; a maintenance port has none. -/
def State.await (s : State) (id : Nat) (d : Option Dest) : State :=
  match d with
  | none | some (.q _) => s
  | some d => { s with t := s.t.buffer (.wait id d) }

/-- A scalar result: bits [63:0], untagged (R131). -/
def wordVal (w : Word) (label : Label) : Val := { bits := w.setWidth 128, tag := false, label }

/-! ### The end of a unit -/

/-- Ends a unit with the program counter at `pc`: prefixes are used up, and the switch marker parks the task until its
group's results have arrived (R17). -/
def State.finishAt (s : State) (sw : Bool) (pc : Word) : State :=
  let s := s.takePorts
  let t := { s.t with pc, unitPc := pc, pfxImm := none, pfxMod := none, midGroup := true }
  if sw then ({ s with t := { t with status := .parked .group } }).record 5 t 0#16 s.t.unitPc 0
  else { s with t }

/-- Ends a unit at the word after the consumer. -/
def State.finish (s : State) (sw : Bool) : State := s.finishAt sw (s.t.pc + 4)

/-- Raises the control label (R50). -/
def State.raiseLabel (s : State) (l : Label) : State := { s with t := { s.t with clabel := s.t.clabel ||| l } }

/-! ### The forms of the scalar pipe -/

/-- A fixed-latency scalar ALU instruction whose result is the 64 bits `f` of its sources (R131). -/
def State.alu (s : State) (a : Accept) (sw : Bool) (srcs : List SReg) (d : SReg) (f : State → Word) : State :=
  s.issue a srcs d (fun s => s.put true d (wordVal (f s) (s.labs srcs)) (fun s => s.finish sw))

/-- A fixed-latency scalar ALU instruction with a 128-bit or tagged result, which may raise a cause instead. -/
def State.aluVal (s : State) (a : Accept) (sw : Bool) (srcs : List SReg) (d : SReg) (f : State → Except Nat Val) : State :=
  s.issue a srcs d (fun s => match f s with
    | .error c => s.raise c (if c = 0x02 then 1 else 0)
    | .ok v => s.put true d v (fun s => s.finish sw))

/-- The address that accompanies a cause (R292): for causes 0x05 to 0x0B and 0x18. -/
def causeValue (c : Nat) (addr : Nat) : Word :=
  if (0x05 ≤ c ∧ c ≤ 0x0B) ∨ c = 0x18 then BitVec.ofNat 64 addr else 0

/-- A floating instruction (R145): its flags go into TSW, an enabled one traps without a result (R58). -/
def State.float (s : State) (sw : Bool) (srcs : List SReg) (d : SReg) (f : State → Nat × Nat) : State :=
  s.issue Accept.none srcs d (fun s =>
    let (r, fl) := f s
    let lab := s.labs srcs
    let s := { s with t := s.t.orFlags fl lab }
    if s.t.fpTraps fl then s.raise 0x10 fl
    else s.put false d { bits := BitVec.ofNat 128 r, tag := false, label := lab } (fun s => s.finish sw))

/-! ### Vector state (R36 to R40) -/

/-- Runs with the anchor of the task at the port; a task that is not anchored may name none of it (R36). -/
def State.withAnchor (s : State) (k : Anchor → State) : State :=
  match s.t.anchor with
  | some a => k a
  | none => s.raise 0x01

/-- An operand entry as it stood at the start of the group, LV as it stands, ZV. -/
def Anchor.rd (a : Anchor) : VReg → Entry
  | .o n => a.o[n.toNat]?.getD Entry.zero
  | .lv => a.lv
  | .zv => Entry.zero

/-- The tag check of R40; ZV satisfies every one (R36). -/
def Anchor.tagOk (a : Anchor) (r : VReg) (f : FTag) : Bool := r == .zv || (a.rd r).fmt == f

/-- Whether the anchor holds a tile. -/
def Anchor.holds (a : Anchor) (tile : BitVec 3) : Bool := a.tiles.getLsbD tile.toNat

/-- A tile of the core in focus. -/
def State.tile (s : State) (t : BitVec 3) : Tile := s.c.tiles[t.toNat]?.getD Tile.zero

/-- The tile that an engine word names, with a mask of the tiles it uses (R189). -/
def wordTiles (w : IWord) : BitVec 8 :=
  let bit (t : BitVec 3) : BitVec 8 := BitVec.ofNat 8 (2 ^ t.toNat)
  match decodeWord w.toNat with
  | .ok (.mxMma _ _ t) | .ok (.mxMmaz _ _ t) | .ok (.mxZero _ _ t) => bit t
  | .ok (.sortLoad _ _ _ t _ _ _) | .ok (.sortStore _ _ _ t _ _ _) | .ok (.sortRun _ _ t _ _ _)
  | .ok (.sortRows _ t _ _ _) | .ok (.sortTopk _ _ _ t _ _ _) => bit t ||| bit (t + 1)
  | _ => 0

/-- The tiles that the words still to run of a forked program name. -/
def Prog.tiles (p : Prog) : BitVec 8 :=
  if p.ended then 0 else (p.words.drop p.next).foldl (fun m w => m ||| wordTiles w) 0

/-- The tiles that engine operations on the core use: accepted operations and forked programs (R38). -/
def State.busyTiles (s : State) : BitVec 8 :=
  let bit (t : BitVec 3) : BitVec 8 := BitVec.ofNat 8 (2 ^ t.toNat)
  let m := s.c.mx.foldl (fun m o => m ||| bit o.tile) 0
  let m := s.c.srt.foldl (fun m o => m ||| bit o.tile ||| bit (o.tile + 1)) m
  s.whole.tasks.foldl (fun m p => match p.2.anchor with
    | some a => m ||| (match a.mprog with | some q => q.tiles | none => 0) |||
        (match a.sprog with | some q => q.tiles | none => 0)
    | none => m) m

/-- The tag that a tile will hold once the rows buffered before are applied (R37). -/
def State.tileTag (s : State) (t : BitVec 3) : FTag :=
  if (s.tile t).fmt ≠ .none then (s.tile t).fmt
  else (s.t.buf.findSome? (fun e => match e with
    | .row u _ e => if u = t ∧ e.fmt ≠ .none then some e.fmt else none
    | _ => none)).getD .none

/-- Runs when the anchor holds a tile, which is a check of the word (R36, R102 check 3). -/
def State.holding (s : State) (a : Anchor) (tile : BitVec 3) (k : State → State) : State :=
  if a.holds tile then k s else s.raise 0x01

/-- Runs with a tile row that may be read: the tile is the task's and no engine operation uses it (R36, R38). -/
def State.withRow (s : State) (a : Anchor) (t : BitVec 3) (k : State → State) : State :=
  if !(a.holds t) then s.raise 0x01
  else if s.busyTiles.getLsbD t.toNat then s.park (.tiles (BitVec.ofNat 8 (2 ^ t.toNat)))
  else k s

/-- Changes the anchor of the task at the port. -/
def State.modAnchor (s : State) (f : Anchor → Anchor) : State := { s with t := { s.t with anchor := s.t.anchor.map f } }

/-- The result of a vector ALU instruction: LV, and an operand entry through the buffer (R19, R220). -/
def State.putVector (s : State) (d : VReg) (e : Entry) : State :=
  let s := s.modAnchor (fun a => { a with lv := e })
  match d with
  | .o n => { s with t := s.t.buffer (.o n e) }
  | _ => s

/-- Whether a form with this vector destination is result-writing (R220). -/
def vrWrites : VReg → Bool
  | .o _ => true
  | _ => false

end Sys2Proof.Machine
end

