-- ==== Sys2Proof/Machine/Scalar.lean ====
section
/-! DEFINITION. The integer instructions of the scalar pipe (R133 to R137). -/

namespace Sys2Proof.Machine

/-- What a meaning answers. -/
abbrev Out := Host.Outcome State Fault Refusal

/-! ### Functions of one word -/

/-- Leading zeros; 64 for 0. -/
def clz64 (x : Word) : Nat := if x = 0 then 64 else 63 - Nat.log2 x.toNat
/-- Trailing zeros, counted up from bit i. -/
def ctzFrom (x : Word) : Nat → Nat
  | 0 => 0
  | n + 1 => if x.getLsbD (63 - n) then 0 else 1 + ctzFrom x n
/-- Trailing zeros; 64 for 0. -/
def ctz64 (x : Word) : Nat := ctzFrom x 64
/-- Ones in bits below n. -/
def popcBelow (x : Word) : Nat → Nat
  | 0 => 0
  | n + 1 => (if x.getLsbD n then 1 else 0) + popcBelow x n
/-- The bytes of a word in reverse order. -/
def bswap64 (x : Word) : Word := BitVec.ofNat 64 (ofBytes (toBytes 8 x.toNat).reverse)
/-- POS and LEN of a bit-field operand (R136). -/
def bfPos (y : Word) : Nat := bitsOf y.toNat 0 6
def bfLen (y : Word) : Nat := bitsOf y.toNat 8 7
/-- Bits [pos:0] of x, sign-extended or zero-extended. -/
def sextAt (x y : Word) : Word := BitVec.ofInt 64 (signed (bfPos y + 1) x.toNat)
def zextAt (x y : Word) : Word := BitVec.ofNat 64 (x.toNat % 2 ^ (bfPos y + 1))
/-- The field of x, clipped at bit 63; 0 when LEN is 0. -/
def bextAt (x y : Word) : Word := BitVec.ofNat 64 (bitsOf x.toNat (bfPos y) (bfLen y))
/-- z with the field replaced by the low bits of x, clipped at bit 63. -/
def binsAt (z x y : Word) : Word :=
  let len := min (bfLen y) (64 - bfPos y)
  setBits z (bfPos y) len x.toNat
/-- The upper half of a product given as an integer. -/
def mulHigh (p : Int) : Word := BitVec.ofInt 64 (p / 2 ^ 64)
/-- 1 or 0. -/
def ofBool (b : Bool) : Word := if b then 1 else 0

/-! ### Shapes -/

/-- ialu, ibit and the fixed-latency imul forms with two sources. -/
def State.alu2 (s : State) (sw : Bool) (d a b : SReg) (f : Word → Word → Word) : State :=
  s.alu Accept.none sw [a, b] d (fun s => f (s.x a) (s.x b))
/-- The forms with b unused. -/
def State.alu1 (s : State) (sw : Bool) (d a : SReg) (f : Word → Word) : State :=
  s.alu Accept.none sw [a] d (fun s => f (s.x a))
/-- ialui with a sign-extended immediate. -/
def State.aluS (s : State) (sw : Bool) (d a : SReg) (imm : BitVec 12) (f : Word → Word → Word) : State :=
  s.alu Accept.immOnly sw [a] d (fun s => f (s.x a) (BitVec.ofInt 64 (s.t.immS 12 imm.toNat)))
/-- ialui with a zero-extended immediate. -/
def State.aluZ (s : State) (sw : Bool) (d a : SReg) (imm : BitVec 12) (f : Word → Word → Word) : State :=
  s.alu Accept.immOnly sw [a] d (fun s => f (s.x a) (BitVec.ofNat 64 (s.t.immZ 12 imm.toNat)))
/-- An ialui shift: every bit of the field above imm[5:0] is zero, EXT included (R134). -/
def State.aluSh (s : State) (sw : Bool) (d a : SReg) (sh : BitVec 6) (f : Word → Nat → Word) : State :=
  if s.t.pfxImm.any (· != 0) then s.raise 0x01
  else s.alu Accept.immOnly sw [a] d (fun s => f (s.x a) sh.toNat)
/-- imul div, divu, rem, remu: a divisor of 0 raises integer divide by zero at issue (R132); no latch is written. -/
def State.divide (s : State) (sw : Bool) (d a b : SReg) (f : Word → Word → Word) : State :=
  s.issue Accept.none [a, b] d (fun s =>
    if s.x b = 0 then s.raise 0x0F
    else s.put false d (wordVal (f (s.x a) (s.x b)) (s.labs [a, b])) (fun s => s.finish sw))

/-! ### ialu (R133) -/

/-- `ialu.add` (R133): x + y modulo 2^64. -/
def execIaluAdd (sw : Bool) (d a b : SReg) (s : State) : Out :=
  .next (s.alu2 sw d a b (fun x y => x + y))

/-- `ialu.sub` (R133): x − y modulo 2^64. -/
def execIaluSub (sw : Bool) (d a b : SReg) (s : State) : Out :=
  .next (s.alu2 sw d a b (fun x y => x - y))

/-- `ialu.and` (R133): x & y. -/
def execIaluAnd (sw : Bool) (d a b : SReg) (s : State) : Out :=
  .next (s.alu2 sw d a b (fun x y => x &&& y))

/-- `ialu.or` (R133): x | y. -/
def execIaluOr (sw : Bool) (d a b : SReg) (s : State) : Out :=
  .next (s.alu2 sw d a b (fun x y => x ||| y))

/-- `ialu.xor` (R133): x ^ y. -/
def execIaluXor (sw : Bool) (d a b : SReg) (s : State) : Out :=
  .next (s.alu2 sw d a b (fun x y => x ^^^ y))

/-- `ialu.andn` (R133): x & ~y. -/
def execIaluAndn (sw : Bool) (d a b : SReg) (s : State) : Out :=
  .next (s.alu2 sw d a b (fun x y => x &&& ~~~y))

/-- `ialu.sll` (R133): x shifted left by y[5:0]. -/
def execIaluSll (sw : Bool) (d a b : SReg) (s : State) : Out :=
  .next (s.alu2 sw d a b (fun x y => x <<< (y.toNat % 64)))

/-- `ialu.srl` (R133): x shifted right by y[5:0], zeros entering. -/
def execIaluSrl (sw : Bool) (d a b : SReg) (s : State) : Out :=
  .next (s.alu2 sw d a b (fun x y => x >>> (y.toNat % 64)))

/-- `ialu.sra` (R133): x shifted right by y[5:0], copies of x[63] entering. -/
def execIaluSra (sw : Bool) (d a b : SReg) (s : State) : Out :=
  .next (s.alu2 sw d a b (fun x y => x.sshiftRight (y.toNat % 64)))

/-- `ialu.slt` (R133): 1 if x < y as signed values, else 0. -/
def execIaluSlt (sw : Bool) (d a b : SReg) (s : State) : Out :=
  .next (s.alu2 sw d a b (fun x y => ofBool (x.slt y)))

/-- `ialu.sltu` (R133): 1 if x < y as unsigned values, else 0. -/
def execIaluSltu (sw : Bool) (d a b : SReg) (s : State) : Out :=
  .next (s.alu2 sw d a b (fun x y => ofBool (x.ult y)))

/-- `ialu.min` (R133): signed minimum. -/
def execIaluMin (sw : Bool) (d a b : SReg) (s : State) : Out :=
  .next (s.alu2 sw d a b (fun x y => if x.slt y then x else y))

/-- `ialu.max` (R133): signed maximum. -/
def execIaluMax (sw : Bool) (d a b : SReg) (s : State) : Out :=
  .next (s.alu2 sw d a b (fun x y => if x.slt y then y else x))

/-- `ialu.minu` (R133): unsigned minimum. -/
def execIaluMinu (sw : Bool) (d a b : SReg) (s : State) : Out :=
  .next (s.alu2 sw d a b (fun x y => if x.ult y then x else y))

/-- `ialu.maxu` (R133): unsigned maximum. -/
def execIaluMaxu (sw : Bool) (d a b : SReg) (s : State) : Out :=
  .next (s.alu2 sw d a b (fun x y => if x.ult y then y else x))

/-! ### ialui (R134) -/

/-- `ialui.add` (R134): x + the sign-extended immediate. -/
def execIaluiAdd (sw : Bool) (d a : SReg) (imm : BitVec 12) (s : State) : Out :=
  .next (s.aluS sw d a imm (fun x y => x + y))

/-- `ialui.and` (R134), with the zero-extended immediate. -/
def execIaluiAnd (sw : Bool) (d a : SReg) (imm : BitVec 12) (s : State) : Out :=
  .next (s.aluZ sw d a imm (fun x y => x &&& y))

/-- `ialui.or` (R134), with the zero-extended immediate. -/
def execIaluiOr (sw : Bool) (d a : SReg) (imm : BitVec 12) (s : State) : Out :=
  .next (s.aluZ sw d a imm (fun x y => x ||| y))

/-- `ialui.xor` (R134), with the zero-extended immediate. -/
def execIaluiXor (sw : Bool) (d a : SReg) (imm : BitVec 12) (s : State) : Out :=
  .next (s.aluZ sw d a imm (fun x y => x ^^^ y))

/-- `ialui.sll` (R134), by imm[5:0]. -/
def execIaluiSll (sw : Bool) (d a : SReg) (sh : BitVec 6) (s : State) : Out :=
  .next (s.aluSh sw d a sh (fun x n => x <<< n))

/-- `ialui.srl` (R134), by imm[5:0]. -/
def execIaluiSrl (sw : Bool) (d a : SReg) (sh : BitVec 6) (s : State) : Out :=
  .next (s.aluSh sw d a sh (fun x n => x >>> n))

/-- `ialui.sra` (R134), by imm[5:0]. -/
def execIaluiSra (sw : Bool) (d a : SReg) (sh : BitVec 6) (s : State) : Out :=
  .next (s.aluSh sw d a sh (fun x n => x.sshiftRight n))

/-- `ialui.slt` (R134): signed compare with the sign-extended immediate. -/
def execIaluiSlt (sw : Bool) (d a : SReg) (imm : BitVec 12) (s : State) : Out :=
  .next (s.aluS sw d a imm (fun x y => ofBool (x.slt y)))

/-! ### lui (R135) -/

/-- `lui` (R135): the immediate above twelve zero bits, sign-extended from 32 or 52 bits. -/
def execLui (sw : Bool) (d : SReg) (imm : BitVec 20) (s : State) : Out :=
  .next (s.alu Accept.immOnly sw [] d (fun s =>
    BitVec.ofInt 64 (signed ((s.t.field 20 imm.toNat).1 + 12) ((s.t.field 20 imm.toNat).2 * 4096))))

/-! ### ibit (R136) -/

/-- `ibit.clz` (R136): leading zeros, 64 for 0. -/
def execIbitClz (sw : Bool) (d a : SReg) (s : State) : Out :=
  .next (s.alu1 sw d a (fun x => BitVec.ofNat 64 (clz64 x)))

/-- `ibit.ctz` (R136): trailing zeros, 64 for 0. -/
def execIbitCtz (sw : Bool) (d a : SReg) (s : State) : Out :=
  .next (s.alu1 sw d a (fun x => BitVec.ofNat 64 (ctz64 x)))

/-- `ibit.popc` (R136): ones. -/
def execIbitPopc (sw : Bool) (d a : SReg) (s : State) : Out :=
  .next (s.alu1 sw d a (fun x => BitVec.ofNat 64 (popcBelow x 64)))

/-- `ibit.brev` (R136): bit i moved to bit 63 − i. -/
def execIbitBrev (sw : Bool) (d a : SReg) (s : State) : Out :=
  .next (s.alu1 sw d a (fun x => x.reverse))

/-- `ibit.bswap` (R136): byte i moved to byte 7 − i. -/
def execIbitBswap (sw : Bool) (d a : SReg) (s : State) : Out :=
  .next (s.alu1 sw d a (fun x => bswap64 x))

/-- `ibit.sext` (R136): x[pos:0], sign-extended. -/
def execIbitSext (sw : Bool) (d a b : SReg) (s : State) : Out :=
  .next (s.alu2 sw d a b (fun x y => sextAt x y))

/-- `ibit.zext` (R136): x[pos:0], zero-extended. -/
def execIbitZext (sw : Bool) (d a b : SReg) (s : State) : Out :=
  .next (s.alu2 sw d a b (fun x y => zextAt x y))

/-- `ibit.bext` (R136): x[pos+len−1:pos], zero-extended, 0 when len = 0. -/
def execIbitBext (sw : Bool) (d a b : SReg) (s : State) : Out :=
  .next (s.alu2 sw d a b (fun x y => bextAt x y))

/-- `ibit.bins` (R136): G[d] is a third source, read at the start of the group; its label joins. -/
def execIbitBins (sw : Bool) (d a b : SReg) (s : State) : Out :=
  .next (s.alu Accept.none sw [a, b, d] d (fun s => binsAt (s.x d) (s.x a) (s.x b)))

/-- `ibit.rol` (R136): x rotated by y[5:0]. -/
def execIbitRol (sw : Bool) (d a b : SReg) (s : State) : Out :=
  .next (s.alu2 sw d a b (fun x y => x.rotateLeft (y.toNat % 64)))

/-- `ibit.ror` (R136): x rotated by y[5:0]. -/
def execIbitRor (sw : Bool) (d a b : SReg) (s : State) : Out :=
  .next (s.alu2 sw d a b (fun x y => x.rotateRight (y.toNat % 64)))

/-! ### imul (R137) -/

/-- `imul.mul` (R137): bits [63:0] of the product. -/
def execImulMul (sw : Bool) (d a b : SReg) (s : State) : Out :=
  .next (s.alu2 sw d a b (fun x y => x * y))

/-- `imul.mulh` (R137): bits [127:64] of the signed product. -/
def execImulMulh (sw : Bool) (d a b : SReg) (s : State) : Out :=
  .next (s.alu2 sw d a b (fun x y => mulHigh (x.toInt * y.toInt)))

/-- `imul.mulhu` (R137): bits [127:64] of the unsigned product. -/
def execImulMulhu (sw : Bool) (d a b : SReg) (s : State) : Out :=
  .next (s.alu2 sw d a b (fun x y => mulHigh ((x.toNat * y.toNat : Nat) : Int)))

/-- `imul.mulhsu` (R137): bits [127:64] of x signed times y unsigned. -/
def execImulMulhsu (sw : Bool) (d a b : SReg) (s : State) : Out :=
  .next (s.alu2 sw d a b (fun x y => mulHigh (x.toInt * (y.toNat : Int))))

/-- `imul.div` (R137): signed quotient truncated toward zero. -/
def execImulDiv (sw : Bool) (d a b : SReg) (s : State) : Out :=
  .next (s.divide sw d a b (fun x y => x.sdiv y))

/-- `imul.divu` (R137): unsigned quotient. -/
def execImulDivu (sw : Bool) (d a b : SReg) (s : State) : Out :=
  .next (s.divide sw d a b (fun x y => x / y))

/-- `imul.rem` (R137): signed remainder with the sign of x. -/
def execImulRem (sw : Bool) (d a b : SReg) (s : State) : Out :=
  .next (s.divide sw d a b (fun x y => x.srem y))

/-- `imul.remu` (R137): unsigned remainder. -/
def execImulRemu (sw : Bool) (d a b : SReg) (s : State) : Out :=
  .next (s.divide sw d a b (fun x y => x % y))

end Sys2Proof.Machine
end

