-- ==== Sys2Proof/Machine/Capability.lean ====
section
/-! DEFINITION. The capability instructions (R138 to R141). -/

namespace Sys2Proof.Machine

/-- An integer modulo 2^65, in bits [64:0] (R138). -/
def mod65 (v : Int) : Quad := BitVec.ofInt 128 (v % 2 ^ 65)

/-- A get form: an untagged result of the fields of G[a], tagged or not (R138). -/
def State.capGet (s : State) (sw : Bool) (d a : SReg) (f : Val → Quad) : State :=
  s.aluVal Accept.none sw [a] d (fun s => .ok { bits := f (s.rd a), tag := false, label := s.labs [a] })

/-- A capability with another cursor: the tag stays only if the bounds decode unchanged (R139). -/
def withCursor (v : Val) (cursor : Nat) (label : Label) : Val :=
  { bits := BitVec.ofNat 128 (v.bits.toNat / 2 ^ 64 * 2 ^ 64 + cursor % 2 ^ 64), label,
    tag := v.tag && decide (boundsAt v.bits (cursor % 2 ^ 64) = boundsAt v.bits (capCursor v.bits)) }

/-- The smallest exponent k at which [lo, hi) rounded outward to 2^k fits, from 44 down (R140). -/
def fitExp (lo hi : Nat) : Nat → Nat → Nat
  | 0, e => e
  | k + 1, e =>
    let lk := lo / 2 ^ k * 2 ^ k
    let hk := (hi + 2 ^ k - 1) / 2 ^ k * 2 ^ k
    fitExp lo hi k (if hk - lk ≤ 2 ^ k * (2 ^ 20 - 2 ^ 12) then k else e)

/-- The narrowing of a capability to `len` bytes from its cursor (R140). A result whose bounds do not decode in order raises bounds:
a range of exactly 2^e × (2^20 − 2^12) bytes fits, and its T then decodes below its base (R43). -/
def narrow (v : Val) (len : Nat) (exact : Bool) (label : Label) : Except Nat Val :=
  if !v.tag then .error 0x04
  else
    let lo := capCursor v.bits
    let hi := lo + len
    if (lo : Int) < capBase v.bits ∨ capTop v.bits < (hi : Int) then .error 0x05
    else
      let e := fitExp lo hi 44 44
      let lo2 := lo / 2 ^ e * 2 ^ e
      let hi2 := (hi + 2 ^ e - 1) / 2 ^ e * 2 ^ e
      if (lo2 : Int) < capBase v.bits ∨ capTop v.bits < (hi2 : Int) then .error 0x05
      else if exact && (lo2 != lo || hi2 != hi) then .error 0x05
      else
        let q := mkCap (hi2 / 2 ^ e) (lo2 / 2 ^ e) e (capPerm v.bits) (capSpace v.bits) lo
        if capBase q < 0 ∨ 2 ^ 64 < capTop q ∨ capTop q < capBase q then .error 0x05
        else .ok { bits := q, tag := true, label }

/-- A capability with fewer permissions (R141). -/
def andPerm (v : Val) (m : Nat) (label : Label) : Val :=
  { bits := BitVec.ofNat 128 (v.bits.toNat - capPerm v.bits * 2 ^ 68 + (capPerm v.bits &&& m) * 2 ^ 68), tag := v.tag, label }

/-- A capability of another space (R141). -/
def setSpace (v : Val) (sp : Nat) (label : Label) : Except Nat Val :=
  if !v.tag then .error 0x04
  else if 7 ≤ sp then .error 0x02
  else if sp = capSpace v.bits then .ok { v with label }
  else if capSpace v.bits = 0 then
    (match spaceWin sp with
     | some w => if (w.lo : Int) ≤ capBase v.bits ∧ capTop v.bits ≤ (w.hi : Int)
         then .ok { bits := BitVec.ofNat 128 (v.bits.toNat + sp * 2 ^ 64), tag := true, label }
         else .error 0x05
     | none => .error 0x06)
  else .error 0x06

/-- A capability form with operand b; the bounds and permission causes carry the cursor. -/
def State.cap2 (s : State) (sw : Bool) (d a b : SReg) (f : Val → Word → Label → Except Nat Val) : State :=
  s.issue Accept.none [a, b] d (fun s => match f (s.rd a) (s.x b) (s.labs [a, b]) with
    | .error c => s.raise c (if c = 0x02 then 1 else 0) (causeValue c (capCursor (s.rd a).bits))
    | .ok v => s.put true d v (fun s => s.finish sw))

/-- A capability form with an immediate. -/
def State.capI (s : State) (sw : Bool) (d a : SReg) (f : State → Val → Label → Except Nat Val) : State :=
  s.issue Accept.immOnly [a] d (fun s => match f s (s.rd a) (s.labs [a]) with
    | .error c => s.raise c (if c = 0x02 then 1 else 0) (causeValue c (capCursor (s.rd a).bits))
    | .ok v => s.put true d v (fun s => s.finish sw))

/-- `cap.getbase` (R138): the base. -/
def execCapGetbase (sw : Bool) (d a : SReg) (s : State) : Out :=
  .next (s.capGet sw d a (fun v => mod65 (capBase v.bits)))

/-- `cap.gettop` (R138): the top. -/
def execCapGettop (sw : Bool) (d a : SReg) (s : State) : Out :=
  .next (s.capGet sw d a (fun v => mod65 (capTop v.bits)))

/-- `cap.getlen` (R138): top − base. -/
def execCapGetlen (sw : Bool) (d a : SReg) (s : State) : Out :=
  .next (s.capGet sw d a (fun v => mod65 (capTop v.bits - capBase v.bits)))

/-- `cap.getperm` (R138): PERM in bits [11:0]. -/
def execCapGetperm (sw : Bool) (d a : SReg) (s : State) : Out :=
  .next (s.capGet sw d a (fun v => BitVec.ofNat 128 (capPerm v.bits)))

/-- `cap.getspace` (R138): SPACE in bits [3:0]. -/
def execCapGetspace (sw : Bool) (d a : SReg) (s : State) : Out :=
  .next (s.capGet sw d a (fun v => BitVec.ofNat 128 (capSpace v.bits)))

/-- `cap.gettag` (R138): 1 if tagged. -/
def execCapGettag (sw : Bool) (d a : SReg) (s : State) : Out :=
  .next (s.capGet sw d a (fun v => if v.tag then 1 else 0))

/-- `cap.setcur` (R139). -/
def execCapSetcur (sw : Bool) (d a b : SReg) (s : State) : Out :=
  .next (s.cap2 sw d a b (fun v y l => .ok (withCursor v y.toNat l)))

/-- `cap.addcur` (R139). -/
def execCapAddcur (sw : Bool) (d a b : SReg) (s : State) : Out :=
  .next (s.cap2 sw d a b (fun v y l => .ok (withCursor v (capCursor v.bits + y.toNat) l)))

/-- `cap.setbnd` (R140). -/
def execCapSetbnd (sw : Bool) (d a b : SReg) (s : State) : Out :=
  .next (s.cap2 sw d a b (fun v y l => narrow v y.toNat false l))

/-- `cap.setbndx` (R140). -/
def execCapSetbndx (sw : Bool) (d a b : SReg) (s : State) : Out :=
  .next (s.cap2 sw d a b (fun v y l => narrow v y.toNat true l))

/-- `cap.andperm` (R141). -/
def execCapAndperm (sw : Bool) (d a b : SReg) (s : State) : Out :=
  .next (s.cap2 sw d a b (fun v y l => .ok (andPerm v (bitsOf y.toNat 0 12) l)))

/-- `cap.setspace` (R141). -/
def execCapSetspace (sw : Bool) (d a b : SReg) (s : State) : Out :=
  .next (s.cap2 sw d a b (fun v y l => setSpace v (bitsOf y.toNat 0 4) l))

/-- `capi.addcur` (R139). -/
def execCapiAddcur (sw : Bool) (d a : SReg) (imm : BitVec 12) (s : State) : Out :=
  .next (s.capI sw d a (fun s v l =>
    .ok (withCursor v (BitVec.ofInt 64 ((capCursor v.bits : Int) + s.t.immS 12 imm.toNat)).toNat l)))

/-- `capi.setbnd` (R140). -/
def execCapiSetbnd (sw : Bool) (d a : SReg) (imm : BitVec 12) (s : State) : Out :=
  .next (s.capI sw d a (fun s v l => narrow v (s.t.immZ 12 imm.toNat) false l))

/-- `capi.setbndx` (R140). -/
def execCapiSetbndx (sw : Bool) (d a : SReg) (imm : BitVec 12) (s : State) : Out :=
  .next (s.capI sw d a (fun s v l => narrow v (s.t.immZ 12 imm.toNat) true l))

/-- `capi.andperm` (R141): the bits of a widened field above imm[11:0] are ignored. -/
def execCapiAndperm (sw : Bool) (d a : SReg) (imm : BitVec 12) (s : State) : Out :=
  .next (s.capI sw d a (fun _ v l => .ok (andPerm v imm.toNat l)))

end Sys2Proof.Machine
end

