-- ==== Sys2Proof/Machine/Control.lean ====
section
/-! DEFINITION. Branches, jumps, calls (R142 to R144), labels (R148) and the hint words (R104, R105, R149, R150). -/

namespace Sys2Proof.Machine

/-- The target of a B or J word: its own address plus 4 × the offset (R107). -/
def target (pc : Word) (off : Int) : Word := pc + BitVec.ofInt 64 (4 * off)

/-- A branch: the control label rises by both labels whether taken or not; a prediction lapses (R142, R150). -/
def State.branch (s : State) (sw : Bool) (a b : SReg) (off : BitVec 12) (c : Word → Word → Bool) : State :=
  s.issueNone Accept.immOnly [a, b] (fun s =>
    let taken := c (s.x a) (s.x b)
    let goal := target s.t.pc (s.t.immS 12 off.toNat)
    let s := s.raiseLabel (s.lab a ||| s.lab b)
    let s := { s with t := { s.t with predict := none } }
    s.finishAt sw (if taken then goal else s.t.pc + 4))

/-- A return capability for an address (R143). -/
def returnCap (ret : Word) (label : Label) : Val :=
  { bits := mkCap (ret.toNat + 4) ret.toNat 0 pEXEC 1 ret.toNat, tag := true, label }

/-- The checks of a register jump, in their order (R144). -/
def jumpCheck (v : Val) : Option Nat :=
  let a := capCursor v.bits
  if !v.tag then some 0x04
  else if !((capSpace v.bits == 0 || capSpace v.bits == 1) && hasPerm v.bits pEXEC && winOf a == some .glob) then some 0x06
  else if !(inBounds v a 4) then some 0x05
  else if a % 4 ≠ 0 then some 0x08
  else none

/-- A register jump with an optional link. -/
def State.jumpReg (s : State) (sw : Bool) (a : SReg) (k : State → (State → State) → State) : State :=
  let v := s.rd a
  match jumpCheck v with
  | some c => s.raise c 0 (causeValue c (capCursor v.bits))
  | none =>
    let s := s.raiseLabel v.label
    k s (fun s => s.finishAt sw (BitVec.ofNat 64 (capCursor v.bits)))

/-- `br.eq` (R99, R142). -/
def execBrEq (sw : Bool) (a b : SReg) (off : BitVec 12) (s : State) : Out :=
  .next (s.branch sw a b off (fun x y => x == y))

/-- `br.ne` (R99, R142). -/
def execBrNe (sw : Bool) (a b : SReg) (off : BitVec 12) (s : State) : Out :=
  .next (s.branch sw a b off (fun x y => x != y))

/-- `br.lt` (R99, R142). -/
def execBrLt (sw : Bool) (a b : SReg) (off : BitVec 12) (s : State) : Out :=
  .next (s.branch sw a b off (fun x y => x.slt y))

/-- `br.ge` (R99, R142). -/
def execBrGe (sw : Bool) (a b : SReg) (off : BitVec 12) (s : State) : Out :=
  .next (s.branch sw a b off (fun x y => !x.slt y))

/-- `br.ltu` (R99, R142). -/
def execBrLtu (sw : Bool) (a b : SReg) (off : BitVec 12) (s : State) : Out :=
  .next (s.branch sw a b off (fun x y => x.ult y))

/-- `br.geu` (R99, R142). -/
def execBrGeu (sw : Bool) (a b : SReg) (off : BitVec 12) (s : State) : Out :=
  .next (s.branch sw a b off (fun x y => !x.ult y))

/-- `br.bset` (R99, R142). -/
def execBrBset (sw : Bool) (a b : SReg) (off : BitVec 12) (s : State) : Out :=
  .next (s.branch sw a b off (fun x y => x &&& y != 0))

/-- `br.bclr` (R99, R142). -/
def execBrBclr (sw : Bool) (a b : SReg) (off : BitVec 12) (s : State) : Out :=
  .next (s.branch sw a b off (fun x y => x &&& y == 0))

/-- `jmp` (R143). -/
def execJmp (sw : Bool) (off : BitVec 25) (s : State) : Out :=
  .next (s.issueNone Accept.none [] (fun s => s.finishAt sw (target s.t.pc (signed 25 off.toNat))))

/-- `call` (R143): the return capability goes to G[15] through the buffer. -/
def execCall (sw : Bool) (off : BitVec 25) (s : State) : Out :=
  .next (s.issue Accept.none [] (.g 15) (fun s =>
    s.put false (.g 15) (returnCap (s.t.pc + 4) s.t.clabel) (fun s => s.finishAt sw (target s.t.pc (signed 25 off.toNat)))))

/-- `jr.go` (R144). -/
def execJrGo (sw : Bool) (a : SReg) (s : State) : Out :=
  .next (s.issueNone Accept.none [a] (fun s => s.jumpReg sw a (fun s k => k s)))

/-- `jr.link` (R144). -/
def execJrLink (sw : Bool) (d a : SReg) (s : State) : Out :=
  .next (s.issue Accept.none [a] d (fun s =>
    s.jumpReg sw a (fun s k => s.put false d (returnCap (s.t.pc + 4) s.t.clabel) k)))

/-- `lbl.get` (R148). -/
def execLblGet (sw : Bool) (d a : SReg) (s : State) : Out :=
  .next (s.alu Accept.none sw [a] d (fun s => (s.lab a).setWidth 64))

/-- `lbl.ctl` (R148). -/
def execLblCtl (sw : Bool) (d : SReg) (s : State) : Out :=
  .next (s.alu Accept.none sw [] d (fun s => s.t.clabel.setWidth 64))

/-- `lbl.raise` (R148): the 128 bits and the tag of G[a], under a raised label. -/
def execLblRaise (sw : Bool) (d a b : SReg) (s : State) : Out :=
  .next (s.aluVal Accept.none sw [a, b] d (fun s =>
    .ok { (s.rd a) with label := s.labs [a, b] ||| (s.x b).setWidth 16 }))

/-- `lbl.sub` (R148). -/
def execLblSub (sw : Bool) (d a b : SReg) (s : State) : Out :=
  .next (s.alu Accept.none sw [a, b] d (fun s => ofBool (Label.sub (s.lab a) ((s.x b).setWidth 16))))

/-- Whether a prefix stands before the word (R105). -/
def Task.prefixed (t : Task) : Bool := t.pfxImm.isSome || t.pfxMod.isSome

/-- A prefix goes on to the next word of its unit. -/
def State.nextWord (s : State) (f : Task → Task) : State := { s with t := { f s.t with pc := s.t.pc + 4 } }

/-- `hint.imm` (R104, R105): gives EXT to its consumer; a second hint.imm makes the unit illegal. -/
def execHintImm (ext : BitVec 20) (s : State) : Out :=
  .next (if s.t.pfxImm.isSome then s.raise 0x01 else s.nextWord (fun t => { t with pfxImm := some ext }))

/-- `hint.sched` (R149): the offer to be passed over for DEFER rounds; after a prefix it is illegal. -/
def execHintSched (sw : Bool) (defer : BitVec 6) (s : State) : Out :=
  .next (if s.t.prefixed then s.raise 0x01
    else { s with t := { s.t with passOver := defer } }.finish sw)

/-- `hint.mod` (R104, R105): comes first in its unit. -/
def execHintMod (mig : Mig) (msk : Option (BitVec 2)) (neg : Bool) (s : State) : Out :=
  .next (if s.t.prefixed then s.raise 0x01 else s.nextWord (fun t => { t with pfxMod := some { mig, msk, neg } }))

/-- `hint.br` (R150): the latest prediction of the group decides. -/
def execHintBr (sw : Bool) (taken : Bool) (s : State) : Out :=
  .next (if s.t.prefixed then s.raise 0x01
    else { s with t := { s.t with predict := some taken } }.finish sw)

end Sys2Proof.Machine
end

