-- ==== Sys2Proof/Machine/Translate.lean ====
section
/-! DEFINITION. Translation of global addresses (R301 to R312), the system window (R308), region maps (R386 to R388),
physical addresses (R307) and compressed pages (R314 to R316). -/

namespace Sys2Proof.Machine

/-! ### Physical addresses (R307, R308, R330, R336) -/

/-- What a walk or an access is for: the access field of DETAIL (R352). -/
inductive Acc where
  | load | store | atomic | fetch | engRead | engWrite | walk
  deriving DecidableEq, Repr

def Acc.code : Acc → Nat
  | .load => 0 | .store => 1 | .atomic => 2 | .fetch => 3 | .engRead => 4 | .engWrite => 5 | .walk => 6

def systemLo : Nat := 0x1DFFC00000
def systemHi : Nat := 0x1FE0000000
def contextLo : Nat := 0x1E00000000
def controlOff : Nat := 0x1FDFFFE000
def qosOff : Nat := 0x1FDFFFF000
def mapOff : Nat := 0x1FE0000000

/-- The PA of a partition's QoS block: on its lowest die. -/
def Device.qosPa (d : Device) (p : BitVec 2) : Nat := ((partDies d p).head?.getD p.toNat) * dieBytes + qosOff

/-- The ring pool of a die of a partition: base and size (R330). -/
def Device.ringPool (d : Device) (p : BitVec 2) (die : Nat) : Nat × Nat :=
  match (partDies d p).idxOf? die with
  | some i =>
    let q := (d.partState p).qos
    (bitsOf (q[40 + 2 * i]?.getD 0).toNat 12 36 * 4096, (q[41 + 2 * i]?.getD 0).toNat)
  | none => (0, 0)

/-- Whether [pa, pa+size) meets a ring pool of some partition. -/
def Device.inPool (d : Device) (pa size : Nat) : Bool :=
  (rangeFrom 0 4).any (fun die =>
    let (b, n) := d.ringPool (d.partOf (BitVec.ofNat 2 die)) die
    decide (b < pa + size) && decide (pa < b + n))

/-- Whether a page of a power of two bytes meets the system area of a die. -/
def inSystem (pa size : Nat) : Bool :=
  decide (pa < 4 * dieBytes) && decide (systemLo < pa % dieBytes + size) && decide (pa % dieBytes < systemHi)

/-- The tier of a PA, or none for a reserved range. While the host link is down (R320) host memory is one, as a second tier whose port
is absent is: DESIGN CHOICE (log entry 129). -/
def Device.tierOf (d : Device) (pa : Nat) : Option Nat :=
  if pa < 4 * dieBytes then (if mapOff ≤ pa % dieBytes then some 3 else some 0)
  else if 0x10000000000 ≤ pa ∧ pa < 0x20000000000 then
    (if d.boot.absentPorts.any (fun p => p.1.toNat == bitsOf pa 38 2 && p.2.toNat == bitsOf pa 37 1) then none else some 1)
  else if hostBase ≤ pa ∧ pa < 2 * hostBase then (if d.boot.cxlUp then some 2 else none)
  else none

/-- Whether a second-stage leaf may name a PA: its tier agrees, all of it lies outside the system areas and ring pools, on a die of
the partition, and it is compressed only as a 4 KiB HBM page (R305 step 5, R308, R330, R367). -/
def Device.leafPaOk (d : Device) (part : BitVec 2) (pa tier size : Nat) (comp : Bool) : Bool :=
  d.tierOf pa == some tier && d.tierOf (pa + size - 1) == some tier && !(inSystem pa size) && !(d.inPool pa size) && (tier == 2 || d.partOf (dieOfPa pa) == part) &&
  (!comp || (tier == 0 && size == 4096))

/-! ### Compressed pages (R314, R315) -/

/-- The PA of the map entry of a frame. -/
def mapEntryOf (frame : Nat) : Nat := frame / dieBytes * dieBytes + mapOff + 16 * bitsOf frame 12 25

/-- The class of line i. -/
def lineClass (map i : Nat) : Nat := bitsOf map (2 * i) 2
/-- How many lines below i have a class. -/
def linesBelow (map k i : Nat) : Nat := ((rangeFrom 0 i).filter (fun j => lineClass map j == k)).length

/-- The bytes of line i of a frame coded under a map entry; none for the reserved class. -/
def decodeBy (m : Memory) (map frame i : Nat) : Option (List Byte) :=
  match lineClass map i with
  | 0 => some (List.replicate 64 0#8)
  | 1 =>
    let a := frame + 64 * linesBelow map 2 64 + 8 * linesBelow map 1 i
    some ((rangeFrom 0 8).flatMap (fun _ => m.bytes a 8))
  | 2 => some (m.bytes (frame + 64 * linesBelow map 2 i) 64)
  | _ => none

/-- The bytes of line i of a compressed frame. -/
def decodeLine (m : Memory) (frame i : Nat) : Option (List Byte) := decodeBy m (m.read (mapEntryOf frame) 16) frame i

/-- Bytes numbered from 0, without zeros: a memory. -/
def memoryOf (lo : Nat) : List Byte → Memory
  | [] => []
  | b :: r => if b = 0 then memoryOf (lo + 1) r else (lo, b) :: memoryOf (lo + 1) r

/-- The decoded page of a frame: the copy in the memory-side buffer, or the decoding of the frame. -/
def Device.decodedPage (d : Device) (frame : Nat) : Memory :=
  (d.decoded.lookup frame).getD
    (memoryOf 0 ((rangeFrom 0 64).flatMap (fun i => (decodeLine d.gmem.mem frame i).getD (List.replicate 64 0#8))))

/-- The class of 64 bytes and what the frame stores for them. -/
def codeLine (l : List Byte) : Nat × List Byte :=
  if l.all (· == 0) then (0, [])
  else if (rangeFrom 0 8).all (fun i => (l.drop (8 * i)).take 8 == l.take 8) then (1, l.take 8)
  else (2, l)

/-- The coding of a page: the map entry and the stored bytes, literals first (R314). -/
def codePage (p : Memory) : Nat × List Byte :=
  let coded := (rangeFrom 0 64).map (fun i => codeLine (p.bytes (64 * i) 64))
  let map := (rangeFrom 0 64).foldl (fun n i => n + (coded[i]?.getD (0, [])).1 * 4 ^ i) 0
  let pick (k : Nat) := (coded.filter (fun c => c.1 == k)).flatMap (·.2)
  (map, pick 2 ++ pick 1)

/-- Writes a decoded copy back to its frame and map. -/
def Device.recode (d : Device) (frame : Nat) : Device :=
  match d.decoded.lookup frame with
  | none => d
  | some p =>
    let (map, bytes) := codePage p
    { d with gmem := (d.gmem.putBytes frame bytes).put (mapEntryOf frame) 16 map,
             decoded := d.decoded.filter (fun q => q.1 != frame) }

/-- Writes back the decoded copies of the frames whose stored bytes or map entries a raw access of [pa, pa+n) touches (R315). -/
def Device.recodeFor (d : Device) (pa n : Nat) : Device :=
  d.decoded.foldl (fun d q =>
    let e := mapEntryOf q.1
    if (q.1 < pa + n ∧ pa < q.1 + 4096) ∨ (e < pa + n ∧ pa < e + 16) then d.recode q.1 else d) d

/-- Whether [pa, pa+n) reads as poison. -/
def Device.gpoisoned (d : Device) (comp : Bool) (pa n : Nat) : Bool :=
  (!d.fencedChannels.isEmpty && d.channelDown pa) || d.gmem.poisoned pa n ||
  (comp && (units 64 pa n).any (fun l =>
    (d.decoded.lookup (pa / 4096 * 4096)).isNone &&
      lineClass (d.gmem.mem.read (mapEntryOf (pa / 4096 * 4096)) 16) (l % 64) == 3))

/-- Reads n bytes of global or host memory as agents see them (R316). -/
def Device.gread (d : Device) (comp : Bool) (pa n : Nat) : Nat :=
  if comp then (d.decodedPage (pa / 4096 * 4096)).read (pa % 4096) n else d.gmem.mem.read pa n

/-- The lines of a frame that its decoding finds in the reserved class 3: they are poison (R314). -/
def Device.badLines (d : Device) (frame : Nat) : List Nat :=
  if (d.decoded.lookup frame).isSome then []
  else ((rangeFrom 0 64).filter (fun i => lineClass (d.gmem.mem.read (mapEntryOf frame) 16) i == 3)).map (frame / 64 + ·)

/-- Writes masked bytes of global or host memory; a compressed page is decoded into the memory-side buffer (R315), where a line
of the reserved class stays poison until it is written whole. -/
def Device.gwrite (d : Device) (comp : Bool) (pa n mask v : Nat) : Device :=
  if !d.fencedChannels.isEmpty && d.channelDown pa then d
  else if comp then
    let frame := pa / 4096 * 4096
    let p := (d.decodedPage frame).writeMasked (pa % 4096) n mask v
    let g : Bank := { d.gmem with poison := (d.badLines frame).foldl (fun l a => insertNat a l) d.gmem.poison }
    { d with decoded := (frame, p) :: d.decoded.filter (fun q => q.1 != frame),
             gmem := { g with poison := if mask + 1 = 2 ^ n then g.poisonAfter pa n else g.poison } }
  else { d with gmem := d.gmem.putMasked pa n mask v }

/-- The place of poison at a PA (R352): the decoded copy of a compressed page in the memory-side buffer, HBM or the second tier. For a
line of host memory R352 lists none: a free code (log entry 128). -/
def Device.poisonPlace (d : Device) (comp : Bool) (pa : Nat) : Nat :=
  if comp && (d.decoded.lookup (pa / 4096 * 4096)).isSome then 5
  else if pa < 4 * dieBytes then 1
  else if pa < hostBase then 2
  else 1 + Config.poisonCode pa % 6

/-! ### The walks (R301 to R305) -/

/-- Why a translation fails: a cause routed under R291, a cause of the second stage (R306) with its IA, or a page owned by
the host (R318) with the frame reserved for it. -/
inductive XFail where
  | cause (c detail : Nat)
  | second (c detail ia : Nat)
  | flip (ia frame : Nat)
  deriving DecidableEq, Repr

/-- A leaf that a walk found: the output base, the page size, the permissions, and where the entry stands. -/
structure Leaf where
  out : Nat
  size : Nat
  usr : Bool
  rd : Bool
  wr : Bool
  ex : Bool
  label : Label
  tier : Nat
  comp : Bool
  ent : Nat
  lvl : Nat
  deriving DecidableEq, Repr

/-- DETAIL of a translation cause (R352). -/
def xDetail (stage lvl : Nat) (acc : Acc) : Nat := stage + lvl * 4 + acc.code * 32

def pageSize (lvl : Nat) : Nat := 2 ^ (12 + 9 * lvl)

/-- Whether the access has the permission it needs. -/
def Acc.allowed (acc : Acc) (rd wr ex : Bool) : Bool :=
  match acc with
  | .load | .engRead | .walk => rd
  | .store | .engWrite => wr
  | .atomic => rd && wr
  | .fetch => ex

/-- Whether the sixteen entries of the group of entry `ea` form a 64 KiB page (R302), as `word` reads them. The address field
has `len` bits. -/
def contGroup (word : Nat → Nat) (ea len : Nat) : Bool :=
  let base := ea / 128 * 128
  let e0 := word base
  let o0 := bitsOf e0 12 len
  bitsOf o0 0 4 == 0 &&
  (rangeFrom 0 16).all (fun i =>
    let e := word (base + 8 * i)
    bitsOf e 12 len == o0 + i && e + o0 * 4096 == e0 + bitsOf e 12 len * 4096)

/-- A second-stage walk from a table of level n − 1. The walker's reads are plain loads (R311): a poisoned entry is poison consumed
(R357). -/
def walk2 (d : Device) (part : BitVec 2) (acc : Acc) (ia : Nat) : Nat → Nat → Except XFail Leaf
  | 0, _ => .error (.second 0x02 3 ia)
  | l + 1, table =>
    let ea := table + 8 * bitsOf ia (12 + 9 * l) 9
    let w := d.gmem.mem.read ea 8
    let bit (i : Nat) : Bool := bitsOf w i 1 == 1
    let out := bitsOf w 12 36 * 4096
    if d.gpoisoned false ea 8 then .error (.second 0x18 (d.poisonPlace false ea) ia)
    else if !(bit 0) then
      (if bit 8 then .error (.flip ia out) else .error (.second 0x09 (xDetail 2 l acc) ia))
    else if bit 7 || bit 2 then .error (.second 0x02 3 ia)
    else if bit 1 then
      let tier := bitsOf w 10 2
      if 3 ≤ l || (bit 6 && l != 0) || out % pageSize l != 0 || !(d.leafPaOk part out tier (pageSize l) (bit 9)) then
        .error (.second 0x02 3 ia)
      else
        let big := bit 6 && contGroup (d.gread false · 8) ea 36 && !(inSystem (out / 65536 * 65536) 65536) &&
          !(d.inPool (out / 65536 * 65536) 65536)
        .ok { out := if big then out / 65536 * 65536 else out, size := if big then 65536 else pageSize l, usr := false,
              rd := bit 3, wr := bit 4, ex := bit 5, label := BitVec.ofNat 16 (bitsOf w 48 16), tier, comp := bit 9,
              ent := ea, lvl := l }
    else if l = 0 || bitsOf w 3 4 != 0 || bitsOf w 8 4 != 0 || bitsOf w 48 16 != 0 then .error (.second 0x02 3 ia)
    else walk2 d part acc ia l out

/-- The PA of an IA through the second stage, with the permission check; TIER 3 pages serve `cp.raw` alone. -/
def second (d : Device) (part : BitVec 2) (root : Nat) (acc : Acc) (raw : Bool) (ia : Nat) : Except XFail Leaf :=
  match walk2 d part acc ia 5 root with
  | .error e => .error e
  | .ok lf =>
    if !(acc.allowed lf.rd lf.wr lf.ex) then .error (.second 0x0A (xDetail 2 lf.lvl acc) ia)
    else if lf.tier = 3 && !raw then .error (.second 0x02 3 ia)
    else .ok lf

/-- A first-stage walk from a table of level n − 1, whose address is an IA that the second stage translates; a table in a
compressed page is read decoded (R316). -/
def walk1 (d : Device) (part : BitVec 2) (root2 : Nat) (acc : Acc) (va : Nat) : Nat → Nat → Except XFail Leaf
  | 0, _ => .error (.cause 0x02 3)
  | l + 1, table =>
    let ia := table + 8 * bitsOf va (12 + 9 * l) 9
    match second d part root2 .walk false ia with
    | .error e => .error e
    | .ok lf =>
      let ea := lf.out + ia % lf.size
      let w := d.gread lf.comp ea 8
      let bit (i : Nat) : Bool := bitsOf w i 1 == 1
      let out := bitsOf w 12 44 * 4096
      if d.gpoisoned lf.comp ea 8 then .error (.cause 0x18 (d.poisonPlace lf.comp ea))
      else if !(bit 0) then .error (.cause 0x09 (xDetail 1 l acc))
      else if bitsOf w 60 4 != 0 || bitsOf w 56 3 != 0 || bitsOf w 6 6 != 0 then .error (.cause 0x02 3)
      else if bit 1 then
        if 3 ≤ l || (bit 59 && l != 0) || out % pageSize l != 0 then .error (.cause 0x02 3)
        else
          let big := bit 59 && contGroup (d.gread lf.comp · 8) ea 44
          .ok { out := if big then out / 65536 * 65536 else out, size := if big then 65536 else pageSize l, usr := bit 2,
                rd := bit 3, wr := bit 4, ex := bit 5, label := 0#16, tier := 0, comp := false, ent := ia, lvl := l }
      else if l = 0 || bitsOf w 2 4 != 0 || bit 59 then .error (.cause 0x02 3)
      else walk1 d part root2 acc va l out

/-- The roots and names that a job's translations use on a core (R284). -/
structure Roots where
  part : BitVec 2
  pt1 : Nat
  asid : BitVec 16
  pt2 : Nat
  vmid : BitVec 16
  user : Bool
  deriving DecidableEq, Repr

/-- The combined translation of a VA: both walks and both permission checks, in the order of R305. -/
def combine (d : Device) (r : Roots) (acc : Acc) (raw : Bool) (va : Nat) : Except XFail TlbEntry :=
  match walk1 d r.part r.pt2 acc va 5 r.pt1 with
  | .error e => .error e
  | .ok l1 =>
    if (r.user && !l1.usr) || !(acc.allowed l1.rd l1.wr l1.ex) then .error (.cause 0x0A (xDetail 1 l1.lvl acc))
    else
      let ia := l1.out + va % l1.size
      match second d r.part r.pt2 acc raw ia with
      | .error e => .error e
      | .ok l2 =>
        let size := min l1.size l2.size
        let base := va / size * size
        .ok { asid := r.asid, vmid := r.vmid, va := base, size, ia := ia / size * size,
              pa := (l2.out + ia % l2.size) / size * size, usr := l1.usr, rd := l2.rd, wr := l2.wr, ex := l2.ex,
              label := l2.label, tier := BitVec.ofNat 2 l2.tier, comp := l2.comp, leaf1 := l1.ent, leaf2 := l2.ent,
              lvl1 := BitVec.ofNat 3 l1.lvl, lvl2 := BitVec.ofNat 3 l2.lvl, rd1 := l1.rd, wr1 := l1.wr, ex1 := l1.ex }

/-- The checks of a combined entry that is used again. -/
def recheck (r : Roots) (acc : Acc) (raw : Bool) (va : Nat) (e : TlbEntry) : Except XFail TlbEntry :=
  let ia := e.ia + (va - e.va)
  if (r.user && !e.usr) || !(acc.allowed e.rd1 e.wr1 e.ex1) then .error (.cause 0x0A (xDetail 1 e.lvl1.toNat acc))
  else if !(acc.allowed e.rd e.wr e.ex) then .error (.second 0x0A (xDetail 2 e.lvl2.toNat acc) ia)
  else if e.tier = 3 && !raw then .error (.second 0x02 3 ia)
  else .ok e

/-- The roots of a job at a level on the core in focus. -/
def State.roots (s : State) (job : BitVec 16) (level : Nat) : Roots :=
  let j := s.c.jobRegs job
  { part := s.part, pt1 := bitsOf j.pt1root.toNat 12 44 * 4096, asid := j.asid.setWidth 16,
    pt2 := bitsOf j.pt2root.toNat 12 36 * 4096, vmid := j.vmid.setWidth 16, user := level == 0 }

/-- The TLB entry of a core that holds a VA. -/
def Core.tlbFind (c : Core) (r : Roots) (va : Nat) : Option TlbEntry :=
  c.tlb.find? (fun e => e.asid == r.asid && e.vmid == r.vmid && decide (e.va ≤ va) && decide (va < e.va + e.size))

/-- Keeps a translation, in the place of the one that held the VA; when all entries are taken the oldest goes. -/
def Core.tlbKeep (c : Core) (size : Nat) (r : Roots) (va : Nat) (e : TlbEntry) : Core :=
  { c with tlb := e :: (c.tlb.filter (fun k =>
      !(k.asid == r.asid && k.vmid == r.vmid && decide (k.va ≤ va) && decide (va < k.va + k.size)))).take (size - 1) }

/-- Whether two translations agree. -/
def sameAnswer : Except XFail TlbEntry → Except XFail TlbEntry → Bool
  | .ok a, .ok b => a == b
  | .error a, .error b => a == b
  | _, _ => false

/-- The translation of a VA (R305), through a TLB of 1,024 entries or the cache of a gateway (R310). Where the TLB holds a translation
and a walk would now give another answer, either is used (R311): the choice is free. -/
def State.translateAs (s : State) (r : Roots) (acc : Acc) (raw : Bool) (va : Nat) (size : Nat := 1024) : Except XFail TlbEntry × State :=
  let fresh := combine s.d r acc raw va
  let walked : Except XFail TlbEntry × State := match fresh with
    | .ok e => (.ok e, { s with c := s.c.tlbKeep size r va e })
    | .error f => (.error f, s)
  match s.c.tlbFind r va with
  | none => (walked.1, walked.2.count 15)
  | some e =>
    let used := recheck r acc raw va e
    if sameAnswer used fresh then (used, s)
    else
      let (b, s') := s.freeBit
      if b then (used, s') else (walked.1, { s' with c := walked.2.c })

def State.translate (s : State) (acc : Acc) (va : Nat) : Except XFail TlbEntry × State :=
  s.translateAs (s.roots s.t.job s.t.level) acc false va

/-- The PA that an entry gives a VA. -/
def TlbEntry.at (e : TlbEntry) (va : Nat) : Nat := e.pa + (va - e.va)

/-! ### Where a global address leads (R308, R387, R388) -/

/-- A valid entry of a region map that holds a VA: KIND, DEV, PART. -/
def regionEntry (bits : BitVec 128) (va : Nat) : Option (Nat × BitVec 12 × BitVec 2) :=
  let n := bits.toNat
  let lg := bitsOf n 0 6
  let kind := bitsOf n 6 2
  let base := bitsOf n 21 36 * 2 ^ 21
  if bitsOf n 90 38 != 0 || bitsOf n 57 19 != 0 || bitsOf n 8 13 != 0 || kind == 0 || kind == 3 || lg < 21 || 56 < lg ||
     base % 2 ^ lg != 0 then none
  else if base ≤ va ∧ va < base + 2 ^ lg then some (kind, BitVec.ofNat 12 (bitsOf n 76 12), BitVec.ofNat 2 (bitsOf n 88 2))
  else none

/-- The job table entry of a local job: its index and the entry (R386). -/
def Fabric.jobEntry (f : Fabric) (job : BitVec 16) (part : BitVec 2) : Option (BitVec 6 × JobMap) :=
  f.jobs.find? (fun p => p.2.valid && p.2.job == job && p.2.part == part)

/-- The deciding entry of a job's region map for a VA. -/
def Fabric.region (f : Fabric) (job : BitVec 16) (part : BitVec 2) (va : Nat) : Option (Nat × BitVec 12 × BitVec 2) :=
  match f.jobEntry job part with
  | none => none
  | some (n, _) => (f.regions.filter (fun r => r.1 == n)).findSome? (fun r => regionEntry r.2.2 va)

/-- Where a global VA leads. -/
inductive GPlace where
  /-- this device, under the job's tables -/
  | here
  /-- the system window: a PA -/
  | window (pa : Nat)
  | peer (dev : BitVec 12)
  | launch (dev : BitVec 12) (part : BitVec 2)
  deriving DecidableEq, Repr

def State.gplaceOf (s : State) (job : BitVec 16) (level va : Nat) : GPlace :=
  if 1 ≤ level ∧ 2 ^ 56 ≤ va ∧ va < 2 ^ 56 + 2 ^ 48 then .window (va - 2 ^ 56)
  else match s.d.fabric.region job s.part va with
    | some (1, dev, _) => if dev = s.d.fabric.device then .here else .peer dev
    | some (_, dev, p) => .launch dev p
    | none => .here

/-- The pieces of the system area (R308). -/
inductive SysPiece where
  | unit (die : BitVec 2) (page : Nat)
  | context
  | control (part : BitVec 2)
  | qos (part : BitVec 2)
  deriving DecidableEq, Repr

def sysPieceOf (d : Device) (pa : Nat) : Option SysPiece :=
  let die := pa / dieBytes
  let off := pa % dieBytes
  if 4 ≤ die then none
  else if systemLo ≤ off ∧ off < systemLo + 0x201000 then some (.unit (BitVec.ofNat 2 die) ((off - systemLo) / 4096))
  else if contextLo ≤ off ∧ off < controlOff then some .context
  else if controlOff ≤ off ∧ off < qosOff then
    (if (partDies d (BitVec.ofNat 2 die)).isEmpty then none else some (.control (BitVec.ofNat 2 die)))
  else if qosOff ≤ off ∧ off < mapOff ∧ (partDies d (d.partOf (BitVec.ofNat 2 die))).head? = some die then
    some (.qos (d.partOf (BitVec.ofNat 2 die)))
  else none

/-- Whether a party holds a unit in such a way that the job level of the access reaches its page (R378, R398). -/
def Holder.admits (h : Holder) (part : BitVec 2) (level : Nat) : Bool :=
  match h with
  | .free => false
  | .guest p => p == part && level == 1
  | .hyp => 2 ≤ level

/-- The holder of the unit of a page: a trace unit, a core's bank, the die's bank. -/
def State.unitHolder (s : State) (die : BitVec 2) (page : Nat) : Holder :=
  if page < 256 then (s.core (BitVec.ofNat 10 (die.toNat * 256 + page))).trace.holder
  else if page < 512 then (s.core (BitVec.ofNat 10 (die.toNat * 256 + page - 256))).bank.holder
  else (s.d.dieBanks[die.toNat]?.getD CounterBank.reset).holder

/-- Whether a PA lies in a scratchpad save area, which only the die controllers write (R350). -/
def Device.inSaveArea (d : Device) (pa : Nat) : Bool :=
  d.saveAreas.any (fun a => decide (a.base ≤ pa) && decide (pa < a.base + saveAreaBytes))

/-- Whether an access of a job at a level in the window is admitted (R308). -/
def State.windowAdmits (s : State) (level : Nat) (acc : Acc) (pa : Nat) : Bool :=
  match sysPieceOf s.d pa with
  | none => false
  | some .context => s.d.partOf (dieOfPa pa) == s.part && acc != .fetch && (acc == .load || acc == .engRead || !(s.d.inSaveArea pa))
  | some (.control p) => ((level == 1 && p == s.part) || 2 ≤ level) && (acc == .load || acc == .store)
  | some (.qos _) => 2 ≤ level && (acc == .load || acc == .store)
  | some (.unit die page) => (s.unitHolder die page).admits s.part level && (acc == .load || acc == .store)

end Sys2Proof.Machine
end

