-- ==== Sys2Proof/Machine/Units.lean ====
section
/-! DEFINITION. The registers of the debug units as loads and stores reach them (R398, R399, R400, R408, R411, R412, R413,
R417): what a load reads, and whether a store is performed. The effects of the stores are the events of Debug.lean. -/

namespace Sys2Proof.Machine

/-- The unit of a register page. -/
def unitOf (die : BitVec 2) (page : Nat) : UnitId :=
  if page < 256 then .trace (BitVec.ofNat 10 (die.toNat * 256 + page))
  else if page < 512 then .bank (BitVec.ofNat 10 (die.toNat * 256 + page - 256))
  else .dieBank die

/-- The breakpoint register that an offset names: number, and whether it is the control word. -/
def bpOffset (off : Nat) : Option (Nat × Bool) :=
  if 0x100 ≤ off ∧ off < 0x180 then some ((off - 0x100) / 16, off % 16 == 8) else none

/-- A trace unit register; reserved offsets read 0. -/
def TraceUnit.load (u : TraceUnit) (wraps off : Nat) : Word :=
  match bpOffset off with
  | some (n, true) => u.bpctl[n]?.getD 0
  | some (n, false) => u.bpaddr[n]?.getD 0
  | none =>
    match off with
    | 0x00 => u.tctl | 0x08 => u.tbase | 0x10 => u.tsize | 0x18 => u.tjob | 0x20 => u.twr | 0x28 => u.trd
    | 0x30 => u.tlost | 0x38 => u.tstat | 0x40 => BitVec.ofNat 64 wraps | 0x48 => u.rctl | 0x50 => u.stopreq
    | 0x58 => u.resume | 0x60 => u.dumpva | 0x68 => u.dumpmax
    | _ => 0

/-- A counter bank's page; `n` counters are defined. -/
def CounterBank.load (b : CounterBank) (n off : Nat) : Word :=
  if off = 0x200 then b.bctl else if off / 8 < n then b.counts[off / 8]?.getD 0 else 0

/-- The bank of a unit. -/
def State.bankOf (s : State) : UnitId → CounterBank
  | .dieBank d => s.d.dieBanks[d.toNat]?.getD CounterBank.reset
  | .bank c | .trace c => (s.core c).bank

/-- How many counters a bank defines (R414, R415). -/
def bankSize : UnitId → Nat
  | .dieBank _ => 17
  | _ => 19

/-- A load of a unit register. -/
def State.unitLoad (s : State) (u : UnitId) (off : Nat) : Word :=
  match u with
  | .trace c => (s.core c).trace.load (s.core c).seqWraps off
  | _ => (s.bankOf u).load (bankSize u) off

/-- Whether a job is a job of a partition: a registered graph of it names the job. -/
def Device.jobOf (d : Device) (p : BitVec 2) (job : BitVec 16) : Bool :=
  d.graphs.any (fun g => g.part == p && g.job == job && g.live)

/-- Whether the party holding a unit may name a job. -/
def State.holderJob (s : State) (h : Holder) (job : BitVec 16) : Bool :=
  match h with
  | .guest p => s.d.jobOf p job
  | _ => (rangeFrom 0 4).any (fun p => s.d.jobOf (BitVec.ofNat 2 p) job)

/-- The cause with which a store to a trace unit's register is refused, none when it is performed. -/
def State.traceRefuses (s : State) (c : CoreId) (off : Nat) (v : Word) : Option Nat :=
  let u := (s.core c).trace
  let zero (lo len : Nat) : Bool := bitsOf v.toNat lo len == 0
  let ok (b : Bool) : Option Nat := if b then none else some 0x02
  match bpOffset off with
  | some (_, true) =>
    ok (zero 8 8 && zero 6 1 && (bitsOf v.toNat 1 2 != 0 || zero 5 1))
  | some (_, false) => none
  | none =>
    match off with
    | 0x00 => ok (zero 9 23 && zero 2 2)
    | 0x08 => ok (zero 57 7 && zero 0 12)
    | 0x10 => ok (decide (12 ≤ v.toNat) && decide (v.toNat ≤ 32))
    | 0x18 => if !(zero 16 48) then some 0x02 else if s.holderJob u.holder (v.setWidth 16) then none else some 0x06
    | 0x20 => ok (bitsOf u.rctl.toNat 16 2 == 2)
    | 0x28 => ok (decide (v ≤ u.twr) && decide ((u.twr - v).toNat ≤ 2 ^ u.tsize.toNat))
    | 0x48 => ok (zero 18 14 && bitsOf v.toNat 16 2 != 3 && decide (64 ≤ bitsOf v.toNat 32 32) &&
        decide (bitsOf v.toNat 32 32 ≤ 65536))
    | 0x50 => ok (zero 48 16)
    | 0x58 => ok (zero 49 15)
    | 0x60 => ok (zero 57 7 && zero 0 6)
    | 0x68 => none
    | _ => some 0x02

/-- The cause with which a store of a value to a unit register is refused (R398). -/
def State.unitRefuses (s : State) (u : UnitId) (off : Nat) (v : Word) (label : Label) : Option Nat :=
  let r := match u with
    | .trace c => s.traceRefuses c off v
    | _ => if off = 0x200 then (if v.toNat < 4 then none else some 0x02)
           else if off / 8 < bankSize u then none else some 0x02
  match r with
  | some c => some c
  | none => if label = 0#16 then none else some 0x0B

/-- The event that a performed store to a unit register is. -/
def unitEvent (u : UnitId) (off : Nat) (v : Word) : Instr :=
  match u with
  | .trace c =>
    (match bpOffset off with
     | some (n, true) => .bpctl c (BitVec.ofNat 3 n) v
     | some (n, false) => .unitRegisterWrite u (BitVec.ofNat 12 (0x100 + 16 * n)) v
     | none =>
       match off with
       | 0x00 => .tctl c v
       | 0x28 => .trd c v
       | 0x48 => .rctl c v
       | 0x50 => .stopreq c v
       | 0x58 => .resume c v
       | 0x60 => .dumpva c v
       | _ => .unitRegisterWrite u (BitVec.ofNat 12 off) v)
  | _ => .unitRegisterWrite u (BitVec.ofNat 12 off) v

end Sys2Proof.Machine
end

