-- ==== Sys2Proof/Machine/Break.lean ====
section
/-! DEFINITION. Breakpoints and stops as the issue port meets them (R408 to R411), and the records that record mode adds
(R417, R420). -/

namespace Sys2Proof.Machine

/-! ### Matching (R408, R409) -/

/-- The enabled entries that may match the task at the port: those of its core's unit for its job, and those of the
partition's TID table that name it. Each is a unit, an entry number, BPADDR and BPCTL. -/
def State.bpEntries (s : State) : List (CoreId × Nat × Word × Word) :=
  let entry (u : TraceUnit) (c : CoreId) (n : Nat) : CoreId × Nat × Word × Word :=
    (c, n, u.bpaddr[n]?.getD 0, u.bpctl[n]?.getD 0)
  let own := if s.c.trace.tjob.setWidth 16 = s.t.job then
      ((rangeFrom 0 8).map (entry s.c.trace s.c.id)).filter (fun e => bitAt e.2.2.2 0 && !bitAt e.2.2.2 7)
    else []
  let att := ((s.d.partState s.part).attached.filter (fun x => x.1 == s.t.tid || x.1 == s.t.tidReg)).map
    (fun x => entry (s.core x.2.1).trace x.2.1 x.2.2.toNat)
  own ++ att

/-- The first of several matches: the unit of lowest index, and its lowest entry. -/
def firstEntry : List (CoreId × Nat × Word × Word) → Option (CoreId × Nat × Word × Word)
  | [] => none
  | e :: r => match firstEntry r with
    | none => some e
    | some k => if e.1.toNat * 8 + e.2.1 ≤ k.1.toNat * 8 + k.2.1 then some e else some k

/-- The entry that matches the unit at an address. -/
def State.execBreak (s : State) (pc : Word) : Option (CoreId × Nat × Word × Word) :=
  firstEntry (s.bpEntries.filter (fun e => bitsOf e.2.2.2.toNat 1 2 == 0 && e.2.2.1 == pc))

/-- The entry that matches an access of [a, a+n). -/
def State.dataBreak (s : State) (loads stores : Bool) (a n : Nat) : Option (CoreId × Nat × Word × Word) :=
  firstEntry (s.bpEntries.filter (fun e =>
    let kind := bitsOf e.2.2.2.toNat 1 2
    let lo := e.2.2.1.toNat
    let hi := lo + 2 ^ bitsOf e.2.2.2.toNat 3 2
    ((loads && bitsOf kind 0 1 == 1) || (stores && bitsOf kind 1 1 == 1)) && decide (a < hi) && decide (lo < a + n)))

/-- Asks a unit to stop a task at its next unit boundary, with a reason. -/
def State.askStop (s : State) (u : CoreId) (tid : Tid) (reason : Nat) : State :=
  s.modCore u (fun c => { c with trace := { c.trace with pendingStops := c.trace.pendingStops ++ [(tid, BitVec.ofNat 8 reason)] } })

/-- A match stops the task at the port at the unit that it would have issued. -/
def State.stopFor (s : State) (u : CoreId) (reason : Nat) : State :=
  let t := { s.t with pc := s.t.unitPc, pfxImm := none, pfxMod := none }
  ({ s with t }).askStop u t.tid reason

/-- Whether the task at the port is single-stepped through the unit it issues (R411). -/
def State.stepping (s : State) : Bool :=
  s.allCores.any (fun c => c.trace.pendingStops.any (fun p => p.1 == s.t.tid && p.2 == 0xFE))

/-- Runs an access of [a, a+n) under the data breakpoints (R410): a match stops the task or raises watchpoint. -/
def State.watched (s : State) (loads stores : Bool) (a n : Nat) (k : State → State) : State :=
  match s.dataBreak loads stores a n with
  | none => k s
  | some (u, n, _, ctl) =>
    if bitAt ctl 5 then s.raise 0x15 0 (BitVec.ofNat 64 a) else if s.stepping then k s else s.stopFor u n

/-! ### Record mode (R417, R418, R420) -/

/-- Whether the core in focus records a job. -/
def State.recording (s : State) (job : BitVec 16) : Bool :=
  bitsOf s.c.trace.rctl.toNat 16 2 == 1 && bitsOf s.c.trace.rctl.toNat 0 16 == job.toNat

/-- RCTL as it is in force for a task: a store takes effect for tasks that start after it (R417). -/
def TraceUnit.rctlOf (u : TraceUnit) (tid : Tid) : Word := (u.before.lookup tid).getD u.rctl

/-- Whether the core in focus records a task. -/
def State.records (s : State) (t : Task) : Bool :=
  let r := (s.c.trace.rctlOf t.tid).toNat
  bitsOf r 16 2 == 1 && bitsOf r 0 16 == t.job.toNat

/-- Whether the core in focus replays a task. -/
def State.replays (s : State) (t : Task) : Bool :=
  let r := (s.c.trace.rctlOf t.tid).toNat
  bitsOf r 16 2 == 2 && bitsOf r 0 16 == t.job.toNat

/-- The group under way holds a wait on another agent: its chunk ends with it (R418). -/
def State.otherAgent (s : State) : State := { s with c := { s.c with trace := { s.c.trace with chunkEnds := true } } }

/-- An INPUT record of the task at the port. -/
def State.recordInput (s : State) (kind : Nat) (v : Word) : State :=
  if s.records s.t then s.record 20 s.t 0#16 v (BitVec.ofNat 64 kind) else s

/-- In replay, the value of the next INPUT record in place of one of the outside world (R421). -/
def State.replayInput (s : State) (kind : Nat) (v : Word) : Word × State :=
  if s.replays s.t then
    match s.c.trace.inputs with
    | (k, w) :: r => if k.toNat = kind then (w, { s with c := { s.c with trace := { s.c.trace with inputs := r } } })
        else (v, s)
    | [] => (v, s)
  else (v, s)

/-- Commits a chunk of the core in focus: its place in the partition's commit order, the units issued and the kind. -/
def State.commitChunk (s : State) (t : Option Task) (units kind : Nat) (src : Endpoint) : State :=
  let p := s.part
  let place := (s.d.partState p).commits + 1
  let s := (s.modPart p (fun q => { q with commits := place })).count 18
  let arg1 := BitVec.ofNat 64 (units % 2 ^ 32 + kind % 16 * 2 ^ 32 + src.toNat * 2 ^ 36)
  match t with
  | some t => s.record 19 t 0#16 (BitVec.ofNat 64 place) arg1
  | none => s.recordNone 19 (BitVec.ofNat 64 place) arg1

/-- Ends the open chunk of the recording of the core in focus, if it is the task's. -/
def State.closeChunk (s : State) (t : Task) : State :=
  if s.c.trace.chunkTask = some t.tid && 0 < s.c.trace.chunkUnits then
    let n := s.c.trace.chunkUnits
    let s := { s with c := { s.c with trace := { s.c.trace with chunkTask := none, chunkUnits := 0, chunkEnds := false } } }
    s.commitChunk (some t) n 0 0
  else s

/-- The unit under way is a chunk of its own: the chunk before it is closed (R418). -/
def State.ownChunk (s : State) : State :=
  if !(s.records s.t) then s
  else
    let n := s.c.trace.chunkUnits - 1
    let s := { s with c := { s.c with trace := { s.c.trace with chunkTask := none, chunkUnits := 0, chunkEnds := false } } }
    (if n = 0 then s else s.commitChunk (some s.t) n 0 0)

/-- Commits the chunk of a unit that is one of its own. -/
def State.commitOwn (s : State) : State := if s.records s.t then s.commitChunk (some s.t) 1 0 0 else s

/-- Whether the core in focus replays a job. -/
def State.replaying (s : State) (job : BitVec 16) : Bool :=
  bitsOf s.c.trace.rctl.toNat 16 2 == 2 && bitsOf s.c.trace.rctl.toNat 0 16 == job.toNat

/-- Whether a chunk's turn has come: every chunk of lower place has committed (R421). -/
def State.chunkDue (s : State) (k : Chunk) : Bool := k.place == (s.d.partState s.part).commits + 1

/-- Whether no chunk of a task but the one named is open in the partition, one that waits for another agent aside (R419). -/
def State.chunksShut (s : State) (except : Option Tid) : Bool :=
  s.allCores.all (fun c =>
    s.d.partOf (CoreId.die c.id) != s.part ||
    match c.trace.chunkTask with
    | none => true
    | some k => some k == except || (c.tasks.all (fun p => p.2.tid != k ||
        match p.2.status with | .ready => false | .parked .group => false | _ => true)))

/-- Whether the chunk of an engine, hearth or dispatch may run now: recorded, no task's chunk is open (a hearth may serve the
open one); replayed, it is the next of the core's log. -/
def State.soloFree (s : State) (job : BitVec 16) (owner : Option Tid) (kind : Nat) : Bool :=
  if s.d.stopped s.part then false
  else if s.recording job then kind == 4 || s.chunksShut none
  else !(s.replaying job) || s.c.trace.chunk.any (fun k => s.chunkDue k && k.kind == kind && k.task == owner)

/-- A chunk of the replay of the core in focus commits. -/
def State.replayed (s : State) : State :=
  match s.c.trace.chunk with
  | none => s
  | some k =>
    let s := s.modPart s.part (fun q => { q with commits := k.place })
    { s with c := { s.c with trace := { s.c.trace with chunk := none } } }

/-- A chunk of its own: a copy segment, k-step, sort operation, hearth operation or dispatch of a recorded or replayed job. -/
def State.soloChunk (s : State) (job : BitVec 16) (t : Option Task) (kind : Nat) (src : Endpoint) : State :=
  if s.recording job then s.commitChunk t 0 kind src else if s.replaying job then s.replayed else s

/-- A write of an agent outside a recording to a page that a recorded job reads (R415 counter 16, R422): a page of which a
recording core holds a translation. The writer is a job, or none for an agent outside the device. -/
def State.taint (s : State) (pa : Nat) (writer : Option (BitVec 16)) : State :=
  let reads (c : Core) : Bool :=
    let r := c.trace.rctl.toNat
    let job : BitVec 16 := BitVec.ofNat 16 (bitsOf r 0 16)
    let j := c.jobRegs job
    bitsOf r 16 2 == 1 && writer != some job && c.tlb.any (fun e => e.asid == j.asid.setWidth 16 && e.vmid == j.vmid.setWidth 16 &&
      e.rd && decide (e.pa ≤ pa) && decide (pa < e.pa + e.size))
  if s.allCores.any reads then s.countDie (dieOfPa pa) 16 1 else s

/-- Takes the doublewords of replayed data, or records those of data from outside the partition (R420, R421). -/
def State.outsideWords (s : State) (v : Nat) : Nat → Nat × State
  | 0 => (0, s)
  | n + 1 =>
    let (w, s) := s.replayInput 2 (BitVec.ofNat 64 v)
    let (r, s) := (s.recordInput 2 w).outsideWords (v / 2 ^ 64) n
    (w.toNat + r * 2 ^ 64, s)

end Sys2Proof.Machine
end

