-- ==== Sys2Proof/Machine/Mailbox.lean ====
section
/-! DEFINITION. The partition control block (R368): the start of a mailbox command by a store, and its result. -/

namespace Sys2Proof.Machine

/-- The PA of a partition's control block. -/
def controlPa (p : BitVec 2) : Nat := p.toNat * dieBytes + controlOff

/-- The offset of a mailbox in the block: the supervisor's, the hypervisor's. -/
def mailboxOff (hyp : Bool) : Nat := if hyp then 1024 else 0

def Part.box (p : Part) (hyp : Bool) : Mailbox := if hyp then p.hyp else p.sup
def Part.setBox (p : Part) (hyp : Bool) (m : Mailbox) : Part := if hyp then { p with hyp := m } else { p with sup := m }

/-- A result word: DONE, STATUS and VALUE. -/
def resultWord (status value : Nat) : Word := BitVec.ofNat 64 (1 + status % 16 * 16 + value % 2 ^ 48 * 65536)

/-- Writes a mailbox's result word, in the state and in the block. -/
def State.putResult (s : State) (p : BitVec 2) (hyp : Bool) (w : Word) : State :=
  let s := s.modPart p (fun q => q.setBox hyp { q.box hyp with result := w })
  { s with d := { s.d with gmem := s.d.gmem.put (controlPa p + mailboxOff hyp + 72) 8 w.toNat } }

/-- Ends a command. -/
def State.result (s : State) (p : BitVec 2) (hyp : Bool) (status : Nat) (value : Nat := 0) : State :=
  s.putResult p hyp (resultWord status value)

/-- The event of a command, by its mailbox. -/
def commandEvent (p : BitVec 2) (hyp : Bool) (cmd : Nat) (ops : BitVec 512) : Option Instr :=
  match hyp, cmd with
  | false, 1 => some (.setlabel p ops)
  | false, 2 => some (.preempt p ops)
  | false, 3 => some (.getnonce p ops)
  | false, 4 => some (.install p ops)
  | false, 5 => some (.remove p ops)
  | false, 6 => some (.query p ops)
  | h, 7 => some (.claim p h ops)
  | h, 8 => some (.unclaim p h ops)
  | true, 9 => some (.reshape p ops)
  | true, 10 => some (.vfup p ops)
  | true, 11 => some (.vfdown p ops)
  | true, 12 => some (.slotset p ops)
  | _, _ => none

/-- A store to a command word has reached the block: unless a command of the mailbox is running, the command it holds
starts. A command that the mailbox does not have, or one with a reserved bit, ends with STATUS 1. -/
def State.startCommand (s : State) (p : BitVec 2) (hyp : Bool) : State :=
  let q := s.d.partState p
  if !bitAt (q.box hyp).result 0 then s
  else
    let base := controlPa p + mailboxOff hyp
    let ops : BitVec 512 := BitVec.ofNat 512 (s.d.gmem.mem.read base 64)
    let w : Word := BitVec.ofNat 64 (s.d.gmem.mem.read (base + 64) 8)
    let s := s.modPart p (fun q => q.setBox hyp { operands := ops, command := w, result := 0 })
    let s := s.putResult p hyp 0
    match if w.toNat < 256 then commandEvent p hyp w.toNat ops else none with
    | some i => s.schedule [.event i]
    | none => s.result p hyp 1

/-- What a write of masked bytes to a line of memory starts: the commands whose words it touches. -/
def State.lineWritten (s : State) (pa mask : Nat) : State :=
  match sysPieceOf s.d pa with
  | some (.control p) =>
    let off := pa - controlPa p
    if off / 64 = 1 ∧ mask % 256 ≠ 0 then s.startCommand p false
    else if off / 64 = 17 ∧ mask % 256 ≠ 0 then s.startCommand p true
    else s
  | _ => s

/-- Whether the control block refuses a store of a level to an offset (R368). -/
def controlRefuses (level off : Nat) : Bool := (level == 1 && 1024 ≤ off) || (2048 ≤ off && off < 3584)

end Sys2Proof.Machine
end

