-- ==== Sys2Proof/Machine/Pads.lean ====
section
/-! DEFINITION. Scratchpads given from job to job (R349, R350): the save areas, and the giving of a core's scratchpad. -/

namespace Sys2Proof.Machine

/-- The save area of a job on a core. -/
def Device.saveArea (d : Device) (job : BitVec 16) (core : CoreId) : Option SaveArea :=
  d.saveAreas.find? (fun a => a.job == job && a.core == core)

/-- Allocates a save area for a job on a core, with zero map entries; none when the pool has no room. -/
def Device.newSaveArea (d : Device) (job : BitVec 16) (core : CoreId) : Option Device :=
  if (d.saveArea job core).isSome then some d
  else (d.poolFit (CoreId.die core).toNat 4096 saveAreaBytes).map (fun base =>
    let d := d.putArea (base + 2 ^ 20) (List.replicate 4096 0#8)
    { d with saveAreas := d.saveAreas ++ [{ job, core, base, tags := [], labels := [], poison := [] }] })

/-- Frees the areas of jobs without a live launch whose contents their cores' scratchpads hold no longer. -/
def State.freeAreas (s : State) : State :=
  let lives (a : SaveArea) : Bool := s.d.launches.any (fun l =>
    launchPart l.key == s.d.partOf (CoreId.die a.core) && s.d.jobOfLaunch l.key == a.job)
  { s with d := { s.d with saveAreas := s.d.saveAreas.filter (fun a => lives a || (s.core a.core).spadJob == a.job) } }

/-- Writes a page of a scratchpad into its slot, coded. -/
def Device.savePage (d : Device) (spad : Memory) (base p : Nat) : Device :=
  let (map, bytes) := codePage (memoryOf 0 (spad.bytes (4096 * p) 4096))
  (d.putArea (base + 4096 * p) bytes).putArea (base + 2 ^ 20 + 16 * p) (toBytes 16 map)

/-- The bytes of a page decoded from its slot. -/
def loadPage (m : Memory) (base p : Nat) : List Byte :=
  let map := m.read (base + 2 ^ 20 + 16 * p) 16
  (rangeFrom 0 64).flatMap (fun i => (decodeBy m map (base + 4096 * p) i).getD (List.replicate 64 0#8))

/-- The scratchpad that a save area gives back. Lines whose slots lie at a fenced channel come back as poison (R356). -/
def Device.restoredPad (d : Device) (a : SaveArea) : Bank :=
  let down := if d.fencedChannels.isEmpty then [] else (rangeFrom 0 16384).filter (fun l => d.channelDown (a.base + 64 * l))
  { mem := memoryOf 0 ((rangeFrom 0 256).flatMap (loadPage d.gmem.mem a.base)), tags := a.tags, labels := a.labels,
    poison := down.foldl (fun l n => insertNat n l) a.poison }

/-- The ranges that stay in a core's scratchpad whichever job has it: the deque and the pipe buffers, which only the hearth and the
scheduler reach beside the forms that name them (R174). -/
def State.padKept (s : State) : List (Nat × Nat) :=
  (s.c.dqBase.toNat, s.c.dqLimit.toNat - s.c.dqBase.toNat) ::
    (s.d.launches.flatMap (fun l => l.pipes.filter (fun p => p.receiver == s.c.id))).map (fun p => (p.base, p.size * p.depth))

/-- Gives the scratchpad of the core in focus to a job: the dirty pages of the job that had it are saved, and the new job's
pages are restored. The wire barrier's region ends with it (R165). The rules say neither when the pad of a core that two jobs share
changes hands nor what becomes of its deque: DESIGN CHOICE (log entry 126), whenever a launch, a restored task, a unit, an engine or
a reply of the other job needs it, and the ranges of `padKept` keep their bytes. -/
def State.giveSpad (s : State) (job : BitVec 16) : State :=
  let c := s.c
  if c.spadJob = job then s
  else
    let d := match s.d.saveArea c.spadJob c.id with
      | none => s.d
      | some a =>
        let d := ((rangeFrom 0 256).filter (fun p => c.dirty.getLsbD p)).foldl (fun (d : Device) p => d.savePage c.spad.mem a.base p) s.d
        let a' : SaveArea := { a with tags := c.spad.tags, labels := c.spad.labels, poison := c.spad.poison }
        { d with saveAreas := d.saveAreas.map (fun x => if x.job == a.job && x.core == a.core then a' else x) }
    let spad : Bank := ((d.saveArea job c.id).map d.restoredPad).getD Bank.empty
    let spad := s.padKept.foldl (fun (b : Bank) r => b.putBytes r.1 (c.spad.mem.bytes r.1 r.2)) spad
    let dirty := s.padKept.foldl (fun m r => (units 4096 r.1 r.2).foldl (fun m p => m ||| BitVec.ofNat 256 (2 ^ p)) m) 0
    State.freeAreas { s with c := { c with spad, spadJob := job, dirty, region := none, warrived := false }, d }

end Sys2Proof.Machine
end

