-- ==== Sys2Proof/Machine/Memory.lean ====
section
/-! DEFINITION. Memory accesses (R72 to R93, R152 to R161): what an access does at its home, the store-combining buffer and
the read cache, releases and acquires, and the way from an instruction to its access and from a reply to its result. -/

namespace Sys2Proof.Machine

/-! ### What an access computes (R156, R159) -/

/-- The new value of an integer atomic of n bytes. -/
def atomNew (op n old x c : Nat) : Nat :=
  let m := 2 ^ (8 * n)
  match op with
  | 0 => x % m
  | 1 => if old = c % m then x % m else old
  | 2 => (old + x) % m
  | 3 => old &&& x % m
  | 4 => old ||| x % m
  | 5 => if signed (8 * n) old ≤ signed (8 * n) x then old else x % m
  | 6 => if signed (8 * n) x ≤ signed (8 * n) old then old else x % m
  | _ => (old + m - x % m) % m

/-- The new value of a floating atomic and the flags it raises: rounding is to nearest even. -/
def fatomNew (op : Nat) (fmt : SFmt) (old x : Nat) : Nat × Nat :=
  let F := match fmt with | .f32 => FFmt.fp32 | .f64 => FFmt.fp64
  let x := x % 2 ^ F.width
  match op with
  | 0 => fadd F 0 old x
  | 1 => fminmax F false old x
  | _ => fminmax F true old x

def AccKind.isLoad : AccKind → Bool
  | .ld _ | .vld _ _ | .poll _ => true
  | _ => false
def AccKind.isStore : AccKind → Bool
  | .st _ | .vst _ => true
  | _ => false
def AccKind.isAtomic (k : AccKind) : Bool := !k.isLoad && !k.isStore
def AccKind.isDecf : AccKind → Bool
  | .atom op _ => op == 7
  | _ => false

/-- What an access does with the bytes it finds: the bytes it writes, if any, the flags, and whether a cell fires. -/
def Access.effect (a : Access) (old : Nat) : Option Nat × Nat × Bool :=
  match a.kind with
  | .ld _ | .vld _ _ | .poll _ => (none, 0, false)
  | .st _ | .vst _ => (some a.data.toNat, 0, false)
  | .atom op _ =>
    let new := atomNew op.toNat a.n old a.data.toNat a.cmp.toNat
    (if op = 1 ∧ new = old then none else some new, 0, op = 7 ∧ old ≠ 0 ∧ new = 0)
  | .fatom op fmt => let r := fatomNew op.toNat fmt old a.data.toNat; (some r.1, r.2, false)

/-- DETAIL of a label violation (R352). -/
def labelDetail (page value : Label) : Nat := page.toNat + value.toNat * 65536

/-- Whether the TARGET of a fire cell is malformed (R157). -/
def badCell (cell : Nat) : Bool := bitsOf cell 88 40 != 0 || bitsOf cell 64 2 != 0

/-- What a home gives: the result, and the cell that fired. -/
abbrev Served := Result × Option Nat

/-- An access at a bank of a scratchpad (`place` 3) or a slice (4): the label rule for the whole access, the fire cell, the
poison, then the effect as one step (R46, R47, R50, R156, R357). -/
def Bank.perform (b : Bank) (place : Nat) (a : Access) : Except (Nat × Nat) (Served × Bank) :=
  let page := b.labelOf a.addr a.n
  if !a.kind.isLoad && !(b.accepts a.lo a.len a.vl) then .error (0x0B, labelDetail (b.labelOf a.lo a.len) a.vl)
  else
    let cell := if a.kind.isDecf then b.mem.read a.addr 32 else 0
    if a.kind.isDecf && badCell cell then .error (0x02, 2)
    else if !a.kind.isStore && b.poisoned a.addr a.n then .error (0x18, place)
    else
      let old := b.mem.read a.addr a.n
      let (w, fl, fires) := a.effect old
      let b' := match w with
        | none => b
        | some v => if a.tag then b.putCap a.addr (BitVec.ofNat 128 v) true else b.put a.addr a.n v
      let r : Result := {
        data := BitVec.ofNat 512 old, tag := a.keep && b.tagAt a.addr, label := page, flags := BitVec.ofNat 5 fl }
      .ok ((r, if fires then some cell else none), b')

/-- Counts a line read or written at a channel home (R415). -/
def Device.countLine (d : Device) (pa : Nat) (write : Bool) : Device :=
  if hostBase ≤ pa then d
  else
    let n := (if pa < 4 * dieBytes then 0 else 2) + (if write then 1 else 0)
    { d with dieBanks := vmod d.dieBanks (dieOfPa pa).toNat (·.add n 1) }

/-- An access at a channel home of this device, or at host memory. -/
def Device.perform (d : Device) (a : Access) : Except (Nat × Nat) (Served × Device) :=
  if !a.kind.isLoad && !(a.vl.sub a.page) then .error (0x0B, labelDetail a.page a.vl)
  else
    let cell := if a.kind.isDecf then d.gread a.comp a.addr 32 else 0
    if a.kind.isDecf && badCell cell then .error (0x02, 2)
    else if !a.kind.isStore && d.gpoisoned a.comp a.addr a.n then .error (0x18, d.poisonPlace a.comp a.addr)
    else
      let old := d.gread a.comp a.addr a.n
      let (w, fl, fires) := a.effect old
      let d := if a.kind.isStore then d else d.countLine a.addr false
      let d' := match w with
        | none => d
        | some v => (d.gwrite a.comp a.addr a.n (2 ^ a.n - 1) v).countLine a.addr true
      let r : Result := { data := BitVec.ofNat 512 old, tag := false, label := a.page, flags := BitVec.ofNat 5 fl }
      .ok ((r, if fires then some cell else none), d')

/-! ### Fires (R157) -/

/-- The spawn record of a fired cell; the target gives it its TID. -/
def fireRecord (a : Access) (cell : Nat) (page : Label) : SpawnRec :=
  { join := 0, arg2 := BitVec.ofNat 128 a.va, arg1 := BitVec.ofNat 128 (bitsOf cell 192 64), rkind := 0, tags := 0,
    prio := a.prio, entry := BitVec.ofNat 64 (bitsOf cell 128 64), tid := 0, clabel := page ||| a.vl, launch := a.launch }

/-- Sends the spawn request of a fired cell for the task `tid`; one for a peer device leaves through the fabric. -/
def State.fire (s : State) (tid : Tid) (a : Access) (r : Served) : State :=
  match r.2 with
  | none => s
  | some cell =>
    let target : Endpoint := BitVec.ofNat 24 (bitsOf cell 64 24)
    if Endpoint.dev target = s.d.fabric.device then
      s.send (Endpoint.core target) (.fire tid (fireRecord a cell r.1.label) a.va)
    else
      let (id, s) := s.newOp
      let o : PendOp := {
        id, pc := 0, next := 0, dest := none, result := false, kind := .ack, stage := .sent, clabel := r.1.label ||| a.vl,
        peer := true, host := false, seq := 0, cycle := s.d.cycle }
      let q := askEndpoint 6 target o.clabel (toBytes 64 (fireRecord a cell r.1.label).bits)
      let (o, s) := s.toPeer (Endpoint.dev target) (s.d.jobOfLaunch a.launch) o q
      { s with d := { s.d with orphans := s.d.orphans ++ [(s.c.id, tid, o)] } }

/-! ### Banks of this core, and the hearth's accesses (R72, R73) -/

/-- Counts a write at the doublewords of the shared window that it touches (R178). -/
def Device.countWrites (d : Device) (a n : Nat) : Device :=
  { d with writes := (units 8 a n).foldl (fun l w => putPair w ((l.lookup w).getD 0 + 1) l) d.writes }

/-- An access at the scratchpad of the core in focus or at the shared memory. A written scratchpad page is dirty (R350). -/
def State.bankPerform (s : State) (a : Access) : Except (Nat × Nat) (Served × State) :=
  match a.home with
  | .spad => match s.c.spad.perform 3 a with
    | .error e => .error e
    | .ok (r, b) =>
      let dirty := if a.kind.isLoad then s.c.dirty else s.c.dirty ||| BitVec.ofNat 256 (2 ^ (a.addr / 4096 % 256))
      .ok (r, { s with c := { s.c with spad := b, dirty } })
  | _ => match s.d.shared.perform 4 a with
    | .error e => .error e
    | .ok (r, b) =>
      let wrote := (a.effect r.1.data.toNat).1.isSome
      let d := { s.d with shared := b }
      .ok (r, { s with d := if wrote then (d.countWrites a.addr a.n).rereadSlices a.addr a.n else d })

/-- A write by the hearth or the hardware to the scratchpad of the core in focus. -/
def State.spadPut (s : State) (a n v : Nat) : State :=
  let pages := (units 4096 a n).foldl (fun m p => m + 2 ^ (p % 256)) 0
  { s with c := { s.c with spad := s.c.spad.put a n v, dirty := s.c.dirty ||| BitVec.ofNat 256 pages } }

/-- A granule written with its tag by the hardware. -/
def State.spadPutCap (s : State) (a : Nat) (q : Quad) (tag : Bool) : State :=
  { s with c := { s.c with spad := s.c.spad.putCap a q tag,
                           dirty := s.c.dirty ||| BitVec.ofNat 256 (2 ^ (a / 4096 % 256)) } }

/-! ### The read cache (R78) -/

def Core.cacheLine (c : Core) (home : Home) (line : Nat) : Option CacheLine :=
  c.cache.find? (fun l => l.home == home && l.line == line)

/-- Fills a line. Which of 2,048 lines goes is not said: DESIGN CHOICE (log entry 117), the one filled longest ago. -/
def Core.cacheFill (c : Core) (home : Home) (line : Nat) (data : BitVec 512) (label : Label) : Core :=
  { c with cache := { home, line, data, label } :: (c.cache.filter (fun l => !(l.home == home && l.line == line))).take 2047 }

def Core.cacheDrop (c : Core) (home : Home) (line : Nat) : Core :=
  { c with cache := c.cache.filter (fun l => !(l.home == home && l.line == line)) }

/-- Bytes of a line as masked bytes replace them. -/
def mergeBytes (old mask new : Nat) : Nat → Nat → Nat
  | 0, _ => 0
  | n + 1, i =>
    mergeBytes old mask new n (i + 1) + (if bitsOf mask i 1 = 1 then bitsOf new (8 * i) 8 else bitsOf old (8 * i) 8) * 2 ^ (8 * i)

def mergeLine (old mask new : Nat) : Nat := mergeBytes old mask new 64 0

/-- Drops a line from the caches of the other cores of the cluster of the core in focus. -/
def State.dropNeighbours (s : State) (home : Home) (line : Nat) : State :=
  { s with d := { s.d with cores := s.d.cores.map (fun c =>
      if CoreId.cluster c.id = CoreId.cluster s.c.id then c.cacheDrop home line else c) } }

/-- Drops a line from every cache of the cluster of the core in focus. -/
def State.clusterDrop (s : State) (home : Home) (line : Nat) : State :=
  let s := s.dropNeighbours home line
  { s with c := s.c.cacheDrop home line }

/-- A cluster unit takes a line for an atomic of narrow scope: the caches of the cluster drop it. One that it holds already keeps its
place; of 1,024 lines the one held longest, the first in the list, goes back (R78, R82). -/
def State.takeLine (s : State) (line : Nat) : State :=
  let cl := CoreId.cluster s.c.id
  let s := s.clusterDrop .channel line
  if s.d.clusterLines.contains (cl, line) then s
  else
    let mine := s.d.clusterLines.filter (fun p => p.1 == cl)
    let rest := s.d.clusterLines.filter (fun p => p.1 != cl && p.2 != line)
    { s with d := { s.d with clusterLines := rest ++ mine.drop (mine.length - 1023) ++ [(cl, line)] } }

/-- A channel home recalls a line from the cluster unit that holds it. -/
def State.recall (s : State) (line : Nat) : State :=
  { s with d := { s.d with clusterLines := s.d.clusterLines.filter (fun p => p.2 != line) } }

/-- An access of the core in focus reaches the home of a line: the unit of another cluster gives it back, that of its own is the
home (R72, R82). -/
def State.recallOthers (s : State) (line : Nat) : State :=
  { s with d := { s.d with clusterLines := s.d.clusterLines.filter (fun p => p.2 != line || p.1 == CoreId.cluster s.c.id) } }

/-- A write of the core in focus has been executed at the home of a line: its own cached line takes the masked bytes, and the other
caches of the cluster drop theirs (R76). -/
def State.lineTaken (s : State) (home : Home) (line mask data : Nat) : State :=
  let c := match s.c.cacheLine home line with
    | some l => s.c.cacheFill home line (BitVec.ofNat 512 (mergeLine l.data.toNat mask data)) l.label
    | none => s.c
  ({ s with c }).dropNeighbours home line

/-- A write at a peer has been executed there. Until then the core's line keeps what the home held, since no other task may see the
write before its home executes it (R84); the writing task waits for it at the same line (R85). -/
def State.peerWrote (s : State) (a : Access) : State :=
  match a.home, a.kind with
  | .peer _, .vst _ => s.lineTaken a.home (a.addr / 64) a.cmp.toNat a.data.toNat
  | .peer _, .atom _ _ | .peer _, .fatom _ _ => s.clusterDrop a.home (a.addr / 64)
  | _, _ => s

/-- An acquire at a scope: at die or wider the core's read cache is invalidated (R78, R87). -/
def State.acquire (s : State) (scope : Scope) : State :=
  if 4 ≤ scope.code then { s with c := { s.c with cache := [] } } else s

def acquires : Order → Bool
  | .acq | .acqrel => true
  | _ => false
def releases : Order → Bool
  | .rel | .acqrel => true
  | _ => false

/-! ### The combining buffer (R76, R77) -/

/-- An outstanding operation of the task at the port. -/
def State.addOp (s : State) (o : PendOp) : State := { s with t := { s.t with ops := s.t.ops ++ [o] } }

/-- The write of a drained entry to a peer, as an operation of its task. -/
def drainOp (e : ScbEntry) (id : Nat) (now : Nat) (pc : Word) : PendOp :=
  let a : Access := {
    kind := .vst 0, home := e.home, addr := 64 * e.line, va := 64 * e.vaLine, n := 64, lo := 64 * e.line, len := 64,
    data := e.data, cmp := e.mask, vl := e.label, al := 0, tag := false, keep := false, prio := 0, launch := 0, page := 0,
    comp := false, scope := e.scope, order := if e.rel then .rel else .plain }
  { id, pc, next := pc, dest := none, result := false, kind := .access a, stage := .sent, clabel := e.label, peer := true,
    host := false, seq := 0, cycle := now, first := e.first, last := e.last }

/-- Drains an entry of the core in focus. On this device and to host memory the home writes the masked bytes, the core's
own cached line takes them and the cluster's other caches drop theirs; to a peer the write leaves as an operation of the
entry's task. -/
def State.drain (s : State) (e : ScbEntry) : State :=
  let s := ({ s with c := { s.c with scb := s.c.scb.filter (fun k => k != e) } }).count 14
  match e.home with
  | .peer dev =>
    let (id, s) := s.newOp
    let (o, s) := s.peerAccess dev e.job (drainOp e id s.d.cycle 0)
    if (s.slotOf e.tid).isSome then
      s.modTask e.tid (fun t => { t with ops := t.ops ++ [{ o with pc := t.unitPc, next := t.unitPc }] })
    else { s with d := { s.d with orphans := s.d.orphans ++ [(s.c.id, e.tid, o)] } }
  | h =>
    let pa := 64 * e.line
    let d := (s.d.gwrite e.comp pa 64 e.mask.toNat e.data.toNat).countLine pa true
    let s := (({ s with d }).recallOthers e.line).lineTaken h e.line e.mask.toNat e.data.toNat
    (s.lineWritten pa e.mask.toNat).taint pa (some e.job)

/-- Drains entries, oldest first. -/
def State.drainAll (s : State) : List ScbEntry → State
  | [] => s
  | e :: r => (s.drain e).drainAll r

/-- Drains the entries of the task at the port. -/
def State.drainTask (s : State) : State := s.drainAll (s.c.scb.filter (fun e => e.tid == s.t.tid))

/-- Puts bytes of a store of the task at the port into the combining buffer. -/
def State.combine (s : State) (a : Access) : State :=
  let line := a.addr / 64
  let sh := a.addr % 64
  let mask := (2 ^ a.n - 1) * 2 ^ sh
  let data := a.data.toNat % 2 ^ (8 * a.n) * 2 ^ (8 * sh)
  let n := s.c.stores
  let s := { s with c := { s.c with stores := n + 1 } }
  let same (e : ScbEntry) : Bool := e.tid == s.t.tid && e.line == line && e.home == a.home
  match s.c.scb.find? same with
  | some e =>
    let e' : ScbEntry := { e with
      mask := e.mask ||| BitVec.ofNat 64 mask, data := BitVec.ofNat 512 (mergeLine e.data.toNat mask data), last := n,
      scope := if e.scope.code < a.scope.code then a.scope else e.scope, rel := e.rel || releases a.order,
      label := e.label ||| a.vl }
    { s with c := { s.c with scb := s.c.scb.map (fun k => if same k then e' else k) } }
  | none =>
    let s := match s.c.scb with
      | e :: _ => if 32 ≤ s.c.scb.length then s.drain e else s
      | [] => s
    let e : ScbEntry := {
      line, home := a.home, vaLine := a.va / 64, comp := a.comp, mask := BitVec.ofNat 64 mask,
      data := BitVec.ofNat 512 data, tid := s.t.tid, job := s.t.job, made := s.d.cycle, scope := a.scope, rel := releases a.order,
      first := n, last := n, label := a.vl }
    { s with c := { s.c with scb := s.c.scb ++ [e] } }

/-- The entry of the task at the port that holds bytes of an access. -/
def State.buffered (s : State) (a : Access) : Option ScbEntry :=
  s.c.scb.find? (fun e => e.tid == s.t.tid && e.line == a.addr / 64 && e.home == a.home)

/-- The bytes of an access with the task's buffered bytes merged over them (R77). -/
def State.forward (s : State) (a : Access) (v : Nat) : Nat :=
  match s.buffered a with
  | none => v
  | some e =>
    let sh := a.addr % 64
    mergeBytes v (e.mask.toNat / 2 ^ sh) (e.data.toNat / 2 ^ (8 * sh)) a.n 0

/-- Whether the task's buffered bytes cover an access. -/
def State.covered (s : State) (a : Access) : Bool :=
  match s.buffered a with
  | none => false
  | some e => bitsOf (e.mask.toNat / 2 ^ (a.addr % 64)) 0 a.n == 2 ^ a.n - 1

/-! ### Release and order (R81, R85 to R87) -/

/-- Whether an operation is an acquire that is not complete: an acquire access, or a take (R205). -/
def PendOp.acquiring (o : PendOp) : Bool :=
  match o.kind with
  | .access a => acquires a.order
  | .take _ _ => true
  | _ => false

/-- Whether an operation is a write. -/
def PendOp.writes (o : PendOp) : Bool :=
  match o.kind with
  | .access a => !a.kind.isLoad
  | _ => false

/-- Whether a release at a scope waits for an operation. Only a write at a peer or at the host is left to the wider scopes (R81); an
acquire is complete before any later access (R87). -/
def PendOp.awaited (o : PendOp) (scope : Scope) : Bool :=
  scope != .task && (o.acquiring || !o.writes ||
    ((!o.peer || scope == .pod || scope == .sys) && (!o.host || scope == .host || scope == .sys)))

/-- A release at a scope: the task's entries drain, and the effect waits for every operation that the scope covers. -/
def State.release (s : State) (scope : Scope) (k : State → State) : State :=
  if scope = .task then k s
  else
    let s := s.drainTask
    if s.t.ops.any (fun o => o.awaited scope) then s.park (.release scope) else k s

/-- Goes on once no incomplete acquire stands before (R87). -/
def State.afterAcquire (s : State) (k : State → State) : State := if s.t.ops.any (·.acquiring) then s.park .order else k s

/-- Whether an operation is an access to a location of one of these accesses: bytes of the same line, or of the same slice. -/
def PendOp.meets (o : PendOp) (as : List Access) : Bool :=
  match o.kind with
  | .access x => as.any (fun a => a.home == x.home && (units 64 x.addr x.n).any (fun l => (units 64 a.addr a.n).contains l))
  | _ => false

/-- Whether an operation on global or host memory touches a line of [a, a+n) of the same address space. -/
def PendOp.touches (o : PendOp) (a n : Nat) : Bool :=
  match o.kind with
  | .access x => (match x.home with | .slice _ => false | _ => (units 64 x.va x.n).any (fun l => (units 64 a n).contains l))
  | _ => false

/-- Runs an access once no incomplete acquire and no operation on the same lines stands before it, and after the release
it carries. -/
def State.inOrder (s : State) (scope : Scope) (order : Order) (a n : Nat) (k : State → State) : State :=
  if s.t.ops.any (fun o => o.acquiring || o.touches a n) then s.park .order
  else if releases order then s.release scope k else k s

/-! ### Results -/

/-- The 64-byte pieces of a vector entry, lowest first. -/
def joinQuarters (l : List (BitVec 512)) : Row :=
  BitVec.ofNat 2048 (l.foldr (fun q n => q.toNat + 2 ^ 512 * n) 0)

/-- The format tag of a vector load (R230). -/
def mfmtTag : MFmt → FTag
  | .raw => .raw | .f32 => .fp32 | .bf16 => .bf16 | .f16 => .fp16 | .f64 => .fp64 | .i32 => .int32 | .i16 => .int16
  | .i8 => .int8

/-- The value of a scalar result. -/
def scalarVal (bytes : Nat) (r : Result) (label : Label) : Val :=
  { bits := BitVec.ofNat 128 (r.data.toNat % 2 ^ (8 * bytes)), tag := r.tag, label := r.label ||| label }

/-- The buffer entry of a scalar result. -/
def scalarEntry (n : BitVec 4) (bytes : Nat) (r : Result) (label : Label) : BufEntry := .g n (scalarVal bytes r label)

/-- The buffer entry of a vector result. -/
def vectorEntry (n : BitVec 3) (fmt : MFmt) (rs : List Result) (label : Label) : BufEntry :=
  .o n { bits := joinQuarters (rs.map (·.data)), fmt := mfmtTag fmt, label := rs.foldl (fun l (r : Result) => l ||| r.label) label }

/-- Puts a buffer entry in the place kept for an operation's result, or takes the place away. -/
def fillWait (id : Nat) (e : Option BufEntry) : List BufEntry → List BufEntry
  | [] => []
  | .wait i d :: r => if i = id then (match e with | some x => x :: r | none => r) else .wait i d :: fillWait id e r
  | x :: r => x :: fillWait id e r

/-- Fills the place in the group's buffer and in the held one. -/
def Task.fill (t : Task) (id : Nat) (e : Option BufEntry) : Task :=
  { t with buf := fillWait id e t.buf, held := t.held.map (fun h => { h with buf := fillWait id e h.buf }) }

/-- Raises a cause whose unit is complete: the task resumes at the unit after it. When the unit carried the switch marker
and its group has not ended, the cause waits for the end of the group. -/
def State.raiseAfter (s : State) (next : Word) (cause detail : Nat) (value : Word) : State :=
  if s.t.status = .parked .group ∧ s.t.pc = next then
    { s with t := { s.t with deferred := s.t.deferred ++ [(BitVec.ofNat 8 cause, BitVec.ofNat 32 detail, value)] } }
  else s.raiseAt next cause detail value

/-- A result that has come for an operation goes to the place kept for it, or onto a maintenance port, where a label that is not 0 is
a violation (R298). -/
def State.land (s : State) (o : PendOp) (v : Val) : State :=
  match o.dest with
  | some (.g n) => { s with t := s.t.fill o.id (some (.g n v)) }
  | some (.q p) =>
    if v.label ||| s.t.clabel ≠ 0#16 then s.raiseAfter o.next 0x0B ((v.label ||| s.t.clabel).toNat * 65536) 0
    else { s with d := s.d.qpush (CoreId.die s.c.id) p (v.bits.setWidth 64) }
  | _ => s

/-- The place of a result that will not come is gone, and still counts in its group (R20, R160). -/
def Task.lose (t : Task) (id : Nat) : Task :=
  let here (l : List BufEntry) : Bool := l.any (fun e => match e with | .wait i _ => i == id | _ => false)
  { (t.fill id none) with
    lost := if here t.buf then t.lost + 1 else t.lost
    held := (t.fill id none).held.map (fun h => if t.held.any (fun h => here h.buf) then { h with lost := h.lost + 1 } else h) }

/-- Takes an operation of the task at the port off its list. -/
def State.dropOp (s : State) (id : Nat) : State := { s with t := { s.t with ops := s.t.ops.filter (fun o => o.id != id) } }

/-- The data of a reply from outside the partition is recorded, and in replay comes from the log (R418, R420, R421); the
operation is a chunk of its own. -/
def State.outsideData (s : State) (o : PendOp) (a : Access) (r : Result) : Result × State :=
  if !((o.peer || o.host) && o.result && (s.records s.t || s.replays s.t)) then (r, s)
  else
    let (v, s) := s.outsideWords r.data.toNat ((a.n + 7) / 8)
    ({ r with data := BitVec.ofNat 512 v }, s.commitOwn)

/-- Delivers the result of a finished access to the task at the port: the register, the flags of a fatom (R160), and the
acquire. A vector load is whole when its four quarters have come (R231). -/
def State.arrive (s : State) (o : PendOp) (a : Access) (r : Result) : State :=
  let label := a.al ||| o.clabel
  let (r, s) := s.outsideData o a r
  let s := if acquires a.order then s.acquire a.scope else s
  match a.kind, o.dest with
  | .vld q fmt, some (.o n) =>
    let s := { s with t := { s.t with ops := s.t.ops.map (fun (p : PendOp) => if p.id = o.id then { p with stage := .arrived r } else p) } }
    let base := o.id - q.toNat
    let got := (rangeFrom base 4).filterMap (fun i => (s.t.ops.find? (fun p => p.id == i)).bind (fun p =>
      match p.stage with | .arrived x => some x | _ => none))
    if got.length = 4 then
      { s with t := { (s.t.fill base (some (vectorEntry n fmt got label))) with
          ops := s.t.ops.filter (fun p => !(decide (base ≤ p.id) && decide (p.id < base + 4))) } }
    else s
  | .fatom _ _, _ =>
    let s := s.dropOp o.id
    let s := { s with t := s.t.orFlags r.flags.toNat (r.label ||| label) }
    if s.t.fpTraps r.flags.toNat then
      ({ s with t := s.t.lose o.id }).raiseAfter o.next 0x10 r.flags.toNat 0
    else s.land o (scalarVal a.n r label)
  | _, _ => (s.dropOp o.id).land o (scalarVal a.n r label)

/-- The operations that end with an operation: a vector load's quarters end together. -/
def PendOp.family (o : PendOp) : List Nat :=
  match o.kind, o.dest with
  | .access a, some (.o _) => (match a.kind with | .vld q _ => rangeFrom (o.id - q.toNat) 4 | _ => [o.id])
  | _, _ => [o.id]

/-- An operation of the task at the port ends with an error (R155, R353): a result-writing one raises the cause at its
unit, any other before the task's next unit, with DETAIL[8] set for a remote error and a withdrawn target. -/
def State.opFails (s : State) (o : PendOp) (cause detail : Nat) : State :=
  let value : Word := match o.kind with
    | .access a => causeValue cause a.va
    | _ => 0
  let ids := o.family
  let made := if s.t.arrival.any (fun x => x.1 == o.pc) then none else s.t.arrival
  let s := { s with t := { (s.t.fill (ids.head?.getD o.id) none) with
      ops := s.t.ops.filter (fun p => !ids.contains p.id), arrival := made } }
  if o.result then s.raiseAt o.pc cause detail value
  else
    let detail := if cause = 0x11 ∨ cause = 0x12 then detail + 256 else detail
    { s with t := { s.t with deferred := s.t.deferred ++ [(BitVec.ofNat 8 cause, BitVec.ofNat 32 detail, value)] } }

/-! ### From an instruction to its access -/

/-- A memory instruction's request: the access for the checks of R44, its operands, and its parts (one, or the four
quarters of a vector access) as kind, offset and length. -/
structure Req where
  acc : Acc
  cap : Val
  addr : Int
  n : Nat
  align : Nat
  perm : Nat
  vl : Label
  data : Nat
  cmp : Nat
  tag : Bool
  keep : Bool
  scope : Scope
  order : Order
  dest : Option Dest
  mig : Mig
  parts : List (AccKind × Nat × Nat)
  deriving DecidableEq, Repr

/-- One part of a request, at a home. -/
def State.part1 (s : State) (q : Req) (p : AccKind × Nat × Nat) (home : Home) (addr : Nat) (page : Label) (comp : Bool) :
    Access :=
  { kind := p.1, home, addr, va := q.addr.toNat + p.2.1, n := p.2.2, lo := addr - p.2.1, len := q.n,
    data := BitVec.ofNat 512 (q.data / 2 ^ (8 * p.2.1)), cmp := BitVec.ofNat 64 q.cmp, vl := q.vl,
    al := q.cap.label ||| s.t.clabel, tag := q.tag, keep := q.keep, prio := s.t.prio, launch := s.t.launch, page, comp,
    scope := q.scope, order := q.order }

/-- The end of an access that has been made whole: the result goes to its register, and the unit ends. The result that an FP trap takes
away still counts in its group (R20, R160). -/
def State.completed (s : State) (sw : Bool) (q : Req) (as : List (Access × Result)) : State :=
  let label := q.cap.label ||| s.t.clabel
  let s := s.raiseLabel q.cap.label
  let s := if acquires q.order then s.acquire q.scope else s
  let flags := as.foldl (fun f p => f ||| p.2.flags.toNat) 0
  let rl := as.foldl (fun l p => l ||| p.2.label) label
  let s := { s with t := s.t.orFlags flags rl }
  if s.t.fpTraps flags then
    let lost := match q.dest with
      | some (.g _) => s.t.lost + 1
      | _ => s.t.lost
    let s := ({ s with t := { s.t with lost } }).finish sw
    s.raiseAfter s.t.pc 0x10 flags 0
  else
    let e := match q.dest, as with
      | some (.g n), (a, r) :: _ => some (scalarEntry n a.n r label)
      | some (.o n), (a, _) :: _ => (match a.kind with
        | .vld _ fmt => some (vectorEntry n fmt (as.map (·.2)) label)
        | _ => none)
      | _, _ => none
    let s := match e with
      | some x => { s with t := s.t.buffer x }
      | none => s
    match q.dest, as with
    | some (.q p), (a, r) :: _ =>
      let v := scalarVal a.n r label
      let s := s.finish sw
      if v.label ||| s.t.clabel ≠ 0#16 then s.raiseAfter s.t.pc 0x0B ((v.label ||| s.t.clabel).toNat * 65536) 0
      else { s with d := s.d.qpush (CoreId.die s.c.id) p (v.bits.setWidth 64) }
    | _, _ => s.finish sw

/-- The parts of a request at a bank of the core in focus, one after another. -/
def State.bankParts (s : State) : List Access → Except (Nat × Nat) (List (Access × Result) × State)
  | [] => .ok ([], s)
  | a :: r => match s.bankPerform a with
    | .error e => .error e
    | .ok (v, s) =>
      match (s.fire s.t.tid a v).bankParts r with
      | .error e => .error e
      | .ok (l, s) => .ok ((a, v.1) :: l, s)

/-- An access at a bank that the core reaches itself. -/
def State.bankAccess (s : State) (sw : Bool) (q : Req) (as : List Access) : State :=
  match s.bankParts as with
  | .error (c, detail) => s.raise c detail (causeValue c q.addr.toNat)
  | .ok (l, s) => s.completed sw q l

/-- The operation of one part. -/
def State.opOf (s : State) (q : Req) (a : Access) (id : Nat) : PendOp :=
  { id, pc := s.t.unitPc, word := s.t.word, next := s.t.pc + 4, dest := q.dest, result := q.dest.isSome, kind := .access a, stage := .sent,
    clabel := s.t.clabel, peer := (match a.home with | .peer _ => true | _ => false), host := a.home == .host, seq := 0,
    cycle := s.d.cycle, first := s.c.stores, last := s.c.stores }

/-- A load from a peer takes with it the bytes that the task's combining buffer holds for it (R77): `cmp` says which of `data` they
are. -/
def State.withBuffered (s : State) (a : Access) : Access :=
  match a.kind, s.buffered a with
  | .ld _, some e | .vld _ _, some e =>
    let sh := a.addr % 64
    { a with data := BitVec.ofNat 512 (e.data.toNat / 2 ^ (8 * sh)), cmp := BitVec.ofNat 64 (e.mask.toNat / 2 ^ sh) }
  | _, _ => a

/-- Sends the parts as outstanding operations; one bound for another core's hearth is a message to it. -/
def State.sendParts (s : State) (q : Req) : List Access → State
  | [] => s
  | a :: r =>
    let (id, s) := s.newOp
    let (o, s) := match a.home with
      | .peer dev => s.peerAccess dev s.t.job (s.opOf q (s.withBuffered a) id)
      | _ => (s.opOf q a id, s)
    let s := s.addOp o
    let s := match a.home with
      | .slice c => s.send c (.access s.t.tid id a)
      | .host => if a.kind.isAtomic then
          let h : HostAtomic := { core := s.c.id, tid := s.t.tid, op := id, acc := a, compared := none, tries := 0 }
          { s with d := { s.d with hostQueue := s.d.hostQueue ++ [h] } }
        else s
      | _ => s
    s.sendParts q r

/-- An access that leaves the core: its result is awaited in the buffer. -/
def State.outward (s : State) (sw : Bool) (q : Req) (as : List Access) : State :=
  let id := s.d.nextOp
  let outside := as.any (fun a => match a.home with | .peer _ | .host => true | _ => false)
  let s := s.raiseLabel q.cap.label
  let s := if outside then s.ownChunk else s
  let s := if outside && q.dest.isNone then s.commitOwn else s
  let s := (s.await id q.dest).sendParts q as
  let n := if q.acc = .store then as.length else 0
  ({ s with c := { s.c with stores := s.c.stores + n } }).finish sw

/-! ### The three windows -/

/-- Whether [a, a+n) and [lo, hi) share a byte; an empty range has none. -/
def overlap (a n lo hi : Nat) : Bool := decide (a < hi) && decide (lo < a + n) && decide (lo < hi)

/-- Whether bytes of the scratchpad of the core in focus lie in its deque or in the slots of a pipe received there (R174). -/
def State.spadGuarded (s : State) (a n : Nat) : Bool :=
  overlap a n s.c.dqBase.toNat s.c.dqLimit.toNat ||
  s.d.launches.any (fun l => l.pipes.any (fun p => p.receiver == s.c.id && overlap a n p.base (p.base + p.size * p.depth)))

/-- Whether bytes of the shared window lie in an ember area (R197). -/
def Device.emberGuarded (d : Device) (a n : Nat) : Bool :=
  d.slices.any (fun sl =>
    overlap a n sl.area (sl.area + 32 * sl.decl.cap))

/-- Whether a global VA range of a job lies in the ash log of one of its stores (R197). -/
def Device.ashGuarded (d : Device) (p : BitVec 2) (job : BitVec 16) (a n : Nat) : Bool :=
  d.graphs.any (fun g => g.part == p && g.job == job && g.stores.any (fun x =>
    let m := (x.x1.toNat + 1 - x.x0.toNat) * (x.y1.toNat + 1 - x.y0.toNat)
    overlap a n x.albase.toNat (x.albase.toNat + 16 * x.alsize * m)))

/-- The permission of the place (R174, R197, R367): a user access keeps out of what only the hardware reaches, and no
shared access leaves the partition. -/
def State.forbidden (s : State) (w : Win) (a n : Nat) : Bool :=
  match w with
  | .spad => s.t.level == 0 && s.spadGuarded a n
  | .shared => s.d.partOf (CoreId.die (sliceCore (a - 0x40000000))) != s.part || (s.t.level == 0 && s.d.emberGuarded a n)
  | .glob => s.t.level == 0 && s.d.ashGuarded s.part s.t.job a n

/-- Whether the task at the port may be marked to migrate, and an access in its effective mode marks it (R25, R168). -/
def State.migrates (s : State) (mig : Mig) : Bool :=
  let mode := match mig with | .none => tswMig s.t.tsw == 1 | .remote => false | .migrate => true
  mode && s.t.kind == 0 && s.t.anchor.isNone && !tswPin s.t.tsw && s.t.level == 0 && !s.t.ut && s.t.frames.isEmpty &&
  s.t.resv == 0 && s.t.inbox.isEmpty && !s.t.onHearth

/-- An access to the shared window: at the core's own slice, or through the hearths of the slices' cores. -/
def State.sharedAccess (s : State) (sw : Bool) (q : Req) : State :=
  let a := q.addr.toNat
  let at_ (p : AccKind × Nat × Nat) : CoreId := sliceCore (a + p.2.1 - 0x40000000)
  if q.parts.all (fun p => at_ p == s.c.id) then
    if s.d.fencedSlices.contains s.c.id then s.raise 0x11 0x18
    else
      let as := q.parts.map (fun p => s.part1 q p (.slice s.c.id) (a + p.2.1) 0 false)
      if s.t.ops.any (·.meets as) then s.park .order else s.bankAccess sw q as
  else
    let goal := (q.parts.getLast?.map at_).getD s.c.id
    let s := if s.migrates q.mig then { s with t := { s.t with mark := some goal } } else s
    s.outward sw q (q.parts.map (fun p => s.part1 q p (.slice (at_ p)) (a + p.2.1) 0 false))

/-- Deals with a failed translation: a cause, a hypervisor handler, or a flip that is awaited (R306, R318). -/
def State.xfail (s : State) (va : Nat) : XFail → State
  | .cause c detail => s.raise c detail (causeValue c va)
  | .second c detail ia => s.raiseHyp c detail (BitVec.ofNat 64 va) (BitVec.ofNat 64 ia)
  | .flip ia frame =>
    let vmid := (s.c.jobRegs s.t.job).vmid.setWidth 16
    let s := { s with t := { s.t with unsent := [] } }
    (s.startFlip s.part vmid ia frame).park (.flip vmid (ia / 4096 * 4096))

/-- The operations of a request that cannot be sent yet (R343): their homes are still unknown. -/
def State.unsentOps (s : State) (q : Req) : List (AccKind × Nat × Nat) → List PendOp × State
  | [] => ([], s)
  | p :: r =>
    let (id, s) := s.newOp
    let (l, s) := s.unsentOps q r
    (s.opOf q (s.part1 q p .channel (q.addr.toNat + p.2.1) 0 false) id :: l, s)

/-- A request whose translation has failed. One that awaits a flip keeps its operations, for the replay entry that it becomes if
its task is saved meanwhile. -/
def State.reqFails (s : State) (q : Req) (va : Nat) (f : XFail) : State :=
  match f with
  | .flip _ _ =>
    let (ops, s) := s.unsentOps q q.parts
    let s := s.xfail va f
    { s with t := { s.t with unsent := ops } }
  | f => s.xfail va f

/-- The accesses of a request's parts at their translated places, or the failure. Host memory lies at tier 2. -/
def State.globalParts (s : State) (q : Req) : List (AccKind × Nat × Nat) → Except (Nat × XFail) (List Access) × State
  | [] => (.ok [], s)
  | p :: r =>
    let va := q.addr.toNat + p.2.1
    match s.translate q.acc va with
    | (.error f, s) => (.error (va, f), s)
    | (.ok e, s) =>
      let a := s.part1 q p (if e.tier = 2 then .host else .channel) (e.at va) e.label e.comp
      match s.globalParts q r with
      | (.ok l, s) => (.ok (a :: l), s)
      | (.error f, s) => (.error f, s)

/-- Whether the read cache serves a load narrower than die, with the bytes and the page label it gives; where it holds older bytes
than the home, the choice is free (R78). -/
def State.cached (s : State) (a : Access) : Option (Nat × Label) × State :=
  if 4 ≤ a.scope.code || a.home == .host then (none, s)
  else match s.c.cacheLine a.home (a.addr / 64) with
    | none => (none, s)
    | some l =>
      let v := bitsOf l.data.toNat (8 * (a.addr % 64)) (8 * a.n)
      match a.home with
      | .channel =>
        if v = s.d.gread a.comp a.addr a.n then (some (v, a.page), s)
        else let (b, s) := s.freeBit; (if b then some (v, a.page) else none, s)
      | _ => (some (v, l.label), s)

/-- The bytes of a load that need no home: the task's own buffered bytes, or the read cache. A load at scope die or wider always
reads the home (R78), and the label of a peer's page is known only from its reply or its cached line (R75). -/
def State.nearLoad (s : State) (a : Access) : Option Result × State :=
  let res (v : Nat) (l : Label) : Result := { data := BitVec.ofNat 512 (s.forward a v), tag := false, label := l, flags := 0 }
  let peer := match a.home with | .peer _ => true | _ => false
  if s.covered a && decide (a.scope.code < 4) && !peer then (some (res 0 a.page), s)
  else match s.cached a with
    | (some (v, l), s) => (some (res v l), s)
    | (none, s) => (none, s.count 13)

/-- Loads of all parts that need no home. -/
def State.nearLoads (s : State) : List Access → Option (List (Access × Result)) × State
  | [] => (some [], s)
  | a :: r => match s.nearLoad a with
    | (none, s) => (none, s)
    | (some v, s) => match s.nearLoads r with
      | (some l, s) => (some ((a, v) :: l), s)
      | (none, s) => (none, s)

/-- Stores of all parts into the combining buffer. -/
def State.combineAll (s : State) : List Access → State
  | [] => s
  | a :: r => (s.combine a).combineAll r

/-- An access to translated memory, at this device, at the host or at a peer. The label of a store or an atomic is checked
with the translation (R75); a peer checks its own. -/
def State.homeAccess (s : State) (sw : Bool) (q : Req) (as : List Access) : State :=
  let peer := as.any (fun a => match a.home with | .peer _ => true | _ => false)
  if s.t.ops.any (·.meets as) then s.park .order
  else match as.find? (fun a => !peer && !a.kind.isLoad && !(a.vl.sub a.page)) with
  | some a => s.raise 0x0B (labelDetail a.page a.vl) (BitVec.ofNat 64 a.va)
  | none =>
    if q.acc = .store then (s.raiseLabel q.cap.label).combineAll as |>.finish sw
    else if q.acc = .load then
      match s.nearLoads as with
      | (some l, s) => s.completed sw q l
      | (none, s) => s.outward sw q as
    else
      let host := as.any (fun a => a.home == .host)
      if host && as.any (fun a => a.kind.isDecf) then s.raise 0x06 0 (causeValue 0x06 q.addr.toNat)
      else if (host && !(q.scope == .host || q.scope == .sys)) || (peer && !(q.scope == .pod || q.scope == .sys)) then
        s.raise 0x11
      else (s.drainAll (s.c.scb.filter (fun e => e.tid == s.t.tid && as.any (fun a => e.line == a.addr / 64)))).outward sw q as

/-- The deferred error of a store that its place does not perform (R353). -/
def State.refuseStore (s : State) (cause : Nat) : State :=
  { s with t := { s.t with deferred := s.t.deferred ++ [(0x11, BitVec.ofNat 32 (256 + cause), 0)] } }

/-- An access to a unit's register page (R398). -/
def State.unitAccess (s : State) (sw : Bool) (q : Req) (die : BitVec 2) (page off : Nat) : State :=
  let u := unitOf die page
  match q.parts with
  | [(.ld .d, _, _)] =>
    let r : Result := { data := (s.unitLoad u off).setWidth 512, tag := false, label := 0#16, flags := 0 }
    s.completed sw q [(s.part1 q (.ld .d, 0, 8) .channel 0 0#16 false, r)]
  | [(.st .d, _, _)] =>
    let v : Word := BitVec.ofNat 64 q.data
    let s' := s.raiseLabel q.cap.label
    (match s.unitRefuses u off v q.vl with
     | some c => s'.refuseStore c
     | none => s'.schedule [.event (unitEvent u off v)]).finish sw
  | _ => s.raise 0x08 0 (causeValue 0x08 q.addr.toNat)

/-- An access in the system window (R308, R368). -/
def State.windowAccess (s : State) (sw : Bool) (q : Req) (pa : Nat) : State :=
  if !(s.windowAdmits s.t.level q.acc pa) then
    s.raise 0x0A (xDetail 0 0 q.acc) (causeValue 0x0A q.addr.toNat)
  else match sysPieceOf s.d pa with
    | some (.unit die page) => s.unitAccess sw q die page (pa % 4096)
    | some (.control p) =>
      if q.acc = .store ∧ controlRefuses s.t.level (pa - controlPa p) then
        ((s.raiseLabel q.cap.label).refuseStore 0x06).finish sw
      else s.homeAccess sw q (q.parts.map (fun x => s.part1 q x .channel (pa + x.2.1) 0#16 false))
    | _ => s.homeAccess sw q (q.parts.map (fun x => s.part1 q x .channel (pa + x.2.1) 0#16 false))

/-- A doubleword stored to a launch region (R388): a launch word to another pod, carried as a launch packet. -/
def State.launchAccess (s : State) (sw : Bool) (q : Req) (dev : BitVec 12) (part : BitVec 2) : State :=
  match q.parts with
  | [(.st .d, _, _)] =>
    let own := dev == s.d.fabric.device
    if !(releases q.order && (q.scope == .pod || (own && q.scope == .part))) then
      s.raise 0x06 0 (causeValue 0x06 q.addr.toNat)
    else
      let (id, s) := s.newOp
      let o : PendOp := { (s.opOf q (s.part1 q (.st .d, 0, 8) (.peer dev) 0 0 false) id) with
        peer := !own, result := false }
      let ask := askEndpoint 5 (controllerOf dev part.toNat) q.vl (toBytes 8 q.data)
      let (o, s) := if own then (o, s) else s.toPeer dev s.t.job o ask
      let s := (s.raiseLabel q.cap.label).addOp o
      (if own then s.schedule [.event (.launchPacket part dev s.t.job (BitVec.ofNat 64 q.data))] else s).finish sw
  | _ => s.raise 0x06 0 (causeValue 0x06 q.addr.toNat)

/-- An access to the global window. -/
def State.globalAccess (s : State) (sw : Bool) (q : Req) : State :=
  let va := q.addr.toNat
  match s.gplaceOf s.t.job s.t.level va with
  | .window pa => s.windowAccess sw q pa
  | .peer dev => s.homeAccess sw q (q.parts.map (fun p => s.part1 q p (.peer dev) (va + p.2.1) 0 false))
  | .launch dev part => s.launchAccess sw q dev part
  | .here => match s.globalParts q q.parts with
    | (.error (va, f), s) => s.reqFails q va f
    | (.ok as, s) => s.homeAccess sw q as

/-- A memory instruction: the checks of R44 in their order, the permissions of the place, the breakpoints, the order, then
the access in its window. -/
def State.memory (s : State) (sw : Bool) (q : Req) : State :=
  match checkAccess q.cap memSpaces q.perm q.addr q.n q.align none with
  | .error c => s.raise c 0 (causeValue c q.addr.toNat)
  | .ok w =>
    let a := q.addr.toNat
    if s.forbidden w a q.n then s.raise 0x06 0 (causeValue 0x06 a)
    else s.watched (q.acc != .store) (q.acc != .load) a q.n (fun s =>
      s.inOrder q.scope q.order a q.n (fun s => match w with
        | .spad => s.bankAccess sw q (q.parts.map (fun p => s.part1 q p .spad (a + p.2.1) 0 false))
        | .shared => s.sharedAccess sw q
        | .glob => s.globalAccess sw q))

/-! ### Replay entries (R170, R344, R345) -/

/-- The accesses of operations that were never sent, at their translated places, or the failure. -/
def State.placeUnsent (s : State) : List PendOp → Except (Nat × XFail) (List (PendOp × Access)) × State
  | [] => (.ok [], s)
  | o :: r => match o.kind with
    | .access a =>
      (match s.translate (if a.kind.isLoad then .load else if a.kind.isStore then .store else .atomic) a.va with
      | (.error f, s) => (.error (a.va, f), s)
      | (.ok e, s) =>
        let at_ := e.at a.va
        let a' : Access := { a with
          home := if e.tier = 2 then .host else .channel, addr := at_, lo := at_ - (a.addr - a.lo), page := e.label, comp := e.comp }
        match s.placeUnsent r with
        | (.ok l, s) => (.ok ((o, a') :: l), s)
        | (.error f, s) => (.error f, s))
    | _ => s.placeUnsent r

/-- One such access is made: a store enters the combining buffer, anything else is an outstanding operation. -/
def State.sendUnsent (s : State) (o : PendOp) (a : Access) : State :=
  let s := s.raiseLabel a.al
  if a.kind.isStore then s.combine a
  else
    let s := s.addOp { o with kind := .access a, host := a.home == .host, cycle := s.d.cycle }
    if a.home == .host && a.kind.isAtomic then
      { s with d := { s.d with hostQueue := s.d.hostQueue ++ [{ core := s.c.id, tid := s.t.tid, op := o.id, acc := a, compared := none, tries := 0 }] } }
    else s

/-- The task at the port as it stood before a unit that must be issued afresh. -/
def Task.backFrom (t : Task) (o : PendOp) : Task :=
  { (t.backTo o.pc) with status := .ready, unsent := [], buf := fillWait o.id none t.buf }

/-- The replay entries of a task that has been restored: recorded old values are written, and the operations that were never sent are
made. One that cannot be made is found so at its unit. -/
def State.reissue (s : State) : State :=
  let known (s : State) (o : PendOp) : State := match o.kind, o.stage with
    | .access a, .executed r => s.arrive o a r
    | _, _ => s
  let s := s.t.ops.foldl known s
  match s.t.unsent with
  | [] => s
  | o :: _ => match s.placeUnsent s.t.unsent with
    | (.error (va, f), s) => State.xfail { s with t := s.t.backFrom o } va f
    | (.ok l, s) =>
      match l.find? (fun p => !p.2.kind.isLoad && !(p.2.vl.sub p.2.page)) with
      | some (_, a) => State.raise { s with t := s.t.backFrom o } 0x0B (labelDetail a.page a.vl) (BitVec.ofNat 64 a.va)
      | none => l.foldl (fun s p => s.sendUnsent p.1 p.2) { s with t := { s.t with unsent := [] } }

end Sys2Proof.Machine
end

