-- ==== Sys2Proof/Machine/Blocks.lean ====
section
/-! DEFINITION. Block-quantised formats (R59 to R63), the microscaling import (R66 to R68) and the matrix k-step (R69). -/

namespace Sys2Proof.Machine

/-! ### BQ blocks -/

/-- A block: the shared exponent, the micro-exponents and the sixteen elements as (sign, magnitude). -/
structure Block where
  e : Nat
  mu : Nat
  els : List (Bool × Nat)
  deriving DecidableEq, Repr

/-- The exponent of the unit of element i. -/
def Block.unit (b : Block) (n i : Nat) : Int :=
  (b.e : Int) - 127 - (bitsOf b.mu (i / 2) 1 : Int) - ((n : Int) - 1)

/-- The value of element i of a block of BQn (R59). -/
def Block.value (b : Block) (n i : Nat) : Num :=
  if b.e = 255 then .nan false
  else match b.els[i]? with
    | some (s, m) => .fin s m (b.unit n i)
    | none => .fin false 0 0

/-- A finite value at a base exponent, as an integer. -/
def Num.at (base : Int) : Num → Int
  | .fin s m e => atExp s m e base
  | _ => 0

/-- The smallest exponent of a list of values, and a bound. -/
def minExp (l : List Num) (b : Int) : Int :=
  l.foldl (fun a x => match x with | .fin _ _ e => min a e | _ => a) b

/-- Encodes the elements from i on, with the residual that reaches the next one (R62). Values, scales and residuals are
integers at the exponent `base`. -/
def bqElements (n e mu : Nat) (base : Int) : Nat → Int → List Num → List (Bool × Nat)
  | _, _, [] => []
  | i, res, x :: r =>
    match x with
    | .inf s => (s, 2 ^ n - 1) :: bqElements n e mu base (i + 1) 0 r
    | _ =>
      let sc : Nat := 2 ^ ((e : Int) - 127 - (bitsOf mu (i / 2) 1 : Int) - ((n : Int) - 1) - base).toNat
      let y : Int := x.at base + res
      let q0 := y.natAbs / sc
      let r0 := y.natAbs % sc
      let q1 := if 2 * r0 > sc ∨ (2 * r0 = sc ∧ q0 % 2 = 1) then q0 + 1 else q0
      let q := min q1 (2 ^ n - 1)
      let s := if y = 0 then x.sign else decide (y < 0)
      let d : Int := ((q * sc : Nat) : Int)
      (s, q) :: bqElements n e mu base (i + 1) (y - (if s then -d else d)) r

/-- The encoding of sixteen values into a block of BQn, and its flags (R62). -/
def encodeBlock (n : Nat) (x : List Num) : Block × Nat :=
  if x.any Num.isNan then
    ({ e := 255, mu := 0, els := List.replicate 16 (false, 0) }, if x.any Num.isSig then fNV else 0)
  else
    let e0 := minExp x 0
    let m := x.foldl (fun a v => max a (v.at e0).natAbs) 0
    let someInf := x.any (fun v => match v with | .inf _ => true | _ => false)
    let top : Int := (Nat.log2 m : Int) + e0
    -- round m / 2^(top − (n − 1)) to an integer
    let (k, _) := roundShift 0 false m (top - ((n : Int) - 1) - e0)
    let ex : Int := if m = 0 then 0 else if k = 2 ^ n then top + 128 else top + 127
    let ended := someInf || decide (0xFE < ex)
    let e : Nat := if someInf then 0xFE else min ex.toNat 0xFE
    let base := min e0 (-127 - 1 - ((n : Int) - 1))
    let bound : Int := (e : Int) - 128
    let small (v : Num) : Bool := match v with
      | .fin _ mm me => mm == 0 || decide ((Nat.log2 mm : Int) + me < bound)
      | _ => false
    let mu := (rangeFrom 0 8).foldl (fun a j =>
      if small (x[2 * j]?.getD (.fin false 0 0)) && small (x[2 * j + 1]?.getD (.fin false 0 0)) then a + 2 ^ j else a) 0
    let b : Block := { e, mu, els := bqElements n e mu base 0 0 x }
    let nx := (rangeFrom 0 16).any (fun i => match x[i]? with
      | some (.inf _) => true
      | some v => (b.value n i).at base != v.at base
      | none => false)
    let uf := m != 0 && decide (ex < 0) && nx
    (b, (if ended then fOF + fNX else 0) ||| (if uf then fUF else 0) ||| (if nx then fNX else 0))

/-- The block's mantissa field of 16(n + 1) bits. -/
def Block.field (b : Block) (n : Nat) : Nat :=
  b.els.foldr (fun p acc => acc * 2 ^ (n + 1) + ((if p.1 then 2 ^ n else 0) + p.2)) 0

/-- The scale record (R60). -/
def Block.scale (b : Block) : Nat := b.e * 256 + b.mu

/-- A block from its mantissa field and scale record. -/
def blockOf (n field scale : Nat) : Block :=
  { e := bitsOf scale 8 8, mu := bitsOf scale 0 8,
    els := (rangeFrom 0 16).map (fun i =>
      let c := bitsOf field ((n + 1) * i) (n + 1)
      (bitsOf c n 1 == 1, bitsOf c 0 n)) }

/-- The element width parameter n of a BQ tag, the blocks of a row and the byte P of its scale records (R61). -/
def bqParams : FTag → Option (Nat × Nat × Nat)
  | .bq7 => some (7, 14, 224)
  | .bq4 => some (4, 21, 210)
  | .bq2 => some (2, 32, 192)
  | _ => none

/-- Block b of a row of BQn. -/
def rowBlock (n p : Nat) (row : Row) (b : Nat) : Block :=
  blockOf n (bitsOf row.toNat (b * 16 * (n + 1)) (16 * (n + 1))) (bitsOf row.toNat (8 * (p + 2 * b)) 16)

/-- A number with bits [lo+len-1:lo] replaced. -/
def putBits (n lo len v : Nat) : Nat := n - bitsOf n lo len * 2 ^ lo + v % 2 ^ len * 2 ^ lo

/-- A row with a block put in place; pad bytes are as in the row given. -/
def putBlock (n p : Nat) (row : Nat) (b : Nat) (k : Block) : Nat :=
  putBits (putBits row (b * 16 * (n + 1)) (16 * (n + 1)) (k.field n)) (8 * (p + 2 * b)) 16 k.scale

/-! ### Microscaling elements (R66) -/

/-- The value of an element code of 16 to 19 (E4M3, E5M2, E2M3, E3M2; 20 to 23 the same) times 2^(scale − 127). DESIGN CHOICE (log
entry 114): in a group whose scale is 0xFF every element is a quiet NaN, a signalling one too, so that none raises invalid. -/
def mxValue (code el scale : Nat) : Num :=
  let sc : Int := (scale : Int) - 127
  let gen (e f bias : Nat) : Num :=
    let s := bitsOf el (e + f) 1 == 1
    let x := bitsOf el f e
    let m := bitsOf el 0 f
    if x = 0 then .fin s m (1 - (bias : Int) - f + sc) else .fin s (m + 2 ^ f) ((x : Int) - bias - f + sc)
  if scale = 255 then .nan false
  else match code % 4 with
    | 0 => if bitsOf el 0 7 = 127 then .nan false else gen 4 3 7
    | 1 => match ({ e := 5, f := 2 } : FFmt).decode el with
      | .fin s m e => .fin s m (e + sc)
      | v => v
    | 2 => gen 2 3 1
    | _ => gen 3 2 3

/-! ### The k-step (R69) -/

/-- The k-step sum of sixteen exact products. `window` is the alignment window of the floating formats. -/
def kstepSum (window : Bool) (ps : List Num) : Num :=
  if ps.any Num.isNan then .nan false
  else
    let pinf := ps.any (fun v => v == .inf false)
    let ninf := ps.any (fun v => v == .inf true)
    if pinf && ninf then .nan false
    else if pinf then .inf false
    else if ninf then .inf true
    else
      let e0 := minExp ps 0
      let v := ps.foldl (fun a p => a + p.at e0) 0
      if ps.all Num.isZero then .fin (ps.all Num.sign) 0 0
      else if v = 0 then .fin false 0 0
      else if !window then .fin (v < 0) v.natAbs e0
      else
        let emax := ps.foldl (fun (a : Option Int) p => match p with
          | .fin _ m e => if m = 0 then a else
              let x : Int := (Nat.log2 m : Int) + e
              some (match a with | some y => max x y | none => x)
          | _ => a) none
        let q := emax.getD 0 - 47
        if q ≤ e0 then .fin (v < 0) v.natAbs e0
        else
          let (k, _) := roundShift 0 (v < 0) v.natAbs (q - e0)
          .fin (v < 0) k q

/-- The accumulator after a k-step of a floating or BQ operand format. -/
def kstepFloat (window : Bool) (acc : Nat) (xs ys : List Num) : Nat :=
  let s := kstepSum window ((xs.zip ys).map (fun p => (mulNum p.1 p.2).1))
  (FFmt.fp32.deliver 0 (addNum 0 (FFmt.fp32.decode acc) s).1).1

/-- The INT32 accumulator after a k-step of INT8 operands. -/
def kstepInt (acc : Nat) (xs ys : List Int) : Nat :=
  let s := ((xs.zip ys).map (fun p => p.1 * p.2)).foldl (· + ·) 0
  wrap 32 (saturate true 32 (signed 32 acc + s))

end Sys2Proof.Machine
end

