-- ==== Sys2Proof/Machine/Float.lean ====
section
/-! DEFINITION. The scalar floating-point instructions (R145 to R147). -/

namespace Sys2Proof.Machine

def sfmtF : SFmt → FFmt
  | .f32 => FFmt.fp32
  | .f64 => FFmt.fp64

/-- The bits of a source read in a floating format. -/
def State.fbits (s : State) (F : FFmt) (r : SReg) : Nat := (s.rd r).bits.toNat % 2 ^ F.width
/-- The rounding mode of the task. -/
def State.rm (s : State) : Nat := tswRm s.t.tsw

def State.fpu2 (s : State) (sw : Bool) (d a b : SReg) (fmt : SFmt) (f : FFmt → Nat → Nat → Nat → Nat × Nat) : State :=
  s.float sw [a, b] d (fun s => f (sfmtF fmt) s.rm (s.fbits (sfmtF fmt) a) (s.fbits (sfmtF fmt) b))
def State.fpu1 (s : State) (sw : Bool) (d a : SReg) (fmt : SFmt) (f : FFmt → Nat → Nat → Nat × Nat) : State :=
  s.float sw [a] d (fun s => f (sfmtF fmt) s.rm (s.fbits (sfmtF fmt) a))

/-- A comparison's integer result. -/
def boolRes (r : Bool × Nat) : Nat × Nat := (if r.1 then 1 else 0, r.2)

/-- What a conversion code stands for: a floating format, or an integer format's signedness and width. -/
def cfmtOfCode : CFmt → Sum FFmt (Bool × Nat)
  | .f32 => .inl FFmt.fp32
  | .f64 => .inl FFmt.fp64
  | .f16 => .inl FFmt.fp16
  | .bf16 => .inl FFmt.bf16
  | .i32 => .inr (true, 32)
  | .u32 => .inr (false, 32)
  | .i64 => .inr (true, 64)
  | .u64 => .inr (false, 64)

/-- The conversion of R147: an i32 result is sign-extended to 64 bits, a u32 result zero-extended. -/
def convertScalar (rm : Nat) (dst src : CFmt) (n : Nat) : Nat × Nat :=
  match cfmtOfCode dst, cfmtOfCode src with
  | .inl G, .inl F => fcvtff F G rm (n % 2 ^ F.width)
  | .inl G, .inr (sg, w) => fcvtif G rm (intOf sg w n)
  | .inr (sg, w), .inl F =>
    let (v, fl) := numToInt rm (intLo sg w) (intHi sg w) (F.decode (n % 2 ^ F.width))
    (wrap 64 v, fl)
  | .inr (sg, w), .inr (tg, v) => (wrap 64 (saturate sg w (intOf tg v n)), 0)

/-- `fpu.add` (R145), rounded once. -/
def execFpuAdd (sw : Bool) (d a b : SReg) (fmt : SFmt) (s : State) : Out :=
  .next (s.fpu2 sw d a b fmt fadd)

/-- `fpu.sub` (R145), rounded once. -/
def execFpuSub (sw : Bool) (d a b : SReg) (fmt : SFmt) (s : State) : Out :=
  .next (s.fpu2 sw d a b fmt fsub)

/-- `fpu.mul` (R145), rounded once. -/
def execFpuMul (sw : Bool) (d a b : SReg) (fmt : SFmt) (s : State) : Out :=
  .next (s.fpu2 sw d a b fmt fmul)

/-- `fpu.div` (R145), rounded once. -/
def execFpuDiv (sw : Bool) (d a b : SReg) (fmt : SFmt) (s : State) : Out :=
  .next (s.fpu2 sw d a b fmt fdiv)

/-- `fpu.sqrt` (R145). -/
def execFpuSqrt (sw : Bool) (d a : SReg) (fmt : SFmt) (s : State) : Out :=
  .next (s.fpu1 sw d a fmt fsqrt)

/-- `fpu.fma` (R145): a × b + G[d], G[d] read at the start of the group. -/
def execFpuFma (sw : Bool) (d a b : SReg) (fmt : SFmt) (s : State) : Out :=
  .next (s.float sw [a, b, d] d (fun s =>
    ffma (sfmtF fmt) s.rm (s.fbits (sfmtF fmt) a) (s.fbits (sfmtF fmt) b) (s.fbits (sfmtF fmt) d)))

/-- `fpu.min` (R146). -/
def execFpuMin (sw : Bool) (d a b : SReg) (fmt : SFmt) (s : State) : Out :=
  .next (s.fpu2 sw d a b fmt (fun F _ x y => fminmax F false x y))

/-- `fpu.max` (R146). -/
def execFpuMax (sw : Bool) (d a b : SReg) (fmt : SFmt) (s : State) : Out :=
  .next (s.fpu2 sw d a b fmt (fun F _ x y => fminmax F true x y))

/-- `fpu.neg` (R145). -/
def execFpuNeg (sw : Bool) (d a : SReg) (fmt : SFmt) (s : State) : Out :=
  .next (s.fpu1 sw d a fmt (fun F _ x => (fneg F x, 0)))

/-- `fpu.abs` (R145). -/
def execFpuAbs (sw : Bool) (d a : SReg) (fmt : SFmt) (s : State) : Out :=
  .next (s.fpu1 sw d a fmt (fun F _ x => (fabs F x, 0)))

/-- `fpu.sgnj` (R145): a's magnitude with b's sign. -/
def execFpuSgnj (sw : Bool) (d a b : SReg) (fmt : SFmt) (s : State) : Out :=
  .next (s.fpu2 sw d a b fmt (fun F _ x y => (fsgnj F x y, 0)))

/-- `fpu.cmpeq` (R145). -/
def execFpuCmpeq (sw : Bool) (d a b : SReg) (fmt : SFmt) (s : State) : Out :=
  .next (s.fpu2 sw d a b fmt (fun F _ x y => boolRes (fcmpeq F x y)))

/-- `fpu.cmplt` (R145). -/
def execFpuCmplt (sw : Bool) (d a b : SReg) (fmt : SFmt) (s : State) : Out :=
  .next (s.fpu2 sw d a b fmt (fun F _ x y => boolRes (fcmplt F false x y)))

/-- `fpu.cmple` (R145). -/
def execFpuCmple (sw : Bool) (d a b : SReg) (fmt : SFmt) (s : State) : Out :=
  .next (s.fpu2 sw d a b fmt (fun F _ x y => boolRes (fcmplt F true x y)))

/-- `fpu.class` (R146). -/
def execFpuClass (sw : Bool) (d a : SReg) (fmt : SFmt) (s : State) : Out :=
  .next (s.fpu1 sw d a fmt (fun F _ x => (fclass F x, 0)))

/-- `fcvt` (R147). -/
def execFcvt (sw : Bool) (d a : SReg) (dst src : CFmt) (s : State) : Out :=
  .next (s.float sw [a] d (fun s => convertScalar s.rm dst src (s.rd a).bits.toNat))

end Sys2Proof.Machine
end

