-- ==== Sys2Proof/Machine/Special.lean ====
section
/-! DEFINITION. The special functions (R70, R71). Where the exact result is representable it is returned; otherwise the
two adjacent values are found from an approximation of 400 bits, and which of them is returned is left open except for
monotony: the upper value is returned from a threshold of the operand's rank on (log entry 6). -/

namespace Sys2Proof.Machine

/-- The fixed-point precision of the approximations. -/
def fixP : Nat := 400

/-- The sum of 2^P / (k × 2^k) for k from n down to 1: ln 2. -/
def ln2Go : Nat → Nat
  | 0 => 0
  | n + 1 => ln2Go n + 2 ^ fixP / ((n + 1) * 2 ^ (n + 1))
def ln2Fix : Nat := ln2Go fixP

/-- e^y for a fixed-point y in [0, 1): terms y^k / k! from k on. -/
def expGo (y : Nat) : Nat → Nat → Nat → Nat
  | 0, _, _ => 0
  | fuel + 1, k, term => term + expGo y fuel (k + 1) (term * y / 2 ^ fixP / (k + 1))
def expFix (y : Nat) : Nat := expGo y 128 0 (2 ^ fixP)

/-- atanh z for a fixed-point z up to 1/3: terms z^(2k+1) / (2k+1). -/
def atanhGo (z2 : Nat) : Nat → Nat → Nat → Nat
  | 0, _, _ => 0
  | fuel + 1, k, pow => pow / (2 * k + 1) + atanhGo z2 fuel (k + 1) (pow * z2 / 2 ^ fixP)
def atanhFix (z : Nat) : Nat := atanhGo (z * z / 2 ^ fixP) 140 0 z

/-- The order of a format's values: a lower number for a lower value. -/
def FFmt.rank (F : FFmt) (n : Nat) : Nat :=
  let h := 2 ^ (F.width - 1)
  if h ≤ n % 2 ^ F.width then 2 * h - 1 - n % 2 ^ F.width else n % 2 ^ F.width + h

/-- One of the two values adjacent to an exact result that lies strictly between m × 2^e and (m + 1) × 2^e in magnitude,
and its flags (R70). A magnitude above the largest finite value gives ∞ with overflow. The result is tiny when the exact value,
rounded to the same side with unbounded exponent, is (R57). -/
def FFmt.adjacent (F : FFmt) (op fmt : Nat) (decreasing : Bool) (operand : Nat) (s : Bool) (m : Nat) (e : Int) :
    Nat × Nat :=
  let lo := F.round 2 s (2 * m + 1) (e - 1)
  let hi := F.round 3 s (2 * m + 1) (e - 1)
  if lo.1 = F.inf true ∨ hi.1 = F.inf false then (F.inf s, fOF + fNX)
  else
    let thr := Config.vsfThreshold op fmt lo.1
    let up := if decreasing then decide (F.rank operand < thr) else decide (thr ≤ F.rank operand)
    let r := if up then hi else lo
    (r.1, fNX ||| (r.2 &&& fUF))

/-- 2^t for a fixed-point exponent t that is no integer of the operand's function. -/
def FFmt.exp2Of (F : FFmt) (op fmt operand : Nat) (t : Int) : Nat × Nat :=
  let i := t / ((2 ^ fixP : Nat) : Int)
  let fr := (t % ((2 ^ fixP : Nat) : Int)).toNat
  if F.emax < i then (F.inf false, fOF + fNX)
  else if i < F.emin - F.f - 3 then F.adjacent op fmt false operand false 1 (F.emin - F.f - 3)
  else F.adjacent op fmt false operand false (expFix (fr * ln2Fix / 2 ^ fixP)) (i - fixP)

/-- A dyadic value times 2^P, rounded toward −∞. -/
def fixOf (s : Bool) (m : Nat) (e : Int) : Int :=
  let sh : Int := e + fixP
  let v : Int := if 0 ≤ sh then ((m * 2 ^ sh.toNat : Nat) : Int) else 0
  let q := m / 2 ^ (-sh).toNat
  let r := m % 2 ^ (-sh).toNat
  if 0 ≤ sh then (if s then -v else v)
  else if s then -((if r = 0 then q else q + 1 : Nat) : Int) else (q : Int)

def vexp2 (F : FFmt) (fmt n : Nat) : Nat × Nat :=
  match F.decode n with
  | .nan b => (F.qnan, if b then fNV else 0)
  | .inf s => (if s then F.zero false else F.inf false, 0)
  | .fin s m e =>
    let whole := decide (0 ≤ e) || m % 2 ^ (-e).toNat == 0
    let t := fixOf s m e
    let i := t / ((2 ^ fixP : Nat) : Int)
    if m = 0 then (F.round 0 false 1 0)
    else if whole ∧ F.emin - F.f ≤ i ∧ i ≤ F.emax then F.round 0 false 1 i
    else F.exp2Of 0 fmt n t

def vexp (F : FFmt) (fmt n : Nat) : Nat × Nat :=
  match F.decode n with
  | .nan b => (F.qnan, if b then fNV else 0)
  | .inf s => (if s then F.zero false else F.inf false, 0)
  | .fin s m e =>
    if m = 0 then F.round 0 false 1 0
    else
      -- x / ln 2 in fixed point, toward −∞
      let num : Int := fixOf s m (e + fixP)
      F.exp2Of 2 fmt n (num / (ln2Fix : Int))

/-- ln of m × 2^e in fixed point. -/
def lnFix (m : Nat) (e : Int) : Int :=
  let l := Nat.log2 m
  let z := (m - 2 ^ l) * 2 ^ fixP / (m + 2 ^ l)
  (2 * atanhFix z : Nat) + ((l : Int) + e) * (ln2Fix : Int)

/-- A logarithm's common part: special operands (R71), then a fixed-point value. -/
def vlogWith (F : FFmt) (n : Nat) (k : Nat → Int → Nat × Nat) : Nat × Nat :=
  match F.decode n with
  | .nan b => (F.qnan, if b then fNV else 0)
  | .inf s => if s then (F.qnan, fNV) else (F.inf false, 0)
  | .fin s m e => if m = 0 then (F.inf true, fDZ) else if s then (F.qnan, fNV) else k m e

def vlog2 (F : FFmt) (fmt n : Nat) : Nat × Nat :=
  vlogWith F n (fun m e =>
    let l := Nat.log2 m
    if m = 2 ^ l then
      let v : Int := (l : Int) + e
      F.round 0 (v < 0) v.natAbs 0
    else
      let z := (m - 2 ^ l) * 2 ^ fixP / (m + 2 ^ l)
      let v : Int := ((2 * atanhFix z * 2 ^ fixP / ln2Fix : Nat) : Int) + ((l : Int) + e) * ((2 ^ fixP : Nat) : Int)
      F.adjacent 1 fmt false n (v < 0) v.natAbs (-(fixP : Int)))

def vlog (F : FFmt) (fmt n : Nat) : Nat × Nat :=
  vlogWith F n (fun m e =>
    let l := Nat.log2 m
    if m = 2 ^ l ∧ (l : Int) + e = 0 then (F.zero false, 0)
    else
      let v := lnFix m e
      F.adjacent 3 fmt false n (v < 0) v.natAbs (-(fixP : Int)))

def vrcp (F : FFmt) (fmt n : Nat) : Nat × Nat :=
  match F.decode n with
  | .nan b => (F.qnan, if b then fNV else 0)
  | .inf s => (F.zero s, 0)
  | .fin s m e =>
    let l := Nat.log2 m
    if m = 0 then (F.inf s, fDZ)
    else if m = 2 ^ l then F.round 0 s 1 (-(l : Int) - e)
    else F.adjacent 4 fmt true n s (2 ^ (l + 200) / m) (-((l + 200 : Nat) : Int) - e)

def vrsqrt (F : FFmt) (fmt n : Nat) : Nat × Nat :=
  vlogWith F n (fun m e =>
    let (m, e) := if e % 2 = 0 then (m, e) else (m * 2, e - 1)
    let k := Nat.log2 m + 200
    let r := isqrt (2 ^ (2 * k) / m)
    if r * r * m = 2 ^ (2 * k) then F.round 0 false r (-(k : Int) - e / 2)
    else F.adjacent 5 fmt true n false r (-(k : Int) - e / 2))
  |> fun r => match F.decode n with
    | .inf false => (F.zero false, 0)
    | .fin false 0 _ => (F.inf false, fDZ)
    | _ => r

end Sys2Proof.Machine
end

