-- ==== Sys2Proof/Machine/Vector.lean ====
section
/-! DEFINITION. The vector and special-function instructions (R218 to R229). -/

namespace Sys2Proof.Machine

/-! ### Lanes (R39, R219) -/

/-- Element i of a row whose elements have w bits. -/
def lane (r : Row) (w i : Nat) : Nat := bitsOf r.toNat (i * w) w

/-- A row from its elements, n of them of w bits. -/
def rowBits (w : Nat) (f : Nat → Nat) : Nat → Nat
  | 0 => 0
  | n + 1 => rowBits w f n + f n % 2 ^ w * 2 ^ (w * n)
def rowOf (w n : Nat) (f : Nat → Nat) : Row := BitVec.ofNat 2048 (rowBits w f n)

/-- The elements of a tag: how many, and their width in bits. KEYS counts its 32 pairs, RAW and the BQ tags bytes. -/
def tagLanes (f : FTag) : Nat × Nat :=
  match f.width with
  | some n => (n, 2048 / n)
  | none => if f = .keys then (32, 64) else (256, 8)

def vfmtTag : VFmt → FTag
  | .f32 => .fp32 | .bf16 => .bf16 | .f16 => .fp16 | .f64 => .fp64
def vfmtF : VFmt → FFmt
  | .f32 => FFmt.fp32 | .bf16 => FFmt.bf16 | .f16 => FFmt.fp16 | .f64 => FFmt.fp64
def ifmtTag : IFmt → FTag
  | .i32 => .int32 | .u32 => .uint32 | .i16 => .int16 | .i8 => .int8
def ifmtSigned : IFmt → Bool
  | .u32 => false
  | _ => true
def ifmtWidth : IFmt → Nat
  | .i32 | .u32 => 32 | .i16 => 16 | .i8 => 8

/-- A mask register of an anchor. -/
def Anchor.mask (a : Anchor) (k : BitVec 2) : Mask := a.m[k.toNat]?.getD Mask.ones

/-- The mask of a hint.mod prefix, inverted under MNEG. -/
def State.prefixMask (s : State) (a : Anchor) : Option Mask :=
  match s.t.pfxMod with
  | some { mig := _, msk := some k, neg } =>
    let m := a.mask k
    some (if neg then { m with bits := ~~~m.bits } else m)
  | _ => none

/-- Whether a mask selects element i of a row of n elements (R219). -/
def Mask.selects (m : Mask) (n i : Nat) : Bool := m.bits.getLsbD (if n ≤ 128 then i else i / 2)

/-! ### The common effect (R220) -/

/-- The result of a vector ALU form on a row of n elements of w bits: `f` gives an element and its flags, `keep` names the
elements that keep their old value even without a mask. -/
def State.vecResult (s : State) (a : Anchor) (sw : Bool) (d : VReg) (srcs : List VReg) (extra : Label) (res : FTag)
    (n w : Nat) (keeps : Bool) (keep : Nat → Bool) (f : Nat → Nat × Nat) : State :=
  let mask := s.prefixMask a
  let old := match d with
    | .o _ => a.rd d
    | _ => a.lv
  let usesOld := keeps || mask.isSome
  if usesOld && old.fmt != .none && old.fmt != res then s.raise 0x03
  else
    let on (i : Nat) : Bool := !(keep i) && (match mask with | some m => m.selects n i | none => true)
    let oldBits : Row := if old.fmt = .none then 0 else old.bits
    let bits := rowOf w n (fun i => if on i then (f i).1 else lane oldBits w i)
    let fl := (rangeFrom 0 n).foldl (fun acc i => if on i then acc ||| (f i).2 else acc) 0
    let lab := srcs.foldl (fun l r => l ||| (a.rd r).label) (s.t.clabel ||| extra)
    let lab := match mask with | some m => lab ||| m.label | none => lab
    let lab := if usesOld then lab ||| old.label else lab
    let s := { s with t := s.t.orFlags fl lab }
    if s.t.fpTraps fl then s.raise 0x10 fl
    else (s.putVector d { bits, fmt := res, label := lab }).finish sw

/-- A vector ALU form whose sources carry one tag and whose result carries it too. -/
def State.vec (s : State) (acc : Accept) (sw : Bool) (d : VReg) (srcs : List VReg) (tag : FTag)
    (f : Anchor → Nat → Nat × Nat) : State :=
  s.withAnchor (fun a => s.issueWith acc [] .zero (vrWrites d) (fun s =>
    if srcs.any (fun r => !(a.tagOk r tag)) then s.raise 0x03
    else s.vecResult a sw d srcs 0 tag (tagLanes tag).1 (tagLanes tag).2 false (fun _ => false) (f a)))

/-- Element i of a vector source. -/
def Anchor.el (a : Anchor) (r : VReg) (w i : Nat) : Nat := lane (a.rd r).bits w i

def State.vfp2 (s : State) (sw : Bool) (d a b : VReg) (fmt : VFmt) (f : FFmt → Nat → Nat → Nat → Nat × Nat) : State :=
  s.vec Accept.mskOnly sw d [a, b] (vfmtTag fmt) (fun an i =>
    f (vfmtF fmt) s.rm (an.el a (vfmtF fmt).width i) (an.el b (vfmtF fmt).width i))
def State.vfp1 (s : State) (sw : Bool) (d a : VReg) (fmt : VFmt) (f : FFmt → Nat → Nat → Nat × Nat) : State :=
  s.vec Accept.mskOnly sw d [a] (vfmtTag fmt) (fun an i => f (vfmtF fmt) s.rm (an.el a (vfmtF fmt).width i))
/-- An integer vector form on exact integers and bits. -/
def State.vint2 (s : State) (sw : Bool) (d a b : VReg) (fmt : IFmt) (f : Nat → Bool → Nat → Nat → Nat) : State :=
  s.vec Accept.mskOnly sw d [a, b] (ifmtTag fmt) (fun an i =>
    (f (ifmtWidth fmt) (ifmtSigned fmt) (an.el a (ifmtWidth fmt) i) (an.el b (ifmtWidth fmt) i), 0))
/-- A special function (R224), with the code of its format for the open choice of R70. -/
def State.vsf (s : State) (sw : Bool) (d a : VReg) (fmt : VFmt) (f : FFmt → Nat → Nat → Nat × Nat) : State :=
  s.vec Accept.mskOnly sw d [a] (vfmtTag fmt) (fun an i => f (vfmtF fmt) (VFmt.code fmt) (an.el a (vfmtF fmt).width i))

/-- A compare (R222): bit i of the mask is the relation at element i, bits from the row width up are 0. -/
def State.vcmp (s : State) (sw : Bool) (a b : VReg) (mk : BitVec 2) (tag : FTag) (f : Nat → Nat → Bool × Nat) : State :=
  s.withAnchor (fun an => s.issueWith Accept.none [] .zero false (fun s =>
    if !(an.tagOk a tag) || !(an.tagOk b tag) then s.raise 0x03
    else
      let (n, w) := tagLanes tag
      let r (i : Nat) := f (an.el a w i) (an.el b w i)
      let bits := BitVec.ofNat 128 (rowBits 1 (fun i => if (r i).1 then 1 else 0) n)
      let fl := (rangeFrom 0 n).foldl (fun acc i => acc ||| (r i).2) 0
      let lab := s.t.clabel ||| (an.rd a).label ||| (an.rd b).label
      let s := { s with t := s.t.orFlags fl lab }
      if s.t.fpTraps fl then s.raise 0x10 fl
      else (s.modAnchor (fun k => { k with m := k.m.setIfInBounds mk.toNat { bits, label := lab } })).finish sw))

/-- sel (R222): element i of va where the mask bit is 1, else of vb. -/
def State.vsel (s : State) (sw : Bool) (d a b : VReg) (mk : BitVec 2) (tag : FTag) : State :=
  s.withAnchor (fun an => s.issueWith Accept.none [] .zero (vrWrites d) (fun s =>
    if !(an.tagOk a tag) || !(an.tagOk b tag) then s.raise 0x03
    else
      let (n, w) := tagLanes tag
      let m := an.mask mk
      s.vecResult an sw d [a, b] m.label tag n w false (fun _ => false) (fun i =>
        (if m.bits.getLsbD i then an.el a w i else an.el b w i, 0))))

/-! ### vfp (R221) -/

/-- `vfp.add` (R221). -/
def execVfpAdd (sw : Bool) (d a b : VReg) (fmt : VFmt) (s : State) : Out :=
  .next (s.vfp2 sw d a b fmt fadd)

/-- `vfp.sub` (R221). -/
def execVfpSub (sw : Bool) (d a b : VReg) (fmt : VFmt) (s : State) : Out :=
  .next (s.vfp2 sw d a b fmt fsub)

/-- `vfp.mul` (R221). -/
def execVfpMul (sw : Bool) (d a b : VReg) (fmt : VFmt) (s : State) : Out :=
  .next (s.vfp2 sw d a b fmt fmul)

/-- `vfp.fma` (R221): A × B + C, rounded once. -/
def execVfpFma (sw : Bool) (d a b c : VReg) (fmt : VFmt) (s : State) : Out :=
  .next (s.vec Accept.mskOnly sw d [a, b, c] (vfmtTag fmt) (fun an i =>
    ffma (vfmtF fmt) s.rm (an.el a (vfmtF fmt).width i) (an.el b (vfmtF fmt).width i) (an.el c (vfmtF fmt).width i)))

/-- `vfp.min` (R146, R221). -/
def execVfpMin (sw : Bool) (d a b : VReg) (fmt : VFmt) (s : State) : Out :=
  .next (s.vfp2 sw d a b fmt (fun F _ x y => fminmax F false x y))

/-- `vfp.max` (R146, R221). -/
def execVfpMax (sw : Bool) (d a b : VReg) (fmt : VFmt) (s : State) : Out :=
  .next (s.vfp2 sw d a b fmt (fun F _ x y => fminmax F true x y))

/-- `vfp.abs` (R221). -/
def execVfpAbs (sw : Bool) (d a : VReg) (fmt : VFmt) (s : State) : Out :=
  .next (s.vfp1 sw d a fmt (fun F _ x => (fabs F x, 0)))

/-- `vfp.neg` (R221). -/
def execVfpNeg (sw : Bool) (d a : VReg) (fmt : VFmt) (s : State) : Out :=
  .next (s.vfp1 sw d a fmt (fun F _ x => (fneg F x, 0)))

/-- `vfp.div` (R221). -/
def execVfpDiv (sw : Bool) (d a b : VReg) (fmt : VFmt) (s : State) : Out :=
  .next (s.vfp2 sw d a b fmt fdiv)

/-- `vfp.sqrt` (R221). -/
def execVfpSqrt (sw : Bool) (d a : VReg) (fmt : VFmt) (s : State) : Out :=
  .next (s.vfp1 sw d a fmt fsqrt)

/-- `vfp.cmpeq` (R222). -/
def execVfpCmpeq (sw : Bool) (a b : VReg) (mk : BitVec 2) (fmt : VFmt) (s : State) : Out :=
  .next (s.vcmp sw a b mk (vfmtTag fmt) (fcmpeq (vfmtF fmt)))

/-- `vfp.cmplt` (R222). -/
def execVfpCmplt (sw : Bool) (a b : VReg) (mk : BitVec 2) (fmt : VFmt) (s : State) : Out :=
  .next (s.vcmp sw a b mk (vfmtTag fmt) (fcmplt (vfmtF fmt) false))

/-- `vfp.cmple` (R222). -/
def execVfpCmple (sw : Bool) (a b : VReg) (mk : BitVec 2) (fmt : VFmt) (s : State) : Out :=
  .next (s.vcmp sw a b mk (vfmtTag fmt) (fcmplt (vfmtF fmt) true))

/-- `vfp.sel` (R222). -/
def execVfpSel (sw : Bool) (d a b : VReg) (mk : BitVec 2) (fmt : VFmt) (s : State) : Out :=
  .next (s.vsel sw d a b mk (vfmtTag fmt))

/-! ### vint (R223) -/

/-- `vint.add` (R223). -/
def execVintAdd (sw : Bool) (d a b : VReg) (fmt : IFmt) (s : State) : Out :=
  .next (s.vint2 sw d a b fmt (fun _ _ x y => x + y))

/-- `vint.sub` (R223). -/
def execVintSub (sw : Bool) (d a b : VReg) (fmt : IFmt) (s : State) : Out :=
  .next (s.vint2 sw d a b fmt (fun w _ x y => x + 2 ^ w - y % 2 ^ w))

/-- `vint.mul` (R223). -/
def execVintMul (sw : Bool) (d a b : VReg) (fmt : IFmt) (s : State) : Out :=
  .next (s.vint2 sw d a b fmt (fun _ _ x y => x * y))

/-- `vint.adds` (R223). -/
def execVintAdds (sw : Bool) (d a b : VReg) (fmt : IFmt) (s : State) : Out :=
  .next (s.vint2 sw d a b fmt (fun w sg x y => wrap w (saturate sg w (intOf sg w x + intOf sg w y))))

/-- `vint.subs` (R223). -/
def execVintSubs (sw : Bool) (d a b : VReg) (fmt : IFmt) (s : State) : Out :=
  .next (s.vint2 sw d a b fmt (fun w sg x y => wrap w (saturate sg w (intOf sg w x - intOf sg w y))))

/-- `vint.min` (R223). -/
def execVintMin (sw : Bool) (d a b : VReg) (fmt : IFmt) (s : State) : Out :=
  .next (s.vint2 sw d a b fmt (fun w sg x y => if intOf sg w x < intOf sg w y then x else y))

/-- `vint.max` (R223). -/
def execVintMax (sw : Bool) (d a b : VReg) (fmt : IFmt) (s : State) : Out :=
  .next (s.vint2 sw d a b fmt (fun w sg x y => if intOf sg w x < intOf sg w y then y else x))

/-- `vint.and` (R223). -/
def execVintAnd (sw : Bool) (d a b : VReg) (fmt : IFmt) (s : State) : Out :=
  .next (s.vint2 sw d a b fmt (fun _ _ x y => x &&& y))

/-- `vint.or` (R223). -/
def execVintOr (sw : Bool) (d a b : VReg) (fmt : IFmt) (s : State) : Out :=
  .next (s.vint2 sw d a b fmt (fun _ _ x y => x ||| y))

/-- `vint.xor` (R223). -/
def execVintXor (sw : Bool) (d a b : VReg) (fmt : IFmt) (s : State) : Out :=
  .next (s.vint2 sw d a b fmt (fun _ _ x y => x ^^^ y))

/-- `vint.sll` (R223). -/
def execVintSll (sw : Bool) (d a b : VReg) (fmt : IFmt) (s : State) : Out :=
  .next (s.vint2 sw d a b fmt (fun w _ x y => x * 2 ^ (y % w)))

/-- `vint.srl` (R223). -/
def execVintSrl (sw : Bool) (d a b : VReg) (fmt : IFmt) (s : State) : Out :=
  .next (s.vint2 sw d a b fmt (fun w _ x y => x / 2 ^ (y % w)))

/-- `vint.sra` (R223). -/
def execVintSra (sw : Bool) (d a b : VReg) (fmt : IFmt) (s : State) : Out :=
  .next (s.vint2 sw d a b fmt (fun w _ x y => wrap w (signed w x / 2 ^ (y % w))))

/-- `vint.cmpeq` (R222). -/
def execVintCmpeq (sw : Bool) (a b : VReg) (mk : BitVec 2) (fmt : IFmt) (s : State) : Out :=
  .next (s.vcmp sw a b mk (ifmtTag fmt) (fun x y => (x == y, 0)))

/-- `vint.cmplt` (R222). -/
def execVintCmplt (sw : Bool) (a b : VReg) (mk : BitVec 2) (fmt : IFmt) (s : State) : Out :=
  .next (s.vcmp sw a b mk (ifmtTag fmt) (fun x y =>
    (decide (intOf (ifmtSigned fmt) (ifmtWidth fmt) x < intOf (ifmtSigned fmt) (ifmtWidth fmt) y), 0)))

/-- `vint.sel` (R222). -/
def execVintSel (sw : Bool) (d a b : VReg) (mk : BitVec 2) (fmt : IFmt) (s : State) : Out :=
  .next (s.vsel sw d a b mk (ifmtTag fmt))

/-! ### vsf (R224) -/

/-- `vsf.exp2` (R70, R71, R224). -/
def execVsfExp2 (sw : Bool) (d a : VReg) (fmt : VFmt) (s : State) : Out :=
  .next (s.vsf sw d a fmt vexp2)

/-- `vsf.log2` (R70, R71, R224). -/
def execVsfLog2 (sw : Bool) (d a : VReg) (fmt : VFmt) (s : State) : Out :=
  .next (s.vsf sw d a fmt vlog2)

/-- `vsf.exp` (R70, R71, R224). -/
def execVsfExp (sw : Bool) (d a : VReg) (fmt : VFmt) (s : State) : Out :=
  .next (s.vsf sw d a fmt vexp)

/-- `vsf.log` (R70, R71, R224). -/
def execVsfLog (sw : Bool) (d a : VReg) (fmt : VFmt) (s : State) : Out :=
  .next (s.vsf sw d a fmt vlog)

/-- `vsf.rcp` (R70, R71, R224). -/
def execVsfRcp (sw : Bool) (d a : VReg) (fmt : VFmt) (s : State) : Out :=
  .next (s.vsf sw d a fmt vrcp)

/-- `vsf.rsqrt` (R70, R71, R224). -/
def execVsfRsqrt (sw : Bool) (d a : VReg) (fmt : VFmt) (s : State) : Out :=
  .next (s.vsf sw d a fmt vrsqrt)

/-! ### Conversions (R225, R226) -/

/-- What a format tag of codes 1 to 8 holds: a floating format, or an integer format's signedness and width. -/
def tagKind : FTag → Option (Sum FFmt (Bool × Nat))
  | .fp32 => some (.inl FFmt.fp32)
  | .bf16 => some (.inl FFmt.bf16)
  | .fp16 => some (.inl FFmt.fp16)
  | .fp64 => some (.inl FFmt.fp64)
  | .int32 => some (.inr (true, 32))
  | .uint32 => some (.inr (false, 32))
  | .int16 => some (.inr (true, 16))
  | .int8 => some (.inr (true, 8))
  | _ => none

/-- The conversion of one element (R64, R65). -/
def convertEl (rm : Nat) (dst src : FTag) (n : Nat) : Nat × Nat :=
  match tagKind dst, tagKind src with
  | some (.inl G), some (.inl F) => fcvtff F G rm n
  | some (.inl G), some (.inr (sg, w)) => fcvtif G rm (intOf sg w n)
  | some (.inr (sg, w)), some (.inl F) =>
    let (v, fl) := numToInt rm (intLo sg w) (intHi sg w) (F.decode n)
    (wrap w v, fl)
  | some (.inr (sg, w)), some (.inr (tg, v)) => (wrap w (saturate sg w (intOf tg v n)), 0)
  | _, _ => (0, 0)

/-- Packing BF16 elements into the blocks of a group (R226): the row and the flags. -/
def packGroup (n blocks p : Nat) (g : Nat) (src : Row) (old : Row) : Row × Nat :=
  let base := old.toNat % 2 ^ 2016 + (if n = 2 then old.toNat / 2 ^ 2016 * 2 ^ 2016 else 0)
  let r := (rangeFrom 0 8).foldl (fun (acc : Nat × Nat) j =>
    let b := 8 * g + j
    if b < blocks then
      let xs := (rangeFrom 0 16).map (fun i => FFmt.bf16.decode (lane src 16 (16 * j + i)))
      let (k, fl) := encodeBlock n xs
      (putBlock n p acc.1 b k, acc.2 ||| fl)
    else acc) (base, 0)
  (BitVec.ofNat 2048 r.1, r.2)

/-- The conversion of a whole entry under R220, for each pair that R225 allows. -/
def State.convert (s : State) (sw : Bool) (d a : VReg) (group : BitVec 4) (dst src : FTag) (hi : Bool) : State :=
  let raw := dst == .raw || src == .raw
  let acc := if raw || !(isBq dst || isBq src) then Accept.mskOnly else Accept.none
  s.withAnchor (fun an => s.issueWith acc [] .zero (vrWrites d) (fun s =>
    if !(an.tagOk a src) then s.raise 0x03
    else if raw then
      let (n, w) := tagLanes (if dst = .raw then src else dst)
      s.vecResult an sw d [a] 0 dst n w false (fun _ => false) (fun i => (an.el a w i, 0))
    else match bqParams dst, bqParams src with
      | some (n, blocks, p), _ =>
        let old := match d with | .o _ => an.rd d | _ => an.lv
        if old.fmt != .none && old.fmt != dst then s.raise 0x03
        else
          let (bits, fl) := packGroup n blocks p group.toNat (an.rd a).bits (if old.fmt = .none then 0 else old.bits)
          let lab := s.t.clabel ||| (an.rd a).label ||| old.label
          let s := { s with t := s.t.orFlags fl lab }
          if s.t.fpTraps fl then s.raise 0x10 fl
          else (s.putVector d { bits, fmt := dst, label := lab }).finish sw
      | none, some (n, blocks, p) =>
        s.vecResult an sw d [a] 0 dst 128 16 false (fun _ => false) (fun i =>
          let b := 8 * group.toNat + i / 16
          if b < blocks then FFmt.bf16.deliver s.rm ((rowBlock n p (an.rd a).bits b).value n (i % 16)) else (0, 0))
      | none, none =>
        let (nd, wd) := tagLanes dst
        let (ns, ws) := tagLanes src
        let h := if hi then 1 else 0
        if nd = 2 * ns then
          s.vecResult an sw d [a] 0 dst nd wd true (fun i => i / ns != h) (fun i =>
            convertEl s.rm dst src (an.el a ws (i - h * ns)))
        else
          s.vecResult an sw d [a] 0 dst nd wd false (fun _ => false) (fun i =>
            convertEl s.rm dst src (an.el a ws (if nd = ns then i else i + h * nd)))))
where
  isBq : FTag → Bool
    | .bq7 | .bq4 | .bq2 => true
    | _ => false

/-- `vcvt` (R225, R226). -/
def execVcvt (sw : Bool) (d a : VReg) (group : BitVec 4) (dst src : FTag) (hi : Bool) (s : State) : Out :=
  .next (s.convert sw d a group dst src hi)

/-! ### Moves (R227) -/

/-- *Poison consumed* for a row of a tile. R352 lists no place for it: the code of DETAIL is free (log entry 128). -/
def State.tilePoison (s : State) (tile : BitVec 3) : State := s.raise 0x18 (1 + Config.poisonCode tile.toNat % 6)

/-- Whether a row of a tile is poisoned (R357). -/
def Tile.poisoned (t : Tile) (r : BitVec 6) : Bool := t.poison.getLsbD r.toNat

/-- A row of a tile with the tile's tag and label. -/
def Tile.row (t : Tile) (r : BitVec 6) : Row := t.rows[r.toNat]?.getD 0

/-- `vmov.get` (R227): the row with its tile's tag and label. -/
def execVmovGet (sw : Bool) (d : VReg) (tile : BitVec 3) (row : BitVec 6) (s : State) : Out :=
  .next (s.withAnchor (fun a => s.holding a tile (fun s => s.issueWith Accept.none [] .zero true (fun s => s.withRow a tile (fun s =>
    let t := s.tile tile
    if t.fmt = .none then s.raise 0x03
    else if t.poisoned row then s.tilePoison tile
    else match d with
      | .o n => ({ s with t := s.t.buffer (.o n { bits := t.row row, fmt := t.fmt, label := t.label ||| s.t.clabel }) }).finish sw
      | _ => s.raise 0x01)))))

/-- `vmov.put` (R37, R227): a single-row write through the buffer. -/
def execVmovPut (sw : Bool) (a : VReg) (tile : BitVec 3) (row : BitVec 6) (s : State) : Out :=
  .next (s.withAnchor (fun an => s.holding an tile (fun s => s.issueWith Accept.none [] .zero true (fun s =>
    let e := an.rd a
    if e.fmt = .none ∨ (s.tileTag tile ≠ .none ∧ s.tileTag tile ≠ e.fmt) then s.raise 0x03
    else ({ s with t := s.t.buffer (.row tile row { e with label := e.label ||| s.t.clabel }) }).finish sw))))

/-- `vmov.copy` (R227): a copy, or a broadcast of one lane. -/
def execVmovCopy (sw : Bool) (d a : VReg) (lane : Option (BitVec 8)) (s : State) : Out :=
  .next (s.withAnchor (fun an => s.issueWith Accept.none [] .zero true (fun s =>
    let e := an.rd a
    let lab := e.label ||| s.t.clabel
    match d with
    | .o n => match lane with
      | none =>
        if e.fmt = .none then s.raise 0x03
        else ({ s with t := s.t.buffer (.o n { e with label := lab }) }).finish sw
      | some k => match e.fmt.width with
        | none => s.raise 0x03
        | some w =>
          if w ≤ k.toNat then s.raise 0x01
          else
            let bits := rowOf (2048 / w) w (fun _ => Sys2Proof.Machine.lane e.bits (2048 / w) k.toNat)
            ({ s with t := s.t.buffer (.o n { e with bits, label := lab }) }).finish sw
    | _ => s.raise 0x01)))

/-- `vmov.clr` (R227): zero bits under the tile's tag. -/
def execVmovClr (sw : Bool) (tile : BitVec 3) (row : BitVec 6) (s : State) : Out :=
  .next (s.withAnchor (fun a => s.holding a tile (fun s => s.issueWith Accept.none [] .zero true (fun s =>
    ({ s with t := s.t.buffer (.row tile row { bits := 0, fmt := s.tileTag tile, label := s.t.clabel }) }).finish sw))))

/-! ### Reductions (R228, R229) -/

def rfmtTag : RFmt → FTag
  | .f32 => .fp32 | .bf16 => .bf16 | .f16 => .fp16 | .f64 => .fp64
  | .i32 => .int32 | .u32 => .uint32 | .i16 => .int16 | .i8 => .int8

/-- The exact sum of values, rounded once (R228). DESIGN CHOICE (log entry 115): where a row holds a NaN and infinities of both signs,
the NaN alone decides, and a quiet one raises nothing. -/
def sumNums (G : FFmt) (rm : Nat) (l : List Num) : Nat × Nat :=
  let sig := if l.any Num.isSig then fNV else 0
  let pinf := l.any (· == .inf false)
  let ninf := l.any (· == .inf true)
  if l.any Num.isNan then (G.qnan, sig)
  else if pinf && ninf then (G.qnan, fNV)
  else if pinf || ninf then (G.inf ninf, 0)
  else
    let e0 := minExp l 0
    let v : Int := l.foldl (fun (a : Int) x => a + x.at e0) 0
    if v = 0 then (G.zero (l.all Num.sign || rm == 2), 0)
    else G.round rm (v < 0) v.natAbs e0

/-- A reduction of the elements of a row. -/
def reduceRow (op : Nat) (tag : FTag) (rm : Nat) (row : Row) : Nat × Nat :=
  let (n, w) := tagLanes tag
  let els := (rangeFrom 0 n).map (lane row w)
  match tagKind tag with
  | some (.inl F) =>
    if op = 0 then sumNums F rm (els.map F.decode)
    else match els with
      | [] => (0, 0)
      | x :: r => r.foldl (fun (acc : Nat × Nat) y =>
          let (v, fl) := fminmax F (op == 1) acc.1 y
          (v, acc.2 ||| fl)) (x, 0)
  | some (.inr (sg, v)) =>
    let xs := els.map (intOf sg v)
    if op = 0 then (wrap v (saturate sg v (xs.foldl (· + ·) 0)), 0)
    else match xs with
      | [] => (0, 0)
      | x :: r => (wrap v (r.foldl (fun a y => if (op == 1) then max a y else min a y) x), 0)
  | none => (0, 0)

/-- vred sum, max, min: va with element j mod w replaced by the reduction of row j. -/
def State.reduce (s : State) (sw : Bool) (op : Nat) (d a : VReg) (tile : BitVec 3) (row : BitVec 6) (tag : FTag) : State :=
  s.withAnchor (fun an => s.holding an tile (fun s => s.issueWith Accept.none [] .zero (vrWrites d) (fun s => s.withRow an tile (fun s =>
    let t := s.tile tile
    if t.fmt ≠ tag ∨ !(an.tagOk a tag) then s.raise 0x03
    else if t.poisoned row then s.tilePoison tile
    else
      let (n, w) := tagLanes tag
      let (v, fl) := reduceRow op tag s.rm (t.row row)
      let lab := s.t.clabel ||| (an.rd a).label ||| t.label
      let bits := rowOf w n (fun i => if i = row.toNat % n then v else an.el a w i)
      let s := { s with t := s.t.orFlags fl lab }
      if s.t.fpTraps fl then s.raise 0x10 fl
      else (s.putVector d { bits, fmt := tag, label := lab }).finish sw))))

/-- `vred.sum` (R228). -/
def execVredSum (sw : Bool) (d a : VReg) (tile : BitVec 3) (row : BitVec 6) (fmt : RFmt) (s : State) : Out :=
  .next (s.reduce sw 0 d a tile row (rfmtTag fmt))

/-- `vred.max` (R228). -/
def execVredMax (sw : Bool) (d a : VReg) (tile : BitVec 3) (row : BitVec 6) (fmt : RFmt) (s : State) : Out :=
  .next (s.reduce sw 1 d a tile row (rfmtTag fmt))

/-- `vred.min` (R228). -/
def execVredMin (sw : Bool) (d a : VReg) (tile : BitVec 3) (row : BitVec 6) (fmt : RFmt) (s : State) : Out :=
  .next (s.reduce sw 2 d a tile row (rfmtTag fmt))

/-- `vred.rowstat` (R229): the maximum, the sum and the sum of squares of every row, in one buffer entry. -/
def execVredRowstat (sw : Bool) (d : VReg) (tile : BitVec 3) (fmt : RFmt) (s : State) : Out :=
  .next (s.withAnchor (fun an => s.holding an tile (fun s => s.issueWith Accept.none [] .zero true (fun s => s.withRow an tile (fun s =>
    let t := s.tile tile
    let tag := rfmtTag fmt
    match d, tagKind tag with
    | .o n, some (.inl F) =>
      if t.fmt ≠ tag then s.raise 0x03
      else if t.poison ≠ 0 then s.tilePoison tile
      else
        let els (j : Nat) := (rangeFrom 0 (tagLanes tag).1).map (fun i => F.decode (lane (t.row (BitVec.ofNat 6 j)) F.width i))
        let mx (j : Nat) :=
          let (v, fl) := reduceRow 1 tag s.rm (t.row (BitVec.ofNat 6 j))
          let (r, g) := fcvtff F FFmt.fp32 s.rm v
          (r, fl ||| g)
        let sm (j : Nat) := sumNums FFmt.fp32 s.rm (els j)
        let sq (j : Nat) := sumNums FFmt.fp32 s.rm ((els j).map (fun x => match mulNum x x with
          | (.nan _, _) => .nan x.isSig
          | (v, _) => v))
        let fl := (rangeFrom 0 64).foldl (fun acc j => acc ||| (mx j).2 ||| (sm j).2 ||| (sq j).2) 0
        let lab := t.label ||| s.t.clabel
        let entry (f : Nat → Nat × Nat) : Entry := { bits := rowOf 32 64 (fun j => (f j).1), fmt := .fp32, label := lab }
        let s := { s with t := s.t.orFlags fl lab }
        if s.t.fpTraps fl then s.raise 0x10 fl
        else ({ s with t := s.t.buffer (.stat n (entry mx) (entry sm) (entry sq)) }).finish sw
    | _, _ => s.raise 0x01)))))

end Sys2Proof.Machine
end

