-- ==== Sys2Proof/Machine/Access.lean ====
section
/-! DEFINITION. Loads, stores, atomics and fences (R152 to R161) and vector loads and stores (R230, R231). -/

namespace Sys2Proof.Machine

/-- Bytes of a size, and the alignment it asks for (R152). -/
def sizeBytes : Size → Nat
  | .b => 1 | .h => 2 | .w => 4 | .d => 8 | .q => 16 | .cap => 16
def asizeBytes : ASize → Nat
  | .w => 4 | .d => 8
def sfmtBytes : SFmt → Nat
  | .f32 => 4 | .f64 => 8

/-- The migration override of the unit (R104). -/
def Task.mig (t : Task) : Mig := match t.pfxMod with | some m => m.mig | none => .none

/-- The effective address: the cursor plus the scaled offset, as an exact integer (R95). -/
def State.address (s : State) (cap : Val) (off : BitVec 6) (scale : Nat) : Int :=
  (capCursor cap.bits : Int) + s.t.immS 6 off.toNat * scale

/-- Whether a stored capability keeps its tag (R46). -/
def keepsTag (cap v : Val) (a : Int) : Bool :=
  v.tag && hasPerm cap.bits pSTCAP &&
  (match checkWin cap a 16 with
   | .ok .spad => true
   | .ok .shared => hasPerm v.bits pGLOBAL
   | _ => false)

/-- The request of a load (R153). -/
def State.loadReq (s : State) (d a : SReg) (scope : Scope) (order : Order) (size : Size) (off : BitVec 6) : Req :=
  let cap := s.rd a
  let n := sizeBytes size
  { acc := .load, cap, addr := s.address cap off n, n, align := n, perm := pLD, vl := 0, data := 0, cmp := 0, tag := false,
    keep := size == .cap && hasPerm cap.bits pLDCAP, scope, order,
    dest := laterDest d, mig := s.t.mig, parts := [(.ld size, 0, n)] }

/-- The request of a store (R154). -/
def State.storeReq (s : State) (d a : SReg) (scope : Scope) (order : Order) (size : Size) (off : BitVec 6) : Req :=
  let cap := s.rd a
  let n := sizeBytes size
  let addr := s.address cap off n
  { acc := .store, cap, addr, n, align := n, perm := pST, vl := s.labs [d, a], data := (s.rd d).bits.toNat % 2 ^ (8 * n),
    cmp := 0, tag := size == .cap && keepsTag cap (s.rd d) addr, keep := false, scope, order, dest := none,
    mig := s.t.mig, parts := [(.st size, 0, n)] }

/-- The request of an atomic on n bytes (R156, R159). -/
def State.atomReq (s : State) (kind : AccKind) (n align : Nat) (d a b : SReg) (cas : Bool) (scope : Scope) (order : Order) :
    Req :=
  let cap := s.rd a
  { acc := .atomic, cap, addr := (capCursor cap.bits : Int), n, align, perm := pATOM,
    vl := s.labs (if cas then [b, a, d] else [b, a]), data := (s.rd b).bits.toNat % 2 ^ (8 * n),
    cmp := if cas then (s.rd d).bits.toNat % 2 ^ (8 * n) else 0, tag := false, keep := false, scope, order,
    dest := laterDest d, mig := s.t.mig, parts := [(kind, 0, n)] }

/-- An integer atomic. -/
def State.atom (s : State) (sw : Bool) (op : BitVec 3) (d a b : SReg) (scope : Scope) (order : Order) (sz : ASize) : State :=
  s.issue Accept.migOnly (if op = 1 then [a, b, d] else [a, b]) d (fun s =>
    s.memory sw (s.atomReq (.atom op sz) (asizeBytes sz) (if op = 7 then 32 else asizeBytes sz) d a b (op == 1) scope order))

/-- A floating atomic. -/
def State.fatom (s : State) (sw : Bool) (op : BitVec 2) (d a b : SReg) (scope : Scope) (order : Order) (fmt : SFmt) : State :=
  s.issue Accept.migOnly [a, b] d (fun s =>
    s.memory sw (s.atomReq (.fatom op fmt) (sfmtBytes fmt) (sfmtBytes fmt) d a b false scope order))

/-- An acquire that reads nothing itself: earlier operations of the task that the scope covers land first (R87). -/
def State.acquireFence (s : State) (scope : Scope) (k : State → State) : State :=
  if s.t.ops.any (fun o => o.awaited scope) then s.park .order else k (s.acquire scope)

/-- The four quarters of a vector access (R231). -/
def quarters (f : BitVec 2 → AccKind) : List (AccKind × Nat × Nat) := [(f 0, 0, 64), (f 1, 64, 64), (f 2, 128, 64), (f 3, 192, 64)]

/-- The request of a vector load. -/
def State.vldReq (s : State) (d : VReg) (a : SReg) (scope : Scope) (order : Order) (fmt : MFmt) (off : BitVec 6) : Req :=
  let cap := s.rd a
  { acc := .load, cap, addr := s.address cap off 256, n := 256, align := 64, perm := pLD, vl := 0, data := 0, cmp := 0,
    tag := false, keep := false, scope, order, dest := (match d with | .o i => some (.o i) | _ => none), mig := s.t.mig,
    parts := quarters (fun q => .vld q fmt) }

/-- The request of a vector store of an entry. -/
def State.vstReq (s : State) (e : Entry) (a : SReg) (scope : Scope) (order : Order) (off : BitVec 6) : Req :=
  let cap := s.rd a
  { acc := .store, cap, addr := s.address cap off 256, n := 256, align := 64, perm := pST,
    vl := e.label ||| s.labs [a], data := e.bits.toNat, cmp := 0, tag := false, keep := false, scope, order, dest := none,
    mig := s.t.mig, parts := quarters (fun q => .vst q) }

/-- `ld` (R152, R153). -/
def execLd (sw : Bool) (d a : SReg) (scope : Scope) (order : Order) (size : Size) (off : BitVec 6) (s : State) : Out :=
  .next (s.issue Accept.mem [a] d (fun s => s.memory sw (s.loadReq d a scope order size off)))

/-- `st` (R152, R154). -/
def execSt (sw : Bool) (d a : SReg) (scope : Scope) (order : Order) (size : Size) (off : BitVec 6) (s : State) : Out :=
  .next (s.issueNone Accept.mem [a, d] (fun s => s.memory sw (s.storeReq d a scope order size off)))

/-- `atom.swap` (R156). -/
def execAtomSwap (sw : Bool) (d a b : SReg) (scope : Scope) (order : Order) (sz : ASize) (s : State) : Out :=
  .next (s.atom sw 0 d a b scope order sz)

/-- `atom.cas` (R156): G[d] is the compared value. -/
def execAtomCas (sw : Bool) (d a b : SReg) (scope : Scope) (order : Order) (sz : ASize) (s : State) : Out :=
  .next (s.atom sw 1 d a b scope order sz)

/-- `atom.add` (R156). -/
def execAtomAdd (sw : Bool) (d a b : SReg) (scope : Scope) (order : Order) (sz : ASize) (s : State) : Out :=
  .next (s.atom sw 2 d a b scope order sz)

/-- `atom.and` (R156). -/
def execAtomAnd (sw : Bool) (d a b : SReg) (scope : Scope) (order : Order) (sz : ASize) (s : State) : Out :=
  .next (s.atom sw 3 d a b scope order sz)

/-- `atom.or` (R156). -/
def execAtomOr (sw : Bool) (d a b : SReg) (scope : Scope) (order : Order) (sz : ASize) (s : State) : Out :=
  .next (s.atom sw 4 d a b scope order sz)

/-- `atom.min` (R156): signed. -/
def execAtomMin (sw : Bool) (d a b : SReg) (scope : Scope) (order : Order) (sz : ASize) (s : State) : Out :=
  .next (s.atom sw 5 d a b scope order sz)

/-- `atom.max` (R156): signed. -/
def execAtomMax (sw : Bool) (d a b : SReg) (scope : Scope) (order : Order) (sz : ASize) (s : State) : Out :=
  .next (s.atom sw 6 d a b scope order sz)

/-- `atom.decf` (R156, R157): a cell whose count goes from non-zero to zero fires. -/
def execAtomDecf (sw : Bool) (d a b : SReg) (scope : Scope) (order : Order) (sz : ASize) (s : State) : Out :=
  .next (s.atom sw 7 d a b scope order sz)

/-- `fatom.add` (R159). -/
def execFatomAdd (sw : Bool) (d a b : SReg) (scope : Scope) (order : Order) (fmt : SFmt) (s : State) : Out :=
  .next (s.fatom sw 0 d a b scope order fmt)

/-- `fatom.min` (R159). -/
def execFatomMin (sw : Bool) (d a b : SReg) (scope : Scope) (order : Order) (fmt : SFmt) (s : State) : Out :=
  .next (s.fatom sw 1 d a b scope order fmt)

/-- `fatom.max` (R159). -/
def execFatomMax (sw : Bool) (d a b : SReg) (scope : Scope) (order : Order) (fmt : SFmt) (s : State) : Out :=
  .next (s.fatom sw 2 d a b scope order fmt)

/-- `fence.sc` (R89, R161): in a machine that executes one fence at a time they fall into the order of their execution. -/
def execFenceSc (sw : Bool) (scope : Scope) (s : State) : Out :=
  .next (s.issueNone Accept.none [] (fun s => s.release scope (fun s => s.acquireFence scope (fun s => s.finish sw))))

/-- `fence.acq` (R87, R161). -/
def execFenceAcq (sw : Bool) (scope : Scope) (s : State) : Out :=
  .next (s.issueNone Accept.none [] (fun s => s.acquireFence scope (fun s => s.finish sw)))

/-- `fence.rel` (R86, R161). -/
def execFenceRel (sw : Bool) (scope : Scope) (s : State) : Out :=
  .next (s.issueNone Accept.none [] (fun s => s.release scope (fun s => s.finish sw)))

/-- `fence.acqrel` (R89, R161). -/
def execFenceAcqrel (sw : Bool) (scope : Scope) (s : State) : Out :=
  .next (s.issueNone Accept.none [] (fun s => s.release scope (fun s => s.acquireFence scope (fun s => s.finish sw))))

/-- `vld` (R230, R231): ZV performs the load and writes nothing. -/
def execVld (sw : Bool) (d : VReg) (a : SReg) (scope : Scope) (order : Order) (fmt : MFmt) (off : BitVec 6) (s : State) : Out :=
  .next (s.withAnchor (fun _ => s.issueWith Accept.mem [a] .zero (vrWrites d) (fun s =>
    s.memory sw (s.vldReq d a scope order fmt off))))

/-- `vst` (R230, R231): the source's tag is that of fmt, and any but NONE for raw; ZV stores zero bytes. -/
def execVst (sw : Bool) (d : VReg) (a : SReg) (scope : Scope) (order : Order) (fmt : MFmt) (off : BitVec 6) (s : State) : Out :=
  .next (s.withAnchor (fun n => s.issueNone Accept.mem [a] (fun s =>
    let e := n.rd d
    if !(d == .zv || (if fmt = .raw then e.fmt != .none else e.fmt == mfmtTag fmt)) then s.raise 0x03
    else s.memory sw (s.vstReq e a scope order off))))

end Sys2Proof.Machine
end

