-- ==== Sys2Proof/Machine/Qos.lean ====
section
/-! DEFINITION. Tenant balances (R336 to R338) and background budgets (R341). -/

namespace Sys2Proof.Machine

/-! ### The QoS block as a partition last read it (R336) -/

/-- A tenant entry: budgets for slots and engines, the largest debt, and the flags. -/
structure TenantQos where
  slotb : Nat
  engb : Nat
  debtmax : Nat
  valid : Bool
  lend : Bool
  borrow : Bool
  deriving DecidableEq, Repr

def Part.tenant (p : Part) (n : BitVec 4) : TenantQos :=
  let lo := p.qos[2 * n.toNat]?.getD 0
  let hi := p.qos[2 * n.toNat + 1]?.getD 0
  { slotb := min (bitsOf hi.toNat 32 32) 52500, engb := min (bitsOf hi.toNat 0 32) 157500,
    debtmax := bitsOf lo.toNat 32 32, valid := bitAt lo 0, lend := bitAt lo 1, borrow := bitAt lo 2 }

/-- The budget of an activity per period (R341). -/
def Part.activity (p : Part) (k : Nat) : Nat := bitsOf (p.qos[32 + k]?.getD 0).toNat 0 32

/-- The kinds of balance of R337. -/
inductive Bal where
  | slot
  | engine
  deriving DecidableEq, Repr

/-- A balance: tenant, balance, debt, borrowed in this period. -/
abbrev BalRow := BitVec 4 × Int × Nat × Nat

def Core.bals (c : Core) : Bal → List BalRow
  | .slot => c.slotBal
  | .engine => c.engBal
def Core.setBals (c : Core) (k : Bal) (l : List BalRow) : Core :=
  match k with
  | .slot => { c with slotBal := l }
  | .engine => { c with engBal := l }

/-- A tenant's row on a core; a tenant whose entry was never valid has none and is not held. -/
def Core.bal (c : Core) (k : Bal) (t : BitVec 4) : Option BalRow := (c.bals k).find? (fun r => r.1 == t)

/-- The tenant of a launch. -/
def Device.tenantOf (d : Device) (launch : Nat) : BitVec 4 := (d.launchGraph launch).elim 0 (·.tenant)

/-- Whether a tenant's balance on a core is used up (R337). -/
def Core.held (c : Core) (k : Bal) (t : BitVec 4) : Bool :=
  match c.bal k t with
  | some r => decide (r.2.1 ≤ 0)
  | none => false

/-- A possible lender of a kind: LEND set, idle on the core, with a positive balance (R338). -/
def State.lends (s : State) (k : Bal) (r : BalRow) : Bool :=
  ((s.d.partState s.part).tenant r.1).lend && decide (0 < r.2.1) &&
  s.whole.tasks.all (fun p => s.d.tenantOf p.2.launch != r.1) &&
  (s.c.bals k).any (fun q => q.1 == r.1) &&
  (s.c.mx.map (·.launch) ++ s.c.cp.map (·.launch) ++ s.c.srt.map (·.launch)).all (fun l => s.d.tenantOf l != r.1)

/-- The lender with the largest balance, the lower tenant number first among equals. -/
def bestLender : List BalRow → Option BalRow
  | [] => none
  | r :: l => match bestLender l with
    | none => some r
    | some q => if q.2.1 < r.2.1 ∨ (q.2.1 = r.2.1 ∧ r.1.toNat < q.1.toNat) then some r else some q

/-- Charges a tenant on the core in focus, and borrows for it when its balance is used up and it may (R337, R338). -/
def State.charge (s : State) (k : Bal) (t : BitVec 4) (n : Nat) : State :=
  match s.c.bal k t with
  | none => s
  | some r =>
    let set (l : List BalRow) (q : BalRow) : List BalRow := l.map (fun x => if x.1 == q.1 then q else x)
    let r := (r.1, r.2.1 - (n : Int), r.2.2)
    let l := set (s.c.bals k) r
    let s := { s with c := s.c.setBals k l }
    let q := (s.d.partState s.part).tenant t
    if 0 < r.2.1 ∨ !q.borrow ∨ q.debtmax ≤ r.2.2.2 then s
    else match bestLender (l.filter (fun x => x.1 != t && s.lends k x)) with
      | none => s
      | some lender =>
        let m := min 4096 lender.2.1
        let l := set l (lender.1, lender.2.1 - m, lender.2.2)
        let l := set l (r.1, r.2.1 + m, r.2.2.1 + m.toNat, r.2.2.2 + m.toNat)
        { s with c := s.c.setBals k l }

/-- The row that a tenant starts a period with (R338). -/
def periodRow (budget : Nat) (r : BalRow) : BalRow :=
  let debt := r.2.2.1 + (if r.2.1 < 0 then r.2.1.natAbs else 0)
  let repay := min debt (budget / 2)
  (r.1, (budget : Int) - repay, debt - repay, 0)

/-- The balances of a core at a period's start, from the block of its partition. -/
def Core.newPeriod (c : Core) (p : Part) : Core :=
  let row (k : Bal) (i : Nat) : Option BalRow :=
    let t := BitVec.ofNat 4 i
    let q := p.tenant t
    if q.valid then
      some (periodRow (match k with | .slot => q.slotb | .engine => q.engb) ((c.bal k t).getD (t, 0, 0, 0)))
    else none
  { c with slotBal := (rangeFrom 0 16).filterMap (row .slot), engBal := (rangeFrom 0 16).filterMap (row .engine) }

/-! ### Background budgets (R341) -/

/-- What a die has used of an activity in the period. -/
def Device.usedOf (d : Device) (die : BitVec 2) (k : BitVec 3) : Nat :=
  (d.used.find? (fun u => u.1 == die && u.2.1 == k)).elim 0 (·.2.2)
/-- Adds to what a die has used of an activity. -/
def Device.use (d : Device) (die : BitVec 2) (k : BitVec 3) (n : Nat) : Device :=
  { d with used := (die, k, d.usedOf die k + n) :: d.used.filter (fun u => !(u.1 == die && u.2.1 == k)) }
/-- What is left of an activity's budget on a die. -/
def Device.leftOf (d : Device) (die : BitVec 2) (k : BitVec 3) : Nat :=
  (d.partState (d.partOf die)).activity k.toNat - d.usedOf die k

end Sys2Proof.Machine
end

