-- ==== Sys2Proof/Machine/Issue.lean ====
section
/-! DEFINITION. What happens before an instruction or an event runs (R15, R16, R31, R94, R103, R149, R180): the choice of the
task that issues, the checks at a unit's first word, the fetch and the decoding of a word. -/

namespace Sys2Proof.Machine

/-! ### Ageing (R15) -/

/-- Whether a task of the core in focus counts as ready (R16): one whose tenant has used up its balance is held, which is parked
(R337), and one that is being pre-empted is ready no longer. -/
def State.isReady (s : State) (t : Task) : Bool :=
  t.status == .ready && !((s.d.partState s.part).preempting.contains t.tid) && !(s.c.held .slot (s.d.tenantOf t.launch))

/-- The ageing step of a ready task that has gone 24 rounds without issuing. A raise ends an offer to be passed over (R149), and what a
yield at the old level left to wait for (R180). -/
def Task.aged (t : Task) : Task :=
  if t.age < 24 then t
  else if t.eff = 7 then { t with age := 0 }
  else { t with age := 0, eff := t.eff + 1, passOver := 0, yieldTo := 0 }

/-- Whether a task of the core in focus is due to age. -/
def State.agesNow (s : State) : Bool := s.whole.tasks.any (fun p => s.isReady p.2 && decide (24 ≤ p.2.age))

/-- Ages the ready tasks of the core in focus. -/
def State.ageTasks (s : State) : State := s.mapTasks (fun t => if s.isReady t then t.aged else t)

/-! ### The choice of a task (R15) -/

/-- Whether a recorded job's chunks let a task issue: no other task's chunk of the partition is open, unless it waits for
another agent (R419). -/
def State.chunkFree (s : State) (t : Task) : Bool :=
  !(s.records t) || s.chunksShut (some t.tid)

/-- In replay, a task runs only in the chunk that its core's log gives it (R421). -/
def State.replayFree (s : State) (t : Task) : Bool :=
  if s.replays t then
    s.c.trace.chunk.any (fun k => s.chunkDue k && k.kind == 0 && k.task == some t.tidReg && decide (0 < k.left))
  else true

/-- Whether a task may be chosen: ready, and let through by record and replay. -/
def State.mayIssue (s : State) (t : Task) : Bool := s.isReady t && s.chunkFree t && s.replayFree t

/-- The first slot after `last`, wrapping from 23 to 0, that satisfies a test. -/
def nextSlot (last : Nat) (p : Nat → Bool) : Option Nat :=
  ((rangeFrom (last + 1) 24).map (· % 24)).find? p

/-- The slot that the selector chooses. When every task that may issue has an offer in force, R149 lets none be chosen and R32 promises
that one issues: DESIGN CHOICE (log entry 120), the choice is then made among all of them. -/
def State.select (s : State) : Option Nat :=
  let c := s.whole
  let may := c.tasks.filter (fun p => s.mayIssue p.2)
  let willing := may.filter (fun p => p.2.passOver == 0 && p.2.yieldTo == 0)
  let pool := if willing.isEmpty then may else willing
  let level := pool.foldl (fun m p => max m p.2.eff.toNat) 0
  nextSlot (c.lastAt[level]?.getD 0).toNat (fun n => pool.any (fun p => p.1 == n && p.2.eff.toNat == level))

/-- A scheduling round that chooses a slot: the chosen task's priority returns to its PRIO, the other ready tasks count it. It is one of
the rounds of every offer, that of the chosen task or of a parked one among them (R149). -/
def State.round (s : State) (n : Nat) : State :=
  let level := (s.whole.slot n).eff.toNat
  let s := s.mapTasks (fun t =>
    { t with age := if s.isReady t then t.age + 1 else t.age, passOver := t.passOver - (if t.passOver = 0 then 0 else 1),
             yieldTo := t.yieldTo &&& ~~~BitVec.ofNat 24 (2 ^ n) })
  let s := s.takeSlot n
  { s with t := { s.t with eff := s.t.prio, age := 0, yieldTo := 0 },
           c := { s.c with lastAt := s.c.lastAt.setIfInBounds level (BitVec.ofNat 5 n) } }

/-! ### Fetch (R94, R305, R386) -/

/-- The outcome of a fetch: the word, or the state after a fault or while the word is awaited. -/
inductive Fetched where
  | word (w : Nat) (s : State)
  | stopped (s : State)
  deriving DecidableEq, Repr

/-- A word has been fetched for the task at the port. -/
def Fetched.fetched (w : Nat) (s : State) : Fetched := .word w { s with t := { s.t with word := BitVec.ofNat 32 w } }

/-- A word of a peer's memory: from the line that the core's cache holds, or asked for as a line (R388). -/
def State.fetchPeer (s : State) (dev : BitVec 12) (va : Nat) : Fetched :=
  match s.c.cacheLine (.peer dev) (va / 64) with
  | some l => .fetched (bitsOf l.data.toNat (8 * (va % 64)) 32) s
  | none =>
    let (id, s) := s.newOp
    let line := va / 64 * 64
    let a : Access := {
      kind := .ld .w, home := .peer dev, addr := line, va := line, n := 64, lo := line, len := 64, data := 0, cmp := 0,
      vl := 0, al := 0, tag := false, keep := false, prio := 0, launch := 0, page := 0, comp := false, scope := .task,
      order := .acq }
    let o : PendOp := {
      id, pc := s.t.unitPc, next := s.t.unitPc, dest := none, result := true, kind := .access a, stage := .sent,
      clabel := s.t.clabel, peer := true, host := false, seq := 0, cycle := s.d.cycle }
    let (o, s) := s.peerAccess dev s.t.job o
    .stopped ((s.addOp o).park .order)

/-- The word at the pc of the task at the port. The pc lies in the global window, and a fetch needs X. The spec checks no pc for being a
multiple of 4: DESIGN CHOICE (log entry 118), the four bytes at the pc are fetched. -/
def State.fetch (s : State) : Fetched :=
  let va := s.t.pc.toNat
  if winOf va ≠ some .glob then .stopped (s.raise 0x06 0 s.t.pc)
  else match s.gplaceOf s.t.job s.t.level va with
    | .window _ => .stopped (s.raise 0x0A (xDetail 0 0 .fetch) s.t.pc)
    | .launch _ _ => .stopped (s.raise 0x06 0 s.t.pc)
    | .peer dev => s.fetchPeer dev va
    | .here => match s.translate .fetch va with
      | (.error f, s) => .stopped (s.xfail va f)
      | (.ok e, s) =>
        let pa := e.at va
        if s.d.gpoisoned e.comp pa 4 then .stopped (s.raise 0x18 (s.d.poisonPlace e.comp pa) s.t.pc)
        else .fetched (s.d.gread e.comp pa 4) s

/-! ### The start of a unit -/

/-- Whether the word at the pc starts a unit: no prefix stands before it. -/
def Task.atUnit (t : Task) : Bool := t.pfxImm.isNone && t.pfxMod.isNone

/-- The unit that has been asked to stop the task at the port, with the reason (R411). -/
def State.stopOf (s : State) : Option (CoreId × BitVec 8) :=
  s.allCores.findSome? (fun c => (c.trace.pendingStops.find? (fun p => p.1 == s.t.tid)).map (fun p => (c.id, p.2)))

/-- The task at the port stops before its next unit: a unit whose consumer has not issued is given up. -/
def Task.stopUnit (t : Task) : Task :=
  if t.atUnit then t else { t with pc := t.unitPc, pfxImm := none, pfxMod := none }

/-- Stops the task at the port for a debug unit: it is saved as at a pre-emption and held stopped, and the unit writes a
STOP record (R410). Its buffered stores drain first. -/
def State.stopTask (s : State) (u : CoreId) (reason : BitVec 8) : State :=
  let s := ({ s with t := s.t.stopUnit }).drainTask
  if !s.quiet then s
  else
    let t := s.t
    let (area, s) := (s.closeChunk t).preemptSave (some u)
    let held (tr : TraceUnit) : TraceUnit := { tr with
      pendingStops := tr.pendingStops.filter (fun p => p.1 != t.tid), heldTids := tr.heldTids ++ [(t.tid, area)] }
    let s := s.modCore u (fun c => { c with trace := held c.trace })
    let r : TraceRec := {
      type := 16, cycle := s.d.cycle, tid := some t.tidReg, label := t.clabel, arg0 := t.pc,
      arg1 := BitVec.ofNat 64 (reason.toNat + area * 256) }
    s.modCore u (fun c => { c with trace := c.trace.emit r })

/-- What the machine does next: an instruction or event to run in a state, or a state by itself. -/
inductive Turned where
  | run (i : Instr) (s : State)
  | stand (s : State)
  deriving DecidableEq, Repr

/-- Fetches and decodes the word at the pc of the task at the port; a word that is no instruction is illegal (R101, R102). -/
def State.toRun (s : State) : Turned :=
  match s.fetch with
  | .stopped s => .stand s
  | .word w s => match decodeWord w with
    | .ok i => .run i s
    | .error _ => .run .illegalInstruction s

/-- A single-stepped task stops again after the unit that it is about to issue (R411). -/
def State.stepOne (s : State) : State :=
  match s.t.single with
  | none => s
  | some u => ({ s with t := { s.t with single := none } }).askStop u s.t.tid 0xFE

/-- A unit is about to issue: stops and deferred causes come first, then execute breakpoints (R353, R408, R410). -/
def State.startUnit (s : State) : Turned :=
  match s.stopOf with
  | some (u, reason) => .stand (s.stopTask u reason)
  | none =>
    match s.t.deferred with
    | (c, detail, v) :: r =>
      let t := { s.t with deferred := r }
      .stand (({ s with t }).raiseAt s.t.pc c.toNat detail.toNat v)
    | [] => match if s.t.single.isSome then none else s.execBreak s.t.pc with
      | some (u, n, _, _) => .stand (s.stopFor u n)
      | none =>
        let s := ({ s with t := { s.t with unitPc := s.t.pc } }).stepOne
        let tr := s.c.trace
        let s := if s.records s.t then
            let tr := { tr with chunkTask := some s.t.tid, chunkUnits := tr.chunkUnits + 1 }
            { s with c := { s.c with trace := tr } }
          else if s.replays s.t then
            let tr := { tr with chunk := tr.chunk.map (fun (k : Chunk) => { k with left := k.left - 1 }) }
            { s with c := { s.c with trace := tr } }
          else s
        ((s.charge .slot (s.d.tenantOf s.t.launch) 1).count 1).toRun

/-! ### Whether a core may issue -/

/-- Whether the core in focus may issue: not fenced, its die released and its partition not stopped, issue not withheld, and no
trace record waiting for room (R356, R406, R424, R428). -/
def State.canIssue (s : State) : Bool :=
  let tr := s.c.trace
  let die := (CoreId.die s.c.id).toNat
  !s.halted && (s.d.boot.released[die]?.getD false) && (s.d.withheld[die]?.getD 0 == 0) &&
  !(decide (64 ≤ tr.staged.length) && (bitAt tr.tctl 1 || bitsOf tr.rctl.toNat 16 2 == 1))

/-- The waits of a held tenant's engine operations stand still for a cycle (R339, R340). -/
def Core.standStill (c : Core) (d : Device) : Core :=
  if c.mx.isEmpty && c.cp.isEmpty then c
  else
    let held (launch : Nat) : Bool := c.held .engine (d.tenantOf launch)
    { c with mx := c.mx.map (fun (m : MxOp) => if held m.launch then { m with age := m.age + 1 } else m),
             cp := c.cp.map (fun (m : CpOp) => if held m.launch then { m with age := m.age + 1 } else m) }

/-- One cycle passes. -/
def State.tick (s : State) : State :=
  { s with d := { s.d with cycle := s.d.cycle + 1, withheld := s.d.withheld.map (fun n => n - 1),
                           cores := s.d.cores.map (·.standStill s.d) },
           c := { s.c.standStill s.d with bank := s.c.bank.add 0 1 } }

end Sys2Proof.Machine
end

