-- ==== Sys2Proof/Machine/Sync.lean ====
section
/-! DEFINITION. Cluster barriers (R162 to R164), wire barriers (R165, R166), wait for change (R167) and the inbox (R168,
R169), with the events that end their waits. -/

namespace Sys2Proof.Machine

/-! ### Cluster barriers -/

/-- The barrier object that G[a] names on the cluster of the core in focus, when it is assigned to the task's job. -/
def State.withObject (s : State) (a : SReg) (k : BarObj → State) : State :=
  let v := s.x a
  let b := s.d.barrier (CoreId.cluster s.c.id) (v.setWidth 6)
  if 64 ≤ v.toNat then s.raise 0x02 1
  else if b.owner = 0 ∨ b.owner ≠ s.t.job then s.raise 0x06
  else k b

/-- The slot of the task in an object; one that is no member may not go on (R163). -/
def State.withSlot (s : State) (b : BarObj) (k : BitVec 6 → State) : State :=
  match s.t.member with
  | some (obj, i) => if obj = b.obj then k i else s.raise 0x06
  | none => s.raise 0x06

/-- Replaces a barrier object. -/
def State.setObject (s : State) (b : BarObj) : State := { s with d := s.d.setBarrier b }

/-- Whether a phase count has passed a ticket (R163). -/
def passed (phase ticket : BitVec 32) : Bool := decide (0 < (phase - ticket).toNat) && decide ((phase - ticket).toNat < 2 ^ 31)

/-- The lowest free slot of an object. -/
def BarObj.free (b : BarObj) : Option Nat := (rangeFrom 0 64).find? (fun i => !b.members.getLsbD i)

/-- The end of a wait on a phase that has passed: the control label rises by the phase's PLABEL, and the wait acquires. -/
def State.phaseDone (s : State) (b : BarObj) (ticket : BitVec 32) (scope : Scope) : State :=
  ((s.raiseLabel ((b.labels.lookup ticket).getD 0#16)).acquire scope).otherAgent

/-- The arrival of a member, with its ticket and the ticket's label. -/
def State.arriveAt (s : State) (b : BarObj) (i : BitVec 6) : BitVec 32 × Label × State :=
  let b := { b with arrived := b.arrived ||| slotBit i, plabel := b.plabel ||| s.t.clabel }
  (b.phase, b.plabel, s.setObject b.settle)

/-- `bar.join` (R163). -/
def execBarJoin (sw : Bool) (d a : SReg) (s : State) : Out :=
  .next (s.issue Accept.none [a] d (fun s => s.withObject a (fun b =>
    if s.t.member.isSome then s.raise 0x01
    else match b.free with
      | none => s.raise 0x06
      | some i =>
        let n := BitVec.ofNat 6 i
        let s := s.raiseLabel (s.lab a)
        let s := s.setObject { b with members := b.members ||| slotBit n }
        let t := { s.t with member := some (b.obj, n), tsw := setBits s.t.tsw 21 1 1, mark := none }
        ({ s with t }).put false d (wordVal (BitVec.ofNat 64 i) t.clabel) (fun s => s.finish sw))))

/-- `bar.leave` (R163): a leave is no release. -/
def execBarLeave (sw : Bool) (a : SReg) (s : State) : Out :=
  .next (s.issueNone Accept.none [a] (fun s => s.withObject a (fun b => s.withSlot b (fun i =>
    let s := (s.raiseLabel (s.lab a)).setObject (b.leave i)
    ({ s with t := { s.t with member := none, tsw := setBits s.t.tsw 21 1 0 } }).finish sw))))

/-- `bar.arrive` (R163): a second arrival in a phase waits for the next. -/
def execBarArrive (sw : Bool) (d a : SReg) (scope : Scope) (s : State) : Out :=
  .next (s.issue Accept.none [a] d (fun s => s.withObject a (fun b => s.withSlot b (fun i =>
    if b.arrived &&& slotBit i ≠ 0 then s.park (.rearrive b.obj b.phase)
    else s.release scope (fun s =>
      let s := s.raiseLabel (s.lab a)
      let (ticket, plabel, s) := s.arriveAt b i
      s.put false d (wordVal (ticket.setWidth 64) (plabel ||| s.t.clabel)) (fun s => s.finish sw))))))

/-- `bar.wait` (R163). -/
def execBarWait (sw : Bool) (a b : SReg) (scope : Scope) (s : State) : Out :=
  .next (s.issueNone Accept.none [a, b] (fun s => s.withObject a (fun o => s.withSlot o (fun _ =>
    let ticket : BitVec 32 := (s.x b).setWidth 32
    let s := s.raiseLabel (s.lab a)
    if passed o.phase ticket then (s.phaseDone o ticket scope).finish sw
    else s.park (.phase o.obj ticket)))))

/-- The waiting half of `bar.sync`. -/
def State.syncWait (s : State) (sw : Bool) (d : SReg) (o : BarObj) (ticket : BitVec 32) (label : Label) (scope : Scope) :
    State :=
  if passed o.phase ticket then
    let s := { s with t := { s.t with arrival := none } }
    let s := s.phaseDone o ticket scope
    s.put false d (wordVal (ticket.setWidth 64) (label ||| s.t.clabel)) (fun s => s.finish sw)
  else ({ s with t := { s.t with arrival := some (s.t.unitPc, ticket) } }).park (.phase o.obj ticket)

/-- `bar.sync` (R163): an arrival that the instruction has made stands when it is issued again (R170). -/
def execBarSync (sw : Bool) (d a : SReg) (scope : Scope) (s : State) : Out :=
  .next (s.issue Accept.none [a] d (fun s => s.withObject a (fun b => s.withSlot b (fun i =>
    match s.t.arrival with
    | some (pc, ticket) =>
      if pc = s.t.unitPc then s.syncWait sw d b ticket ((b.labels.lookup ticket).getD b.plabel) scope
      else if b.arrived &&& slotBit i ≠ 0 then s.park (.rearrive b.obj b.phase)
      else s.release scope (fun s =>
        let s := s.raiseLabel (s.lab a)
        let (ticket, plabel, s) := s.arriveAt b i
        s.syncWait sw d (s.d.barrier b.cluster b.obj) ticket plabel scope)
    | none =>
      if b.arrived &&& slotBit i ≠ 0 then s.park (.rearrive b.obj b.phase)
      else s.release scope (fun s =>
        let s := s.raiseLabel (s.lab a)
        let (ticket, plabel, s) := s.arriveAt b i
        s.syncWait sw d (s.d.barrier b.cluster b.obj) ticket plabel scope)))))

/-- `bar.miss` (R163): open to any task of the owning job. -/
def execBarMiss (sw : Bool) (d a : SReg) (s : State) : Out :=
  .next (s.issue Accept.none [a] d (fun s => s.withObject a (fun b =>
    let s := s.raiseLabel (s.lab a)
    let v := (b.members &&& ~~~b.arrived).toNat + b.phase.toNat * 2 ^ 64
    let r : Val := { bits := BitVec.ofNat 128 v, tag := false, label := b.plabel ||| s.t.clabel }
    s.put false d r (fun s => s.finish sw))))

/-- Whether the barrier wait that a task is parked at has ended. -/
def State.barrierOver (s : State) (t : Task) : Bool :=
  match t.status with
  | .parked (.phase obj ticket) => passed (s.d.barrier (CoreId.cluster s.c.id) obj).phase ticket
  | .parked (.rearrive obj phase) => (s.d.barrier (CoreId.cluster s.c.id) obj).phase != phase
  | _ => false

/-- `BARRIER_WAIT_WAKE` (R163, R164): the parked task is ready, and its wait, examined again, completes. -/
def execBarrierWaitWake (core : CoreId) (tid : Tid) (s : State) : Out :=
  .next (match s.focusTask core tid with
    | some s' => if s'.barrierOver s'.t then s'.wake else s
    | none => s)

/-! ### Wire barriers -/

/-- The fields of a region descriptor (R165): X0, Y0, X1, Y1, TIMEOUT. -/
def wireX0 (r : BitVec 48) : Nat := bitsOf r.toNat 0 4
def wireY0 (r : BitVec 48) : Nat := bitsOf r.toNat 4 4
def wireX1 (r : BitVec 48) : Nat := bitsOf r.toNat 8 4
def wireY1 (r : BitVec 48) : Nat := bitsOf r.toNat 12 4
def wireTimeout (r : BitVec 48) : Nat := bitsOf r.toNat 16 32

/-- The cores of a region on a die. -/
def wireCores (die : BitVec 2) (r : BitVec 48) : List CoreId :=
  (rangeFrom (wireY0 r) (wireY1 r + 1 - wireY0 r)).flatMap (fun y =>
    (rangeFrom (wireX0 r) (wireX1 r + 1 - wireX0 r)).map (fun x => coreAt die.toNat x y))

/-- Whether a core has arrived with a descriptor; one with another descriptor counts as missing. -/
def Core.arrivedIn (c : Core) (r : BitVec 48) : Bool := c.region == some r && c.warrived

/-- `bar.wregion` (R165). -/
def execBarWregion (sw : Bool) (a : SReg) (s : State) : Out :=
  .next (s.issueNone Accept.none [a] (fun s =>
    let v := (s.rd a).bits
    let r : BitVec 48 := v.setWidth 48
    let inside := decide (wireX0 r ≤ CoreId.x s.c.id) && decide (CoreId.x s.c.id ≤ wireX1 r) &&
      decide (wireY0 r ≤ CoreId.y s.c.id) && decide (CoreId.y s.c.id ≤ wireY1 r)
    if 2 ^ 48 ≤ v.toNat ∨ wireX1 r < wireX0 r ∨ wireY1 r < wireY0 r then s.raise 0x02 1
    else if !inside then s.raise 0x05
    else if (wireCores (CoreId.die s.c.id) r).any (fun c => !(s.d.jobHolds s.part s.t.job c)) then s.raise 0x06
    else if s.c.warrived then s.raise 0x01
    else ({ s with c := { s.c with region := some r, wphase := 0, warrived := false } }).finish sw))

/-- `bar.warrive` (R166): arrives for the whole core. -/
def execBarWarrive (sw : Bool) (d : SReg) (scope : Scope) (s : State) : Out :=
  .next (s.issue Accept.none [] d (fun s =>
    if s.c.region.isNone then s.raise 0x06
    else if s.c.warrived then s.park (.wireAgain s.c.wphase)
    else s.release scope (fun s =>
      let s := { s with c := { s.c with warrived := true } }
      s.put false d (wordVal (s.c.wphase.setWidth 64) s.t.clabel) (fun s => s.finish sw))))

/-- `bar.wwait` (R166): ends when the phase count has passed the ticket, or with the masks of the cores that are missing. -/
def execBarWwait (sw : Bool) (d a : SReg) (scope : Scope) (s : State) : Out :=
  .next (s.issue Accept.none [a] d (fun s =>
    let ticket : BitVec 32 := (s.x a).setWidth 32
    if s.c.region.isNone then s.raise 0x06
    else match s.t.wireOut with
      | some v =>
        let s := { s with t := { s.t with wireOut := none } }
        s.otherAgent.put false d (wordVal v (s.labs [a])) (fun s => s.finish sw)
      | none =>
        if passed s.c.wphase ticket then
          (s.acquire scope).otherAgent.put false d (wordVal 0 (s.labs [a])) (fun s => s.finish sw)
        else s.park (.wire ticket s.d.cycle)))

/-- Makes the wire waits of a core that a phase ends ready. -/
def Core.wireWake (c : Core) : Core :=
  { c with slots := c.slots.map (fun o => o.map (fun t => match t.status with
      | .parked (.wire ticket _) => if passed c.wphase ticket then { t with status := .ready } else t
      | .parked (.wireAgain p) => if c.wphase = p then t else { t with status := .ready }
      | _ => t)) }

/-- The core with its phase complete. -/
def Core.wireDone (c : Core) : Core := ({ c with wphase := c.wphase + 1, warrived := false }).wireWake

/-- Whether the wire phase of the core in focus is complete. -/
def State.wireReady (s : State) : Bool :=
  match s.c.region with
  | some r => (wireCores (CoreId.die s.c.id) r).all (fun c => (s.core c).arrivedIn r)
  | none => false

/-- `WIRE_PHASE_COMPLETE` (R166): every core of the region counts the phase, and the waits on it go on. -/
def execWirePhaseComplete (core : CoreId) (s : State) : Out :=
  .next (let s' := s.focus core
    match s'.c.region with
    | some r =>
      if s'.wireReady then
        let n := s'.c.port.toNat
        let cells := wireCores (CoreId.die s'.c.id) r
        let c := s'.whole.wireDone
        seat c n { s'.d with cores := s'.d.cores.map (fun k => if cells.contains k.id then k.wireDone else k) }
      else s
    | none => s)

/-- The masks of columns and rows with a missing core, and bit 63 (R166). -/
def State.wireMissing (s : State) (r : BitVec 48) : Word :=
  let missing := (wireCores (CoreId.die s.c.id) r).filter (fun c => !((s.core c).arrivedIn r))
  let v := missing.foldl (fun n c =>
    n ||| 2 ^ (16 + (CoreId.x c - wireX0 r)) ||| 2 ^ (CoreId.y c - wireY0 r)) (2 ^ 63)
  BitVec.ofNat 64 v

/-- Whether the wire wait of a task on the core in focus has run out of time. -/
def State.wireExpired (s : State) (t : Task) : Bool :=
  match s.c.region, t.status with
  | some r, .parked (.wire _ since) => wireTimeout r != 0 && decide (since + wireTimeout r ≤ s.d.cycle)
  | _, _ => false

/-- `WIRE_WAIT_TIMEOUT` (R166): the wait ends without acquiring; the core's arrival stays in place. -/
def execWireWaitTimeout (core : CoreId) (tid : Tid) (s : State) : Out :=
  .next (match s.focusTask core tid with
    | some s' =>
      (match s'.c.region with
       | some r =>
         if s'.wireExpired s'.t then
           let (v, s') := s'.replayInput 1 (s'.wireMissing r)
           let s' := s'.recordInput 1 v
           ({ s' with t := { s'.t with wireOut := some v } }).wake
         else s
       | none => s)
    | none => s)

/-! ### Wait for change -/

/-- A read at the home of a location of the scratchpad or the shared window, with its page label; none when poisoned. -/
def State.localRead (s : State) (a n : Nat) : Option (Nat × Label) :=
  let b := if a < 0x100000 then s.c.spad else s.d.shared
  if b.poisoned a n then none else some (b.mem.read a n, b.labelOf a n)

/-- The checks of a read of a location by the task itself, at its home: the scratchpad or the shared window, LD, aligned;
earlier operations of the task on that slice land first. -/
def State.withLocal (s : State) (cap : Val) (n : Nat) (shared : Bool) (k : Nat → Nat → Label → State) : State :=
  let a : Int := capCursor cap.bits
  let v := capCursor cap.bits
  match checkAccess cap memSpaces pLD a n 1 none with
  | .error c => s.raise c 0 (causeValue c v)
  | .ok w =>
    if w = .glob ∨ (shared ∧ w ≠ .shared) then s.raise 0x06 0 (causeValue 0x06 v)
    else if v % n ≠ 0 then s.raise 0x08 0 (causeValue 0x08 v)
    else if s.forbidden w v n then s.raise 0x06 0 (causeValue 0x06 v)
    else s.watched true false v n (fun s =>
      s.afterAcquire (fun s =>
        if s.t.ops.any (fun o => match o.kind with
            | .access x => x.home == .slice (sliceCore (v - 0x40000000))
            | _ => false) then s.park .order
        else match s.localRead v n with
          | none => s.raise 0x18 (if w = .spad then 3 else 4) (causeValue 0x18 v)
          | some (x, l) => k v x l))

/-- A wait for change on n bytes. -/
def State.waitChange (s : State) (sw : Bool) (n : Nat) (d a b : SReg) (scope : Scope) : State :=
  s.issue Accept.none [a, b] d (fun s => s.withLocal (s.rd a) n false (fun addr v page =>
    if v = (s.rd b).bits.toNat % 2 ^ (8 * n) then (s.raiseLabel (s.lab a)).park (.change addr n v)
    else
      let label := page ||| s.labs [a]
      let s := ((s.raiseLabel label).acquire scope).otherAgent
      s.put false d { bits := BitVec.ofNat 128 v, tag := false, label } (fun s => s.finish sw)))

/-- `bar.wfcw` (R167). -/
def execBarWfcw (sw : Bool) (d a b : SReg) (scope : Scope) (s : State) : Out :=
  .next (s.waitChange sw 4 d a b scope)

/-- `bar.wfcd` (R167). -/
def execBarWfcd (sw : Bool) (d a b : SReg) (scope : Scope) (s : State) : Out :=
  .next (s.waitChange sw 8 d a b scope)

/-- Whether the location that a task on the core in focus waits on differs from the value it last read. -/
def State.changed (s : State) (t : Task) : Bool :=
  match t.status with
  | .parked (.change a n seen) => (match s.localRead a n with
    | some (v, _) => v != seen
    | none => true)
  | _ => false

/-- `WAIT_FOR_CHANGE_WAKE` (R167): the parked task reads the location again. -/
def execWaitForChangeWake (core : CoreId) (tid : Tid) (s : State) : Out :=
  .next (match s.focusTask core tid with
    | some s' => if s'.changed s'.t then s'.wake else s
    | none => s)

/-! ### The inbox -/

/-- Takes an inbox reservation, or parks until there is room (R168). -/
def State.reserve (s : State) (n : Nat) (k : State → State) : State :=
  if n = 0 ∨ s.roomForResv n then k { s with t := { s.t with resv := s.t.resv + n } } else s.park .room

/-- Sends a message to a task on a core. -/
def State.notify (s : State) (core : CoreId) (tid : Tid) (m : Msg) : State := s.send core (.inbox tid m)

/-- Bytes 7:0 of a message. -/
def Msg.low (m : Msg) : Word := m.bits.setWidth 64

/-- `inbox.pop` (R91, R169). -/
def execInboxPop (sw : Bool) (d a : SReg) (s : State) : Out :=
  .next (s.issue Accept.none [a] d (fun s =>
    match s.t.inbox with
    | [] =>
      if 0 < s.t.resv then s.otherAgent.park .inbox
      else s.put false d (wordVal 0 s.t.clabel) (fun s => s.finish sw)
    | m :: rest =>
      let cap := s.rd a
      let addr := capCursor cap.bits
      match checkAccess cap memSpaces pST (addr : Int) 32 32 (some .spad) with
      | .error c => s.raise c 0 (causeValue c addr)
      | .ok _ =>
        let vl := m.label ||| s.labs [a]
        if s.t.level == 0 && s.spadGuarded addr 32 then s.raise 0x06 0 (causeValue 0x06 addr)
        else if !(s.c.spad.accepts addr 32 vl) then
          s.raise 0x0B (labelDetail (s.c.spad.labelOf addr 32) vl) (causeValue 0x0B addr)
        else s.watched false true addr 32 (fun s => s.inOrder .core .plain addr 32 (fun s =>
          let s := (s.raiseLabel cap.label).spadPut addr 32 m.bits.toNat
          let s := ({ s with t := { s.t with inbox := rest } }).acquire .core
          s.put false d (wordVal m.low (m.label ||| s.t.clabel)) (fun s => s.finish sw)))))

/-- `inbox.peek` (R169). -/
def execInboxPeek (sw : Bool) (d : SReg) (s : State) : Out :=
  .next (s.issue Accept.none [] d (fun s =>
    let v := match s.t.inbox with
      | [] => wordVal 0 s.t.clabel
      | m :: _ => wordVal m.low (m.label ||| s.t.clabel)
    s.put false d v (fun s => s.finish sw)))

/-- `inbox.count` (R169). -/
def execInboxCount (sw : Bool) (d : SReg) (s : State) : Out :=
  .next (s.issue Accept.none [] d (fun s =>
    let label := s.t.inbox.foldl (fun l m => l ||| m.label) s.t.clabel
    let v := wordVal (BitVec.ofNat 64 (s.t.inbox.length + s.t.resv * 65536)) label
    s.put false d v (fun s => s.finish sw)))

/-- Takes one message off the network. -/
def dropMsg (m : NetMsg) : List NetMsg → List NetMsg
  | [] => []
  | x :: r => if x = m then r else x :: dropMsg m r

/-- The job for whose task a hearth executes a message (R418). -/
def Device.msgJob (d : Device) : MsgKind → Option (BitVec 16)
  | .access _ _ a => some (d.jobOfLaunch a.launch)
  | .spawn _ _ r | .fire _ r _ => some (d.jobOfLaunch r.launch)
  | .tail _ _ l _ _ => some (d.jobOfLaunch l)
  | .matrix _ _ m => some m.job
  | .active _ _ _ _ _ job => some job
  | .post _ _ job _ _ _ _ _ _ | .take _ _ job _ | .stat _ _ job _ | .done _ _ job _ _ | .thresh _ _ job _ _
  | .flush _ _ job _ => some job
  | _ => none

/-- A message for a task's inbox, which no hearth executes. -/
def MsgKind.isInbox : MsgKind → Bool
  | .inbox _ _ => true
  | _ => false

/-- Whether a message is an operation that a hearth executes (R22), and no answer to one of the core's own. -/
def MsgKind.executed : MsgKind → Bool
  | .spawnRefused _ _ _ _ | .fireRefused _ _ _ _ | .stealReply _ | .reserveRefused _ | .inbox _ _ | .wire | .pipeCredit _ _ => false
  | _ => true

/-- Takes the message at the head of the order from a source to a core, when a test accepts it and a replay has come to it; an
operation waits while the hearth runs an active message (R22). The core is brought into focus. -/
def State.takeFrom (s : State) (dst : CoreId) (src : Endpoint) (p : MsgKind → Bool) : Option (MsgKind × State) :=
  match s.d.net.find? (fun m => m.dst == dst && m.src == Endpoint.core src && !m.kind.isInbox) with
  | some m => if p m.kind && !(m.kind.executed && (s.core dst).hearth.isSome) &&
      !(s.d.stopped (s.d.partOf (CoreId.die dst))) && (s.d.msgJob m.kind).all (fun j => (s.focus dst).soloFree j none 4) then
      let s := { s with d := { s.d with net := dropMsg m s.d.net } }
      some (m.kind, s.focus dst) else none
  | none => none

/-- A task that is on no core and in no context area has ended. -/
def State.ended (s : State) (tid : Tid) : Bool := (s.find tid).isNone && (s.d.savedOf tid).isNone

/-- The first inbox message for a core that can enter: its task is on the core, or has ended; one for a saved task waits for its
return, and holds back no other task's. -/
def State.inboxDue (s : State) (core : CoreId) : Option NetMsg :=
  s.d.net.find? (fun m => m.dst == core && (match m.kind with
    | .inbox tid _ => (s.d.savedOf tid).isNone || (s.find tid).isSome
    | _ => false))

/-- `INBOX_MESSAGE` (R168): the message uses a reservation of its task, which goes on if it waits for one; for a task that
has ended it is discarded. -/
def execInboxMessage (core : CoreId) (s : State) : Out :=
  .next (match s.inboxDue core with
    | some m =>
      let s' := { s with d := { s.d with net := dropMsg m s.d.net } }
      (match m.kind with
       | .inbox tid msg =>
         (match s'.focusTask core tid with
          | some f =>
            let f := { f with t := f.t.receive msg }
            if f.t.status = .parked .inbox then f.wake else f
          | none => s')
       | _ => s)
    | none => s)

end Sys2Proof.Machine
end

