-- ==== Sys2Proof/Machine/Tasks.lean ====
section
/-! DEFINITION. Groups (R17 to R21), spawn records and deques (R27 to R30, R172 to R176), the forms of major 0x18 (R171 to
R180), fires at their targets (R157), stealing (R29), migration (R26) and anchor grants (R14). -/

namespace Sys2Proof.Machine

/-! ### What a record gives its child (R173) -/

/-- A value that a record gives its child: ARG1, ARG2 or JOIN, with its tag. -/
def SpawnRec.val (r : SpawnRec) (q : Quad) (i : Nat) : Val := { bits := q, tag := r.tags.getLsbD i, label := r.clabel }

/-- The general registers with g1 to g3 set from a record. -/
def SpawnRec.regs (r : SpawnRec) (g : Vector Val 16) : Vector Val 16 :=
  ((g.set 1 (r.val r.arg1 0)).set 2 (r.val r.arg2 1)).set 3 (r.val r.join 2)

/-- The kernel of a launch's image whose text holds an address. -/
def Device.kernelAt (d : Device) (launch : Nat) (pc : Word) : Option Kernel :=
  match d.launchGraph launch with
  | some g => g.kernelAt pc.toNat
  | none => none

/-- EntryCheck (R175) for a kind of kernel: 0 light, 1 staged. -/
def Device.entryOk (d : Device) (launch : Nat) (entry : Word) (kind : Nat) : Bool :=
  (d.kernelAt launch entry).any (fun k => k.kind.toNat == kind)

/-- The task that a record starts, of a kind. -/
def Device.childOf (d : Device) (r : SpawnRec) (kind : Nat) : Task :=
  let ceil := d.ceilOf r.launch r.entry
  let level := (d.launchGraph r.launch).elim 0 (·.level.toNat)
  let job := (d.launchGraph r.launch).elim 0 (·.job)
  { newTask r.tid r.entry kind (minPrio r.prio ceil) ceil level r.clabel job r.launch with g := r.regs (Vector.replicate 16 Val.zero) }

/-! ### The deque (R27, R30, R174) -/

/-- The places of the deque of the core in focus. -/
def Core.dqCap (c : Core) : Nat := (c.dqLimit.toNat - c.dqBase.toNat) / 64
/-- BOT − TOP. -/
def Core.dqLen (c : Core) : Nat := (c.dqBot - c.dqTop).toNat
/-- The scratchpad offset of record i. -/
def Core.dqAt (c : Core) (i : Nat) : Nat := c.dqBase.toNat + 64 * (i % c.dqCap)

/-- Pushes a record at BOT, when there is a place. -/
def State.dqPush (s : State) (r : SpawnRec) : Option State :=
  if s.c.dqCap ≤ s.c.dqLen then none
  else
    let i := s.c.dqBot.toNat
    let s := s.spadPut (s.c.dqAt i) 64 r.bits
    some { s with c := { s.c with dqBot := s.c.dqBot + 1, dqMeta := s.c.dqMeta ++ [(i, r.launch, false)] } }

/-- The record at an index, unless it is void. -/
def Core.dqRecord (c : Core) (i : Nat) : Option SpawnRec :=
  match c.dqMeta.find? (fun m => m.1 == i) with
  | some (_, launch, false) => some (spawnOf (c.spad.mem.read (c.dqAt i) 64) launch)
  | _ => none

/-- The core with its record at BOT − 1 taken or discarded. -/
def Core.dropBot (c : Core) : Core :=
  { c with dqBot := c.dqBot - 1, dqMeta := c.dqMeta.filter (fun m => m.1 != (c.dqBot - 1).toNat) }
/-- The core with its record at TOP taken or discarded. -/
def Core.dropTop (c : Core) : Core :=
  { c with dqTop := c.dqTop + 1, dqMeta := c.dqMeta.filter (fun m => m.1 != c.dqTop.toNat) }

/-- Discards void records at the owner's end. -/
def Core.cleanBot (c : Core) : Nat → Core
  | 0 => c
  | n + 1 => if c.dqLen = 0 ∨ (c.dqRecord (c.dqBot - 1).toNat).isSome then c else c.dropBot.cleanBot n
/-- Discards void records at the thieves' end. -/
def Core.cleanTop (c : Core) : Nat → Core
  | 0 => c
  | n + 1 => if c.dqLen = 0 ∨ (c.dqRecord c.dqTop.toNat).isSome then c else c.dropTop.cleanTop n

/-- The owner's pop (R30, R334): the live record nearest BOT, if a test accepts it. -/
def Core.popBot (c : Core) (p : SpawnRec → Bool) : Option SpawnRec × Core :=
  let c := c.cleanBot c.dqLen
  if c.dqLen = 0 then (none, c)
  else match c.dqRecord (c.dqBot - 1).toNat with
    | some r => if p r then (some r, c.dropBot) else (none, c)
    | none => (none, c)

/-- A thief's take: the live record nearest TOP, if a test accepts it. -/
def Core.popTop (c : Core) (p : SpawnRec → Bool) : Option SpawnRec × Core :=
  let c := c.cleanTop c.dqLen
  if c.dqLen = 0 then (none, c)
  else match c.dqRecord c.dqTop.toNat with
    | some r => if p r then (some r, c.dropTop) else (none, c)
    | none => (none, c)

/-- Whether the deque of a core holds a live record. -/
def Core.dqLive (c : Core) : Bool := c.dqLen != 0 && c.dqMeta.any (fun m => !m.2.2)

/-! ### The end of a group (R17 to R19, R37, R38, R176, R418) -/

/-- Whether a group waits for an operation beside the places in its buffer: for the reply that a result-writing form without such a
place still gets, and for every load, whatever its destination (R17, R85). -/
def PendOp.holdsGroup (o : PendOp) : Bool :=
  (o.result && (match o.dest with | none | some (.q _) => true | _ => false)) ||
  (match o.kind with | .access a => a.kind.isLoad | _ => false)

/-- Whether every result of the marked group has arrived. -/
def Task.groupArrived (t : Task) : Bool :=
  t.status == .parked .group && t.buf.all (fun e => match e with | .wait _ _ => false | _ => true) &&
  t.ops.all (fun o => !o.holdsGroup)

/-- The tiles with a row in the buffer. -/
def Task.rowTiles (t : Task) : BitVec 8 :=
  t.buf.foldl (fun m e => match e with | .row u _ _ => m ||| BitVec.ofNat 8 (2 ^ u.toNat) | _ => m) 0

/-- Whether the group of the task at the port may end. -/
def State.groupOver (s : State) : Bool := s.t.groupArrived && (s.t.rowTiles == 0 || s.t.rowTiles &&& s.busyTiles == 0)

/-- Sets an operand entry of an anchor. -/
def Anchor.setO (a : Anchor) (n : BitVec 3) (e : Entry) : Anchor := { a with o := a.o.setIfInBounds n.toNat e }

/-- Applies a buffer entry to the task. -/
def Task.apply (t : Task) : BufEntry → Task
  | .g n v => { t with g := t.g.setIfInBounds n.toNat v, gpoison := t.gpoison &&& ~~~BitVec.ofNat 16 (2 ^ n.toNat) }
  | .o n e => { t with anchor := t.anchor.map (fun a => a.setO n e) }
  | .stat n m s k => { t with anchor := t.anchor.map (fun a => ((a.setO n m).setO (n + 1) s).setO (n + 2) k) }
  | .row _ _ _ | .wait _ _ => t

/-- A tile with a row written (R37, R357). -/
def Tile.putRow (x : Tile) (r : BitVec 6) (e : Entry) : Tile :=
  { rows := x.rows.setIfInBounds r.toNat e.bits, fmt := if e.fmt = .none then x.fmt else e.fmt, label := x.label ||| e.label,
    poison := x.poison &&& ~~~BitVec.ofNat 64 (2 ^ r.toNat) }

/-- Applies a buffer entry to the tiles of the core. -/
def applyTile (ts : Vector Tile 8) : BufEntry → Vector Tile 8
  | .row t r e => vmod ts t.toNat (fun x => x.putRow r e)
  | _ => ts

/-- The task with its buffer applied and its latches at zero. -/
def Task.endGroup (t : Task) : Task :=
  let t := t.buf.foldl Task.apply t
  { t with buf := [], lost := 0, l := Val.zero, anchor := t.anchor.map (fun a => { a with lv := Entry.zero }), midGroup := false,
           predict := none, mark := none }

/-- A task goes on with an inline child (R176). -/
def Task.runInline (t : Task) (r : SpawnRec) (ret : Word) : Task :=
  { t with frames := t.frames ++ [{ tid := t.tidReg, ret }], g := r.regs t.g, tidReg := r.tid, pc := r.entry,
           unitPc := r.entry, clabel := t.clabel ||| r.clabel, gpoison := t.gpoison &&& ~~~0xE#16 }

/-- What the end of a group leads to: an inline child, or the start of a migration. The child of a spawn goes before that of a fire,
since its run follows the spawn's group (R176). -/
def State.afterGroup (s : State) (mark : Option CoreId) : State :=
  match (s.t.bounced.find? (·.2.isSome)) <|> s.t.bounced.head? with
  | some (r, ret) =>
    { (s.acquire .part) with t := { (s.t.runInline r (ret.getD s.t.pc)) with bounced := s.t.bounced.erase (r, ret) } }
  | none =>
    match mark with
    | some goal => if s.migrates .migrate then { s with t := { s.t with status := .parked (.migrate goal) } } else s
    | none => s

/-- Whether the open chunk of the task at the port ends with the group (R418). -/
def State.chunkOver (s : State) : Bool :=
  let tr := s.c.trace
  tr.chunkTask == some s.t.tid &&
  (decide (bitsOf (tr.rctlOf s.t.tid).toNat 32 32 ≤ tr.chunkUnits) || tr.chunkEnds || s.t.status != .ready)

/-- Ends the group of the task at the port. A parity error of the buffer raises its cause and applies nothing (R51). -/
def State.endGroup (s : State) : State :=
  if s.t.parity then
    ({ s with t := { s.t with buf := [], lost := 0, parity := false, status := .ready } }).raiseAt s.t.pc 0x19 0 0
  else
    let tiles := if s.t.anchor.isSome then s.t.buf.foldl applyTile s.c.tiles else s.c.tiles
    let mark := s.t.mark
    let s := ({ s with t := s.t.endGroup, c := { s.c with tiles } }).wake
    let s := (s.count 3).afterGroup mark
    if s.chunkOver then s.closeChunk s.t else s

/-- `GROUP_END` (R17). -/
def execGroupEnd (core : CoreId) (tid : Tid) (s : State) : Out :=
  .next (match s.focusTask core tid with
    | some f => if f.groupOver then f.endGroup else s
    | none => s)

/-- `PRIORITY_AGEING` (R15). -/
def execPriorityAgeing (core : CoreId) (s : State) : Out :=
  .next (let f := s.focus core
    if f.agesNow then f.ageTasks else s)

/-- `ILLEGAL_INSTRUCTION` (R101, R102): the word at the port is no instruction. -/
def execIllegalInstruction (s : State) : Out :=
  .next (if s.t.status = .vacant then s else s.raise 0x01)

/-! ### Spawning (R175, R176) -/

/-- The tags that a record keeps: those of granules whose capability has GLOBAL. -/
def Bank.recordTags (b : Bank) (a : Nat) : BitVec 3 :=
  let t (i : Nat) : Nat := if b.tagAt (a + 16 * i) && hasPerm (BitVec.ofNat 128 (b.mem.read (a + 16 * i) 16)) pGLOBAL then 1 else 0
  BitVec.ofNat 3 (t 1 + 2 * t 2 + 4 * t 3)

/-- A join capability is tagged, in the shared window, and has ATOM. -/
def joinOk (q : Quad) (tag : Bool) : Bool :=
  !tag || ((capSpace q == 0 || capSpace q == 2) && winOf (capCursor q) == some .shared && hasPerm q pATOM)

/-- The checks of a source record: the record as the spawn forms it, without its TID. R174 names loads, stores, atomics, waits and
copies as what may not touch deque and pipe bytes: DESIGN CHOICE (log entry 121), the scratchpad operands of this chapter's own forms
may not either. -/
def State.withSource (s : State) (a : SReg) (k : SpawnRec → State) : State :=
  let cap := s.rd a
  let addr := capCursor cap.bits
  match checkAccess cap [0, 3] pLD (addr : Int) 64 64 (some .spad) with
  | .error c => s.raise c 0 (causeValue c addr)
  | .ok _ =>
    if s.forbidden .spad addr 64 then s.raise 0x06 0 (causeValue 0x06 addr)
    else s.afterAcquire (fun s =>
      if s.c.spad.poisoned addr 64 then s.raise 0x18 3 (causeValue 0x18 addr)
      else
      let n := s.c.spad.mem.read addr 64
      let r := spawnOf n s.t.launch
      let tags := s.c.spad.recordTags addr
      if r.rkind ≠ 0 ∨ bitsOf n 119 1 = 1 then s.raise 0x02 2
      else if !(s.d.entryOk s.t.launch r.entry 0) then s.raise 0x06
      else if !(joinOk r.join (tags.getLsbD 2)) then s.raise 0x06
      else k { r with
        tags, prio := minPrio r.prio (s.d.ceilOf s.t.launch r.entry),
        clabel := s.t.clabel ||| cap.label ||| s.c.spad.labelOf addr 64 })

/-- A record with a TID of the core in focus, and its creation record. -/
def State.nameRecord (s : State) (r : SpawnRec) (how : Nat) (by_ : Tid) : SpawnRec × State :=
  let (tid, s) := s.newTid (s.d.jobOfLaunch r.launch)
  let r := { r with tid }
  (r, s.recordCreate (s.d.childOf r 0) how by_)

/-- The value of a spawn's destination. -/
def tidVal (tid : Tid) (label : Label) : Val := { bits := tid.setWidth 128, tag := false, label }

/-- Whether the task at the port may take one more inline child. -/
def Task.roomInline (t : Task) : Bool := decide (t.frames.length + t.bounced.length < 16)

/-- `task.spawn` (R175). -/
def execTaskSpawn (d a : SReg) (s : State) : Out :=
  .next (s.issue Accept.none [a] d (fun s => s.withSource a (fun r => s.release .part (fun s =>
    let (r, s) := s.nameRecord r 1 s.t.tidReg
    match s.dqPush r with
    | some s => (s.raiseLabel r.clabel).put false d (tidVal r.tid r.clabel) (fun s => s.finish true)
    | none =>
      let s := s.count 6
      let ret := s.t.pc + 4
      if !s.t.roomInline then s.raise 0x0E
      else
        let s := (s.raiseLabel r.clabel).put false d (tidVal r.tid r.clabel) (fun s => s.finish true)
        { s with t := { s.t with bounced := s.t.bounced ++ [(r, some ret)] } }))))

/-- The operation of a `task.spawnto`. -/
def State.spawnOp (s : State) (id : Nat) (d : SReg) (r : SpawnRec) (peer : Bool) : PendOp :=
  { id, pc := s.t.unitPc, word := s.t.word, next := s.t.pc + 4, dest := laterDest d, result := true,
    kind := .spawnto r.tid, stage := .sent, clabel := r.clabel, peer, host := false, seq := 0, cycle := s.d.cycle }

/-- `task.spawnto` (R175). -/
def execTaskSpawnto (d a b : SReg) (s : State) : Out :=
  .next (s.issue Accept.none [a, b] d (fun s => s.withSource a (fun r =>
    let v := s.x b
    let target : Endpoint := v.setWidth 24
    let own := Endpoint.dev target == s.d.fabric.device
    if 2 ^ 24 ≤ v.toNat ∨ Endpoint.kind target ≠ 0 then s.raise 0x02 1
    else if own && !(s.d.jobHolds s.part s.t.job (Endpoint.core target)) then s.raise 0x06
    else if !own && r.tags.getLsbD 2 then s.raise 0x06
    else s.release (if own then .part else .pod) (fun s =>
      let (r, s) := s.nameRecord r 2 s.t.tidReg
      let (id, s) := s.newOp
      let o := s.spawnOp id d r (!own)
      let (o, s) := if own then (o, s) else s.toPeer (Endpoint.dev target) s.t.job o (askEndpoint 6 target r.clabel (toBytes 64 r.bits))
      let s := (s.raiseLabel r.clabel).addOp o
      let s := s.await id (laterDest d)
      (if own then s.send (Endpoint.core target) (.spawn s.t.tid id r) else s).finish true))))

/-- Delivers the TID of an accepted spawn to the task at the port, and takes the operation off its list. -/
def State.spawned (s : State) (o : PendOp) (tid : Tid) : State :=
  (s.dropOp o.id).land o (tidVal tid o.clabel)

def MsgKind.isSpawn : MsgKind → Bool
  | .spawn _ _ _ | .fire _ _ _ => true
  | _ => false

/-- The stage of an operation of a task of a core. -/
def State.setStage (s : State) (core : CoreId) (id : Nat) (stage : OpStage) : State :=
  let set (t : Task) : Task := { t with ops := t.ops.map (fun (o : PendOp) => if o.id = id then { o with stage } else o) }
  let setC (c : Core) : Core := { c with
    slots := c.slots.map (fun o => o.map set), hearth := c.hearth.map (fun (h : HearthRun) => { h with task := set h.task }) }
  if s.c.id = core then
    { s with t := set s.t, c := setC s.c }
  else { s with d := { s.d with cores := s.d.cores.map (fun (c : Core) => if c.id = core then setC c else c) } }

/-- A result that is a number under a label. -/
def plainResult (n : Nat) (label : Label) : Result := { data := BitVec.ofNat 512 n, tag := false, label, flags := 0 }

/-- The core on which a fire's issuing task stands, or stood when it was saved. -/
def State.homeOf (s : State) (tid : Tid) : CoreId :=
  match s.find tid with
  | some (c, _) => c
  | none => (s.d.savedOf tid).elim s.c.id (·.core)

/-- A hearth operation of the core in focus is executed: it is counted, and for a recorded job it is a chunk of its own. -/
def State.hearthDone (s : State) (job : BitVec 16) (src : Endpoint) : State :=
  (s.count 9).soloChunk job none 4 src

/-- Whether the core in focus takes a record: the entry check, and the core is the job's. -/
def State.admits (s : State) (r : SpawnRec) : Bool :=
  s.d.entryOk r.launch r.entry 0 && s.d.jobHolds (launchPart r.launch) (s.d.jobOfLaunch r.launch) s.c.id

/-- `SPAWN_REQUEST` (R157, R175): the target pushes the record, or refuses it. -/
def execSpawnRequest (core : CoreId) (src : Endpoint) (s : State) : Out :=
  .next (match s.takeFrom core src MsgKind.isSpawn with
    | some (.spawn tid op r, f) =>
      let from_ := Endpoint.core src
      let f := f.hearthDone (f.d.jobOfLaunch r.launch) src
      if f.c.fenced then f.setStage from_ op (.failed 0x12 0)
      else if !(f.admits r) then f.send from_ (.spawnRefused tid op false r)
      else (match f.dqPush r with
        | some f => f.setStage from_ op (.executed (plainResult r.tid.toNat r.clabel))
        | none => (f.count 6).send from_ (.spawnRefused tid op true r))
    | some (.fire tid r cell, f) =>
      let back := f.homeOf tid
      let job := f.d.jobOfLaunch r.launch
      if f.c.fenced ∨ !(f.admits r) then (f.hearthDone job src).send back (.fireRefused tid r cell (if f.c.fenced then 0x12 else 0x06))
      else
        let (r, f) := f.nameRecord { r with prio := minPrio r.prio (f.d.ceilOf r.launch r.entry) } 3 tid
        let f := f.hearthDone job src
        (match f.dqPush r with
         | some f => f
         | none => (f.count 6).send back (.fireRefused tid r cell 0x0E))
    | _ => s)

def MsgKind.isSpawnRefused : MsgKind → Bool
  | .spawnRefused _ _ _ _ => true
  | _ => false

/-- Whether a task that has a message to take is on no core but saved: the message waits for its return. -/
def State.away (s : State) (tid : Tid) : Bool := (s.find tid).isNone && (s.d.savedOf tid).isSome

/-- `SPAWNTO_REFUSAL` (R175, R176). -/
def execSpawntoRefusal (core : CoreId) (src : Endpoint) (s : State) : Out :=
  .next (match s.takeFrom core src MsgKind.isSpawnRefused with
    | some (.spawnRefused tid op bounce r, f) =>
      if s.away tid then s
      else (match f.focusTask core tid with
        | none => f
        | some f => match f.t.ops.find? (fun o => o.id == op) with
          | none => f
          | some o =>
            if !bounce then f.opFails o 0x06 0
            else if !f.t.roomInline then f.opFails o 0x0E 0
            else
              let f := f.spawned o r.tid
              { f with t := { f.t with bounced := f.t.bounced ++ [(r, some o.next)] } })
    | _ => s)

/-! ### Refused fires (R157) -/

def MsgKind.isFireRefused : MsgKind → Bool
  | .fireRefused _ _ _ _ => true
  | _ => false

/-- A bounced fire becomes a pending fire of its target, or is reported when that holds 256. -/
def State.pend (s : State) (target : CoreId) (r : SpawnRec) (cell : Nat) : State :=
  if (s.core target).pendFires.length < 256 then s.modCore target (fun c => { c with pendFires := c.pendFires ++ [r] })
  else s.report target 0x0E 0 (BitVec.ofNat 64 cell) (s.d.jobOfLaunch r.launch) r.launch r.clabel

/-- `FIRE_REFUSAL` (R157). -/
def execFireRefusal (core : CoreId) (src : Endpoint) (s : State) : Out :=
  .next (match s.takeFrom core src MsgKind.isFireRefused with
    | some (.fireRefused tid r cell cause, f) =>
      let target := Endpoint.core src
      let bounce := cause == 0x0E
      if s.away tid then s
      else (match f.find tid with
        | some (c, _) => (match f.focusTask c tid with
          | some f =>
            if !bounce then
              { f with t := { f.t with deferred := f.t.deferred ++ [(0x11, 0x100 ||| cause.setWidth 32, 0)] } }
            else if f.t.roomInline then { f with t := { f.t with bounced := f.t.bounced ++ [(r, none)] } }
            else f.pend target r cell
          | none => f)
        | none =>
          if bounce then f.pend target r cell
          else f.report target cause.toNat 0 (BitVec.ofNat 64 cell) (f.d.jobOfLaunch r.launch) r.launch r.clabel)
    | _ => s)

/-- `PENDING_FIRE_PUSH` (R157). -/
def execPendingFirePush (core : CoreId) (s : State) : Out :=
  .next (let f := s.focus core
    match f.c.pendFires with
    | r :: rest => (match f.dqPush r with
      | some f => { f with c := { f.c with pendFires := rest } }
      | none => s)
    | [] => s)

/-! ### Join and end (R177, R178) -/

/-- Writes counted at a doubleword. -/
def Device.writesAt (d : Device) (addr : Nat) : Nat := (d.writes.lookup (addr / 8)).getD 0

/-- `task.join` (R178). -/
def execTaskJoin (a : SReg) (s : State) : Out :=
  .next (s.issueNone Accept.none [a] (fun s => s.withLocal (s.rd a) 8 true (fun addr v page =>
    let s := (s.raiseLabel (page ||| s.lab a)).otherAgent
    if v = 0 then (s.acquire .part).finish true
    else
      let (r, c) := s.c.popBot (fun _ => s.t.roomInline)
      let s := { s with c }
      match r with
      | some r =>
        let ret := s.t.unitPc
        let s := s.finish true
        { s with t := { s.t with bounced := s.t.bounced ++ [(r, some ret)] } }
      | none => s.park (.join addr (s.d.writesAt addr)))))

/-- Whether the counter of a parked join has been written. -/
def State.joinWritten (s : State) (t : Task) : Bool :=
  match t.status with
  | .parked (.join addr n) => s.d.writesAt addr != n
  | _ => false

/-- `JOIN_WAKE` (R178). -/
def execJoinWake (core : CoreId) (tid : Tid) (s : State) : Out :=
  .next (match s.focusTask core tid with
    | some f => if f.joinWritten f.t then f.wake else s
    | none => s)

/-- The access of a task's end: −1 is added to the join counter. -/
def State.endAccess (s : State) (cap : Val) (addr : Nat) : Access :=
  { kind := .atom 2 .d, home := .slice (sliceCore (addr - 0x40000000)), addr, va := addr, n := 8, lo := addr, len := 8,
    data := BitVec.ofNat 512 (2 ^ 64 - 1), cmp := 0, vl := cap.label ||| s.t.clabel, al := cap.label ||| s.t.clabel,
    tag := false, keep := false, prio := s.t.prio, launch := s.t.launch, page := 0, comp := false, scope := .part,
    order := .rel }

/-- Sends the decrement to the slice of another core and waits for its answer. -/
def State.endRemote (s : State) (x : Access) (goal : CoreId) : State :=
  let (id, s) := s.newOp
  let o : PendOp := {
    id, pc := s.t.unitPc, word := s.t.word, next := s.t.pc + 4, dest := none, result := true, kind := .access x, stage := .sent,
    clabel := s.t.clabel, peer := false, host := false, seq := 0, cycle := s.d.cycle }
  let s := (s.addOp o).send goal (.access s.t.tid id x)
  ({ s with t := { s.t with arrival := some (s.t.unitPc, 0) } }).park .order

/-- Step 1 of R177: the decrement, unless it has been made already. -/
def State.endCount (s : State) (a : SReg) (k : State → State) : State :=
  let cap := s.rd a
  let addr := capCursor cap.bits
  if !cap.tag then k s
  else if s.t.arrival = some (s.t.unitPc, 0) then k { s with t := { s.t with arrival := none } }
  else match checkAccess cap memSpaces pATOM (addr : Int) 8 8 (some .shared) with
    | .error c => s.raise c 0 (causeValue c addr)
    | .ok _ =>
      if s.forbidden .shared addr 8 then s.raise 0x06 0 (causeValue 0x06 addr)
      else s.watched true true addr 8 (fun s => s.inOrder .part .rel addr 8 (fun s =>
        let s := s.raiseLabel cap.label
        let x := s.endAccess cap addr
        let goal := sliceCore (addr - 0x40000000)
        if goal = s.c.id then
          if s.d.fencedSlices.contains s.c.id then s.raise 0x11 0x18
          else match s.bankPerform x with
            | .error (c, detail) => s.raise c detail (causeValue c addr)
            | .ok (_, s) => k s
        else s.endRemote x goal))

/-- Whether a task's engine programs and operations have ended. -/
def State.enginesDone (s : State) : Bool :=
  let mine (o : Tid) : Bool := o == s.t.tid
  s.c.mx.all (fun o => !(mine o.owner && o.remote.isNone)) && s.c.cp.all (fun o => !mine o.owner) &&
  s.c.srt.all (fun o => !mine o.owner) &&
  (match s.t.anchor with
   | some x => [x.mprog, x.cprog, x.sprog].all (fun p => p.all (·.ended))
   | none => true)

/-- A handler task ends while its trapped task is not resumed: that one awaits notice without a slot (R332). -/
def State.handlerEnds (s : State) : State :=
  match s.t.trapped with
  | none => s
  | some area => { s with d := { s.d with saved := s.d.saved.map (fun v =>
      if v.area = area then { v with awaiting := true, slot := none } else v) } }

/-- Step 3 of R177. While engine work runs the task waits, and step 1 is not made again. -/
def State.endRun (s : State) : State :=
  if s.t.onHearth then { s with t := { s.t with status := .stopped, unitPc := s.t.pc } }
  else if !s.enginesDone then State.park { s with t := { s.t with arrival := some (s.t.unitPc, 0) } } .ending
  else ((s.closeChunk s.t).handlerEnds).endTask

/-- `task.end` (R177). -/
def execTaskEnd (a : SReg) (s : State) : Out :=
  .next (s.issueNone Accept.none [a] (fun s => s.endCount a (fun s =>
    match s.t.frames.getLast? with
    | some f =>
      ({ s with t := { s.t with frames := s.t.frames.dropLast, tidReg := f.tid } }).finishAt true f.ret
    | none => s.endRun)))

/-! ### Anchoring and yielding (R14, R179, R180) -/

/-- How many tiles a mask names. -/
def tileCount (m : BitVec 8) : Nat := (tilesOf m).length

/-- `task.anchor` (R179): the task is granted, or waits, at the end of its unit. -/
def execTaskAnchor (a : SReg) (s : State) : Out :=
  .next (s.issueNone Accept.none [a] (fun s =>
    let v := s.x a
    let limit := (s.d.kernelAt s.t.launch s.t.unitPc).elim 0 (·.anchor)
    if v = 0 ∨ 256 ≤ v.toNat then s.raise 0x02 1
    else if limit < tileCount (v.setWidth 8) then s.raise 0x06
    else if s.t.anchor.isSome then s.raise 0x01
    else
      let w : Wait := .anchor (v.setWidth 8) (s.lab a)
      let s := s.finish false
      let s := { s with t := { s.t with status := .parked w }, c := { s.c with anchorQ := s.c.anchorQ ++ [s.t.tid] } }
      s.record 5 s.t 0#16 s.t.pc 2))

/-- The cores on which the START tasks of a kernel are placed, in order (R329 step 6). -/
def Kernel.starts (k : Kernel) : List CoreId :=
  let l := k.region
  (rangeFrom 0 k.start).filterMap (fun i => l[i % l.length]?)

/-- The gang of a kernel. -/
def Kernel.gang (k : Kernel) : Option Nat := k.decls.findSome? (fun x => match x with | .gang i => some i | _ => none)

/-- The members of a gang. -/
def Graph.members (g : Graph) (gang : Nat) : List Kernel := g.kernels.filter (fun k => k.gang == some gang && k.start != 0)

/-- What a gang needs on a core: slots, anchors, tiles (R335). -/
def Graph.need (g : Graph) (gang : Nat) (c : CoreId) : Nat × Nat × Nat :=
  (g.members gang).foldl (fun n k =>
    let m := (k.starts.filter (· == c)).length
    (n.1 + m, n.2.1 + (if k.anchor = 0 then 0 else m), n.2.2 + m * k.anchor)) (0, 0, 0)

/-- What the gang at the head of a partition's queue needs on a core. -/
def Device.headNeed (d : Device) (p : BitVec 2) (c : CoreId) : Nat × Nat × Nat :=
  match (d.partState p).gangs.head? with
  | none => (0, 0, 0)
  | some (key, i) => (d.launchGraph key).elim (0, 0, 0) (fun g => g.need i c)

/-- How many slots of the core in focus are free. -/
def State.freeSlots (s : State) : Nat := s.whole.emptySlots.length - s.c.reserved.length

/-- A free slot of the core in focus for the rotation: none while the upcall queue waits, or the gang at the head of the
partition's queue keeps the slots that are free. -/
def State.rotationSlot (s : State) : Option Nat :=
  if !s.c.upcallQ.isEmpty || s.freeSlots ≤ (s.d.headNeed s.part s.c.id).1 then none else s.freeSlot

/-- Whether an anchor place and tiles are free on the core in focus, beside those that the gang at the head of the
partition's queue keeps (R335). -/
def State.anchorFree (s : State) (mask : BitVec 8) : Bool :=
  let n := s.d.headNeed s.part s.c.id
  decide (s.anchored + n.2.1 < 4) && s.grantedTiles &&& mask == 0 &&
  (n.2.2 == 0 || decide (tileCount s.grantedTiles + tileCount mask + n.2.2 ≤ 8))

/-- The request at the head of the core's queue, when it can be granted (R14). -/
def State.anchorDue (s : State) : Option (Tid × BitVec 8 × Label) :=
  match s.c.anchorQ with
  | tid :: _ => match s.slotOf tid with
    | some n => match (s.whole.slot n).status with
      | .parked (.anchor mask label) => if s.anchorFree mask then some (tid, mask, label) else none
      | _ => none
    | none => none
  | [] => none

/-- The task with a granted anchor; the end of its group follows. -/
def Task.granted (t : Task) (mask : BitVec 8) (label : Label) : Task :=
  { t with anchor := some (Anchor.fresh mask), tsw := setBits t.tsw 20 1 1, clabel := t.clabel ||| label, mark := none,
           status := .parked .group }

/-- Tiles at their reset values. -/
def resetTiles (ts : Vector Tile 8) (mask : BitVec 8) : Vector Tile 8 :=
  (tilesOf mask).foldl (fun ts i => vmod ts i.toNat (fun _ => Tile.zero)) ts

/-- `ANCHOR_GRANT` (R14, R179). -/
def execAnchorGrant (core : CoreId) (s : State) : Out :=
  .next (let f := s.focus core
    match f.anchorDue with
    | some (tid, mask, label) =>
      let f := f.toPort tid
      let f := { f with t := f.t.granted mask label,
                        c := { f.c with anchorQ := f.c.anchorQ.filter (· != tid), tiles := resetTiles f.c.tiles mask } }
      f.record 12 f.t label (mask.setWidth 64) 0
    | none => s)

/-- `task.unanchor` (R179). -/
def execTaskUnanchor (s : State) : Out :=
  .next (s.issueNone Accept.none [] (fun s =>
    match s.t.anchor with
    | none => s.raise 0x01
    | some x =>
      if !([x.mprog, x.cprog, x.sprog].all (fun p => p.all (·.ended))) || x.tiles &&& s.busyTiles != 0 then s.raise 0x01
      else
        let held := [x.mprog, x.cprog, x.sprog].foldl (fun n p => n + (if p.any (·.holds) then 1 else 0)) 0
        let t := { s.t with anchor := none, tsw := setBits s.t.tsw 20 1 0, resv := s.t.resv - held }
        (({ s with t }).record 13 t 0#16 (x.tiles.setWidth 64) 0).finish true))

/-- `task.yield` (R180). -/
def execTaskYield (s : State) : Out :=
  .next (s.issueNone Accept.none [] (fun s =>
    let others := s.whole.tasks.filter (fun p => s.isReady p.2 && p.2.tid != s.t.tid && p.2.eff == s.t.eff)
    let mask := others.foldl (fun m p => m + 2 ^ p.1) 0
    ({ s with t := { s.t with yieldTo := BitVec.ofNat 24 mask } }).finish true))

/-! ### Stealing (R29, R30) -/

/-- The jobs that hold a core, each with the widest STEAL among its kernels there. -/
def Device.stealJobs (d : Device) (p : BitVec 2) (c : CoreId) : List (BitVec 16 × Nat) :=
  d.graphs.flatMap (fun g => if g.part == p then
    (g.kernels.filter (fun k => k.covers c)).map (fun k => (g.job, k.steal.toNat)) else [])

/-- The jobs for which a core may steal in a domain (0 cluster, 1 die, 2 partition). -/
def Device.stealFor (d : Device) (p : BitVec 2) (c : CoreId) (dom : Nat) : List (BitVec 16) :=
  (((d.stealJobs p c).filter (fun x => decide (dom + 3 ≤ x.2))).map (·.1)).eraseDups

/-- The cores of a domain around a core that no narrower domain holds, in ascending order. -/
def Device.domain (d : Device) (c : CoreId) (dom : Nat) : List CoreId :=
  let all := rangeFrom 0 1024
  let same (x : Nat) : Bool := BitVec.ofNat 10 x != c && CoreId.cluster (BitVec.ofNat 10 x) == CoreId.cluster c
  let p := d.partOf (CoreId.die c)
  let l := match dom with
    | 0 => all.filter same
    | 1 => all.filter (fun x => CoreId.die (BitVec.ofNat 10 x) == CoreId.die c &&
        CoreId.cluster (BitVec.ofNat 10 x) != CoreId.cluster c)
    | _ => all.filter (fun x => d.partOf (CoreId.die (BitVec.ofNat 10 x)) == p && CoreId.die (BitVec.ofNat 10 x) != CoreId.die c)
  l.map (BitVec.ofNat 10)

/-- A list of cores in rotating order after the last victim. -/
def rotateAfter (last : CoreId) (l : List CoreId) : List CoreId :=
  l.filter (fun c => decide (last.toNat < c.toNat)) ++ l.filter (fun c => decide (c.toNat ≤ last.toNat))

/-- Whether the core in focus is a thief: no ready task, an empty deque, a free slot. -/
def State.thief (s : State) : Bool :=
  s.whole.tasks.all (fun p => !s.isReady p.2) && s.c.dqLen == 0 && s.freeSlot.isSome && !s.c.fenced

/-- Goes on with the search at a domain and the victims left in it: one request is sent, or the search is over. -/
def State.searchOn (s : State) : Nat → Nat → List CoreId → State
  | 0, _, _ => { s with c := { s.c with search := none } }
  | fuel + 1, dom, left =>
    let jobs := s.d.stealFor s.part s.c.id dom
    match left with
    | v :: rest =>
      if jobs.isEmpty then { s with c := { s.c with search := none } }
      else
        let q : Search := { domain := BitVec.ofNat 2 dom, victim := v, left := rest, waiting := true }
        let c := { s.c with search := some q, lastVictim := s.c.lastVictim.setIfInBounds dom v }
        (({ s with c }).count 7).send v (.stealReq s.c.id jobs)
    | [] =>
      if 2 ≤ dom then { s with c := { s.c with search := none } }
      else s.searchOn fuel (dom + 1)
        (if (s.d.stealFor s.part s.c.id (dom + 1)).isEmpty then []
         else rotateAfter (s.c.lastVictim[dom + 1]?.getD s.c.id) (s.d.domain s.c.id (dom + 1)))

/-- `STEAL` (R29): a thief starts a search. -/
def execSteal (core : CoreId) (s : State) : Out :=
  .next (let f := s.focus core
    if f.thief && f.c.search.isNone then
      f.searchOn 4 0 (if (f.d.stealFor f.part core 0).isEmpty then []
        else rotateAfter (f.c.lastVictim[0]?.getD core) (f.d.domain core 0))
    else s)

def MsgKind.isStealReq : MsgKind → Bool
  | .stealReq _ _ => true
  | _ => false

/-- `STEAL_REQUEST` (R29, R30). -/
def execStealRequest (core : CoreId) (src : Endpoint) (s : State) : Out :=
  .next (match s.takeFrom core src MsgKind.isStealReq with
    | some (.stealReq thief jobs, f) =>
      let f := f.count 9
      if f.c.fenced then f.send thief (.stealReply none)
      else
        let (r, c) := f.c.popTop (fun r =>
          let job := f.d.jobOfLaunch r.launch
          jobs.contains job && f.d.jobHolds f.part job f.c.id)
        ({ f with c }).send thief (.stealReply r)
    | _ => s)

def MsgKind.isStealReply : MsgKind → Bool
  | .stealReply _ => true
  | _ => false

/-- `STEAL_REPLY` (R29, R30): a record waits for a slot as a light task; an empty reply goes on to the next victim. -/
def execStealReply (core : CoreId) (src : Endpoint) (s : State) : Out :=
  .next (match s.takeFrom core src MsgKind.isStealReply with
    | some (.stealReply (some r), f) =>
      ({ f with c := { f.c with search := none, startQ := f.c.startQ ++ [f.d.childOf r 0] } }).count 8
    | some (.stealReply none, f) =>
      (match f.c.search with
       | some q => if f.thief then f.searchOn 4 q.domain.toNat q.left else { f with c := { f.c with search := none } }
       | none => f)
    | _ => s)

/-! ### Migration (R25, R26) -/

/-- `MIGRATION` (R26 steps 1 and 2): once its remote operations are acknowledged the task asks its target for a slot. -/
def execMigration (core : CoreId) (tid : Tid) (s : State) : Out :=
  .next (match s.focusTask core tid with
    | some f => (match f.t.status with
      | .parked (.migrate goal) =>
        let f := f.drainTask
        if f.t.ops.isEmpty then
          let f := { f with t := { f.t with status := .parked (.reserved goal) } }
          f.send goal (.reserve tid)
        else s
      | _ => s)
    | none => s)

def MsgKind.isReserve : MsgKind → Bool
  | .reserve _ => true
  | _ => false

/-- The task that waits on a core for the answer of another. -/
def State.reserving (s : State) (core : CoreId) (tid : Tid) (goal : CoreId) : Option Task :=
  ((s.core core).tasks.find? (fun p => p.2.tid == tid && p.2.status == .parked (.reserved goal))).map (·.2)

/-- Whether a reservation request at the core in focus is granted: not a slot that goes to another first (R335, R432). -/
def State.slotGranted (s : State) : Bool := s.rotationSlot.isSome && !s.c.fenced

/-- In replay, whether the log of the asking core holds the refusal of a reservation (R421). -/
def State.refusedBefore (s : State) (from_ : CoreId) : Bool :=
  match (s.core from_).trace.inputs with
  | (k, _) :: _ => k == 3
  | [] => false

/-- Whether a task of a core is replayed there. -/
def Core.replays (c : Core) (t : Task) : Bool :=
  let r := (c.trace.rctlOf t.tid).toNat
  bitsOf r 16 2 == 2 && bitsOf r 0 16 == t.job.toNat

/-- `SLOT_RESERVATION` (R26 steps 3 and 4): a granted task departs, and its context follows. -/
def execSlotReservation (core : CoreId) (src : Endpoint) (s : State) : Out :=
  .next (match s.takeFrom core src MsgKind.isReserve with
    | some (.reserve tid, f) =>
      let from_ := Endpoint.core src
      let f := f.count 9
      (match f.reserving from_ tid core with
       | none => f
       | some t =>
         let again := (f.core from_).replays t
         if again && f.refusedBefore from_ then f.send from_ (.reserveRefused tid)
         else if again && !f.slotGranted then s
         else if f.slotGranted then
           let f := { f with c := { f.c with reserved := f.c.reserved ++ [(tid, t.launch)] } }
           let f := f.modTaskOn from_ tid (fun t => { t with status := .departing core })
           let f := f.atCore from_ (fun s =>
             ((s.count 4).record 7 t 0#16 (BitVec.ofNat 64 (endpointOf s.d.fabric.device core).toNat) 0).closeChunk t)
           { f with d := { f.d with net := f.d.net ++ [{ src := from_, dst := core, kind := .context t }] } }
         else f.send from_ (.reserveRefused tid))
    | _ => s)

def MsgKind.isReserveRefused : MsgKind → Bool
  | .reserveRefused _ => true
  | _ => false

/-- `MIGRATION_REFUSED` (R26 step 3). -/
def execMigrationRefused (core : CoreId) (src : Endpoint) (s : State) : Out :=
  .next (match s.takeFrom core src MsgKind.isReserveRefused with
    | some (.reserveRefused tid, f) => (match f.focusTask core tid with
      | some f => if f.t.status = .parked (.reserved (Endpoint.core src)) then
          ((f.recordInput 3 0).replayInput 3 0).2.wake.count 5 else f
      | none => f)
    | _ => s)

def MsgKind.isContext : MsgKind → Bool
  | .context _ => true
  | _ => false

/-- Frees the slot of a departed task on its old core. -/
def State.freeSource (s : State) (core : CoreId) (tid : Tid) : State :=
  s.modCore core (fun c => { c with slots := c.slots.map (fun o => match o with
    | some t => if t.tid == tid then none else some t
    | none => none) })

/-- `TASK_CONTEXT_ARRIVAL` (R26 step 5). -/
def execTaskContextArrival (core : CoreId) (src : Endpoint) (s : State) : Out :=
  .next (match s.takeFrom core src MsgKind.isContext with
    | some (.context t, f) => (match f.whole.emptySlots.head? with
      | some n =>
        let f := f.freeSource (Endpoint.core src) t.tid
        let f := { f with c := { f.c with reserved := f.c.reserved.filter (fun r => r.1 != t.tid) } }
        let t := { t with status := .ready, eff := t.prio, age := 0 }
        (f.fillSlot n t).record 8 t 0#16 (BitVec.ofNat 64 src.toNat) 0
      | none => s)
    | _ => s)

end Sys2Proof.Machine
end

