-- ==== Sys2Proof/Machine/Queues.lean ====
section
/-! DEFINITION. Queues (R181 to R185), staged records and pins (R182, R184, R313), pipes (R186, R187), engine forks and
rendezvous (R188 to R191). -/

namespace Sys2Proof.Machine

/-! ### Naming (R181, R186) -/

/-- A queue as a kernel declares it: number in the image, entries, record size, and whether the kernel pops it. -/
structure QueueDecl where
  id : Nat
  entries : Nat
  size : Nat
  pop : Bool
  deriving DecidableEq, Repr

/-- The queue declarations of a kernel, in order. -/
def Kernel.queues (k : Kernel) : List QueueDecl :=
  k.decls.filterMap (fun x => match x with | .queue id entries size pop => some { id, entries, size, pop } | _ => none)

/-- The core that pops a queue of a graph: the region of the one kernel that declares it with role `pop` (R181). -/
def Graph.consumer (g : Graph) (queue : Nat) : CoreId :=
  ((g.kernels.find? (fun k => k.queues.any (fun q => q.id == queue && q.pop))).bind (fun k => k.region.head?)).getD 0

/-- The pipe declarations of a kernel, in order: number, and whether the kernel receives. -/
def Kernel.pipes (k : Kernel) : List (Nat × Bool) :=
  k.decls.filterMap (fun x => match x with | .pipe id _ _ recv => some (id, recv) | _ => none)

/-- Runs with the declaration that G[a] names among those of the task's kernel; naming it raises the control label. -/
def State.withDecl {α : Type} (s : State) (a : SReg) (decls : Kernel → List α) (k : α → State → State) : State :=
  let v := s.x a
  if 256 ≤ v.toNat then s.raise 0x02 1
  else match ((s.d.kernelOf s.t).elim [] decls)[v.toNat]? with
    | none => s.raise 0x06
    | some q => k q (s.raiseLabel (s.lab a))

/-- A ring of the task's launch: its place among the launch's rings, and the ring of a queue that a core produces. -/
def Device.ringOf (d : Device) (launch queue : Nat) (core : CoreId) : Option (Nat × Ring) :=
  match d.launchOf launch with
  | none => none
  | some l => ((rangeFrom 0 l.rings.length).filterMap (fun i => l.rings[i]?.map (fun r => (i, r)))).find?
      (fun p => p.2.queue == queue && p.2.producer == core)

def Device.modRing (d : Device) (launch i : Nat) (f : Ring → Ring) : Device :=
  d.modLaunch launch (fun l => { l with rings := (rangeFrom 0 l.rings.length).filterMap (fun j =>
    (l.rings[j]?).map (fun r => if j = i then f r else r)) })

/-! ### Pushing (R182, R183) -/

/-- An input descriptor of a staged record: the window's capability, its length, its scratchpad offset, reserved bits. -/
structure Window where
  src : Val
  len : Nat
  spoff : Nat
  rsv : Nat
  deriving DecidableEq, Repr

/-- The descriptors of a record of `n` more places at an address, up to the first of LENGTH 0. `tag` gives the tag of the
granule at an address. -/
def windowsAt (m : Memory) (tag : Nat → Bool) (a : Nat) : Nat → List Window
  | 0 => []
  | n + 1 =>
    let len := m.read (a + 16) 4
    if len = 0 then []
    else
      { src := { bits := BitVec.ofNat 128 (m.read a 16), tag := tag a, label := 0#16 }, len, spoff := m.read (a + 20) 4,
        rsv := m.read (a + 25) 7 } :: windowsAt m tag (a + 32) n

/-- The cause of the first failing descriptor check. -/
def Window.check (w : Window) : Option (Nat × Nat) :=
  if !w.src.tag then some (0x04, 0)
  else if !hasPerm w.src.bits pGLOBAL then some (0x06, 0)
  else match checkAccess w.src [0, 1] pLD (capCursor w.src.bits : Int) w.len 1 (some .glob) with
    | .error c => some (c, 0)
    | .ok _ => if 0x100000 < w.spoff + w.len then some (0x02, 2) else none

/-- Whether two of the windows overlap in the scratchpad. -/
def windowsOverlap : List Window → Bool
  | [] => false
  | w :: r => r.any (fun v => overlap w.spoff w.len v.spoff (v.spoff + v.len)) || windowsOverlap r

/-- The checks of a record by its kind (R183 steps 1 to 3). -/
def State.recordBad (s : State) (n : Nat) (r : SpawnRec) (tags : BitVec 3) (ws : List Window) : Option (Nat × Nat) :=
  let shape := bitsOf n 119 1 == 1 || r.rkind == 3 ||
    (r.rkind == 2 && (r.entry != 0 || r.prio != 0 || r.join != 0)) ||
    (r.rkind == 1 && ws.any (fun w => w.rsv != 0 || w.len % 64 != 0 || w.spoff % 64 != 0))
  if shape then some (0x02, 2)
  else if r.rkind ≠ 2 ∧ (!(s.d.entryOk s.t.launch r.entry r.rkind.toNat) || !(joinOk r.join (tags.getLsbD 2))) then
    some (0x06, 0)
  else if r.rkind ≠ 1 then none
  else match ws.findSome? Window.check with
    | some c => some c
    | none => if windowsOverlap ws then some (0x02, 2) else none

/-- Sets STAG of the descriptors in a record's bytes. -/
def stampTags (m : Memory) (a : Nat) : List Window → Memory
  | [] => m
  | w :: r => stampTags (m.write (a + 24) 1 (if w.src.tag then 1 else 0)) (a + 32) r

/-- The label of a ring's page that does not take a label, of the pages that n bytes at a PA touch (log entry 16). -/
def ringRefuses (label : Label) (pa n : Nat) : Option Label :=
  if label = 0#16 then none else ((units 4096 pa n).map Config.ringLabel).find? (fun l => !(label.sub l))

/-- The PA of the place that a ring's next record goes to. -/
def Ring.nextPa (q : Ring) : Nat := q.pa + q.pushed % q.entries * q.size

/-- Writes a record to its place in a ring. -/
def State.ringWrite (s : State) (i : Nat) (q : Ring) (r : SpawnRec) (src : Nat) (ws : List Window) : State :=
  let m := Memory.writeBytes [] 0 (s.c.spad.mem.bytes src q.size)
  let m := stampTags (m.write 0 64 { r with tid := 0 }.bits) 64 ws
  let d := s.d.putArea q.nextPa (m.bytes 0 q.size)
  { s with d := d.modRing s.t.launch i (fun r => { r with pushed := r.pushed + 1 }) }

/-- `queue.push` (R183). -/
def execQueuePush (sw : Bool) (a b : SReg) (s : State) : Out :=
  .next (s.issueNone Accept.none [a, b] (fun s => s.withDecl a Kernel.queues (fun q s =>
    match s.d.ringOf s.t.launch q.id s.c.id with
    | none => s.raise 0x06
    | some (i, ring) =>
      let cap := s.rd b
      let addr := capCursor cap.bits
      if q.pop then s.raise 0x06
      else match checkAccess cap [0, 3] pLD (addr : Int) q.size 64 (some .spad) with
        | .error c => s.raise c 0 (causeValue c addr)
        | .ok _ =>
          if s.forbidden .spad addr q.size then s.raise 0x06 0 (causeValue 0x06 addr)
          else s.afterAcquire (fun s =>
            if s.c.spad.poisoned addr q.size then s.raise 0x18 3 (causeValue 0x18 addr)
            else
            let n := s.c.spad.mem.read addr 64
            let r := spawnOf n s.t.launch
            let tags := s.c.spad.recordTags addr
            let ws := windowsAt s.c.spad.mem s.c.spad.tagAt (addr + 64) (if r.rkind = 1 then (q.size - 64) / 32 else 0)
            match s.recordBad n r tags ws with
            | some (c, detail) => s.raise c detail (causeValue c addr)
            | none =>
              let cl := s.t.clabel ||| s.lab b ||| s.c.spad.labelOf addr q.size
              if ring.entries ≤ ring.pushed - ring.back then s.raise 0x0E
              else match ringRefuses cl ring.nextPa q.size with
              | some page => s.raise 0x0B (labelDetail page cl)
              | none =>
                let prio := minPrio r.prio (s.d.ceilOf s.t.launch r.entry)
                ((s.raiseLabel cap.label).ringWrite i ring
                  { r with tags, clabel := cl, prio := if r.rkind = 2 then r.prio else prio } addr ws).finish sw))))

/-- An operation whose only return is an acknowledgement. -/
def State.ackOp (s : State) (id : Nat) : PendOp :=
  { id, pc := s.t.unitPc, word := s.t.word, next := s.t.pc + 4, dest := none, result := false, kind := .ack, stage := .sent,
    clabel := s.t.clabel, peer := false, host := false, seq := 0, cycle := s.d.cycle }

/-- `queue.tail` (R184). -/
def execQueueTail (sw : Bool) (a : SReg) (s : State) : Out :=
  .next (s.issueNone Accept.none [a] (fun s => s.withDecl a Kernel.queues (fun q s =>
    if q.pop then s.raise 0x06
    else match s.d.ringOf s.t.launch q.id s.c.id with
      | none => s.raise 0x06
      | some (i, ring) => s.release .pod (fun s =>
        let (id, s) := s.newOp
        ((s.addOp (s.ackOp id)).send ring.consumer (.tail s.t.tid id s.t.launch i ring.pushed)).finish sw))))

def MsgKind.isTail : MsgKind → Bool
  | .tail _ _ _ _ _ => true
  | _ => false

/-- `QUEUE_TAIL_WRITE` (R184). -/
def execQueueTailWrite (core : CoreId) (src : Endpoint) (s : State) : Out :=
  .next (match s.takeFrom core src MsgKind.isTail with
    | some (.tail _ op launch i index, f) =>
      let f := f.hearthDone (f.d.jobOfLaunch launch) src
      if f.c.fenced then f.setStage (Endpoint.core src) op (.failed 0x12 0)
      else
        let f := { f with d := f.d.modRing launch i (fun r => if r.recv < index then { r with recv := index } else r) }
        f.setStage (Endpoint.core src) op (.executed (plainResult 0 0))
    | _ => s)

/-! ### Pulling, staging and popping (R184, R185, R313) -/

/-- The consumption of a record of a ring is written back to its producer. -/
def Device.consume (d : Device) (launch i : Nat) : Device := d.modRing launch i (fun r => { r with back := r.back + 1 })

/-- The first live launch of a job with a record to pull from a producer's ring of a queue to a core. -/
def Device.pullDue (d : Device) (job : BitVec 16) (queue : Nat) (producer consumer : CoreId) : Option (Nat × Nat × Ring) :=
  d.launches.findSome? (fun l =>
    if d.jobOfLaunch l.key == job && l.state == .live then
      (match d.ringOf l.key queue producer with
       | some (i, r) => if r.consumer == consumer && decide (r.pulled < r.recv) then some (l.key, i, r) else none
       | none => none)
    else none)

/-- `QUEUE_PULL` (R184): the next record of the ring is pulled; a task record gets its TID. A light record waits behind a staged one of
its ring, since a ring's records start in its order. -/
def execQueuePull (core : CoreId) (job : BitVec 16) (queue : BitVec 8) (producer : CoreId) (s : State) : Out :=
  .next (match s.d.pullDue job queue.toNat producer core with
    | none => s
    | some (launch, i, ring) =>
      let f := s.focus core
      let pa := ring.pa + ring.pulled % ring.entries * ring.size
      let f := { f with d := f.d.modRing launch i (fun r => { r with pulled := r.pulled + 1 }) }
      let m := f.d.gmem.mem
      let r := spawnOf (m.read pa 64) launch
      if r.rkind = 2 then
        let rec_ : DataRec := { queue := queue.toNat, ring := i, bytes := m.bytes pa ring.size, clabel := r.clabel }
        { f with d := f.d.modLaunch launch (fun l => { l with data := l.data ++ [rec_] }) }
      else
        let (r, f) := f.nameRecord r 4 0
        let f := { f with c := { f.c with cache := [] } }
        if r.rkind = 0 && !(f.c.staging.any (fun x => x.spawn.launch == launch && x.ring == i)) then
          { f with c := { f.c with startQ := f.c.startQ ++ [{ (f.d.childOf r 0) with fromRing := some i }] } }
        else
          let n := if r.rkind = 0 then 0 else (ring.size - 64) / 32
          let ws := (windowsAt m (fun a => m.read (a + 24) 1 == 1) (pa + 64) n).map
            (fun w => ({ w.src with label := r.clabel }, w.len, w.spoff))
          { f with c := { f.c with staging := f.c.staging ++ [{ spawn := r, windows := ws, ring := i }] } })

/-- The extent entries of the core in focus that staged tasks hold. -/
def State.pinsUsed (s : State) : Nat :=
  ((s.whole.tasks.map (fun p => p.2.pins.length)) ++ s.c.startQ.map (fun t => t.pins.length)).foldl (· + ·) 0 +
  ((s.d.saved.filter (fun v => v.core == s.c.id)).map (fun v => v.task.pins.length)).foldl (· + ·) 0

/-- The pages of a window: VA of the page, first and last byte of the window in it. -/
def windowPages (a n : Nat) : List (Nat × Nat × Nat) :=
  (units 4096 a n).map (fun p => (p * 4096, max a (p * 4096), min (a + n) (p * 4096 + 4096) - 1))

/-- Why a staged record is not pinned: reported and consumed, or waiting for a page to be flipped. -/
inductive PinFail where
  | report (cause detail : Nat) (va : Nat)
  | wait (f : XFail)
  deriving DecidableEq, Repr

/-- Pins the pages of one window, and copies their bytes when every label allows it. -/
def State.pinPages (s : State) (job : BitVec 16) (level : Nat) (base spoff : Nat) :
    List (Nat × Nat × Nat) → Except PinFail (List Pin × State)
  | [] => .ok ([], s)
  | (va, lo, hi) :: rest =>
    match s.translateAs (s.roots job level) .load false lo with
    | (.error (.flip ia frame), _) => .error (.wait (.flip ia frame))
    | (.error (.cause c detail), _) => .error (.report c detail base)
    | (.error (.second c detail _), _) => .error (.report c detail base)
    | (.ok e, s) =>
      let at_ := spoff + (lo - base)
      let n := hi + 1 - lo
      if !(s.c.spad.accepts at_ n e.label) then .error (.report 0x0B (labelDetail (s.c.spad.labelOf at_ n) e.label) base)
      else
        let bad := s.d.gpoisoned e.comp (e.at lo) n
        let s := s.spadPut at_ n (s.d.gread e.comp (e.at lo) n)
        let s := if bad then { s with c := { s.c with spad := (units 64 at_ n).foldl (fun b l => b.poisonLine (64 * l)) s.c.spad } }
          else s
        match s.pinPages job level base spoff rest with
        | .error f => .error f
        | .ok (l, s) => .ok ({ va, pa := e.at va, lo, hi, label := e.label, comp := e.comp } :: l, s)

/-- Pins and copies every window of a staged record. -/
def State.pinWindows (s : State) (job : BitVec 16) (level : Nat) : List (Val × Nat × Nat) → Except PinFail (List Pin × State)
  | [] => .ok ([], s)
  | (src, len, spoff) :: rest =>
    let a := capCursor src.bits
    match s.pinPages job level a spoff (windowPages a len) with
    | .error f => .error f
    | .ok (l, s) =>
      match s.pinWindows job level rest with
      | .error f => .error f
      | .ok (k, s) => .ok (l ++ k, s)

/-- The pages that a staged record's windows need. -/
def Staged.pages (r : Staged) : Nat :=
  (r.windows.map (fun w => (windowPages (capCursor w.1.bits) w.2.1).length)).foldl (· + ·) 0

/-- `STAGED_INPUT_PIN` (R182, R184, R313): the oldest staged record's windows are pinned and copied, and its task waits for
a slot; a record that fails is reported and consumed. -/
def execStagedInputPin (core : CoreId) (s : State) : Out :=
  .next (let f := s.focus core
    match f.c.staging with
    | [] => s
    | r :: rest =>
      let launch := r.spawn.launch
      let job := f.d.jobOfLaunch launch
      let level := (f.d.launchGraph launch).elim 0 (·.level.toNat)
      let gone := { f with c := { f.c with staging := rest } }
      let fails (c detail va : Nat) : State :=
        ({ gone with d := gone.d.consume launch r.ring }).report core c detail (BitVec.ofNat 64 va) job launch r.spawn.clabel
      if 4096 < r.pages then fails 0x0E 0 0
      else if 4096 < f.pinsUsed + r.pages then s
      else match (gone.giveSpad job).pinWindows job level r.windows with
        | .ok (pins, f) =>
          { f with c := { f.c with startQ := f.c.startQ ++ [{ (f.d.childOf r.spawn r.spawn.rkind.toNat) with pins, fromRing := some r.ring }] } }
        | .error (.report c detail va) => fails c detail va
        | .error (.wait (.flip ia frame)) => f.startFlip f.part ((f.c.jobRegs job).vmid.setWidth 16) ia frame
        | .error (.wait _) => s)

/-- Takes the first data record of a queue. -/
def takeData (queue : Nat) : List DataRec → Option (DataRec × List DataRec)
  | [] => none
  | r :: l => if r.queue = queue then some (r, l) else (takeData queue l).map (fun p => (p.1, r :: p.2))

/-- The checks of a scratchpad destination of the hearth's bytes: capability, place, label. -/
def State.withTarget (s : State) (cap : Val) (n align : Nat) (vl : Label) (k : Nat → State → State) : State :=
  let addr := capCursor cap.bits
  match checkAccess cap memSpaces pST (addr : Int) n align (some .spad) with
  | .error c => s.raise c 0 (causeValue c addr)
  | .ok _ =>
    if s.forbidden .spad addr n then s.raise 0x06 0 (causeValue 0x06 addr)
    else if !(s.c.spad.accepts addr n vl) then
      s.raise 0x0B (labelDetail (s.c.spad.labelOf addr n) vl) (causeValue 0x0B addr)
    else s.watched false true addr n (fun s => s.afterAcquire (fun s => k addr (s.raiseLabel cap.label)))

/-- `queue.pop` (R185). -/
def execQueuePop (sw : Bool) (d a b : SReg) (s : State) : Out :=
  .next (s.issue Accept.none [a, b] d (fun s => s.withDecl a Kernel.queues (fun q s =>
    match s.d.launchOf s.t.launch with
    | none => s.raise 0x06
    | some l =>
      if !((s.d.launchGraph s.t.launch).any (fun g => g.consumer q.id == s.c.id)) then s.raise 0x06
      else match takeData q.id l.data with
        | none => (s.acquire .pod).put false d (wordVal 0 s.t.clabel) (fun s => s.finish sw)
        | some (r, rest) =>
          s.withTarget (s.rd b) q.size 64 (r.clabel ||| s.lab b ||| s.t.clabel) (fun addr s =>
            let s := s.spadPut addr q.size (ofBytes r.bytes)
            let dv := (s.d.modLaunch s.t.launch (fun l => { l with data := rest })).consume s.t.launch r.ring
            (({ s with d := dv }).acquire .pod).put false d
              (wordVal (BitVec.ofNat 64 q.size) (r.clabel ||| s.t.clabel)) (fun s => s.finish sw)))))

/-! ### Pipes (R186, R187) -/

def Device.pipeOf (d : Device) (launch id : Nat) : Option Pipe :=
  (d.launchOf launch).bind (fun l => l.pipes.find? (fun p => p.id == id))
def Device.modPipe (d : Device) (launch id : Nat) (f : Pipe → Pipe) : Device :=
  d.modLaunch launch (fun l => { l with pipes := l.pipes.map (fun p => if p.id = id then f p else p) })

/-- Runs with the pipe that G[a] names, in the role that the form needs. -/
def State.withPipe (s : State) (a : SReg) (recv : Bool) (k : Pipe → State → State) : State :=
  s.withDecl a Kernel.pipes (fun q s =>
    if q.2 != recv then s.raise 0x06
    else match s.d.pipeOf s.t.launch q.1 with
      | some p => k p s
      | none => s.raise 0x06)

/-- Writes bytes into the scratchpad of a core. -/
def State.putSpadOf (s : State) (core : CoreId) (a n v : Nat) : State :=
  s.modCore core (fun c =>
    let pages := (units 4096 a n).foldl (fun m p => m + 2 ^ (p % 256)) 0
    { c with spad := c.spad.put a n v, dirty := c.dirty ||| BitVec.ofNat 256 pages })

/-- Takes a credit and sends the bytes to the next slot of a pipe. -/
def State.pipeSend (s : State) (p : Pipe) (addr : Nat) (label : Label) : State :=
  let n := p.next % p.depth
  let s := s.putSpadOf p.receiver (p.base + n * p.size) p.size (s.c.spad.mem.read addr p.size)
  let dv := s.d.modPipe s.t.launch p.id (fun p => { p with credits := p.credits - 1, next := n + 1 })
  ({ s with d := dv }).send p.receiver (.pipeMsg s.t.launch p.id n label)

/-- `pipe.send` (R186, R187). -/
def execPipeSend (sw : Bool) (d a b : SReg) (s : State) : Out :=
  .next (s.issue Accept.none [a, b] d (fun s => s.withPipe a false (fun p s =>
    let cap := s.rd b
    let addr := capCursor cap.bits
    match checkAccess cap memSpaces pLD (addr : Int) p.size 16 (some .spad) with
    | .error c => s.raise c 0 (causeValue c addr)
    | .ok _ =>
      if s.forbidden .spad addr p.size ∨ p.closed then s.raise 0x06 0 (causeValue 0x06 addr)
      else if s.c.spad.poisoned addr p.size then s.raise 0x18 3 (causeValue 0x18 addr)
      else
        let done (v : Word) (s : State) : State :=
          let s := (s.raiseLabel cap.label).otherAgent
          s.put false d (wordVal v s.t.clabel) (fun s => s.finish sw)
        if p.recvEnded then done 0 s
        else if p.credits = 0 then s.park (.credit p.id)
        else s.release .part (fun s =>
          done 1 (s.pipeSend p addr (s.c.spad.labelOf addr p.size ||| cap.label ||| s.t.clabel))))))

/-- Whether a message of a pipe is on its way. -/
def Device.pipeComing (d : Device) (launch id : Nat) : Bool :=
  d.net.any (fun m => match m.kind with
    | .pipeMsg l p _ _ => l == launch && p == id
    | _ => false)

/-- `pipe.recv` (R186, R187). -/
def execPipeRecv (sw : Bool) (d a b : SReg) (s : State) : Out :=
  .next (s.issue Accept.none [a, b] d (fun s => s.withPipe a true (fun p s =>
    match p.held with
    | [] =>
      if p.closeArrived && !(s.d.pipeComing s.t.launch p.id) then
        s.otherAgent.put false d (wordVal 0 s.t.clabel) (fun s => s.finish sw)
      else s.park (.message p.id)
    | (n, label) :: rest =>
      s.withTarget (s.rd b) p.size 16 (label ||| s.lab b ||| s.t.clabel) (fun addr s =>
        let s := s.spadPut addr p.size (s.c.spad.mem.read (p.base + n * p.size) p.size)
        let s := { s with d := s.d.modPipe s.t.launch p.id (fun p => { p with held := rest }) }
        let s := ((s.send p.sender (.pipeCredit s.t.launch p.id)).acquire .part).otherAgent
        s.put false d (wordVal (BitVec.ofNat 64 p.size) (label ||| s.t.clabel)) (fun s => s.finish sw)))))

/-- `pipe.close` (R186). -/
def execPipeClose (sw : Bool) (a : SReg) (s : State) : Out :=
  .next (s.issueNone Accept.none [a] (fun s => s.withPipe a false (fun p s =>
    let s := s.otherAgent
    if p.closed then s.finish sw
    else
      let s := { s with d := s.d.modPipe s.t.launch p.id (fun p => { p with closed := true }) }
      (s.send p.receiver (.pipeClose s.t.launch p.id)).finish sw)))

def MsgKind.isPipe : MsgKind → Bool
  | .pipeMsg _ _ _ _ | .pipeClose _ _ => true
  | _ => false

/-- Makes the tasks of a launch that wait in a pipe form ready. -/
def State.wakePipe (s : State) (launch : Nat) (w : Wait) : State :=
  s.mapTasks (fun t => if t.launch = launch ∧ t.status = .parked w then { t with status := .ready } else t)

/-- `PIPE_MESSAGE_ARRIVAL` (R186). -/
def execPipeMessageArrival (core : CoreId) (src : Endpoint) (s : State) : Out :=
  .next (match s.takeFrom core src MsgKind.isPipe with
    | some (.pipeMsg launch id n label, f) =>
      ({ f with d := f.d.modPipe launch id (fun p => { p with held := p.held ++ [(n, label)] }) }).wakePipe launch (.message id)
    | some (.pipeClose launch id, f) =>
      ({ f with d := f.d.modPipe launch id (fun p => { p with closeArrived := true }) }).wakePipe launch (.message id)
    | _ => s)

def MsgKind.isPipeCredit : MsgKind → Bool
  | .pipeCredit _ _ => true
  | _ => false

/-- `PIPE_CREDIT_RETURN` (R186). -/
def execPipeCreditReturn (core : CoreId) (src : Endpoint) (s : State) : Out :=
  .next (match s.takeFrom core src MsgKind.isPipeCredit with
    | some (.pipeCredit launch id, f) =>
      ({ f with d := f.d.modPipe launch id (fun p => { p with credits := p.credits + 1 }) }).wakePipe launch (.credit id)
    | _ => s)

/-! ### Engine fork and rendezvous (R188 to R191) -/

/-- The program of an engine that an anchor holds. -/
def Anchor.prog (x : Anchor) : Engine → Option Prog
  | .matrix => x.mprog
  | .copy => x.cprog
  | .sort => x.sprog
def Anchor.setProg (x : Anchor) (e : Engine) (p : Option Prog) : Anchor :=
  match e with
  | .matrix => { x with mprog := p }
  | .copy => { x with cprog := p }
  | .sort => { x with sprog := p }

def Engine.index : Engine → Nat
  | .matrix => 0 | .copy => 1 | .sort => 2

/-- The engines of a mask, in the order of their descriptor entries. -/
def enginesOf (mask : BitVec 3) : List Engine := [Engine.matrix, .copy, .sort].filter (fun e => mask.getLsbD (Engine.index e))

/-- A program entry: START and COUNT; none when a reserved value stands in it. -/
def progEntry (n : Nat) : Option (Nat × Nat) :=
  let start := bitsOf n 0 20
  let count := bitsOf n 20 13
  if bitsOf n 33 31 != 0 || count == 0 || 4096 < count || start % 4 != 0 then none else some (start, count)

/-- The 32-bit words at an address. -/
def wordsAt (m : Memory) (a : Nat) : Nat → List IWord
  | 0 => []
  | n + 1 => BitVec.ofNat 32 (m.read a 4) :: wordsAt m (a + 4) n

/-- The forked program of an engine. -/
def State.newProg (s : State) (start count : Nat) (optag : Word) : Prog :=
  { words := wordsAt s.c.spad.mem start count, next := 0, regs := s.t.g, optag, forkPc := s.t.unitPc,
    running := false, suspended := false, ended := false, holds := true }

/-- `eng.fork` (R188, R189). -/
def execEngFork (sw : Bool) (a b : SReg) (mask : BitVec 3) (s : State) : Out :=
  .next (s.issueNone Accept.none [a, b] (fun s => s.withAnchor (fun x =>
    let engs := enginesOf mask
    let cap := s.rd a
    let addr := capCursor cap.bits
    if engs.any (fun e => (x.prog e).isSome) then s.raise 0x01
    else match checkAccess cap [0, 3] pLD (addr : Int) 32 32 (some .spad) with
      | .error c => s.raise c 0 (causeValue c addr)
      | .ok _ =>
        if s.forbidden .spad addr 32 then s.raise 0x06 0 (causeValue 0x06 addr)
        else if s.c.spad.poisoned addr 32 then s.raise 0x18 3 (causeValue 0x18 addr)
        else
          let entries := engs.map (fun e => (e, progEntry (s.c.spad.mem.read (addr + 8 * Engine.index e) 8)))
          if entries.any (fun p => p.2.isNone) || s.c.spad.mem.read (addr + 24) 8 != 0 then s.raise 0x02 2
          else
            let progs := entries.filterMap (fun p => p.2.map (fun q => (p.1, q.1, q.2)))
            match progs.find? (fun p => !(inBounds cap (p.2.1 : Int) (4 * p.2.2)) || decide (0x100000 < p.2.1 + 4 * p.2.2)) with
            | some p => s.raise 0x05 0 (BitVec.ofNat 64 p.2.1)
            | none => s.release .eng (fun s => s.reserve progs.length (fun s =>
                let s := s.raiseLabel (s.t.g.toList.foldl (fun l v => l ||| v.label) (cap.label ||| s.lab b))
                let optag := s.x b
                (s.modAnchor (fun x => progs.foldl (fun x p => x.setProg p.1 (some (s.newProg p.2.1 p.2.2 optag))) x)).finish sw)))))

/-- `eng.rdv` (R191). -/
def execEngRdv (sw : Bool) (mask : BitVec 3) (s : State) : Out :=
  .next (s.issueNone Accept.none [] (fun s =>
    let engs := enginesOf mask
    let progs := match s.t.anchor with
      | some x => engs.filterMap x.prog
      | none => []
    if progs.any (fun p => !p.ended) then s.park (.engines mask)
    else
      let held := (progs.filter (·.holds)).length
      let s := { s with t := { s.t with resv := s.t.resv - held } }
      (((s.modAnchor (fun x => engs.foldl (fun x e => x.setProg e none) x)).acquire .eng).otherAgent).finish sw))

end Sys2Proof.Machine
end

