-- ==== Sys2Proof/Machine/Ember.lean ====
section
/-! DEFINITION. The ember store (R192 to R217): naming and checks, magnitudes and drain order, folds, the seven forms of
major 0x1B, and what a slice does with a post, a take, a dispatch, a lease, a threshold, a flush and its ash log. -/

namespace Sys2Proof.Machine

/-! ### Operators and magnitudes (R194, R198, R200) -/

/-- What the value of an operator is. -/
inductive ValKind where
  | f32 | f64 | i64 | b64 | pair
  deriving DecidableEq, Repr

/-- What a fold does. -/
inductive FoldKind where
  | add | min | max | or
  deriving DecidableEq, Repr

/-- An operator by its code. -/
def opKind (op : BitVec 4) : FoldKind × ValKind :=
  match op.toNat with
  | 0 => (.add, .f32) | 1 => (.add, .f64) | 2 => (.add, .i64) | 3 => (.min, .f32) | 4 => (.min, .f64) | 5 => (.min, .i64)
  | 6 => (.max, .f32) | 7 => (.max, .f64) | 8 => (.max, .i64) | 9 => (.or, .b64) | _ => (.add, .pair)

/-- A floating value as a new ember keeps it: a signalling NaN is the canonical quiet NaN. -/
def quieted (F : FFmt) (n : Nat) : Nat := if F.decode n = .nan true then F.qnan else n % 2 ^ F.width

/-- The value x of a post as an ember that it creates keeps it. -/
def firstValue (op : BitVec 4) (x : Nat) : Nat :=
  match (opKind op).2 with
  | .f32 => quieted .fp32 (x % 2 ^ 32)
  | .f64 => quieted .fp64 (x % 2 ^ 64)
  | .pair => quieted .fp32 (x % 2 ^ 32) + quieted .fp32 (x / 2 ^ 32 % 2 ^ 32) * 2 ^ 32
  | _ => x % 2 ^ 64

/-- The value that a post x folds v into. -/
def foldValue (op : BitVec 4) (v x : Nat) : Nat :=
  let addF (F : FFmt) (a b : Nat) : Nat := (fadd F 0 a b).1
  match opKind op with
  | (.add, .f32) => addF .fp32 v (x % 2 ^ 32)
  | (.add, .f64) => addF .fp64 v (x % 2 ^ 64)
  | (.add, .pair) =>
    addF .fp32 (v % 2 ^ 32) (x % 2 ^ 32) + addF .fp32 (v / 2 ^ 32 % 2 ^ 32) (x / 2 ^ 32 % 2 ^ 32) * 2 ^ 32
  | (.add, _) => (v + x) % 2 ^ 64
  | (.min, .f32) => (fminmax .fp32 false v (x % 2 ^ 32)).1
  | (.min, .f64) => (fminmax .fp64 false v (x % 2 ^ 64)).1
  | (.min, _) => if signed 64 v ≤ signed 64 x then v else x % 2 ^ 64
  | (.max, .f32) => (fminmax .fp32 true v (x % 2 ^ 32)).1
  | (.max, .f64) => (fminmax .fp64 true v (x % 2 ^ 64)).1
  | (.max, _) => if signed 64 x ≤ signed 64 v then v else x % 2 ^ 64
  | (.or, _) => v ||| x % 2 ^ 64

/-- The bits of a floating magnitude: the sign cleared, a NaN as it stands. -/
def absBits (F : FFmt) (n : Nat) : Nat := n % 2 ^ (F.width - 1)

/-- A floating value's place in the total order of R198, rising. -/
def totalOrder (F : FFmt) (n : Nat) : Nat :=
  let n := n % 2 ^ F.width
  if n / 2 ^ (F.width - 1) = 1 then 2 ^ F.width - 1 - n else n + 2 ^ (F.width - 1)

/-- The exact |x| of a post under contrib (R200). -/
def contribOf (op : BitVec 4) (x : Nat) : Num :=
  let pos (v : Num) : Num := match v with
    | .nan s => .nan s
    | .inf _ => .inf false
    | .fin _ m e => .fin false m e
  match (opKind op).2 with
  | .f32 => pos (FFmt.fp32.decode (x % 2 ^ 32))
  | .f64 => pos (FFmt.fp64.decode (x % 2 ^ 64))
  | .pair => (addNum 0 (pos (FFmt.fp32.decode (x % 2 ^ 32))) (pos (FFmt.fp32.decode (x / 2 ^ 32 % 2 ^ 32)))).1
  | .i64 => .fin false (signed 64 x).natAbs 0
  | .b64 => .fin false (x % 2 ^ 64) 0

/-- The contrib sum with a post added. -/
def contribAdd (sum : Nat) (x : Num) : Nat := (FFmt.fp64.deliver 0 (addNum 0 (FFmt.fp64.decode sum) x).1).1

/-- The magnitude of an ember of value v under abs, val and negval (R198). -/
def magnitude (d : StoreDecl) (v : Nat) : Nat :=
  match (opKind d.op).2, d.rule == 0 with
  | .f32, true => absBits .fp32 v
  | .f64, true => absBits .fp64 v
  | .pair, true =>
    let a := absBits .fp32 (v % 2 ^ 32)
    let b := absBits .fp32 (v / 2 ^ 32 % 2 ^ 32)
    if totalOrder .fp32 a < totalOrder .fp32 b then b else a
  | .i64, true => (signed 64 v).natAbs
  | .pair, false => v % 2 ^ 32
  | _, _ => v

/-- The place of a magnitude in the rule's rising order. -/
def magOrder (d : StoreDecl) (mag : Nat) : Nat :=
  if d.rule = 3 then mag
  else if d.rule = 4 then totalOrder .fp64 mag
  else match (opKind d.op).2 with
    | .f32 | .pair => totalOrder .fp32 (mag % 2 ^ 32)
    | .f64 => totalOrder .fp64 mag
    | .i64 | .b64 => if d.rule = 0 then mag else (mag + 2 ^ 63) % 2 ^ 64

/-- Whether magnitude a ranks before magnitude b. -/
def magBefore (d : StoreDecl) (a b : Nat) : Bool :=
  if d.rule = 2 ∨ d.rule = 3 then decide (magOrder d a < magOrder d b) else decide (magOrder d b < magOrder d a)

/-- Drain order between two embers (R199). -/
def emberBefore (d : StoreDecl) (a b : Ember) : Bool :=
  magBefore d a.mag.toNat b.mag.toNat ||
  (!(magBefore d b.mag.toNat a.mag.toNat) && decide (a.key.toNat < b.key.toNat))

/-- The first ember in drain order. -/
def firstEmber (d : StoreDecl) : List Ember → Option Ember
  | [] => none
  | e :: r => match firstEmber d r with
    | none => some e
    | some k => if emberBefore d e k then some e else some k

/-- The last ember in drain order. -/
def lastEmber (d : StoreDecl) : List Ember → Option Ember
  | [] => none
  | e :: r => match lastEmber d r with
    | none => some e
    | some k => if emberBefore d e k then some k else some e

/-! ### A slice (R199 to R202, R214, R215) -/

/-- Whether an ember is eligible. -/
def Slice.eligible (sl : Slice) (e : Ember) : Bool :=
  sl.flushing || !(magBefore sl.decl sl.thresh.toNat e.mag.toNat)

/-- The first eligible ember whose key is not leased. -/
def Slice.next (sl : Slice) : Option Ember :=
  firstEmber sl.decl (sl.embers.filter (fun e => sl.eligible e && !(sl.leased e.key)))

def Slice.remove (sl : Slice) (e : Ember) : Slice := { sl with embers := sl.embers.filter (fun k => k.key != e.key) }

/-- The ember that a post creates, with its creation number. -/
def Slice.newEmber (sl : Slice) (key : Word) (x : Nat) (label : Label) : Ember :=
  let v := firstValue sl.decl.op x
  let mag := match sl.decl.rule.toNat with
    | 3 => sl.created
    | 4 => contribAdd 0 (contribOf sl.decl.op x)
    | _ => magnitude sl.decl v
  { key, value := BitVec.ofNat 64 v, mag := BitVec.ofNat 64 mag, label }

/-- An ember with a post folded in. -/
def Slice.fold (sl : Slice) (e : Ember) (x : Nat) (label : Label) : Ember :=
  let v := foldValue sl.decl.op e.value.toNat x
  let mag := match sl.decl.rule.toNat with
    | 3 => e.mag.toNat
    | 4 => contribAdd e.mag.toNat (contribOf sl.decl.op x)
    | _ => magnitude sl.decl v
  { e with value := BitVec.ofNat 64 v, mag := BitVec.ofNat 64 mag, label := e.label ||| label }

/-- Creates the ember of a post. -/
def Slice.create (sl : Slice) (key : Word) (x : Nat) (label : Label) : Slice :=
  { sl with embers := sl.embers ++ [sl.newEmber key x label], created := sl.created + 1 }

/-- Accepts a post: the slice after it, the outcome of R204, and the deferred record written, if any (R214). -/
def Slice.accept (sl : Slice) (key : Word) (x : Nat) (label : Label) : Slice × Nat × Option (Word × Word) :=
  match sl.embers.find? (fun e => e.key == key) with
  | some e => ({ sl with embers := sl.embers.map (fun k => if k.key == key then sl.fold e x label else k) }, 2, none)
  | none =>
    if sl.embers.length < sl.decl.cap then (sl.create key x label, 1, none)
    else if sl.decl.refuse || decide (sl.decl.alsize ≤ sl.ash.length) then (sl, 0, none)
    else
      let e := sl.newEmber key x label
      match lastEmber sl.decl sl.embers with
      | some k =>
        if sl.decl.rule = 3 ∨ emberBefore sl.decl k e then
          let r := (key, BitVec.ofNat 64 x)
          ({ sl with ash := sl.ash ++ [r] }, 3, some r)
        else
          let r := (k.key, k.value)
          ({ (sl.remove k).create key x label with ash := sl.ash ++ [r] }, 4, some r)
      | none => (sl, 0, none)

/-- A slice stops flushing when it holds no ember and no deferred record (R207). -/
def Slice.settled (sl : Slice) : Slice :=
  if sl.embers.isEmpty && sl.ash.isEmpty then { sl with flushing := false } else sl

/-! ### Stores and slices of the device (R192, R203) -/

/-- The store of a number of the job of the task at the port: one of its launch's graph, or one whose slices the job has. -/
def State.storeOf (s : State) (num : Nat) : Option StoreDecl :=
  (s.d.launchGraph s.t.launch).bind (fun g => g.stores.find? (fun x => x.num.toNat == num)) <|>
  (s.d.slices.find? (fun sl => sl.decl.num.toNat == num && sl.job == s.t.job && s.d.partOf (CoreId.die sl.core) == s.part)).map (·.decl)

def StoreDecl.width (x : StoreDecl) : Nat := x.x1.toNat + 1 - x.x0.toNat
def StoreDecl.height (x : StoreDecl) : Nat := x.y1.toNat + 1 - x.y0.toNat
/-- Slice i of a store. -/
def StoreDecl.slice (x : StoreDecl) (i : Nat) : CoreId := coreAt x.die.toNat (x.x0.toNat + i % x.width) (x.y0.toNat + i / x.width)
/-- How many slices a store has. -/
def StoreDecl.count (x : StoreDecl) : Nat := if x.hash then x.width * x.height else 1
/-- The slice of a key (R203). -/
def StoreDecl.sliceOf (x : StoreDecl) (key : Word) : CoreId :=
  if !x.hash then coreAt x.die.toNat x.x0.toNat x.y0.toNat
  else
    let h := key.toNat * 0x9E3779B97F4A7C15 % 2 ^ 64
    x.slice ((h / 2 ^ 32 ^^^ h % 2 ^ 32) % (x.width * x.height))

/-- The slice of a store of a job on a core. -/
def Device.sliceAt (d : Device) (core : CoreId) (job : BitVec 16) (store : BitVec 8) : Option Slice :=
  d.slices.find? (fun sl => sl.core == core && sl.job == job && sl.decl.num == store)

def Device.modSlice (d : Device) (core : CoreId) (job : BitVec 16) (store : BitVec 8) (f : Slice → Slice) : Device :=
  d.setSlices (fun sl => if sl.core == core && sl.job == job && sl.decl.num == store then f sl else sl)

/-- CheckStore (R192, R44). -/
def State.withStore (s : State) (cap : Val) (perm : Nat) (k : StoreDecl → State) : State :=
  let n := capCursor cap.bits
  match checkCap cap [4] perm with
  | some c => s.raise c 0 (causeValue c n)
  | none =>
    if !(inBounds cap (n : Int) 1) then s.raise 0x05 0 (causeValue 0x05 n)
    else match s.storeOf n with
      | some x => k x
      | none => s.raise 0x06 0 (causeValue 0x06 n)

/-! ### Posts (R204) -/

/-- The checks of a post. -/
def State.withPost (s : State) (d a b : SReg) (k : StoreDecl → Label → State → State) : State :=
  s.withStore (s.rd d) pEVPOST (fun x =>
    let key := s.x a
    let pl := s.labs [d, a, b]
    if !(pl.sub x.lmax) then s.raise 0x0B (labelDetail x.lmax pl) key
    else if x.indexed && decide (x.pkeys ≤ key.toNat) then s.raise 0x05 0 key
    else k x pl (s.raiseLabel (s.lab a ||| s.lab d)))

/-- Sends a post as an operation of the task at the port. -/
def State.sendPost (s : State) (x : StoreDecl) (o : PendOp) (key val : Word) (pl : Label) (want : Bool) : State :=
  (s.addOp o).send (x.sliceOf key) (.post s.t.tid o.id s.t.job x.num key val pl want s.t.unitPc)

/-- `ev.post` (R204). -/
def execEvPost (sw : Bool) (d a b : SReg) (s : State) : Out :=
  .next (s.issueNone Accept.none [d, a, b] (fun s => s.withPost d a b (fun x pl s => s.release .part (fun s =>
    s.reserve 1 (fun s =>
      let (id, s) := s.newOp
      let o := { s.ackOp id with kind := .post (s.x a) (s.x b) pl }
      (s.sendPost x o (s.x a) (s.x b) pl false).finish sw)))))

/-- An operation whose result goes to G[d]. -/
def State.resultOp (s : State) (id : Nat) (d : SReg) (kind : OpKind) : PendOp :=
  { s.ackOp id with dest := laterDest d, result := true, kind }

/-- `ev.postw` (R204). -/
def execEvPostw (sw : Bool) (d a b : SReg) (s : State) : Out :=
  .next (s.issue Accept.none [d, a, b] d (fun s => s.withPost d a b (fun x pl s => s.release .part (fun s =>
    let (id, s) := s.newOp
    ((s.sendPost x (s.resultOp id d .postw) (s.x a) (s.x b) pl true).await id (laterDest d)).finish sw))))

/-! ### Takes and statistics (R205, R208) -/

/-- A slice index operand: the reserved bits, then the region. -/
def State.withIndex (s : State) (x : StoreDecl) (v : Word) (k : Nat → State) : State :=
  if 2 ^ 16 ≤ v.toNat then s.raise 0x02 1
  else if x.count ≤ v.toNat then s.raise 0x05 0 v
  else k v.toNat

/-- `ev.take` (R205). -/
def execEvTake (sw : Bool) (d a b : SReg) (s : State) : Out :=
  .next (s.issue Accept.none [d, a, b] d (fun s => s.withStore (s.rd a) pST (fun x =>
    if !x.pull then s.raise 0x06
    else s.withIndex x (s.x d) (fun i =>
      let cap := s.rd b
      let addr := capCursor cap.bits
      match checkAccess cap memSpaces pST (addr : Int) 32 32 (some .spad) with
      | .error c => s.raise c 0 (causeValue c addr)
      | .ok _ =>
        if s.forbidden .spad addr 32 then s.raise 0x06 0 (causeValue 0x06 addr)
        else if x.lease && decide (16 ≤ s.t.leases.length) then s.raise 0x0E
        else
          let (id, s) := s.newOp
          let s := (s.raiseLabel (s.lab a ||| cap.label)).otherAgent
          let s := (s.addOp (s.resultOp id d (.take cap x.num))).send (x.slice i) (.take s.t.tid id s.t.job x.num)
          (s.await id (laterDest d)).finish sw))))

/-- `ev.stat` (R208). -/
def execEvStat (sw : Bool) (d a b : SReg) (s : State) : Out :=
  .next (s.issue Accept.none [a, b] d (fun s => s.withStore (s.rd a) pLD (fun x => s.withIndex x (s.x b) (fun i =>
    let (id, s) := s.newOp
    let s := s.raiseLabel (s.lab a)
    let s := (s.addOp (s.resultOp id d .stat)).send (x.slice i) (.stat s.t.tid id s.t.job x.num)
    (s.await id (laterDest d)).finish sw))))

/-! ### Leases, thresholds, flushes (R206, R207) -/

/-- `ev.done` (R206). -/
def execEvDone (sw : Bool) (a b : SReg) (s : State) : Out :=
  .next (s.issueNone Accept.none [a, b] (fun s => s.withStore (s.rd a) pEVPOST (fun x =>
    let key := s.x b
    if !(s.t.leases.contains (x.num, key)) then s.raise 0x06
    else s.release .part (fun s =>
      let (id, s) := s.newOp
      let s := s.raiseLabel (s.lab a ||| s.lab b)
      let s := { s with t := { s.t with leases := s.t.leases.filter (· != (x.num, key)) } }
      ((s.addOp (s.ackOp id)).send (x.sliceOf key) (.done s.t.tid id s.t.job x.num key)).finish sw))))

/-- Sends a message to every slice of a store as one operation that ends when all have accepted it. -/
def State.toSlices (s : State) (x : StoreDecl) (m : Nat → MsgKind) : State :=
  let (id, s) := s.newOp
  let s := s.addOp { s.ackOp id with result := true, kind := .slices x.count }
  (rangeFrom 0 x.count).foldl (fun s i => s.send (x.slice i) (m id)) s

/-- `ev.thresh` (R207). Neither R207 nor R50 names the label of the threshold: DESIGN CHOICE (log entry 122), the control label rises by
it as by that of a post's key. -/
def execEvThresh (sw : Bool) (a b : SReg) (s : State) : Out :=
  .next (s.issueNone Accept.none [a, b] (fun s => s.withStore (s.rd a) pST (fun x => s.release .part (fun s =>
    let s := s.raiseLabel (s.lab a ||| s.lab b)
    (s.toSlices x (fun id => .thresh s.t.tid id s.t.job x.num (s.x b))).finish sw))))

/-- `ev.flush` (R207). -/
def execEvFlush (sw : Bool) (a : SReg) (s : State) : Out :=
  .next (s.issueNone Accept.none [a] (fun s => s.withStore (s.rd a) pST (fun x => s.release .part (fun s =>
    let s := s.raiseLabel (s.lab a)
    (s.toSlices x (fun id => .flush s.t.tid id s.t.job x.num)).finish sw))))

/-! ### What a slice does with them -/

/-- The VA of place j of the ash log of a slice (R196). -/
def Slice.ashAt (sl : Slice) (j : Nat) : Nat :=
  sl.decl.albase.toNat + 16 * sl.decl.alsize * sl.index + 16 * (j % max sl.decl.alsize 1)

/-- Writes a deferred record to a place of an ash log of the core in focus; a page of the host holds it back (R318). -/
def State.ashPut (s : State) (job : BitVec 16) (va : Nat) (key val : Word) : State :=
  let r := s.roots job 1
  match Machine.combine s.d r .engWrite false va with
  | .ok e => { s with d := s.d.gwrite e.comp (e.at va) 16 (2 ^ 16 - 1) (key.toNat + val.toNat * 2 ^ 64) }
  | .error (.flip ia frame) =>
    let s := s.startFlip r.part r.vmid ia frame
    { s with d := { s.d with heldWork := s.d.heldWork ++
        [{ vmid := r.vmid, ia := ia / 4096 * 4096, work := .ash s.c.id job va key val }] } }
  | .error _ => s

/-- Writes a deferred record to its place in the ash log (R215). -/
def State.ashWrite (s : State) (sl : Slice) (r : Word × Word) : State :=
  s.ashPut sl.job (sl.ashAt (sl.ashHead + sl.ash.length)) r.1 r.2

/-- The oldest deferred record as its place in the ash log holds it, which a privileged access may have written (R197). -/
def State.ashRead (s : State) (sl : Slice) : Except XFail (Word × Word) :=
  let va := sl.ashAt sl.ashHead
  match Machine.combine s.d (s.roots sl.job 1) .engRead false va with
  | .ok e =>
    let v := s.d.gread e.comp (e.at va) 16
    .ok (BitVec.ofNat 64 v, BitVec.ofNat 64 (v / 2 ^ 64))
  | .error f => .error f

/-- Whether a record of an ash log is held back. -/
def Device.ashHeld (d : Device) (sl : Slice) : Bool :=
  d.heldWork.any (fun x => match x.work with | .ash core job va _ _ => core == sl.core && job == sl.job && va == sl.ashAt sl.ashHead | _ => false)

/-- Accepts a post at a slice of the core in focus: the outcome, and the state after it. -/
def State.acceptPost (s : State) (sl : Slice) (key val : Word) (label : Label) : Nat × State :=
  let (sl', outcome, r) := sl.accept key val.toNat label
  let s := match r with
    | some r => s.ashWrite sl r
    | none => s
  (outcome, { s with d := s.d.modSlice sl.core sl.job sl.decl.num (fun _ => sl') })

def MsgKind.isPost : MsgKind → Bool
  | .post _ _ _ _ _ _ _ _ _ => true
  | _ => false

/-- The refusal message of an `ev.post` (R214). For an f32 store R200 ignores the upper bits of G[b], and R214 does not say what the
value bits of the message and of a deferred record then hold there: DESIGN CHOICE (log entry 123), all 64 bits of G[b]. -/
def refusalMsg (src : Endpoint) (key val : Word) (label : Label) (pc : Word) : Msg :=
  { type := 5, src, cause := 0, label, optag := pc, payload := BitVec.ofNat 128 (key.toNat + val.toNat * 2 ^ 64) }

/-- `EMBER_POST_ACCEPT` (R202, R214). A post to a store with a fenced slice receives *target withdrawn* (R356). -/
def execEmberPostAccept (core : CoreId) (src : Endpoint) (s : State) : Out :=
  .next (match s.takeFrom core src MsgKind.isPost with
    | some (.post tid op job store key val label want pc, f) =>
      let from_ := Endpoint.core src
      let f := f.hearthDone job src
      let out : Bool := match f.d.sliceAt core job store with
        | some sl => (rangeFrom 0 sl.decl.count).any (fun i => f.d.fencedSlices.contains (sl.decl.slice i))
        | none => false
      if f.c.fenced || out then f.setStage from_ op (.failed 0x12 0)
      else (match f.d.sliceAt core job store with
        | none => f.setStage from_ op (.failed 0x12 0)
        | some sl =>
          let (outcome, f) := f.acceptPost sl key val label
          let lab := if want then sl.decl.lmax else 0
          let f := f.setStage from_ op (.executed (plainResult outcome lab))
          if outcome = 0 ∧ !want then
            f.notify from_ tid (refusalMsg (endpointOf f.d.fabric.device core) key val label pc)
          else f)
    | _ => s)

def MsgKind.isTake : MsgKind → Bool
  | .take _ _ _ _ | .stat _ _ _ _ => true
  | _ => false

/-- A request at a slice other than a post: a fenced core gives *target withdrawn*, a fenced slice *remote error* with cause 0x18
(R356). -/
def State.atSlice (f : State) (from_ : CoreId) (op : Nat) (k : State → State) : State :=
  if f.c.fenced then f.setStage from_ op (.failed 0x12 0)
  else if f.d.fencedSlices.contains f.c.id then f.setStage from_ op (.failed 0x11 0x18)
  else k f

/-- The statistics of a slice (R208). -/
def Slice.stat (sl : Slice) : Nat :=
  let top := firstEmber sl.decl sl.embers
  sl.embers.length % 2 ^ 15 + sl.ash.length % 2 ^ 25 * 2 ^ 16 + sl.handlers % 32 * 2 ^ 41 +
  (if top.isSome then 2 ^ 62 else 0) + (if sl.flushing then 2 ^ 63 else 0) +
  (top.elim 0 (·.mag.toNat)) * 2 ^ 64

/-- `SLICE_TAKE` (R202, R205, R208): a slice serves a take, or a statistics read. A take's result holds the outcome in its
low half and the ember's bytes in its high half. -/
def execSliceTake (core : CoreId) (src : Endpoint) (s : State) : Out :=
  .next (match s.takeFrom core src MsgKind.isTake with
    | some (.take tid op job store, f) =>
      let from_ := Endpoint.core src
      let f := f.hearthDone job src
      f.atSlice from_ op (fun f => match f.d.sliceAt core job store with
        | none => f.setStage from_ op (.failed 0x12 0)
        | some sl => match sl.next with
          | none => f.setStage from_ op (.executed (plainResult 0 0))
          | some e =>
            let sl' := (sl.remove e).settled
            let sl' := if sl.decl.lease then { sl' with leases := sl'.leases ++ [(e.key, tid)] } else sl'
            let f := { f with d := f.d.modSlice core job store (fun _ => sl') }
            f.setStage from_ op (.executed (plainResult (1 + e.bits * 2 ^ 256) e.label)))
    | some (.stat _ op job store, f) =>
      let from_ := Endpoint.core src
      let f := f.hearthDone job src
      f.atSlice from_ op (fun f => match f.d.sliceAt core job store with
        | none => f.setStage from_ op (.failed 0x12 0)
        | some sl => f.setStage from_ op (.executed (plainResult sl.stat sl.decl.lmax)))
    | _ => s)

def MsgKind.isDone : MsgKind → Bool
  | .done _ _ _ _ _ => true
  | _ => false

/-- `LEASE_RELEASE` (R206). -/
def execLeaseRelease (core : CoreId) (src : Endpoint) (s : State) : Out :=
  .next (match s.takeFrom core src MsgKind.isDone with
    | some (.done tid op job store key, f) =>
      let from_ := Endpoint.core src
      let f := f.hearthDone job src
      f.atSlice from_ op (fun f =>
        let f := { f with d := f.d.modSlice core job store (fun sl =>
          { sl with leases := sl.leases.filter (fun p => p != (key, tid)) }) }
        f.setStage from_ op (.executed (plainResult 0 0)))
    | _ => s)

/-- One more slice has accepted a threshold or a flush: the operation is complete when every one has. -/
def acceptedBySlice (t : Task) (id : Nat) : Task :=
  { t with ops := t.ops.map (fun (o : PendOp) =>
      if o.id = id then
        (match o.kind with
         | .slices n => if n ≤ 1 then { o with kind := .slices 0, stage := .executed (plainResult 0 0) }
             else { o with kind := .slices (n - 1) }
         | _ => o)
      else o) }

def MsgKind.isThresh : MsgKind → Bool
  | .thresh _ _ _ _ _ => true
  | _ => false
def MsgKind.isFlush : MsgKind → Bool
  | .flush _ _ _ _ => true
  | _ => false

/-- A slice accepts a threshold or a flush. -/
def State.sliceSet (f : State) (src : Endpoint) (tid : Tid) (op : Nat) (job : BitVec 16) (store : BitVec 8)
    (set : Slice → Slice) : State :=
  let from_ := Endpoint.core src
  let f := f.hearthDone job src
  f.atSlice from_ op (fun f =>
    let f := { f with d := f.d.modSlice f.c.id job store (fun sl => (set sl).settled) }
    f.modTaskOn from_ tid (fun t => acceptedBySlice t op))

/-- `SLICE_THRESHOLD` (R207). -/
def execSliceThreshold (core : CoreId) (src : Endpoint) (s : State) : Out :=
  .next (match s.takeFrom core src MsgKind.isThresh with
    | some (.thresh tid op job store v, f) => f.sliceSet src tid op job store (fun sl => { sl with thresh := v })
    | _ => s)

/-- `SLICE_FLUSH` (R207). -/
def execSliceFlush (core : CoreId) (src : Endpoint) (s : State) : Out :=
  .next (match s.takeFrom core src MsgKind.isFlush with
    | some (.flush tid op job store, f) => f.sliceSet src tid op job store (fun sl => { sl with flushing := true })
    | _ => s)

/-! ### Dispatch (R210, R211) and re-posts (R216) -/

/-- Whether a slice could dispatch, were a slot given to it. -/
def Slice.waits (sl : Slice) : Bool := !sl.decl.pull && sl.next.isSome && decide (sl.handlers < sl.decl.hmax)

/-- The slices of the core in focus that wait for a slot, in the order of the device's list. -/
def State.dispatchable (s : State) : List Slice :=
  if s.d.fencedSlices.contains s.c.id then [] else s.d.slices.filter (fun sl => sl.core == s.c.id && sl.waits &&
    (match s.d.launchOf sl.launch with | some l => l.state == .live | none => false) && s.soloFree sl.job none 5)

/-- The handler task of an ember, with its TID still to be given (R210). -/
def Slice.handler (sl : Slice) (d : Device) (e : Ember) : Task :=
  let x := sl.decl
  let num := x.num.toNat
  let ceil := d.ceilOf sl.launch x.hentry
  let plain (w : Word) : Val := { bits := w.setWidth 128, tag := false, label := e.label }
  let store := (exactCap num 1 (pLD + pST + pEVPOST) 4 0#16).getD Val.zero
  let row := if x.indexed then
      (exactCap (x.pbase.toNat + e.key.toNat * x.pstride) x.pstride (pLD + pST + pATOM) 1 e.label).getD Val.zero
    else Val.zero
  let level := (d.launchGraph sl.launch).elim 0 (·.level.toNat)
  { newTask 0 x.hentry 2 (minPrio x.hprio ceil) ceil level e.label sl.job sl.launch with
    g := handlerRegs (plain e.key) (plain e.value) (plain e.mag) store row, handlerOf := some x.num,
    leases := if x.lease then [(x.num, e.key)] else [] }

/-- Dispatches the first ember of a slice of the core in focus into a slot. -/
def State.dispatch (s : State) (sl : Slice) (slot : Nat) : State :=
  match sl.next with
  | none => s
  | some e =>
    let (tid, s) := s.newTid sl.job
    let u := { sl.handler s.d e with tid, tidReg := tid }
    let sl' := { (sl.remove e).settled with
      handlers := sl.handlers + 1, leases := if sl.decl.lease then sl.leases ++ [(e.key, tid)] else sl.leases }
    let s := { s with d := s.d.modSlice sl.core sl.job sl.decl.num (fun _ => sl') }
    (((s.recordCreate u 5 0).soloChunk sl.job none 5 0).acquire .part).startAt slot u

/-- Whether a slice may re-post a deferred record now. -/
def State.mayRepost (s : State) (sl : Slice) : Bool :=
  !sl.ash.isEmpty &&
  (decide (sl.embers.length < sl.decl.lowat) || (sl.flushing && decide (sl.embers.length < sl.decl.cap))) &&
  decide (sl.reposts < (s.d.partState (s.d.partOf (CoreId.die sl.core))).activity 4)

/-- `ASH_REPOST` (R216). -/
def execAshRepost (core : CoreId) (job : BitVec 16) (store : BitVec 8) (s : State) : Out :=
  .next (match s.d.sliceAt core job store with
    | none => s
    | some sl => match sl.ash with
      | [] => s
      | (key, val) :: rest =>
        let f := s.focus core
        let post (key val : Word) : State :=
          let sl := { sl with ash := rest, ashHead := sl.ashHead + 1, reposts := sl.reposts + 1 }
          ((f.acceptPost sl key val sl.decl.lmax).2).countDie (CoreId.die core) 12 1
        if !(s.mayRepost sl) || s.d.ashHeld sl then s
        else match f.ashRead sl with
          | .ok (key, val) => post key val
          | .error (.flip ia frame) =>
            let r := f.roots job 1
            f.startFlip r.part r.vmid ia frame
          | .error _ => post key val)

end Sys2Proof.Machine
end

