-- ==== Sys2Proof/Machine/Cof.lean ====
section
/-! DEFINITION. Linked images (R116 to R129) as the graph checker reads them: sections, kernel headers, declarations, store
records, measurements, and the checks that an image must pass. -/

namespace Sys2Proof.Machine

/-! ### Sections (R123, R124) -/

/-- A section record. -/
structure Section where
  name : Nat
  kind : Nat
  align : Nat
  size : Nat
  off : Nat
  addr : Nat
  rsv : Nat
  deriving DecidableEq, Repr

def sectionOf (l : List Byte) : Section :=
  { name := bytesAt l 0 4, kind := bytesAt l 4 1, align := bytesAt l 5 1, rsv := bytesAt l 6 2, size := bytesAt l 8 8, off := bytesAt l 16 8,
    addr := bytesAt l 24 8 }

/-- The sections of an image. -/
def sectionsOf (img : List Byte) : List Section :=
  let off := bytesAt img 24 8
  (rangeFrom 0 (bytesAt img 8 4)).map (fun i => sectionOf ((img.drop (off + 32 * i)).take 32))

/-- The bytes of a section; a zero-filled one has none in the file. -/
def Section.bytes (x : Section) (img : List Byte) : List Byte :=
  if x.kind = 4 then [] else (img.drop x.off).take x.size

/-- The names of an image: its string table. -/
def stringTable (img : List Byte) : List Byte := (img.drop (bytesAt img 48 8)).take (bytesAt img 56 8)

/-- Whether a string offset names a string of the table that ends with a zero byte (R123). -/
def nameOk (img : List Byte) (off : Nat) : Bool := ((stringTable img).drop off).contains 0

/-- A test of every two members of a list at different places. -/
def pairwise {α : Type} (p : α → α → Bool) : List α → Bool
  | [] => true
  | a :: r => r.all (p a) && pairwise p r

/-- Whether a section record is as R124 and R127 say. -/
def Section.ok (x : Section) (len : Nat) : Bool :=
  x.rsv == 0 && decide (1 ≤ x.kind) && decide (x.kind ≤ 7) && decide (x.align ≤ 21) && (x.kind != 1 || decide (2 ≤ x.align)) &&
  x.addr % 2 ^ x.align == 0 && (if x.kind = 4 then x.off == 0 else decide (x.off + x.size ≤ len)) &&
  (match x.kind with
   | 5 => decide (x.addr + x.size ≤ 0x100000)
   | 6 => decide (0x40000000 ≤ x.addr) && decide (x.addr + x.size ≤ 0x80000000)
   | 7 => x.addr == 0
   | _ => decide (0x100000000 ≤ x.addr) && decide (x.addr + x.size ≤ 2 ^ 57))

/-- Bytes of the global image at a VA. -/
def globalBytes (secs : List Section) (img : List Byte) (va n : Nat) : List Byte :=
  match secs.find? (fun x => decide (1 ≤ x.kind) && decide (x.kind ≤ 3) && decide (x.addr ≤ va) &&
      decide (va + n ≤ x.addr + x.size)) with
  | some x => ((x.bytes img).drop (va - x.addr)).take n
  | none => []

/-- Bytes up to a zero byte. -/
def untilZero : List Byte → List Byte
  | [] => []
  | b :: r => if b = 0 then [] else b :: untilZero r

/-- The name at a string offset. -/
def nameAt (img : List Byte) (off : Nat) : List Byte := untilZero ((stringTable img).drop off)

/-- The lowest address and the end of the sections of a kind. -/
def extentOf (secs : List Section) (kind : Nat) : Option (Nat × Nat) :=
  match secs.filter (fun x => x.kind == kind) with
  | [] => none
  | x :: r => some (r.foldl (fun m y => min m y.addr) x.addr, r.foldl (fun m y => max m (y.addr + y.size)) (x.addr + x.size))

/-- Whether two sections lie in one space: the global one, the scratchpad, or the shared window. -/
def Section.meets (a b : Section) : Bool :=
  a.kind != 7 && b.kind != 7 && (a.kind == b.kind || (decide (a.kind ≤ 4) && decide (b.kind ≤ 4))) && decide (0 < a.size) &&
  decide (0 < b.size) && overlap a.addr a.size b.addr (b.addr + b.size)

/-- Where the linker places the sections of an image (R127): no two have one name or share bytes, and the global kinds follow each other,
each from a 4 KiB boundary. -/
def placementsOk (img : List Byte) (secs : List Section) : Bool :=
  let kinds := [1, 2, 3, 4].filterMap (extentOf secs)
  pairwise (fun (a b : Section) => nameAt img a.name != nameAt img b.name && !(a.meets b)) secs &&
  kinds.all (fun e => e.1 % 4096 == 0) && pairwise (fun (a b : Nat × Nat) => decide (a.2 ≤ b.1)) kinds

/-! ### Symbols (R124, R127) -/

/-- A symbol record. -/
structure Symbol where
  name : Nat
  sect : Nat
  kind : Nat
  bind : Nat
  deriving DecidableEq, Repr

def symbolOf (l : List Byte) : Symbol :=
  { name := bytesAt l 0 4, sect := bytesAt l 4 2, kind := bytesAt l 6 1, bind := bytesAt l 7 1 }

/-- The symbols of an image. -/
def symbolsOf (img : List Byte) : List Symbol :=
  let n := bytesAt img 12 4
  (chunks 24 n ((img.drop (bytesAt img 32 8)).take (24 * n))).map symbolOf

/-- Whether the symbol records hold no reserved value, leave none undefined, and define no global name twice. -/
def symbolsOk (img : List Byte) : Bool :=
  let l := symbolsOf img
  l.all (fun x => nameOk img x.name && decide (x.kind ≤ 8) && decide (x.bind ≤ 2) && x.sect != 0 &&
    (x.sect == 0xFFFF || decide (x.sect ≤ bytesAt img 8 4))) &&
  pairwise (fun (a b : Symbol) => a.bind != 1 || b.bind != 1 || nameAt img a.name != nameAt img b.name) l

/-! ### Kernel headers (R126) -/

/-- A declaration entry: TYPE, the reserved bytes, NAME, and the 32 bytes. -/
structure RawDecl where
  type : Nat
  rsv : Nat
  name : Nat
  bytes : List Byte
  deriving DecidableEq, Repr

/-- A kernel header record. -/
structure RawKernel where
  fixed : List Byte
  measure : BitVec 256
  decls : List RawDecl
  deriving DecidableEq, Repr

def rawDecl (l : List Byte) : RawDecl :=
  { type := bytesAt l 0 1, rsv := bytesAt l 1 3, name := bytesAt l 4 4, bytes := l }

/-- The records of the `.khdr` section. -/
def rawKernels : Nat → List Byte → List RawKernel
  | 0, _ => []
  | n + 1, l =>
    let nd := bytesAt l 4 4
    { fixed := l.take 32, measure := BitVec.ofNat 256 (bytesAt l 32 32),
      decls := (chunks 32 nd ((l.drop 64).take (32 * nd))).map rawDecl } :: rawKernels n (l.drop (64 + 32 * nd))

def RawKernel.text (k : RawKernel) : Nat := bytesAt k.fixed 8 8
def RawKernel.textSize (k : RawKernel) : Nat := bytesAt k.fixed 16 4
def RawKernel.entry (k : RawKernel) : Nat := k.text + bytesAt k.fixed 20 4
def RawKernel.prio (k : RawKernel) : Nat := bytesAt k.fixed 24 1
def RawKernel.steal (k : RawKernel) : Nat := bytesAt k.fixed 25 1
def RawKernel.kind (k : RawKernel) : Nat := bytesAt k.fixed 26 1
def RawKernel.anchor (k : RawKernel) : Nat := bytesAt k.fixed 27 1
def RawKernel.recomp (k : RawKernel) : Nat := bytesAt k.fixed 28 1
def RawKernel.partyN (k : RawKernel) : Nat := bytesAt k.fixed 29 1
def RawKernel.args (k : RawKernel) : Nat := bytesAt k.fixed 30 2

/-- A field of a declaration body, by its byte. -/
def RawDecl.field (x : RawDecl) (lo n : Nat) : Nat := bytesAt x.bytes lo n

/-- Bytes of an entry that its TYPE leaves reserved are zero. -/
def RawDecl.zeros (x : RawDecl) : Bool :=
  x.rsv == 0 && (match x.type with
  | 1 | 2 => x.field 20 12 == 0
  | 3 | 4 => x.field 17 15 == 0 && decide (x.field 16 1 ≤ 1)
  | 5 => x.field 8 24 == 0
  | 6 => x.field 16 16 == 0
  | 7 => x.field 9 23 == 0 && decide (x.field 8 1 < 16)
  | _ => false)

/-- The distinct members of a list, in the order of their first places. -/
def distinct {α : Type} [BEq α] (l : List α) : List α := l.foldl (fun s x => if s.contains x then s else s ++ [x]) []

/-- The place of a member of a list. -/
def placeOf {α : Type} [BEq α] (x : α) : List α → Nat
  | [] => 0
  | y :: r => if y == x then 0 else placeOf x r + 1

/-- The gang of a kernel by name, if it is in one. -/
def RawKernel.gang (k : RawKernel) (img : List Byte) : Option (List Byte) :=
  (k.decls.find? (fun x => x.type == 5)).map (fun x => nameAt img x.name)

/-- The queue names of an image. -/
def queueNames (img : List Byte) (ks : List RawKernel) : List (List Byte) :=
  distinct (ks.flatMap (fun k => (k.decls.filter (fun x => x.type == 3)).map (fun x => nameAt img x.name)))

/-- The pipes of an image: gang and pipe name. -/
def pipeNames (img : List Byte) (ks : List RawKernel) : List (Option (List Byte) × List Byte) :=
  distinct (ks.flatMap (fun k => (k.decls.filter (fun x => x.type == 4)).map (fun x => (k.gang img, nameAt img x.name))))

/-- The gang names of an image. -/
def gangNames (img : List Byte) (ks : List RawKernel) : List (List Byte) := distinct (ks.filterMap (fun k => k.gang img))

/-- The addresses of the store records, in the order of the stores' numbers (R192). -/
def storeAddrs (ks : List RawKernel) : List Nat :=
  distinct (ks.flatMap (fun k => (k.decls.filter (fun x => x.type == 6)).map (fun x => x.field 8 8)))

/-- A declaration as the registered graph keeps it. -/
def RawKernel.decl (k : RawKernel) (img : List Byte) (ks : List RawKernel) (x : RawDecl) : Option KDecl :=
  let at_ (lo : Nat) : Word := BitVec.ofNat 64 (k.text + x.field lo 4)
  match x.type with
  | 1 => some (.restart (at_ 8) (at_ 12) (at_ 16))
  | 2 => some (.input (x.field 8 4) (x.field 12 4) (x.field 16 4))
  | 3 => some (.queue (placeOf (nameAt img x.name) (queueNames img ks)) (x.field 8 4) (x.field 12 4) (x.field 16 1 == 1))
  | 4 => some (.pipe (placeOf (k.gang img, nameAt img x.name) (pipeNames img ks)) (x.field 8 4) (x.field 12 4) (x.field 16 1 == 1))
  | 5 => some (.gang (placeOf (nameAt img x.name) (gangNames img ks)))
  | 6 => some (.evstore (BitVec.ofNat 8 (placeOf (x.field 8 8) (storeAddrs ks))))
  | 7 => some (.party (BitVec.ofNat 4 (x.field 8 1)))
  | _ => none

/-! ### Store records (R194) -/

/-- A label of an image with its local slots bound to the partition's (R118, R323). -/
def boundLabel (bind : Word) (l : Label) : Label :=
  (rangeFrom 0 16).foldl (fun m i => if l.getLsbD i then m ||| BitVec.ofNat 16 (2 ^ bitsOf bind.toNat (4 * i) 4) else m) 0

/-- The declaration of store `num` in its 64 bytes, with the image's local slots bound. -/
def storeDecl (bind : Word) (num : Nat) (l : List Byte) : StoreDecl :=
  let c := bytesAt l 0 8
  let p := bytesAt l 56 8
  { num := BitVec.ofNat 8 num, op := BitVec.ofNat 4 (bitsOf c 0 4), rule := BitVec.ofNat 4 (bitsOf c 16 4),
    hash := bitsOf c 20 1 == 1, refuse := bitsOf c 21 1 == 1, lease := bitsOf c 22 1 == 1, pull := bitsOf c 23 1 == 1,
    indexed := bitsOf c 24 1 == 1, hprio := BitVec.ofNat 3 (bitsOf c 25 3), hmax := bitsOf c 28 5, cap := bitsOf c 33 15,
    thresh := BitVec.ofNat 64 (bytesAt l 8 8), hentry := BitVec.ofNat 64 (bytesAt l 16 8),
    albase := BitVec.ofNat 64 (bytesAt l 24 8), pbase := BitVec.ofNat 64 (bytesAt l 32 8), pstride := bytesAt l 40 4,
    pkeys := bytesAt l 44 4, alsize := bytesAt l 48 4, lowat := bytesAt l 52 2, lmax := boundLabel bind (BitVec.ofNat 16 (bytesAt l 54 2)),
    die := BitVec.ofNat 2 (bitsOf p 48 2), x0 := BitVec.ofNat 4 (bitsOf p 32 4), y0 := BitVec.ofNat 4 (bitsOf p 36 4),
    x1 := BitVec.ofNat 4 (bitsOf p 40 4), y1 := BitVec.ofNat 4 (bitsOf p 44 4), sloff := bitsOf p 0 20 }

/-- Whether the reserved fields of a store record are zero and its codes are assigned. -/
def storeReservedOk (l : List Byte) : Bool :=
  let c := bytesAt l 0 8
  let p := bytesAt l 56 8
  bitsOf c 48 16 == 0 && bitsOf c 4 12 == 0 && decide (bitsOf c 0 4 ≤ 10) && decide (bitsOf c 16 4 ≤ 4) &&
  bitsOf p 50 14 == 0 && bitsOf p 20 12 == 0 && bitsOf p 0 12 == 0

/-- Whether a number is a power of two from 16 to 2^24. -/
def logSizeOk (n : Nat) : Bool := (rangeFrom 4 21).any (fun k => n == 2 ^ k)

/-- The smallest exponent that a row size needs (R196). -/
def rowExp (stride : Nat) : Option Nat := (rangeFrom 0 45).find? (fun e => decide (stride ≤ 2 ^ e * (2 ^ 20 - 2 ^ 12)))

/-- The conditions of R196 that a declaration meets by itself. -/
def StoreDecl.ok (x : StoreDecl) : Bool :=
  let one := x.x0 == x.x1 && x.y0 == x.y1
  (x.hash || one) && decide (x.x0.toNat ≤ x.x1.toNat) && decide (x.y0.toNat ≤ x.y1.toNat) &&
  decide (1 ≤ x.cap) && decide (x.cap ≤ 16384) && decide (x.sloff + 32 * x.cap ≤ 0x100000) &&
  decide (x.hmax ≤ 24) && ((x.hmax == 0) == x.pull) && (!x.pull || x.hentry == 0) &&
  (if x.refuse then x.alsize == 0 && x.albase == 0 else logSizeOk x.alsize && x.albase.toNat % 4096 == 0) &&
  decide (1 ≤ x.lowat) && decide (x.lowat ≤ x.cap) &&
  (if x.indexed then
    x.op.toNat ≤ 1 && x.rule == 4 && x.pkeys != 0 && x.pstride % 64 == 0 && x.pbase.toNat % 64 == 0 &&
    (match rowExp x.pstride with
     | some e => x.pbase.toNat % 2 ^ e == 0 && x.pstride % 2 ^ e == 0 && decide (x.pbase.toNat + x.pkeys * x.pstride ≤ 2 ^ 57)
     | none => false)
   else x.pkeys == 0 && x.pstride == 0 && x.pbase == 0)

/-! ### Measurements (R128) -/

/-- The bytes that a kernel's measurement covers. -/
def RawKernel.measured (k : RawKernel) (secs : List Section) (img : List Byte) : List Byte :=
  globalBytes secs img k.text k.textSize ++ toBytes 4 0 ++ k.fixed.drop 4 ++ nameAt img (bytesAt k.fixed 0 4) ++ [0#8] ++
  k.decls.flatMap (fun x => x.bytes.take 4 ++ toBytes 4 0 ++ x.bytes.drop 8 ++
    (if x.name = 0 then [] else nameAt img x.name ++ [0#8])) ++
  (k.decls.filter (fun x => x.type == 6)).flatMap (fun x => globalBytes secs img (x.field 8 8) 64)

def RawKernel.measurement (k : RawKernel) (secs : List Section) (img : List Byte) : BitVec 256 :=
  Config.shake256 (k.measured secs img)

/-! ### The checks of an image (R123 to R129) -/

/-- The header of R123. -/
def headerOk (img : List Byte) : Bool :=
  bytesAt img 0 4 == 0x00464F43 && bytesAt img 4 2 == 1 && bytesAt img 6 2 == 2 && bytesAt img 16 4 == 0 &&
  bytesAt img 40 8 == 0 && bytesAt img 24 8 % 8 == 0 && bytesAt img 32 8 % 8 == 0 &&
  decide (bytesAt img 24 8 + 32 * bytesAt img 8 4 ≤ img.length) && decide (bytesAt img 32 8 + 24 * bytesAt img 12 4 ≤ img.length) &&
  decide (bytesAt img 48 8 + bytesAt img 56 8 ≤ img.length)

/-- Two restart regions that overlap are nested, and differ. -/
def nestedOk (a b : Nat × Nat) : Bool :=
  decide (a.2 ≤ b.1) || decide (b.2 ≤ a.1) ||
  (a != b && ((decide (a.1 ≤ b.1) && decide (b.2 ≤ a.2)) || (decide (b.1 ≤ a.1) && decide (a.2 ≤ b.2))))

/-- The slots and names of a kernel's TYPE 7 entries. -/
def RawKernel.parties (k : RawKernel) (img : List Byte) : List (Nat × List Byte) :=
  (k.decls.filter (fun x => x.type == 7)).map (fun x => (x.field 8 1, nameAt img x.name))

/-- The TYPE 7 entries of an image (R126): the last ones of each kernel, in ascending slot order, the same in every kernel, and each name
with one slot. -/
def partiesOk (img : List Byte) (ks : List RawKernel) : Bool :=
  ks.all (fun k =>
    k.decls.drop (k.decls.length - k.partyN) == k.decls.filter (fun x => x.type == 7) &&
    pairwise (fun (a b : Nat × List Byte) => decide (a.1 < b.1) && a.2 != b.2) (k.parties img)) &&
  pairwise (fun (a b : RawKernel) => a.parties img == b.parties img) ks

/-- The rules of R126 and R129 for one kernel. R129 gives a gang member a gang, and does not say whether it may have two: DESIGN CHOICE
(log entry 119), it may not. -/
def RawKernel.ok (k : RawKernel) (img : List Byte) (secs : List Section) : Bool :=
  let of (t : Nat) := k.decls.filter (fun x => x.type == t)
  let regions := (of 1).map (fun x => (x.field 8 4, x.field 12 4))
  let windows := (of 2).map (fun x => (x.field 16 4, x.field 12 4))
  secs.any (fun x => x.kind == 1 && decide (x.addr ≤ k.text) && decide (k.text + k.textSize ≤ x.addr + x.size)) &&
  decide (k.prio ≤ 7) && decide (2 ≤ k.steal) && decide (k.steal ≤ 5) && decide (k.kind ≤ 3) && decide (k.anchor ≤ 8) &&
  decide (bytesAt k.fixed 20 4 < k.textSize) && k.args % 16 == 0 && nameOk img (bytesAt k.fixed 0 4) &&
  k.decls.all (fun x => x.zeros && (x.name == 0 || nameOk img x.name)) && (of 7).length == k.partyN &&
  (of 1).all (fun x => decide (x.field 8 4 < x.field 12 4) && decide (x.field 16 4 < k.textSize)) && pairwise nestedOk regions &&
  (k.recomp == 0 || !(of 1).isEmpty) && decide (tileCount (BitVec.ofNat 8 k.recomp) ≤ k.anchor) &&
  windows.all (fun w => w.2 % 64 == 0 && decide (w.1 + w.2 ≤ 0x100000)) &&
  pairwise (fun a b => !(overlap a.1 a.2 b.1 (b.1 + b.2))) windows &&
  pairwise (fun (a b : RawDecl) => nameAt img a.name != nameAt img b.name) (of 3) &&
  pairwise (fun (a b : RawDecl) => nameAt img a.name != nameAt img b.name) (of 4) &&
  ((k.kind == 3) == !(of 5).isEmpty) && decide ((of 5).length ≤ 1) &&
  (of 3).all (fun x => decide (1 ≤ x.field 8 4) && decide (x.field 8 4 ≤ 65536) && x.field 12 4 % 64 == 0 &&
    decide (64 ≤ x.field 12 4) && decide (x.field 12 4 ≤ 1024)) &&
  (of 4).all (fun x => decide (1 ≤ x.field 8 4) && decide (x.field 8 4 ≤ 256) && x.field 12 4 % 16 == 0 &&
    decide (16 ≤ x.field 12 4) && decide (x.field 12 4 ≤ 4096) && decide (x.field 8 4 * x.field 12 4 ≤ 262144)) &&
  (of 6).all (fun x => x.field 8 8 % 64 == 0 && (globalBytes secs img (x.field 8 8) 64).length == 64)

/-- The rules of R129 for the queues and pipes of the whole image. -/
def namesOk (img : List Byte) (ks : List RawKernel) : Bool :=
  let decls (t : Nat) := ks.flatMap (fun k => (k.decls.filter (fun x => x.type == t)).map (fun x => (k, x)))
  (queueNames img ks).all (fun n =>
    let l := (decls 3).filter (fun p => nameAt img p.2.name == n)
    (l.filter (fun p => p.2.field 16 1 == 1)).length == 1 &&
    pairwise (fun (a b : RawKernel × RawDecl) => a.2.field 8 8 == b.2.field 8 8) l) &&
  (pipeNames img ks).all (fun n =>
    let l := (decls 4).filter (fun p => (p.1.gang img, nameAt img p.2.name) == n)
    l.length == 2 && (l.filter (fun p => p.2.field 16 1 == 1)).length == 1 && n.1.isSome)

/-- Whether the `.khdr` section holds the records that NKHDR counts, and nothing else (R123, R126). -/
def recordsOk (secs : List Section) (n : Nat) (ks : List RawKernel) : Bool :=
  match secs.filter (fun x => x.kind == 7) with
  | [] => n == 0
  | [x] => ks.all (fun k => k.fixed.length == 32 && k.decls.length == bytesAt k.fixed 4 4) &&
      (ks.map (fun k => 64 + 32 * k.decls.length)).foldl (· + ·) 0 == x.size
  | _ => false

/-- Whether the handlers that a store record names are kernels of kind `handler`: with PULL there is none (R129, R196). -/
def handlersOk (secs : List Section) (img : List Byte) (ks : List RawKernel) : Bool :=
  let handlers := (ks.filter (fun k => k.kind == 2)).map RawKernel.entry
  (storeAddrs ks).all (fun a =>
    let l := globalBytes secs img a 64
    let e := bytesAt l 16 8
    handlers.contains e || (e == 0 && bitsOf (bytesAt l 0 8) 23 1 == 1))

/-- The image of a registration as the checker reads it. -/
structure Cof where
  img : List Byte
  secs : List Section
  ks : List RawKernel
  deriving DecidableEq, Repr

/-- Reads an image; none when it breaks R123 to R129 or a measurement is not the recomputed one. -/
def readCof (img : List Byte) : Option Cof :=
  let secs := sectionsOf img
  let n := bytesAt img 20 4
  let ks := rawKernels n (((secs.find? (fun x => x.kind == 7)).elim [] (fun x => x.bytes img)))
  let ms := ks.map (fun k => k.measurement secs img)
  let spadOk := match extentOf secs 5 with
    | some (lo, hi) => (exactCap lo (hi - lo) pLD 3 0#16).isSome
    | none => true
  if headerOk img && secs.all (fun x => x.ok img.length && nameOk img x.name) && placementsOk img secs && symbolsOk img &&
     recordsOk secs n ks && ks.all (fun k => k.ok img secs) && partiesOk img ks && namesOk img ks && handlersOk secs img ks &&
     decide ((storeAddrs ks).length ≤ 256) && spadOk &&
     (ks.map RawKernel.measure == ms) &&
     BitVec.ofNat 256 (bytesAt img 64 32) == Config.shake256 (ms.flatMap (fun m => toBytes 32 m.toNat)) then
    some { img, secs, ks }
  else none

end Sys2Proof.Machine
end

