-- ==== Sys2Proof/Machine/Engines.lean ====
section
/-! DEFINITION. What the three engines share (R90, R91, R168, R189, R190, R233, R236, R248): how an engine finds, reads and
writes bytes at their homes, how an absent translation is delivered, and the messages that an operation ends with. -/

namespace Sys2Proof.Machine

/-! ### The place of a byte (R233, R313) -/

/-- For whom an engine works: the owning task, its job and its level. -/
structure EngCtx where
  tid : Tid
  job : BitVec 16
  level : Nat
  launch : Nat
  pc : Word
  eng : Engine
  deriving DecidableEq, Repr

/-- Why engine work does not go on: a cause that ends it, a failed translation, or bytes of a peer that have not come. -/
inductive EngStop where
  | fault (c detail : Nat)
  | xlate (va : Nat) (f : XFail)
  | wait
  deriving DecidableEq, Repr

/-- Where an engine finds a byte. -/
inductive EngPlace where
  | spad
  | shared
  | mem (pa : Nat) (comp : Bool) (label : Label)
  | peer (dev : BitVec 12)
  deriving DecidableEq, Repr

/-- The pins of a task. -/
def State.pinsOf (s : State) (tid : Tid) : List Pin := ((s.slotOf tid).map (fun n => (s.whole.slot n).pins)).getD []

/-- The pin of a task that holds a byte. -/
def State.pinOf (s : State) (tid : Tid) (va : Nat) : Option Pin :=
  (s.pinsOf tid).find? (fun p => decide (p.lo ≤ va) && decide (va ≤ p.hi))

/-- The place of a global byte that no pin translates; of the engines only the copy engine reaches the system window (R308). -/
def State.engGlobal (s : State) (x : EngCtx) (acc : Acc) (raw : Bool) (a : Nat) : Except EngStop EngPlace × State :=
  match s.gplaceOf x.job x.level a with
  | .window pa =>
    if x.eng == .copy && s.windowAdmits x.level acc pa then (.ok (.mem pa false 0), s)
    else (.error (.fault 0x0A (xDetail 0 0 acc)), s)
  | .peer dev => (.ok (.peer dev), s)
  | .launch _ _ => (.error (.fault 0x06 0), s)
  | .here => match s.translateAs (s.roots x.job x.level) acc raw a with
    | (.ok e, s) => (.ok (.mem (e.at a) (e.comp && !(raw && acc == .engRead)) e.label), s)
    | (.error f, s) => (.error (.xlate a f), s)

/-- The length of [a, a+n) up to the first edge of a declared window of a task: its bytes are all inside one, or all outside (R233). -/
def State.pinCut (s : State) (tid : Tid) (a n : Nat) : Nat :=
  (s.pinsOf tid).foldl (fun n p => if a < p.lo ∧ p.lo < a + n then p.lo - a else if a ≤ p.hi ∧ p.hi + 1 < a + n then p.hi + 1 - a else n) n

/-- The place of a byte: reads of a declared window go through its pin (R233). -/
def State.engPlace (s : State) (x : EngCtx) (acc : Acc) (raw : Bool) (a : Nat) : Except EngStop EngPlace × State :=
  match winOf a with
  | none => (.error (.fault 0x05 0), s)
  | some .spad => (.ok .spad, s)
  | some .shared =>
    if s.d.fencedSlices.contains (sliceCore (a - 0x40000000)) then (.error (.fault 0x11 0x18), s) else (.ok .shared, s)
  | some .glob =>
    match (if acc = .engRead then s.pinOf x.tid a else none) with
    | some p => (.ok (.mem (p.pa + (a - p.va)) (p.comp && !raw) p.label), s)
    | none => s.engGlobal x acc raw a

/-! ### Reading -/

/-- Bytes that an engine has read: their value, the union of their pages' labels, the poisoned ranges as (offset, length)
with the place of the first. -/
structure EngBytes where
  v : Nat
  label : Label
  bad : List (Nat × Nat)
  place : Nat
  deriving DecidableEq, Repr

def EngBytes.none : EngBytes := { v := 0, label := 0, bad := [], place := 0 }

/-- Two reads end to end; the first has n bytes. -/
def EngBytes.join (a b : EngBytes) (n : Nat) : EngBytes :=
  { v := a.v % 2 ^ (8 * n) + b.v * 2 ^ (8 * n), label := a.label ||| b.label,
    bad := a.bad ++ b.bad.map (fun p => (p.1 + n, p.2)), place := if a.bad.isEmpty then b.place else a.place }

/-- The parts of [a, a+n) that lie in lines of a list, as offsets from a. -/
def badRanges (a n : Nat) (bad : Nat → Bool) : List (Nat × Nat) :=
  ((units 64 a n).filter bad).map (fun l => (max a (64 * l) - a, min (a + n) (64 * l + 64) - max a (64 * l)))

/-- A line that an engine of the core in focus has had from a peer. -/
def State.peerLine (s : State) (x : EngCtx) (dev : BitVec 12) (line : Nat) : Option PeerLine :=
  s.d.peerLines.find? (fun p => p.core == s.c.id && p.eng == x.eng && p.dev == dev && p.line == line)

/-- Asks a peer for lines that have not been asked for. -/
def State.askPeer (s : State) (x : EngCtx) (dev : BitVec 12) : List Nat → State
  | [] => s
  | l :: r =>
    match s.peerLine x dev l with
    | some _ => s.askPeer x dev r
    | none =>
      let (id, s) := s.newOp
      let ask : Ask := { opc := 1, dst := gatewayOf dev 0 0, fn := 0, size := 0, ord := 0, label := 0, addr := 64 * l, data := [] }
      let (seq, packet, s) : BitVec 16 × Option Packet × State := match s.d.pathTo s.c.id dev with
        | none => (0, none, s)
        | some port =>
          let (seq, s) := s.takeSeq dev
          let q := s.request dev x.job ask seq
          (seq, some q, { s with d := { s.d with fabric := s.d.fabric.put port q } })
      let got : Option OutReply := if packet.isNone then some { status := 0x11, poison := false, label := 0, data := 0 } else none
      let p : PeerLine := {
        core := s.c.id, eng := x.eng, op := id, tid := x.tid, dev, line := l, seq, cycle := s.d.cycle, packet, resends := 0, got }
      State.askPeer { s with d := { s.d with peerLines := s.d.peerLines ++ [p] } } x dev r

/-- Gives up the peer lines of an engine of the core in focus. -/
def State.dropPeers (s : State) (e : Engine) : State :=
  { s with d := { s.d with peerLines := s.d.peerLines.filter (fun p => !(p.core == s.c.id && p.eng == e)) } }

/-- Bytes of lines of a peer, when they have all come. -/
def State.peerBytes (s : State) (x : EngCtx) (dev : BitVec 12) (a n : Nat) : Except EngStop EngBytes × State :=
  let lines := units 64 a n
  let got := lines.filterMap (fun l => (s.peerLine x dev l).bind (fun p => p.got))
  if got.length < lines.length then (.error .wait, s.askPeer x dev lines)
  else match got.find? (fun g => g.status != 0) with
    | some g => (.error (.fault 0x11 g.status.toNat), s)
    | none =>
      let v := got.foldr (fun g acc => g.data.toNat + acc * 2 ^ 512) 0
      let bad (l : Nat) : Bool := ((s.peerLine x dev l).bind (fun p => p.got)).any (·.poison)
      (.ok { v := bitsOf v (8 * (a % 64)) (8 * n), label := got.foldl (fun l g => l ||| g.label) 0, bad := badRanges a n bad,
             place := 6 }, s)

/-- Reads bytes of one 4 KiB page at their home, each 64-byte piece as one unit. -/
def State.engPiece (s : State) (x : EngCtx) (raw : Bool) (a n : Nat) : Except EngStop EngBytes × State :=
  match s.engPlace x .engRead raw a with
  | (.error e, s) => (.error e, s)
  | (.ok .spad, s) =>
    let b := s.c.spad
    (.ok { v := b.mem.read a n, label := b.labelOf a n, bad := badRanges a n b.poison.contains, place := 3 }, s)
  | (.ok .shared, s) =>
    let b := s.d.shared
    (.ok { v := b.mem.read a n, label := b.labelOf a n, bad := badRanges a n b.poison.contains, place := 4 }, s)
  | (.ok (.mem pa comp label), s) =>
    let d := if raw then s.d.recodeFor pa n else s.d
    let d := (units 64 pa n).foldl (fun d l => d.countLine (64 * l) false) d
    (.ok { v := d.gread comp pa n, label, bad := badRanges pa n (fun l => d.gpoisoned comp (64 * l) 64),
           place := d.poisonPlace comp pa }, { s with d })
  | (.ok (.peer dev), s) => s.peerBytes x dev a n

/-- Reads bytes page by page, each page cut at the edges of declared windows, in at most so many pieces. -/
def State.engPieces (s : State) (x : EngCtx) (raw : Bool) : Nat → Nat → Nat → Except EngStop EngBytes × State
  | 0, _, _ => (.ok EngBytes.none, s)
  | fuel + 1, a, n =>
    if n = 0 then (.ok EngBytes.none, s)
    else
      let k := s.pinCut x.tid a (min n (4096 - a % 4096))
      match s.engPiece x raw a k with
      | (.error e, s) => (.error e, s)
      | (.ok b, s) => match s.engPieces x raw fuel (a + k) (n - k) with
        | (.error e, s) => (.error e, s)
        | (.ok r, s) => (.ok (b.join r k), s)

/-- Reads bytes. -/
def State.engRead (s : State) (x : EngCtx) (raw : Bool) (a n : Nat) : Except EngStop EngBytes × State :=
  s.engPieces x raw (n / 4096 + 2 + 2 * (s.pinsOf x.tid).length) a n

/-! ### Absent translations (R236, R306, R355) -/

/-- The task of an engine operation, when it is on the core in focus. -/
def State.taskOf (s : State) (tid : Tid) : Option Task := (s.slotOf tid).map (fun n => s.whole.slot n)

/-- The control label of the owning task of engine work, which its handler starts with (R236, R293). -/
def State.ownLabel (s : State) (tid : Tid) (lab : Label) : Label := (s.taskOf tid).elim lab (·.clabel)

/-- Stops a launch whose engine work meets a cause that no handler takes. -/
def State.stopLaunch (s : State) (cw : Word) (x : EngCtx) : State := (s.dump cw x.tid).withdraw x.launch

/-- Starts a handler for engine work in a free slot of the core, by way of the upcall queue. An upcall task has the ceiling of its entry
(R11). -/
def State.engHandler (s : State) (x : EngCtx) (lab : Label) (level entry : Nat) (how : Nat) (cw va : Word) (g5 : Val) : State :=
  let (tid, s) := s.newTid x.job
  let prio : BitVec 3 := match s.slotOf x.tid with
    | some n => (s.whole.slot n).prio
    | none => 0
  let ceil : BitVec 3 := if level = 0 then s.d.ceilOf x.launch (BitVec.ofNat 64 entry) else 7
  let u := { newTask tid (BitVec.ofNat 64 entry) 0 (if level = 0 then minPrio prio ceil else 7) ceil level lab x.job x.launch with
    g := handlerRegs (plainVal cw.toNat lab) (plainVal va.toNat lab) (plainVal x.tid.toNat lab) (plainVal x.pc.toNat lab) g5 }
  ({ s with c := { s.c with upcallQ := s.c.upcallQ ++ [u] } }).recordCreate u how x.tid

/-- A record of the log that names the owner of engine work. -/
def State.recordFor (s : State) (type : Nat) (tid : Tid) (lab : Label) (arg0 arg1 : Word) : State :=
  let r : TraceRec := { type := BitVec.ofNat 8 type, cycle := s.d.cycle, tid := some tid, label := lab, arg0, arg1 }
  { s with c := { s.c with trace := s.c.trace.emit r } }

/-- Delivers an absent first-stage translation of engine work: an upcall when the job has an entry for one, else the first
of steps 3 to 5 of R291 that applies. -/
def State.engFirst (s : State) (x : EngCtx) (lab : Label) (c detail va : Nat) : State :=
  let cw := causeWord c detail x.level false
  let s := s.recordFor 11 x.tid lab x.pc cw
  let up := (s.c.jobRegs x.job).upentry
  let p := s.d.partState s.part
  let a := BitVec.ofNat 64 va
  if up ≠ 0 then s.engHandler x lab 0 up.toNat 6 cw a Val.zero
  else
    let h : BitVec 2 := if x.level = 0 && bitAt p.sdeleg c then 1 else if x.level ≤ 1 && bitAt p.hdeleg c then 2 else 3
    if h = 3 ∨ s.vector h = 0 then s.stopLaunch cw x
    else s.engHandler x lab h.toNat (s.vector h).toNat 7 cw a (plainVal 0 lab)

/-- Delivers an absent second-stage translation of engine work to the hypervisor. -/
def State.engSecond (s : State) (x : EngCtx) (lab : Label) (c detail va ia : Nat) : State :=
  let cw := causeWord c detail x.level false
  let s := s.recordFor 11 x.tid lab x.pc cw
  if s.vector 2 = 0 then s.stopLaunch cw x
  else s.engHandler x lab 2 (s.vector 2).toNat 7 cw (BitVec.ofNat 64 va) (plainVal ia lab)

/-- What becomes of engine work that a stop has met. -/
inductive EngAfter where
  /-- it goes on later: bytes of a peer or a flip are awaited -/
  | later
  /-- it is suspended, awaiting notice -/
  | suspend
  /-- it ends with a cause -/
  | ended (c : Nat)
  deriving DecidableEq, Repr

/-- Deals with a stop: absent translations suspend, a host-owned page is flipped, any other cause ends the work. -/
def State.engStopped (s : State) (x : EngCtx) (lab : Label) : EngStop → EngAfter × State
  | .wait => (.later, s)
  | .fault c _ => (.ended c, s)
  | .xlate va (.cause c detail) => if c = 0x09 then (.suspend, s.engFirst x lab c detail va) else (.ended c, s)
  | .xlate va (.second c detail ia) => if c = 0x09 then (.suspend, s.engSecond x lab c detail va ia) else (.ended c, s)
  | .xlate _ (.flip ia frame) =>
    (.later, s.startFlip s.part ((s.c.jobRegs x.job).vmid.setWidth 16) ia frame)

/-- The cause and DETAIL of a stop that an instruction meets at its acceptance; none while it waits. -/
def EngStop.raised : EngStop → Option (Nat × Nat)
  | .fault c detail => some (c, detail)
  | .xlate _ (.cause c detail) => some (c, detail)
  | .xlate _ (.second c detail _) => some (c, detail)
  | .xlate _ (.flip _ _) | .wait => none

/-! ### Operands of engine words and of directly issued forms (R189) -/

/-- The value that an engine word reads: the g registers as they stood at the fork, the latch at zero. -/
def Prog.rd (p : Prog) (t : Task) : SReg → Val
  | .g n => p.regs[n.toNat]?.getD Val.zero
  | .tid => { bits := t.tidReg.setWidth 128, tag := false, label := 0#16 }
  | _ => Val.zero

/-- A cause raised at acceptance: cause, DETAIL, value. -/
abbrev Raised := Nat × Nat × Word

/-- A cause raised for an address. -/
def raisedAt (c detail addr : Nat) : Raised := (c, detail, causeValue c addr)

/-- What an accepted operation takes from its origin: the PC and OPTAG, whether a program's word, and its index. -/
structure Origin where
  pc : Word
  optag : Word
  prog : Bool
  word : Nat
  deriving DecidableEq, Repr

/-- A directly issued form. -/
def State.direct (s : State) : Origin := { pc := s.t.unitPc, optag := s.t.unitPc, prog := false, word := 0 }

/-- A fresh name for an engine operation; the names rise in acceptance order. -/
def State.engId (s : State) : Nat := s.d.nextOp

/-- The range checks of one run of bytes that an engine operation reads or writes for the task at the port (R44, R174,
R197, R388). -/
def State.engRange (s : State) (cap : Val) (spaces : List Nat) (perm : Nat) (a : Int) (n align : Nat) (need : Option Win) :
    Option Raised :=
  match checkAccess cap spaces perm a n align need with
  | .error c => some (raisedAt c 0 a.toNat)
  | .ok w =>
    if s.forbidden w a.toNat n then some (raisedAt 0x06 0 a.toNat)
    else match w, s.gplaceOf s.t.job s.t.level a.toNat with
      | .glob, .launch _ _ => some (raisedAt 0x06 0 a.toNat)
      | _, _ => none

/-! ### Messages and the ends of operations (R168, R189, R190) -/

/-- A message of an engine of the core in focus. -/
def State.engMsg (s : State) (type cause : Nat) (label : Label) (optag : Word) (payload : Nat) : Msg :=
  { type := BitVec.ofNat 8 type, src := endpointOf s.d.fabric.device s.c.id, cause := BitVec.ofNat 8 cause, label, optag,
    payload := BitVec.ofNat 128 payload }

/-- The engine fault message (R190). -/
def State.faultMsg (s : State) (e : Engine) (cause : Nat) (label : Label) (optag : Word) (word : Nat) : Msg :=
  s.engMsg 4 cause label optag (Engine.index e + word * 2 ^ 64)

/-- Changes the forked program of an engine of a task. -/
def Task.modProg (t : Task) (e : Engine) (f : Prog → Prog) : Task :=
  { t with anchor := t.anchor.map (fun x => x.setProg e ((x.prog e).map f)) }

/-- A program's word has ended without a fault: the next one may start, and after the last the program has ended. -/
def Prog.wordOver (p : Prog) : Prog := { p with running := false, ended := p.ended || decide (p.words.length ≤ p.next) }
/-- A fault ends a program; its reservation carries the message. -/
def Prog.fail (p : Prog) : Prog := { p with running := false, ended := true, holds := false }

/-- The end of an operation of the core in focus. `own` is the message that it ends with by itself, if any; `holds` says that
it has a reservation of its own. A fault of a program's word places the TYPE 4 message alone. -/
def State.opEnds (s : State) (e : Engine) (tid : Tid) (o : Origin) (holds : Bool) (cause : Nat) (label : Label)
    (own : Option Msg) : State :=
  if cause ≠ 0 ∧ o.prog then
    let s := s.modTask tid (fun t => let t := t.modProg e Prog.fail; if holds then t.freeResv else t)
    s.notify s.c.id tid (s.faultMsg e cause label o.optag o.word)
  else
    let s := if o.prog then s.modTask tid (fun t => t.modProg e Prog.wordOver) else s
    match own with
    | some m => s.notify s.c.id tid m
    | none =>
      if cause ≠ 0 then s.notify s.c.id tid (s.faultMsg e cause label o.optag 0)
      else if holds then s.modTask tid Task.freeResv else s

/-! ### What earlier operations will leave (R431) -/

/-- The accumulator tag of a matrix format (R234). -/
def accTag (f : FTag) : FTag := if f = .int8 then .int32 else .fp32

/-- What the operations of a task that are accepted and have not ended do to the tag of a tile: their names with the tags
they set. -/
def State.tagSetters (s : State) (tid : Tid) (tile : BitVec 3) : List (Nat × FTag) :=
  (s.c.mx.filter (fun o => o.owner == tid && o.remote.isNone && o.tile == tile)).filterMap (fun o =>
    match o.zero with
    | some f => some (o.id, f)
    | none => if o.zfirst then some (o.id, accTag o.fmt) else none) ++
  (s.c.srt.filter (fun o => o.owner == tid && (o.tile == tile || o.tile + 1 == tile))).filterMap (fun o =>
    match o.kind with
    | .load _ _ _ => some (o.id, .keys)
    | _ => none)

/-- The last of them. -/
def lastSetter : List (Nat × FTag) → Option (Nat × FTag)
  | [] => none
  | x :: r => match lastSetter r with
    | none => some x
    | some y => if x.1 < y.1 then some y else some x

/-- The tag that a tile will have, and the operation on whose effect it rests: the last setter, unless the tag would be the same
without it. -/
def State.futureTag (s : State) (tid : Tid) (tile : BitVec 3) : FTag × Option Nat :=
  let l := s.tagSetters tid tile
  match lastSetter l with
  | some (id, f) =>
    let before := (lastSetter (l.filter (fun x => x.1 != id))).elim (s.tile tile).fmt (·.2)
    (f, if before = f then none else some id)
  | none => ((s.tile tile).fmt, none)

/-- An operation that ends on a fault dooms those accepted on the strength of its effect. -/
def State.doom (s : State) (id : Nat) : State :=
  { s with c := { s.c with
      mx := s.c.mx.map (fun (o : MxOp) => if o.needs = some id then { o with doomed := true } else o),
      srt := s.c.srt.map (fun (o : SortOp) => if o.needs = some id then { o with doomed := true } else o) } }

/-- Puts a tile of the core in focus. -/
def State.setTile (s : State) (t : BitVec 3) (x : Tile) : State :=
  { s with c := { s.c with tiles := s.c.tiles.setIfInBounds t.toNat x } }

/-! ### Direct issue (R90, R189, R237) -/

/-- Runs a directly issued engine form once no forked program of its engine runs, after the release at scope engines. -/
def State.engIssue (s : State) (e : Engine) (k : State → State) : State :=
  if s.t.anchor.any (fun x => (x.prog e).any (fun p => !p.ended)) then s.park (.engine e)
  else s.release .eng k

end Sys2Proof.Machine
end

