-- ==== Sys2Proof/Machine/Matrix.lean ====
section
/-! DEFINITION. The matrix array (R232 to R240): the descriptor, acceptance, the k-step, the queue and remote commands. -/

namespace Sys2Proof.Machine

/-! ### The descriptor (R232, R233) -/

/-- Bytes of an element, none for a block-quantised format. -/
def mxElem : FTag → Option Nat
  | .fp32 => some 4
  | .bf16 | .fp16 => some 2
  | .int8 => some 1
  | _ => none

/-- The matrix formats by their codes. -/
def mxFmt : Nat → Option FTag
  | 1 => some .fp32 | 2 => some .bf16 | 3 => some .fp16 | 8 => some .int8 | 9 => some .bq7 | 10 => some .bq4 | 11 => some .bq2
  | _ => none

/-- Bytes of one k-step of a row: sixteen elements, or the mantissa field of a block. -/
def stepBytes (f : FTag) : Nat :=
  match mxElem f, bqParams f with
  | some b, _ => 16 * b
  | none, some (n, _, _) => 2 * (n + 1)
  | none, none => 0

/-- Whether a format is block-quantised. -/
def isBq (f : FTag) : Bool := (bqParams f).isSome

/-- Bytes of one k-step of a row in a pipe: a block travels with its scale record (R245). -/
def pipeStep (f : FTag) : Nat := stepBytes f + (if isBq f then 2 else 0)

/-- The alignment of rows, columns and scale records. -/
def mxAlign (f : FTag) : Nat := (mxElem f).getD 2

/-- Array cycles of a k-step (R235). -/
def stepCycles : FTag → Nat
  | .bq2 => 4 | .bq4 => 8 | .fp32 => 64
  | _ => 16

/-- A descriptor as its fields stand, from its 64 bytes and the tags of its granules. -/
def descOf (n : Nat) (atag btag : Bool) (label : Label) (s : State) (o : Origin) (tile : BitVec 3) (fmt : FTag) : MxOp :=
  { id := s.engId, owner := s.t.tid, job := s.t.job, launch := s.t.launch, level := BitVec.ofNat 2 s.t.level, tile,
    acap := { bits := BitVec.ofNat 128 (bitsOf n 0 128), tag := atag, label },
    bcap := { bits := BitVec.ofNat 128 (bitsOf n 128 128), tag := btag, label },
    astride := bitsOf n 256 32, bstride := bitsOf n 288 32, asstride := bitsOf n 320 32, bsstride := bitsOf n 352 32,
    asoff := signed 32 (bitsOf n 384 32), bsoff := signed 32 (bitsOf n 416 32), fmt, asrc := bitsOf n 478 1 == 1,
    bsrc := bitsOf n 479 1 == 1, ksteps := bitsOf n 448 13, kd := 0, zfirst := bitsOf n 480 1 == 1, zero := none, lab := label,
    prio := s.t.prio, eff := s.t.prio, age := s.d.cycle, pc := o.pc, optag := o.optag, prog := o.prog, word := o.word,
    holds := false, remote := none, answer := none, begun := false, running := false, suspended := false, needs := none, doomed := false }

/-- Whether the reserved fields of a descriptor are as R232 asks. -/
def descOk (n : Nat) (m : MxOp) : Bool :=
  bitsOf n 481 31 == 0 && bitsOf n 461 13 == 0 && decide (1 ≤ m.ksteps) && decide (m.ksteps ≤ 4096) &&
  ((isBq m.fmt && !m.asrc) || (m.asoff == 0 && m.asstride == 0)) &&
  ((isBq m.fmt && !m.bsrc) || (m.bsoff == 0 && m.bsstride == 0)) &&
  (!m.asrc || m.acap.bits == 0) && (!m.bsrc || m.bcap.bits == 0)

/-- The first failing check of the 64 rows of an operand at a stride. -/
def State.operandRows (s : State) (cap : Val) (start : Int) (stride n align : Nat) (need : Option Win) : Option Raised :=
  (rangeFrom 0 64).findSome? (fun i => s.engRange cap memSpaces pLD (start + (i * stride : Nat)) n align need)

/-- Check 3 of R234 for one operand from memory. -/
def State.operandBad (s : State) (m : MxOp) (cap : Val) (stride sstride : Nat) (soff : Int) (need : Option Win) :
    Option Raised :=
  let cur : Int := (capCursor cap.bits : Int)
  match s.operandRows cap cur stride (stepBytes m.fmt * m.ksteps) (mxAlign m.fmt) need with
  | some r => some r
  | none => if isBq m.fmt then s.operandRows cap (cur + soff) sstride (2 * m.ksteps) 2 need else none

/-- Check 3 of R234. -/
def State.operandsBad (s : State) (m : MxOp) (need : Option Win) : Option Raised :=
  match if m.asrc then none else s.operandBad m m.acap m.astride m.asstride m.asoff need with
  | some r => some r
  | none => if m.bsrc then none else s.operandBad m m.bcap m.bstride m.bsstride m.bsoff need

/-- Reads the descriptor that a value addresses: check 1 and the fields (R234). -/
def State.readDesc (s : State) (cap : Val) (o : Origin) (tile : BitVec 3) : Except Raised (Nat × MxOp) :=
  let a := capCursor cap.bits
  match s.engRange cap memSpaces (pLD + pLDCAP) (a : Int) 64 64 (some .spad) with
  | some r => .error r
  | none =>
    if s.c.spad.poisoned a 64 then .error (raisedAt 0x18 3 a)
    else
      let n := s.c.spad.mem.read a 64
      match mxFmt (bitsOf n 474 4) with
      | none => .error (0x02, 2, 0)
      | some f =>
        let m := descOf n (s.c.spad.tagAt a) (s.c.spad.tagAt (a + 16)) (s.c.spad.labelOf a 64) s o tile f
        if descOk n m then .ok (n, m) else .error (0x02, 2, 0)

/-! ### Acceptance (R234, R431) -/

/-- The operation that an `mx.mma` or `mx.mmaz` asks for, or its first failing check. -/
def State.mxCheck (s : State) (cap : Val) (o : Origin) (tile : BitVec 3) (zfirst : Bool) : Except Raised MxOp :=
  match s.readDesc cap o tile with
  | .error r => .error r
  | .ok (_, m) =>
    if m.zfirst then .error (0x02, 2, 0)
    else match s.operandsBad m none with
      | some r => .error r
      | none =>
        let (tag, by_) := s.futureTag s.t.tid tile
        if !zfirst && tag != accTag m.fmt then .error (0x03, 0, 0)
        else .ok { m with
          zfirst, lab := m.lab ||| cap.label ||| m.acap.label ||| m.bcap.label ||| s.t.clabel, holds := !o.prog,
          needs := if zfirst then none else by_ }

/-- The operation that an `mx.zero` asks for. -/
def State.zeroCheck (s : State) (v : Val) (o : Origin) (tile : BitVec 3) : Except Raised MxOp :=
  let n := (v.bits.setWidth 64).toNat
  if n ≠ 1 ∧ n ≠ 5 then .error (0x02, 1, 0)
  else
    let m := descOf 0 false false 0 s o tile .fp32
    .ok { m with zero := some (if n = 1 then .fp32 else .int32), lab := v.label ||| s.t.clabel }

/-- Accepts an operation into the queue; acceptance raises the control label by the labels read. -/
def State.mxAccept (s : State) (m : MxOp) : State :=
  let s := s.raiseLabel m.lab
  { s with c := { s.c with mx := s.c.mx ++ [m] }, d := { s.d with nextOp := s.d.nextOp + 1 } }

/-- Whether the queue is full. -/
def State.mxFull (s : State) : Bool := decide (16 ≤ s.c.mx.length)

/-- A directly issued matrix form. -/
def State.mxDirect (s : State) (sw : Bool) (a : SReg) (tile : BitVec 3) (resv : Nat)
    (check : State → Except Raised MxOp) : State :=
  s.issueNone Accept.none [a] (fun s => s.withAnchor (fun x =>
    if !(x.holds tile) then s.raise 0x01
    else s.engIssue .matrix (fun s =>
      if s.mxFull then s.park (.engine .matrix)
      else match check s with
        | .error (c, detail, v) => s.raise c detail v
        | .ok m => s.reserve resv (fun s => (s.mxAccept m).finish sw))))

/-- `mx.mma` (R234, R235). -/
def execMxMma (sw : Bool) (a : SReg) (tile : BitVec 3) (s : State) : Out :=
  .next (s.mxDirect sw a tile 1 (fun s => s.mxCheck (s.rd a) s.direct tile false))

/-- `mx.mmaz` (R234, R235). -/
def execMxMmaz (sw : Bool) (a : SReg) (tile : BitVec 3) (s : State) : Out :=
  .next (s.mxDirect sw a tile 1 (fun s => s.mxCheck (s.rd a) s.direct tile true))

/-- `mx.zero` (R234): it takes no reservation. -/
def execMxZero (sw : Bool) (a : SReg) (tile : BitVec 3) (s : State) : Out :=
  .next (s.mxDirect sw a tile 0 (fun s => s.zeroCheck (s.rd a) s.direct tile))

/-! ### The queue (R237, R340) -/

/-- The tenant whose engine balance an operation uses, and whether it is held. -/
def State.engHeld (s : State) (launch : Nat) : Bool := s.c.held .engine (s.d.tenantOf launch)

/-- Whether an entry may run: not awaiting notice, its tenant not held, and first on its tile. -/
def State.mxEligible (s : State) (m : MxOp) : Bool :=
  !m.suspended && !(s.engHeld m.launch) && !(s.c.mx.any (fun o => o.tile == m.tile && decide (o.id < m.id)))

/-- The entry of highest effective priority, and among equals the one accepted first. -/
def bestMx : List MxOp → Option MxOp
  | [] => none
  | m :: r => match bestMx r with
    | none => some m
    | some b => if m.eff.toNat < b.eff.toNat ∨ (m.eff = b.eff ∧ b.id < m.id) then some b else some m

/-- The entry that the array runs next: the running one, unless a waiting one exceeds it. -/
def State.mxChoice (s : State) : Option MxOp :=
  let able := s.c.mx.filter s.mxEligible
  match able.find? (·.running), bestMx able with
  | some r, some b => if r.eff.toNat < b.eff.toNat then some b else some r
  | none, b => b
  | r, none => r

/-- Changes an entry of the queue. -/
def State.modMx (s : State) (id : Nat) (f : MxOp → MxOp) : State :=
  { s with c := { s.c with mx := s.c.mx.map (fun o => if o.id = id then f o else o) } }

/-- The chosen entry runs; one that ran before waits anew from this cycle. -/
def State.mxStart (s : State) (id : Nat) : State :=
  let now := s.d.cycle
  { s with c := { s.c with mx := s.c.mx.map (fun (o : MxOp) =>
      if o.id = id then { o with running := true, eff := o.prio }
      else if o.running then { o with running := false, age := now } else o) } }

/-! ### The k-step (R69, R235, R236) -/

/-- The context of an operation. -/
def MxOp.ctx (m : MxOp) : EngCtx :=
  { tid := m.owner, job := m.job, level := m.level.toNat, launch := m.launch, pc := m.pc, eng := .matrix }
def MxOp.origin (m : MxOp) : Origin := { pc := m.pc, optag := m.optag, prog := m.prog, word := m.word }

/-- The bytes of one row's k-step: the elements or mantissas, and the scale record. -/
abbrev RowStep := Nat × Nat

/-- Reads the k-step of each row of an operand from memory. A poisoned piece ends the operation (R357). -/
def State.readRows (s : State) (x : EngCtx) (m : MxOp) (cur : Int) (stride : Nat) (scur : Int) (sstride : Nat) :
    List Nat → Except EngStop (List RowStep × Label) × State
  | [] => (.ok ([], 0), s)
  | i :: r =>
    let n := stepBytes m.fmt
    match s.engRead x false (cur + (i * stride + m.kd * n : Nat)).toNat n with
    | (.error e, s) => (.error e, s)
    | (.ok b, s) =>
      if !b.bad.isEmpty then (.error (.fault 0x18 b.place), s)
      else
        let sc : Except EngStop EngBytes × State :=
          if isBq m.fmt then s.engRead x false (scur + (i * sstride + 2 * m.kd : Nat)).toNat 2 else (.ok EngBytes.none, s)
        match sc with
        | (.error e, s) => (.error e, s)
        | (.ok k, s) =>
          if !k.bad.isEmpty then (.error (.fault 0x18 k.place), s)
          else match s.readRows x m cur stride scur sstride r with
            | (.error e, s) => (.error e, s)
            | (.ok (l, lab), s) => (.ok ((b.v, k.v) :: l, b.label ||| k.label ||| lab), s)

/-- The k-step of each row of an operand at the front of a pipe: rows lie one after another; it waits while bytes are missing, and a
poisoned byte ends the operation (R245, R357). -/
def pipeRows (m : MxOp) (p : List PipeByte) : Except EngStop (List RowStep × Label) :=
  let row := pipeStep m.fmt * m.ksteps
  let mant := stepBytes m.fmt
  let bq := isBq m.fmt
  -- a row's mantissa field is followed by its scale records
  let last := if bq then mant * m.ksteps + 2 * (m.kd + 1) else mant * (m.kd + 1)
  if p.length < 63 * row + last then .error .wait
  else
    let piece (i lo k : Nat) : List PipeByte := (p.drop (i * row + lo)).take k
    let parts := (rangeFrom 0 64).map (fun i =>
      (piece i (mant * m.kd) mant, if bq then piece i (mant * m.ksteps + 2 * m.kd) 2 else []))
    if parts.any (fun x => (x.1 ++ x.2).any (·.bad)) then .error (.fault 0x18 0)
    else .ok (parts.map (fun x => (ofBytes (x.1.map (·.val)), ofBytes (x.2.map (·.val)))), (p.take (64 * row)).foldl (fun l b => l ||| b.label) 0)

/-- The k-step of each row of operand A, or of each column of operand B. -/
def State.operandStep (s : State) (m : MxOp) (bSide : Bool) : Except EngStop (List RowStep × Label) × State :=
  if (if bSide then m.bsrc else m.asrc) then
    let p := match (s.taskOf m.owner).bind (·.anchor) with
      | some x => if bSide then x.pipeB else x.pipeA
      | none => []
    (pipeRows m p, s)
  else
    let cap := if bSide then m.bcap else m.acap
    let cur : Int := (capCursor cap.bits : Int)
    s.readRows m.ctx m cur (if bSide then m.bstride else m.astride) (cur + if bSide then m.bsoff else m.asoff)
      (if bSide then m.bsstride else m.asstride) (rangeFrom 0 64)

/-- The sixteen operands of a row's k-step as numbers. -/
def stepNums (f : FTag) (r : RowStep) : List Num :=
  match bqParams f with
  | some (n, _, _) => let b := blockOf n r.1 r.2; (rangeFrom 0 16).map (b.value n)
  | none =>
    let F := match f with | .fp32 => FFmt.fp32 | .bf16 => FFmt.bf16 | _ => FFmt.fp16
    (rangeFrom 0 16).map (fun k => F.decode (bitsOf r.1 (F.width * k) F.width))

/-- The sixteen INT8 operands of a row's k-step. -/
def stepInts (r : RowStep) : List Int := (rangeFrom 0 16).map (fun k => signed 8 (bitsOf r.1 (8 * k) 8))

/-- An accumulator after a k-step. -/
def accumulate (f : FTag) (acc : Nat) (a b : RowStep) : Nat :=
  if f = .int8 then kstepInt acc (stepInts a) (stepInts b) else kstepFloat (!isBq f) acc (stepNums f a) (stepNums f b)

/-- A tile after a k-step: every element of every row. -/
def stepRows (f : FTag) (rows : Vector Row 64) (a b : List RowStep) : Vector Row 64 :=
  Vector.ofFn (fun (i : Fin 64) =>
    let row := rows[i]
    rowOf 32 64 (fun j => accumulate f (lane row 32 j) (a[i.val]?.getD (0, 0)) (b[j]?.getD (0, 0))))

/-- The message that a remote command ends with (R240). -/
def State.commandMsg (s : State) (m : MxOp) (cause : Nat) : Msg :=
  s.engMsg 2 cause m.lab m.pc (m.kd + m.tile.toNat * 2 ^ 16)

/-- Ends an operation of the queue with a cause, or without one. -/
def State.mxEnds (s : State) (m : MxOp) (cause : Nat) : State :=
  let s := { s with c := { s.c with mx := s.c.mx.filter (fun o => o.id != m.id) } }
  let s := if cause = 0 then s else s.doom m.id
  if m.remote.isSome || m.answer.isSome then { s with d := s.d.endCommand s.c.id cause m }
  else s.opEnds .matrix m.owner m.origin m.holds cause m.lab none

/-- The tile as `mx.zero` and the start of a zeroing product leave it (R234, R235, R357). -/
def zeroTile (f : FTag) (label : Label) : Tile := { rows := Vector.replicate 64 0, fmt := f, label, poison := 0 }

/-- Takes the operands of a completed operation off the pipes. -/
def Anchor.takePipes (x : Anchor) (m : MxOp) : Anchor :=
  let n := 64 * (pipeStep m.fmt * m.ksteps)
  { x with pipeA := if m.asrc then x.pipeA.drop n else x.pipeA, pipeB := if m.bsrc then x.pipeB.drop n else x.pipeB }

/-- A running entry whose tenant is held is suspended at the end of its k-step, and waits from then on (R237, R340). -/
def State.mxPause (s : State) : State :=
  { s with c := { s.c with mx := s.c.mx.map (fun (o : MxOp) =>
      if o.running && s.engHeld o.launch then { o with running := false, age := s.d.cycle } else o) } }

/-- One k-step of an operation whose operands have been read. -/
def State.mxApply (s : State) (m : MxOp) (a b : List RowStep) (lab : Label) : State :=
  let tile := s.tile m.tile
  let lab := m.lab ||| lab
  let m' := { m with kd := m.kd + 1, lab }
  let s := s.setTile m.tile { tile with rows := stepRows m.fmt tile.rows a b, label := tile.label ||| lab }
  let s := (s.modMx m.id (fun _ => m')).count 10
  let s := (s.charge .engine (s.d.tenantOf m.launch) (stepCycles m.fmt)).soloChunk m.job (s.taskOf m.owner) 2 0
  if m.ksteps ≤ m'.kd then
    (s.modTask m.owner (fun t => { t with anchor := t.anchor.map (fun x => x.takePipes m) })).mxEnds m' 0
  else s.mxPause

/-- What a stopped fetch leads to (R236). A handler starts under the control label of the owning task, for a remote command under the
label that it carries (R240). -/
def State.mxStop (s : State) (m : MxOp) (e : EngStop) : State :=
  let lab := if m.remote.isSome || m.answer.isSome then m.lab else s.ownLabel m.owner m.lab
  match s.engStopped m.ctx lab e with
  | (.later, s) => s
  | (.suspend, s) => s.modMx m.id (fun o => { o with suspended := true, running := false, age := s.d.cycle })
  | (.ended c, s) => (s.dropPeers .matrix).mxEnds m c

/-- Runs the k-step of an operation that has begun. -/
def State.mxStep (s : State) (m : MxOp) : State :=
  if (s.tile m.tile).poison ≠ 0 then s.mxEnds m 0x18
  else match s.operandStep m false with
    | (.error e, s) => s.mxStop m e
    | (.ok (a, la), s) => match s.operandStep m true with
      | (.error e, s) => s.mxStop m e
      | (.ok (b, lb), s) => (s.dropPeers .matrix).mxApply m a b (la ||| lb)

/-- An operation begins: one accepted on the strength of an operation that failed ends (R431); a zeroing one zeroes its tile. -/
def State.mxBegin (s : State) (m : MxOp) : State :=
  if m.doomed || (m.zero.isNone && !m.zfirst && m.remote.isNone && m.answer.isNone && (s.tile m.tile).fmt != accTag m.fmt) then s.mxEnds m 0x03
  else match m.zero with
    | some f => (s.setTile m.tile (zeroTile f m.lab)).mxEnds m 0
    | none =>
      let s := if m.zfirst then s.setTile m.tile (zeroTile (accTag m.fmt) 0) else s
      let m := { m with begun := true, running := true, eff := m.prio }
      (s.modMx m.id (fun _ => m)).mxStep m

/-- `MATRIX_KSTEP` (R235 to R237). -/
def execMatrixKstep (core : CoreId) (s : State) : Out :=
  .next (let f := (s.focus core).mxPause
    match f.mxChoice with
    | none => f
    | some m =>
      if !(f.soloFree m.job ((f.taskOf m.owner).map (·.tidReg)) 2) then s
      else
        let f := (if m.remote.isSome || m.answer.isSome then f else f.giveSpad m.job).mxStart m.id
        let m := { m with running := true, eff := m.prio }
        if m.begun then f.mxStep m else f.mxBegin m)

/-- A waiting entry after 4,096 cycles more; the wait of a held tenant's entry does not count (R237, R340). -/
def State.mxAged (s : State) (m : MxOp) : MxOp :=
  if m.running then m
  else if s.engHeld m.launch then m
  else if m.age + 4096 ≤ s.d.cycle then { m with age := m.age + 4096, eff := if m.eff = 7 then 7 else m.eff + 1 } else m

/-- `MATRIX_QUEUE_AGEING` (R237). -/
def execMatrixQueueAgeing (core : CoreId) (s : State) : Out :=
  .next (let f := s.focus core
    { f with c := { f.c with mx := f.c.mx.map f.mxAged } })

/-! ### Remote commands (R239, R240) -/

/-- The checks of a command right: its target core's endpoint. R239 names no cause for an endpoint of another kind: DESIGN CHOICE (log
entry 125), *reserved field*, as for the other bits of the cursor. -/
def commandRight (v : Val) (tile : BitVec 3) : Except Raised Endpoint :=
  let cur := capCursor v.bits
  let at_ : Int := ((cur + tile.toNat : Nat) : Int)
  match checkCap v [6] pCMD with
  | some c => .error (raisedAt c 0 (cur + tile.toNat))
  | none =>
    let ep : Endpoint := BitVec.ofNat 24 (cur / 8)
    if cur % 8 ≠ 0 ∨ 2 ^ 27 ≤ cur ∨ Endpoint.kind ep ≠ 0 then .error (0x02, 1, 0)
    else if !(inBounds v at_ 1) then .error (raisedAt 0x05 0 (cur + tile.toNat))
    else .ok ep

/-- The command that an `mxc.send` carries: both capabilities have GLOBAL and address the global window. -/
def State.commandCheck (s : State) (right desc : Val) (tile pri : BitVec 3) : Except Raised MxOp :=
  match s.readDesc desc s.direct tile with
  | .error r => .error r
  | .ok (_, m) =>
    if m.asrc || m.bsrc then .error (0x02, 2, 0)
    else match s.operandsBad m (some .glob) with
      | some r => .error r
      | none =>
        if !(hasPerm m.acap.bits pGLOBAL) || !(hasPerm m.bcap.bits pGLOBAL) then .error (0x06, 0, 0)
        else
          let lab := m.lab ||| right.label ||| desc.label ||| m.acap.label ||| m.bcap.label ||| s.t.clabel
          .ok { m with lab, prio := pri, eff := pri, remote := some s.c.id }

/-- `mxc.send` (R239). -/
def execMxcSend (sw : Bool) (a b : SReg) (tile pri : BitVec 3) (s : State) : Out :=
  .next (s.issueNone Accept.none [a, b] (fun s =>
    match commandRight (s.rd a) tile with
    | .error (c, detail, v) => s.raise c detail v
    | .ok ep => match s.commandCheck (s.rd a) (s.rd b) tile pri with
      | .error (c, detail, v) => s.raise c detail v
      | .ok m =>
        let own := Endpoint.dev ep == s.d.fabric.device
        s.release (if own then .part else .pod) (fun s => s.reserve 1 (fun s =>
          let (id, s) := s.newOp
          let o : PendOp := { (s.ackOp id) with clabel := m.lab, kind := if own then .ack else .command ep tile m.ksteps }
          let desc := toBytes 64 (s.c.spad.mem.read (capCursor (s.rd b).bits) 64) ++ toBytes 8 (tile.toNat + 16 * pri.toNat)
          let (o, s) := if own then (o, s) else s.toPeer (Endpoint.dev ep) s.t.job o (askEndpoint 8 ep m.lab desc)
          let s := (s.raiseLabel m.lab).addOp o
          (if own then s.send (Endpoint.core ep) (.matrix s.t.tid id m) else s).finish sw))))

def MsgKind.isMatrix : MsgKind → Bool
  | .matrix _ _ _ => true
  | _ => false

/-- The cause with which the core in focus refuses a command; 0 when it accepts. -/
def State.commandRefuses (s : State) (m : MxOp) : Nat :=
  let owns (t : Task) : Bool := t.job == m.job && t.anchor.any (fun x => x.holds m.tile)
  if s.c.fenced then 0x12
  else if s.whole.tasks.any (fun p => owns p.2) then (if s.mxFull then 0x0E else 0)
  else if s.d.saved.any (fun v => v.core == s.c.id && owns v.task) then 0x12 else 0x06

/-- `MATRIX_COMMAND` (R240): the command is acknowledged; a refusal is the message that would end it. -/
def execMatrixCommand (core : CoreId) (src : Endpoint) (s : State) : Out :=
  .next (match s.takeFrom core src MsgKind.isMatrix with
    | some (.matrix _ op m, f) =>
      let f := (f.hearthDone m.job src).setStage (Endpoint.core src) op (.executed (plainResult 0 0))
      let c := f.commandRefuses m
      if c ≠ 0 then f.notify (Endpoint.core src) m.owner (f.commandMsg m c)
      else
        let (id, f) := f.newOp
        { f with c := { f.c with mx := f.c.mx ++ [{ m with id, age := f.d.cycle }] } }
    | _ => s)

end Sys2Proof.Machine
end

