-- ==== Sys2Proof/Machine/System.lean ====
section
/-! DEFINITION. System registers, traps, translation invalidation, the debug instructions and the maintenance ports
(R284 to R300). -/

namespace Sys2Proof.Machine

/-! ### The registers (R284) -/

/-- The scopes of R284. -/
inductive SysScope where
  | task | core | job | part
  deriving DecidableEq, Repr

def sysScope : SysReg → SysScope
  | .tsw | .tlevel | .utvec | .uepc | .ucause | .uval => .task
  | .dqBase | .dqLimit | .dqBot | .dqTop | .jsel | .barown | .cycle | .coreId | .notice => .core
  | .jobid | .jscap | .upentry | .udeleg | .pt1root | .asid | .pt2root | .vmid => .job
  | .stvec | .sdeleg | .htvec | .hdeleg | .mtvec => .part

/-- The level that a read needs. -/
def sysReadLevel : SysReg → Nat
  | .jsel | .barown | .notice | .pt1root | .asid | .stvec | .sdeleg => 1
  | .pt2root | .vmid | .htvec | .hdeleg => 2
  | .mtvec => 3
  | _ => 0

/-- The level that a write needs. -/
def sysWriteLevel : SysReg → Nat
  | .tsw | .utvec | .uepc | .ucause | .uval => 0
  | .sdeleg | .pt2root | .vmid | .htvec => 2
  | .tlevel | .hdeleg | .mtvec => 3
  | _ => 1

/-- The job that job-scope accesses reach: that of JSEL, and the task's own below supervisor level; none when JSEL names no
job that the task may select. -/
def State.sysJob (s : State) : Option (BitVec 16) :=
  if s.t.level = 0 then some s.t.job
  else
    let j : BitVec 16 := s.c.jsel.setWidth 16
    let known := if s.t.level = 1 then s.d.jobOf s.part j else (rangeFrom 0 4).any (fun p => s.d.jobOf (BitVec.ofNat 2 p) j)
    if s.c.jsel.toNat < 65536 ∧ known then some j else none

/-- The value of a register, for the job selected. -/
def State.sysGet (s : State) (r : SysReg) (job : BitVec 16) : Val :=
  let j := s.c.jobRegs job
  let p := s.d.partState s.part
  let w (v : Word) : Val := wordVal v 0
  match r with
  | .tsw => w s.t.tsw
  | .tlevel => w s.t.tlevel
  | .utvec => w s.t.utvec
  | .uepc => w s.t.uepc
  | .ucause => w s.t.ucause
  | .uval => w s.t.uval
  | .dqBase => w s.c.dqBase
  | .dqLimit => w s.c.dqLimit
  | .dqBot => w s.c.dqBot
  | .dqTop => w s.c.dqTop
  | .jsel => w s.c.jsel
  | .barown => w s.c.barown
  | .cycle => w (BitVec.ofNat 64 s.d.cycle)
  | .coreId => w ((endpointOf s.d.fabric.device s.c.id).setWidth 64)
  | .notice => w s.c.noticeReg
  | .jobid => w (job.setWidth 64)
  | .jscap => j.jscap
  | .upentry => w j.upentry
  | .udeleg => w j.udeleg
  | .pt1root => w j.pt1root
  | .asid => w j.asid
  | .pt2root => w j.pt2root
  | .vmid => w j.vmid
  | .stvec => w p.stvec
  | .sdeleg => w p.sdeleg
  | .htvec => w p.htvec
  | .hdeleg => w p.hdeleg
  | .mtvec => w (s.d.boot.mtvec[(CoreId.die s.c.id).toNat]?.getD 0)

/-! ### Field rules (R11, R283, R288, R290, R296, R297, R301) -/

/-- The causes that UDELEG may hold. -/
def udelegMask : Nat := [0x03, 0x05, 0x08, 0x0D, 0x0E, 0x0F, 0x10, 0x14, 0x15, 0x17].foldl (fun m i => m + 2 ^ i) 0
/-- The causes 1 to 25. -/
def delegMask : Nat := 2 ^ 26 - 2

/-- Whether a value keeps to the bits of a mask. -/
def within (v : Word) (mask : Nat) : Bool := v.toNat &&& mask == v.toNat

/-- Whether a deque bound may take a value, judged against the other bound. -/
def Core.dqValid (c : Core) (limit : Bool) (v : Word) : Bool :=
  bitsOf v.toNat 0 6 == 0 && decide (v.toNat ≤ 0x100000) && (if limit then decide (c.dqBase ≤ v) else decide (v ≤ c.dqLimit))

/-- Whether a new value keeps a register's field rules. -/
def State.sysValid (s : State) (r : SysReg) (v : Word) : Bool :=
  match r with
  | .tsw => bitsOf v.toNat 22 42 == 0 && bitsOf v.toNat 15 2 < 2
  | .tlevel => bitsOf v.toNat 4 60 == 0
  | .dqBase => s.c.dqValid false v
  | .dqLimit => s.c.dqValid true v
  | .barown => bitsOf v.toNat 32 32 == 0 && bitsOf v.toNat 6 10 == 0
  | .notice => bitsOf v.toNat 48 16 == 0
  | .ucause => bitsOf v.toNat 11 21 == 0
  | .udeleg => within v udelegMask
  | .sdeleg => within v (delegMask - 2 ^ 25)
  | .hdeleg => within v delegMask
  | .pt1root => bitsOf v.toNat 0 12 == 0 && bitsOf v.toNat 56 8 == 0
  | .pt2root => bitsOf v.toNat 0 12 == 0 && bitsOf v.toNat 48 16 == 0
  | .asid | .vmid => bitsOf v.toNat 16 48 == 0
  | _ => true

/-! ### Writes with further effects -/

/-- A write of a deque bound: permission is refused while the deque holds records, and both indices become 0 (R288). -/
def State.writeDq (s : State) (limit : Bool) (v : Word) : Option State :=
  if s.c.dqBot ≠ s.c.dqTop then none
  else
    let c := if limit then { s.c with dqLimit := v } else { s.c with dqBase := v }
    some { s with c := { c with dqBot := 0, dqTop := 0, dqMeta := [] } }

/-- A write of BAROWN: the object must have no members (R297). -/
def State.writeBarown (s : State) (v : Word) : Option State :=
  let cluster := CoreId.cluster s.c.id
  let obj := BitVec.ofNat 6 v.toNat
  if (s.d.barrier cluster obj).members ≠ 0 then none
  else
    let b : BarObj := {
      cluster, obj, owner := BitVec.ofNat 16 (bitsOf v.toNat 16 16), members := 0, arrived := 0, phase := 0, plabel := 0,
      labels := [] }
    some { s with c := { s.c with barown := v }, d := s.d.setBarrier b }

/-- Does something at a task of the core in focus and returns to the task at the port. -/
def State.atTask (s : State) (tid : Tid) (f : State → State) : State :=
  match s.slotOf tid with
  | none => s
  | some n => if n = s.c.port.toNat ∧ !s.t.onHearth then f s else (f (s.takeSlot n)).takeSlot s.c.port.toNat

/-- Resumes the engine work of a task that awaits notice (R236). -/
def Anchor.resume (x : Anchor) : Anchor :=
  let go (p : Option Prog) : Option Prog := p.map (fun (q : Prog) => { q with suspended := false })
  { x with mprog := go x.mprog, cprog := go x.cprog, sprog := go x.sprog }
def Task.resumeEngines (t : Task) : Task := { t with anchor := t.anchor.map Anchor.resume }
/-- A matrix operation goes on at a notice that names the task that issued it (R236), or, for a remote command, the task that owns its
tile (R240). -/
def resumeMx (tid : Tid) (tiles : BitVec 8) (o : MxOp) : MxOp :=
  if o.owner == tid || ((o.remote.isSome || o.answer.isSome) && tiles.getLsbD o.tile.toNat)
  then { o with suspended := false } else o
def resumeCp (tid : Tid) (o : CpOp) : CpOp := if o.owner = tid then { o with suspended := false } else o

/-- A saved task to which a notice comes: its engine work goes on when it returns, and if it waits the notice is kept in the
context, whose STATE word shows it (R296, R332). -/
def State.noticeSaved (s : State) (tid : Tid) : State :=
  match s.d.saved.find? (fun v => v.task.tid == tid && v.core == s.c.id) with
  | none => s
  | some v =>
    let waits := v.awaiting || v.task.status == .parked .notice
    let v' : Saved := { v with
      task := { v.task.resumeEngines with noticed := v.task.noticed || waits }, mxops := v.mxops.map (resumeMx tid 0xFF),
      cpops := v.cpops.map (resumeCp tid) }
    let st := s.d.gmem.mem.read (v.area + 380) 4
    let d := if waits && bitsOf st 3 1 == 0 then s.d.putArea (v.area + 380) (toBytes 4 (st + 8)) else s.d
    { s with d := { d with saved := d.saved.map (fun w => if w.area = v.area then v' else w) } }

/-- The commands of a task that are saved with another's context on the core go on when they return (R236, R238). -/
def State.noticeCommands (s : State) (tid : Tid) : State :=
  { s with d := { s.d with saved := s.d.saved.map (fun (v : Saved) =>
      if v.core = s.c.id then { v with mxops := v.mxops.map (resumeMx tid 0) } else v) } }

/-- A completion notice to the task of the core that a TID names (R236, R296): one that awaits it consumes the message and
is ready again. -/
def State.giveNotice (s : State) (tid : Tid) : State :=
  let tiles := ((s.whole.tasks.find? (fun p => p.2.tid == tid)).bind (·.2.anchor)).elim 0 (·.tiles)
  let s := { s with c := { s.c with mx := s.c.mx.map (resumeMx tid tiles), cp := s.c.cp.map (resumeCp tid) } }
  let held := s.d.fabric.held.map (fun (h : HeldRequest) => if h.name = tid then { h with noticed := true } else h)
  let s := State.noticeCommands { s with d := { s.d with fabric := { s.d.fabric with held } } } tid
  match s.slotOf tid with
  | none => s.noticeSaved tid
  | some _ => s.atTask tid (fun s =>
      let s := { s with t := s.t.resumeEngines }
      if s.t.status = .parked .notice then ({ s with t := s.t.freeResv }).wake else s)

/-- A write of MTVEC reaches every die of the partition (R284, R288). -/
def Device.putMtvec (d : Device) (p : BitVec 2) (w : Word) : Device :=
  { d with boot := { d.boot with mtvec := Vector.ofFn (fun (i : Fin 4) =>
      if d.partOf (BitVec.ofNat 2 i.val) = p then w else d.boot.mtvec[i]) } }

/-- Writes a value of a writable register whose field rules it keeps. The answer is none where permission is refused. -/
def State.sysPut (s : State) (r : SysReg) (job : BitVec 16) (v : Val) : Option State :=
  let w : Word := v.bits.setWidth 64
  let j := s.c.jobRegs job
  let jset (j : JobRegs) : Option State := some { s with c := s.c.setJobRegs j }
  let pset (f : Part → Part) : Option State := some (s.modPart s.part f)
  match r with
  | .tsw => some { s with t := { s.t with tsw := tswWith s.t.tsw w s.t.ceil } }
  | .tlevel => some { s with t := { s.t with tlevel := setBits s.t.tlevel 3 1 (bitsOf w.toNat 3 1) } }
  | .utvec => some { s with t := { s.t with utvec := BitVec.ofNat 64 (w.toNat / 4 * 4) } }
  | .uepc => some { s with t := { s.t with uepc := w } }
  | .ucause => some { s with t := { s.t with ucause := w } }
  | .uval => some { s with t := { s.t with uval := w } }
  | .dqBase => s.writeDq false w
  | .dqLimit => s.writeDq true w
  | .jsel => some { s with c := { s.c with jsel := w } }
  | .barown => s.writeBarown w
  | .notice => some (({ s with c := { s.c with noticeReg := w } }).giveNotice (w.setWidth 48))
  | .jscap => jset { j with jscap := v }
  | .upentry => jset { j with upentry := w }
  | .udeleg => jset { j with udeleg := w }
  | .pt1root => jset { j with pt1root := w }
  | .asid => jset { j with asid := w }
  | .pt2root => jset { j with pt2root := w }
  | .vmid => jset { j with vmid := w }
  | .stvec => pset (fun p => { p with stvec := w })
  | .sdeleg => pset (fun p => { p with sdeleg := w })
  | .htvec => pset (fun p => { p with htvec := w })
  | .hdeleg => pset (fun p => { p with hdeleg := w })
  | .mtvec => some { s with d := s.d.putMtvec s.part w }
  | .dqBot | .dqTop | .cycle | .coreId | .jobid => none

/-! ### The sys forms (R285 to R287) -/

/-- A read of CYCLE: a chunk of its own, whose value is recorded or replayed (R418, R420, R421). -/
def State.readCycle (s : State) : Word × State :=
  let (v, s) := s.ownChunk.replayInput 0 (BitVec.ofNat 64 s.d.cycle)
  (v, (s.recordInput 0 v).commitOwn)

/-- Runs with the selected job and the old value of a register. -/
def State.withSys (s : State) (r : SysReg) (k : BitVec 16 → Val → State → State) : State :=
  if r = .cycle then let (v, s) := s.readCycle; k s.t.job (wordVal v 0) s
  else if sysScope r = .job then
    match s.sysJob with
    | none => s.raise 0x06
    | some job => k job (s.sysGet r job) s
  else k s.t.job (s.sysGet r s.t.job) s

/-- Delivers the old value: tagged for JSCAP alone, under the control label. -/
def State.sysOld (s : State) (sw : Bool) (d : SReg) (old : Val) : State :=
  s.put false d { old with label := s.t.clabel } (fun s => s.finish sw)

/-- The write part of a sys form: the new value is `f` of the old one and G[a]. -/
def State.sysWrite (s : State) (a : SReg) (r : SysReg) (f : Word → Word → Word) (k : Val → State → State) : State :=
  s.withSys r (fun job old s =>
    let v := s.rd a
    let new : Val := if r = .jscap then v else wordVal (f (old.bits.setWidth 64) (v.bits.setWidth 64)) 0
    if r = .jscap && (!v.tag || capSpace v.bits != 3) then s.raise 0x04
    else if !(s.sysValid r (new.bits.setWidth 64)) then s.raise 0x02 1
    else
      let task := sysScope r == .task
      let lab := v.label ||| s.t.clabel
      if !task && lab ≠ 0#16 then s.raise 0x0B (lab.toNat * 65536)
      else match (if task then s.raiseLabel v.label else s).sysPut r job new with
        | none => s.raise 0x06
        | some s => k old s)

/-- `sys.rd` (R285, R286). -/
def execSysRd (sw : Bool) (d : SReg) (reg : SysReg) (s : State) : Out :=
  .next (s.needs [d] (sysReadLevel reg) (fun s => s.issue Accept.none [] d (fun s =>
    s.withSys reg (fun _ old s => s.sysOld sw d old))))

/-- `sys.wr` (R285, R286). -/
def execSysWr (sw : Bool) (a : SReg) (reg : SysReg) (s : State) : Out :=
  .next (s.needs [a] (sysWriteLevel reg) (fun s => s.issueNone Accept.none [a] (fun s =>
    s.sysWrite a reg (fun _ v => v) (fun _ s => s.finish sw))))

/-- `sys.set` (R285, R286). -/
def execSysSet (sw : Bool) (d a : SReg) (reg : SysReg) (s : State) : Out :=
  .next (s.needs [a, d] (sysWriteLevel reg) (fun s => s.issue Accept.none [a] d (fun s =>
    s.sysWrite a reg (fun old v => old ||| v) (fun old s => s.sysOld sw d old))))

/-- `sys.clr` (R285, R286). -/
def execSysClr (sw : Bool) (d a : SReg) (reg : SysReg) (s : State) : Out :=
  .next (s.needs [a, d] (sysWriteLevel reg) (fun s => s.issue Accept.none [a] d (fun s =>
    s.sysWrite a reg (fun old v => old &&& ~~~v) (fun old s => s.sysOld sw d old))))

/-- `sys.xchg` (R285, R286). -/
def execSysXchg (sw : Bool) (d a : SReg) (reg : SysReg) (s : State) : Out :=
  .next (s.needs [a, d] (sysWriteLevel reg) (fun s => s.issue Accept.none [a] d (fun s =>
    s.sysWrite a reg (fun _ v => v) (fun old s => s.sysOld sw d old))))

/-- `BAROWN` (R297): an assignment in the core's cluster unit. -/
def execBarown (core : CoreId) (value : BitVec 64) (s : State) : Out :=
  .next (if s.sysValid .barown value then ((s.focus core).writeBarown value).getD s else s)

/-- `DQ_BASE_LIMIT_WRITE` (R288): a write of one deque bound of a core. -/
def execDqBaseLimitWrite (core : CoreId) (limit : Bool) (value : BitVec 64) (s : State) : Out :=
  .next (let f := s.focus core
    if f.c.dqValid limit value then (f.writeDq limit value).getD s else s)

/-! ### Traps (R293 to R295) -/

/-- `trap.call` (R293, R294): the cause is raised after the unit. -/
def execTrapCall (sw : Bool) (a : SReg) (s : State) : Out :=
  .next (s.issueNone Accept.none [a] (fun s =>
    let v := s.x a
    let next := s.t.pc + 4
    (((s.raiseLabel (s.lab a)).finish sw).raiseAfter next 0x17 0 v)))

/-- The handler at the port ends and its trapped task returns to the slot from its context area. -/
def State.returnFrom (s : State) (area : Nat) : State :=
  let s := (s.closeChunk s.t).endTask
  match s.d.saved.find? (fun v => v.area == area) with
  | some v => (s.restoreTask v).reissue
  | none => s

/-- `trap.ret` (R294): supervisor level, and a trap handler; the handler's writes to the area come first. -/
def execTrapRet (_sw : Bool) (s : State) : Out :=
  .next (s.needs [] 1 (fun s => match s.t.trapped with
    | none => s.raise 0x01
    | some area => s.release .part (fun s => if !s.enginesDone then s.park .ending else s.returnFrom area)))

/-- The handler's group ends: its results are applied and the held state returns (R295). -/
def Task.untrap (t : Task) : Task :=
  let t := t.endGroup
  let t := match t.held with
    | some h => { t with
        buf := h.buf, lost := h.lost, parity := h.parity, l := h.l, anchor := t.anchor.map (fun (a : Anchor) => { a with lv := h.lv }), mark := h.mark,
        midGroup := !h.buf.isEmpty, held := none }
    | none => t
  { t with tlevel := setBits t.tlevel 2 1 0, pc := t.uepc, unitPc := t.uepc, pfxImm := none, pfxMod := none }

/-- `trap.uret` (R295). -/
def execTrapUret (s : State) : Out :=
  .next (s.issueNone Accept.none [] (fun s =>
    if !s.t.ut then s.raise 0x01
    else if !s.t.ops.isEmpty then s.park .order
    else if s.t.rowTiles &&& s.busyTiles ≠ 0 then s.park (.tiles (s.t.rowTiles &&& s.busyTiles))
    else if s.t.parity then ({ s with t := { s.t with buf := [], lost := 0, parity := false } }).raise 0x19
    else
      let tiles := if s.t.anchor.isSome then s.t.buf.foldl applyTile s.c.tiles else s.c.tiles
      let s := ({ s with t := s.t.untrap, c := { s.c with tiles } }).count 3
      if s.chunkOver then s.closeChunk s.t else s))

/-! ### Invalidation (R299, R310, R311) -/

/-- Drops combined entries from every TLB of the partition and from its gateways' caches. -/
def State.dropTlb (s : State) (p : TlbEntry → Bool) : State :=
  let part := s.part
  let keep (l : List TlbEntry) : List TlbEntry := l.filter (fun e => !p e)
  let core (c : Core) : Core := if s.d.partOf (CoreId.die c.id) = part then { c with tlb := keep c.tlb } else c
  let gates := Vector.ofFn (fun (g : Fin 32) =>
    let l := s.d.fabric.gates[g]
    if s.d.partOf (BitVec.ofNat 2 (g.val / 8)) = part then keep l else l)
  { s with c := core s.c, d := { s.d with cores := s.d.cores.map core, fabric := { s.d.fabric with gates } } }

/-- The bytes around an address that a leaf of a level may cover; level 0 counts as 64 KiB, the largest it can belong to. -/
def leafSpan (lvl : Nat) : Nat := if lvl = 0 then 65536 else pageSize lvl

/-- Whether an entry was built from a first-stage leaf that contains a VA. -/
def TlbEntry.first (e : TlbEntry) (va : Nat) : Bool := e.va / leafSpan e.lvl1.toNat == va / leafSpan e.lvl1.toNat
/-- Whether an entry was built from a second-stage leaf that contains an IA. -/
def TlbEntry.second (e : TlbEntry) (ia : Nat) : Bool := e.ia / leafSpan e.lvl2.toNat == ia / leafSpan e.lvl2.toNat

/-- Runs an invalidation: it acts first as a release at scope partition. -/
def State.invalidate (s : State) (sw : Bool) (p : TlbEntry → Bool) : State :=
  s.release .part (fun s => (s.dropTlb p).finish sw)

/-- A tlb form of a level, its registers read and the bits above their fields checked. -/
def State.tlbForm (s : State) (level : Nat) (srcs : List SReg) (ok : State → Bool) (k : State → State) : State :=
  s.needs srcs level (fun s => s.issueNone Accept.none srcs (fun s => if ok s then k s else s.raise 0x02 1))

/-- The VMID of the selected job. -/
def State.withVmid (s : State) (k : BitVec 16 → State) : State :=
  match s.sysJob with
  | none => s.raise 0x06
  | some job => k ((s.c.jobRegs job).vmid.setWidth 16)

/-- Whether a register holds an identifier in [15:0] alone. -/
def idOk (v : Word) : Bool := bitsOf v.toNat 16 48 == 0

/-- Whether a register holds an address below 2^57. -/
def pageOk (v : Word) : Bool := bitsOf v.toNat 57 7 == 0

/-- `tlb.inv1` (R299). -/
def execTlbInv1 (sw : Bool) (a b : SReg) (s : State) : Out :=
  .next (s.tlbForm 1 [a, b] (fun s => pageOk (s.x a) && idOk (s.x b)) (fun s => s.withVmid (fun vmid =>
    let va := s.x a
    let asid := s.x b
    s.invalidate sw (fun e => e.vmid == vmid && e.asid == asid.setWidth 16 && e.first (va.toNat / 4096 * 4096)))))

/-- `tlb.inv2` (R299). -/
def execTlbInv2 (sw : Bool) (a b : SReg) (s : State) : Out :=
  .next (s.tlbForm 2 [a, b] (fun s => pageOk (s.x a) && idOk (s.x b)) (fun s =>
    let ia := s.x a
    let vmid := s.x b
    s.invalidate sw (fun e => e.vmid == vmid.setWidth 16 && e.second (ia.toNat / 4096 * 4096))))

/-- `tlb.invid` (R299). -/
def execTlbInvid (sw : Bool) (a : SReg) (s : State) : Out :=
  .next (s.tlbForm 1 [a] (fun s => idOk (s.x a)) (fun s => s.withVmid (fun vmid =>
    let asid := s.x a
    s.invalidate sw (fun e => e.vmid == vmid && e.asid == asid.setWidth 16))))

/-- `tlb.invall` (R299): another VMID than that of the task's own job needs hypervisor level. -/
def execTlbInvall (sw : Bool) (a : SReg) (s : State) : Out :=
  .next (s.tlbForm 1 [a] (fun s => idOk (s.x a)) (fun s =>
    let vmid := s.x a
    if s.t.level < 2 ∧ vmid.setWidth 16 ≠ (s.c.jobRegs s.t.job).vmid.setWidth 16 then s.raise 0x06
    else s.invalidate sw (fun e => e.vmid == vmid.setWidth 16)))

/-- Whether every access of the partition that may use a dropped entry has been performed at its home. -/
def State.syncOver (s : State) (op cycle : Nat) : Bool :=
  let old (o : PendOp) : Bool := decide (o.id < op) && o.stage == .sent && !o.peer &&
    (match o.kind with | .access a => (match a.home with | .channel | .host => true | _ => false) | _ => false)
  let mine (c : CoreId) : Bool := s.d.partOf (CoreId.die c) == s.part
  s.allCores.all (fun c => !(mine c.id) || (c.scb.all (fun e => decide (cycle < e.made)) && c.tasks.all (fun p => p.2.ops.all (fun o => !(old o))))) &&
  s.d.orphans.all (fun p => !(mine p.1 && old p.2.2))

/-- `tlb.sync` (R299): the task parks until its invalidations are complete. -/
def execTlbSync (s : State) : Out :=
  .next (s.needs [] 1 (fun s =>
    let s := s.drainTask
    let op := s.d.nextOp
    let cycle := s.d.cycle
    let s := s.finish true
    if s.syncOver op cycle then s else { s with t := { s.t with status := .parked (.tlbSync op cycle) } }))

/-! ### Debug (R300, R410, R416) -/

/-- The unit to which the task at the port is attached: of several, that of lowest index (R409). -/
def State.attachedTo (s : State) : Option CoreId :=
  ((s.d.partState s.part).attached.filter (fun x => x.1 == s.t.tid || x.1 == s.t.tidReg)).foldl
    (fun (u : Option CoreId) x => match u with
      | some c => if x.2.1.toNat < c.toNat then some x.2.1 else some c
      | none => some x.2.1) none

/-- `dbg.brk` (R300, R410). -/
def execDbgBrk (_sw : Bool) (s : State) : Out :=
  .next (s.issueNone Accept.none [] (fun s => match s.attachedTo with
    | some u => s.stopFor u 0x80
    | none => s.raise 0x14))

/-- `dbg.mark` (R300, R402). -/
def execDbgMark (sw : Bool) (a : SReg) (s : State) : Out :=
  .next (s.issueNone Accept.none [a] (fun s =>
    (s.record 14 s.t (s.lab a) (BitVec.ofNat 64 (bitsOf (s.x a).toNat 0 32)) 0).finish sw))

/-- The level that a read of a bank needs and the counts that it gives (R416). -/
def CounterBank.readFor (b : CounterBank) (p : BitVec 2) (level : Nat) : Nat × Vector Word 19 :=
  let need (bctl : Word) : Nat := if bitAt bctl 0 then 0 else 1
  match b.holder, b.revoked with
  | .guest q, _ => (if q = p then need b.bctl else 2, b.counts)
  | _, some (q, bctl, counts) =>
    if q = p ∧ level < 2 then (need bctl, counts) else (if b.holder = .free then 1 else 2, b.counts)
  | .hyp, none => (2, b.counts)
  | .free, none => (1, b.counts)

/-- `dbg.rdctr` (R300, R416). -/
def execDbgRdctr (sw : Bool) (d a : SReg) (s : State) : Out :=
  .next (s.issue Accept.none [a] d (fun s =>
    let v := (s.x a).toNat
    let bank := bitsOf v 8 8
    let n := bitsOf v 0 8
    if bitsOf v 16 48 ≠ 0 ∨ 1 < bank ∨ (if bank = 0 then 18 else 16) < n then s.raise 0x02 1
    else
      let b := if bank = 0 then s.c.bank else s.d.dieBanks[(CoreId.die s.c.id).toNat]?.getD CounterBank.reset
      let (level, counts) := b.readFor s.part s.t.level
      if s.t.level < level then s.raise 0x16
      else s.put false d (wordVal (counts[n]?.getD 0) (s.labs [a])) (fun s => s.finish sw)))

/-! ### Maintenance ports (R298) -/

/-- `Q_PORT_READ` (R298): the task at the core's port, in maintenance mode, pops a doubleword or parks. -/
def execQPortRead (core : CoreId) (port : BitVec 3) (s : State) : Out :=
  .next (let f := s.focus core
    if f.t.status ≠ .ready || !f.t.maint then s
    else match f.d.qpop (CoreId.die core) port with
      | none => f.park (.qport port false)
      | some (v, d) => { f with t := { f.t with qin := f.t.qin.setIfInBounds port.toNat v }, d })

/-- `Q_PORT_WRITE` (R298): the task at the core's port, in maintenance mode, pushes a doubleword or parks. -/
def execQPortWrite (core : CoreId) (port : BitVec 3) (value : BitVec 64) (label : BitVec 16) (s : State) : Out :=
  .next (let f := s.focus core
    if f.t.status ≠ .ready || !f.t.maint then s
    else if f.d.qfull (CoreId.die core) port then f.park (.qport port true)
    else if label ||| f.t.clabel ≠ 0#16 then f.raise 0x0B ((label ||| f.t.clabel).toNat * 65536)
    else { f with d := f.d.qpush (CoreId.die core) port value })

/-- Tasks of a die whose wait for a port is over become ready. -/
def Device.qready (d : Device) (die : BitVec 2) (t : Task) : Bool :=
  match t.status with
  | .parked (.qport p true) => !(d.qfull die p)
  | .parked (.qport p false) => !(d.qport die p).inward.isEmpty
  | _ => false

/-- Wakes the tasks of a core that wait for a port. -/
def State.wakePorts (s : State) : State :=
  let die := CoreId.die s.c.id
  s.whole.tasks.foldl (fun (s : State) p => if s.d.qready die p.2 then s.atTask p.2.tid State.wake else s) s

/-- `MAINTENANCE_PORT_ARRIVAL` (R298): the far end of Q4 to Q7 sends a doubleword, when there is room, or takes some. -/
def execMaintenancePortArrival (die : BitVec 2) (port : BitVec 3) (value : Option (BitVec 64)) (freed : Nat) (s : State) : Out :=
  .next (if port.toNat < 4 then s
    else
      let q := s.d.qport die port
      let inward := match value with
        | some v => if q.inward.length < 16 then q.inward ++ [v] else q.inward
        | none => q.inward
      let d := s.d.setQport { q with inward, outward := q.outward.drop freed }
      let s := { s with d }
      (s.allCores.filter (fun c => CoreId.die c.id == die)).foldl (fun (s : State) c => s.atCore c.id State.wakePorts) s)

end Sys2Proof.Machine
end

