-- ==== Sys2Proof/Machine/Replies.lean ====
section
/-! DEFINITION. Operations at their homes and their returns: accesses at a hearth (R22), replies and acknowledgements (R155,
R353), drains (R76), atomics on host memory (R83), and handler-type active messages (R22, R24). -/

namespace Sys2Proof.Machine

/-! ### Accesses that a hearth executes (R22, R356) -/

def MsgKind.isAccess : MsgKind → Bool
  | .access _ _ _ => true
  | _ => false

/-- Takes an operation of an ended task off the device's list. -/
def State.dropOrphan (s : State) (op : Nat) : State :=
  { s with d := { s.d with orphans := s.d.orphans.filter (fun p => p.2.2.id != op) } }

/-- `HEARTH_REMOTE_ACCESS` (R22). -/
def execHearthRemoteAccess (core : CoreId) (src : Endpoint) (s : State) : Out :=
  .next (match s.takeFrom core src MsgKind.isAccess with
    | some (.access tid op a, f) =>
      let from_ := Endpoint.core src
      let f := (f.hearthDone (f.d.jobOfLaunch a.launch) src).dropOrphan op
      if f.c.fenced then f.setStage from_ op (.failed 0x12 0)
      else if a.home != .spad && f.d.fencedSlices.contains core then f.setStage from_ op (.failed 0x11 0x18)
      else (match f.bankPerform a with
        | .error (c, detail) => f.setStage from_ op (.failed (BitVec.ofNat 8 c) (BitVec.ofNat 32 detail))
        | .ok (v, f) => (f.fire tid a v).setStage from_ op (.executed v.1))
    | _ => s)

/-! ### Finding an operation -/

/-- Brings a core into focus with the task that an operation belongs to at its port. -/
def State.focusOp (s : State) (core : CoreId) (op : Nat) : Option (PendOp × State) :=
  let f := s.focus core
  let c := f.whole
  match c.tasks.findSome? (fun p => (p.2.ops.find? (fun o => o.id == op)).map (fun o => (p.1, o))) with
  | some (n, o) => some (o, f.takeSlot n)
  | none => match c.hearth with
    | some h => (h.task.ops.find? (fun o => o.id == op)).map (fun o => (o, f.toHearth))
    | none => none

/-- Whether an operation is among the 256 requests that its core may have outstanding at its peer (R391). -/
def State.admitted (s : State) (o : PendOp) : Bool :=
  let older (k : PendOp) : Bool := k.peer && k.dev == o.dev && k.stage == .sent && decide (k.id < o.id)
  let mine := s.whole.tasks.flatMap (fun p => p.2.ops.filter older)
  let gone := s.d.orphans.filter (fun p => p.1 == s.c.id && older p.2.2)
  !o.peer || decide (mine.length + gone.length < 256)

/-! ### Channel homes and host memory (R78, R82) -/

/-- The line of an access as the read cache fills it (R78). -/
def State.fillFrom (s : State) (a : Access) : State :=
  let line := a.addr / 64
  if s.d.clusterLines.contains (CoreId.cluster s.c.id, line) then s
  else { s with c := s.c.cacheFill .channel line (BitVec.ofNat 512 (s.d.gread a.comp (64 * line) 64)) 0 }

/-- An atomic takes its line to the cluster unit at a narrow scope; at any other the home recalls it (R82). Either way no cache of the
cluster keeps the line, as after a drained store (R76, R88). -/
def State.claimLine (s : State) (a : Access) : State :=
  let line := a.addr / 64
  if a.scope.code ≤ 3 then s.takeLine line else (s.recall line).clusterDrop .channel line

/-- An access that reaches its channel home or, for a load, host memory: the operation of the task at the port ends with its
result. -/
def State.atHome (s : State) (o : PendOp) (a : Access) : State :=
  match s.d.perform a with
  | .error (c, detail) => s.opFails o c detail
  | .ok (v, d) =>
    let s := { s with d }
    if a.kind.isLoad then
      let r : Result := { v.1 with data := BitVec.ofNat 512 (s.forward a v.1.data.toNat) }
      ((if a.home = .channel then (s.recallOthers (a.addr / 64)).fillFrom a else s)).arrive o a r
    else (((s.claimLine a).taint a.addr (some s.t.job)).fire s.t.tid a v).arrive o a v.1

/-! ### Replies from peers (R385, R389) -/

/-- The result that a peer's reply brings: of a line, the bytes that the load names, with those that the task's combining buffer held
for it (R77). -/
def Access.peerResult (a : Access) (r : OutReply) : Result :=
  let data := match a.kind with
    | .ld _ | .vld _ _ => BitVec.ofNat 512 (mergeBytes (r.data.toNat / 2 ^ (8 * (a.va % 64))) a.cmp.toNat a.data.toNat a.n 0)
    | _ => r.data
  let flags := match a.kind with
    | .fatom op fmt => (fatomNew op.toNat fmt (r.data.toNat % 2 ^ (8 * a.n)) a.data.toNat).2
    | _ => 0
  { data, tag := false, label := r.label, flags := BitVec.ofNat 5 flags }

/-- Whether an access to a peer brings a line for the read cache (R72, R78). -/
def Access.fills (a : Access) : Bool :=
  match a.kind with
  | .ld _ | .vld _ _ => true
  | _ => false

/-- The reply of a peer to an access of the task at the port. -/
def State.peerReply (s : State) (o : PendOp) (a : Access) (r : OutReply) : State :=
  if r.status ≠ 0 then s.opFails o 0x11 r.status.toNat
  else if r.poison then s.opFails o 0x18 6
  else
    let s := if a.fills then { s with c := s.c.cacheFill a.home (a.va / 64) r.data r.label } else s
    (s.peerWrote a).arrive o a (a.peerResult r)

/-! ### Results of the task, queue and ember forms (R175, R204, R205, R208) -/

/-- Delivers a number to the destination of an operation of the task at the port, and takes it off its list. -/
def State.opValue (s : State) (o : PendOp) (n : Nat) (label : Label) : State :=
  (s.dropOp o.id).land o (plainVal n label)

/-- The reply to a take (R205): the entry is stored under the label rule, the outcome written, and the control label rises by
the ember's label. -/
def State.taken (s : State) (o : PendOp) (dst : Val) (store : BitVec 8) (r : Result) : State :=
  let decl := s.storeOf store.toNat
  let out := decl.elim 0 (·.lmax) ||| o.clabel
  if bitsOf r.data.toNat 0 8 = 0 then (s.opValue o 0 out).acquire .part
  else
    let bytes := bitsOf r.data.toNat 256 256
    let key : Word := BitVec.ofNat 64 (bitsOf bytes 0 64)
    let addr := capCursor dst.bits
    let vl := r.label ||| dst.label ||| o.clabel
    let s := s.giveSpad s.t.job
    let s := if decl.any (·.lease) then { s with t := { s.t with leases := s.t.leases ++ [(store, key)] } } else s
    if !(s.c.spad.accepts addr 32 vl) then s.opFails o 0x0B (labelDetail (s.c.spad.labelOf addr 32) vl)
    else (((s.spadPut addr 32 bytes).opValue o 1 out).acquire .part).raiseLabel r.label

/-- The reply to a result-writing operation of the task at the port. -/
def State.delivered (s : State) (o : PendOp) (r : Result) : State :=
  match o.kind with
  | .access a => s.arrive o a r
  | .spawnto tid => s.spawned o tid
  | .postw | .stat => s.opValue o r.data.toNat (r.label ||| o.clabel)
  | .take dst store => s.taken o dst store r
  | _ => s.dropOp o.id

/-- Whether the message that a pending operation was sent in is still with the network. -/
def OpStage.isSent : OpStage → Bool
  | .sent => true
  | _ => false

/-- Notes the cycle of a core's last reply from a device (R392). The reply to an acknowledgement packet asks for no other. -/
def State.noteReply (s : State) (core : CoreId) (dev : BitVec 12) (request : Option Packet) : State :=
  match request with
  | none => s
  | some q =>
    if q.hdr.opc = 0x0F then s
    else
      let l := s.d.fabric.lastReply.filter (fun p => !(p.1 == core && p.2.1 == dev))
      { s with d := { s.d with fabric := { s.d.fabric with lastReply := (core, dev, s.d.cycle, q.hdr.job) :: l } } }

/-- A spawn bounces at a peer (R176): the child runs inline in the task at the port. -/
def State.spawnBack (s : State) (o : PendOp) : State :=
  if !s.t.roomInline then s.opFails o 0x0E 0
  else
    let r := spawnOf (ofBytes ((o.packet.elim [] (·.data)))) s.t.launch
    let s := s.spawned o r.tid
    { s with t := { s.t with bounced := s.t.bounced ++ [(r, some o.next)] } }

/-- A fire that bounced at a peer becomes a pending fire there (R157). The spec names no packet for that: DESIGN CHOICE (log entry
127), its spawn request goes there once more, under a new sequence number, with FN 1. -/
def State.fireAgain (s : State) (core : CoreId) (tid : Tid) (o : PendOp) : State :=
  match o.packet, s.d.pathTo core o.dev with
  | some q, some port =>
    let f := s.focus core
    let (seq, f) := f.takeSeq o.dev
    let q := { q with hdr := { q.hdr with fn := 1, seq, rack := f.rack o.dev, flags := 0 } }
    let o := { o with seq, packet := some q, cycle := f.d.cycle, resends := 0 }
    { f with d := { f.d with orphans := f.d.orphans ++ [(core, tid, o)], fabric := f.d.fabric.put port q } }
  | _, _ => s

/-- Does something to a saved task. -/
def State.modSaved (s : State) (tid : Tid) (f : Task → Task) : State :=
  { s with d := { s.d with saved := s.d.saved.map (fun (v : Saved) => if v.task.tid = tid then { v with task := f v.task } else v) } }

/-- What the refusal of a fire leaves at its task: a deferred cause. -/
def Task.fireRefused (t : Task) (status : Nat) : Task :=
  { t with deferred := t.deferred ++ [(0x11, BitVec.ofNat 32 (256 + status), 0)] }

/-- A peer refuses the fire that an operation sent for a task, or it bounces there (R157): the refusal is raised at the task, or
reported; a bounced child runs inline, and where none can it becomes a pending fire of the peer. -/
def State.fireBack (s : State) (core : CoreId) (tid : Tid) (o : PendOp) (status : Nat) : State :=
  let n := ofBytes (o.packet.elim [] (·.data))
  let s := { s with d := { s.d with orphans := s.d.orphans.filter (fun p => p.2.2.id != o.id) } }
  match (s.find tid).bind (fun p => s.focusTask p.1 tid), s.d.savedOf tid with
  | some f, _ =>
    if status ≠ 0x0E then { f with t := f.t.fireRefused status }
    else if f.t.roomInline then
      let (r, f) := f.nameRecord (spawnOf n f.t.launch) 3 tid
      { f with t := { f.t with bounced := f.t.bounced ++ [(r, none)] } }
    else s.fireAgain core tid o
  | none, some v =>
    if status ≠ 0x0E then s.modSaved tid (fun t => t.fireRefused status)
    else if v.task.roomInline then
      let (r, f) := (s.focus v.core).nameRecord (spawnOf n v.task.launch) 3 tid
      f.modSaved tid (fun t => { t with bounced := t.bounced ++ [(r, none)] })
    else s.fireAgain core tid o
  | none, none =>
    if status = 0x0E then s.fireAgain core tid o
    else s.report core (if status = 0 then 0x11 else status) 0 (BitVec.ofNat 64 (bitsOf n 256 64)) (s.d.fabric.localJob (o.packet.elim 0 (·.hdr.job))) 0
      (spawnOf n 0).clabel

/-- A reply of a peer to a line that an engine asked for. -/
def State.peerLineReply (s : State) (core : CoreId) (op : Nat) (r : OutReply) : State :=
  let mine (p : PeerLine) : Bool := p.core == core && p.op == op && p.got.isNone
  match s.d.peerLines.find? mine with
  | none => s
  | some q =>
    let l := s.d.peerLines.map (fun (p : PeerLine) => if mine p then { p with got := some r } else p)
    State.noteReply { s with d := { s.d with peerLines := l } } core q.dev q.packet

/-- A reply of a peer to an operation of the task at the port. -/
def State.outReply (s : State) (o : PendOp) (r : OutReply) : State :=
  let s := s.noteReply s.c.id o.dev o.packet
  match o.kind with
  | .access a => s.peerReply o a r
  | .spawnto tid => if r.status = 0x0E then s.spawnBack o else if r.status ≠ 0 then s.opFails o 0x11 r.status.toNat else s.spawned o tid
  | _ => if r.status ≠ 0 then s.opFails o 0x11 r.status.toNat else s.dropOp o.id

/-- Whether an operation waits for the data of a peer's reply: a result, or the flags of a fatom. -/
def PendOp.wantsData (o : PendOp) : Bool :=
  o.result || (match o.kind with
    | .access a => (match a.kind with | .fatom _ _ => true | _ => false)
    | _ => false)

/-- A home's result or error comes back, or the reply of a peer. -/
def State.remoteReply (s : State) (core : CoreId) (op : Nat) (ext : Option OutReply) : State :=
  match s.focusOp core op with
    | none => (match ext with
      | some r => s.peerLineReply core op r
      | none => s)
    | some (o, f) =>
      if !o.wantsData then s
      else match o.stage with
        | .executed r => f.delivered o r
        | .failed c detail => f.opFails o c.toNat detail.toNat
        | .arrived _ => s
        | .sent =>
          if o.peer then
            (match ext with
             | some r => if f.admitted o then f.outReply o r else s
             | none => s)
          else (match o.kind with
            | .access a => (match a.home with
              | .channel => f.atHome o a
              | .host => if a.kind.isLoad then f.atHome o a else s
              | _ => s)
            | _ => s)

/-- `REMOTE_REPLY` (R155): a home's result or error comes back; the reply of a peer comes from outside the device. -/
def execRemoteReply (core : CoreId) (op : Nat) (ext : Option OutReply) (s : State) : Out := .next (s.remoteReply core op ext)

/-! ### Acknowledgements and deferred errors (R204, R353) -/

/-- The end of a matrix command to a core of another device (R240): its message, under the reservation taken for it. -/
def State.commandOver (s : State) (o : PendOp) (target : Endpoint) (tile : BitVec 3) (kdone cause : Nat) : State :=
  let s := s.dropOp o.id
  let m : Msg := {
    type := 2, src := target, cause := BitVec.ofNat 8 cause, label := o.clabel, optag := o.pc,
    payload := BitVec.ofNat 128 (kdone + tile.toNat * 2 ^ 16) }
  { s with t := s.t.receive m }

/-- The same for a command that a cause ended: how many k-steps are in the tile is free. -/
def State.refusedCommand (s : State) (o : PendOp) (target : Endpoint) (tile : BitVec 3) (n cause : Nat) : State :=
  let kdone := (Config.freeWord s.d.free).toNat % (n + 1)
  State.commandOver { s with d := { s.d with free := s.d.free + 1 } } o target tile kdone cause

/-- An acknowledged operation of the task at the port. -/
def State.acked (s : State) (o : PendOp) (r : Result) : State :=
  match o.kind with
  | .access a => (s.peerWrote a).arrive o a r
  | .command target tile n => s.commandOver o target tile n 0
  | .post _ _ _ =>
    let s := s.dropOp o.id
    if r.data.toNat = 0 then s else { s with t := s.t.freeResv }
  | _ => s.dropOp o.id

/-- The copy of a core that waits for an operation's acknowledgement. -/
def State.copyAcked (s : State) (core : CoreId) (op : Nat) (failed : Bool) : State :=
  s.modCore core (fun c => { c with cp := c.cp.map (fun (m : CpOp) =>
    if m.acks.contains op then
      { m with acks := m.acks.filter (· != op), ended := if failed then some 0x11 else m.ended }
    else m) })

/-- The operation of an ended task or of the hardware. -/
def State.orphan (s : State) (core : CoreId) (op : Nat) : Option PendOp :=
  (s.d.orphans.find? (fun p => p.1 == core && p.2.2.id == op)).map (·.2.2)

/-- An operation without an owner on a core returns; what it would have been told to is only a copy that waits for it. -/
def State.orphanBack (s : State) (core : CoreId) (o : PendOp) (failed : Bool) : State :=
  (s.dropOrphan o.id).copyAcked core o.id failed

/-- An access of an ended task reaches its home. -/
def State.orphanHome (s : State) (core : CoreId) (o : PendOp) (a : Access) : State :=
  let f := s.dropOrphan o.id
  if a.home != .channel then (if a.home == .host && a.kind.isLoad then f else s)
  else match f.d.perform a with
    | .error _ => f
    | .ok (v, d) => if a.kind.isLoad then f else ((({ f with d }).focus core).claimLine a).fire 0 a v

/-- The return of an operation that writes no result. -/
def State.acknowledge (s : State) (core : CoreId) (op : Nat) : State :=
  match s.focusOp core op with
    | none => (match s.orphan core op with
      | some o =>
        if o.peer && o.stage.isSent then
          let f := s.focus core
          let f := match o.kind with | .access a => f.peerWrote a | _ => f
          (f.orphanBack core o false).noteReply core o.dev o.packet
        else (match o.kind with
          | .access a => s.orphanHome core o a
          | _ => s)
      | none => s)
    | some (o, f) =>
      if o.wantsData then s
      else match o.stage with
        | .executed r => f.acked o r
        | .failed _ _ | .arrived _ => s
        | .sent =>
          if o.peer then (if f.admitted o then (f.noteReply f.c.id o.dev o.packet).acked o (plainResult 0 0) else s)
          else (match o.kind with
            | .access a => if a.home = .channel then f.atHome o a else s
            | _ => s)

/-- `OPERATION_ACKNOWLEDGEMENT` (R204). -/
def execOperationAcknowledgement (core : CoreId) (op : Nat) (s : State) : Out := .next (s.acknowledge core op)

/-- Whether an operation without an owner is the spawn request of a fired cell. -/
def PendOp.isFire (o : PendOp) : Bool := o.packet.any (fun q => q.hdr.opc == 6)

/-- The task for which an operation without an owner was made. -/
def State.orphanTid (s : State) (op : Nat) : Tid := ((s.d.orphans.find? (fun p => p.2.2.id == op)).map (·.2.1)).getD 0

/-- The error of an operation without an owner comes back. -/
def State.orphanFails (s : State) (core : CoreId) (o : PendOp) (status : BitVec 8) : State :=
  let s := s.noteReply core o.dev o.packet
  if o.isFire then s.fireBack core (s.orphanTid o.id) o status.toNat else s.orphanBack core o true

/-- The error of an operation that writes no result comes back. A refused post's reservation has no message to come. -/
def State.deferredError (s : State) (core : CoreId) (op : Nat) (status : BitVec 8) : State :=
  match s.focusOp core op with
    | none => (match s.orphan core op with
      | some o => (match o.stage with
        | .failed _ detail => if o.peer then s.orphanFails core o (detail.setWidth 8) else s.orphanBack core o true
        | _ => if o.peer && status != 0 then s.orphanFails core o status else s)
      | none => s)
    | some (o, f) =>
      if o.wantsData then s
      else
        let free (f : State) : State := match o.kind with
          | .post _ _ _ | .command _ _ _ => { f with t := f.t.freeResv }
          | _ => f
        match o.stage with
        | .failed c detail => (free f).opFails o c.toNat detail.toNat
        | .sent =>
          if !(o.peer && status != 0 && f.admitted o) then s
          else (match o.kind with
            | .command target tile n => (f.noteReply f.c.id o.dev o.packet).refusedCommand o target tile n status.toNat
            | _ => (f.noteReply f.c.id o.dev o.packet).opFails o 0x11 status.toNat)
        | _ => s

/-- `DEFERRED_ERROR_REPLY` (R353). -/
def execDeferredErrorReply (core : CoreId) (op : Nat) (status : BitVec 8) (s : State) : Out :=
  .next (s.deferredError core op status)

/-- `COMBINING_BUFFER_DRAIN` (R76): an entry may drain at any time. -/
def execCombiningBufferDrain (core : CoreId) (index : Nat) (s : State) : Out :=
  .next (let f := s.focus core
    match f.c.scb[index]? with
    | some e => f.drain e
    | none => s)

/-! ### Atomics on host memory (R83) -/

/-- The host port's atomic ends: its operation, or the fabric request that it served, has its result or has failed. -/
def State.hostDone (s : State) (h : HostAtomic) (stage : OpStage) : State :=
  let s := { s with d := { s.d with hostAtomic := none } }
  let s := (s.dropOrphan h.op).setStage h.core h.op stage
  match stage with
  | .executed r => s.replied h.op 0 r.label (toBytes 8 r.data.toNat)
  | .failed c _ => s.replied h.op c 0 []
  | _ => s

/-- The atomic has taken effect: `old` is its old value, `new` what the host's memory now holds. -/
def State.hostWrote (s : State) (h : HostAtomic) (old new : Nat) : State :=
  let a := h.acc
  let r : Result := { data := BitVec.ofNat 512 old, tag := false, label := a.page, flags := BitVec.ofNat 5 (a.effect old).2.1 }
  let d := s.d.gwrite false a.addr a.n (2 ^ a.n - 1) new
  ({ s with d }).hostDone h (.executed r)

/-- Whether an access is one AtomicOp request: swap, cas, add. -/
def AccKind.oneRequest : AccKind → Bool
  | .atom op _ => decide (op.toNat ≤ 2)
  | _ => false

/-- `HOST_PORT_ATOMIC` (R83): the port takes the next atomic in arrival order and issues its first request. -/
def execHostPortAtomic (s : State) : Out :=
  .next (match s.d.hostAtomic, s.d.hostQueue with
    | none, h :: r => { s with d := { s.d with hostAtomic := some h, hostQueue := r } }
    | _, _ => s)

/-- `ATOMICOP_COMPLETION` (R83): the completion of the request that the host port has issued. -/
def execAtomicopCompletion (value : BitVec 64) (ok : Bool) (s : State) : Out :=
  .next (match s.d.hostAtomic with
    | none => s
    | some h =>
      let a := h.acc
      let old := value.toNat % 2 ^ (8 * a.n)
      let new := (a.effect old).1.getD old
      if !ok then s.hostDone h (.failed 0x11 0)
      else if a.kind.oneRequest then s.hostWrote h old new
      else match h.compared with
        | none =>
          if new = old then s.hostWrote h old old
          else { s with d := { s.d with hostAtomic := some { h with compared := some (BitVec.ofNat 64 old), tries := 1 } } }
        | some c =>
          if old = c.toNat then s.hostWrote h old new
          else if 256 ≤ h.tries then s.hostDone h (.failed 0x11 0)
          else
            let h := { h with compared := some (BitVec.ofNat 64 old), tries := h.tries + 1 }
            { s with d := { s.d with hostAtomic := some h } })

/-- `CXL_COMPLETION_TIMEOUT` (R83). -/
def execCxlCompletionTimeout (s : State) : Out :=
  .next (match s.d.hostAtomic with
    | some h => s.hostDone h (.failed 0x11 0)
    | none => s)

/-! ### Active messages (R22, R24) -/

def MsgKind.isActive : MsgKind → Bool
  | .active _ _ _ _ _ _ => true
  | _ => false

/-- The task that runs an active message. -/
def activeTask (tid : Tid) (entry : Word) (args : Vector Word 4) (label : Label) (job : BitVec 16) : Task :=
  let g := handlerRegs (plainVal (args[0]).toNat label) (plainVal (args[1]).toNat label) (plainVal (args[2]).toNat label)
    (plainVal (args[3]).toNat label) Val.zero
  { newTask tid entry 0 0 0 0 label job 0 with g, onHearth := true }

/-- `ACTIVE_MESSAGE` (R22): the hearth starts the next handler-type message, one at a time; a fenced core refuses it. -/
def execActiveMessage (core : CoreId) (src : Endpoint) (s : State) : Out :=
  .next (if (s.core core).hearth.isSome then s
    else match s.takeFrom core src MsgKind.isActive with
    | some (.active _ op entry args label job, f) =>
      let f := f.hearthDone job src
      if f.c.fenced then f.replied op 0x12 0 []
      else
        let (tid, f) := f.newTid job
        let h : HearthRun := { task := activeTask tid entry args label job, src := Endpoint.core src, op, count := 0 }
        { f with c := { f.c with hearth := some h } }
    | _ => s)

/-- The run at the port ends: its buffer is discarded, its memory writes stay, and the sender has its reply. -/
def State.hearthEnds (s : State) (h : HearthRun) (status : BitVec 8) : State :=
  let data := if status = 0x13 then toBytes 8 h.count else []
  let d := { s.d with orphans := s.d.orphans ++ orphansOf s.c.id s.t }
  let s := seat { s.c with hearth := none } s.c.port.toNat d
  s.replied h.op status h.task.clabel data

/-- `HEARTH_OVERRUN` (R24): the 513th instruction of an active message is about to issue. -/
def execHearthOverrun (core : CoreId) (s : State) : Out :=
  .next (let f := s.focus core
    match f.c.hearth with
    | some h => if 512 ≤ h.count && (f.toHearth).t.status == .ready then f.toHearth.hearthEnds h 0x13 else s
    | none => s)

end Sys2Proof.Machine
end

