-- ==== Sys2Proof/Machine/Preempt.lean ====
section
/-! DEFINITION. Pre-emption and restore (R342 to R345), and pages shared with the host (R317 to R321). -/

namespace Sys2Proof.Machine

/-! ### Pre-emption and restore (R343, R345) -/

/-- `PREEMPTION` (R343): a task that a command has asked to pre-empt is saved once it is quiet, and its slot is free. A task that
ends first is not found (R369). -/
def execPreemption (core : CoreId) (tid : Tid) (s : State) : Out :=
  .next (match s.focusTask core tid with
    | none =>
      let p := s.d.partOf (CoreId.die core)
      if (s.d.partState p).preempting.contains tid && s.ended tid then
        (s.modPart p (fun q => { q with preempting := q.preempting.filter (· != tid) })).result p false 4
      else s
    | some f =>
      let p := f.part
      let gone := match f.t.status with | .departing _ => true | _ => false
      if gone || !((f.d.partState p).preempting.contains tid) then s
      else
        let f := ({ f with t := f.t.stopUnit }).drainTask
        if !f.quiet then f
        else
          let t := f.t
          let (area, f) := (f.closeChunk t).preemptSave none
          let f := f.modPart p (fun q => { q with preempting := q.preempting.filter (· != tid) })
          (f.record 9 t 0#16 t.pc (BitVec.ofNat 64 area)).result p false 0)

/-- Whether a saved task may return: no handler has its slot, no unit holds it, and one that awaits notice has it. -/
def Saved.mayReturn (v : Saved) : Bool := v.slot.isNone && v.unit.isNone && (!v.awaiting || v.task.noticed)

/-- A saved task that could be marked to migrate (R345). -/
def Saved.portable (v : Saved) : Bool :=
  v.task.kind == 0 && v.task.anchor.isNone && !tswPin v.task.tsw && v.task.level == 0 && !v.task.ut && v.task.frames.isEmpty &&
  v.task.resv == 0 && v.task.inbox.isEmpty

/-- Whether a saved task may be restored on a core. -/
def State.restorable (s : State) (v : Saved) (core : CoreId) : Bool :=
  v.core == core ||
  (v.portable && CoreId.die v.core == CoreId.die core && s.d.jobHolds (s.d.partOf (CoreId.die core)) v.task.job core)

/-- A restore on another core counts as a migration there (R26, R345). -/
def State.countMoved (s : State) (v : Saved) : State :=
  let here := s.c.id
  if v.core = here then s
  else
    let dev := s.d.fabric.device
    let s := s.atCore v.core (fun s => (s.count 4).record 7 v.task 0#16 (BitVec.ofNat 64 (endpointOf dev here).toNat) 0)
    s.record 8 s.t 0#16 (BitVec.ofNat 64 (endpointOf dev v.core).toNat) 0

/-- `TASK_RESTORE` (R345): a saved task returns to a free slot that nothing that waits for one is given first (R432), with its anchor
place and its tiles; its replay entries are settled before it is ready. -/
def execTaskRestore (core : CoreId) (tid : Tid) (s : State) : Out :=
  .next (match s.d.savedOf tid with
    | none => s
    | some v =>
      if !v.mayReturn || !(s.restorable v core) then s
      else
        let f := s.focus core
        let mask := v.task.anchor.elim 0 (·.tiles)
        if f.halted || (v.task.anchor.isSome && !(f.anchorFree mask)) then s
        else (match f.rotationSlot with
          | none => s
          | some n =>
            let f := ((f.giveSpad v.task.job).takeSlot n).restoreTask v
            let f := if v.awaiting then { f with t := { f.t with status := .ready } } else f
            (f.countMoved v).reissue))

/-! ### Pages shared with the host (R317 to R319) -/

/-- The partition and the second-stage root of a VMID, as some core holds them. -/
def State.vmRoot (s : State) (vmid : BitVec 16) : Option (BitVec 2 × Nat) :=
  s.allCores.findSome? (fun c => (c.jobs.find? (fun j => j.vmid.setWidth 16 == vmid && j.pt2root != 0)).map
    (fun j => (s.d.partOf (CoreId.die c.id), bitsOf j.pt2root.toNat 12 36 * 4096)))

/-- The second-stage entry of a 4 KiB page: its PA and its bits. -/
def pageEntry (m : Memory) (ia : Nat) : Nat → Nat → Option (Nat × Nat)
  | 0, _ => none
  | l + 1, table =>
    let ea := table + 8 * bitsOf ia (12 + 9 * l) 9
    let w := m.read ea 8
    if l = 0 then some (ea, w)
    else if bitsOf w 0 2 = 1 then pageEntry m ia l (bitsOf w 12 36 * 4096)
    else none

/-- Wakes every task that waits for a page. -/
def State.wakeFlip (s : State) (vmid : BitVec 16) (ia : Nat) : State :=
  let f (t : Task) : Task := if t.status = .parked (.flip vmid ia) then { t with status := .ready } else t
  let fc (c : Core) : Core := { c with slots := c.slots.map (fun o => o.map f) }
  { s with t := f s.t, c := fc s.c, d := { s.d with cores := s.d.cores.map fc } }

/-- The request that a die's controller serves: the first for a frame of the die (R317). -/
def Device.flipHead (d : Device) (die : BitVec 2) : Option Flip := d.flips.find? (fun f => dieOfPa f.frame == die)

/-- A request is over, and whatever waits for its page goes on. -/
def State.flipOver (s : State) (f : Flip) : State :=
  let s := { s with d := { s.d with flips := s.d.flips.filter (· != f) } }
  if f.hostPa.isNone then s.wakeFlip f.vmid f.ia else s

/-- The request at the head of a die has begun. -/
def State.flipBegun (s : State) (f : Flip) : State :=
  { s with d := { s.d with flips := s.d.flips.map (fun g => if g = f then { f with begun := true } else g) } }

/-- The second-stage entry of a page: its PA and its bits. -/
def State.pageOf (s : State) (vmid : BitVec 16) (ia : Nat) : Option (Nat × Nat) :=
  (s.vmRoot vmid).bind (fun r => pageEntry s.d.gmem.mem ia 5 r.2)

/-- Whether the bits of an entry say that the host owns the page (R317). -/
def hostOwned (w : Nat) : Bool := bitsOf w 0 1 == 0 && bitsOf w 8 1 == 1

/-- Copies a page line by line, decoding and coding as its ends ask for, with its poison (R318 step 4, R319 step 3, R357). -/
def Device.copyPage (d : Device) (fromComp : Bool) (src : Nat) (toComp : Bool) (dst : Nat) : Device :=
  (rangeFrom 0 64).foldl (fun (d : Device) i =>
    let bad := d.gpoisoned fromComp (src + 64 * i) 64
    let d := d.gwrite toComp (dst + 64 * i) 64 (2 ^ 64 - 1) (d.gread fromComp (src + 64 * i) 64)
    if bad && !(d.channelDown (dst + 64 * i)) then { d with gmem := d.gmem.poisonLine (dst + 64 * i) } else d) d

/-- Step 4 of R318: the page is read into the frame that its entry names, and the entry is valid. -/
def State.pageIn (s : State) (ea w pa : Nat) : State :=
  let d := s.d.copyPage false (hostBase + pa) (bitsOf w 9 1 == 1) (bitsOf w 12 36 * 4096)
  { s with d := { d with gmem := { d.gmem with mem := d.gmem.mem.write ea 8 (w + 1 - 256) } } }

/-- `FLIP_GRANT` (R318): the driver grants the page that is being flipped to the device, or says that there is none. A request whose
page no longer belongs to the host just ends. -/
def execFlipGrant (vmid : BitVec 16) (ia : BitVec 64) (hostPa : Option (BitVec 64)) (s : State) : Out :=
  .next (match s.d.flips.find? (fun f => f.vmid == vmid && f.ia == ia.toNat / 4096 * 4096 && f.hostPa.isNone && f.begun) with
    | none => s
    | some f => if !s.d.boot.cxlUp then s else match s.pageOf vmid f.ia with
      | none => s.flipOver f
      | some (ea, w) =>
        if !(hostOwned w) then s.flipOver f
        else match hostPa with
          | some pa => ((s.pageIn ea w pa.toNat).countDie (dieOfPa (bitsOf w 12 36 * 4096)) 15 1).flipOver f
          | none => State.flipOver { s with d := { s.d with gmem := { s.d.gmem with mem := s.d.gmem.mem.write ea 8 (w - 256) } } } f)

/-- Drains the entries of the core in focus that lie in a frame, and those of the other cores. -/
def State.drainFrame (s : State) (frame : Nat) : State :=
  let inFrame (e : ScbEntry) : Bool := (e.home == .channel) && e.line / 64 == frame / 4096
  s.allCores.foldl (fun s c => s.atCore c.id (fun s => s.drainAll (s.c.scb.filter inFrame))) s

/-- Whether an operation on its way to a channel home lies in a frame. -/
def PendOp.inFrame (o : PendOp) (frame : Nat) : Bool :=
  match o.kind with
  | .access a => a.home == .channel && o.stage.isSent && a.addr / 4096 == frame / 4096
  | _ => false

/-- Whether an access by an old translation of a frame is still on its way. -/
def State.frameBusy (s : State) (frame : Nat) : Bool :=
  s.allCores.any (fun c => c.tasks.any (fun q => q.2.ops.any (·.inFrame frame)) ||
    c.hearth.any (fun h => h.task.ops.any (·.inFrame frame))) ||
  s.d.orphans.any (fun q => q.2.2.inFrame frame)

/-- What the host driver receives. -/
def State.tellHost (s : State) (n : HostNote) : State := { s with d := { s.d with hostSees := s.d.hostSees ++ [n] } }

/-- Whether a page label lets the host of a partition have the page (R319). -/
def Device.hostMay (d : Device) (p : BitVec 2) (l : Label) : Bool :=
  l.sub ((d.hostFunc p).elim 0 (fun q => BitVec.ofNat 16 (2 ^ q.2.slot.toNat)))

/-- Steps 1 and 2 of R319: the leaf is the host's, and no translation of it is kept. -/
def State.takeLeaf (s : State) (f : Flip) (lf : Leaf) : State :=
  let w := s.d.gmem.mem.read lf.ent 8
  let stale (e : TlbEntry) : Bool := e.vmid == f.vmid && e.leaf2 == lf.ent
  let fix (c : Core) : Core := { c with tlb := c.tlb.filter (fun e => !stale e) }
  let gates := s.d.fabric.gates.map (fun l => l.filter (fun e => !stale e))
  State.flipBegun { s with c := fix s.c, d := { s.d with
    cores := s.d.cores.map fix, fabric := { s.d.fabric with gates },
    gmem := { s.d.gmem with mem := s.d.gmem.mem.write lf.ent 8 (w - 1 + 256 - bitsOf w 8 1 * 256) } } } f

/-- A request of the host begins: it is refused, or finds the page with the host already, or takes the leaf. -/
def State.hostBegins (s : State) (f : Flip) : State :=
  let refused := (s.tellHost (.refused f.vmid f.ia)).flipOver f
  match s.vmRoot f.vmid with
  | none => refused
  | some (p, root) => match walk2 s.d p .load f.ia 5 root with
    | .error (.flip _ _) => (s.tellHost (.granted f.vmid f.ia)).flipOver f
    | .error _ => refused
    | .ok lf => if lf.lvl ≠ 0 || lf.tier ≠ 0 || !(s.d.hostMay p lf.label) then refused else s.takeLeaf f lf

/-- Steps 2 to 4 of R319: once every access by the old translation has been performed, the decoded page is written to the host, and the
host is granted it. -/
def State.pageOut (s : State) (f : Flip) (pa : Nat) : State :=
  let s := s.drainFrame f.frame
  if s.frameBusy f.frame then s
  else
    let comp := (s.pageOf f.vmid f.ia).any (fun e => bitsOf e.2 9 1 == 1)
    let s := { s with d := s.d.copyPage comp f.frame false (hostBase + pa) }
    ((s.countDie (dieOfPa f.frame) 15 1).tellHost (.granted f.vmid f.ia)).flipOver f

/-- What a die's controller does next for the request at its head: it sends a request to the driver of the partition's host function,
with a cause entry of kind 3 (R318 step 2, R374), or carries on one of the host. -/
def State.turnFlip (s : State) (f : Flip) : State :=
  match f.hostPa with
  | none =>
    if f.begun then s
    else if (s.pageOf f.vmid f.ia).all (fun e => !(hostOwned e.2)) then s.flipOver f
    else
      let s := s.flipBegun f
      { s with d := s.d.causeAdd 3 f.part.toNat (s.d.hostFuncNo f.part) }
  | some pa => if f.begun then s.pageOut f pa else s.hostBegins f

/-- Each die's controller serves the request at its head, while the link is up. -/
def State.turnFlips (s : State) : State :=
  if !s.d.boot.cxlUp then s
  else (rangeFrom 0 4).foldl (fun s i => match s.d.flipHead (BitVec.ofNat 2 i) with
    | some f => s.turnFlip f
    | none => s) s

/-- `FLIP_TO_HOST` (R319): the host asks for a page. -/
def execFlipToHost (vmid : BitVec 16) (ia : BitVec 64) (hostPa : BitVec 64) (s : State) : Out :=
  .next (if !s.d.boot.cxlUp then s
    else
      let va := ia.toNat / 4096 * 4096
      match s.vmRoot vmid, s.pageOf vmid va with
      | some (part, _), some (_, w) =>
        let f : Flip := { vmid, ia := va, part, frame := bitsOf w 12 36 * 4096, hostPa := some hostPa.toNat, begun := false }
        { s with d := s.d.askFlip f }
      | _, _ => s.tellHost (.refused vmid va))

/-! ### Host reads and writes of device memory (R321) -/

/-- The decoder that holds a host address, and the IA. -/
def Device.decoder (d : Device) (addr : Nat) : Option (Hdm × Nat) :=
  (d.hdm.toList.find? (fun h => h.en && decide (h.base ≤ addr) && decide (addr < h.base + h.size))).map
    (fun h => (h, h.iabase + (addr - h.base)))

/-- The page that a host access reaches, if its label lets it. -/
def State.hostPage (s : State) (acc : Acc) (addr : Nat) : Option (Leaf × Nat) :=
  match s.d.decoder addr with
  | none => none
  | some (h, ia) => match s.vmRoot h.vmid with
    | none => none
    | some (p, root) => match second s.d p root acc false ia with
      | .error _ => none
      | .ok lf =>
        let bit : Label := BitVec.ofNat 16 (2 ^ h.slot.toNat)
        let ok := if acc = .load then lf.label.sub bit else bit.sub lf.label
        if ok then some (lf, lf.out + ia % lf.size) else none

/-- Reports a refused host access (R321, R374 kind 2). -/
def State.hostRefused (s : State) (addr : Nat) : State :=
  let p := ((s.d.decoder addr).bind (fun x => s.vmRoot x.1.vmid)).map (·.1)
  { s with d := s.d.causeAdd 2 (p.elim 0xFF (·.toNat)) (p.elim 0xFF s.d.hostFuncNo) }

/-- Reads bytes of one line for the host: those of its page, with their poison, or all-ones bytes with poison. -/
def State.hostRead (s : State) (addr n : Nat) : State :=
  match s.hostPage .load addr with
  | some (lf, pa) =>
    let bad := s.d.gpoisoned lf.comp pa n
    State.tellHost { s with d := s.d.countLine pa false } (.line addr (toBytes n (s.d.gread lf.comp pa n)) bad)
  | none => (s.hostRefused addr).tellHost (.line addr (List.replicate n 0xFF#8) true)

/-- The parts of a host access in each line: their addresses and sizes. -/
def hostParts (addr n : Nat) : List (Nat × Nat) :=
  (units 64 addr n).map (fun l => (max addr (64 * l), min (addr + n) (64 * l + 64) - max addr (64 * l)))

/-- `HOST_MEM_READ` (R321): what the host receives for each line. -/
def execHostMemRead (addr : BitVec 64) (len : Nat) (s : State) : Out :=
  .next (if s.d.boot.cxlUp then (hostParts addr.toNat len).foldl (fun s p => s.hostRead p.1 p.2) s else s)

/-- Writes bytes of one line for the host, or drops them. -/
def State.hostWrite (s : State) (addr : Nat) (bytes : List Byte) : State :=
  match s.hostPage .store addr with
  | some (lf, pa) =>
    let d := (s.d.gwrite lf.comp pa bytes.length (2 ^ bytes.length - 1) (ofBytes bytes)).countLine pa true
    ({ s with d }).taint pa none
  | none => s.hostRefused addr

/-- `HOST_MEM_WRITE` (R321). -/
def execHostMemWrite (addr : BitVec 64) (data : List (BitVec 8)) (s : State) : Out :=
  .next (if s.d.boot.cxlUp then
    (hostParts addr.toNat data.length).foldl (fun s p => s.hostWrite p.1 ((data.drop (p.1 - addr.toNat)).take p.2)) s
  else s)

end Sys2Proof.Machine
end

