-- ==== Sys2Proof/Machine/Graphs.lean ====
section
/-! DEFINITION. Registration of graphs through a function's mailbox (R322 to R326), with the accesses that the die
controllers make through a job's translation. -/

namespace Sys2Proof.Machine

/-! ### Accesses of the die controllers through a job's translation (R324, R329, R333) -/

/-- The roots of a job at hypervisor authority: those of the first core of the partition that has registers for it. -/
def State.jobRoots (s : State) (p : BitVec 2) (job : BitVec 16) : Roots :=
  let cs := s.allCores.filter (fun c => s.d.partOf (CoreId.die c.id) == p)
  let j := (cs.findSome? (fun c => c.jobs.find? (fun j => j.job == job && j.pt2root != 0))).getD ((Core.reset 0).jobRegs job)
  { part := p, pt1 := bitsOf j.pt1root.toNat 12 44 * 4096, asid := j.asid.setWidth 16,
    pt2 := bitsOf j.pt2root.toNat 12 36 * 4096, vmid := j.vmid.setWidth 16, user := false }

/-- The cause of a failed translation; the access to a page of the host has none (R318). -/
def XFail.code : XFail → Nat
  | .cause c _ => c
  | .second c _ _ => c
  | .flip _ _ => 0

/-- Holds the work of a die controller back until a page has been flipped to the device (R318). -/
def State.holdWork (s : State) (r : Roots) (ia frame : Nat) (work : CtlWork) : State :=
  let s := s.startFlip r.part r.vmid ia frame
  { s with d := { s.d with heldWork := s.d.heldWork ++ [{ vmid := r.vmid, ia := ia / 4096 * 4096, work }] } }

/-- What becomes of work that a translation has stopped: a page of the host holds it back, any other cause ends it. -/
def State.stopWork (s : State) (r : Roots) (f : XFail) (work : CtlWork) (ended : State → State) : State :=
  match f with
  | .flip ia frame => s.holdWork r ia frame work
  | _ => ended s

/-- Reads n bytes of a job's memory, a line at a time. -/
def State.jobRead (s : State) (r : Roots) : List Nat → Nat → Nat → Except XFail (List Byte)
  | [], _, _ => .ok []
  | l :: rest, a, n =>
    let lo := max a (64 * l)
    let k := min (a + n) (64 * l + 64) - lo
    match Machine.combine s.d r .load false lo with
    | .error f => .error f
    | .ok e =>
      if s.d.gpoisoned e.comp (e.at lo) k then .error (.cause 0x18 0)
      else match s.jobRead r rest a n with
        | .error f => .error f
        | .ok b => .ok (toBytes k (s.d.gread e.comp (e.at lo) k) ++ b)

def State.jobBytes (s : State) (r : Roots) (a n : Nat) : Except XFail (List Byte) := s.jobRead r (units 64 a n) a n

/-- Writes one line's part of a job's memory. -/
def State.jobLine (s : State) (r : Roots) (a : Nat) (bytes : List Byte) : Except XFail State :=
  match Machine.combine s.d r .store false a with
  | .error f => .error f
  | .ok e => .ok { s with d := s.d.gwrite e.comp (e.at a) bytes.length (2 ^ bytes.length - 1) (ofBytes bytes) }

/-- Writes bytes of a job's memory, a line at a time. -/
def State.jobWrite (s : State) (r : Roots) : List Nat → Nat → List Byte → Except XFail State
  | [], _, _ => .ok s
  | l :: rest, a, bytes =>
    let lo := max a (64 * l)
    let k := min (a + bytes.length) (64 * l + 64) - lo
    match s.jobLine r lo ((bytes.drop (lo - a)).take k) with
    | .error f => .error f
    | .ok s => s.jobWrite r rest a bytes

def State.jobPut (s : State) (r : Roots) (a : Nat) (bytes : List Byte) : Except XFail State :=
  s.jobWrite r (units 64 a bytes.length) a bytes

/-! ### Requests (R323) -/

/-- A registration request. -/
structure Request where
  logva : Nat
  authva : Nat
  placeva : Nat
  imageva : Nat
  bind : Word
  imagesize : Nat
  job : BitVec 16
  tenant : Nat
  priocap : Nat
  level : Nat
  authn : Nat
  logn : Nat
  rsv : Nat
  deriving DecidableEq, Repr

def requestOf (q : BitVec 512) : Request :=
  let b (lo n : Nat) : Nat := bitsOf q.toNat (8 * lo) (8 * n)
  { logva := b 56 8, authva := b 48 8, placeva := b 40 8, imageva := b 32 8, bind := BitVec.ofNat 64 (b 24 8),
    imagesize := b 20 4, job := BitVec.ofNat 16 (b 18 2), tenant := b 17 1, priocap := b 16 1, level := b 15 1,
    authn := b 14 1, logn := b 13 1, rsv := b 0 13 }

/-- The reserved fields and values of a request, and what its function may ask for (R323, R371). -/
def Request.ok (q : Request) (func : BitVec 6) (f : Func) : Bool :=
  q.rsv == 0 && decide (q.tenant < 16) && decide (q.priocap ≤ 7) && (q.level == 0 || (q.level == 1 && func == 0)) &&
  decide (q.authn ≤ 16) && ((q.authn == 0) == (q.authva == 0)) && q.authva % 16 == 0 && q.placeva % 16 == 0 &&
  q.imageva % 64 == 0 && q.logva % 64 == 0 && decide (4 ≤ q.logn) && decide (q.logn ≤ 16) &&
  (func == 0 || q.tenant == f.tenant.toNat)

/-- A placement entry: reserved fields zero and START at most 256. -/
def placementOk (lo hi : Nat) : Bool := hi == 0 && bitsOf lo 32 32 == 0 && bitsOf lo 18 5 == 0 && decide (bitsOf lo 23 9 ≤ 256)

/-- A kernel of the graph from its header record and its placement entry. -/
def RawKernel.place (k : RawKernel) (x : Cof) (p : Nat) : Kernel :=
  { kind := BitVec.ofNat 3 k.kind, prio := BitVec.ofNat 3 k.prio, steal := BitVec.ofNat 4 k.steal, anchor := k.anchor,
    recomp := BitVec.ofNat 8 k.recomp, args := k.args, text := BitVec.ofNat 64 k.text, textSize := k.textSize,
    entry := BitVec.ofNat 64 k.entry, measure := k.measurement x.secs x.img,
    decls := k.decls.filterMap (k.decl x.img x.ks), die := BitVec.ofNat 2 (bitsOf p 16 2), x0 := BitVec.ofNat 4 (bitsOf p 0 4),
    y0 := BitVec.ofNat 4 (bitsOf p 4 4), x1 := BitVec.ofNat 4 (bitsOf p 8 4), y1 := BitVec.ofNat 4 (bitsOf p 12 4),
    start := bitsOf p 23 9 }

/-- Places kernels by the bytes of the placement table. -/
def placeAll (x : Cof) : List RawKernel → List (List Byte) → List Kernel
  | k :: ks, p :: ps => k.place x (bytesAt p 0 8) :: placeAll x ks ps
  | _, _ => []

/-- The graph that a request describes, without its place in the table. -/
def Request.graph (q : Request) (x : Cof) (func : BitVec 6) (f : Func) (kernels : List Kernel)
    (auth : List (Nat × Nat × BitVec 12)) : Graph :=
  let grans := Config.capGranules x.img
  let image (sec : Section) : Image :=
    let caps := (grans.filter (fun g => g.1 == (sec.kind == 6) && decide (sec.addr ≤ g.2) && decide (g.2 + 16 ≤ sec.addr + sec.size)))
    { shared := sec.kind == 6, addr := sec.addr, bytes := sec.bytes x.img,
      caps := caps.map (fun g => (g.2, BitVec.ofNat 128 (bytesAt (sec.bytes x.img) (g.2 - sec.addr) 16))) }
  let addrs := storeAddrs x.ks
  { index := 0, gen := 0, part := f.part, func, job := q.job, tenant := BitVec.ofNat 4 q.tenant,
    priocap := BitVec.ofNat 3 q.priocap, level := BitVec.ofNat 2 q.level, logva := q.logva, logn := q.logn, bind := q.bind,
    kernels, images := (x.secs.filter (fun sec => sec.kind == 5 || sec.kind == 6)).map image,
    stores := (rangeFrom 0 addrs.length).map (fun i => storeDecl q.bind i (globalBytes x.secs x.img (addrs[i]?.getD 0) 64)),
    auth, live := true }

/-! ### The checks of R324 -/

/-- STATUS 2: regions and starts. -/
def Graph.placed (g : Graph) (d : Device) : Bool :=
  g.kernels.all (fun k => d.partOf k.die == g.part && decide (k.x0.toNat ≤ k.x1.toNat) && decide (k.y0.toNat ≤ k.y1.toNat) &&
    (k.start == 0 || k.kind == 0 || k.kind == 3) && (!(k.queues.any (·.pop)) || k.region.length == 1)) &&
  g.kernels.any (fun k => k.start != 0)

/-- The rings of a graph: queue, producer core, entries, record size. -/
def Graph.rings (g : Graph) : List (Nat × CoreId × Nat × Nat) :=
  distinct (g.kernels.flatMap (fun k => k.region.flatMap (fun c =>
    (k.queues.filter (fun q => !q.pop)).map (fun q => (q.id, c, q.entries, q.size)))))

/-- The pipes that a core receives on: number, depth, size. -/
def Graph.received (g : Graph) (c : CoreId) : List (Nat × Nat × Nat) :=
  g.kernels.flatMap (fun k => if k.region.head? = some c then
    k.decls.filterMap (fun x => match x with | .pipe id depth size true => some (id, depth, size) | _ => none) else [])

/-- STATUS 3: what an idle partition could not reserve. -/
def Graph.reservable (g : Graph) (d : Device) : Bool :=
  (rangeFrom 0 4).all (fun die =>
    let mine := g.rings.filter (fun r => (CoreId.die r.2.1).toNat == die)
    decide ((mine.map (fun r => (r.2.2.1 * r.2.2.2 + 63) / 64 * 64)).foldl (· + ·) 0 ≤ (d.ringPool g.part die).2)) &&
  g.cores.all (fun c =>
    let pipes := g.received c
    decide ((pipes.map (fun p => p.2.1 * p.2.2)).foldl (· + ·) 0 ≤ 262144) &&
    (pipes.isEmpty ||
      (g.images.all (fun i => i.shared || !(overlap i.addr i.bytes.length 0x40000 0x80000)) &&
       g.kernels.all (fun k => !(k.covers c) || k.decls.all (fun x => match x with
         | .input _ len sp => !(overlap sp len 0x40000 0x80000)
         | _ => true)))))

def Graph.gangs (g : Graph) : List Nat := distinct (g.kernels.filterMap Kernel.gang)

/-- STATUS 4. -/
def Graph.gangsFit (g : Graph) : Bool :=
  g.gangs.all (fun i => g.cores.all (fun c =>
    let n := g.need i c
    decide (n.1 ≤ 24) && decide (n.2.1 ≤ 4) && decide (n.2.2 ≤ 8)))

/-- The local party slots that the image names. -/
def Graph.parties (g : Graph) : List Nat :=
  distinct (g.kernels.flatMap (fun k => k.decls.filterMap (fun x => match x with | .party i => some i.toNat | _ => none)))

/-- STATUS 5. -/
def Graph.bound (g : Graph) (d : Device) : Bool :=
  let slots := g.parties.map (fun i => bitsOf g.bind.toNat (4 * i) 4)
  slots.all (fun i => match (d.partState g.part).slots[i]? with
    | some x => x.keyva != 0 && x.tenants.getLsbD g.tenant.toNat
    | none => false) && (distinct slots).length == slots.length

/-- The ranges of a launch's authority (R325): base, end, spaces, permissions without those that follow from LD and ST. -/
def Graph.authority (g : Graph) (dev : BitVec 12) (secs : List Section) : List (Nat × Nat × List Nat × Nat) :=
  let lds := pLD + pST
  let sec (x : Section) : List (Nat × Nat × List Nat × Nat) :=
    match x.kind with
    | 1 => [(x.addr, x.addr + x.size, [0, 1], pLD + pEXEC)]
    | 2 => [(x.addr, x.addr + x.size, [0, 1], pLD)]
    | 3 | 4 => [(x.addr, x.addr + x.size, [0, 1], lds + pATOM)]
    | _ => []
  let slices := distinct (g.cores.map (fun c => 0x40000000 + c.toNat * 0x100000))
  let runEnd (a : Nat) : Nat := (rangeFrom 0 1024).foldl (fun e _ => if slices.contains e then e + 0x100000 else e) a
  let runs : List (Nat × Nat × List Nat × Nat) := slices.map (fun a => (a, runEnd a, [0, 2], lds + pATOM))
  let rights := g.cores.map (fun c => ((endpointOf dev c).toNat * 8, (endpointOf dev c).toNat * 8 + 8, [6], pCMD))
  secs.flatMap sec ++ [(0, 0x100000, [0, 3], lds + pATOM)] ++ runs ++ [(0, g.stores.length, [4], lds + pEVPOST)] ++ rights ++
  [(g.logva, g.logva + 64 + 16 * 2 ^ g.logn, [0, 1], pLD)] ++
  g.auth.map (fun a => (a.1, a.1 + a.2.1, [0, 1], a.2.2.toNat))

/-- Whether a permission mask is covered by another: LDCAP, STCAP and GLOBAL follow from LD or ST. -/
def permCovered (want have_ : Nat) : Bool :=
  let extra := if have_ &&& (pLD + pST) ≠ 0 then pLDCAP + pSTCAP + pGLOBAL else 0
  want &&& (have_ ||| extra) == want

/-- Whether a capability of an image is covered (R325). -/
def capCovered (auth : List (Nat × Nat × List Nat × Nat)) (q : Quad) : Bool :=
  auth.any (fun a => a.2.2.1.contains (capSpace q) && permCovered (capPerm q) a.2.2.2 &&
    decide ((a.1 : Int) ≤ capBase q) && decide (capTop q ≤ (a.2.1 : Int)))

/-- STATUS 6. A command right to the tiles of a core covers the endpoint times 8, plus the tile (R239). -/
def Graph.capsOk (g : Graph) (dev : BitVec 12) (secs : List Section) : Bool :=
  g.images.all (fun i => i.caps.all (fun c => capCovered (g.authority dev secs) c.2))

/-- The label of every page of an ash log includes LMAX (R196). R196 names no page without a translation: DESIGN CHOICE (log entry
124), such a page refuses the graph as well. -/
def State.ashOk (s : State) (r : Roots) (x : StoreDecl) : Bool :=
  let n := 16 * x.alsize * x.count
  x.refuse || (units 4096 x.albase.toNat n).all (fun p =>
    match Machine.combine s.d r .store false (4096 * p) with
    | .ok e => x.lmax.sub e.label
    | .error _ => false)

/-- The page of the host that the ash logs of a graph first meet: its IA and frame. -/
def State.ashFlip (s : State) (r : Roots) (g : Graph) : Option (Nat × Nat) :=
  g.stores.findSome? (fun x =>
    if x.refuse then none
    else (units 4096 x.albase.toNat (16 * x.alsize * x.count)).findSome? (fun p =>
      match Machine.combine s.d r .store false (4096 * p) with
      | .error (.flip ia frame) => some (ia, frame)
      | _ => none))

/-- STATUS 7. -/
def State.storesOk (s : State) (g : Graph) (x : Cof) (r : Roots) : Bool :=
  let areas := g.stores.map (fun d => (d, (rangeFrom 0 d.count).map (fun i => d.slice i)))
  (storeAddrs x.ks).all (fun a => storeReservedOk (globalBytes x.secs x.img a 64)) &&
  g.stores.all (fun d => d.ok && (d.pull || g.kernels.any (fun k => k.kind == 2 && k.entry == d.hentry)) && s.ashOk r d) &&
  areas.all (fun p => p.2.all (fun c => g.cores.contains c &&
    g.images.all (fun i => !i.shared ||
      !(overlap i.addr i.bytes.length (0x40000000 + c.toNat * 0x100000 + p.1.sloff)
          (0x40000000 + c.toNat * 0x100000 + p.1.sloff + 32 * p.1.cap))))) &&
  pairwise (fun (a b : StoreDecl × List CoreId) => !(a.2.any (fun c => b.2.contains c)) ||
    !(overlap a.1.sloff (32 * a.1.cap) b.1.sloff (b.1.sloff + 32 * b.1.cap))) areas

/-- The lowest table index of a partition that is free. -/
def Device.freeIndex (d : Device) (p : BitVec 2) : Option Nat :=
  (rangeFrom 0 4096).find? (fun i => !(d.graphs.any (fun g => g.part == p && g.live && g.index.toNat == i)))

/-- The generation of an index. -/
def Device.genOf (d : Device) (p : BitVec 2) (i : BitVec 12) : BitVec 8 :=
  (d.generations.find? (fun x => x.1 == p && x.2.1 == i)).elim 0 (·.2.2)

/-- Writes the global sections of an image (R324). -/
def State.writeSections (s : State) (r : Roots) (img : List Byte) : List Section → Except XFail State
  | [] => .ok s
  | x :: rest =>
    let bytes := if x.kind = 4 then List.replicate x.size 0#8 else x.bytes img
    match if 1 ≤ x.kind ∧ x.kind ≤ 4 then s.jobPut r x.addr bytes else .ok s with
    | .error f => .error f
    | .ok s => s.writeSections r img rest

/-! ### The mailbox (R322) -/

def Device.func (d : Device) (f : BitVec 6) : Func := d.funcs[f.toNat]?.getD Func.reset
def State.modFunc (s : State) (f : BitVec 6) (g : Func → Func) : State := { s with d := { s.d with funcs := vmod s.d.funcs f.toNat g } }

/-- Ends a mailbox command of a function: the result word, and a cause entry of kind 4 (R322, R374). -/
def State.funcResult (s : State) (f : BitVec 6) (status : Nat) (handle : Nat := 0) : State :=
  let w : Word := BitVec.ofNat 64 (1 + status % 16 * 16 + handle % 2 ^ 20 * 256)
  let s := s.modFunc f (fun x => { x with result := w, pending := none, withdrawing := none })
  { s with d := s.d.causeAdd 4 (s.d.func f).part.toNat f.toNat }

/-- Ends the commands of every function that a test picks. -/
def State.endCommands (s : State) (p : Func → Bool) : State :=
  (rangeFrom 0 64).foldl (fun s i => if p (s.d.func (BitVec.ofNat 6 i)) then s.funcResult (BitVec.ofNat 6 i) 0 else s) s

/-- Whether a function accepts a command: it is valid and none is running. -/
def Func.idle (f : Func) : Bool := f.valid && bitAt f.result 0

/-- What a request names, read at hypervisor authority: the image, the placement and authority tables. None of an image that breaks
R123 to R129 or cannot be read. -/
def State.readRequest (s : State) (r : Roots) (q : Request) :
    Except XFail (Option (Cof × List Kernel × List (Nat × Nat × BitVec 12) × Bool)) :=
  match s.jobBytes r q.imageva q.imagesize with
  | .error f => .error f
  | .ok img => match readCof img with
    | none => .ok none
    | some x =>
      match s.jobBytes r q.placeva (16 * x.ks.length), s.jobBytes r q.authva (16 * q.authn) with
      | .ok p, .ok a =>
        let ps := chunks 16 x.ks.length p
        let as := chunks 16 q.authn a
        let clean := ps.all (fun e => placementOk (bytesAt e 0 8) (bytesAt e 8 8)) && as.all (fun e => bytesAt e 14 2 < 4096)
        .ok (some (x, placeAll x x.ks ps,
          as.map (fun e => (bytesAt e 0 8, bytesAt e 8 6, BitVec.ofNat 12 (bytesAt e 14 2))), clean))
      | .error f, _ => .error f
      | _, .error f => .error f

/-- The first check of R324 that a graph fails, after the image: its STATUS. -/
def State.checkGraph (s : State) (g : Graph) (x : Cof) (r : Roots) : Nat :=
  if !(g.placed s.d) then 2
  else if !(g.reservable s.d) then 3
  else if !g.gangsFit then 4
  else if !(g.bound s.d) then 5
  else if !(g.capsOk s.d.fabric.device x.secs) then 6
  else if !(s.storesOk g x r) then 7
  else 0

/-- A graph that has passed the checks: its global sections are written, and it has a handle. -/
def State.registered (s : State) (func : BitVec 6) (r : Roots) (g : Graph) (x : Cof) : State :=
  match s.d.freeIndex g.part with
  | none => s.funcResult func 9
  | some i => match s.writeSections r x.img x.secs with
    | .error f => s.stopWork r f (.register func) (fun s => s.funcResult func 11)
    | .ok s =>
      let index := BitVec.ofNat 12 i
      let gen := s.d.genOf g.part index
      State.funcResult { s with d := { s.d with graphs := s.d.graphs ++ [{ g with index, gen }] } } func 0 (gen.toNat * 4096 + i)

/-- The registration that a function's mailbox holds (R324): the checks in their order, the global sections, and a handle. -/
def State.registration (s : State) (func : BitVec 6) : State :=
  let f := s.d.func func
  let q := requestOf f.request
  let r := s.jobRoots f.part q.job
  if !(q.ok func f) then s.funcResult func 10
  else match s.readRequest r q with
    | .error e => s.stopWork r e (.register func) (fun s => s.funcResult func 1)
    | .ok none => s.funcResult func 1
    | .ok (some (x, kernels, auth, clean)) =>
      if !clean then s.funcResult func 10
      else
        let g := q.graph x func f kernels auth
        let st := s.checkGraph g x r
        match if st = 7 then s.ashFlip r g else none with
        | some (ia, frame) => s.holdWork r ia frame (.register func)
        | none => if st ≠ 0 then s.funcResult func st else s.registered func r g x

/-- The handle of a graph. -/
def Graph.handle (g : Graph) : Nat := g.gen.toNat * 4096 + g.index.toNat

/-- Whether a launch of a graph lives. -/
def Device.hasLaunch (d : Device) (p : BitVec 2) (i : BitVec 12) (gen : BitVec 8) : Bool :=
  d.launches.any (fun l => launchPart l.key == p && l.graph == i && l.gen == gen)

/-- A graph of a function by its handle. -/
def Device.funcGraph (d : Device) (func : BitVec 6) (handle : Nat) : Option Graph :=
  d.graphs.find? (fun g => g.live && g.func == func && g.part == (d.func func).part && g.handle == handle)

/-- Frees the index of a graph and raises its generation (R326); the graph stays for the launches that live. -/
def State.unregister (s : State) (g : Graph) : State :=
  let gens := (g.part, g.index, g.gen + 1) :: s.d.generations.filter (fun x => !(x.1 == g.part && x.2.1 == g.index))
  let graphs := s.d.graphs.map (fun (x : Graph) => if x.part = g.part ∧ x.index = g.index ∧ x.gen = g.gen then { x with live := false } else x)
  { s with d := { s.d with graphs, generations := gens } }

/-- Ends the unregister commands whose launches have ended, and forgets graphs that nothing needs. -/
def State.settleGraphs (s : State) : State :=
  let done (f : Func) : Bool := match f.pending with
    | some (i, gen) => !(s.d.hasLaunch f.part i gen)
    | none => false
  let s := s.endCommands done
  { s with d := { s.d with graphs := s.d.graphs.filter (fun g => g.live || s.d.hasLaunch g.part g.index g.gen) } }

/-- Mailbox command 2 (R326): it ends when the launches of the graph have ended. An unknown handle gives STATUS 1. -/
def State.unregistration (s : State) (func : BitVec 6) (handle : Nat) : State :=
  match s.d.funcGraph func handle with
  | none => s.funcResult func 1
  | some g => ((s.unregister g).modFunc func (fun f => { f with pending := some (g.index, g.gen) })).settleGraphs

/-- Mailbox command 3 (R334): a launch of the graph of a handle; the command ends with it. An unknown one gives STATUS 1. -/
def State.withdrawal (s : State) (func : BitVec 6) (handle number : Nat) : State :=
  let key := (s.d.func func).part.toNat * 4294967296 + number
  if (s.d.launchOf key).isNone || !((s.d.launchGraph key).any (fun g => g.func == func && g.handle == handle)) then s.funcResult func 1
  else (s.withdraw key).modFunc func (fun f => { f with withdrawing := some key })

/-- A command word written to a function's mailbox (R322). One that is written while a command runs is ignored. A reserved value or bit
gives STATUS 10, and so does a field that its command does not use: DESIGN CHOICE (log entry 130). -/
def State.mailboxWord (s : State) (func : BitVec 6) (word : Word) : State :=
  if !(s.d.func func).idle then s
  else
    let s := s.modFunc func (fun f => { f with result := 0 })
    let handle := bitsOf word.toNat 4 20
    let number := bitsOf word.toNat 24 32
    if bitsOf word.toNat 56 8 ≠ 0 then s.funcResult func 10
    else match bitsOf word.toNat 0 4 with
      | 1 => if handle ≠ 0 ∨ number ≠ 0 then s.funcResult func 10 else s.registration func
      | 2 => if number ≠ 0 then s.funcResult func 10 else s.unregistration func handle
      | 3 => s.withdrawal func handle number
      | _ => s.funcResult func 10

/-- `REGISTER` (R322, R324): a request record and the command word after it. -/
def execRegister (func : BitVec 6) (mailbox : BitVec 576) (s : State) : Out :=
  let request := mailbox.extractLsb' 0 512
  .next ((if (s.d.func func).idle then s.modFunc func (fun f => { f with request }) else s).mailboxWord func (mailbox.extractLsb' 512 64))

/-- `UNREGISTER` (R322, R326): a command word with CMD 2. -/
def execUnregister (func : BitVec 6) (word : BitVec 60) (s : State) : Out := .next (s.mailboxWord func (word ++ 2#4))

/-- `WITHDRAW` (R322, R334): a command word with CMD 3. -/
def execWithdraw (func : BitVec 6) (word : BitVec 60) (s : State) : Out := .next (s.mailboxWord func (word ++ 3#4))

end Sys2Proof.Machine
end

