-- ==== Sys2Proof/Machine/Launch.lean ====
section
/-! DEFINITION. Launches (R327 to R335), the giving of slots (R432), and the start of a scheduling period (R336). -/

namespace Sys2Proof.Machine

/-! ### Launch words (R327, R328) -/

def wordHandle (w : Word) : Nat := bitsOf w.toNat 44 20
def wordArgs (w : Word) : Nat := bitsOf w.toNat 0 44 * 16

/-- The graph that a handle names in a partition. -/
def Device.graphOf (d : Device) (p : BitVec 2) (handle : Nat) : Option Graph :=
  d.graphs.find? (fun g => g.live && g.part == p && g.handle == handle)

/-- Puts a launch word at the end of a partition's queue, unless that holds 256. -/
def State.queueWord (s : State) (p : BitVec 2) (w : Word) (func : Option (BitVec 6)) : Option State :=
  if 256 ≤ (s.d.partState p).queue.length then none
  else some (s.modPart p (fun q => { q with queue := q.queue ++ [(w, func)] }))

/-- `LAUNCH` (R328): a doorbell word is queued for a handle registered through the function, or counted in LDROP. -/
def execLaunch (func : BitVec 6) (word : BitVec 64) (s : State) : Out :=
  .next (let f := s.d.func func
    let drop := s.modFunc func (fun x => { x with ldrop := x.ldrop + 1 })
    if !f.valid then s
    else if (s.d.funcGraph func (wordHandle word)).isNone then drop
    else (s.queueWord f.part word (some func)).getD drop)

/-- Whether the access-control table of a partition admits a launch packet (R328). -/
def Part.admitsLaunch (p : Part) (dev : BitVec 12) (job : BitVec 16) (handle : Nat) : Bool :=
  (rangeFrom 64 64).any (fun i =>
    let e := (p.qos[i]?.getD 0).toNat
    bitsOf e 0 1 == 1 && bitsOf e 52 12 == dev.toNat && bitsOf e 36 16 == job.toNat && bitsOf e 16 20 == handle)

/-- Admits a launch packet: the STATUS of its reply, and the state after it. -/
def State.admitPacket (s : State) (p : BitVec 2) (dev : BitVec 12) (job : BitVec 16) (w : Word) : Nat × State :=
  if !((s.d.partState p).admitsLaunch dev job (wordHandle w)) then (0x06, s)
  else match s.queueWord p w none with
    | some s => (0, s)
    | none => (0x0E, s)

/-- The store to a launch region of this device that a packet came from. -/
def State.ownLaunch (s : State) (w : Word) : Option (CoreId × Nat) :=
  let mine (o : PendOp) : Bool := !o.peer && o.stage.isSent && (match o.kind with
    | .access a => a.home == .peer s.d.fabric.device && a.kind == .st .d && a.data == w.setWidth 512
    | _ => false)
  s.allCores.findSome? (fun c => c.tasks.findSome? (fun p => (p.2.ops.find? mine).map (fun o => (c.id, o.id))))

/-- `LAUNCH_PACKET` (R328): a packet is admitted to its partition's queue or refused. For a packet of this device the store
that sent it has its answer. -/
def execLaunchPacket (part : BitVec 2) (dev : BitVec 12) (job : BitVec 16) (word : BitVec 64) (s : State) : Out :=
  .next (let (st, s) := s.admitPacket part dev job word
    if dev = s.d.fabric.device then
      match s.ownLaunch word with
      | some (core, op) =>
        s.setStage core op (if st = 0 then .executed (plainResult 0 0) else .failed 0x11 (BitVec.ofNat 32 st))
      | none => s
    else s)

/-! ### The launch log (R333) -/

/-- Writes a record to a launch log, then raises HEAD. A log that cannot be written is left; a page of the host is awaited (R318). -/
def State.writeLog (s : State) (part : BitVec 2) (job : BitVec 16) (logva logn : Nat) (w : Word) (kind status detail : Nat) : State :=
  let r := s.jobRoots part job
  let stop (f : XFail) : State := s.stopWork r f (.log part job logva logn w kind status detail) (fun s => s)
  match s.jobBytes r logva 8 with
  | .error f => stop f
  | .ok h =>
    let head := ofBytes h
    let bytes := toBytes 8 w.toNat ++ toBytes 1 kind ++ toBytes 1 status ++ toBytes 2 0 ++ toBytes 4 detail
    match s.jobPut r (logva + 64 + 16 * (head % 2 ^ logn)) bytes with
    | .error f => stop f
    | .ok s => (s.jobPut r logva (toBytes 8 (head + 1))).toOption.getD s

/-- Whether held work is a record of a launch log. -/
def CtlWork.logs (part : BitVec 2) (logva : Nat) : CtlWork → Bool
  | .log p _ va _ _ _ _ _ => p == part && va == logva
  | _ => false

/-- A record of the launch log of a graph, behind those of the log that are held back. -/
def State.logRecord (s : State) (g : Graph) (w : Word) (kind status detail : Nat) : State :=
  match s.d.heldWork.find? (fun x => x.work.logs g.part g.logva) with
  | some x => { s with d := { s.d with heldWork := s.d.heldWork ++
      [{ x with work := .log g.part g.job g.logva g.logn w kind status detail }] } }
  | none => s.writeLog g.part g.job g.logva g.logn w kind status detail

/-! ### The steps of a launch (R329) -/

/-- The size of the argument block. -/
def Graph.argBytes (g : Graph) : Nat := (g.kernels.filter (fun k => k.start != 0)).foldl (fun n k => max n k.args) 0

/-- Whether the argument block of a word lies on a peer. -/
def State.argPeer (s : State) (g : Graph) (w : Word) : Bool :=
  match s.d.fabric.region g.job g.part (wordArgs w) with
  | some (1, dev, _) => dev != s.d.fabric.device
  | _ => false

/-- The argument block of a word in this device's memory. -/
def State.argBlock (s : State) (g : Graph) (w : Word) : Except XFail (List Byte) :=
  s.jobBytes (s.jobRoots g.part g.job) (wordArgs w) g.argBytes

/-- Step 2: the cause that the argument block's read meets, 0 for none. What a peer answers is free. -/
def State.argFault (s : State) (g : Graph) (w : Word) : Nat × State :=
  if g.argBytes = 0 then (0, s)
  else if s.argPeer g w then let (b, s) := s.freeBit; (if b then 0x11 else 0, s)
  else match s.argBlock g w with
    | .error f => (f.code, s)
    | .ok _ => (0, s)

/-- Whether a graph has what one launch at a time holds: ember areas, a shared image, pipe buffers. -/
def Graph.exclusive (g : Graph) : Bool :=
  !g.stores.isEmpty || g.images.any (·.shared) || g.kernels.any (fun k => !k.pipes.isEmpty)

/-- Step 3: a live launch of the job holds such areas. -/
def Device.areasHeld (d : Device) (g : Graph) : Bool :=
  d.launches.any (fun l => launchPart l.key == g.part &&
    (d.launchGraph l.key).any (fun h => h.job == g.job && h.exclusive))

/-- The ranges of rings of every launch. -/
def Device.ringRanges (d : Device) : List (Nat × Nat) :=
  d.launches.flatMap (fun l => l.rings.map (fun r => (r.pa, r.entries * r.size)))

/-- Reserves rings in the pools of their producers' dies. -/
def Device.reserveRings (d : Device) (g : Graph) (taken : List (Nat × Nat)) :
    List (Nat × CoreId × Nat × Nat) → Option (List Ring)
  | [] => some []
  | (q, c, entries, size) :: rest =>
    let pool := d.ringPool g.part (CoreId.die c).toNat
    match firstFit 64 pool.1 pool.2 (entries * size) taken with
    | none => none
    | some pa => match d.reserveRings g ((pa, entries * size) :: taken) rest with
      | none => none
      | some l => some ({ queue := q, producer := c, consumer := g.consumer q, pa, entries, size, pushed := 0, recv := 0,
                          pulled := 0, back := 0 } :: l)

/-- The first core of the member of a pipe with a role. -/
def Graph.pipeCore (g : Graph) (id : Nat) (recv : Bool) : CoreId :=
  ((g.kernels.find? (fun k => k.pipes.contains (id, recv))).bind (fun k => k.region.head?)).getD 0

/-- The pipes of a launch: a core's buffers lie one after another from scratchpad offset 0x4_0000. -/
def Graph.pipes (g : Graph) : List Pipe :=
  g.cores.flatMap (fun c =>
    ((g.received c).foldl (fun (acc : List Pipe × Nat) p =>
      (acc.1 ++ [{ id := p.1, sender := g.pipeCore p.1 false, receiver := c, base := acc.2, size := p.2.2, depth := p.2.1,
                   credits := p.2.1, next := 0, held := [], closed := false, closeArrived := false, recvEnded := false }],
       acc.2 + p.2.1 * p.2.2)) ([], 0x40000)).1)

/-- Allocates the save areas of a job on its cores. -/
def Device.reserveAreas (d : Device) (job : BitVec 16) : List CoreId → Option Device
  | [] => some d
  | c :: r => match d.newSaveArea job c with
    | none => none
    | some d => d.reserveAreas job r

/-- JSCAP of a core for a graph (R331). -/
def Graph.jscap (g : Graph) : Val :=
  let perm := pLD + pST + pLDCAP + pSTCAP
  let spads := g.images.filter (fun i => !i.shared)
  match spads with
  | [] => (exactCap 0x80000 0 perm 3 0#16).getD Val.zero
  | i :: r =>
    let lo := r.foldl (fun m x => min m x.addr) i.addr
    let hi := r.foldl (fun m x => max m (x.addr + x.bytes.length)) (i.addr + i.bytes.length)
    (exactCap lo (hi - lo) perm 3 0#16).getD Val.zero

/-- Writes an image into a bank at a base, with its capability granules tagged. -/
def Bank.putImage (b : Bank) (i : Image) : Bank :=
  i.caps.foldl (fun b c => b.putCap c.1 c.2 true) (b.putBytes i.addr i.bytes)

/-- A core of the job receives its scratchpad image and JSCAP. -/
def State.launchCore (s : State) (g : Graph) (c : CoreId) : State :=
  s.atCore c (fun s =>
    let s := s.giveSpad g.job
    let spads := g.images.filter (fun i => !i.shared)
    let dirty := spads.foldl (fun m i => (units 4096 i.addr i.bytes.length).foldl (fun m p => m ||| BitVec.ofNat 256 (2 ^ p)) m) s.c.dirty
    let core := { s.c with spad := spads.foldl Bank.putImage s.c.spad, dirty }
    { s with c := core.setJobRegs { core.jobRegs g.job with jscap := g.jscap } })

/-- The slices of a launch: ember areas clear, thresholds set, ash logs empty (R196). -/
def Graph.slices (g : Graph) (key : Nat) : List Slice :=
  g.stores.flatMap (fun x => (rangeFrom 0 x.count).map (fun i =>
    { core := x.slice i, job := g.job, launch := key, decl := x, index := i, embers := [], thresh := x.thresh,
      flushing := false, ash := [], ashHead := 0, created := 0, handlers := 0, leases := [], reposts := 0 }))

/-- Zeroes the ember areas of a launch in the shared memory. -/
def Bank.clearAreas (b : Bank) (l : List Slice) : Bank :=
  let inArea (a : Nat) : Bool := l.any (fun x =>
    decide (x.area ≤ a) && decide (a < x.area + 32 * x.decl.cap))
  { b with mem := b.mem.filter (fun c => !inArea c.1), tags := b.tags.filter (fun t => !inArea (16 * t)),
           poison := b.poison.filter (fun p => !inArea (64 * p)) }

/-- A task that a launch starts, its TID still to be given (R331). -/
def launchTask (g : Graph) (k : Kernel) (key : Nat) (w : Word) : Task :=
  let ceil := minPrio k.prio g.priocap
  let block := wordArgs w
  let arg := if k.args = 0 then Val.zero else (exactCap block k.args pLD 1 0#16).getD Val.zero
  { newTask 0 k.entry k.kind.toNat ceil ceil g.level.toNat 0 g.job key with
    g := ((Vector.replicate 16 Val.zero).set 1 g.jscap).set 2 arg }

/-- Names a launch task on the core in focus, with its creation record. -/
def State.nameTask (s : State) (t : Task) : Task × State :=
  let (tid, s) := s.newTid t.job
  let t := { t with tid, tidReg := tid }
  (t, s.recordCreate t 0 0)

/-- Puts a start task among the records that wait on its core (R13). -/
def State.queueStart (s : State) (t : Task) (c : CoreId) : State :=
  s.atCore c (fun s =>
    let (t, s) := s.nameTask t
    { s with c := { s.c with startQ := s.c.startQ ++ [t] } })

/-- Steps 5 and 6 of R329. A partition's launches are numbered from 1, so that 0 stands for none (log entry 17). -/
def State.launchNow (s : State) (g : Graph) (w : Word) (rings : List Ring) : State :=
  let no := (s.d.partState g.part).launchNo + 1
  let key := g.part.toNat * 4294967296 + no.toNat
  let sl := g.slices key
  let shared := (g.images.filter (·.shared)).foldl Bank.putImage (s.d.shared.clearAreas sl)
  let gangs := g.gangs.filter (fun i => !(g.members i).isEmpty)
  let l : Launch := {
    key, word := w, graph := g.index, gen := g.gen, state := if gangs.isEmpty then .live else .gangWaiting, rings,
    data := [], pipes := g.pipes }
  let s := s.modPart g.part (fun p => { p with launchNo := no, gangs := p.gangs ++ gangs.map (fun i => (key, i)) })
  let s := { s with d := { s.d with
    shared, launches := s.d.launches ++ [l], slices := s.d.slices.filter (fun (x : Slice) => x.job != g.job || !(g.cores.contains x.core)) ++ sl } }
  let s := g.cores.foldl (fun s c => s.launchCore g c) s
  let plain := g.kernels.filter (fun k => k.start != 0 && k.gang.isNone)
  let s := plain.foldl (fun s k => k.starts.foldl (fun s c => s.queueStart (launchTask g k key w) c) s) s
  s.logRecord g w 1 0 no.toNat

/-- A refusal's record. -/
def State.refuseLaunch (s : State) (g : Graph) (w : Word) (status detail : Nat) : State := s.logRecord g w 3 status detail

/-- The steps of R329 for a word. A word of an unknown handle has no log to be refused in but that of the index. -/
def State.serve (s : State) (p : BitVec 2) (w : Word) : State :=
  match s.d.graphOf p (wordHandle w) with
  | none => match s.d.graphs.find? (fun g => g.part == p && g.live && g.index.toNat == wordHandle w % 4096) with
    | some g => s.refuseLaunch g w 1 0
    | none => s
  | some g =>
    let (c, s) := s.argFault g w
    if c ≠ 0 then s.refuseLaunch g w 5 c
    else if s.d.areasHeld g then s.refuseLaunch g w 4 0
    else match s.d.reserveRings g s.d.ringRanges g.rings with
      | none => s.refuseLaunch g w 3 0
      | some rings => match s.d.reserveAreas g.job g.cores with
        | none => s.refuseLaunch g w 3 0
        | some d => ({ s with d }).launchNow g w rings

/-- The page of the host that holds back the service of a word: its roots, IA and frame. -/
def State.argFlip (s : State) (p : BitVec 2) (w : Word) : Option (Roots × Nat × Nat) :=
  (s.d.graphOf p (wordHandle w)).bind (fun g =>
    if g.argBytes = 0 || s.argPeer g w then none
    else match s.argBlock g w with
      | .error (.flip ia frame) => some (s.jobRoots g.part g.job, ia, frame)
      | _ => none)

/-- `LAUNCH_WORD_SERVICE` (R329): the word at the head of a partition's queue. It waits for an argument block on a page of the host. -/
def execLaunchWordService (part : BitVec 2) (s : State) : Out :=
  .next (match (s.d.partState part).queue with
    | [] => s
    | (w, _) :: r =>
      if s.d.stopped part then s
      else match s.argFlip part w with
        | some (roots, ia, frame) => s.startFlip roots.part roots.vmid ia frame
        | none => (s.modPart part (fun q => { q with queue := r })).serve part w)

/-! ### Gangs (R335) -/

/-- Whether the core in focus has all that a gang needs of it. -/
def State.holds (s : State) (n : Nat × Nat × Nat) : Bool :=
  decide (n.1 ≤ s.freeSlots) && decide (n.2.1 + s.anchored ≤ 4) && decide (n.2.2 + tileCount s.grantedTiles ≤ 8) &&
  (n.1 == 0 || (s.c.upcallQ.isEmpty && !s.c.fenced))

/-- Starts a member of a gang on the core in focus. -/
def State.startMember (s : State) (t : Task) : State :=
  match s.freeSlot with
  | none => s
  | some n =>
    let (t, s) := s.nameTask t
    (s.acquire .sys).startAt n t

/-- `GANG_PLACEMENT` (R335): the gang at the head starts, all members in one step, once its whole need is held. -/
def execGangPlacement (part : BitVec 2) (s : State) : Out :=
  .next (match (s.d.partState part).gangs with
    | [] => s
    | (key, i) :: r => match s.d.launchGraph key, s.d.launchOf key with
      | some g, some l =>
        let cells := g.cores.filter (fun c => (g.need i c).1 != 0)
        if s.d.stopped part || !(cells.all (fun c => (s.focus c).holds (g.need i c))) then s
        else
          let s := (g.members i).foldl (fun s k => k.starts.foldl (fun s c =>
            s.atCore c (fun s => s.startMember (launchTask g k key l.word))) s) s
          let s := s.modPart part (fun q => { q with gangs := r })
          if r.any (fun x => x.1 == key) then s
          else { s with d := s.d.modLaunch key (fun l => { l with state := .live }) }
      | _, _ => s.modPart part (fun q => { q with gangs := r }))

/-! ### Completion (R333, R334) -/

/-- Whether a core holds work of a launch. -/
def Core.worksFor (c : Core) (key : Nat) : Bool :=
  c.tasks.any (fun p => p.2.launch == key) || c.upcallQ.any (fun t => t.launch == key) || c.startQ.any (fun t => t.launch == key) ||
  c.staging.any (fun r => r.spawn.launch == key) || c.pendFires.any (fun r => r.launch == key) ||
  c.reserved.any (fun r => r.2 == key) || c.dqMeta.any (fun m => m.2.1 == key && !m.2.2)

/-- Whether a launch has live work: a task, a record, an inbound message, or an eligible ember to be dispatched. -/
def State.lives (s : State) (l : Launch) : Bool :=
  s.allCores.any (fun c => c.worksFor l.key) || s.d.saved.any (fun v => v.task.launch == l.key) ||
  s.d.net.any (fun m => m.ofLaunch l.key) || !l.data.isEmpty || l.rings.any (fun r => decide (r.back < r.pushed)) ||
  s.d.slices.any (fun x => x.launch == l.key && !x.decl.pull && x.embers.any x.eligible) ||
  (s.d.partState (launchPart l.key)).gangs.any (fun g => g.1 == l.key)

/-- Whether operations of a withdrawn launch are still on their way (R373). -/
def State.draining (s : State) (key : Nat) : Bool :=
  s.d.orphans.any (fun o => match o.2.2.kind with | .access a => a.launch == key | _ => false)

/-- Ends a launch: its reservations are freed and its record is written. -/
def State.endLaunch (s : State) (l : Launch) (kind : Nat) : State :=
  let g := s.d.launchGraph l.key
  let s := match g with
    | some g => s.logRecord g l.word kind 0 (launchNumber l.key)
    | none => s
  let s := State.freeAreas { s with d := { s.d with launches := s.d.launches.filter (fun x => x.key != l.key) } }
  (s.endCommands (fun f => f.withdrawing == some l.key)).settleGraphs

/-- `LAUNCH_COMPLETION` (R333): a launch with no live work completes; a withdrawn one ends after its drain window. -/
def execLaunchCompletion (part : BitVec 2) (number : BitVec 32) (s : State) : Out :=
  .next (match s.d.launchOf (part.toNat * 4294967296 + number.toNat) with
    | none => s
    | some l => match l.state with
      | .withdrawing => if s.draining l.key then s else s.endLaunch l 4
      | .gangWaiting => s
      | .live => if s.lives l then s else s.endLaunch l 2)

/-! ### The giving of slots (R432) -/

/-- Starts a queued record in a slot of the core in focus; the record of a ring is consumed. -/
def State.startQueued (s : State) (n : Nat) : State :=
  match s.c.startQ with
  | [] => s
  | t :: r =>
    let d := match t.fromRing with
      | some i => s.d.consume t.launch i
      | none => s.d
    ((({ s with c := { s.c with startQ := r }, d }).acquire .sys).startAt n { t with fromRing := none })

/-- Starts the record at BOT − 1 of the deque in a slot. -/
def State.startDeque (s : State) (n : Nat) : State :=
  match s.c.popBot (fun _ => true) with
  | (none, c) => { s with c }
  | (some r, c) => (({ s with c }).acquire .part).startAt n (s.d.childOf r 0)

/-- Whether a class has something waiting on the core in focus: queued records, ember dispatch, the deque. -/
def State.classWaits (s : State) (k : Nat) : Bool :=
  match k with
  | 0 => !s.c.startQ.isEmpty
  | 1 => !s.dispatchable.isEmpty
  | _ => s.c.dqLive

/-- The class whose turn it is. -/
def State.turnClass (s : State) : Option Nat :=
  [1, 2, 3].map (fun k => (s.c.lastClass.toNat + k) % 3) |>.find? s.classWaits

/-- `SLOT_GRANT` (R432). -/
def execSlotGrant (core : CoreId) (s : State) : Out :=
  .next (let f := s.focus core
    if f.halted then s
    else match f.freeSlot, f.c.upcallQ with
    | none, _ => s
    | some n, t :: r => (({ f with c := { f.c with upcallQ := r } }).acquire .part).startAt n t
    | some _, [] => match f.rotationSlot, f.turnClass with
      | some n, some k =>
        let f := { f with c := { f.c with lastClass := BitVec.ofNat 2 k } }
        (match k with
         | 0 => f.startQueued n
         | 1 => (match f.dispatchable with
           | sl :: _ => f.dispatch sl n
           | [] => f)
         | _ => f.startDeque n)
      | _, _ => s)

/-- `EMBER_DISPATCH` (R210): a slice of the core dispatches when it is the turn of that class. -/
def execEmberDispatch (core : CoreId) (job : BitVec 16) (store : BitVec 8) (s : State) : Out :=
  .next (let f := s.focus core
    if f.halted then s
    else match f.rotationSlot with
    | none => s
    | some n => match f.dispatchable.find? (fun x => x.job == job && x.decl.num == store) with
      | none => s
      | some sl =>
        if f.turnClass == some 1 then ({ f with c := { f.c with lastClass := 1 } }).dispatch sl n else s)

/-! ### The start of a period (R336, R341) -/

/-- The words of a partition's QoS block; an entry of a pool that holds rings stays as it is (R330). -/
def Device.readQos (d : Device) (p : BitVec 2) : Vector Word 128 :=
  let pa := d.qosPa p
  let old := (d.partState p).qos
  let held (i : Nat) : Bool :=
    let (b, n) := d.ringPool p (((partDies d p)[i]?).getD 4)
    d.ringRanges.any (fun r => decide (b ≤ r.1) && decide (r.1 < b + n))
  Vector.ofFn (fun (k : Fin 128) =>
    if 40 ≤ k.val ∧ k.val < 48 ∧ held ((k.val - 40) / 2) then old[k]
    else BitVec.ofNat 64 (d.gmem.mem.read (pa + 8 * k.val) 8))

/-- `QOS_PERIOD_START` (R336): every 52,500 cycles the blocks are read and the balances, the debts and the background use
start afresh. -/
def execQosPeriodStart (s : State) : Out :=
  .next (if s.d.cycle < 52500 * s.d.periods then s
    else
      let parts := Vector.ofFn (fun (i : Fin 4) =>
        let p := BitVec.ofNat 2 i.val
        if (partDies s.d p).isEmpty then s.d.partState p else { s.d.partState p with qos := s.d.readQos p })
      let d := { s.d with
        parts, periods := s.d.periods + 1, used := [], slices := s.d.slices.map (fun (x : Slice) => { x with reposts := 0 }) }
      let f (c : Core) : Core := c.newPeriod (d.partState (d.partOf (CoreId.die c.id)))
      { s with c := f s.c, d := { d with cores := d.cores.map f } })

end Sys2Proof.Machine
end

