-- ==== Sys2Proof/Machine/Partition.lean ====
section
/-! DEFINITION. The commands of the partition control block (R365 to R378) and the interrupt cause table's consumption
(R374). -/

namespace Sys2Proof.Machine

/-! ### Operands and tables (R368, R369) -/

/-- A field of a command's operands, by its first byte and length. -/
def opField (ops : BitVec 512) (lo n : Nat) : Nat := bitsOf ops.toNat (8 * lo) (8 * n)

/-- Whether a command of a mailbox is the one that runs. -/
def Part.runs (p : Part) (hyp : Bool) (cmd : Nat) (ops : BitVec 512) : Bool :=
  let b := p.box hyp
  !(bitAt b.result 0) && b.command == BitVec.ofNat 64 cmd && b.operands == ops

/-- Runs a command of a mailbox, when it is the one that runs: its end is a STATUS, a VALUE and a state. -/
def State.command (s : State) (p : BitVec 2) (hyp : Bool) (cmd : Nat) (ops : BitVec 512) (k : State → Nat × Nat × State) : State :=
  if !((s.d.partState p).runs hyp cmd ops) then s
  else
    let (st, v, s) := k s
    s.result p hyp st v

/-- Writes bytes into the control block of a partition. -/
def State.putControl (s : State) (p : BitVec 2) (off : Nat) (l : List Byte) : State :=
  { s with d := { s.d with gmem := s.d.gmem.putBytes (controlPa p + off) l } }

/-- Whether a party slot of a partition is valid (R370). -/
def Part.slotValid (p : Part) (i : Nat) : Bool := (p.slots[i]?).any (fun x => x.keyva != 0)

/-- Whether every slot that a label names is valid. -/
def Part.labelValid (p : Part) (l : Label) : Bool := (rangeFrom 0 16).all (fun i => !(l.getLsbD i) || p.slotValid i)

/-! ### SETLABEL (R372) -/

/-- Whether bytes of a core's scratchpad hold its deque or pipe buffers. -/
def State.spadKept (s : State) (c : CoreId) (a n : Nat) : Bool :=
  let k := s.core c
  overlap a n k.dqBase.toNat k.dqLimit.toNat ||
  s.d.launches.any (fun l => l.pipes.any (fun p => p.receiver == c && overlap a n p.base (p.base + p.size * p.depth)))

/-- Sets the label of pages of a bank. -/
def Bank.setLabels (b : Bank) (page n : Nat) (l : Label) : Bank := (rangeFrom page n).foldl (fun b p => b.setLabel p l) b

/-- `SETLABEL` (R372). -/
def execSetlabel (part : BitVec 2) (operands : BitVec 512) (s : State) : Out :=
  .next (s.command part false 1 operands (fun s =>
    let core := opField operands 0 8
    let addr := opField operands 8 8
    let count := opField operands 16 8
    let label : Label := BitVec.ofNat 16 (opField operands 24 2)
    let spad := decide (addr < 0x100000)
    let c := Endpoint.core (BitVec.ofNat 24 core)
    let bytes := 4096 * count
    if opField operands 26 38 ≠ 0 || addr % 4096 ≠ 0 || (2 ^ 24 ≤ core) || core % 4 ≠ 0 || (!spad && core != 0) then (1, 0, s)
    else
      let inside := if spad then
          Endpoint.dev (BitVec.ofNat 24 core) == s.d.fabric.device && s.d.partOf (CoreId.die c) == part &&
          decide (addr + bytes ≤ 0x100000)
        else
          decide (0x40000000 ≤ addr) && decide (addr + bytes ≤ 0x80000000) &&
          (rangeFrom (addr / 4096) count).all (fun p => s.d.partOf (CoreId.die (sliceCore (4096 * p - 0x40000000))) == part)
      let kept := if spad then s.spadKept c addr bytes else s.d.emberGuarded addr bytes
      if !inside || !((s.d.partState part).labelValid label) || kept then (2, 0, s)
      else if spad then (0, 0, s.modCore c (fun k => { k with spad := k.spad.setLabels (addr / 4096) count label }))
      else (0, 0, { s with d := { s.d with shared := s.d.shared.setLabels (addr / 4096) count label } })))

/-! ### PREEMPT (R342, R369) -/

/-- `PREEMPT` (R369): the command ends when the task has been saved. -/
def execPreempt (part : BitVec 2) (operands : BitVec 512) (s : State) : Out :=
  .next (if !((s.d.partState part).runs false 2 operands) then s
    else
      let tid : Tid := BitVec.ofNat 48 (opField operands 0 6)
      if opField operands 6 58 ≠ 0 then s.result part false 1
      else match s.find tid with
        | some (c, _) =>
          if s.d.partOf (CoreId.die c) = part then s.modPart part (fun q => { q with preempting := q.preempting ++ [tid] })
          else s.result part false 4
        | none => s.result part false (if (s.d.savedOf tid).any (fun v => s.d.partOf (CoreId.die v.core) == part) then 0 else 4))

/-! ### Nonces and policies (R369, R375 to R377) -/

/-- `GETNONCE` (R369). -/
def execGetnonce (part : BitVec 2) (operands : BitVec 512) (s : State) : Out :=
  .next (s.command part false 3 operands (fun s =>
    if operands ≠ 0 then (1, 0, s)
    else
      let n := Config.nonce s.d.free
      let s := { s with d := { s.d with free := s.d.free + 1 } }
      (0, 0, (s.modPart part (fun q => { q with nonce := some n })).putControl part 80 (toBytes 32 n.toNat))))

/-- Reads memory that a command names at hypervisor authority: the system window, or the address space of job 0 (log entry
18). -/
def State.hypBytes (s : State) (p : BitVec 2) (va n : Nat) : Except XFail (List Byte) :=
  if 2 ^ 56 ≤ va ∧ va < 2 ^ 56 + 2 ^ 48 then .ok (s.d.gmem.mem.bytes (va - 2 ^ 56) n)
  else s.jobBytes (s.jobRoots p 0) va n

/-- The slots of a label, in ascending order. -/
def slotsOf (l : Label) : List Nat := (rangeFrom 0 16).filter (fun i => l.getLsbD i)

/-- The policy that a record's body describes, at a table place (R375). -/
def policyOf (b : List Byte) (place : Nat) : Policy :=
  { place, id := BitVec.ofNat 64 (bytesAt b 40 8), labelset := BitVec.ofNat 16 (bytesAt b 2 2), cls := BitVec.ofNat 8 (bytesAt b 5 1),
    peer := BitVec.ofNat 16 (bytesAt b 6 2), budget := bytesAt b 48 8, expiry := BitVec.ofNat 64 (bytesAt b 56 8),
    measure := BitVec.ofNat 256 (bytesAt b 64 32), body := b.take 128 }

/-- Step 1 of R376. -/
def policyShape (b : List Byte) : Bool :=
  bytesAt b 0 2 == 1 && bytesAt b 2 2 != 0 && bytesAt b 4 1 == 0 && (bytesAt b 5 1 == 1 || bytesAt b 5 1 == 2) &&
  decide (bytesAt b 6 2 < 4096) && bytesAt b 8 32 == 0

/-- Step 6 of R376 for one slot: the key hashes to KEYHASH and verifies the signature. -/
def State.signed (s : State) (p : BitVec 2) (slot : Nat) (body sig : List Byte) : Except XFail Bool :=
  match (s.d.partState p).slots[slot]? with
  | none => .ok false
  | some x => match s.hypBytes p x.keyva.toNat 1952 with
    | .error (.flip ia frame) => .error (.flip ia frame)
    | .error _ => .ok false
    | .ok key => .ok (Config.shake256 key == x.keyhash && Config.mldsaVerify key body sig)

/-- Each slot of a policy has its signature, in slot order. -/
def State.allSigned (s : State) (p : BitVec 2) (body : List Byte) : List Nat → List Byte → Except XFail Bool
  | [], _ => .ok true
  | i :: r, l => match s.signed p i body (l.take 3309) with
    | .ok true => s.allSigned p body r (l.drop 3328)
    | x => x

/-- Steps 2 to 7 of R376 for a record, with its signatures. -/
def State.installRecord (s : State) (p : BitVec 2) (b sigs : List Byte) : Except XFail (Nat × Nat × State) :=
  let q := s.d.partState p
  let pol := policyOf b 0
  if q.nonce ≠ some (BitVec.ofNat 256 (bytesAt b 96 32)) then .ok (6, 0, s)
  else
    let s := s.modPart p (fun q => { q with nonce := none })
    if pol.expiry.toNat ≤ s.d.cycle then .ok (7, 0, s)
    else if !(q.labelValid pol.labelset) then .ok (4, 0, s)
    else if q.policies.any (fun x => x.id == pol.id) then .ok (9, 0, s)
    else match s.allSigned p pol.body (slotsOf pol.labelset) sigs with
    | .error f => .error f
    | .ok false => .ok (5, 0, s)
    | .ok true => match (rangeFrom 0 64).find? (fun i => !(q.policies.any (fun x => x.place == i))) with
      | none => .ok (8, 0, s)
      | some i => .ok (0, 0, s.modPart p (fun q => { q with policies := q.policies ++ [{ pol with place := i }] }))

/-- The steps of R376: a STATUS, a VALUE and a state, or a page of the host that is awaited. A record that cannot be read gives
STATUS 1. -/
def State.installation (s : State) (part : BitVec 2) (operands : BitVec 512) : Except XFail (Nat × Nat × State) :=
  let va := opField operands 0 8
  let unread : XFail → Except XFail (Nat × Nat × State)
    | .flip ia frame => .error (.flip ia frame)
    | _ => .ok (1, 0, s)
  if opField operands 8 56 ≠ 0 || va % 64 ≠ 0 then .ok (1, 0, s)
  else match s.hypBytes part va 128 with
    | .error f => unread f
    | .ok b =>
      if !(policyShape b) then .ok (1, 0, s)
      else match s.hypBytes part (va + 128) (3328 * (slotsOf (BitVec.ofNat 16 (bytesAt b 2 2))).length) with
        | .error f => unread f
        | .ok sigs => s.installRecord part b sigs

/-- The command INSTALL that runs in a partition's mailbox: it ends, or waits for a page. -/
def State.install (s : State) (part : BitVec 2) (operands : BitVec 512) : State :=
  match s.installation part operands with
  | .ok (st, v, s) => s.result part false st v
  | .error f => s.stopWork (s.jobRoots part 0) f (.install part operands) (fun s => s)

/-- Whether a partition's INSTALL waits for a page. -/
def Device.installHeld (d : Device) (part : BitVec 2) : Bool :=
  d.heldWork.any (fun x => match x.work with | .install p _ => p == part | _ => false)

/-- `INSTALL` (R376). -/
def execInstall (part : BitVec 2) (operands : BitVec 512) (s : State) : Out :=
  .next (if !((s.d.partState part).runs false 4 operands) || s.d.installHeld part then s else s.install part operands)

/-- The installed policy of a name. -/
def Part.policy (p : Part) (id : Word) : Option Policy := p.policies.find? (fun x => x.id == id)

/-- `REMOVE` (R377). -/
def execRemove (part : BitVec 2) (operands : BitVec 512) (s : State) : Out :=
  .next (s.command part false 5 operands (fun s =>
    let id : Word := BitVec.ofNat 64 (opField operands 0 8)
    if opField operands 8 56 ≠ 0 then (1, 0, s)
    else if ((s.d.partState part).policy id).isNone then (4, 0, s)
    else (0, 0, s.modPart part (fun q => { q with policies := q.policies.filter (fun x => x.id != id) }))))

/-- `QUERY` (R369). -/
def execQuery (part : BitVec 2) (operands : BitVec 512) (s : State) : Out :=
  .next (s.command part false 6 operands (fun s =>
    if opField operands 8 56 ≠ 0 then (1, 0, s)
    else match (s.d.partState part).policy (BitVec.ofNat 64 (opField operands 0 8)) with
      | none => (4, 0, s)
      | some x => (0, min x.budget (2 ^ 48 - 1), s)))

/-! ### Claims (R378, R397, R407, R413) -/

/-- The unit that a UNIT operand names: the STATUS of one that names none. -/
def unitNamed (v : Nat) : Except Nat UnitId :=
  let n := bitsOf v 0 14
  match bitsOf v 14 2 with
  | 1 => if n < 1024 then .ok (.bank (BitVec.ofNat 10 n)) else if n < 1028 then .ok (.dieBank (BitVec.ofNat 2 (n - 1024))) else .error 4
  | 2 => if n < 1024 then .ok (.trace (BitVec.ofNat 10 n)) else .error 4
  | _ => .error 1

/-- The die of a unit. -/
def unitDie : UnitId → BitVec 2
  | .trace c | .bank c => CoreId.die c
  | .dieBank d => d

/-- Who holds a unit. -/
def State.holderOf (s : State) (u : UnitId) : Holder :=
  match u with
  | .trace c => (s.core c).trace.holder
  | _ => (s.bankOf u).holder

/-- Changes a bank. -/
def State.modBank (s : State) (u : UnitId) (f : CounterBank → CounterBank) : State :=
  match u with
  | .bank c | .trace c => s.modCore c (fun k => { k with bank := f k.bank })
  | .dieBank d => { s with d := { s.d with dieBanks := vmod s.d.dieBanks d.toNat f } }

/-- Saved tasks that a unit holds are resumed: each may be restored again (R407, R411). -/
def State.letGo (s : State) (c : CoreId) : State :=
  { s with d := { s.d with saved := s.d.saved.map (fun (v : Saved) => if v.unit = some c then { v with unit := none } else v) } }

/-- A unit's activity ends: its registers are at reset, its breakpoints and its entries in the TID table are gone, and its
tasks go on (R407). -/
def State.clearTrace (s : State) (c : CoreId) (h : Holder) (revoked : Option (BitVec 2)) : State :=
  let s := (s.letGo c).modPart (s.d.partOf (CoreId.die c)) (fun q => { q with attached := q.attached.filter (fun x => x.2.1 != c) })
  s.modCore c (fun k => { k with trace := { TraceUnit.reset with holder := h, revoked } })

/-- Gives a unit to a party, or frees it. A grant zeroes a bank. `keep` is the guest from which it is taken. -/
def State.giveUnit (s : State) (u : UnitId) (h : Holder) (keep : Option (BitVec 2)) : State :=
  match u with
  | .trace c => s.clearTrace c h (keep <|> (match h with
      | .guest _ => none
      | _ => (s.core c).trace.revoked))
  | _ => s.modBank u (fun b =>
      let revoked := match keep, h with
        | some p, _ => some (p, b.bctl, b.counts)
        | none, .guest _ => none
        | none, _ => b.revoked
      match h with
      | .free => { b with holder := h }
      | _ => { holder := h, bctl := 0, counts := Vector.replicate 19 0, revoked })

/-- Whether a unit is marked revoked to a partition. -/
def State.revokedTo (s : State) (u : UnitId) (p : BitVec 2) : Bool :=
  match u with
  | .trace c => (s.core c).trace.revoked == some p
  | _ => (s.bankOf u).revoked.any (fun x => x.1 == p)

/-- Drops the mark and the frozen copy. -/
def State.dropRevoked (s : State) (u : UnitId) : State :=
  match u with
  | .trace c => s.modCore c (fun k => { k with trace := { k.trace with revoked := none } })
  | _ => s.modBank u (fun b => { b with revoked := none })

/-- A revocation's cause entry: FUNC is the host function of the guest's partition (R374 kind 5). -/
def State.revoke (s : State) (u : UnitId) (p : BitVec 2) : State :=
  let s := s.giveUnit u .hyp (some p)
  { s with d := s.d.causeAdd 5 p.toNat (s.d.hostFuncNo p) }

/-- The operand checks of CLAIM and UNCLAIM: a guest names units of its own partition. -/
def State.withUnit (s : State) (p : BitVec 2) (hyp : Bool) (ops : BitVec 512) (k : UnitId → Nat × Nat × State) : Nat × Nat × State :=
  if opField ops 2 62 ≠ 0 then (1, 0, s)
  else match unitNamed (opField ops 0 2) with
    | .error e => (e, 0, s)
    | .ok u => if !hyp && s.d.partOf (unitDie u) != p then (2, 0, s) else k u

/-- `CLAIM` (R378). -/
def execClaim (part : BitVec 2) (hyp : Bool) (operands : BitVec 512) (s : State) : Out :=
  .next (s.command part hyp 7 operands (fun s => s.withUnit part hyp operands (fun u =>
    match s.holderOf u, hyp with
    | .free, true => (0, 0, s.giveUnit u .hyp none)
    | .free, false => (0, 0, s.giveUnit u (.guest part) none)
    | .guest q, false => (if q = part then 0 else 3, 0, s)
    | .guest q, true => (0, 0, s.revoke u q)
    | .hyp, true => (0, 0, s)
    | .hyp, false => (3, 0, s))))

/-- `UNCLAIM` (R378): by the holder the unit is free; by a guest from which it was taken the frozen copy is dropped. -/
def execUnclaim (part : BitVec 2) (hyp : Bool) (operands : BitVec 512) (s : State) : Out :=
  .next (s.command part hyp 8 operands (fun s => s.withUnit part hyp operands (fun u =>
    let mine := match s.holderOf u with
      | .guest q => !hyp && q == part
      | .hyp => hyp
      | .free => false
    if mine then (0, 0, s.giveUnit u .free none)
    else if !hyp && s.revokedTo u part then (0, 0, s.dropRevoked u)
    else (2, 0, s))))

/-! ### RESHAPE (R365 to R369) -/

/-- The new partition of a die. -/
def newPart (ops : BitVec 512) (die : Nat) : Nat := bitsOf (opField ops 0 2) (4 * (die % 4)) 4

/-- Whether the dies of each new partition are an arc of the ring, and its number is its lowest die. -/
def arcs (ops : BitVec 512) : Bool :=
  (rangeFrom 0 4).all (fun d =>
    let p := newPart ops d
    let mine := (rangeFrom 0 4).filter (fun k => newPart ops k == p)
    let ends := mine.filter (fun k => newPart ops (k + 1) != p)
    mine.head? == some p && decide (ends.length ≤ 1))

/-- BRFW of a die under a new shape. -/
def newBrfw (ops : BitVec 512) (d : Nat) : Word :=
  let p := newPart ops d
  BitVec.ofNat 64 (p % 4 * 16 + (if newPart ops (d + 1) = p then 2 else 0) + (if newPart ops (d + 3) = p then 1 else 0))

/-- Whether a partition loses or gains a die. -/
def Device.reshaped (d : Device) (ops : BitVec 512) (p : BitVec 2) : Bool :=
  (rangeFrom 0 4).any (fun k => (d.partOf (BitVec.ofNat 2 k) == p) != (newPart ops k == p.toNat))

/-- `RESHAPE` (R369). -/
def execReshape (part : BitVec 2) (operands : BitVec 512) (s : State) : Out :=
  .next (s.command part true 9 operands (fun s =>
    if opField operands 2 62 ≠ 0 || !(arcs operands) then (1, 0, s)
    else if s.d.launches.any (fun l => s.d.reshaped operands (launchPart l.key)) then (9, 0, s)
    else
      (0, 0, { s with d := { s.d with brfw := Vector.ofFn (fun (i : Fin 4) => newBrfw operands i.val) } })))

/-! ### Functions and slots (R370, R371, R373) -/

/-- The 8 bytes of a function entry. -/
def Func.entry (f : Func) : Nat :=
  (if f.valid then 1 else 0) + (if f.host then 2 else 0) + f.part.toNat * 2 ^ 18 + f.tenant.toNat * 2 ^ 20 + f.slot.toNat * 2 ^ 24

/-- Writes a function entry to the table of every partition's block. -/
def State.putFunc (s : State) (i : BitVec 6) : State :=
  (rangeFrom 0 4).foldl (fun s p =>
    s.putControl (BitVec.ofNat 2 p) (3072 + 8 * i.toNat) (toBytes 8 (s.d.func i).entry)) s

/-- `VFUP` (R371). -/
def execVfup (part : BitVec 2) (operands : BitVec 512) (s : State) : Out :=
  .next (s.command part true 10 operands (fun s =>
    let n := opField operands 0 1
    let p := opField operands 1 1
    let i := BitVec.ofNat 6 n
    let host := opField operands 4 1 == 1
    if opField operands 5 59 ≠ 0 || n = 0 || (64 ≤ n) || (4 ≤ p) || (16 ≤ opField operands 2 1) || (16 ≤ opField operands 3 1) ||
       (2 ≤ opField operands 4 1) || (partDies s.d (BitVec.ofNat 2 p)).isEmpty then (1, 0, s)
    else if (s.d.func i).valid || s.d.cycle < (s.d.func i).quarantine ||
       (host && (s.d.hostFunc (BitVec.ofNat 2 p)).isSome) then (9, 0, s)
    else
      let s := s.modFunc i (fun _ => { Func.reset with
        valid := true, host, part := BitVec.ofNat 2 p, tenant := BitVec.ofNat 4 (opField operands 2 1),
        slot := BitVec.ofNat 4 (opField operands 3 1) })
      (0, 0, s.putFunc i)))

/-- Withdraws the launches of a function's graphs and unregisters the graphs (R373 step 2). -/
def State.tearDown (s : State) (i : BitVec 6) : State :=
  let keys := (s.d.launches.filter (fun l => (s.d.launchGraph l.key).any (fun g => g.func == i))).map (·.key)
  let s := keys.foldl (fun s k => s.withdraw k) s
  ((s.d.graphs.filter (fun g => g.live && g.func == i)).foldl (fun s g => s.unregister g) s).settleGraphs

/-- `VFDOWN` (R373). -/
def execVfdown (part : BitVec 2) (operands : BitVec 512) (s : State) : Out :=
  .next (s.command part true 11 operands (fun s =>
    let n := opField operands 0 1
    let i := BitVec.ofNat 6 n
    if opField operands 1 63 ≠ 0 || (64 ≤ n) then (1, 0, s)
    else if !(s.d.func i).valid then (4, 0, s)
    else
      let p := (s.d.func i).part
      let s := (s.tearDown i).modFunc i (fun _ => { Func.reset with quarantine := s.d.cycle + 10500000 })
      let s := s.modPart p (fun q => { q with queue := q.queue.filter (fun w => w.2 != some i) })
      let s := s.putFunc i
      (0, 0, { s with d := s.d.causeAdd 6 p.toNat n })))

/-- The bytes of a slot entry. -/
def PartySlot.bytes (x : PartySlot) : List Byte :=
  toBytes 8 x.keyva.toNat ++ toBytes 6 0 ++ toBytes 2 x.tenants.toNat ++ toBytes 32 x.keyhash.toNat ++ toBytes 16 0

/-- Whether an installed policy, a live launch's image or a page of the partition names a slot. -/
def State.slotUsed (s : State) (p : BitVec 2) (i : Nat) : Bool :=
  (s.d.partState p).policies.any (fun x => x.labelset.getLsbD i) ||
  s.d.launches.any (fun l => launchPart l.key == p &&
    (s.d.launchGraph l.key).any (fun g => g.parties.any (fun k => bitsOf g.bind.toNat (4 * k) 4 == i))) ||
  s.allCores.any (fun c => s.d.partOf (CoreId.die c.id) == p && c.spad.labels.any (fun q => q.2.getLsbD i)) ||
  s.d.shared.labels.any (fun q => s.d.partOf (CoreId.die (sliceCore (4096 * q.1 - 0x40000000))) == p && q.2.getLsbD i)

/-- `SLOTSET` (R370). -/
def execSlotset (part : BitVec 2) (operands : BitVec 512) (s : State) : Out :=
  .next (s.command part true 12 operands (fun s =>
    let i := opField operands 0 1
    let key := opField operands 8 8
    if opField operands 1 7 ≠ 0 || opField operands 18 14 ≠ 0 || (16 ≤ i) then (1, 0, s)
    else if s.slotUsed part i then (9, 0, s)
    else
      let x : PartySlot := if key = 0 then { keyva := 0, tenants := 0, keyhash := 0 }
        else { keyva := BitVec.ofNat 64 key, tenants := BitVec.ofNat 16 (opField operands 16 2),
               keyhash := BitVec.ofNat 256 (opField operands 32 32) }
      let s := s.modPart part (fun q => { q with slots := q.slots.setIfInBounds i x })
      (0, 0, s.putControl part (2048 + 64 * i) x.bytes)))

/-! ### The cause table (R374) -/

/-- `CIDX` (R374): the driver has read entries up to CIDX − 1; the vector is sent again when entries are left. -/
def execCidx (value : BitVec 64) (s : State) : Out :=
  .next (let left := value.toNat != s.d.pidx
    { s with d := { s.d with cidx := value.toNat, msix := s.d.msix + (if left then 1 else 0), msixArmed := !left } })

end Sys2Proof.Machine
end

