-- ==== Sys2Proof/Machine/Debug.lean ====
section
/-! DEFINITION. The debug units (R397 to R422): the stores to their registers, the draining of the log, samples, dumps on
request, and replay. -/

namespace Sys2Proof.Machine

/-! ### Stores to unit registers (R398 to R400, R413, R417) -/

/-- Changes a trace unit. -/
def State.modTrace (s : State) (u : CoreId) (f : TraceUnit → TraceUnit) : State :=
  s.modCore u (fun c => { c with trace := f c.trace })

/-- Performs a store to a trace unit's register, when it is one that is performed. -/
def State.traceStore (s : State) (u : CoreId) (off : Nat) (v : Word) (k : State → State) : State :=
  if (s.traceRefuses u off v).isSome then s else k s

/-- `TCTL` (R399, R400, R403). -/
def execTctl (unit : CoreId) (value : BitVec 64) (s : State) : Out :=
  .next (s.traceStore unit 0x00 value (fun s => s.modTrace unit (fun u =>
    { u with tctl := value, tstat := 0, sampled := s.d.cycle, needTime := u.needTime || (!bitAt u.tctl 0 && bitAt value 0) })))

/-- `TRD` (R399). -/
def execTrd (unit : CoreId) (value : BitVec 64) (s : State) : Out :=
  .next (s.traceStore unit 0x28 value (fun s => s.modTrace unit (fun u => { u with trd := value })))

/-- The tasks of the device that have started, those saved included. -/
def State.startedTids (s : State) : List Tid :=
  s.allCores.flatMap (fun c => c.tasks.map (fun p => p.2.tid)) ++ s.d.saved.map (fun v => v.task.tid)

/-- `RCTL` (R417): it is in force for tasks that start after it. -/
def execRctl (unit : CoreId) (value : BitVec 64) (s : State) : Out :=
  .next (s.traceStore unit 0x48 value (fun s =>
    let old := s.startedTids
    s.modTrace unit (fun u => { u with
      rctl := value, before := old.map (fun t => (t, u.rctlOf t)), inputs := [], creates := [], chunk := none })))

/-- Whether a party holds the unit whose register an event would write. -/
def State.heldUnit (s : State) (u : UnitId) : Bool := s.holderOf u != .free

/-- Writes a register that has no behaviour of its own. -/
def TraceUnit.plainWrite (u : TraceUnit) (off : Nat) (v : Word) : TraceUnit :=
  match bpOffset off with
  | some (n, false) => { u with bpaddr := u.bpaddr.setIfInBounds n v }
  | some (_, true) => u
  | none =>
    match off with
    | 0x08 => { u with tbase := v } | 0x10 => { u with tsize := v } | 0x18 => { u with tjob := v }
    | 0x20 => { u with twr := v } | 0x68 => { u with dumpmax := v }
    | _ => u

/-- Writes a counter or the control word of a bank (R413). -/
def CounterBank.write (b : CounterBank) (off : Nat) (v : Word) : CounterBank :=
  if off = 0x200 then { b with bctl := v } else { b with counts := b.counts.setIfInBounds (off / 8) v }

/-- `UNIT_REGISTER_WRITE` (R398). -/
def execUnitRegisterWrite (unit : UnitId) (offset : BitVec 12) (value : BitVec 64) (s : State) : Out :=
  .next (if !(s.heldUnit unit) || (s.unitRefuses unit offset.toNat value 0#16).isSome then s
    else match unit with
    | .trace c => s.modTrace c (fun u => u.plainWrite offset.toNat value)
    | _ => s.modBank unit (fun b => b.write offset.toNat value))

/-! ### Breakpoints and stops (R408 to R411) -/

/-- The TID table of a partition after a store to a breakpoint control. -/
def Part.attach (p : Part) (unit : CoreId) (n : BitVec 3) (v : Word) : Part :=
  let rest := p.attached.filter (fun x => !(x.2.1 == unit && x.2.2 == n))
  { p with attached := if bitAt v 0 && bitAt v 7 && decide (rest.length < 32)
      then rest ++ [(BitVec.ofNat 48 (bitsOf v.toNat 16 48), unit, n)] else rest }

/-- `BPCTL` (R408, R409): a store that would enable a 33rd entry of the TID table is performed with EN 0. -/
def execBpctl (unit : CoreId) (n : BitVec 3) (value : BitVec 64) (s : State) : Out :=
  .next (s.traceStore unit (0x108 + 16 * n.toNat) value (fun s =>
    let p := s.d.partOf (CoreId.die unit)
    let q := (s.d.partState p).attach unit n value
    let full := bitAt value 0 && bitAt value 7 && !(q.attached.any (fun x => x.2.1 == unit && x.2.2 == n))
    let v := if full then setBits value 0 1 0 else value
    (s.modPart p (fun _ => q)).modTrace unit (fun u => { u with bpctl := u.bpctl.setIfInBounds n.toNat v })))

/-- The partition of a live task: of its core, or of the core it was saved from. -/
def State.taskPart (s : State) (tid : Tid) : Option (BitVec 2) :=
  match s.find tid with
  | some (c, _) => some (s.d.partOf (CoreId.die c))
  | none => (s.d.savedOf tid).map (fun v => s.d.partOf (CoreId.die v.core))

/-- Whether a party may stop tasks of a partition. -/
def Holder.reaches (h : Holder) (p : BitVec 2) : Bool :=
  match h with
  | .guest q => q == p
  | .hyp => true
  | .free => false

/-- `STOPREQ` (R411). -/
def execStopreq (unit : CoreId) (value : BitVec 64) (s : State) : Out :=
  .next (s.traceStore unit 0x50 value (fun s =>
    let tid : Tid := value.setWidth 48
    let u := (s.core unit).trace
    let s := s.modTrace unit (fun u => { u with stopreq := value })
    let stopped := s.d.saved.any (fun v => v.task.tid == tid && v.unit.isSome)
    let asked := s.allCores.any (fun c => c.trace.pendingStops.any (fun p => p.1 == tid))
    if stopped || asked || !((s.taskPart tid).any u.holder.reaches) then s else s.askStop unit tid 0xFF))

/-- `RESUME` (R411): the task may be restored; with STEP 1 it then issues one unit. -/
def execResume (unit : CoreId) (value : BitVec 64) (s : State) : Out :=
  .next (s.traceStore unit 0x58 value (fun s =>
    let tid : Tid := value.setWidth 48
    let free (v : Saved) : Saved :=
      if v.task.tid == tid && v.unit == some unit then
        { v with unit := none, task := { v.task with single := if bitAt value 48 then some unit else none } }
      else v
    let s := s.modTrace unit (fun u => { u with resume := value, heldTids := u.heldTids.filter (fun p => p.1 != tid) })
    { s with d := { s.d with saved := s.d.saved.map free } }))

/-! ### Dumps on request (R359, R360, R412) -/

/-- A pending record of a dump, with the count by which it is ordered. -/
structure PendingStore where
  first : Nat
  last : Nat
  line : Nat
  mask : Nat
  data : Nat
  tid : Tid
  scope : Scope
  rel : Bool
  deriving DecidableEq, Repr

/-- Its 96 bytes. -/
def PendingStore.bytes (p : PendingStore) : List Byte :=
  toBytes 4 p.first ++ toBytes 4 p.last ++ toBytes 1 (if p.rel then 2 else 0) ++ toBytes 1 p.scope.code ++
  toBytes 6 p.tid.toNat ++ toBytes 8 (64 * p.line) ++ toBytes 8 p.mask ++ toBytes 64 p.data

/-- The record of a combining-buffer entry. -/
def ScbEntry.pending (e : ScbEntry) : PendingStore :=
  { first := e.first, last := e.last, line := e.vaLine, mask := e.mask.toNat, data := e.data.toNat, tid := e.tid, scope := e.scope,
    rel := e.rel }

/-- The record of a store in flight to a hearth or a peer. -/
def PendOp.pending (o : PendOp) (tid : Tid) : Option PendingStore :=
  match o.kind with
  | .access a =>
    if o.stage ≠ .sent ∨ !a.kind.isStore then none
    else
      let sh := a.va % 64
      let mask := match a.kind with
        | .vst _ => (if a.cmp = 0 then 2 ^ 64 - 1 else a.cmp.toNat)
        | _ => (2 ^ a.n - 1) * 2 ^ sh % 2 ^ 64
      some { first := o.first, last := o.last, line := a.va / 64, mask, data := a.data.toNat * 2 ^ (8 * sh) % 2 ^ 512, tid,
             scope := a.scope, rel := releases a.order }
  | _ => none

/-- Records in ascending FIRST. -/
def insertPending (p : PendingStore) : List PendingStore → List PendingStore
  | [] => [p]
  | q :: r => if p.first ≤ q.first then p :: q :: r else q :: insertPending p r

/-- The pending stores of a core. -/
def State.pendingStores (s : State) (c : Core) : List PendingStore :=
  let ops := c.tasks.flatMap (fun p => p.2.ops.filterMap (fun o => o.pending p.2.tid)) ++
    (s.d.orphans.filter (fun q => q.1 == c.id)).filterMap (fun q => q.2.2.pending q.2.1)
  (c.scb.map ScbEntry.pending ++ ops).foldr insertPending []

/-- The sections of a dump of a core: a context area of each task, the scratchpad, the slice, the pending stores. -/
def State.dumpSections (s : State) (c : Core) : List (List Byte) :=
  let slice := 0x40000000 + c.id.toNat * 0x100000
  let area (t : Task) : List Byte := (c.saved t.stopUnit 0xFF none none false).bytes s.d.fabric.device
  c.tasks.map (fun p => areaSection 16 (area p.2)) ++
  [areaSection 17 (toBytes 8 0 ++ c.spad.mem.bytes 0 0x100000),
   areaSection 17 (toBytes 8 slice ++ s.d.shared.mem.bytes slice 0x100000),
   areaSection 18 ((s.pendingStores c).flatMap PendingStore.bytes)]

/-- The sections that fit, each left out whole if it would pass the end. -/
def fitSections (max : Nat) : Nat → List (List Byte) → List (List Byte)
  | _, [] => []
  | n, x :: r => if n + x.length ≤ max then x :: fitSections max (n + x.length) r else fitSections max n r

/-- The header of a dump (R359). -/
def dumpHeader (core : Endpoint) (cycle sections : Nat) : List Byte :=
  toBytes 4 0x504D4446 ++ toBytes 2 0 ++ toBytes 2 1 ++ toBytes 8 sections ++ toBytes 4 core.toNat ++ toBytes 12 0 ++
  toBytes 8 cycle ++ toBytes 24 0

/-- Writes a dump at a VA of a job, and its DUMPDONE record. What cannot be written is no part of it. -/
def State.putDump (s : State) (unit : CoreId) (job : BitVec 16) (va : Nat) (bytes : List Byte) : State :=
  let done (n : Nat) (s : State) : State :=
    let r : TraceRec := { type := 21, cycle := s.d.cycle, tid := none, label := 0, arg0 := BitVec.ofNat 64 n, arg1 := 0 }
    s.modTrace unit (fun u => u.emit r)
  let roots := s.jobRoots (s.d.partOf (CoreId.die unit)) job
  match s.jobPut roots va bytes with
  | .ok s => done bytes.length s
  | .error f => s.stopWork roots f (.dump unit job va bytes) (done 0)

/-- `DUMPVA` (R412): the dump of the core as it stands, written through the translation of TJOB. -/
def execDumpva (unit : CoreId) (value : BitVec 64) (s : State) : Out :=
  .next (s.traceStore unit 0x60 value (fun s =>
    let s := s.modTrace unit (fun u => { u with dumpva := value })
    let c := s.core unit
    let secs := fitSections c.trace.dumpmax.toNat 64 (s.dumpSections c)
    let bytes := dumpHeader (endpointOf s.d.fabric.device unit) s.d.cycle secs.length ++ secs.flatMap id
    let bytes := if c.trace.dumpmax.toNat < 64 then [] else bytes
    s.putDump unit (c.trace.tjob.setWidth 16) value.toNat bytes))

/-! ### Work that a page of the host has held back (R318) -/

/-- Takes held work up again. -/
def State.doWork (s : State) : CtlWork → State
  | .register func => s.registration func
  | .log part job logva logn w kind status detail => s.writeLog part job logva logn w kind status detail
  | .install part operands => s.install part operands
  | .dump unit job va bytes => s.putDump unit job va bytes
  | .ash core job va key val => s.atCore core (fun s => s.ashPut job va key val)

/-- Whether held work may go on: its page is the device's, and no earlier record of its log waits. -/
def Device.workDue (d : Device) (i : Nat) (x : HeldWork) : Bool :=
  !(d.flipping x.vmid x.ia) && (match x.work with
    | .log part _ logva _ _ _ _ _ => !((d.heldWork.take i).any (fun y => y.work.logs part logva))
    | _ => true)

/-- Takes up the first held work that may go on; what it holds back again stands in its place. -/
def State.retryWork (s : State) : State :=
  let l := s.d.heldWork
  match l.zipIdx.find? (fun p => s.d.workDue p.2 p.1) with
  | none => s
  | some (x, i) =>
    let f := State.doWork { s with d := { s.d with heldWork := [] } } x.work
    { f with d := { f.d with heldWork := l.take i ++ f.d.heldWork ++ l.drop (i + 1) } }

/-! ### Draining the log (R401 to R407) -/

/-- The 32 bytes of a record at a DELTA; REDACT clears its arguments. -/
def TraceRec.bytes (r : TraceRec) (delta : Nat) (redact : Bool) : List Byte :=
  toBytes 2 delta ++ toBytes 1 r.type.toNat ++ toBytes 1 ((if redact then 1 else 0) + (if r.tid.isNone then 2 else 0)) ++ toBytes 4 0 ++
  toBytes 2 r.label.toNat ++ toBytes 6 (r.tid.elim 0 (·.toNat)) ++
  toBytes 8 (if redact then 0 else r.arg0.toNat) ++ toBytes 8 (if redact then 0 else r.arg1.toNat)

/-- The records that are written for the oldest staged one: TIME first, where R403 asks for it. -/
def TraceUnit.toWrite (u : TraceUnit) : List (TraceRec × Nat) :=
  match u.staged with
  | [] => []
  | r :: _ =>
    let time : TraceRec := { type := 1, cycle := r.cycle, tid := none, label := 0, arg0 := BitVec.ofNat 64 r.cycle, arg1 := 0 }
    if u.needTime || r.type == 18 || decide (u.lastTime + 65535 < r.cycle) then [(time, 0), (r, 0)]
    else [(r, r.cycle - u.lastTime)]

/-- A place of the ring: its VA. -/
def TraceUnit.ringVa (u : TraceUnit) (pos : Nat) : Nat := u.tbase.toNat + pos % 2 ^ u.tsize.toNat

/-- Writes records into the ring. -/
def State.ringPut (s : State) (u : TraceUnit) (roots : Roots) (pos : Nat) : List (TraceRec × Nat) → Except XFail State
  | [] => .ok s
  | (r, delta) :: rest =>
    let va := u.ringVa pos
    match Machine.combine s.d roots .store false va with
    | .error f => .error f
    | .ok e =>
      let b := r.bytes delta (!(r.label.sub e.label))
      ({ s with d := s.d.gwrite e.comp (e.at va) 32 (2 ^ 32 - 1) (ofBytes b) }).ringPut u roots (pos + 32) rest

/-- A unit once its oldest staged record has been written; a place is free for the count of the lost ones. -/
def TraceUnit.drained (u : TraceUnit) (n now : Nat) : TraceUnit :=
  let last := (u.staged.head?).elim u.lastTime (·.cycle)
  let lost : List TraceRec := if u.unreported = 0 then [] else
    [{ type := 18, cycle := now, tid := none, label := 0, arg0 := BitVec.ofNat 64 u.unreported, arg1 := 0 }]
  { u with staged := u.staged.tail ++ lost, unreported := 0, lastTime := last, needTime := false, twr := u.twr + BitVec.ofNat 64 n }

/-- `TRACE_DRAIN` (R406, R407): the oldest staged record goes to the ring, when the ring and the budget have room for it. -/
def execTraceDrain (unit : CoreId) (s : State) : Out :=
  .next (let u := (s.core unit).trace
    let recs := u.toWrite
    let n := 32 * recs.length
    let act : BitVec 3 := match u.staged with
      | r :: _ => if r.type = 19 ∨ r.type = 20 then 3 else 2
      | [] => 2
    let die := CoreId.die unit
    if recs.isEmpty || bitAt u.tstat 0 || decide (2 ^ u.tsize.toNat < (u.twr - u.trd).toNat + n) || decide (s.d.leftOf die act < n) then s
    else
      let roots := s.jobRoots (s.d.partOf die) (u.tjob.setWidth 16)
      match s.ringPut u roots u.twr.toNat recs with
      | .error (.flip ia frame) => s.startFlip roots.part roots.vmid ia frame
      | .error f => s.modTrace unit (fun u => { u with tstat := setBits (setBits u.tstat 0 1 1) 8 8 f.code })
      | .ok s =>
        let s := s.modTrace unit (fun u => u.drained n s.d.cycle)
        ({ s with d := s.d.use die act n }).countDie die (if act = 3 then 14 else 13) n)

/-! ### Samples (R400, R402) -/

/-- Cycles between samples, 0 for none. -/
def TraceUnit.period (u : TraceUnit) : Nat :=
  let p := bitsOf u.tctl.toNat 32 32
  if p = 0 then 0 else max p 64

/-- Whether a sample is due. -/
def TraceUnit.sampleDue (u : TraceUnit) (now : Nat) : Bool :=
  bitAt u.tctl 0 && u.period != 0 && decide (u.sampled + u.period ≤ now)

/-- `SAMPLE` (R402): the unit issued in the cycle is that of the task at the core's port. -/
def execSample (unit : CoreId) (s : State) : Out :=
  .next (let f := s.focus unit
    if !(f.c.trace.sampleDue f.d.cycle) then s
    else
      let f := if f.t.status = .vacant then f.recordNone 15 0 0 else f.record 15 f.t 0#16 f.t.unitPc 0
      f.modTrace unit (fun u => { u with sampled := f.d.cycle }))

/-! ### Replay (R421, R422) -/

/-- A record of the log in the ring: TYPE, TID when it names a task, ARG0, ARG1. -/
structure LogRec where
  type : Nat
  tid : Option Tid
  arg0 : Word
  arg1 : Word
  deriving DecidableEq, Repr

/-- Reads the record at a place of the ring. -/
def State.logAt (s : State) (u : TraceUnit) (roots : Roots) (pos : Nat) : Except XFail LogRec :=
  match s.jobBytes roots (u.ringVa pos) 32 with
  | .error f => .error f
  | .ok b => .ok {
      type := bytesAt b 2 1, tid := if bitsOf (bytesAt b 3 1) 1 1 = 1 then none else some (BitVec.ofNat 48 (bytesAt b 10 6)),
      arg0 := BitVec.ofNat 64 (bytesAt b 16 8), arg1 := BitVec.ofNat 64 (bytesAt b 24 8) }

/-- What reading the log on leads to: a chunk, the log's end, a divergence, or a page of the host (R318). -/
inductive LogEnd where
  | chunk (u : TraceUnit)
  | ended (u : TraceUnit)
  | diverged (u : TraceUnit)
  | waits (ia frame : Nat)
  deriving DecidableEq, Repr

/-- Reads records up to the next chunk. -/
def State.readLog (s : State) (roots : Roots) : Nat → TraceUnit → LogEnd
  | 0, u => .ended u
  | n + 1, u =>
    if u.trd = u.twr then .ended u
    else match s.logAt u roots u.trd.toNat with
      | .error (.flip ia frame) => .waits ia frame
      | .error _ => .diverged u
      | .ok r =>
        let u : TraceUnit := { u with trd := u.trd + 32 }
        match r.type, r.tid with
        | 2, some t => s.readLog roots n { u with creates := u.creates ++ [t] }
        | 20, _ => s.readLog roots n { u with inputs := u.inputs ++ [(r.arg1.setWidth 8, r.arg0)] }
        | 19, t =>
          let k : Chunk := { place := r.arg0.toNat, task := t, kind := bitsOf r.arg1.toNat 32 4, left := bitsOf r.arg1.toNat 0 32 }
          .chunk { u with chunk := some k }
        | 18, _ => .diverged u
        | _, _ => s.readLog roots n u

/-- The launches of a job in a partition. -/
def Device.launchesOf (d : Device) (p : BitVec 2) (job : BitVec 16) : List Nat :=
  (d.launches.filter (fun l => launchPart l.key == p && (d.launchGraph l.key).any (fun g => g.job == job))).map (·.key)

/-- A divergence: DIVERGE is set, and the launches of the replayed job are withdrawn (R422). -/
def State.diverge (s : State) (unit : CoreId) : State :=
  let job : BitVec 16 := (s.core unit).trace.rctl.setWidth 16
  let s := s.modTrace unit (fun u => { u with tstat := setBits u.tstat 1 1 1, chunk := none })
  (s.d.launchesOf (s.d.partOf (CoreId.die unit)) job).foldl (fun s k => s.withdraw k) s

/-- Whether a core still has a started task of a job. -/
def Core.runsJob (c : Core) (job : BitVec 16) : Bool := c.tasks.any (fun p => p.2.job == job)

/-- `REPLAY_CHUNK` (R421): a chunk whose units have issued commits; a unit without a chunk reads its log on to the next. A chunk
whose task ends with units left, a log that ends while its core has tasks of the job, and a LOST record are divergences. -/
def execReplayChunk (unit : CoreId) (s : State) : Out :=
  .next (let f := s.focus unit
    let u := f.c.trace
    let job : BitVec 16 := u.rctl.setWidth 16
    if bitsOf u.rctl.toNat 16 2 ≠ 2 || bitAt u.tstat 1 then s
    else match u.chunk with
      | some k =>
        if k.kind ≠ 0 || !(f.chunkDue k) then s
        else match f.whole.tasks.find? (fun p => some p.2.tidReg == k.task) with
          | none => if k.left = 0 then f.replayed else if f.c.runsJob job then s else f.diverge unit
          | some (_, t) => if k.left = 0 && t.status != .parked .group && t.atUnit then f.replayed else s
      | none =>
        match f.readLog (f.jobRoots f.part (u.tjob.setWidth 16)) ((u.twr - u.trd).toNat / 32 + 1) u with
        | .chunk u => { f with c := { f.c with trace := u } }
        | .ended u =>
          let f := { f with c := { f.c with trace := u } }
          if f.whole.runsJob job then f.diverge unit else f
        | .waits ia frame => let r := f.jobRoots f.part (u.tjob.setWidth 16); f.startFlip r.part r.vmid ia frame
        | .diverged u => ({ f with c := { f.c with trace := u } }).diverge unit)

end Sys2Proof.Machine
end

