-- ==== Sys2Proof/Machine/Faults.lean ====
section
/-! DEFINITION. Fences, poison, soft errors and scrub (R341, R356 to R358), and the limits of the power manager (R424). -/

namespace Sys2Proof.Machine

/-! ### Fences (R356) -/

/-- The launches that have tasks on the core in focus, in its slots, on its hearth or saved, or records that wait there. -/
def State.launchesHere (s : State) : List Nat :=
  (s.d.launches.map (·.key)).filter (fun k =>
    s.whole.worksFor k || s.c.hearth.any (fun h => h.task.launch == k) ||
    s.d.saved.any (fun v => v.core == s.c.id && v.task.launch == k))

/-- Ends every task that is left on the core in focus. -/
def State.endAll (s : State) : List Nat → State
  | [] => s
  | n :: r =>
    let s := s.takeSlot n
    (if s.t.status = .vacant then s else s.endTask).endAll r

/-- A core is fenced: it is dumped, its tasks end and their launches are withdrawn, and its slice is fenced with it. -/
def State.fenceCore (s : State) (c : CoreId) : State :=
  s.atCore c (fun s =>
    let s := s.dump 0 0
    let s := s.launchesHere.foldl (fun s k => s.withdraw k) s
    let s := s.endAll slotNumbers
    let s := match s.c.hearth with
      | some h => s.toHearth.hearthEnds h 0x12
      | none => s
    { s with c := { s.c with fenced := true },
             d := { s.d with fencedSlices := if s.d.fencedSlices.contains c then s.d.fencedSlices else s.d.fencedSlices ++ [c] } })

/-- A link is taken down: what it held is lost (R383). -/
def Link.downed (l : Link) : Link := { l with up := false, kept := [], tx := [], stream := [], nak := false, owed := Vector.replicate 2 0, retried := (0, 0) }

/-- Changes a link. -/
def State.modLink (s : State) (port : BitVec 5) (f : Link → Link) : State :=
  { s with d := { s.d with fabric := { s.d.fabric with links := vmod s.d.fabric.links port.toNat f } } }

/-- A fence takes effect. -/
def State.doFence (s : State) (target : FenceTarget) : State :=
  match target with
  | .core c => (s.fenceCore c).noteFailure (CoreId.die c) 0
  | .slice c =>
    let s := { s with d := { s.d with fencedSlices := if s.d.fencedSlices.contains c then s.d.fencedSlices else s.d.fencedSlices ++ [c] } }
    s.noteFailure (CoreId.die c) 0
  | .channel die ch =>
    let s := { s with d := { s.d with fencedChannels := s.d.fencedChannels ++ [(die, ch)] } }
    s.noteFailure die ch.toNat
  | .link port => (s.modLink port (fun l => { l.downed with fenced := true })).noteFailure (BitVec.ofNat 2 (port.toNat / 8)) (port.toNat % 8)
  | .die die => s.fenceDie die

/-- Whether a function is fenced already. -/
def State.isFenced (s : State) : FenceTarget → Bool
  | .core c => (s.core c).fenced
  | .slice c => s.d.fencedSlices.contains c
  | .channel die ch => s.d.fencedChannels.contains (die, ch)
  | .link port => (s.d.fabric.links[port.toNat]?).any (·.fenced)
  | .die die => s.d.fencedDies.getLsbD die.toNat

/-- `FENCE` (R356): it lasts until the next reset. -/
def execFence (target : FenceTarget) (s : State) : Out := .next (if s.isFenced target then s else s.doFence target)

/-! ### Errors (R51, R357, R358) -/

/-- The die on which a place lies. -/
def placeDie (p : MemPlace) (addr : Nat) : BitVec 2 :=
  match p with
  | .phys => dieOfPa addr
  | .shared => CoreId.die (sliceCore (addr - 0x40000000))
  | .spad c | .tile c | .regs c => CoreId.die c

/-- Whether an address names a place of its kind; in the register files, 16 general registers for each slot, then the group
write buffer of each slot, then what is left. -/
def placeHolds (p : MemPlace) (addr : Nat) : Bool :=
  match p with
  | .phys => decide (addr < hostBase)
  | .shared => decide (0x40000000 ≤ addr) && decide (addr < 0x80000000)
  | .spad _ => decide (addr < 0x100000)
  | .tile _ => decide (addr < 512)
  | .regs _ => true

/-- Changes the task in a slot of the core in focus. -/
def State.modSlot (s : State) (n : Nat) (f : Task → Task) : State :=
  if n = s.c.port.toNat ∧ !s.t.onHearth then (if s.t.status = .vacant then s else { s with t := f s.t })
  else { s with c := { s.c with slots := vmod s.c.slots n (fun o => o.map f) } }

/-- A parity error in a register file of the core in focus: a general register is poisoned, a buffer is marked. -/
def State.parityError (s : State) (addr : Nat) : State :=
  if addr < 384 then s.modSlot (addr / 16) (fun t => { t with gpoison := t.gpoison ||| BitVec.ofNat 16 (2 ^ (addr % 16)) })
  else if addr < 408 then s.modSlot (addr - 384) (fun t => { t with parity := true })
  else s

/-- Marks a place poisoned. -/
def State.poisonPlaceAt (s : State) (p : MemPlace) (addr : Nat) : State :=
  match p with
  | .phys => { s with d := { s.d with gmem := s.d.gmem.poisonLine addr } }
  | .shared => { s with d := { s.d with shared := s.d.shared.poisonLine addr } }
  | .spad c => s.modCore c (fun k => { k with spad := k.spad.poisonLine addr })
  | .tile c => s.modCore c (fun k => { k with tiles := vmod k.tiles (addr / 64) (fun (x : Tile) =>
      { x with poison := x.poison ||| BitVec.ofNat 64 (2 ^ (addr % 64)) }) })
  | .regs c => s.atCore c (fun s => s.parityError addr)

/-- `UNCORRECTABLE_ERROR` (R357). -/
def execUncorrectableError (place : MemPlace) (addr : Nat) (s : State) : Out :=
  .next (if !(placeHolds place addr) then s else (s.poisonPlaceAt place addr).countDie (placeDie place addr) 6 1)

/-- `SOFT_ERROR` (R358): a single-bit error is corrected and counted. The general registers and the group write buffer carry
parity only: an error there is not corrected. -/
def execSoftError (place : MemPlace) (addr : Nat) (s : State) : Out :=
  .next (if !(placeHolds place addr) then s
    else match place with
    | .phys =>
      let s := s.countDie (dieOfPa addr) (if addr < 4 * dieBytes then 4 else 5) 1
      if addr < 4 * dieBytes then { s with d := { s.d with corrected := insertNat (addr / 64) s.d.corrected } } else s
    | .shared => s.modCore (sliceCore (addr - 0x40000000)) (fun k => { k with bank := k.bank.add 17 1 })
    | .spad c | .tile c => s.modCore c (fun k => { k with bank := k.bank.add 17 1 })
    | .regs c => if addr < 408 then s.atCore c (fun s => s.parityError addr)
        else s.modCore c (fun k => { k with bank := k.bank.add 17 1 }))

/-- `SCRUB` (R341, R358): a corrected line of the die's HBM is rewritten, within the die's budget of bytes. -/
def execScrub (die : BitVec 2) (s : State) : Out :=
  .next (match s.d.corrected.find? (fun l => dieOfPa (64 * l) == die) with
    | none => s
    | some l =>
      if s.d.leftOf die 1 < 64 then s
      else
        let d : Device := { s.d with corrected := s.d.corrected.filter (· != l) }
        ({ s with d := d.use die 1 64 }).countDie die 11 1)

/-! ### The power manager (R424) -/

/-- Withholds issue cycles of a die: how many, up to a bound, is free. -/
def State.withhold (s : State) (die : BitVec 2) (bound : Nat) : State :=
  let (w, s) := s.freeWord
  { s with d := { s.d with withheld := vmod s.d.withheld die.toNat (fun n => max n (w.toNat % bound + 1)) } }

/-- `VCORE_CURRENT_LIMIT` (R424): the current is below the limit again within 1 µs, 1,050 cycles. -/
def execVcoreCurrentLimit (die : BitVec 2) (s : State) : Out := .next (s.withhold die 1050)

/-- `PACKAGE_POWER_LIMIT` (R424): die by die, within the window of 10 ms. -/
def execPackagePowerLimit (s : State) : Out :=
  .next ((rangeFrom 0 4).foldl (fun s d => s.withhold (BitVec.ofNat 2 d) 10500000) s)

/-- `JUNCTION_TEMPERATURE` (R424): a die above 105 °C is throttled, one that reaches 115 °C is fenced. -/
def execJunctionTemperature (die : BitVec 2) (celsius : Nat) (s : State) : Out :=
  .next (if 115 ≤ celsius then (if s.isFenced (.die die) then s else s.doFence (.die die))
    else if 105 ≤ celsius then s.withhold die 1050 else s)

end Sys2Proof.Machine
end

