-- ==== Sys2Proof/Machine/Fabric.lean ====
section
/-! DEFINITION. The fabric at its receiving end and over time (R379 to R396): links, the sequence check, requests and their
replies, resends and timeouts, and the keys. -/

namespace Sys2Proof.Machine

/-! ### Requests: which job, which access (R385, R386, R389) -/

/-- The die of a port (R380). -/
def portDie (port : BitVec 5) : BitVec 2 := BitVec.ofNat 2 (port.toNat / 8)

/-- The partition and the local job to which the job table admits a pod job's packets at a port (R386, R389 step 2). -/
def Device.jobAt (d : Device) (port : BitVec 5) (pod : BitVec 16) : Option (BitVec 2 × BitVec 16) :=
  (d.fabric.jobs.find? (fun e => e.2.valid && e.2.pod == pod && e.2.part == d.partOf (portDie port))).map
    (fun e => (e.2.part, e.2.job))

/-- The opcode of a packet. -/
def Header.op (h : Header) : Nat := bitsOf h.opc.toNat 0 8

/-- Whether a request has a reserved opcode or a reserved bit (R385). -/
def Header.reserved (h : Header) : Bool :=
  bitsOf h.opc.toNat 8 16 != 0 || !((decide (1 ≤ h.op) && decide (h.op ≤ 9)) || h.op == 0x0F) || bitsOf h.flags.toNat 2 6 != 0 ||
  bitsOf h.ord.toNat 6 2 != 0 || decide (9 ≤ bitsOf h.ord.toNat 0 4) || bitsOf h.fn.toNat 4 4 != 0 || decide (6 ≤ h.size.toNat) ||
  (h.op == 4 && bitsOf h.fn.toNat 0 3 > 2)

/-- Bytes of a size code. -/
def bytesOfCode (c : Nat) : Nat := if c = 5 then 16 else 2 ^ c

/-- What an addressed request does, the bytes it reads or writes, its operand and what goes with it. A load of SIZE 0 at the
start of a line is answered with the line, which serves the load of a byte as well as that of a line. -/
def Packet.what (p : Packet) : AccKind × Nat × Nat × Nat :=
  let h := p.hdr
  let size := h.size.toNat
  let n := if bitsOf h.fn.toNat 3 1 = 1 then 8 else 4
  let v := bytesAt p.data 0 8
  match h.op with
  | 1 =>
    let z : Size := if size = 0 then .b else if size = 1 then .h else if size = 2 then .w else if size = 3 then .d else .q
    (.ld z, if size = 0 ∧ h.addr.toNat % 64 = 0 then 64 else bytesOfCode size, 0, 0)
  | 2 =>
    if p.data.length = 72 then (.vst 0, 64, bytesAt p.data 0 64, bytesAt p.data 64 8)
    else (.st (if size = 3 then .d else .q), bytesOfCode size, bytesAt p.data 0 16, 0)
  | 3 => (.atom (BitVec.ofNat 3 (bitsOf h.fn.toNat 0 3)) (if n = 8 then .d else .w), n, v, bytesAt p.data 8 8)
  | _ => (.fatom (BitVec.ofNat 2 (bitsOf h.fn.toNat 0 3)) (if n = 8 then .f64 else .f32), n, v, 0)

/-- The scope of a request. -/
def Header.scope (h : Header) : Scope :=
  match scopeOf (bitsOf h.ord.toNat 0 4) with
  | .ok s => s
  | .error _ => .sys

/-- The order of a request. -/
def Header.order (h : Header) : Order :=
  match orderOf (bitsOf h.ord.toNat 4 2) with
  | .ok o => o
  | .error _ => .plain

/-- The access of an addressed request at its translated place. -/
def Packet.access (p : Packet) (e : TlbEntry) (launch : Nat) (prio : BitVec 3) : Access :=
  let (kind, n, data, cmp) := p.what
  let addr := e.at p.hdr.addr.toNat
  { kind, home := if e.tier = 2 then .host else .channel, addr, va := p.hdr.addr.toNat, n, lo := addr, len := n,
    data := BitVec.ofNat 512 data, cmp := BitVec.ofNat 64 cmp, vl := p.hdr.label, al := 0, tag := false, keep := false, prio,
    launch, page := e.label, comp := e.comp, scope := p.hdr.scope, order := p.hdr.order,
    bad := bitsOf p.hdr.flags.toNat 0 1 == 1 }

def AccKind.acc (k : AccKind) : Acc := if k.isLoad then .load else if k.isStore then .store else .atomic

/-! ### Translation at the gateway (R305, R306, R310, R318) -/

/-- The translation of a VA through the cache of a gateway, which works as a core's TLB does. -/
def State.gateTranslate (s : State) (port : BitVec 5) (r : Roots) (acc : Acc) (va : Nat) : Except XFail TlbEntry × State :=
  let c := s.c
  let (e, f) := State.translateAs { s with c := { c with tlb := s.d.fabric.gates[port.toNat]?.getD [] } } r acc false va 4096
  let gates := f.d.fabric.gates.setIfInBounds port.toNat f.c.tlb
  (e, { f with c, d := { f.d with fabric := { f.d.fabric with gates } } })

/-- The roots of a job for the requests of its peers: with the user rule when a graph of the job runs at user level. -/
def State.peerRoots (s : State) (p : BitVec 2) (job : BitVec 16) : Roots :=
  { s.jobRoots p job with user := s.d.graphs.any (fun g => g.part == p && g.job == job && g.level == 0) }

/-- A request waits, under a name. -/
def State.holdAs (s : State) (op : Nat) (name : Tid) (flip : Option (BitVec 16 × Nat)) : State :=
  let h : HeldRequest := { name, op, noticed := false, flip }
  { s with d := { s.d with fabric := { s.d.fabric with held := s.d.fabric.held ++ [h] } } }

/-- The core at which a partition deals with what belongs to none of its cores: core (0, 0) of its lowest die. -/
def Device.firstCore (d : Device) (p : BitVec 2) : CoreId := coreAt (((partDies d p).head?).getD p.toNat) 0 0

/-- A second-stage cause of a request: a hypervisor handler starts on the partition's first core, and the request waits for the
notice (R306, R389 step 4). Without a handler's entry the cause is the reply. -/
def State.holdForNotice (s : State) (op : Nat) (part : BitVec 2) (job : BitVec 16) (label : Label) (c detail va ia : Nat) : State :=
  let core := s.d.firstCore part
  if (s.d.partState part).htvec = 0 then s.replied op (BitVec.ofNat 8 c) 0 []
  else
    let s := s.focus core
    let (name, s) := s.newTid job
    let (tid, s) := s.newTid job
    let u := { newTask tid (s.vector 2) 0 7 7 2 label job 0 with
      g := handlerRegs (plainVal (causeWord c detail 0 false).toNat label) (plainVal va label) (plainVal name.toNat label) Val.zero
        (plainVal ia label) }
    (State.recordCreate { s with c := { s.c with upcallQ := s.c.upcallQ ++ [u] } } u 7 name).holdAs op name none

/-- A page that the host owns: the request waits for the flip (R318). -/
def State.holdForFlip (s : State) (op : Nat) (part : BitVec 2) (job : BitVec 16) (ia frame : Nat) : State :=
  let vmid := (s.peerRoots part job).vmid
  (s.startFlip part vmid ia frame).holdAs op 0 (some (vmid, ia / 4096 * 4096))

/-! ### Requests executed at a home or a hearth (R385, R389 step 5) -/

/-- Replies to a load of a poisoned line (R357). -/
def State.repliedPoison (s : State) (op : Nat) (label : Label) (data : List Byte) : State :=
  { s with d := { s.d with fabric := s.d.fabric.replied op 0 true label data } }

/-- The line of a write that carries poison is poisoned (R357). -/
def State.spoil (s : State) (a : Access) : State := if a.bad then { s with d := { s.d with gmem := s.d.gmem.poisonLine a.addr } } else s

/-- A drained line of a peer's combining buffer: its masked bytes are written under the label rule. -/
def State.lineStore (s : State) (op : Nat) (job : BitVec 16) (a : Access) : State :=
  if !(a.vl.sub a.page) then s.replied op 0x0B 0 []
  else
    let d := (s.d.gwrite a.comp a.addr 64 a.cmp.toNat a.data.toNat).countLine a.addr true
    (((State.recall { s with d } (a.addr / 64)).spoil a).taint a.addr (some job)).replied op 0 0 []

/-- An atomic of a peer on host memory goes to the host port (R83). -/
def State.hostRequest (s : State) (op : Nat) (a : Access) : State :=
  if a.kind.isDecf then s.replied op 0x06 0 []
  else if !(a.scope == .host || a.scope == .sys) then s.replied op 0x11 0 []
  else if !(a.vl.sub a.page) then s.replied op 0x0B 0 []
  else
    let h : HostAtomic := { core := 0, tid := 0, op, acc := a, compared := none, tries := 0 }
    { s with d := { s.d with hostQueue := s.d.hostQueue ++ [h] } }

/-- A request at its home. -/
def State.homeRequest (s : State) (op : Nat) (job : BitVec 16) (a : Access) : State :=
  match a.kind with
  | .vst _ => s.lineStore op job a
  | k =>
    if a.bad && k.isAtomic then s.replied op 0x18 0 []
    else if a.home == .host && k.isAtomic then s.hostRequest op a
    else match s.d.perform a with
      | .error (c, _) =>
        if c = 0x18 ∧ k.isLoad then s.repliedPoison op a.page (toBytes ((a.n + 7) / 8 * 8) (s.d.gread a.comp a.addr a.n))
        else s.replied op (BitVec.ofNat 8 c) 0 []
      | .ok (v, d) =>
        let s : State := { s with d }
        let s := if k.isStore then s.spoil a else s
        let s := s.recall (a.addr / 64)
        let s := if k.isLoad then s else (s.taint a.addr (some job)).fire 0 a v
        s.replied op 0 v.1.label (if k.isStore then [] else toBytes ((a.n + 7) / 8 * 8) (v.1.data.toNat % 2 ^ (8 * a.n)))

/-- The live launch of a job in which a peer's record starts its child: the first whose image has the entry, else the first. -/
def Device.launchFor (d : Device) (p : BitVec 2) (job : BitVec 16) (entry : Word) : Nat :=
  let l := d.launchesOf p job
  ((l.find? (fun k => d.entryOk k entry 0)) <|> l.head?).getD 0

/-- An addressed request (R389 steps 4 and 5). One of a job of user level keeps out of the ash logs (R197). -/
def State.addressed (s : State) (op : Nat) (part : BitVec 2) (job : BitVec 16) (o : FabricOut) : State :=
  let h := o.packet.hdr
  let va := h.addr.toNat
  let (kind, n, _) := o.packet.what
  if va % min n 64 ≠ 0 then s.replied op 0x08 0 []
  else if (s.peerRoots part job).user && s.d.ashGuarded part job va n then s.replied op 0x06 0 []
  else match s.gateTranslate o.port (s.peerRoots part job) kind.acc va with
    | (.error (.cause c _), s) => s.replied op (BitVec.ofNat 8 c) 0 []
    | (.error (.second c detail ia), s) => s.holdForNotice op part job h.label c detail va ia
    | (.error (.flip ia frame), s) => s.holdForFlip op part job ia frame
    | (.ok e, s) =>
      let (w, s) := s.freeWord
      s.homeRequest op job (o.packet.access e (s.d.launchFor part job 0) (w.setWidth 3))

/-- A launch packet (R328): addressed to the die controller of the partition's lowest die. -/
def State.launchRequest (s : State) (op : Nat) (part : BitVec 2) (h : Header) (data : List Byte) : State :=
  if Endpoint.kind h.dst ≠ 2 ∨ (partDies s.d part).head? ≠ some (bitsOf h.dst.toNat 10 2) then s.replied op 0x06 0 []
  else
    let (c, s) := s.admitPacket part (Endpoint.dev h.src) h.job (BitVec.ofNat 64 (bytesAt data 0 8))
    s.replied op (BitVec.ofNat 8 c) 0 []

/-- A spawn request of a peer at the core in focus (R157, R175). A fired cell's record has no TID yet. One with FN 1 has bounced before
and becomes a pending fire (log entry 127). -/
def State.spawnRequest (s : State) (op : Nat) (part : BitVec 2) (job : BitVec 16) (fn : BitVec 8) (data : List Byte) : State :=
  let r := spawnOf (bytesAt data 0 64) 0
  let r := { r with launch := s.d.launchFor part job r.entry }
  if s.c.fenced then s.replied op 0x12 0 []
  else if !(s.admits r) then s.replied op 0x06 0 []
  else
    let (r, s) := if r.tid = 0 then s.nameRecord { r with prio := minPrio r.prio (s.d.ceilOf r.launch r.entry) } 3 0 else (r, s)
    if fn = 1 then (s.pend s.c.id r r.arg2.toNat).replied op 0 r.clabel []
    else match s.dqPush r with
    | some s => s.replied op 0 r.clabel []
    | none => (s.count 6).replied op 0x0E 0 []

/-- A queue tail of a peer at the core in focus (R184). A ring is one of this device's launches. -/
def State.tailRequest (s : State) (op : Nat) (part : BitVec 2) (job : BitVec 16) (data : List Byte) : State :=
  let (producer, queue, index) := Config.tailRing data
  let due (k : Nat) : Option (Nat × Nat) :=
    match s.d.ringOf k queue (Endpoint.core producer) with
    | some (i, r) => if r.consumer = s.c.id ∧ Endpoint.dev producer = s.d.fabric.device then some (k, i) else none
    | none => none
  if s.c.fenced then s.replied op 0x12 0 []
  else match (s.d.launchesOf part job).findSome? due with
    | none => s.replied op 0x06 0 []
    | some (k, i) =>
      State.replied { s with d := s.d.modRing k i (fun r => if r.recv < index then { r with recv := index } else r) } op 0 0 []

/-- A matrix command of a peer at the core in focus (R239, R240). Its reply comes when it ends. -/
def State.matrixRequest (s : State) (op : Nat) (part : BitVec 2) (job : BitVec 16) (label : Label) (data : List Byte) : State :=
  let n := bytesAt data 0 64
  let w := bytesAt data 64 8
  let tile : BitVec 3 := BitVec.ofNat 3 w
  let pri : BitVec 3 := BitVec.ofNat 3 (w / 16)
  match mxFmt (bitsOf n 474 4) with
  | none => s.replied op 0x02 label []
  | some f =>
    let m := descOf n true true label s s.direct tile f
    let m : MxOp := { m with
      owner := 0, job, launch := s.d.launchFor part job 0, level := 0, lab := label, prio := pri, eff := pri, pc := 0, optag := 0,
      answer := some op }
    if !(descOk n m) || m.asrc || m.bsrc then s.replied op 0x02 label []
    else
      let c := s.commandRefuses m
      if c ≠ 0 then s.replied op (BitVec.ofNat 8 c) label []
      else
        let (id, s) := s.newOp
        { s with c := { s.c with mx := s.c.mx ++ [{ m with id, age := s.d.cycle }] } }

/-- A handler-type active message of a peer for the core in focus (R22): its entry and four arguments. -/
def State.activeRequest (s : State) (op : Nat) (job : BitVec 16) (h : Header) (data : List Byte) : State :=
  let arg (i : Nat) : Word := BitVec.ofNat 64 (bytesAt data (8 * i) 8)
  let m : NetMsg := {
    src := Endpoint.core h.src, dst := s.c.id, kind := .active 0 op (arg 0) #v[arg 1, arg 2, arg 3, arg 4] h.label job }
  { s with d := { s.d with net := s.d.net ++ [m] } }

/-- The hearth of the core in focus executes a request that is no active message. -/
def State.hearthRequest (s : State) (op : Nat) (part : BitVec 2) (job : BitVec 16) (p : Packet) : State :=
  let h := p.hdr
  let s := s.hearthDone job h.src
  match h.op with
  | 6 => s.spawnRequest op part job h.fn p.data
  | 7 => s.tailRequest op part job p.data
  | _ => s.matrixRequest op part job h.label p.data

/-- A request to a core: one of the partition's, whose data carry no poison (R357). It waits its turn while the hearth runs an active message, or another operation of its
source stands before it (R22, R23). -/
def State.coreRequest (s : State) (op : Nat) (part : BitVec 2) (job : BitVec 16) (p : Packet) : State :=
  let h := p.hdr
  let core := Endpoint.core h.dst
  if Endpoint.kind h.dst ≠ 0 ∨ s.d.partOf (CoreId.die core) ≠ part then s.replied op 0x06 0 []
  else if bitsOf h.flags.toNat 0 1 = 1 then s.replied op 0x18 0 []
  else
    let s := s.focus core
    let before (m : NetMsg) : Bool := m.dst == core && m.src == Endpoint.core h.src && !m.kind.isInbox
    if h.op ≠ 6 ∧ h.op ≠ 7 ∧ h.op ≠ 8 then s.activeRequest op job h p.data
    else if s.c.hearth.isSome || s.d.net.any before then
      { s with d := { s.d with net := s.d.net ++ [{ src := Endpoint.core h.src, dst := core, kind := .request op }] } }
    else s.hearthRequest op part job p

/-- A request that has waited has its turn at the hearth of a core. -/
def State.turnRequest (s : State) (core : CoreId) (src : Endpoint) : State :=
  match s.takeFrom core src (fun k => match k with | .request _ => true | _ => false) with
  | some (.request op, f) => match f.d.fabric.pending.find? (fun p => p.1 == op) with
    | some (_, o) => (match f.d.jobAt o.port o.packet.hdr.job with
      | some (part, job) => f.hearthRequest op part job o.packet
      | none => f.replied op 0x06 0 [])
    | none => f
  | _ => s

/-- Executes a request that has passed the sequence check, by its opcode. -/
def State.serveRequest (s : State) (op : Nat) : State :=
  match s.d.fabric.pending.find? (fun p => p.1 == op) with
  | none => s
  | some (_, o) =>
    let h := o.packet.hdr
    match s.d.jobAt o.port h.job with
    | none => s.replied op 0x06 0 []
    | some (part, job) =>
      if !(Endpoint.valid h.dst) then s.replied op 0x06 0 []
      else if h.reserved then s.replied op 0x02 0 []
      else match h.op with
        | 1 | 2 | 3 | 4 => s.addressed op part job o
        | 5 => s.launchRequest op part h o.packet.data
        | 0x0F => s.replied op 0 0 []
        | _ => s.coreRequest op part job o.packet

/-- The requests whose wait is over: the notice has been given, or the flip has ended. -/
def Device.heldDue (d : Device) : Option HeldRequest :=
  d.fabric.held.find? (fun h => h.noticed || h.flip.any (fun f => !(d.flipping f.1 f.2)))

/-- Executes the first held request whose wait is over. -/
def State.retryHeld (s : State) : State :=
  match s.d.heldDue with
  | none => s
  | some h =>
    State.serveRequest { s with d := { s.d with fabric := { s.d.fabric with held := s.d.fabric.held.filter (fun k => k.op != h.op) } } } h.op

/-- `NOTICE` (R296): a completion notice written on a core. -/
def execNotice (core : CoreId) (value : BitVec 64) (s : State) : Out :=
  .next (if s.sysValid .notice value then
    let f := s.focus core
    (({ f with c := { f.c with noticeReg := value } }).giveNotice (value.setWidth 48)).retryHeld
  else s)

/-! ### The sequence check (R391, R392) -/

/-- How far a sequence number lies ahead of another, modulo 65,535 with 0 skipped. Before any number has been passed on the
highest is 0. -/
def seqAhead (high q : BitVec 16) : Nat := (q.toNat + 65535 - high.toNat) % 65535

/-- The gateway that is the cache gateway of a source: s[4:2] (R392). -/
def cacheGate (src : Endpoint) : Nat := bitsOf src.toNat 2 3

/-- What a cache gateway keeps for a source. -/
def Fabric.source (f : Fabric) (part : BitVec 2) (src : Endpoint) : Option Source :=
  f.sources.find? (fun x => x.src == src && x.part == part)

/-- Changes what is kept for a source. -/
def State.modSource (s : State) (part : BitVec 2) (src : Endpoint) (g : Source → Source) : State :=
  let sources := s.d.fabric.sources.map (fun (x : Source) => if x.src = src ∧ x.part = part then g x else x)
  { s with d := { s.d with fabric := { s.d.fabric with sources } } }

/-- Drops a request that is counted. -/
def State.dropPacket (s : State) : State :=
  { s with d := { s.d with fabric := { s.d.fabric with dropped := s.d.fabric.dropped + 1 } } }

/-- A reply that is given without the request being kept. -/
def State.refuse (s : State) (port : BitVec 5) (h : Header) (status : BitVec 8) : State :=
  { s with d := { s.d with fabric := s.d.fabric.put port { hdr := h.reply status false 0 [], data := [] } } }

/-- Grants a source its entries at its first request, unless the pool of the gateway is empty. -/
def State.grantSource (s : State) (part : BitVec 2) (src : Endpoint) : Option State :=
  let f := s.d.fabric
  let pool := f.sources.filter (fun x => x.granted && x.part == part && cacheGate x.src == cacheGate src)
  match f.source part src with
  | some x => if x.granted then some s else if 256 ≤ pool.length then none
      else some (s.modSource part src (fun (x : Source) => { x with granted := true }))
  | none =>
    if 256 ≤ pool.length then none
    else
      let x : Source := { src, part, high := 0, cache := [], last := s.d.cycle, ahead := [], granted := true }
      some { s with d := { s.d with fabric := { f with sources := f.sources ++ [x] } } }

/-- Passes on, in the order of their numbers, the requests of a source that are due. -/
def State.passOn (s : State) (part : BitVec 2) (src : Endpoint) : Nat → State
  | 0 => s
  | n + 1 => match s.d.fabric.source part src with
    | none => s
    | some x => match x.ahead.find? (fun e => seqAhead x.high e.2.hdr.seq == 1) with
      | none => s
      | some (port, p) =>
        let s := s.modSource part src (fun (x : Source) => { x with
          high := p.hdr.seq, cache := (x.cache ++ [CachedReply.mk p.hdr.seq none]).drop (x.cache.length - 255),
          ahead := x.ahead.filter (fun e => e.2.hdr.seq != p.hdr.seq) })
        let (op, s) := s.newOp
        let o : FabricOut := { port, packet := p }
        (State.serveRequest { s with d := { s.d with fabric := { s.d.fabric with pending := s.d.fabric.pending ++ [(op, o)] } } } op).passOn
          part src n

/-- The sequence check of a request at its cache gateway. -/
def State.sequenced (s : State) (part : BitVec 2) (port : BitVec 5) (p : Packet) : State :=
  let src := p.hdr.src
  match s.grantSource part src with
  | none => s.refuse port p.hdr 0x0E
  | some s =>
    let freed (x : Source) (c : CachedReply) : Bool := c.reply.isSome && decide (seqAhead c.seq p.hdr.rack < 32768) && x.high != 0
    let s := s.modSource part src (fun (x : Source) => { x with last := s.d.cycle, cache := x.cache.filter (fun c => !(freed x c)) })
    match s.d.fabric.source part src with
    | none => s
    | some x =>
      let ahead := seqAhead x.high p.hdr.seq
      if p.hdr.seq = 0 then s.dropPacket
      else if 1 ≤ ahead ∧ ahead ≤ 256 then
        if x.ahead.any (fun e => e.2.hdr.seq == p.hdr.seq) then s
        else (s.modSource part src (fun (x : Source) => { x with ahead := x.ahead ++ [(port, p)] })).passOn part src (x.ahead.length + 1)
      else match x.cache.find? (fun c => c.seq == p.hdr.seq) with
        | some { reply := some r, .. } =>
          (State.countDie { s with d := { s.d with fabric := s.d.fabric.put port r } } (portDie port) 10 1)
        | some { reply := none, .. } => s
        | none => s.dropPacket

/-- A request arrives at a port (R389): the device, the fabric rule, then the sequence check. -/
def State.requestArrives (s : State) (port : BitVec 5) (p : Packet) : State :=
  let s := s.countDie (portDie port) 9 1
  if Endpoint.dev p.hdr.dst ≠ s.d.fabric.device then s.dropPacket
  else match s.d.jobAt port p.hdr.job with
    | none => s.refuse port p.hdr 0x06
    | some (part, _) => s.sequenced part port p

/-- `FABRIC_REQUEST` (R389, R391, R392). -/
def execFabricRequest (port : BitVec 5) (header : BitVec 256) (data : List (BitVec 8)) (s : State) : Out :=
  .next (s.requestArrives port { hdr := headerOf header.toNat, data })

/-- `REPLY_CACHE_RECLAIM` (R392): 100 µs without a request, and every reply acknowledged. The highest number stays. -/
def execReplyCacheReclaim (src : Endpoint) (s : State) : Out :=
  .next (
    let ended (x : Source) : Bool := x.src == src && x.cache.isEmpty && x.ahead.isEmpty && decide (x.last + 105000 ≤ s.d.cycle)
    let sources := s.d.fabric.sources.map (fun (x : Source) => if ended x then { x with granted := false } else x)
    { s with d := { s.d with fabric := { s.d.fabric with sources } } })

/-! ### Replies (R389, R393) -/

/-- The outstanding operations of a core on peers: those of its tasks, of its hearth, and those without an owner. -/
def State.peerOps (s : State) (core : CoreId) : List PendOp :=
  let c := s.core core
  ((c.tasks.flatMap (fun p => p.2.ops)) ++ (c.hearth.toList.flatMap (fun h => h.task.ops)) ++
    ((s.d.orphans.filter (fun p => p.1 == core)).map (·.2.2))).filter (fun o => o.peer)

/-- The core and the operation on a device that a source and a SEQ name. A task restored on another core has taken its operations
there (R345), and their requests keep their source. -/
def State.openOp (s : State) (src : Endpoint) (dev : BitVec 12) (seq : BitVec 16) : Option (CoreId × PendOp) :=
  s.allCores.findSome? (fun c => ((s.peerOps c.id).find? (fun o => o.openTo src dev && o.seq == seq)).map (fun o => (c.id, o)))

/-- A reply arrives from a peer: the operation that its number names has its answer; to any other it is discarded. -/
def State.replyArrives (s : State) (p : Packet) : State :=
  let h := p.hdr
  let core := Endpoint.core h.dst
  let dev := Endpoint.dev h.src
  let r : OutReply := { status := h.status, poison := bitsOf h.flags.toNat 0 1 == 1, label := h.label, data := BitVec.ofNat 512 (bytesAt p.data 0 64) }
  match s.openOp h.dst dev h.seq with
  | some (core, o) =>
    if o.wantsData then s.remoteReply core o.id (some r)
    else if h.status = 0 then s.acknowledge core o.id
    else s.deferredError core o.id h.status
  | none => match s.d.peerLines.find? (fun q => q.core == core && q.dev == dev && q.seq == h.seq) with
    | some q => s.peerLineReply core q.op r
    | none => s

/-- A request of a core that is still without its reply: its packet, the cycle it was first sent, and its resends. -/
def State.unanswered (s : State) (core : CoreId) (op : Nat) : Option (Packet × Nat × Nat) :=
  match (s.peerOps core).find? (fun o => o.id == op && o.stage.isSent) with
  | some o => o.packet.map (fun q => (q, o.cycle, o.resends))
  | none => match s.d.peerLines.find? (fun q => q.core == core && q.op == op && q.got.isNone) with
    | some q => q.packet.map (fun p => (p, q.cycle, q.resends))
    | none => none

/-- Counts a resend of a request of the core in focus. -/
def State.countResend (s : State) (op : Nat) : State :=
  let f (o : PendOp) : PendOp := if o.id = op then { o with resends := o.resends + 1 } else o
  let task (t : Task) : Task := { t with ops := t.ops.map f }
  let s := s.mapTasks task
  let d := { s.d with
    orphans := s.d.orphans.map (fun p => (p.1, p.2.1, f p.2.2)),
    peerLines := s.d.peerLines.map (fun (q : PeerLine) => if q.op = op then { q with resends := q.resends + 1 } else q) }
  { s with c := { s.c with hearth := s.c.hearth.map (fun (h : HearthRun) => { h with task := task h.task }) }, d }

/-- `REQUEST_RESEND` (R393): every 8 µs, with FLAGS[1] set, on the path that R391 gives now. -/
def execRequestResend (core : CoreId) (op : Nat) (s : State) : Out :=
  .next (match s.unanswered core op with
    | none => s
    | some (q, cycle, n) =>
      if s.d.cycle < cycle + 8400 * (n + 1) then s
      else ((s.focus core).countResend op).resend q)

/-- `REQUEST_TIMEOUT` (R393): the operation ends with a remote error and DETAIL 0, 40 µs after the first send. -/
def execRequestTimeout (core : CoreId) (op : Nat) (s : State) : Out :=
  .next (match s.unanswered core op with
    | none => s
    | some (_, cycle, _) =>
      if s.d.cycle < cycle + 42000 then s
      else match s.focusOp core op with
        | some (o, f) =>
          let f := match o.kind with | .post _ _ _ => { f with t := f.t.freeResv } | _ => f
          (match o.kind with
           | .command target tile n => f.refusedCommand o target tile n 0x11
           | _ => f.opFails o 0x11 0)
        | none => (match s.orphan core op with
          | some o => if o.isFire then s.fireBack core (s.orphanTid op) o 0 else s.orphanBack core o true
          | none => s.peerLineReply core op { status := 0x11, poison := false, label := 0, data := 0 }))

/-- `ACKNOWLEDGEMENT_PACKET` (R392): 2 µs after the last reply of a source that has no further request. -/
def execAcknowledgementPacket (core : CoreId) (dev : BitVec 12) (s : State) : Out :=
  .next (match s.d.fabric.lastReply.find? (fun p => p.1 == core && p.2.1 == dev) with
    | none => s
    | some (_, _, cycle, job) =>
      let open_ := (s.peerOps core).any (fun o => o.dev == dev && o.stage.isSent) ||
        s.d.peerLines.any (fun q => q.core == core && q.dev == dev && q.got.isNone)
      if open_ || decide (s.d.cycle < cycle + 2100) then s
      else
        let l := s.d.fabric.lastReply.filter (fun p => !(p.1 == core && p.2.1 == dev))
        let f := State.focus { s with d := { s.d with fabric := { s.d.fabric with lastReply := l } } } core
        let (id, f) := f.newOp
        let o : PendOp := {
          id, pc := 0, next := 0, dest := none, result := false, kind := .ack, stage := .sent, clabel := 0, peer := true,
          host := false, seq := 0, cycle := f.d.cycle }
        let ask := askEndpoint 0x0F (gatewayOf dev 0 (cacheGate (endpointOf f.d.fabric.device core))) 0 []
        let (o, f) := f.toPeer dev (f.d.fabric.localJob job) o ask
        if o.stage.isSent then { f with d := { f.d with orphans := f.d.orphans ++ [(core, 0, o)] } } else f)

/-! ### Links (R381 to R383) -/

/-- A trained link: its numbers start again, and its receive buffer is offered to the peer. -/
def Link.trained (l : Link) : Link :=
  Link.sealGroup { l.downed with
    up := true, sendSeq := 0, recvSeq := 0, owed := Vector.ofFn (fun (i : Fin 2) => Config.receiveBeats i.val),
    credits := Vector.replicate 2 0 }

/-- Trains a link: each try succeeds or fails; three failures fence it (R383). -/
def State.train (s : State) (port : BitVec 5) : Nat → State
  | 0 => if s.isFenced (.link port) then s else s.doFence (.link port)
  | n + 1 =>
    let (ok, s) := s.freeBit
    if ok then
      let s := s.modLink port Link.trained
      { s with d := { s.d with fabric := s.d.fabric.pump port (s.d.fabric.out.length + 1) } }
    else s.train port n

/-- A link fails: it is taken down, the failure is recorded, and it is trained again. -/
def State.linkFails (s : State) (port : BitVec 5) : State :=
  ((s.modLink port Link.downed).noteFailure (portDie port) (port.toNat % 8)).train port 3

/-- `LINK_DOWN` (R383). -/
def execLinkDown (port : BitVec 5) (s : State) : Out :=
  .next (match s.d.fabric.links[port.toNat]? with
    | some l => if l.up then s.linkFails port else s
    | none => s)

/-- Whether flit number a is acknowledged by number b, modulo 2^24. -/
def ackCovers (b a : BitVec 24) : Bool := decide ((b - a).toNat < 2 ^ 23)

/-- The groups that an ACK acknowledges are no longer kept; when all groups of the old bank are, it is cleared (R396). -/
def Link.acknowledge (l : Link) (ack : BitVec 24) : Link :=
  let kept := l.kept.filter (fun g => !(ackCovers ack (g.1 + 3)))
  let old := bankIndex (!l.sendGen)
  let keys := if kept.any (fun g => g.2.1 != l.sendGen) then l.sendKeys else l.sendKeys.setIfInBounds old none
  { l with kept, sendKeys := keys }

/-- A NAK: the kept groups from the failed one onward are sent again, with their numbers, banks and ciphertext as they were; a
group that is retried 16 times takes the link down (R383). -/
def State.naked (s : State) (port : BitVec 5) (ack : BitVec 24) : State :=
  let s := s.modLink port (fun l => l.acknowledge ack)
  match (s.d.fabric.links[port.toNat]?).bind (fun l => l.kept.head?.map (fun g => (l, g.1))) with
  | none => s
  | some (l, q) =>
    let n := if l.retried.1 = q then l.retried.2 + 1 else 1
    let s := (s.modLink port (fun l => { l with retried := (q, n) })).countDie (portDie port) 7 l.kept.length
    if 16 ≤ n then s.linkFails port else s

/-- `NAK` (R383). -/
def execNak (port : BitVec 5) (ack : BitVec 24) (s : State) : Out :=
  .next (match s.d.fabric.links[port.toNat]? with
    | some l => if l.up then s.naked port ack else s
    | none => s)

/-- Cuts whole packets off a stream. A doubleword of zeros where a packet could begin is filling. -/
def takePackets : Nat → List Byte → List Packet × List Byte
  | 0, l => ([], l)
  | n + 1, l =>
    if l.length < 8 then ([], l)
    else if (l.take 8).all (· == 0) then takePackets n (l.drop 8)
    else if l.length < 32 then ([], l)
    else
      let h := headerOf (bytesAt l 0 32)
      let k := h.len.toNat
      if l.length < 32 + k then ([], l)
      else
        let (ps, rest) := takePackets n (l.drop (32 + k))
        ({ hdr := h, data := (l.drop 32).take k } :: ps, rest)

/-- A group is discarded: NAK goes back, and more than 1,000 failures in a second take the link down (R382, R383). -/
def State.discardGroup (s : State) (port : BitVec 5) (l : Link) : State :=
  let (n, since) := if l.fails.2 + 1050000000 ≤ s.d.cycle then (0, s.d.cycle) else l.fails
  let s := s.countDie (portDie port) 8 1
  let s := s.modLink port (fun l => { l with fails := (n + 1, since), nak := true })
  if 1000 < n + 1 then s.linkFails port else s.modLink port Link.sealGroup

/-- A packet has arrived whole: its beats are free again, and it is a reply or a request. -/
def State.packetArrives (s : State) (port : BitVec 5) (p : Packet) : State :=
  let s := s.modLink port (fun l => { l with owed := vmod l.owed p.channel (· + p.beats) })
  if p.hdr.isReply then s.replyArrives p else s.requestArrives port p

/-- The credits that a group's headers return. -/
def Link.credited (l : Link) (headers : Nat) : Link :=
  { l with credits := (rangeFrom 0 4).foldl (fun v i =>
      let h := bitsOf headers (64 * i) 64
      vmod v (bitsOf h 7 1) (· + bitsOf h 8 6)) l.credits }

/-- A good group is delivered. -/
def State.deliverGroup (s : State) (port : BitVec 5) (l : Link) (headers bank : Nat) (bytes : List Byte) : State :=
  let (ps, rest) := takePackets (l.stream.length + bytes.length) (l.stream ++ bytes)
  let kept := l.kept.length
  let s := s.modLink port (fun l => { l with
    stream := rest, recvSeq := l.recvSeq + 4, recvGen := bank == 1, recvCount := vmod l.recvCount bank (· + 1) })
  let s := s.modLink port (fun l => l.credited headers)
  let ack : BitVec 24 := BitVec.ofNat 24 (bitsOf headers (192 + 14) 24)
  let nak := bitsOf headers (192 + 62) 1 == 1
  let s := if nak then s.naked port ack else s.modLink port (fun l => l.acknowledge ack)
  let s := { s with d := { s.d with fabric := s.d.fabric.pump port (s.d.fabric.out.length + 1) } }
  let s := ps.foldl (fun s p => s.packetArrives port p) s
  if ps.isEmpty ∨ (s.d.fabric.links[port.toNat]?).any (fun l => l.kept.length != kept) then s else s.modLink port Link.sealGroup

/-- `FLIT_GROUP_RECEIVE` (R381 to R383, R396). -/
def execFlitGroupReceive (port : BitVec 5) (headers : BitVec 256) (payload : List (BitVec 8)) (tag : BitVec 128) (s : State) : Out :=
  .next (match s.d.fabric.links[port.toNat]? with
    | none => s
    | some l =>
      let h (i : Nat) : Nat := bitsOf headers.toNat (64 * i) 64
      let bank := bitsOf (h 0) 63 1
      if !l.up then s
      else if (rangeFrom 0 4).any (fun i => bitsOf (h i) 63 1 != bank || bitsOf (h i) 38 24 != (l.recvSeq + BitVec.ofNat 24 i).toNat) then
        s.discardGroup port l
      else match l.recvKeys[bank]?.getD none with
        | none => s.linkFails port
        | some (key, salt) =>
          match Config.gcmOpen key (groupIv salt (l.recvCount[bank]?.getD 0)) headers payload tag with
          | none => s.discardGroup port l
          | some bytes => s.deliverGroup port l headers.toNat bank bytes)

/-! ### Keys (R395, R396) -/

/-- The receiver of a direction loads the new key into its idle bank; with both banks loaded, the sender's report clears the
old one. -/
def Link.rekeyReceive (l : Link) (port gen : Nat) : Link :=
  let now := bankIndex l.recvGen
  let other := 1 - now
  match l.recvKeys[now]?.getD none, l.recvKeys[other]?.getD none with
  | none, _ => { l with recvKeys := l.recvKeys.setIfInBounds now (some (Config.linkKey port false gen)), recvCount := l.recvCount.setIfInBounds now 0 }
  | some _, none =>
    { l with recvKeys := l.recvKeys.setIfInBounds other (some (Config.linkKey port false gen)), recvCount := l.recvCount.setIfInBounds other 0 }
  | some _, some _ => { l with recvKeys := l.recvKeys.setIfInBounds other none }

/-- The sender loads its idle bank and seals every group under it from the next boundary on. -/
def Link.rekeySend (l : Link) (port gen : Nat) : Link :=
  let now := bankIndex l.sendGen
  let other := 1 - now
  let load (b : Nat) (g : Bool) : Link := { l with
    sendKeys := l.sendKeys.setIfInBounds b (some (Config.linkKey port true gen)), sendCount := l.sendCount.setIfInBounds b 0, sendGen := g }
  match l.sendKeys[now]?.getD none, l.sendKeys[other]?.getD none with
  | none, _ => load now l.sendGen
  | some _, none => load other (!l.sendGen)
  | some _, some _ => l

/-- `REKEY` (R395, R396). -/
def execRekey (port : BitVec 5) (sending : Bool) (s : State) : Out :=
  .next (
    let gen := s.d.spdm.generation
    s.modLink port (fun l => if sending then (l.rekeySend port.toNat gen).acknowledge (l.sendSeq - 1 - BitVec.ofNat 24 (4 * l.kept.length))
      else l.rekeyReceive port.toNat gen))

/-! ### The fabric window (R386) -/

/-- A job table entry; one with a reserved bit is not valid. -/
def jobMapOf (n : Nat) : JobMap :=
  { pod := BitVec.ofNat 16 (bitsOf n 0 16), job := BitVec.ofNat 16 (bitsOf n 16 16), part := BitVec.ofNat 2 (bitsOf n 32 2),
    valid := bitsOf n 34 1 == 1 && bitsOf n 35 93 == 0 }

/-- Puts a region map entry into its place. -/
def insertRegion (r : BitVec 6 × BitVec 6 × BitVec 128) : List (BitVec 6 × BitVec 6 × BitVec 128) → List (BitVec 6 × BitVec 6 × BitVec 128)
  | [] => [r]
  | q :: l =>
    let at_ (x : BitVec 6 × BitVec 6 × BitVec 128) : Nat := x.1.toNat * 64 + x.2.1.toNat
    if at_ r < at_ q then r :: q :: l else if at_ r = at_ q then r :: l else q :: insertRegion r l

/-- `RMSYNC` (R386): every core uses the structures of the window as they stand at the write. -/
def execRmsync (window : FabricWindow) (s : State) : Out :=
  .next (
    let f := s.d.fabric
    { s with d := { s.d with fabric := { f with
        jobs := window.jobs.map (fun e => (e.1, jobMapOf e.2.toNat)), routes := window.routes,
        regions := window.regions.foldl (fun l r => insertRegion r l) [], syncs := f.syncs + 1 } } })

end Sys2Proof.Machine
end

