-- ==== Sys2Proof/Machine/Bringup.lean ====
section
/-! DEFINITION. Power, flash, the boot journal, bring-up, the capability list and attestation (R423 to R430). -/

namespace Sys2Proof.Machine

/-! ### Images (R425, R426) -/

def FlashImage.kind (i : FlashImage) : Nat := bitsOf i.header.toNat 32 16
def FlashImage.version (i : FlashImage) : Nat := bitsOf i.header.toNat 64 64
def FlashImage.length (i : FlashImage) : Nat := bitsOf i.header.toNat 128 64
def FlashImage.hash (i : FlashImage) : BitVec 256 := BitVec.ofNat 256 (bitsOf i.header.toNat 192 256)

/-- MAGIC, KIND, the reserved fields and LENGTH, and the hash of the body. -/
def FlashImage.formOk (i : FlashImage) (kind : Nat) : Bool :=
  bitsOf i.header.toNat 0 32 == 0x4D494B46 && i.kind == kind && bitsOf i.header.toNat 48 16 == 0 && bitsOf i.header.toNat 448 64 == 0 &&
  i.length == i.body.length && i.hash == Config.shake256 i.body

/-- The keys, of those offered with an image, under which its signature verifies. -/
def FlashImage.keys (i : FlashImage) : List (List Byte) :=
  (Config.imageKeys i.body).filter (fun k => Config.mldsaVerify k (toBytes 64 i.header.toNat) (i.signature.take 3309))

/-- The valid records of the journal. -/
def Boot.records (b : Boot) : List (BitVec 256) := b.journal.filter jOk

/-- The first 12 bytes of a key's hash, as an OWNER record holds them. -/
def ownerOf (key : List Byte) : Nat := (Config.shake256 key).toNat % 2 ^ 96

/-- The owner key's hash that the journal's latest OWNER record holds. -/
def Boot.owner (b : Boot) : Option Nat := ((b.records.filter (fun r => jType r == 6)).getLast?).map jArg

/-- The highest VERSION of a kind that the journal records as accepted: STEP tells the kind. -/
def Boot.floor (b : Boot) (kind : Nat) : Nat :=
  (b.records.filter (fun r => jType r == 5 && jStep r == kind)).foldl (fun n r => max n (jArg r)) 0

/-- Whether an image is valid (R426). -/
def Boot.accepts (b : Boot) (kind : Nat) (i : FlashImage) : Bool :=
  i.formOk kind && decide (b.floor kind ≤ i.version) &&
  (if kind = 1 then i.keys.any (fun k => Config.shake256 k == Config.romRootHash)
   else match b.owner with
     | some o => i.keys.any (fun k => ownerOf k == o)
     | none => !i.keys.isEmpty)

/-- The image of the slot that is used: the valid one of higher version, A when both are equal. -/
def Boot.select (b : Boot) (kind : Nat) (slots : Vector (Option FlashImage) 2) : Option FlashImage :=
  let ok (i : Option FlashImage) : Option FlashImage := i.filter (b.accepts kind)
  match ok slots[0], ok slots[1] with
  | some x, some y => if x.version < y.version then some y else some x
  | some x, none => some x
  | none, y => y

/-- The OWNER record that an accepted configuration image leads to: the first one, or that of a new owner key beside the
recorded one. -/
def Boot.newOwner (b : Boot) (i : FlashImage) : Option Nat :=
  match b.owner with
  | none => i.keys.head?.map ownerOf
  | some o => (i.keys.find? (fun k => ownerOf k != o)).map ownerOf

/-! ### Bring-up (R428) -/

/-- Adds a journal record of this boot. -/
def Device.note (d : Device) (type step unit detail arg : Nat) : Device :=
  d.journalAdd (jRecord type step unit detail d.boot.count.toNat arg)

/-- The SKIP or ALT record that waits for a step's unit at this boot (R427): one written during the boot before. -/
def Boot.waiting (b : Boot) (step unit : Nat) : Option (BitVec 256) :=
  b.records.find? (fun r => (jType r == 3 || jType r == 4) && jStep r == step && jUnit r == unit && jBoot r + 1 == b.count.toNat)

/-- Whether a step may be skipped, or run again with a replacement, by a record of a type. -/
def skippable (die step type : Nat) : Bool :=
  (type == 3 && (step == 3 || step == 4 || step == 7)) || (type == 4 && step == 4) || (type == 3 && step == 6 && die == 0)

/-- What a skipped unit leads to. -/
def Device.skip (d : Device) (die : BitVec 2) (step port : Nat) : Device :=
  match step with
  | 3 => { d with fencedChannels := d.fencedChannels ++ [(die, BitVec.ofNat 3 port)] }
  | 4 => { d with boot := { d.boot with absentPorts := d.boot.absentPorts ++ [(die, BitVec.ofNat 5 port)] } }
  | 6 => { d with boot := { d.boot with cxlUp := false } }
  | _ => { d with boot := { d.boot with linkDown := d.boot.linkDown ++ [BitVec.ofNat 5 (die.toNat * 8 + port)] } }

/-- A bit for a step in the masks of the boot status. -/
def stepBit (step : Nat) : BitVec 16 := BitVec.ofNat 16 (2 ^ step)

/-- A failure of a step: it is recorded; a waiting record that the step allows is consumed. The answer says whether bring-up
goes on. -/
def Device.failStep (d : Device) (die : BitVec 2) (f : StepFailure) : Bool × Device :=
  let step := f.step.toNat
  let unit := f.unit.toNat
  let d := { d with boot := { d.boot with failed := d.boot.failed ||| stepBit step } }
  let d := d.note 2 step unit f.code.toNat 0
  match d.boot.waiting step unit with
  | none => (false, d)
  | some r =>
    if !(skippable die.toNat step (jType r)) then (false, d)
    else
      let d := d.note 7 step unit 0 0
      if jType r = 4 then (true, d)
      else (true, Device.skip { d with boot := { d.boot with skipped := d.boot.skipped ||| stepBit step } } die step (unit / 4))

/-- The failures of a step's units, one after another. -/
def Device.failSteps (d : Device) (die : BitVec 2) : List StepFailure → Bool × Device
  | [] => (true, d)
  | f :: r => match d.failStep die f with
    | (true, d) => d.failSteps die r
    | (false, d) => (false, d)

/-- Step 1: firmware. -/
def Device.step1 (d : Device) (die : BitVec 2) (fw : FlashImage) : Device :=
  let boot : Boot := { d.boot with
    mtvec := d.boot.mtvec.setIfInBounds die.toNat (Config.fwMtvec fw.body die.toNat), fwHash := fw.hash, fwVersion := BitVec.ofNat 64 fw.version }
  let d := { d with boot }
  if die = 0 then d.note 5 1 0 0 fw.version else d

/-- Step 2: configuration. -/
def Device.step2 (d : Device) (die : BitVec 2) (cfg : FlashImage) : Device :=
  let d : Device := { d with
    brfw := d.brfw.setIfInBounds die.toNat (Config.cfgBrfw cfg.body die.toNat),
    fabric := { d.fabric with device := Config.cfgDevice cfg.body, routes := Config.cfgRoutes cfg.body },
    boot := { d.boot with cfgHash := cfg.hash, chain := Config.cfgChain cfg.body } }
  if die ≠ 0 then d
  else
    let d := match d.boot.newOwner cfg with
      | some o => d.note 6 2 0 0 o
      | none => d
    d.note 5 2 0 0 cfg.version

/-- Step 7: the die's ports that have neither failed nor been skipped are trained. -/
def Device.step7 (d : Device) (die : BitVec 2) : Device :=
  (rangeFrom (die.toNat * 8) 8).foldl (fun (d : Device) p =>
    if d.boot.linkDown.contains (BitVec.ofNat 5 p) then d
    else { d with fabric := { d.fabric with links := vmod d.fabric.links p Link.trained } }) d

/-- The effect of a step that has not failed. -/
def Device.doStep (d : Device) (die : BitVec 2) (fw cfg : FlashImage) (step : Nat) : Device :=
  match step with
  | 1 => d.step1 die fw
  | 2 => d.step2 die cfg
  | 6 => if die = 0 ∧ !(d.boot.skipped.getLsbD 6) then { d with boot := { d.boot with cxlUp := true } } else d
  | 7 => d.step7 die
  | 8 => { d with spdm := { d.spdm with started := true } }
  | 9 => { d with boot := { d.boot with released := d.boot.released.setIfInBounds die.toNat true } }
  | _ => d

/-- Runs a die's steps from one on. -/
def Device.runSteps (d : Device) (die : BitVec 2) (fw cfg : FlashImage) (failures : List StepFailure) : List Nat → Device
  | [] => d
  | n :: r =>
    let fs := failures.filter (fun f => f.step.toNat == n && f.unit.toNat % 4 == die.toNat)
    if n = 6 ∧ die ≠ 0 then d.runSteps die fw cfg failures r
    else match d.failSteps die fs with
      | (false, d) => { d with boot := { d.boot with stopped := d.boot.stopped.setIfInBounds die.toNat (some (BitVec.ofNat 8 n)) } }
      | (true, d) =>
        let d := if fs.isEmpty then d.note 1 n die.toNat 0 0 else d
        (d.doStep die fw cfg n).runSteps die fw cfg failures r

/-- D0 stops the device at a step: the board controller is told through Q4. -/
def Device.stopAt (d : Device) (step : Nat) : Device :=
  Device.qpush { d with boot := { d.boot with stopped := d.boot.stopped.setIfInBounds 0 (some (BitVec.ofNat 8 step)) } } 0 4 (BitVec.ofNat 64 step)

/-- A step of D0 that fails for want of a valid image. -/
def Device.noImage (d : Device) (step : Nat) : Device :=
  let d := { d with boot := { d.boot with failed := d.boot.failed ||| stepBit step } }
  (d.note 2 step 0 0 0).stopAt step

/-- A capability record at its place in the list. -/
def capRecord (id next : Nat) (fields : List Nat) : BitVec 128 :=
  BitVec.ofNat 128 (id + 2 ^ 8 + next * 2 ^ 16 + (Config.capPayload id fields).toNat * 2 ^ 32)

/-- The capability list (R429). -/
def Device.capList (d : Device) : List (BitVec 128) :=
  let mask (n : Nat) (p : Nat → Bool) : Nat := (rangeFrom 0 n).foldl (fun m i => m + (if p i then 2 ^ i else 0)) 0
  let memory := (rangeFrom 0 4).flatMap (fun die =>
    [mask 8 (fun c => !(d.fencedChannels.contains (BitVec.ofNat 2 die, BitVec.ofNat 3 c))),
     mask 2 (fun p => !(d.boot.absentPorts.contains (BitVec.ofNat 2 die, BitVec.ofNat 5 p)))])
  [capRecord 1 0x810 [0x1024A, d.fabric.device.toNat, d.boot.fwVersion.toNat],
   capRecord 2 0x820 [d.boot.failed.toNat, d.boot.skipped.toNat, d.boot.count.toNat],
   capRecord 3 0x830 memory,
   capRecord 4 0x840 [mask 32 (fun p => (d.fabric.links[p]?).any (·.up))],
   capRecord 5 0x850 (d.brfw.toList.map (·.toNat)),
   capRecord 6 0 []]

/-- The list that D0's release publishes. -/
def Device.published (d : Device) : Device := if d.boot.released[0] then { d with boot := { d.boot with caps := d.capList } } else d

/-- The result words of the mailboxes stand in each control block with DONE set (R368). -/
def Device.resultWords (d : Device) : Device :=
  { d with gmem := (rangeFrom 0 4).foldl (fun (m : Bank) p =>
      (m.put (controlPa (BitVec.ofNat 2 p) + 72) 8 1).put (controlPa (BitVec.ofNat 2 p) + 1096) 8 1) d.gmem }

/-- Bring-up of all dies. A failure of step 1 or 2 on D0 stops the device. -/
def Device.bringUp (d : Device) (failures : List StepFailure) : Device :=
  match d.boot.select 1 d.boot.firmware with
  | none => d.noImage 1
  | some fw => match d.boot.select 2 d.boot.config with
    | none => (d.note 1 1 0 0 0).noImage 2
    | some cfg =>
      let steps := rangeFrom 1 9
      let d := d.resultWords.runSteps 0 fw cfg failures steps
      match d.boot.stopped[0] with
      | some n => if n.toNat ≤ 2 then d.stopAt n.toNat else (dies d fw cfg).published
      | none => (dies d fw cfg).published
where
  /-- D1 to D3. -/
  dies (d : Device) (fw cfg : FlashImage) : Device :=
    (rangeFrom 1 3).foldl (fun (d : Device) n => d.runSteps (BitVec.ofNat 2 n) fw cfg failures (rangeFrom 1 9)) d

/-! ### Power and reset (R423, R428) -/

/-- What outlasts a loss of power: flash, and the memory of the host, which is not the device's. The agenda and the counters of
free values and of names are the model's own. -/
def Device.lost (d : Device) (powered cold : Bool) : Device :=
  { Device.reset with
    agenda := d.agenda, free := d.free, nextOp := d.nextOp,
    gmem := { Bank.empty with mem := d.gmem.mem.filter (fun p => decide (hostBase ≤ p.1)) },
    boot := { Boot.reset with firmware := d.boot.firmware, config := d.boot.config, journal := d.boot.journal, powered, cold } }

/-- The boot count of the next boot: one more than the journal's highest. -/
def Boot.next (b : Boot) : Word := BitVec.ofNat 64 (b.records.foldl (fun n r => max n (jBoot r)) 0 + 1)

/-- The machine with a device as reset leaves it: core (0, 0) of D0 in focus, no task. -/
def Device.alone (d : Device) : State := { t := Task.vacant, c := Core.reset 0, d }

/-- Runs the bring-up of a device that has been reset. -/
def State.boot (s : State) (failures : List StepFailure) : State :=
  let d : Device := { s.d with boot := { s.d.boot with count := s.d.boot.next } }
  { s with d := d.bringUp failures }

/-- `PACKAGE_RESET` (R423, R428). -/
def execPackageReset (failures : List StepFailure) (s : State) : Out :=
  .next ((s.d.lost true (!s.d.boot.powered && s.d.boot.cold)).alone.boot failures)

/-- `POWER_LOSS` (R423): the rails are down; out of order, the next power-up is a cold boot. -/
def execPowerLoss (inOrder : Bool) (s : State) : Out := .next (s.d.lost false (!inOrder)).alone

/-- Whether the bring-up that follows the release of reset is still to run. -/
def Boot.due (b : Boot) : Bool := b.powered && b.count == 0 && b.stopped[0].isNone && !b.released[0]

/-! ### Attestation (R430) -/

/-- Gives a response. -/
def State.respond (s : State) (r : SpdmReply) : State := { s with d := { s.d with spdm := { s.d.spdm with out := s.d.spdm.out ++ [r] } } }

/-- Answers a request of a started responder when what it needs has been done before, else with an error. -/
def State.spdm (s : State) (ready : Spdm → Bool) (k : Spdm → State → State) : State :=
  if !s.d.spdm.started then s else if ready s.d.spdm then k s.d.spdm s else s.respond .error

/-- Sets what has been negotiated, and responds. -/
def State.spdmSet (s : State) (p : Spdm) (r : SpdmReply) : State := State.respond { s with d := { s.d with spdm := p } } r

/-- `GET_VERSION` (R430): negotiation starts again. -/
def execGetVersion (s : State) : Out :=
  .next (s.spdm (fun _ => true) (fun p s =>
    s.spdmSet { p with versioned := true, capabilities := false, negotiated := false, session := false, finished := false } .version))

/-- `GET_CAPABILITIES` (R430). -/
def execGetCapabilities (s : State) : Out :=
  .next (s.spdm (·.versioned) (fun p s => s.spdmSet { p with capabilities := true } .capabilities))

/-- The extended algorithm entries: registry byte 0xFF, a reserved byte, the algorithm. -/
def extAsym : BitVec 32 := 0x000100FF
def extHash : BitVec 32 := 0x000200FF

/-- `NEGOTIATE_ALGORITHMS` (R430): a request without matching entries has an error, and nothing follows. -/
def execNegotiateAlgorithms (asym hash : List (BitVec 32)) (s : State) : Out :=
  .next (s.spdm (·.capabilities) (fun p s =>
    if asym.contains extAsym && hash.contains extHash then s.spdmSet { p with negotiated := true } (.algorithms extAsym extHash)
    else s.spdmSet { p with negotiated := false } .error))

/-- The digest of the certificate chain. -/
def State.chainDigest (s : State) : BitVec 256 := Config.shake256 s.d.boot.chain

/-- `GET_DIGESTS` (R430). -/
def execGetDigests (s : State) : Out :=
  .next (s.spdm (·.negotiated) (fun _ s => s.respond (.digests s.chainDigest)))

/-- `GET_CERTIFICATE` (R430): a part of the chain. -/
def execGetCertificate (offset length : Nat) (s : State) : Out :=
  .next (s.spdm (·.negotiated) (fun _ s =>
    if s.d.boot.chain.length ≤ offset then s.respond .error
    else s.respond (.certificate ((s.d.boot.chain.drop offset).take length))))

/-- A signature of the identity key over what SPDM 1.2 signs. -/
def spdmSignature (asked said : List Byte) : List Byte := Config.mldsaSign (Config.spdmSigned asked said)

/-- `CHALLENGE` (R430). -/
def execChallenge (nonce : BitVec 256) (s : State) : Out :=
  .next (s.spdm (·.negotiated) (fun _ s =>
    s.respond (.challengeAuth s.chainDigest (spdmSignature (toBytes 32 nonce.toNat) (toBytes 32 s.chainDigest.toNat)))))

/-- The five measurements. -/
def State.measure (s : State) (index : Nat) : List Byte :=
  let hash (l : List Byte) : List Byte := toBytes 32 (Config.shake256 l).toNat
  match index with
  | 1 => toBytes 32 Config.romHash.toNat
  | 2 => toBytes 32 s.d.boot.fwHash.toNat
  | 3 => toBytes 32 s.d.boot.cfgHash.toNat
  | 4 => hash (s.d.boot.records.flatMap (fun r => toBytes 32 r.toNat))
  | _ => s.d.parts.toList.flatMap (fun p => hash (p.policies.flatMap (·.body)))

/-- `GET_MEASUREMENTS` (R430): one, or with 0xFF all of them. -/
def execGetMeasurements (index : BitVec 8) (nonce : BitVec 256) (s : State) : Out :=
  .next (s.spdm (·.negotiated) (fun _ s =>
    let all := index == 0xFF
    if !all && !(decide (1 ≤ index.toNat) && decide (index.toNat ≤ 5)) then s.respond .error
    else
      let l := (if all then rangeFrom 1 5 else [index.toNat]).map (fun i => (BitVec.ofNat 8 i, s.measure i))
      s.respond (.measurements l (spdmSignature (toBytes 32 nonce.toNat) (l.flatMap (·.2))))))

/-- `KEY_EXCHANGE` (R395, R430). -/
def execKeyExchange (exchange : List (BitVec 8)) (s : State) : Out :=
  .next (s.spdm (·.negotiated) (fun p s =>
    let r := Config.spdmExchange exchange
    s.spdmSet { p with session := true, finished := false } (.keyExchange r (spdmSignature exchange r))))

/-- `FINISH` (R395, R430): the session stands, at generation 0. -/
def execFinish (verify : BitVec 256) (s : State) : Out :=
  .next (s.spdm (·.session) (fun p s =>
    if Config.spdmVerify verify then s.spdmSet { p with finished := true, generation := 0 } .finish
    else s.spdmSet { p with session := false } .error))

/-- `KEY_UPDATE` (R395, R430): the next generation. -/
def execKeyUpdate (s : State) : Out :=
  .next (s.spdm (·.finished) (fun p s => s.spdmSet { p with generation := p.generation + 1 } .keyUpdate))

/-- `END_SESSION` (R430). -/
def execEndSession (s : State) : Out :=
  .next (s.spdm (·.finished) (fun p s => s.spdmSet { p with session := false, finished := false } .endSession))

/-- `HOST_SKIP_ALT_RECORD` (R427): over the authenticated session. -/
def execHostSkipAltRecord (alt : Bool) (step : BitVec 8) (unit : BitVec 16) (arg : BitVec 96) (s : State) : Out :=
  .next (if s.d.spdm.finished && decide (unit.toNat < 128) then
    { s with d := s.d.note (if alt then 4 else 3) step.toNat unit.toNat 0 arg.toNat }
  else s)

end Sys2Proof.Machine
end

