-- ==== Sys2Proof/Machine/Copy.lean ====
section
/-! DEFINITION. The copy engine (R241 to R251, R339): the tensor layout record, what a delivery consists of, acceptance with
the release gate (R250, R375, R377), segments and their ends. -/

namespace Sys2Proof.Machine

/-! ### The tensor layout record (R241, R242) -/

/-- A layout record's fields. Dimensions at or above the rank have extent 1 in `wd` and size 1 in `n`. -/
structure Layout where
  fmt : Nat
  base : Nat
  rank : Nat
  edge : Nat
  fill : Bool
  pattern : Nat
  n : List Nat
  s : List Nat
  o : List Int
  wd : List Nat
  dst : Nat
  il : Nat
  skew : Nat
  sstride : Nat
  sbase : Nat
  deriving DecidableEq, Repr

/-- The field of word w of a record from bit lo, len bits long. -/
def recField (r : BitVec 768) (w lo len : Nat) : Nat := bitsOf r.toNat (128 * w + lo) len

def layoutOf (r : BitVec 768) : Layout :=
  let rank := recField r 0 69 2 + 1
  let low (d v : Nat) : Nat := if d < rank then v else 1
  let sst := recField r 5 64 32
  let fmt := recField r 0 64 5
  { fmt, base := recField r 0 0 64, rank, edge := recField r 0 73 2, fill := recField r 0 72 1 == 1,
    pattern := recField r 0 96 32,
    n := (rangeFrom 0 4).map (fun d => low d (recField r 1 (32 * d) 32)),
    s := [1, recField r 2 0 40, recField r 2 40 40, recField r 2 80 40],
    o := (rangeFrom 0 4).map (fun d => signed 32 (recField r 3 (32 * d) 32)),
    wd := (rangeFrom 0 4).map (fun d => low d (recField r 4 (16 * d) 16)),
    dst := recField r 4 64 20, il := recField r 4 84 4, skew := recField r 4 88 8,
    sstride := if sst ≠ 0 then sst else if fmt < 16 then 2 else 1, sbase := recField r 5 0 64 }

/-- The element in dimension d of a list of dimensions. -/
def dim {α : Type} [Inhabited α] (l : List α) (d : Nat) : α := (l[d]?).getD default

/-- The tag of a BQ code, and whether a code is a microscaling format. -/
def codeBq : Nat → Option FTag
  | 9 => some .bq7 | 10 => some .bq4 | 11 => some .bq2
  | _ => none
def isMx (fmt : Nat) : Bool := decide (16 ≤ fmt)
/-- The group of a code: 16 for BQ, 32 for a microscaling format (R242). -/
def groupOf (fmt : Nat) : Nat := if isMx fmt then 32 else if (codeBq fmt).isSome then 16 else 1
/-- The BQ tag in which a code is delivered, if it is (R67). -/
def deliveredBq (fmt : Nat) : Option FTag := if 20 ≤ fmt then some .bq7 else codeBq fmt
/-- Bytes of a delivered element of a code that is not delivered in blocks (R243). -/
def elemBytes : Nat → Nat
  | 1 | 5 | 6 => 4
  | 4 | 12 => 8
  | 8 | 13 => 1
  | _ => 2

/-- Whether a record is valid (R67, R242); reserved bits come first. -/
def layoutOk (r : BitVec 768) : Bool :=
  let l := layoutOf r
  let g := groupOf l.fmt
  recField r 0 75 21 == 0 && recField r 0 71 1 == 0 && recField r 2 120 8 == 0 && recField r 4 96 32 == 0 &&
  recField r 5 96 32 == 0 && l.edge != 3 && decide (l.il < 3) && l.fmt != 0 && l.fmt != 14 && l.fmt != 15 &&
  decide (l.fmt < 24) &&
  (rangeFrom 0 4).all (fun d =>
    let n := recField r 1 (32 * d) 32
    let w := recField r 4 (16 * d) 16
    if d < l.rank then n != 0 && w != 0
    else n == 0 && w == 0 && dim l.o d == 0 && (d == 0 || dim l.s d == 0)) &&
  (!l.fill || l.edge == 0) && (g != 1 || (l.sbase == 0 && recField r 5 64 32 == 0)) &&
  dim l.n 0 % g == 0 && dim l.o 0 % (g : Int) == 0 && dim l.wd 0 % g == 0 &&
  (g == 1 || ((rangeFrom 1 3).all (fun d => dim l.s d % g == 0))) && (l.skew == 0 || l.il == 2)

/-! ### The delivery (R243, R244, R245) -/

/-- Rows of the window. -/
def Layout.rows (l : Layout) : Nat := dim l.wd 1 * dim l.wd 2 * dim l.wd 3

/-- Bytes of a delivered block's mantissa field. -/
def blockBytes (f : FTag) : Nat := match bqParams f with | some (n, _, _) => 2 * (n + 1) | none => 0

/-- Delivered bytes of a row, without scale records. -/
def Layout.rowBytes (l : Layout) : Nat :=
  match deliveredBq l.fmt with
  | some f => dim l.wd 0 / 16 * blockBytes f
  | none => dim l.wd 0 * elemBytes l.fmt

/-- Bytes of a row's scale records. -/
def Layout.scaleBytes (l : Layout) : Nat := if (deliveredBq l.fmt).isSome then dim l.wd 0 / 16 * 2 else 0

/-- Bytes from the start of one row to the start of the next: in a pipe a row is followed by its scale records. -/
def Layout.pitch (l : Layout) (pipe : Bool) : Nat :=
  if pipe then l.rowBytes + l.scaleBytes else if l.il = 2 then l.rowBytes + 32 * l.skew else l.rowBytes

/-- Where the scale records of the window start, from the first destination byte: the next 64-byte boundary. -/
def Layout.scaleStart (l : Layout) : Nat :=
  let fin := l.dst + (l.rows - 1) * l.pitch false + l.rowBytes
  (fin + 63) / 64 * 64 - l.dst

/-- Bytes of the destination span. -/
def Layout.span (l : Layout) (pipe : Bool) : Nat :=
  if pipe then l.rows * l.pitch true
  else if (deliveredBq l.fmt).isSome then l.scaleStart + l.rows * l.scaleBytes
  else (l.rows - 1) * l.pitch false + l.rowBytes

/-- The offset of byte y of row q. -/
def Layout.place (l : Layout) (pipe : Bool) (q y : Nat) : Nat :=
  if !pipe && l.il == 1 then
    let c := min 32 (l.rowBytes / 32)
    q * l.rowBytes + 32 * ((y / 32) ^^^ (q % c)) + y % 32
  else q * l.pitch pipe + y

/-- The offset of scale byte y of row q. -/
def Layout.scalePlace (l : Layout) (pipe : Bool) (q y : Nat) : Nat :=
  if pipe then q * l.pitch true + l.rowBytes + y else l.scaleStart + q * l.scaleBytes + y

/-- The tensor coordinates of element i0 of row q. -/
def Layout.coords (l : Layout) (q i0 : Nat) : List Int :=
  let w1 := dim l.wd 1
  let w2 := dim l.wd 2
  [dim l.o 0 + i0, dim l.o 1 + (q % w1 : Nat), dim l.o 2 + (q / w1 % w2 : Nat), dim l.o 3 + (q / w1 / w2 : Nat)]

/-- Whether every coordinate below the rank is in range. -/
def Layout.inRange (l : Layout) (c : List Int) : Bool :=
  (rangeFrom 0 l.rank).all (fun d => decide (0 ≤ dim c d) && decide (dim c d < ((dim l.n d : Nat) : Int)))

/-- The linear offset of an element, by which its source lies; none for an element that is filled. -/
def Layout.linear (l : Layout) (q i0 : Nat) : Option Nat :=
  let c := l.coords q i0
  if l.inRange c ∨ l.edge = 1 then
    some (((rangeFrom 0 l.rank).map (fun d =>
      (min (max (dim c d) 0) (((dim l.n d : Nat) : Int) - 1)).toNat * dim l.s d)).foldl (· + ·) 0)
  else none

/-- Where the bytes of a delivered cell come from. -/
inductive CellSrc where
  /-- fill bits -/
  | fill (v : Nat)
  /-- bytes as they stand -/
  | bytes (a : Nat)
  /-- a microscaling element, converted to BF16: its code and its linear offset -/
  | bf16 (fmt : Nat) (lin : Nat)
  /-- a block of sixteen microscaling elements, converted to BQ7: its mantissa field or its scale record -/
  | bq7 (fmt : Nat) (lins : List Nat) (scale : Bool)
  deriving DecidableEq, Repr

/-- A cell of a delivery: its offset from the first destination byte, its length, its source. -/
structure Cell where
  off : Nat
  len : Nat
  src : CellSrc
  deriving DecidableEq, Repr

/-- The fill bits of a delivered element of b bytes. -/
def Layout.fillBits (l : Layout) (b : Nat) : Nat :=
  if !l.fill then 0 else if b = 8 then l.pattern * (2 ^ 32 + 1) else l.pattern % 2 ^ (8 * b)

/-- The cell of element i0 of row q of a code that is not delivered in blocks. -/
def Layout.elemCell (l : Layout) (pipe : Bool) (q i0 : Nat) : Cell :=
  let b := elemBytes l.fmt
  { off := l.place pipe q (i0 * b), len := b,
    src := match l.linear q i0 with
      | none => .fill (l.fillBits b)
      | some n => if isMx l.fmt then .bf16 l.fmt n else .bytes (l.base + n * b) }

/-- The mantissa and the scale cell of block i of row q. A filled block has mantissa 0 and scale record PATTERN[15:0]. -/
def Layout.blockCells (l : Layout) (pipe : Bool) (f : FTag) (q i : Nat) : List Cell :=
  let b := blockBytes f
  let src (scale : Bool) : CellSrc :=
    match l.linear q (16 * i) with
    | none => .fill (if scale && l.fill then l.pattern % 65536 else 0)
    | some n =>
      if isMx l.fmt then .bq7 l.fmt ((rangeFrom (16 * i) 16).filterMap (l.linear q)) scale
      else if scale then .bytes (l.sbase + n / 16 * l.sstride) else .bytes (l.base + n / 16 * b)
  [{ off := l.place pipe q (i * b), len := b, src := src false }, { off := l.scalePlace pipe q (2 * i), len := 2, src := src true }]

/-- The cells of a row. -/
def Layout.rowCells (l : Layout) (pipe : Bool) (q : Nat) : List Cell :=
  match deliveredBq l.fmt with
  | some f => (rangeFrom 0 (dim l.wd 0 / 16)).flatMap (l.blockCells pipe f q)
  | none => (rangeFrom 0 (dim l.wd 0)).map (l.elemCell pipe q)

/-- The cells of a whole delivery. -/
def Layout.cells (l : Layout) (pipe : Bool) : List Cell := (rangeFrom 0 l.rows).flatMap (l.rowCells pipe)

/-! ### Microscaling sources (R66, R68) -/

/-- Bits of a microscaling element. -/
def mxBits (fmt : Nat) : Nat := if fmt % 4 < 2 then 8 else 6

/-- The address and length of the bytes that hold an element. -/
def Layout.mxPlace (l : Layout) (n : Nat) : Nat × Nat :=
  let w := mxBits l.fmt
  (l.base + n * w / 8, (n * w % 8 + w + 7) / 8)

/-- The bytes of memory that a cell reads, as (address, length). -/
def Layout.reads (l : Layout) (len : Nat) : CellSrc → List (Nat × Nat)
  | .fill _ => []
  | .bytes a => [(a, len)]
  | .bf16 _ n => [l.mxPlace n, (l.sbase + n / 32 * l.sstride, 1)]
  | .bq7 _ ns _ => ns.flatMap (fun n => [l.mxPlace n, (l.sbase + n / 32 * l.sstride, 1)])

/-- The value of an element from the bytes that hold it and its scale byte. -/
def Layout.mxNum (l : Layout) (n bytes scale : Nat) : Num :=
  mxValue l.fmt (bitsOf bytes (n * mxBits l.fmt % 8) (mxBits l.fmt)) scale

/-- The values of sixteen elements from what was read for them. -/
def Layout.mxNums (l : Layout) : List Nat → List Nat → List Num
  | n :: ns, e :: sc :: r => l.mxNum n e sc :: l.mxNums ns r
  | _, _ => []

/-- What a cell delivers from the values read for it, with the conversion flags. -/
def Layout.deliver (l : Layout) : CellSrc → List Nat → Nat × Nat
  | .fill v, _ => (v, 0)
  | .bytes _, vs => (vs.head?.getD 0, 0)
  | .bf16 _ n, vs => FFmt.bf16.deliver 0 (l.mxNum n (vs.head?.getD 0) ((vs[1]?).getD 0))
  | .bq7 _ ns scale, vs =>
    let (b, fl) := encodeBlock 7 (l.mxNums ns vs)
    (if scale then b.scale else b.field 7, fl)

/-! ### Acceptance (R246, R247) -/

/-- What an accepted copy takes from its origin. -/
def State.copyOf (s : State) (o : Origin) (kind : CpKind) (note : Bool) (src dst len : Nat) (r : BitVec 768) (lab : Label) :
    CpOp :=
  { id := s.engId, owner := s.t.tid, job := s.t.job, launch := s.t.launch, level := BitVec.ofNat 2 s.t.level, kind, note, src, dst,
    record := r, len, seg := 0, lab, flags := 0, written := 0, prio := s.t.prio, eff := s.t.prio, age := s.d.cycle,
    lastEnd := s.d.cycle, pc := o.pc, optag := o.optag, prog := o.prog, word := o.word, holds := !o.prog || note,
    suspended := false, acks := [], ended := none, seen := lab }

/-- Whether two ranges of memory overlap, in a window where addresses name the same bytes. -/
def rangesOverlap (a b n : Nat) : Bool := decide (a < b + n) && decide (b < a + n)

/-- The checks of a contiguous copy (R246): the destination's tag gives the length, then each capability under R44 for the
whole range. -/
def State.bulkCheck (s : State) (o : Origin) (kind : CpKind) (note : Bool) (a b : Val) : Except Raised CpOp :=
  let rel := kind == .release
  let (dst, src) := if rel then (b, a) else (a, b)
  let da := capCursor dst.bits
  let sa := capCursor src.bits
  let len : Int := capTop dst.bits - da
  let lab := a.label ||| b.label ||| s.t.clabel
  match checkCap a memSpaces (if rel then pLD + pRELEASE else pST), checkCap b memSpaces (if rel then pST else pLD) with
  | some c, _ => .error (raisedAt c 0 (capCursor a.bits))
  | none, some c => .error (raisedAt c 0 (capCursor b.bits))
  | none, none =>
    if len < 1 ∨ 2 ^ 32 < len then .error (raisedAt 0x05 0 da)
    else
      let n := len.toNat
      match s.engRange a memSpaces 0 (capCursor a.bits : Int) n 1 none, s.engRange b memSpaces 0 (capCursor b.bits : Int) n 1 none with
      | some r, _ => .error r
      | none, some r => .error r
      | none, none =>
        if rangesOverlap da sa n then .error (raisedAt 0x05 0 da)
        else .ok (s.copyOf o kind note sa da n 0 lab)

/-- The first failing check of the source bytes that a tensor copy reads (R247). -/
def State.cellsBad (s : State) (b : Val) (l : Layout) : List Cell → Option Raised
  | [] => none
  | c :: r =>
    match (l.reads c.len c.src).findSome? (fun p => s.engRange b memSpaces pLD (p.1 : Int) p.2 1 none) with
    | some x => some x
    | none => s.cellsBad b l r

/-- The checks of a tensor copy (R241 to R247). -/
def State.tensorCheck (s : State) (o : Origin) (dest : CpDest) (note : Bool) (a b : Val) : Except Raised CpOp :=
  let ra := capCursor a.bits
  let pipe := dest != .spad
  match s.engRange a [0, 3] (pLD + pST) (ra : Int) 96 16 (some .spad) with
  | some r => .error r
  | none =>
    if s.c.spad.poisoned ra 96 then .error (raisedAt 0x18 3 ra)
    else
      let rec_ : BitVec 768 := BitVec.ofNat 768 (s.c.spad.mem.read ra 96)
      let l := layoutOf rec_
      let rb := l.rowBytes
      if !layoutOk rec_ then .error (0x02, 2, 0)
      else if (pipe && l.il != 0) || (l.il == 1 && !(decide (64 ≤ rb) && decide (rb ≤ 4096) && rb &&& (rb - 1) == 0)) then
        .error (0x02, 2, 0)
      else if !pipe && decide (0x100000 < l.dst + l.span false) then .error (raisedAt 0x05 0 l.dst)
      else match if pipe then none else (l.cells false).findSome? (fun c =>
          s.engRange a [0, 3] (pLD + pST) ((l.dst + c.off : Nat) : Int) c.len 1 (some .spad)) with
        | some r => .error r
        | none =>
          if l.edge = 2 ∧ (rangeFrom 0 l.rows).any (fun q => (rangeFrom 0 (dim l.wd 0)).any (fun i => !l.inRange (l.coords q i))) then
            .error (raisedAt 0x05 0 l.base)
          else match checkCap b memSpaces pLD with
            | some c => .error (raisedAt c 0 (capCursor b.bits))
            | none => match s.cellsBad b l (l.cells pipe) with
              | some r => .error r
              | none => .ok (s.copyOf o (.tensor dest) note l.base l.dst (l.span pipe) rec_
                  (a.label ||| b.label ||| s.c.spad.labelOf ra 96 ||| s.t.clabel))

/-! ### The release gate (R250, R375, R377) -/

/-- The class of a release's destination: 1 host memory, 2 a peer with its device; none for a place of the partition. -/
def gateClass : EngPlace → Option (Nat × BitVec 12)
  | .mem pa _ _ => if hostBase ≤ pa then some (1, 0) else none
  | .peer dev => some (2, dev)
  | _ => none

/-- The conditions that a policy meets, in the order cover, class, expiry, measurement, budget. -/
def Policy.meets (p : Policy) (lab : Label) (cls : Nat × BitVec 12) (now : Nat) (measure : BitVec 256) (len : Nat) : List Bool :=
  [lab.sub p.labelset, p.cls.toNat == cls.1 && (cls.1 == 1 || p.peer.setWidth 12 == cls.2), decide (now < p.expiry.toNat),
   p.measure == measure, decide (len ≤ p.budget)]

/-- The length of the leading run of conditions met. -/
def leadingRun : List Bool → Nat
  | true :: r => leadingRun r + 1
  | _ => 0

/-- DETAIL of a gate refusal for a run that ends at a condition (R352). -/
def gateDetail : Nat → Nat
  | 0 => 1 | 1 => 5 | 2 => 3 | 3 => 4
  | _ => 2

/-- The longest run among the policies. -/
def bestRun (runs : List Nat) : Nat := runs.foldl max 0

/-- The admission of a release: the first policy that meets every condition gives up the length at once; an expired policy
is removed at the end of the admission, with a cause entry of kind 7. The DETAIL of a refusal is the second answer. -/
def State.gate (s : State) (lab : Label) (cls : Nat × BitVec 12) (measure : BitVec 256) (len : Nat) : Option Nat × State :=
  let now := s.d.cycle
  let ps := (s.d.partState s.part).policies
  let first := ps.find? (fun p => leadingRun (p.meets lab cls now measure len) == 5)
  let after := match first with
    | some p => ps.map (fun (q : Policy) => if q.place = p.place then { q with budget := q.budget - len } else q)
    | none => ps
  let gone := after.filter (fun p => decide (p.expiry.toNat ≤ now))
  let s := s.modPart s.part (fun q => { q with policies := after.filter (fun p => decide (now < p.expiry.toNat)) })
  let s := gone.foldl (fun (s : State) _ => { s with d := s.d.causeAdd 7 s.part.toNat 0xFF }) s
  (match first with
   | some _ => none
   | none => some (gateDetail (bestRun (ps.map (fun p => leadingRun (p.meets lab cls now measure len))))), s)

/-- What an acceptance has found. -/
inductive Verdict where
  | ok
  | wait
  | bad (r : Raised)
  | xlate (va : Nat) (f : XFail)
  deriving DecidableEq, Repr

/-- The verdict that a stop is. -/
def EngStop.verdict (a : Nat) : EngStop → Verdict
  | .wait => .wait
  | .fault c detail => .bad (raisedAt c detail a)
  | .xlate va f => .xlate va f

def CpOp.ctx (m : CpOp) : EngCtx :=
  { tid := m.owner, job := m.job, level := m.level.toNat, launch := m.launch, pc := m.pc, eng := .copy }
def CpOp.origin (m : CpOp) : Origin := { pc := m.pc, optag := m.optag, prog := m.prog, word := m.word }

/-- The first address of each page of a range. -/
def pageStarts (a n : Nat) : List Nat := (units 4096 a n).map (fun p => max a (4096 * p))

/-- The first byte of each part of a source range that one page or pin holds. -/
def State.sourceStarts (s : State) (tid : Tid) (a n : Nat) : List Nat :=
  pageStarts a n ++ ((s.pinsOf tid).flatMap (fun p => [p.lo, p.hi + 1])).filter (fun x => decide (a < x) && decide (x < a + n))

/-- The union of the labels of the pages of a source range (R250). -/
def State.sourceLabel (s : State) (x : EngCtx) : List Nat → Except (Nat × EngStop) Label × State
  | [] => (.ok 0, s)
  | a :: r =>
    match s.engRead x false a 1 with
    | (.error e, s) => (.error (a, e), s)
    | (.ok b, s) => match s.sourceLabel x r with
      | (.error e, s) => (.error e, s)
      | (.ok l, s) => (.ok (b.label ||| l), s)

/-- The classes of the pages of a destination range; none for a page of the partition. -/
def State.destClasses (s : State) (x : EngCtx) : List Nat → Except (Nat × EngStop) (List (Option (Nat × BitVec 12))) × State
  | [] => (.ok [], s)
  | a :: r =>
    match s.engPlace x .engWrite false a with
    | (.error e, s) => (.error (a, e), s)
    | (.ok p, s) => match s.destClasses x r with
      | (.error e, s) => (.error e, s)
      | (.ok l, s) => (.ok (gateClass p :: l), s)

/-- The measurement of the kernel whose text range holds a PC. -/
def State.measureAt (s : State) (pc : Word) : BitVec 256 := (s.d.kernelAt s.t.launch pc).elim 0 (·.measure)

/-- The admission of a release by the gate (R250); the answer gives the data label too. -/
def State.admission (s : State) (m : CpOp) : Verdict × Label × State :=
  match s.destClasses m.ctx (pageStarts m.dst m.len) with
  | (.error (a, e), s) => (e.verdict a, 0, s)
  | (.ok cls, s) =>
    match cls.head?.getD none with
    | none => (.bad (raisedAt 0x06 0 m.dst), 0, s)
    | some c =>
      if cls.any (fun k => k != some c) then (.bad (raisedAt 0x06 0 m.dst), 0, s)
      else match s.sourceLabel m.ctx (s.sourceStarts m.owner m.src m.len) with
        | (.error (a, e), s) => (e.verdict a, 0, s)
        | (.ok l, s) =>
          let d := l ||| m.lab
          match s.gate d c (s.measureAt m.pc) m.len with
          | (none, s) => (.ok, d, s)
          | (some detail, s) => (.bad (0x0C, detail, 0), 0, s)

/-- Whether the copy engine holds its 64 copies (R339). -/
def State.cpFull (s : State) : Bool := decide (64 ≤ s.c.cp.length)

/-- The checks of a copy form, and the gate for a release. -/
def State.copyCheck (s : State) (o : Origin) (kind : CpKind) (note : Bool) (a b : Val) : Except Raised CpOp :=
  match kind with
  | .tensor d => s.tensorCheck o d note a b
  | k => s.bulkCheck o k note a b

/-- Accepts a checked copy. -/
def State.cpAccept (s : State) (m : CpOp) : State :=
  let s := s.raiseLabel m.lab
  { s with c := { s.c with cp := s.c.cp ++ [m] }, d := { s.d with nextOp := s.d.nextOp + 1 } }

/-- Accepts a checked copy through the gate when it is a release. -/
def State.cpGate (s : State) (m : CpOp) : Verdict × State :=
  if m.kind = .release then
    match s.admission m with
    | (.ok, d, s) => (.ok, (s.dropPeers .copy).cpAccept { m with seen := d, id := s.engId })
    | (v, _, s) => (v, s)
  else (.ok, s.cpAccept m)

/-- A directly issued copy: it takes one reservation whatever its ntf (R247). -/
def State.cpDirect (s : State) (sw : Bool) (a b : SReg) (kind : CpKind) (note : Bool) : State :=
  s.issueNone Accept.none [a, b] (fun s => s.engIssue .copy (fun s =>
    if s.cpFull then s.park (.engine .copy)
    else match s.copyCheck s.direct kind note (s.rd a) (s.rd b) with
      | .error (c, detail, v) => s.raise c detail v
      | .ok m => s.reserve 1 (fun s => match s.cpGate m with
        | (.ok, s) => s.finish sw
        | (.wait, s) => ({ s with t := s.t.freeResv }).park (.engine .copy)
        | (.bad (c, detail, v), s) => ({ s with t := s.t.freeResv }).raise c detail v
        | (.xlate va f, s) => ({ s with t := s.t.freeResv }).xfail va f)))

/-- `cp.tensor` (R246, R247, R249): a pipe is part of what an anchor grants (R245). -/
def execCpTensor (sw : Bool) (a b : SReg) (dest : CpDest) (note : Bool) (s : State) : Out :=
  .next (if dest != .spad && s.t.anchor.isNone then s.raise 0x01 else s.cpDirect sw a b (.tensor dest) note)

/-- `cp.bulk` (R246, R249). -/
def execCpBulk (sw : Bool) (a b : SReg) (note : Bool) (s : State) : Out := .next (s.cpDirect sw a b .bulk note)

/-- `cp.release` (R246, R250). -/
def execCpRelease (sw : Bool) (a b : SReg) (note : Bool) (s : State) : Out := .next (s.cpDirect sw a b .release note)

/-- `cp.raw` (R103, R251): supervisor level. -/
def execCpRaw (sw : Bool) (a b : SReg) (note : Bool) (s : State) : Out :=
  .next (s.needs [a, b] 1 (fun s => s.cpDirect sw a b .rawCopy note))

/-! ### Segments (R248) -/

/-- A run of bytes of a segment: offset from the first destination byte, length, value, label, flags, poisoned ranges. -/
structure SegRun where
  off : Nat
  len : Nat
  v : Nat
  label : Label
  flags : Nat
  bad : List (Nat × Nat)
  deriving DecidableEq, Repr

/-- The part of a run inside [lo, hi). -/
def SegRun.clip (r : SegRun) (lo hi : Nat) : SegRun :=
  let a := max r.off lo
  let b := min (r.off + r.len) hi
  let sh := a - r.off
  { r with
    off := a, len := b - a, v := bitsOf r.v (8 * sh) (8 * (b - a)),
    bad := (r.bad.filter (fun p => decide (p.1 < sh + (b - a)) && decide (sh < p.1 + p.2))).map
      (fun p => (max p.1 sh - sh, min (p.1 + p.2) (sh + (b - a)) - max p.1 sh)) }

/-- Reads the sources of a cell. -/
def State.cellReads (s : State) (x : EngCtx) : List (Nat × Nat) → Except EngStop (List EngBytes) × State
  | [] => (.ok [], s)
  | (a, n) :: r =>
    match s.engRead x false a n with
    | (.error e, s) => (.error e, s)
    | (.ok b, s) => match s.cellReads x r with
      | (.error e, s) => (.error e, s)
      | (.ok l, s) => (.ok (b :: l), s)

/-- The run that a cell delivers. -/
def State.cellRun (s : State) (x : EngCtx) (l : Layout) (c : Cell) : Except EngStop SegRun × State :=
  match s.cellReads x (l.reads c.len c.src) with
  | (.error e, s) => (.error e, s)
  | (.ok bs, s) =>
    let (v, fl) := l.deliver c.src (bs.map (·.v))
    let bad := match c.src with
      | .bytes _ => (bs.head?.map (·.bad)).getD []
      | _ => if bs.any (fun b => !b.bad.isEmpty) then [(0, c.len)] else []
    (.ok { off := c.off, len := c.len, v, label := bs.foldl (fun l b => l ||| b.label) 0, flags := fl, bad }, s)

/-- The runs of cells inside [lo, hi). -/
def State.cellRuns (s : State) (x : EngCtx) (l : Layout) (lo hi : Nat) : List Cell → Except EngStop (List SegRun) × State
  | [] => (.ok [], s)
  | c :: r =>
    if c.off < hi ∧ lo < c.off + c.len then
      match s.cellRun x l c with
      | (.error e, s) => (.error e, s)
      | (.ok k, s) => match s.cellRuns x l lo hi r with
        | (.error e, s) => (.error e, s)
        | (.ok ks, s) => (.ok (k.clip lo hi :: ks), s)
    else s.cellRuns x l lo hi r

/-- Whether a copy writes a pipe. -/
def CpOp.pipe (m : CpOp) : Option CpDest :=
  match m.kind with
  | .tensor .spad => none
  | .tensor d => some d
  | _ => none

/-- The runs of the next segment of a copy. -/
def State.segRuns (s : State) (m : CpOp) : Except EngStop (List SegRun) × State :=
  let lo := 4096 * m.seg
  let hi := min (lo + 4096) m.len
  match m.kind with
  | .tensor _ => let l := layoutOf m.record; s.cellRuns m.ctx l lo hi (l.cells m.pipe.isSome)
  | k => match s.engRead m.ctx (k == .rawCopy) (m.src + lo) (hi - lo) with
    | (.error e, s) => (.error e, s)
    | (.ok b, s) => (.ok [{ off := lo, len := hi - lo, v := b.v, label := b.label, flags := 0, bad := b.bad }], s)

/-- A part of a run within one page, at its place. -/
structure Placed where
  place : EngPlace
  a : Nat
  n : Nat
  v : Nat
  bad : List (Nat × Nat)
  deriving DecidableEq, Repr

/-- The parts of a run at their places. A raw copy may write map entries through TIER 3 (R305, R316). -/
def State.placeRun (s : State) (x : EngCtx) (raw : Bool) (dst : Nat) (r : SegRun) : List Nat → Except EngStop (List Placed) × State
  | [] => (.ok [], s)
  | a :: rest =>
    match s.engPlace x .engWrite raw a with
    | (.error e, s) => (.error e, s)
    | (.ok p, s) =>
      let k := r.clip (a - dst) ((a / 4096 + 1) * 4096 - dst)
      match s.placeRun x raw dst r rest with
      | (.error e, s) => (.error e, s)
      | (.ok l, s) => (.ok ({ place := p, a, n := k.len, v := k.v, bad := k.bad } :: l), s)

/-- The parts of all runs of a segment at their places. -/
def State.placeRuns (s : State) (x : EngCtx) (raw : Bool) (dst : Nat) : List SegRun → Except EngStop (List Placed) × State
  | [] => (.ok [], s)
  | r :: rest =>
    match s.placeRun x raw dst r (pageStarts (dst + r.off) r.len) with
    | (.error e, s) => (.error e, s)
    | (.ok l, s) => match s.placeRuns x raw dst rest with
      | (.error e, s) => (.error e, s)
      | (.ok k, s) => (.ok (l ++ k), s)

/-- Whether the label rule lets a label into the page of a part; a peer checks its own (R50, R389). -/
def State.placedOk (s : State) (lab : Label) (p : Placed) : Bool :=
  match p.place with
  | .spad => s.c.spad.accepts p.a p.n lab
  | .shared => s.d.shared.accepts p.a p.n lab
  | .mem _ _ l => lab.sub l
  | .peer _ => true

/-- The write of one line of a peer, as an operation of the copy's owner; `bad` says that its data carry poison (R357). -/
def State.peerWrite (s : State) (m : CpOp) (dev : BitVec 12) (line mask data : Nat) (lab : Label) (bad : Bool) : Nat × State :=
  let (id, s) := s.newOp
  let a : Access := {
    kind := .vst 0, home := .peer dev, addr := 64 * line, va := 64 * line, n := 64, lo := 64 * line, len := 64,
    data := BitVec.ofNat 512 data, cmp := BitVec.ofNat 64 mask, vl := lab, al := 0, tag := false, keep := false, prio := m.prio,
    launch := m.launch, page := 0, comp := false, scope := .die, order := .plain, bad }
  let o : PendOp := {
    id, pc := m.pc, next := m.pc, dest := none, result := false, kind := .access a, stage := .sent, clabel := lab, peer := true,
    host := false, seq := 0, cycle := s.d.cycle }
  let (o, s) := s.peerAccess dev m.job o
  (id, { s with d := { s.d with orphans := s.d.orphans ++ [(s.c.id, m.owner, o)] } })

/-- The writes of a part of a segment to a peer, line by line; the answer names them. -/
def State.peerWrites (s : State) (m : CpOp) (dev : BitVec 12) (p : Placed) (lab : Label) : List Nat → List Nat × State
  | [] => ([], s)
  | l :: r =>
    let lo := max p.a (64 * l)
    let n := min (p.a + p.n) (64 * l + 64) - lo
    let sh := lo - 64 * l
    let bad := p.bad.any (fun r => decide (p.a + r.1 < lo + n) && decide (lo < p.a + r.1 + r.2))
    let (id, s) := s.peerWrite m dev l ((2 ^ n - 1) * 2 ^ sh) (bitsOf p.v (8 * (lo - p.a)) (8 * n) * 2 ^ (8 * sh)) lab bad
    let (ids, s) := s.peerWrites m dev p lab r
    (id :: ids, s)

/-- Writes a part at its place, with the poison it carries (R357). An engine write is visible to the core's own tasks, so its
read cache gives up the lines (R91). -/
def State.putPlaced (s : State) (m : CpOp) (lab : Label) (p : Placed) : List Nat × State :=
  let mark (b : Bank) (a : Nat) : Bank := p.bad.foldl (fun b r => (units 64 (a + r.1) r.2).foldl (fun b l => b.poisonLine (64 * l)) b) b
  match p.place with
  | .spad =>
    let s := s.spadPut p.a p.n p.v
    ([], { s with c := { s.c with spad := mark s.c.spad p.a } })
  | .shared =>
    let d := s.d.countWrites p.a p.n
    ([], { s with d := Device.rereadSlices { d with shared := mark (d.shared.put p.a p.n p.v) p.a } p.a p.n })
  | .mem pa comp _ =>
    let d := if m.kind = .rawCopy && s.d.tierOf pa == some 3 then s.d.recodeFor pa p.n else s.d
    let d := d.gwrite comp pa p.n (2 ^ p.n - 1) p.v
    let d := (units 64 pa p.n).foldl (fun d l => d.countLine (64 * l) true) d
    let s := { s with d := { d with gmem := mark d.gmem pa } }
    ([], (units 64 pa p.n).foldl (fun s l => (s.recallOthers l).clusterDrop .channel l) s)
  | .peer dev => s.peerWrites m dev p lab (units 64 p.a p.n)

/-- Writes the parts of a segment. -/
def State.putAll (s : State) (m : CpOp) (lab : Label) : List Placed → List Nat × State
  | [] => ([], s)
  | p :: r =>
    let (l, s) := s.putPlaced m lab p
    let (k, s) := s.putAll m lab r
    (l ++ k, s)

/-- Clears the poison of scratchpad lines that runs of a segment have together written whole (R357). -/
def State.wholeLines (s : State) (dst : Nat) (rs : List SegRun) : State :=
  let covered (l : Nat) : Nat := (rs.map (fun r =>
    min (dst + r.off + r.len) (64 * l + 64) - max (dst + r.off) (64 * l))).foldl (· + ·) 0
  let bad (l : Nat) : Bool := rs.any (fun r => r.bad.any (fun p => (units 64 (dst + r.off + p.1) p.2).contains l))
  { s with c := { s.c with spad := { s.c.spad with poison := s.c.spad.poison.filter (fun l => covered l < 64 || bad l) } } }

/-- Appends the bytes of a segment to a pipe of the owner, with the poison they carry (R245, R357). -/
def State.appendPipe (s : State) (m : CpOp) (d : CpDest) (lab : Label) (rs : List SegRun) : State :=
  let lo := 4096 * m.seg
  let byte (o : Nat) : Byte := match rs.find? (fun r => decide (r.off ≤ o) && decide (o < r.off + r.len)) with
    | some r => BitVec.ofNat 8 (bitsOf r.v (8 * (o - r.off)) 8)
    | none => 0
  let bad (o : Nat) : Bool := rs.any (fun r => r.bad.any (fun p => decide (r.off + p.1 ≤ o) && decide (o < r.off + p.1 + p.2)))
  let l : List PipeByte := (rangeFrom lo (min (lo + 4096) m.len - lo)).map (fun o => { val := byte o, label := lab, bad := bad o })
  s.modTask m.owner (fun t => { t with anchor := t.anchor.map (fun x =>
    match d with
    | .pipea => { x with pipeA := x.pipeA ++ l }
    | _ => { x with pipeB := x.pipeB ++ l }) })

/-- Changes a copy. -/
def State.modCp (s : State) (id : Nat) (f : CpOp → CpOp) : State :=
  { s with c := { s.c with cp := s.c.cp.map (fun o => if o.id = id then f o else o) } }

/-- Ends a copy: the completion message of a note, the engine fault message of a quiet one that failed (R248). -/
def State.cpEnds (s : State) (m : CpOp) (cause : Nat) : State :=
  let s := { s with c := { s.c with cp := s.c.cp.filter (fun o => o.id != m.id) } }
  let msg := s.engMsg 1 cause m.seen m.optag (m.written + m.flags.toNat * 2 ^ 64)
  s.opEnds .copy m.owner m.origin m.holds cause m.seen (if m.note then some msg else none)

/-- A copy has nothing more to write: it ends at once, or when its writes to peers are acknowledged. -/
def State.cpOver (s : State) (m : CpOp) (cause : Nat) : State :=
  if m.acks.isEmpty then s.cpEnds m cause else s.modCp m.id (fun _ => { m with ended := some (BitVec.ofNat 8 cause) })

/-- What a stopped segment leads to: nothing of it has been written. -/
def State.cpStop (s : State) (m : CpOp) (e : EngStop) : State :=
  match s.engStopped m.ctx (s.ownLabel m.owner m.seen) e with
  | (.later, s) => s
  | (.suspend, s) => s.modCp m.id (fun o => { o with suspended := true })
  | (.ended c, s) => (s.dropPeers .copy).cpOver m c

/-- A segment has been written. -/
def State.segDone (s : State) (m : CpOp) (lab : Label) (rs : List SegRun) (acks : List Nat) : State :=
  let now := s.d.cycle
  let fl := rs.foldl (fun f r => f ||| r.flags) m.flags.toNat
  let m' := { m with
    seg := m.seg + 1, written := m.written + (rs.map (·.len)).foldl (· + ·) 0, flags := BitVec.ofNat 5 fl, lastEnd := now, age := now,
    seen := m.seen ||| lab, acks := m.acks ++ acks }
  let s := ((s.dropPeers .copy).modCp m.id (fun _ => m')).count 11
  let s := (s.charge .engine (s.d.tenantOf m.launch) 64).soloChunk m.job (s.taskOf m.owner) 1 0
  if m.len ≤ 4096 * m'.seg then s.cpOver m' 0 else s

/-- Runs the next segment of a copy. -/
def State.segment (s : State) (m : CpOp) : State :=
  match s.segRuns m with
  | (.error e, s) => s.cpStop m e
  | (.ok rs, s) =>
    let lab := rs.foldl (fun l r => l ||| r.label) m.lab
    match m.pipe with
    | some d => (s.appendPipe m d lab rs).segDone m lab rs []
    | none => match s.placeRuns m.ctx (m.kind == .rawCopy) m.dst rs with
      | (.error e, s) => s.cpStop m e
      | (.ok ps, s) =>
        if m.kind != .release && !(ps.all (s.placedOk lab)) then (s.dropPeers .copy).cpOver m 0x0B
        else
          let (acks, s) := s.putAll m lab ps
          let s := if m.kind = .tensor .spad then s.wholeLines m.dst rs else s
          s.segDone m lab rs acks

/-! ### The choice of a copy (R339) -/

/-- Whether a pipe of the owner takes the next segment: its earlier copies have ended and there is room. -/
def State.pipeReady (s : State) (m : CpOp) : Bool :=
  match m.pipe with
  | none => true
  | some d =>
    let n := min 4096 (m.len - 4096 * m.seg)
    !(s.c.cp.any (fun o => o.owner == m.owner && o.kind == m.kind && decide (o.id < m.id))) &&
    ((s.taskOf m.owner).bind (·.anchor)).any (fun x =>
      decide ((match d with | .pipea => x.pipeA.length | _ => x.pipeB.length) + n ≤ 65536))

def State.cpEligible (s : State) (m : CpOp) : Bool :=
  !m.suspended && m.ended.isNone && !(s.c.held .engine (s.d.tenantOf m.launch)) && s.pipeReady m

/-- Whether one copy goes before another. -/
def cpBefore (a b : CpOp) : Bool :=
  if a.eff ≠ b.eff then decide (b.eff.toNat < a.eff.toNat)
  else if a.lastEnd ≠ b.lastEnd then decide (a.lastEnd < b.lastEnd) else decide (a.id < b.id)

def bestCp : List CpOp → Option CpOp
  | [] => none
  | m :: r => match bestCp r with
    | none => some m
    | some b => if cpBefore b m then some b else some m

/-- `COPY_SEGMENT` (R248, R339): a copy whose writes have all been acknowledged ends; else the chosen copy runs a segment,
from which its priority returns to that of its task. -/
def execCopySegment (core : CoreId) (s : State) : Out :=
  .next (let f := s.focus core
    match f.c.cp.find? (fun m => m.ended.isSome && m.acks.isEmpty) with
    | some m => f.cpEnds m ((m.ended.getD 0).toNat)
    | none => match bestCp (f.c.cp.filter f.cpEligible) with
      | none => s
      | some m =>
        if !(f.soloFree m.job ((f.taskOf m.owner).map (·.tidReg)) 1) then s
        else
          let f := f.giveSpad m.job
          let m := { m with eff := m.prio, age := f.d.cycle }
          (f.modCp m.id (fun _ => m)).segment m)

/-- A waiting copy after 4,096 cycles more without a segment; a held tenant's copy does not age. -/
def State.cpAged (s : State) (m : CpOp) : CpOp :=
  if s.c.held .engine (s.d.tenantOf m.launch) then m
  else if m.age + 4096 ≤ s.d.cycle then { m with age := m.age + 4096, eff := if m.eff = 7 then 7 else m.eff + 1 } else m

/-- `COPY_AGEING` (R339). -/
def execCopyAgeing (core : CoreId) (s : State) : Out :=
  .next (let f := s.focus core
    { f with c := { f.c with cp := f.c.cp.map f.cpAged } })

end Sys2Proof.Machine
end

