-- ==== Sys2Proof/Machine/Sort.lean ====
section
/-! DEFINITION. The sorting array (R252 to R267): positions and pairs, the order of keys, the phase schedule, acceptance and
the five forms. -/

namespace Sys2Proof.Machine

/-! ### Positions and pairs (R252 to R254) -/

/-- A key-payload pair with its extended origin. -/
structure Pair where
  bits : Nat
  org : Nat
  deriving DecidableEq, Repr

/-- The pairs of a tile pair by position. -/
abbrev Pairs := Vector Pair 4096

/-- The column of a position. -/
def posCol (n : Nat) : Nat := if n / 64 % 2 = 0 then n % 64 else 63 - n % 64
/-- The position in a row and a column. -/
def posAt (r c : Nat) : Nat := 64 * r + if r % 2 = 0 then c else 63 - c

/-- The pairs that the tile pair t holds, with a plane of origins. -/
def State.pairs (s : State) (t : BitVec 3) (origins : BitVec 131072) : Pairs :=
  let lo := s.tile t
  let hi := s.tile (t + 1)
  let plane := origins.toNat
  Vector.ofFn (fun (n : Fin 4096) =>
    let c := posCol n.val
    let row := ((if c < 32 then lo else hi).rows[n.val / 64]?).getD 0
    { bits := bitsOf row.toNat (64 * (c % 32)) 64, org := bitsOf plane (32 * n.val) 32 })

/-- The plane of origins of pairs. -/
def Pairs.plane (p : Pairs) : BitVec 131072 := BitVec.ofNat 131072 (p.toList.foldr (fun x n => x.org % 2 ^ 32 + n * 2 ^ 32) 0)

/-- The rows of one tile of a pair. -/
def Pairs.rows (p : Pairs) (hi : Bool) : Vector Row 64 :=
  Vector.ofFn (fun (r : Fin 64) =>
    BitVec.ofNat 2048 ((rangeFrom (if hi then 32 else 0) 32).foldr (fun c n =>
      (p[posAt r.val c]?.getD { bits := 0, org := 0 }).bits + n * 2 ^ 64) 0))

/-- Puts pairs into a tile pair, with the label and the poisoned rows of both tiles. -/
def State.putPairs (s : State) (t : BitVec 3) (p : Pairs) (label : Label × Label) (poison : BitVec 64 × BitVec 64) : State :=
  (s.setTile t { rows := p.rows false, fmt := .keys, label := label.1, poison := poison.1 }).setTile (t + 1)
    { rows := p.rows true, fmt := .keys, label := label.2, poison := poison.2 }

/-! ### The order of keys (R255) -/

/-- Floating keys as unsigned integers of w bits. -/
def floatKey (w n : Nat) : Nat := if bitsOf n (w - 1) 1 = 1 then 2 ^ w - 1 - n % 2 ^ w else n % 2 ^ w + 2 ^ (w - 1)

/-- The key of a pair. -/
def keyOf (k : KFmt) (bits : Nat) : Int :=
  match k with
  | .i32 => signed 32 bits
  | .u32 => (bits % 2 ^ 32 : Nat)
  | .f32 => (floatKey 32 bits : Nat)
  | .f16 | .bf16 => (floatKey 16 bits : Nat)
  | .i64 => signed 64 bits
  | .u64 => (bits % 2 ^ 64 : Nat)

/-- Whether pair x ranks before pair y. -/
def ranksBefore (k : KFmt) (desc : Bool) (x y : Pair) : Bool :=
  let kx := keyOf k x.bits
  let ky := keyOf k y.bits
  if kx = ky then decide (x.org < y.org) else if desc then decide (ky < kx) else decide (kx < ky)

/-! ### The phase schedule (R256, R257) -/

/-- The positions that a position is compared with in step s of a row or a column phase: the later one if it is the earlier
of the two, the earlier one if it is the later. -/
def partner (row : Bool) (s n : Nat) : Option (Nat × Bool) :=
  let i := if row then n % 64 else n / 64
  let at_ (j : Nat) : Nat := if row then n / 64 * 64 + j else posAt j (posCol n)
  if i % 2 = s % 2 then (if i < 63 then some (at_ (i + 1), true) else none)
  else if 0 < i then some (at_ (i - 1), false) else none

/-- The pairs after one step, from those before it. -/
def Pairs.exchange (p : Pairs) (k : KFmt) (desc row : Bool) (s : Nat) : Pairs :=
  let z : Pair := { bits := 0, org := 0 }
  Vector.ofFn (fun (n : Fin 4096) =>
    let x := p[n]
    match partner row s n.val with
    | none => x
    | some (m, first) =>
      let y := p[m]?.getD z
      if (if first then ranksBefore k desc y x else ranksBefore k desc x y) then y else x)

/-- Whether a step exchanged a pair. -/
def Pairs.differ (p q : Pairs) : Bool := p.toList != q.toList

/-- The sort state after a step, and whether the step ended its phase. -/
def SortState.stepped (st : SortState) (exchanged : Bool) : SortState × Bool :=
  if st.step = 63 ∨ (st.step ≠ 0 ∧ !exchanged ∧ !st.xprev) then ({ st with step := 0, xprev := false, mid := false }, true)
  else ({ st with step := st.step + 1, xprev := exchanged, mid := false }, false)

/-! ### Acceptance (R259, R260, R431) -/

/-- The positions that a HALF field selects: the first, and how many. -/
def halfRange (half : BitVec 2) : Nat × Nat := if half = 0 then (0, 4096) else if half = 1 then (0, 2048) else (2048, 2048)

/-- What an accepted operation will have made of the sort state when it ends without a fault. -/
def SortOp.projected (o : SortOp) (st : SortState) : SortState :=
  match o.kind with
  | .load _ desc _ => { st with pairT := o.tile, bound := true, desc, kfmt := o.kfmt, form := o.form, ph := 0, step := 0 }
  | .store _ _ => st
  | .run left => { st with ph := st.ph + BitVec.ofNat 4 left, step := 0 }
  | .rows | .topk _ => { st with ph := 13, step := 0 }

/-- Whether an operation changes the sort state. -/
def SortKind.changes : SortKind → Bool
  | .store _ _ => false
  | _ => true

/-- The sort operations of the task at the port. -/
def State.sortsOf (s : State) : List SortOp := s.c.srt.filter (fun o => o.owner == s.t.tid)

/-- The sort state that an acceptance sees, with the last operation that it relies on. -/
def State.futureSort (s : State) (x : Anchor) : SortState × Option Nat :=
  (s.sortsOf.foldl (fun st o => o.projected st) x.sort,
   ((s.sortsOf.filter (fun o => o.kind.changes)).getLast?).map (·.id))

/-- What an accepted sort form takes from its origin. -/
def State.sortOf (s : State) (o : Origin) (tile : BitVec 3) (note : Bool) (kfmt : KFmt) (form : KForm) (kind : SortKind)
    (addr : Nat) (lab : Label) (needs : Option Nat) : SortOp :=
  { id := s.engId, owner := s.t.tid, job := s.t.job, launch := s.t.launch, kind, tile, addr, kfmt, form, note,
    lab := lab ||| s.t.clabel, steps := 0, begun := false, pc := o.pc, optag := o.optag, prog := o.prog, word := o.word,
    holds := !o.prog || note, needs, doomed := false }

/-- Agreement of a store, run, rows or topk with the sort state. -/
def State.sortAgrees (s : State) (st : SortState) (tile : BitVec 3) (kfmt : KFmt) (form : KForm) : Bool :=
  st.bound && st.pairT == tile && st.form == form && st.kfmt == kfmt &&
  (s.futureTag s.t.tid tile).1 == .keys && (s.futureTag s.t.tid (tile + 1)).1 == .keys

/-- The address and the coverage of a scratchpad range that a form names (check 5). -/
def State.sortRange (s : State) (cap : Val) (perm n : Nat) : Except Raised Nat :=
  let a := capCursor cap.bits
  match s.engRange cap [0, 3] perm (a : Int) n 64 (some .spad) with
  | some r => .error r
  | none => .ok a

/-- Check 1, for the bytes that the control word or count names, or for the first byte when it names none. -/
def sortCap (cap : Val) (perm n : Nat) : Option Raised :=
  let a := capCursor cap.bits
  match checkCap cap [0, 3] perm, checkWin cap (a : Int) n with
  | some c, _ | none, .error c => some (raisedAt c 0 a)
  | none, .ok _ => none

/-- The load that G[a] and G[b] ask for (R261). -/
def State.loadCheck (s : State) (x : Anchor) (o : Origin) (a b : Val) (tile : BitVec 3) (note : Bool) (kfmt : KFmt)
    (form : KForm) : Except Raised SortOp :=
  let n := (b.bits.setWidth 64).toNat
  let half := BitVec.ofNat 2 (bitsOf n 21 2)
  let desc := bitsOf n 20 1 == 1
  let (st, by_) := s.futureSort x
  let t0 := (s.futureTag s.t.tid tile).1
  let t1 := (s.futureTag s.t.tid (tile + 1)).1
  let whole := half = 0 || t0 == .none || t1 == .none
  let named := bitsOf n 23 41 = 0 ∧ half ≠ 3
  match sortCap a pLD (if named then 8 * (halfRange half).2 else 1) with
  | some r => .error r
  | none =>
    if ¬ named then .error (0x02, 1, 0)
    else if !((t0 == .keys || t0 == .none) && (t1 == .keys || t1 == .none)) then .error (0x03, 0, 0)
    else if !whole && !(st.bound && st.pairT == tile && st.form == form && st.kfmt == kfmt && st.desc == desc) then
      .error (0x03, 0, 0)
    else match s.sortRange a pLD (8 * (halfRange half).2) with
      | .error r => .error r
      | .ok addr => .ok (s.sortOf o tile note kfmt form (.load half desc (BitVec.ofNat 20 n)) addr (a.label ||| b.label)
          (if whole then none else by_))

/-- The store that G[a] and G[b] ask for (R262). -/
def State.storeCheck (s : State) (x : Anchor) (o : Origin) (a b : Val) (tile : BitVec 3) (note : Bool) (kfmt : KFmt)
    (form : KForm) : Except Raised SortOp :=
  let n := (b.bits.setWidth 64).toNat
  let half := BitVec.ofNat 2 (bitsOf n 21 2)
  let orig := bitsOf n 23 1 == 1
  let (st, by_) := s.futureSort x
  let size := (if orig then 4 else 8) * (halfRange half).2
  let named := bitsOf n 24 40 = 0 ∧ bitsOf n 0 21 = 0 ∧ half ≠ 3
  match sortCap a pST (if named then size else 1) with
  | some r => .error r
  | none =>
    if ¬ named then .error (0x02, 1, 0)
    else if !(s.sortAgrees st tile kfmt form) then .error (0x03, 0, 0)
    else match s.sortRange a pST size with
      | .error r => .error r
      | .ok addr => .ok (s.sortOf o tile note kfmt form (.store half orig) addr (a.label ||| b.label) by_)

/-- The run that G[a] asks for (R263). -/
def State.runCheck (s : State) (x : Anchor) (o : Origin) (a : Val) (tile : BitVec 3) (note : Bool) (kfmt : KFmt)
    (form : KForm) : Except Raised SortOp :=
  let n := (a.bits.setWidth 64).toNat
  let (st, by_) := s.futureSort x
  let left := 13 - st.ph.toNat
  if 16 ≤ n then .error (0x02, 1, 0)
  else if !(s.sortAgrees st tile kfmt form) then .error (0x03, 0, 0)
  else if left < n then .error (0x02, 1, 0)
  else .ok (s.sortOf o tile note kfmt form (.run (if n = 0 then left else n)) 0 a.label by_)

/-- The row sort (R264). -/
def State.rowsCheck (s : State) (x : Anchor) (o : Origin) (tile : BitVec 3) (note : Bool) (kfmt : KFmt) (form : KForm) :
    Except Raised SortOp :=
  let (st, by_) := s.futureSort x
  if !(s.sortAgrees st tile kfmt form) then .error (0x03, 0, 0)
  else .ok (s.sortOf o tile note kfmt form .rows 0 0 by_)

/-- The selection that G[a] and G[b] ask for (R265). -/
def State.topkCheck (s : State) (x : Anchor) (o : Origin) (a b : Val) (tile : BitVec 3) (note : Bool) (kfmt : KFmt)
    (form : KForm) : Except Raised SortOp :=
  let k := (b.bits.setWidth 64).toNat
  let (st, by_) := s.futureSort x
  match sortCap a pST (if 4096 < k then 1 else 8 * k) with
  | some r => .error r
  | none =>
    if k = 0 ∨ 4096 < k then .error (0x02, 1, 0)
    else if !(s.sortAgrees st tile kfmt form) then .error (0x03, 0, 0)
    else match s.sortRange a pST (8 * k) with
      | .error r => .error r
      | .ok addr => .ok (s.sortOf o tile note kfmt form (.topk k) addr (a.label ||| b.label) by_)

/-- Accepts a checked operation; acceptance raises the control label. -/
def State.sortAccept (s : State) (m : SortOp) : State :=
  let s := s.raiseLabel m.lab
  { s with c := { s.c with srt := s.c.srt ++ [m] }, d := { s.d with nextOp := s.d.nextOp + 1 } }

/-- Check 3 of R102 and the grant: t is even and both tiles are the task's. -/
def Anchor.holdsPair (x : Anchor) (tile : BitVec 3) : Bool := !tile.getLsbD 0 && x.holds tile && x.holds (tile + 1)

/-- A directly issued sort form: it takes one reservation. -/
def State.sortDirect (s : State) (sw : Bool) (srcs : List SReg) (tile : BitVec 3)
    (check : State → Anchor → Except Raised SortOp) : State :=
  s.issueNone Accept.none srcs (fun s => s.withAnchor (fun x =>
    if !(x.holdsPair tile) then s.raise 0x01
    else s.engIssue .sort (fun s => match check s x with
      | .error (c, detail, v) => s.raise c detail v
      | .ok m => s.reserve 1 (fun s => (s.sortAccept m).finish sw))))

/-- `sort.load` (R260, R261). -/
def execSortLoad (sw : Bool) (a b : SReg) (tile : BitVec 3) (note : Bool) (kfmt : KFmt) (form : KForm) (s : State) : Out :=
  .next (s.sortDirect sw [a, b] tile (fun s x => s.loadCheck x s.direct (s.rd a) (s.rd b) tile note kfmt form))

/-- `sort.store` (R260, R262). -/
def execSortStore (sw : Bool) (a b : SReg) (tile : BitVec 3) (note : Bool) (kfmt : KFmt) (form : KForm) (s : State) : Out :=
  .next (s.sortDirect sw [a, b] tile (fun s x => s.storeCheck x s.direct (s.rd a) (s.rd b) tile note kfmt form))

/-- `sort.run` (R260, R263). -/
def execSortRun (sw : Bool) (a : SReg) (tile : BitVec 3) (note : Bool) (kfmt : KFmt) (form : KForm) (s : State) : Out :=
  .next (s.sortDirect sw [a] tile (fun s x => s.runCheck x s.direct (s.rd a) tile note kfmt form))

/-- `sort.rows` (R260, R264). -/
def execSortRows (sw : Bool) (tile : BitVec 3) (note : Bool) (kfmt : KFmt) (form : KForm) (s : State) : Out :=
  .next (s.sortDirect sw [] tile (fun s x => s.rowsCheck x s.direct tile note kfmt form))

/-- `sort.topk` (R260, R265). -/
def execSortTopk (sw : Bool) (a b : SReg) (tile : BitVec 3) (note : Bool) (kfmt : KFmt) (form : KForm) (s : State) : Out :=
  .next (s.sortDirect sw [a, b] tile (fun s x => s.topkCheck x s.direct (s.rd a) (s.rd b) tile note kfmt form))

/-! ### The ends of operations (R260, R266) -/

def SortOp.origin (m : SortOp) : Origin := { pc := m.pc, optag := m.optag, prog := m.prog, word := m.word }

/-- The sort state of the owner of an operation. -/
def State.sortState (s : State) (m : SortOp) : SortState := (((s.taskOf m.owner).bind (·.anchor)).map (·.sort)).getD SortState.zero

/-- Puts the sort state of the owner of an operation. -/
def State.setSort (s : State) (m : SortOp) (st : SortState) : State :=
  s.modTask m.owner (fun t => { t with anchor := t.anchor.map (fun x => { x with sort := st }) })

/-- The label of what an operation has read: that of both tiles and its own. -/
def State.sortLabel (s : State) (m : SortOp) : Label := (s.tile m.tile).label ||| (s.tile (m.tile + 1)).label ||| m.lab

/-- Array cycles of the transfer of an operation (R337). -/
def SortKind.transfer : SortKind → Nat
  | .load half _ _ => 8 * (halfRange half).2 / 256
  | .store half orig => (if orig then 4 else 8) * (halfRange half).2 / 256
  | .topk k => (k + 31) / 32
  | .run _ | .rows => 0

/-- Ends an operation with a cause, or without one; its tenant is charged for its array cycles (R337, R340). -/
def State.sortEnds (s : State) (m : SortOp) (cause : Nat) : State :=
  let s := { s with c := { s.c with srt := s.c.srt.filter (fun o => o.id != m.id) } }
  let s := if cause = 0 then s else s.doom m.id
  let lab := s.sortLabel m
  let msg := s.engMsg 3 cause lab m.optag ((s.sortState m).ph.toNat + m.steps * 2 ^ 32)
  let s := s.charge .engine (s.d.tenantOf m.launch) (m.steps + if cause = 0 then m.kind.transfer else 0)
  let s := s.opEnds .sort m.owner m.origin m.holds cause lab (if m.note then some msg else none)
  s.soloChunk m.job (s.taskOf m.owner) 3 0

/-- Both tiles take the label of an operation's result (R263, R264). -/
def State.joinSort (s : State) (m : SortOp) : State :=
  let l := s.sortLabel m
  (s.setTile m.tile { s.tile m.tile with label := l }).setTile (m.tile + 1) { s.tile (m.tile + 1) with label := l }

/-- Whether the operation meets a poisoned row (R357). -/
def State.sortPoisoned (s : State) (m : SortOp) : Bool := (s.tile m.tile).poison ≠ 0 || (s.tile (m.tile + 1)).poison ≠ 0

/-! ### Loads and stores (R261, R262) -/

/-- The rows of a tile, of which `hi` says the second, that hold positions of poisoned lines of a source. -/
def poisonedRows (hi : Bool) (n0 : Nat) (bad : List (Nat × Nat)) : BitVec 64 :=
  bad.foldl (fun b r => (units 8 r.1 r.2).foldl (fun b i =>
    if (decide (32 ≤ posCol (n0 + i))) == hi then b ||| BitVec.ofNat 64 (2 ^ ((n0 + i) / 64)) else b) b) 0

/-- The effect of a load. -/
def State.sortLoads (s : State) (m : SortOp) (half : BitVec 2) (desc : Bool) (sb : BitVec 20) : State :=
  let (n0, count) := halfRange half
  let b := s.c.spad
  let data := b.mem.read m.addr (8 * count)
  let lab := m.lab ||| b.labelOf m.addr (8 * count)
  let lo := s.tile m.tile
  let hi := s.tile (m.tile + 1)
  let whole := half = 0 || lo.fmt == .none || hi.fmt == .none
  let st := s.sortState m
  let old := s.pairs m.tile st.origins
  let org (n : Nat) : Nat := sb.toNat * 4096 + n
  let p : Pairs := Vector.ofFn (fun (n : Fin 4096) =>
    if n0 ≤ n.val ∧ n.val < n0 + count then { bits := bitsOf data (64 * (n.val - n0)) 64, org := org n.val }
    else if whole then { bits := 0, org := org n.val } else old[n])
  let bad := badRanges m.addr (8 * count) b.poison.contains
  let poison := if whole then ((0 : BitVec 64), (0 : BitVec 64)) else (lo.poison, hi.poison)
  let st' := if whole then { st with pairT := m.tile, bound := true, desc, kfmt := m.kfmt, form := m.form } else st
  let s := s.putPairs m.tile p (if whole then (lab, lab) else (lo.label ||| lab, hi.label ||| lab))
    (poison.1 ||| poisonedRows false n0 bad, poison.2 ||| poisonedRows true n0 bad)
  (s.setSort m { st' with ph := 0, step := 0, xprev := false, mid := false, origins := p.plane }).sortEnds m 0

/-- The write of a store or a selection: positions n0 to n0 + count − 1, as pairs or as origins. -/
def State.sortWrites (s : State) (m : SortOp) (n0 count : Nat) (orig : Bool) : State :=
  let w := if orig then 4 else 8
  let lab := s.sortLabel m
  if !(s.c.spad.accepts m.addr (w * count) lab) then s.sortEnds m 0x0B
  else
    let p := s.pairs m.tile (s.sortState m).origins
    let v := ((p.toList.drop n0).take count).foldr (fun x n => (if orig then x.org else x.bits) % 2 ^ (8 * w) + n * 2 ^ (8 * w)) 0
    (s.spadPut m.addr (w * count) v).sortEnds m 0

/-! ### Steps (R256, R257, R263 to R265) -/

/-- One array step of an operation that executes phases, with what it becomes once a phase ends. -/
def State.sortStep (s : State) (m : SortOp) : State :=
  let st := s.sortState m
  let row := m.kind == .rows || st.ph.toNat % 2 == 0
  let p := s.pairs m.tile st.origins
  let q := p.exchange st.kfmt st.desc row st.step.toNat
  let (st', ended) := st.stepped (p.differ q)
  let lo := s.tile m.tile
  let hi := s.tile (m.tile + 1)
  let s := (s.putPairs m.tile q (lo.label, hi.label) (lo.poison, hi.poison)).count 12
  let m := { m with steps := m.steps + 1 }
  let keep (s : State) (m : SortOp) : State := { s with c := { s.c with srt := s.c.srt.map (fun (o : SortOp) => if o.id = m.id then m else o) } }
  let st' := { st' with origins := q.plane }
  if !ended then keep (s.setSort m st') m
  else match m.kind with
    | .rows => (((s.setSort m { st' with ph := 13 })).joinSort m).sortEnds m 0
    | .run left =>
      let m := { m with kind := .run (left - 1) }
      let s := s.setSort m { st' with ph := st'.ph + 1 }
      if left ≤ 1 then (s.joinSort m).sortEnds m 0 else keep s m
    | _ => keep (s.setSort m { st' with ph := st'.ph + 1 }) m

/-- Runs an operation that has begun; it is stopped no longer (R254). -/
def State.sortRuns (s : State) (m : SortOp) : State :=
  let st := { s.sortState m with mid := false }
  let s := s.setSort m st
  match m.kind with
  | .load half desc sb => s.sortLoads m half desc sb
  | .store half orig =>
    if s.sortPoisoned m then s.sortEnds m 0x18 else s.sortWrites m (halfRange half).1 (halfRange half).2 orig
  | .run left =>
    if s.sortPoisoned m then s.sortEnds m 0x18
    else if left = 0 then (s.joinSort m).sortEnds m 0 else s.sortStep m
  | .rows => if s.sortPoisoned m then s.sortEnds m 0x18 else s.sortStep m
  | .topk k =>
    if s.sortPoisoned m then s.sortEnds m 0x18
    else if st.ph = 13 then (s.joinSort m).sortWrites m 0 k false else s.sortStep m

/-- An operation begins: one that relied on an operation that failed ends, and a row sort starts its phase at step 0. -/
def State.sortBegin (s : State) (m : SortOp) : State :=
  if m.doomed then s.sortEnds m 0x03
  else
    let m := { m with begun := true }
    let s := { s with c := { s.c with srt := s.c.srt.map (fun (o : SortOp) => if o.id = m.id then m else o) } }
    let s := if m.kind = .rows then s.setSort m { s.sortState m with step := 0, xprev := false } else s
    s.sortRuns m

/-- `SORT_STEP` (R256, R260, R340): one array step of the first accepted operation, or the whole of a load or a write; an
operation of a held tenant runs to completion. -/
def execSortStep (core : CoreId) (s : State) : Out :=
  .next (let f := s.focus core
    match f.c.srt.head? with
    | none => s
    | some m =>
      if !(f.soloFree m.job ((f.taskOf m.owner).map (·.tidReg)) 3) then s
      else
        let f := f.giveSpad m.job
        if m.begun then f.sortRuns m else f.sortBegin m)

end Sys2Proof.Machine
end

