-- ==== Sys2Proof/Machine/EngineWords.lean ====
section
/-! DEFINITION. The words of forked engine programs (R90, R189): each is accepted once the one before it has ended. -/

namespace Sys2Proof.Machine

/-- What a word of a program asks for. -/
inductive WordForm where
  | mma (a : SReg) (tile : BitVec 3) (zfirst : Bool)
  | zero (a : SReg) (tile : BitVec 3)
  | copy (kind : CpKind) (a b : SReg) (note : Bool)
  | load (a b : SReg) (tile : BitVec 3) (note : Bool) (kfmt : KFmt) (form : KForm)
  | store (a b : SReg) (tile : BitVec 3) (note : Bool) (kfmt : KFmt) (form : KForm)
  | run (a : SReg) (tile : BitVec 3) (note : Bool) (kfmt : KFmt) (form : KForm)
  | rows (tile : BitVec 3) (note : Bool) (kfmt : KFmt) (form : KForm)
  | topk (a b : SReg) (tile : BitVec 3) (note : Bool) (kfmt : KFmt) (form : KForm)
  deriving DecidableEq, Repr

/-- The form of a word of an engine's major with S = 0; any other word ends the program. -/
def wordForm (e : Engine) (w : IWord) : Option WordForm :=
  match e, decodeWord w.toNat with
  | .matrix, .ok (.mxMma false a t) => some (.mma a t false)
  | .matrix, .ok (.mxMmaz false a t) => some (.mma a t true)
  | .matrix, .ok (.mxZero false a t) => some (.zero a t)
  | .copy, .ok (.cpTensor false a b d n) => some (.copy (.tensor d) a b n)
  | .copy, .ok (.cpBulk false a b n) => some (.copy .bulk a b n)
  | .copy, .ok (.cpRelease false a b n) => some (.copy .release a b n)
  | .copy, .ok (.cpRaw false a b n) => some (.copy .rawCopy a b n)
  | .sort, .ok (.sortLoad false a b t n k f) => some (.load a b t n k f)
  | .sort, .ok (.sortStore false a b t n k f) => some (.store a b t n k f)
  | .sort, .ok (.sortRun false a t n k f) => some (.run a t n k f)
  | .sort, .ok (.sortRows false t n k f) => some (.rows t n k f)
  | .sort, .ok (.sortTopk false a b t n k f) => some (.topk a b t n k f)
  | _, _ => none

/-- The registers that a form reads. -/
def WordForm.srcs : WordForm → List SReg
  | .mma a _ _ | .zero a _ | .run a _ _ _ _ => [a]
  | .copy _ a b _ | .load a b _ _ _ _ | .store a b _ _ _ _ | .topk a b _ _ _ _ => [a, b]
  | .rows _ _ _ _ => []

/-- Whether a form takes a further reservation (R189). -/
def WordForm.note : WordForm → Bool
  | .mma _ _ _ | .zero _ _ => false
  | .copy _ _ _ n | .load _ _ _ n _ _ | .store _ _ _ n _ _ | .run _ _ n _ _ | .rows _ n _ _ | .topk _ _ _ n _ _ => n

/-- Whether the anchor holds the tiles that a form names. -/
def Anchor.holdsFor (x : Anchor) : WordForm → Bool
  | .mma _ t _ | .zero _ t => x.holds t
  | .copy _ _ _ _ => true
  | .load _ _ t _ _ _ | .store _ _ t _ _ _ | .run _ t _ _ _ | .rows t _ _ _ | .topk _ _ t _ _ _ => x.holdsPair t

/-- A fault at the acceptance of the next word ends the program (R190). -/
def State.wordFails (s : State) (e : Engine) (p : Prog) (cause : Nat) : State :=
  let s := { s with t := s.t.modProg e Prog.fail }
  s.notify s.c.id s.t.tid (s.faultMsg e cause s.t.clabel p.optag p.next)

/-- The next word has started. -/
def State.wordStarts (s : State) (e : Engine) (resv : Nat) : State :=
  let t := s.t.modProg e (fun p => { p with next := p.next + 1, running := true })
  { s with t := { t with resv := t.resv + resv } }

/-- Accepts a copy word, through the gate when it is a release. -/
def State.copyWord (s : State) (p : Prog) (m : CpOp) (resv : Nat) : State :=
  match s.cpGate m with
  | (.ok, s) => s.wordStarts .copy resv
  | (.wait, s) => s
  | (.bad (c, _, _), s) => s.wordFails .copy p c
  | (.xlate va f, s) =>
    match s.engStopped m.ctx s.t.clabel (.xlate va f) with
    | (.later, s) => s
    | (.suspend, s) => { s with t := s.t.modProg .copy (fun p => { p with suspended := true }) }
    | (.ended c, s) => s.wordFails .copy p c

/-- Accepts a checked matrix or sort word. -/
def State.wordResult {α : Type} (s : State) (e : Engine) (p : Prog) (resv : Nat) (accept : State → α → State) :
    Except Raised α → State
  | .error (c, _, _) => s.wordFails e p c
  | .ok m => (accept s m).wordStarts e resv

/-- Accepts a word whose engine has room. -/
def State.acceptWord (s : State) (x : Anchor) (e : Engine) (p : Prog) (f : WordForm) : State :=
  let o : Origin := { pc := p.forkPc, optag := p.optag, prog := true, word := p.next }
  let rd := p.rd s.t
  let resv := if f.note then 1 else 0
  match f with
  | .mma a t z => s.wordResult e p resv State.mxAccept (s.mxCheck (rd a) o t z)
  | .zero a t => s.wordResult e p resv State.mxAccept (s.zeroCheck (rd a) o t)
  | .copy kind a b n => match s.copyCheck o kind n (rd a) (rd b) with
    | .error (c, _, _) => s.wordFails e p c
    | .ok m => s.copyWord p m resv
  | .load a b t n k fm => s.wordResult e p resv State.sortAccept (s.loadCheck x o (rd a) (rd b) t n k fm)
  | .store a b t n k fm => s.wordResult e p resv State.sortAccept (s.storeCheck x o (rd a) (rd b) t n k fm)
  | .run a t n k fm => s.wordResult e p resv State.sortAccept (s.runCheck x o (rd a) t n k fm)
  | .rows t n k fm => s.wordResult e p resv State.sortAccept (s.rowsCheck x o t n k fm)
  | .topk a b t n k fm => s.wordResult e p resv State.sortAccept (s.topkCheck x o (rd a) (rd b) t n k fm)

/-- Whether the queue of an engine is full. -/
def State.engFull (s : State) : Engine → Bool
  | .matrix => s.mxFull
  | .copy => s.cpFull
  | .sort => false

/-- Starts the next word of a program. -/
def State.startWord (s : State) (x : Anchor) (e : Engine) (p : Prog) : State :=
  match (p.words[p.next]?).bind (wordForm e) with
  | none => s.wordFails e p 0x01
  | some f =>
    if !(portsOf f.srcs).isEmpty || !(x.holdsFor f) then s.wordFails e p 0x01
    else if (match f with | .copy .rawCopy _ _ _ => s.t.level == 0 | _ => false) then s.wordFails e p 0x16
    else if s.engFull e || !(s.roomForResv (if f.note then 1 else 0)) then s
    else s.acceptWord x e p f

/-- Whether a program has a word that may start. -/
def Prog.due (p : Prog) : Bool := !p.running && !p.ended && !p.suspended && decide (p.next < p.words.length)

/-- `ENGINE_WORD` (R90, R189). -/
def execEngineWord (core : CoreId) (tid : Tid) (eng : Engine) (s : State) : Out :=
  .next (match s.focusTask core tid with
    | none => s
    | some f => match f.t.anchor with
      | none => s
      | some x => match x.prog eng with
        | none => s
        | some p => if p.due then (f.giveSpad f.t.job).startWord x eng p else s)

end Sys2Proof.Machine
end

