-- ==== Sys2Proof/Machine/Dispatch.lean ====
section
/-! DEFINITION. One arm per row of the table of operations and events: each calls the row's meaning. -/

namespace Sys2Proof.Machine

def exec (i : Instr) (s : State) : Host.Outcome State Fault Refusal :=
  match i with
  | .ialuAdd sw d a b => Sys2Proof.Machine.execIaluAdd sw d a b s
  | .ialuSub sw d a b => Sys2Proof.Machine.execIaluSub sw d a b s
  | .ialuAnd sw d a b => Sys2Proof.Machine.execIaluAnd sw d a b s
  | .ialuOr sw d a b => Sys2Proof.Machine.execIaluOr sw d a b s
  | .ialuXor sw d a b => Sys2Proof.Machine.execIaluXor sw d a b s
  | .ialuAndn sw d a b => Sys2Proof.Machine.execIaluAndn sw d a b s
  | .ialuSll sw d a b => Sys2Proof.Machine.execIaluSll sw d a b s
  | .ialuSrl sw d a b => Sys2Proof.Machine.execIaluSrl sw d a b s
  | .ialuSra sw d a b => Sys2Proof.Machine.execIaluSra sw d a b s
  | .ialuSlt sw d a b => Sys2Proof.Machine.execIaluSlt sw d a b s
  | .ialuSltu sw d a b => Sys2Proof.Machine.execIaluSltu sw d a b s
  | .ialuMin sw d a b => Sys2Proof.Machine.execIaluMin sw d a b s
  | .ialuMax sw d a b => Sys2Proof.Machine.execIaluMax sw d a b s
  | .ialuMinu sw d a b => Sys2Proof.Machine.execIaluMinu sw d a b s
  | .ialuMaxu sw d a b => Sys2Proof.Machine.execIaluMaxu sw d a b s
  | .ialuiAdd sw d a imm => Sys2Proof.Machine.execIaluiAdd sw d a imm s
  | .ialuiAnd sw d a imm => Sys2Proof.Machine.execIaluiAnd sw d a imm s
  | .ialuiOr sw d a imm => Sys2Proof.Machine.execIaluiOr sw d a imm s
  | .ialuiXor sw d a imm => Sys2Proof.Machine.execIaluiXor sw d a imm s
  | .ialuiSll sw d a sh => Sys2Proof.Machine.execIaluiSll sw d a sh s
  | .ialuiSrl sw d a sh => Sys2Proof.Machine.execIaluiSrl sw d a sh s
  | .ialuiSra sw d a sh => Sys2Proof.Machine.execIaluiSra sw d a sh s
  | .ialuiSlt sw d a imm => Sys2Proof.Machine.execIaluiSlt sw d a imm s
  | .lui sw d imm => Sys2Proof.Machine.execLui sw d imm s
  | .ibitClz sw d a => Sys2Proof.Machine.execIbitClz sw d a s
  | .ibitCtz sw d a => Sys2Proof.Machine.execIbitCtz sw d a s
  | .ibitPopc sw d a => Sys2Proof.Machine.execIbitPopc sw d a s
  | .ibitBrev sw d a => Sys2Proof.Machine.execIbitBrev sw d a s
  | .ibitBswap sw d a => Sys2Proof.Machine.execIbitBswap sw d a s
  | .ibitSext sw d a b => Sys2Proof.Machine.execIbitSext sw d a b s
  | .ibitZext sw d a b => Sys2Proof.Machine.execIbitZext sw d a b s
  | .ibitBext sw d a b => Sys2Proof.Machine.execIbitBext sw d a b s
  | .ibitBins sw d a b => Sys2Proof.Machine.execIbitBins sw d a b s
  | .ibitRol sw d a b => Sys2Proof.Machine.execIbitRol sw d a b s
  | .ibitRor sw d a b => Sys2Proof.Machine.execIbitRor sw d a b s
  | .imulMul sw d a b => Sys2Proof.Machine.execImulMul sw d a b s
  | .imulMulh sw d a b => Sys2Proof.Machine.execImulMulh sw d a b s
  | .imulMulhu sw d a b => Sys2Proof.Machine.execImulMulhu sw d a b s
  | .imulMulhsu sw d a b => Sys2Proof.Machine.execImulMulhsu sw d a b s
  | .imulDiv sw d a b => Sys2Proof.Machine.execImulDiv sw d a b s
  | .imulDivu sw d a b => Sys2Proof.Machine.execImulDivu sw d a b s
  | .imulRem sw d a b => Sys2Proof.Machine.execImulRem sw d a b s
  | .imulRemu sw d a b => Sys2Proof.Machine.execImulRemu sw d a b s
  | .capGetbase sw d a => Sys2Proof.Machine.execCapGetbase sw d a s
  | .capGettop sw d a => Sys2Proof.Machine.execCapGettop sw d a s
  | .capGetlen sw d a => Sys2Proof.Machine.execCapGetlen sw d a s
  | .capGetperm sw d a => Sys2Proof.Machine.execCapGetperm sw d a s
  | .capGetspace sw d a => Sys2Proof.Machine.execCapGetspace sw d a s
  | .capGettag sw d a => Sys2Proof.Machine.execCapGettag sw d a s
  | .capSetcur sw d a b => Sys2Proof.Machine.execCapSetcur sw d a b s
  | .capAddcur sw d a b => Sys2Proof.Machine.execCapAddcur sw d a b s
  | .capSetbnd sw d a b => Sys2Proof.Machine.execCapSetbnd sw d a b s
  | .capSetbndx sw d a b => Sys2Proof.Machine.execCapSetbndx sw d a b s
  | .capAndperm sw d a b => Sys2Proof.Machine.execCapAndperm sw d a b s
  | .capSetspace sw d a b => Sys2Proof.Machine.execCapSetspace sw d a b s
  | .capiAddcur sw d a imm => Sys2Proof.Machine.execCapiAddcur sw d a imm s
  | .capiSetbnd sw d a imm => Sys2Proof.Machine.execCapiSetbnd sw d a imm s
  | .capiSetbndx sw d a imm => Sys2Proof.Machine.execCapiSetbndx sw d a imm s
  | .capiAndperm sw d a imm => Sys2Proof.Machine.execCapiAndperm sw d a imm s
  | .brEq sw a b off => Sys2Proof.Machine.execBrEq sw a b off s
  | .brNe sw a b off => Sys2Proof.Machine.execBrNe sw a b off s
  | .brLt sw a b off => Sys2Proof.Machine.execBrLt sw a b off s
  | .brGe sw a b off => Sys2Proof.Machine.execBrGe sw a b off s
  | .brLtu sw a b off => Sys2Proof.Machine.execBrLtu sw a b off s
  | .brGeu sw a b off => Sys2Proof.Machine.execBrGeu sw a b off s
  | .brBset sw a b off => Sys2Proof.Machine.execBrBset sw a b off s
  | .brBclr sw a b off => Sys2Proof.Machine.execBrBclr sw a b off s
  | .jmp sw off => Sys2Proof.Machine.execJmp sw off s
  | .call sw off => Sys2Proof.Machine.execCall sw off s
  | .jrGo sw a => Sys2Proof.Machine.execJrGo sw a s
  | .jrLink sw d a => Sys2Proof.Machine.execJrLink sw d a s
  | .fpuAdd sw d a b fmt => Sys2Proof.Machine.execFpuAdd sw d a b fmt s
  | .fpuSub sw d a b fmt => Sys2Proof.Machine.execFpuSub sw d a b fmt s
  | .fpuMul sw d a b fmt => Sys2Proof.Machine.execFpuMul sw d a b fmt s
  | .fpuDiv sw d a b fmt => Sys2Proof.Machine.execFpuDiv sw d a b fmt s
  | .fpuSqrt sw d a fmt => Sys2Proof.Machine.execFpuSqrt sw d a fmt s
  | .fpuFma sw d a b fmt => Sys2Proof.Machine.execFpuFma sw d a b fmt s
  | .fpuMin sw d a b fmt => Sys2Proof.Machine.execFpuMin sw d a b fmt s
  | .fpuMax sw d a b fmt => Sys2Proof.Machine.execFpuMax sw d a b fmt s
  | .fpuNeg sw d a fmt => Sys2Proof.Machine.execFpuNeg sw d a fmt s
  | .fpuAbs sw d a fmt => Sys2Proof.Machine.execFpuAbs sw d a fmt s
  | .fpuSgnj sw d a b fmt => Sys2Proof.Machine.execFpuSgnj sw d a b fmt s
  | .fpuCmpeq sw d a b fmt => Sys2Proof.Machine.execFpuCmpeq sw d a b fmt s
  | .fpuCmplt sw d a b fmt => Sys2Proof.Machine.execFpuCmplt sw d a b fmt s
  | .fpuCmple sw d a b fmt => Sys2Proof.Machine.execFpuCmple sw d a b fmt s
  | .fpuClass sw d a fmt => Sys2Proof.Machine.execFpuClass sw d a fmt s
  | .fcvt sw d a dst src => Sys2Proof.Machine.execFcvt sw d a dst src s
  | .lblGet sw d a => Sys2Proof.Machine.execLblGet sw d a s
  | .lblCtl sw d => Sys2Proof.Machine.execLblCtl sw d s
  | .lblRaise sw d a b => Sys2Proof.Machine.execLblRaise sw d a b s
  | .lblSub sw d a b => Sys2Proof.Machine.execLblSub sw d a b s
  | .ld sw d a scope order size off => Sys2Proof.Machine.execLd sw d a scope order size off s
  | .st sw d a scope order size off => Sys2Proof.Machine.execSt sw d a scope order size off s
  | .atomSwap sw d a b scope order sz => Sys2Proof.Machine.execAtomSwap sw d a b scope order sz s
  | .atomCas sw d a b scope order sz => Sys2Proof.Machine.execAtomCas sw d a b scope order sz s
  | .atomAdd sw d a b scope order sz => Sys2Proof.Machine.execAtomAdd sw d a b scope order sz s
  | .atomAnd sw d a b scope order sz => Sys2Proof.Machine.execAtomAnd sw d a b scope order sz s
  | .atomOr sw d a b scope order sz => Sys2Proof.Machine.execAtomOr sw d a b scope order sz s
  | .atomMin sw d a b scope order sz => Sys2Proof.Machine.execAtomMin sw d a b scope order sz s
  | .atomMax sw d a b scope order sz => Sys2Proof.Machine.execAtomMax sw d a b scope order sz s
  | .atomDecf sw d a b scope order sz => Sys2Proof.Machine.execAtomDecf sw d a b scope order sz s
  | .fatomAdd sw d a b scope order fmt => Sys2Proof.Machine.execFatomAdd sw d a b scope order fmt s
  | .fatomMin sw d a b scope order fmt => Sys2Proof.Machine.execFatomMin sw d a b scope order fmt s
  | .fatomMax sw d a b scope order fmt => Sys2Proof.Machine.execFatomMax sw d a b scope order fmt s
  | .fenceSc sw scope => Sys2Proof.Machine.execFenceSc sw scope s
  | .fenceAcq sw scope => Sys2Proof.Machine.execFenceAcq sw scope s
  | .fenceRel sw scope => Sys2Proof.Machine.execFenceRel sw scope s
  | .fenceAcqrel sw scope => Sys2Proof.Machine.execFenceAcqrel sw scope s
  | .barJoin sw d a => Sys2Proof.Machine.execBarJoin sw d a s
  | .barLeave sw a => Sys2Proof.Machine.execBarLeave sw a s
  | .barArrive sw d a scope => Sys2Proof.Machine.execBarArrive sw d a scope s
  | .barWait sw a b scope => Sys2Proof.Machine.execBarWait sw a b scope s
  | .barSync sw d a scope => Sys2Proof.Machine.execBarSync sw d a scope s
  | .barMiss sw d a => Sys2Proof.Machine.execBarMiss sw d a s
  | .barWregion sw a => Sys2Proof.Machine.execBarWregion sw a s
  | .barWarrive sw d scope => Sys2Proof.Machine.execBarWarrive sw d scope s
  | .barWwait sw d a scope => Sys2Proof.Machine.execBarWwait sw d a scope s
  | .barWfcw sw d a b scope => Sys2Proof.Machine.execBarWfcw sw d a b scope s
  | .barWfcd sw d a b scope => Sys2Proof.Machine.execBarWfcd sw d a b scope s
  | .inboxPop sw d a => Sys2Proof.Machine.execInboxPop sw d a s
  | .inboxPeek sw d => Sys2Proof.Machine.execInboxPeek sw d s
  | .inboxCount sw d => Sys2Proof.Machine.execInboxCount sw d s
  | .taskSpawn d a => Sys2Proof.Machine.execTaskSpawn d a s
  | .taskSpawnto d a b => Sys2Proof.Machine.execTaskSpawnto d a b s
  | .taskJoin a => Sys2Proof.Machine.execTaskJoin a s
  | .taskAnchor a => Sys2Proof.Machine.execTaskAnchor a s
  | .taskEnd a => Sys2Proof.Machine.execTaskEnd a s
  | .queuePush sw a b => Sys2Proof.Machine.execQueuePush sw a b s
  | .queuePop sw d a b => Sys2Proof.Machine.execQueuePop sw d a b s
  | .queueTail sw a => Sys2Proof.Machine.execQueueTail sw a s
  | .pipeSend sw d a b => Sys2Proof.Machine.execPipeSend sw d a b s
  | .pipeRecv sw d a b => Sys2Proof.Machine.execPipeRecv sw d a b s
  | .pipeClose sw a => Sys2Proof.Machine.execPipeClose sw a s
  | .evPost sw d a b => Sys2Proof.Machine.execEvPost sw d a b s
  | .evPostw sw d a b => Sys2Proof.Machine.execEvPostw sw d a b s
  | .evTake sw d a b => Sys2Proof.Machine.execEvTake sw d a b s
  | .evDone sw a b => Sys2Proof.Machine.execEvDone sw a b s
  | .evThresh sw a b => Sys2Proof.Machine.execEvThresh sw a b s
  | .evFlush sw a => Sys2Proof.Machine.execEvFlush sw a s
  | .evStat sw d a b => Sys2Proof.Machine.execEvStat sw d a b s
  | .engFork sw a b mask => Sys2Proof.Machine.execEngFork sw a b mask s
  | .engRdv sw mask => Sys2Proof.Machine.execEngRdv sw mask s
  | .vfpAdd sw d a b fmt => Sys2Proof.Machine.execVfpAdd sw d a b fmt s
  | .vfpSub sw d a b fmt => Sys2Proof.Machine.execVfpSub sw d a b fmt s
  | .vfpMul sw d a b fmt => Sys2Proof.Machine.execVfpMul sw d a b fmt s
  | .vfpFma sw d a b c fmt => Sys2Proof.Machine.execVfpFma sw d a b c fmt s
  | .vfpMin sw d a b fmt => Sys2Proof.Machine.execVfpMin sw d a b fmt s
  | .vfpMax sw d a b fmt => Sys2Proof.Machine.execVfpMax sw d a b fmt s
  | .vfpAbs sw d a fmt => Sys2Proof.Machine.execVfpAbs sw d a fmt s
  | .vfpNeg sw d a fmt => Sys2Proof.Machine.execVfpNeg sw d a fmt s
  | .vfpDiv sw d a b fmt => Sys2Proof.Machine.execVfpDiv sw d a b fmt s
  | .vfpSqrt sw d a fmt => Sys2Proof.Machine.execVfpSqrt sw d a fmt s
  | .vfpCmpeq sw a b mk fmt => Sys2Proof.Machine.execVfpCmpeq sw a b mk fmt s
  | .vfpCmplt sw a b mk fmt => Sys2Proof.Machine.execVfpCmplt sw a b mk fmt s
  | .vfpCmple sw a b mk fmt => Sys2Proof.Machine.execVfpCmple sw a b mk fmt s
  | .vfpSel sw d a b mk fmt => Sys2Proof.Machine.execVfpSel sw d a b mk fmt s
  | .vintAdd sw d a b fmt => Sys2Proof.Machine.execVintAdd sw d a b fmt s
  | .vintSub sw d a b fmt => Sys2Proof.Machine.execVintSub sw d a b fmt s
  | .vintMul sw d a b fmt => Sys2Proof.Machine.execVintMul sw d a b fmt s
  | .vintAdds sw d a b fmt => Sys2Proof.Machine.execVintAdds sw d a b fmt s
  | .vintSubs sw d a b fmt => Sys2Proof.Machine.execVintSubs sw d a b fmt s
  | .vintMin sw d a b fmt => Sys2Proof.Machine.execVintMin sw d a b fmt s
  | .vintMax sw d a b fmt => Sys2Proof.Machine.execVintMax sw d a b fmt s
  | .vintAnd sw d a b fmt => Sys2Proof.Machine.execVintAnd sw d a b fmt s
  | .vintOr sw d a b fmt => Sys2Proof.Machine.execVintOr sw d a b fmt s
  | .vintXor sw d a b fmt => Sys2Proof.Machine.execVintXor sw d a b fmt s
  | .vintSll sw d a b fmt => Sys2Proof.Machine.execVintSll sw d a b fmt s
  | .vintSrl sw d a b fmt => Sys2Proof.Machine.execVintSrl sw d a b fmt s
  | .vintSra sw d a b fmt => Sys2Proof.Machine.execVintSra sw d a b fmt s
  | .vintCmpeq sw a b mk fmt => Sys2Proof.Machine.execVintCmpeq sw a b mk fmt s
  | .vintCmplt sw a b mk fmt => Sys2Proof.Machine.execVintCmplt sw a b mk fmt s
  | .vintSel sw d a b mk fmt => Sys2Proof.Machine.execVintSel sw d a b mk fmt s
  | .vmovGet sw d tile row => Sys2Proof.Machine.execVmovGet sw d tile row s
  | .vmovPut sw a tile row => Sys2Proof.Machine.execVmovPut sw a tile row s
  | .vmovCopy sw d a lane => Sys2Proof.Machine.execVmovCopy sw d a lane s
  | .vmovClr sw tile row => Sys2Proof.Machine.execVmovClr sw tile row s
  | .vcvt sw d a group dst src hi => Sys2Proof.Machine.execVcvt sw d a group dst src hi s
  | .vsfExp2 sw d a fmt => Sys2Proof.Machine.execVsfExp2 sw d a fmt s
  | .vsfLog2 sw d a fmt => Sys2Proof.Machine.execVsfLog2 sw d a fmt s
  | .vsfExp sw d a fmt => Sys2Proof.Machine.execVsfExp sw d a fmt s
  | .vsfLog sw d a fmt => Sys2Proof.Machine.execVsfLog sw d a fmt s
  | .vsfRcp sw d a fmt => Sys2Proof.Machine.execVsfRcp sw d a fmt s
  | .vsfRsqrt sw d a fmt => Sys2Proof.Machine.execVsfRsqrt sw d a fmt s
  | .vredSum sw d a tile row fmt => Sys2Proof.Machine.execVredSum sw d a tile row fmt s
  | .vredMax sw d a tile row fmt => Sys2Proof.Machine.execVredMax sw d a tile row fmt s
  | .vredMin sw d a tile row fmt => Sys2Proof.Machine.execVredMin sw d a tile row fmt s
  | .vredRowstat sw d tile fmt => Sys2Proof.Machine.execVredRowstat sw d tile fmt s
  | .vld sw d a scope order fmt off => Sys2Proof.Machine.execVld sw d a scope order fmt off s
  | .vst sw d a scope order fmt off => Sys2Proof.Machine.execVst sw d a scope order fmt off s
  | .mxMma sw a tile => Sys2Proof.Machine.execMxMma sw a tile s
  | .mxMmaz sw a tile => Sys2Proof.Machine.execMxMmaz sw a tile s
  | .mxZero sw a tile => Sys2Proof.Machine.execMxZero sw a tile s
  | .mxcSend sw a b tile pri => Sys2Proof.Machine.execMxcSend sw a b tile pri s
  | .sortLoad sw a b tile note kfmt form => Sys2Proof.Machine.execSortLoad sw a b tile note kfmt form s
  | .sortStore sw a b tile note kfmt form => Sys2Proof.Machine.execSortStore sw a b tile note kfmt form s
  | .sortRun sw a tile note kfmt form => Sys2Proof.Machine.execSortRun sw a tile note kfmt form s
  | .sortRows sw tile note kfmt form => Sys2Proof.Machine.execSortRows sw tile note kfmt form s
  | .sortTopk sw a b tile note kfmt form => Sys2Proof.Machine.execSortTopk sw a b tile note kfmt form s
  | .cpTensor sw a b dest note => Sys2Proof.Machine.execCpTensor sw a b dest note s
  | .cpBulk sw a b note => Sys2Proof.Machine.execCpBulk sw a b note s
  | .cpRelease sw a b note => Sys2Proof.Machine.execCpRelease sw a b note s
  | .cpRaw sw a b note => Sys2Proof.Machine.execCpRaw sw a b note s
  | .sysRd sw d reg => Sys2Proof.Machine.execSysRd sw d reg s
  | .sysWr sw a reg => Sys2Proof.Machine.execSysWr sw a reg s
  | .sysSet sw d a reg => Sys2Proof.Machine.execSysSet sw d a reg s
  | .sysClr sw d a reg => Sys2Proof.Machine.execSysClr sw d a reg s
  | .sysXchg sw d a reg => Sys2Proof.Machine.execSysXchg sw d a reg s
  | .trapCall sw a => Sys2Proof.Machine.execTrapCall sw a s
  | .trapRet sw => Sys2Proof.Machine.execTrapRet sw s
  | .tlbInv1 sw a b => Sys2Proof.Machine.execTlbInv1 sw a b s
  | .tlbInv2 sw a b => Sys2Proof.Machine.execTlbInv2 sw a b s
  | .tlbInvid sw a => Sys2Proof.Machine.execTlbInvid sw a s
  | .tlbInvall sw a => Sys2Proof.Machine.execTlbInvall sw a s
  | .dbgBrk sw => Sys2Proof.Machine.execDbgBrk sw s
  | .dbgMark sw a => Sys2Proof.Machine.execDbgMark sw a s
  | .dbgRdctr sw d a => Sys2Proof.Machine.execDbgRdctr sw d a s
  | .hintImm ext => Sys2Proof.Machine.execHintImm ext s
  | .hintSched sw defer => Sys2Proof.Machine.execHintSched sw defer s
  | .hintMod mig msk neg => Sys2Proof.Machine.execHintMod mig msk neg s
  | .hintBr sw taken => Sys2Proof.Machine.execHintBr sw taken s
  | .tctl unit value => Sys2Proof.Machine.execTctl unit value s
  | .trd unit value => Sys2Proof.Machine.execTrd unit value s
  | .stopreq unit value => Sys2Proof.Machine.execStopreq unit value s
  | .resume unit value => Sys2Proof.Machine.execResume unit value s
  | .dumpva unit value => Sys2Proof.Machine.execDumpva unit value s
  | .rctl unit value => Sys2Proof.Machine.execRctl unit value s
  | .bpctl unit n value => Sys2Proof.Machine.execBpctl unit n value s
  | .unitRegisterWrite unit offset value => Sys2Proof.Machine.execUnitRegisterWrite unit offset value s
  | .setlabel part operands => Sys2Proof.Machine.execSetlabel part operands s
  | .preempt part operands => Sys2Proof.Machine.execPreempt part operands s
  | .getnonce part operands => Sys2Proof.Machine.execGetnonce part operands s
  | .install part operands => Sys2Proof.Machine.execInstall part operands s
  | .remove part operands => Sys2Proof.Machine.execRemove part operands s
  | .query part operands => Sys2Proof.Machine.execQuery part operands s
  | .claim part hyp operands => Sys2Proof.Machine.execClaim part hyp operands s
  | .unclaim part hyp operands => Sys2Proof.Machine.execUnclaim part hyp operands s
  | .reshape part operands => Sys2Proof.Machine.execReshape part operands s
  | .vfup part operands => Sys2Proof.Machine.execVfup part operands s
  | .vfdown part operands => Sys2Proof.Machine.execVfdown part operands s
  | .slotset part operands => Sys2Proof.Machine.execSlotset part operands s
  | .launchPacket part dev job word => Sys2Proof.Machine.execLaunchPacket part dev job word s
  | .taskUnanchor => Sys2Proof.Machine.execTaskUnanchor s
  | .taskYield => Sys2Proof.Machine.execTaskYield s
  | .trapUret => Sys2Proof.Machine.execTrapUret s
  | .tlbSync => Sys2Proof.Machine.execTlbSync s
  | .priorityAgeing core => Sys2Proof.Machine.execPriorityAgeing core s
  | .groupEnd core tid => Sys2Proof.Machine.execGroupEnd core tid s
  | .slotGrant core => Sys2Proof.Machine.execSlotGrant core s
  | .anchorGrant core => Sys2Proof.Machine.execAnchorGrant core s
  | .hearthRemoteAccess core src => Sys2Proof.Machine.execHearthRemoteAccess core src s
  | .spawnRequest core src => Sys2Proof.Machine.execSpawnRequest core src s
  | .spawntoRefusal core src => Sys2Proof.Machine.execSpawntoRefusal core src s
  | .steal core => Sys2Proof.Machine.execSteal core s
  | .stealRequest core src => Sys2Proof.Machine.execStealRequest core src s
  | .stealReply core src => Sys2Proof.Machine.execStealReply core src s
  | .migration core tid => Sys2Proof.Machine.execMigration core tid s
  | .slotReservation core src => Sys2Proof.Machine.execSlotReservation core src s
  | .migrationRefused core src => Sys2Proof.Machine.execMigrationRefused core src s
  | .taskContextArrival core src => Sys2Proof.Machine.execTaskContextArrival core src s
  | .queueTailWrite core src => Sys2Proof.Machine.execQueueTailWrite core src s
  | .matrixCommand core src => Sys2Proof.Machine.execMatrixCommand core src s
  | .activeMessage core src => Sys2Proof.Machine.execActiveMessage core src s
  | .hearthOverrun core => Sys2Proof.Machine.execHearthOverrun core s
  | .remoteReply core op ext => Sys2Proof.Machine.execRemoteReply core op ext s
  | .deferredErrorReply core op status => Sys2Proof.Machine.execDeferredErrorReply core op status s
  | .combiningBufferDrain core index => Sys2Proof.Machine.execCombiningBufferDrain core index s
  | .hostPortAtomic => Sys2Proof.Machine.execHostPortAtomic s
  | .atomicopCompletion value ok => Sys2Proof.Machine.execAtomicopCompletion value ok s
  | .barrierWaitWake core tid => Sys2Proof.Machine.execBarrierWaitWake core tid s
  | .wirePhaseComplete core => Sys2Proof.Machine.execWirePhaseComplete core s
  | .wireWaitTimeout core tid => Sys2Proof.Machine.execWireWaitTimeout core tid s
  | .waitForChangeWake core tid => Sys2Proof.Machine.execWaitForChangeWake core tid s
  | .joinWake core tid => Sys2Proof.Machine.execJoinWake core tid s
  | .inboxMessage core => Sys2Proof.Machine.execInboxMessage core s
  | .emberPostAccept core src => Sys2Proof.Machine.execEmberPostAccept core src s
  | .emberDispatch core job store => Sys2Proof.Machine.execEmberDispatch core job store s
  | .sliceTake core src => Sys2Proof.Machine.execSliceTake core src s
  | .leaseRelease core src => Sys2Proof.Machine.execLeaseRelease core src s
  | .sliceThreshold core src => Sys2Proof.Machine.execSliceThreshold core src s
  | .sliceFlush core src => Sys2Proof.Machine.execSliceFlush core src s
  | .ashRepost core job store => Sys2Proof.Machine.execAshRepost core job store s
  | .engineWord core tid eng => Sys2Proof.Machine.execEngineWord core tid eng s
  | .matrixKstep core => Sys2Proof.Machine.execMatrixKstep core s
  | .matrixQueueAgeing core => Sys2Proof.Machine.execMatrixQueueAgeing core s
  | .copySegment core => Sys2Proof.Machine.execCopySegment core s
  | .copyAgeing core => Sys2Proof.Machine.execCopyAgeing core s
  | .sortStep core => Sys2Proof.Machine.execSortStep core s
  | .queuePull core job queue producer => Sys2Proof.Machine.execQueuePull core job queue producer s
  | .stagedInputPin core => Sys2Proof.Machine.execStagedInputPin core s
  | .fireRefusal core src => Sys2Proof.Machine.execFireRefusal core src s
  | .pendingFirePush core => Sys2Proof.Machine.execPendingFirePush core s
  | .notice core value => Sys2Proof.Machine.execNotice core value s
  | .barown core value => Sys2Proof.Machine.execBarown core value s
  | .dqBaseLimitWrite core limit value => Sys2Proof.Machine.execDqBaseLimitWrite core limit value s
  | .qPortRead core port => Sys2Proof.Machine.execQPortRead core port s
  | .qPortWrite core port value label => Sys2Proof.Machine.execQPortWrite core port value label s
  | .flipGrant vmid ia hostPa => Sys2Proof.Machine.execFlipGrant vmid ia hostPa s
  | .flipToHost vmid ia hostPa => Sys2Proof.Machine.execFlipToHost vmid ia hostPa s
  | .hostMemRead addr len => Sys2Proof.Machine.execHostMemRead addr len s
  | .hostMemWrite addr data => Sys2Proof.Machine.execHostMemWrite addr data s
  | .preemption core tid => Sys2Proof.Machine.execPreemption core tid s
  | .taskRestore core tid => Sys2Proof.Machine.execTaskRestore core tid s
  | .register func mailbox => Sys2Proof.Machine.execRegister func mailbox s
  | .unregister func word => Sys2Proof.Machine.execUnregister func word s
  | .withdraw func word => Sys2Proof.Machine.execWithdraw func word s
  | .launch func word => Sys2Proof.Machine.execLaunch func word s
  | .launchWordService part => Sys2Proof.Machine.execLaunchWordService part s
  | .gangPlacement part => Sys2Proof.Machine.execGangPlacement part s
  | .launchCompletion part number => Sys2Proof.Machine.execLaunchCompletion part number s
  | .qosPeriodStart => Sys2Proof.Machine.execQosPeriodStart s
  | .cidx value => Sys2Proof.Machine.execCidx value s
  | .fence target => Sys2Proof.Machine.execFence target s
  | .uncorrectableError place addr => Sys2Proof.Machine.execUncorrectableError place addr s
  | .softError place addr => Sys2Proof.Machine.execSoftError place addr s
  | .scrub die => Sys2Proof.Machine.execScrub die s
  | .flitGroupReceive port headers payload tag => Sys2Proof.Machine.execFlitGroupReceive port headers payload tag s
  | .nak port ack => Sys2Proof.Machine.execNak port ack s
  | .linkDown port => Sys2Proof.Machine.execLinkDown port s
  | .fabricRequest port header data => Sys2Proof.Machine.execFabricRequest port header data s
  | .requestResend core op => Sys2Proof.Machine.execRequestResend core op s
  | .requestTimeout core op => Sys2Proof.Machine.execRequestTimeout core op s
  | .acknowledgementPacket core dev => Sys2Proof.Machine.execAcknowledgementPacket core dev s
  | .replyCacheReclaim src => Sys2Proof.Machine.execReplyCacheReclaim src s
  | .rekey port sending => Sys2Proof.Machine.execRekey port sending s
  | .rmsync window => Sys2Proof.Machine.execRmsync window s
  | .traceDrain unit => Sys2Proof.Machine.execTraceDrain unit s
  | .sample unit => Sys2Proof.Machine.execSample unit s
  | .replayChunk unit => Sys2Proof.Machine.execReplayChunk unit s
  | .packageReset failures => Sys2Proof.Machine.execPackageReset failures s
  | .powerLoss inOrder => Sys2Proof.Machine.execPowerLoss inOrder s
  | .vcoreCurrentLimit die => Sys2Proof.Machine.execVcoreCurrentLimit die s
  | .junctionTemperature die celsius => Sys2Proof.Machine.execJunctionTemperature die celsius s
  | .getVersion => Sys2Proof.Machine.execGetVersion s
  | .getCapabilities => Sys2Proof.Machine.execGetCapabilities s
  | .negotiateAlgorithms asym hash => Sys2Proof.Machine.execNegotiateAlgorithms asym hash s
  | .getDigests => Sys2Proof.Machine.execGetDigests s
  | .getCertificate offset length => Sys2Proof.Machine.execGetCertificate offset length s
  | .challenge nonce => Sys2Proof.Machine.execChallenge nonce s
  | .getMeasurements index nonce => Sys2Proof.Machine.execGetMeasurements index nonce s
  | .keyExchange exchange => Sys2Proof.Machine.execKeyExchange exchange s
  | .finish verify => Sys2Proof.Machine.execFinish verify s
  | .keyUpdate => Sys2Proof.Machine.execKeyUpdate s
  | .endSession => Sys2Proof.Machine.execEndSession s
  | .operationAcknowledgement core op => Sys2Proof.Machine.execOperationAcknowledgement core op s
  | .cxlCompletionTimeout => Sys2Proof.Machine.execCxlCompletionTimeout s
  | .packagePowerLimit => Sys2Proof.Machine.execPackagePowerLimit s
  | .pipeMessageArrival core src => Sys2Proof.Machine.execPipeMessageArrival core src s
  | .pipeCreditReturn core src => Sys2Proof.Machine.execPipeCreditReturn core src s
  | .illegalInstruction => Sys2Proof.Machine.execIllegalInstruction s
  | .maintenancePortArrival die port value freed => Sys2Proof.Machine.execMaintenancePortArrival die port value freed s
  | .hostSkipAltRecord alt step unit arg => Sys2Proof.Machine.execHostSkipAltRecord alt step unit arg s

end Sys2Proof.Machine
end

