-- ==== Sys2Proof/Machine/Events.lean ====
section
/-! DEFINITION. What the machine does next: the agenda, then by turns the internal events that are enabled, in a fixed order,
and the turns of the cores (log entries 1 and 11). -/

namespace Sys2Proof.Machine

/-! ### Waits that end by themselves -/

/-- Whether an engine has room for a directly issued form of the task at the port. -/
def State.engineFree (s : State) (e : Engine) : Bool :=
  !(s.t.anchor.any (fun x => (x.prog e).any (fun p => !p.ended))) && !(s.engFull e)

/-- A pipe of the launch of the task at the port. -/
def State.pipeOf (s : State) (id : Nat) : Option Pipe := (s.d.launchOf s.t.launch).bind (fun l => l.pipes.find? (fun p => p.id == id))

/-- Whether the condition that a wait names holds, for the waits that no row of the table ends. -/
def State.waitOver (s : State) : Bool :=
  match s.t.status with
  | .parked .room => s.roomForResv 1
  | .parked .order => s.t.ops.isEmpty
  | .parked (.release scope) => !(s.t.ops.any (fun o => o.awaited scope))
  | .parked (.tiles mask) => mask &&& s.busyTiles == 0
  | .parked .ending => s.enginesDone
  | .parked (.engines mask) => (enginesOf mask).all (fun e => !(s.t.anchor.any (fun x => (x.prog e).any (fun p => !p.ended))))
  | .parked (.engine e) => s.engineFree e
  | .parked (.credit id) => (s.pipeOf id).all (fun p => decide (0 < p.credits) || p.recvEnded)
  | .parked (.message id) => (s.pipeOf id).all (fun p => !p.held.isEmpty || p.closeArrived)
  | .parked (.qport _ _) => s.d.qready (CoreId.die s.c.id) s.t
  | .parked (.flip vmid ia) => !(s.d.flipping vmid ia)
  | .parked (.tlbSync op cycle) => s.syncOver op cycle
  | .parked .trap => s.quiet
  | _ => false

/-- The wait of the task at the port ends: its unit is issued afresh, its group ends, or its trap is entered. -/
def State.settleTask (s : State) : State :=
  match s.t.status, s.t.trap with
  | .parked (.tlbSync _ _), _ => { s with t := { s.t with status := .parked .group } }
  | .parked .trap, some (h, cause, value) => State.enterTrap { s with t := { s.t with trap := none } } h cause value
  | _, _ => s.wake

/-- Whether a stop may meet a task in a wait: one that waits to enter a trap enters it first. -/
def stopsIn (w : Wait) : Bool := w != .trap

/-- Ends the waits of the tasks of the core in focus whose conditions hold. A wait of a task that a debug unit is to stop is ended by
the stop (R343, R411); a stepped unit's group ends first. -/
def State.settle (s : State) : State :=
  s.whole.tasks.foldl (fun s p => match p.2.status with
    | .parked w => s.atTask p.2.tid (fun s => match if stopsIn w then s.stopOf else none with
      | some (u, reason) => if reason = 0xFE && w == .group then s else s.stopTask u reason
      | none => if s.waitOver then s.settleTask else s)
    | _ => s) s

/-! ### The turn of a core -/

/-- One more word of the hearth's run; the 513th is not issued (R24). -/
def State.hearthWord (s : State) (h : HearthRun) : Turned :=
  if 512 ≤ h.count then .stand (s.hearthEnds h 0x13)
  else State.toRun { s with c := { s.c with hearth := s.c.hearth.map (fun (h : HearthRun) => { h with count := h.count + 1 }) } }

/-- What the hearth of the core in focus does next, if anything: its run ends, goes on, or its group or its wait ends. -/
def State.hearthTurn (s : State) (h : HearthRun) : Option Turned :=
  let s := s.toHearth
  match s.t.status with
  | .stopped => some (.stand (s.hearthEnds h (s.t.ucause.setWidth 8)))
  | .ready =>
    match s.t.deferred with
    | (c, detail, v) :: r => some (.stand (State.raiseAt { s with t := { s.t with deferred := r } } s.t.pc c.toNat detail.toNat v))
    | [] => some (State.hearthWord (if s.t.atUnit then { s with t := { s.t with unitPc := s.t.pc } } else s) h)
  | .parked .group => if s.groupOver then some (.stand s.endGroup) else none
  | .parked _ => if s.waitOver then some (.stand s.settleTask) else none
  | _ => none

/-- The slot whose unit is under way: no other task issues between its words (R105). -/
def State.midUnit (s : State) : Option Nat := (s.whole.tasks.find? (fun p => p.2.status == .ready && !p.2.atUnit)).map (·.1)

/-- The turn of the core in focus: a unit under way goes on; otherwise a cycle passes, waits end, and the task that the selector
chooses starts a unit, in its job's scratchpad (R350). -/
def State.coreTurn (s : State) : Turned :=
  match if s.canIssue then s.midUnit else none with
  | some n => (if s.t.onHearth || s.c.port.toNat != n then s.takeSlot n else s).toRun
  | none =>
    let s := s.tick
    if !s.canIssue then .stand s
    else
      let s := s.settle
      let s := if s.agesNow then s.ageTasks else s
      match s.select with
      | none =>
        let s := if s.whole.tasks.any (fun p => s.isReady p.2) then s else s.count 2
        .stand (if s.whole.tasks.any (fun p => p.2.status == .ready && s.c.held .slot (s.d.tenantOf p.2.launch))
          then s.count 16 else s)
      | some n =>
        let s := s.round n
        (s.giveSpad s.t.job).startUnit

/-! ### Internal events -/

/-- Whether an event leads to a state that differs in more than the focus. -/
def State.moves (s : State) : Out → Bool
  | .next s' =>
    let back (x : State) : State := ((x.focus s'.c.id).focus s.c.id).takeSlot s.c.port.toNat
    !decide (back s' = back s)
  | _ => false

/-- The event of a message at the head of its order. -/
def State.messageEvent (s : State) (m : NetMsg) : Out :=
  let src := endpointOf s.d.fabric.device m.src
  match m.kind with
  | .access _ _ _ => execHearthRemoteAccess m.dst src s
  | .spawn _ _ _ | .fire _ _ _ => execSpawnRequest m.dst src s
  | .spawnRefused _ _ _ _ => execSpawntoRefusal m.dst src s
  | .fireRefused _ _ _ _ => execFireRefusal m.dst src s
  | .stealReq _ _ => execStealRequest m.dst src s
  | .stealReply _ => execStealReply m.dst src s
  | .reserve _ => execSlotReservation m.dst src s
  | .reserveRefused _ => execMigrationRefused m.dst src s
  | .context _ => execTaskContextArrival m.dst src s
  | .tail _ _ _ _ _ => execQueueTailWrite m.dst src s
  | .matrix _ _ _ => execMatrixCommand m.dst src s
  | .active _ _ _ _ _ _ => execActiveMessage m.dst src s
  | .post _ _ _ _ _ _ _ _ _ => execEmberPostAccept m.dst src s
  | .take _ _ _ _ | .stat _ _ _ _ => execSliceTake m.dst src s
  | .done _ _ _ _ _ => execLeaseRelease m.dst src s
  | .thresh _ _ _ _ _ => execSliceThreshold m.dst src s
  | .flush _ _ _ _ => execSliceFlush m.dst src s
  | .pipeMsg _ _ _ _ | .pipeClose _ _ => execPipeMessageArrival m.dst src s
  | .pipeCredit _ _ => execPipeCreditReturn m.dst src s
  | .inbox _ _ => execInboxMessage m.dst s
  | .wire => execWirePhaseComplete m.dst s
  | .request _ => .next (s.turnRequest m.dst src)

/-- The events of an operation of a core: its return, or for one on a peer its resend and its timeout. -/
def State.opEvents (s : State) (core : CoreId) (o : PendOp) : List Out :=
  if o.peer && o.stage.isSent then [execRequestTimeout core o.id s, execRequestResend core o.id s]
  else if o.wantsData then [execRemoteReply core o.id none s]
  else match o.stage with
    | .failed _ _ => [execDeferredErrorReply core o.id 0 s]
    | _ => [execOperationAcknowledgement core o.id s]

/-- The events of a task of a core. -/
def State.taskEvents (s : State) (core : CoreId) (t : Task) : List Out :=
  t.ops.flatMap (s.opEvents core) ++
  [execGroupEnd core t.tid s, execBarrierWaitWake core t.tid s, execWireWaitTimeout core t.tid s, execWaitForChangeWake core t.tid s,
   execJoinWake core t.tid s, execMigration core t.tid s, execEngineWord core t.tid .matrix s, execEngineWord core t.tid .copy s,
   execEngineWord core t.tid .sort s, execPreemption core t.tid s]

/-- The events of a core. -/
def State.coreEvents (s : State) (c : Core) : List Out :=
  c.tasks.flatMap (fun p => s.taskEvents c.id p.2) ++ (c.hearth.toList.flatMap (fun h => h.task.ops.flatMap (s.opEvents c.id))) ++
  [execWirePhaseComplete c.id s, execInboxMessage c.id s, execAnchorGrant c.id s, execPendingFirePush c.id s, execStagedInputPin c.id s,
   execSlotGrant c.id s, execMatrixKstep c.id s, execCopySegment c.id s, execSortStep c.id s, execMatrixQueueAgeing c.id s,
   execCopyAgeing c.id s, execReplayChunk c.id s, execSample c.id s, execTraceDrain c.id s] ++
  (match c.scb with
   | e :: _ => if e.made + 2048 ≤ s.d.cycle then [execCombiningBufferDrain c.id 0 s] else []
   | [] => [])

/-- The events of the device. -/
def State.deviceEvents (s : State) : List Out :=
  let four := (rangeFrom 0 4).map (BitVec.ofNat 2)
  [execHostPortAtomic s, .next s.turnFlips, .next s.retryHeld, .next s.retryWork, execQosPeriodStart s] ++
  s.d.orphans.flatMap (fun p => s.opEvents p.1 p.2.2) ++
  s.d.peerLines.flatMap (fun q => [execRequestTimeout q.core q.op s, execRequestResend q.core q.op s]) ++
  s.d.launches.flatMap (fun l => l.rings.map (fun r => execQueuePull r.consumer (s.d.jobOfLaunch l.key) (BitVec.ofNat 8 r.queue) r.producer s)) ++
  s.d.saved.map (fun v => execTaskRestore v.core v.task.tid s) ++
  s.d.slices.map (fun x => execAshRepost x.core x.job x.decl.num s) ++
  s.d.launches.map (fun l => execLaunchCompletion (launchPart l.key) (BitVec.ofNat 32 (launchNumber l.key)) s) ++
  four.map (fun p => execGangPlacement p s) ++ four.map (fun p => execLaunchWordService p s) ++
  four.flatMap (fun p => (s.d.partState p).preempting.map (fun tid => execPreemption (s.d.firstCore p) tid s)) ++
  four.map (fun d => execScrub d s) ++
  s.d.fabric.lastReply.map (fun p => execAcknowledgementPacket p.1 p.2.1 s) ++
  s.d.fabric.sources.map (fun x => execReplyCacheReclaim x.src s) ++
  ((rangeFrom 0 32).filter (fun q => (s.d.fabric.links[q]?).any (fun l =>
    decide (2 ^ 36 ≤ (l.sendCount[bankIndex l.sendGen]?.getD 0).toNat)))).map (fun q => execRekey (BitVec.ofNat 5 q) true s) ++
  s.allCores.map (fun c => execSteal c.id s)

/-- What a step does: an instruction or event of the agenda or of a task, an internal event, or a state by itself. -/
inductive Doing where
  | turned (x : Turned)
  | event (o : Out)

/-- The first of a list of cores after a given one, in order of number and round to the lowest. -/
def coreAfter (l : List CoreId) (c : CoreId) : Option CoreId := (l.find? (fun k => c.toNat < k.toNat)) <|> l.head?

/-- The hearths that run, the one after the hearth that ran last first: the first of them that can go on. -/
def State.nextHearth (s : State) : Option Turned :=
  let l := s.allCores.filter (fun c => c.hearth.isSome)
  let at' := s.d.rota.hearth.toNat
  let order := l.filter (fun c => at' < c.id.toNat) ++ l.filter (fun c => c.id.toNat ≤ at')
  order.findSome? (fun c => match c.hearth with
    | some h =>
      let f := State.focus { s with d := { s.d with rota := { s.d.rota with hearth := c.id } } } c.id
      if f.canIssue then f.hearthTurn h else none
    | none => none)

/-- Every internal event that could be enabled: of the messages under way, of the cores, of the device. -/
def State.events (s : State) : List Out :=
  s.d.net.map s.messageEvent ++ s.allCores.flatMap s.coreEvents ++ s.deviceEvents

/-- The first event of a list, from a place on, that is enabled, and its place. -/
def State.firstEvent (s : State) : List Out → Nat → Nat → Option (Nat × Out)
  | [], _, _ => none
  | o :: r, i, k => if k ≤ i ∧ s.moves o then some (i, o) else s.firstEvent r (i + 1) k

/-- The enabled internal event that comes next in the machine's own order: bring-up, else the first one after the place of the
last, so that none is passed over for ever (R32). -/
def State.nextEvent (s : State) : Option Doing :=
  if s.d.boot.due then some (.event (.next (s.boot [])))
  else
    let l := s.events
    match (s.firstEvent l 0 s.d.rota.event) <|> (s.firstEvent l 0 0) with
    | some (i, .next s') => some (.event (.next { s' with d := { s'.d with rota := { s'.d.rota with event := i + 1 } } }))
    | some (_, o) => some (.event o)
    | none => none

/-- The core whose turn it is when nothing else says so: the next one in order of number, after the core that had the last
turn, that has a task; else the core in focus. -/
def State.nextCore (s : State) : CoreId :=
  (coreAfter ((s.allCores.filter (fun c => !c.tasks.isEmpty)).map (·.id)) s.d.rota.turn).getD s.c.id

/-- The turn of the next core. -/
def State.nextTurn (s : State) : Turned :=
  let c := s.nextCore
  (State.focus { s with d := { s.d with rota := { s.d.rota with kind := 2, turn := c } } } c).coreTurn

/-- What runs next; none when the rails are down and the agenda is empty. Without an agenda an internal event, the turn of a
core, and a word of a hearth follow each other, each giving way to the next kind when there is none of it. -/
def State.prepare (s : State) : Option Doing :=
  match s.d.agenda with
  | .event i :: r => some (.turned (.run i { s with d := { s.d with agenda := r } }))
  | .core c :: r => some (.turned (({ s with d := { s.d with agenda := r } }.focus c).coreTurn))
  | [] =>
    if !s.d.boot.powered then none
    else if s.d.rota.kind = 1 then some (.turned s.nextTurn)
    else
      let go (k : Nat) : State := { s with d := { s.d with rota := { s.d.rota with kind := k } } }
      let event : Option Doing := (go 1).nextEvent
      some (((if s.d.rota.kind = 0 then event else (((go 0).nextHearth.map .turned) <|> event))).getD (.turned s.nextTurn))

/-! ### An instruction placed where the next step fetches (log entry 2) -/

/-- The PA at which the placed tables and word start, on the die of the core in focus. -/
def placeBase (s : State) : Nat := (CoreId.die s.c.id).toNat * dieBytes
/-- The VA of the placed word. -/
def placeVa : Word := 0x100010000

/-- Memory with a second stage that maps IA 0 to 1 GiB onto the die, a first stage that maps VA 4 GiB to 5 GiB onto that,
and the word. -/
def placeTables (m : Memory) (base : Nat) (word : List Byte) : Memory :=
  let table2 (out : Nat) : Nat := base + out + 1
  let m := m.write (base + 0x1000) 8 (table2 0x2000)
  let m := m.write (base + 0x2000) 8 (table2 0x3000)
  let m := m.write (base + 0x3000) 8 (base + 0x3B)
  let m := m.write (base + 0x4000) 8 0x5001
  let m := m.write (base + 0x5000) 8 0x6001
  let m := m.write (base + 0x6000 + 32) 8 0x3F
  m.writeBytes (base + 0x10000) word

/-- The task that runs the placed word: the one at the port, or a new one. -/
def placeTask (t : Task) : Task :=
  { t with status := .ready, pc := placeVa, unitPc := placeVa, pfxImm := none, pfxMod := none, eff := 7, age := 0,
           passOver := 0, yieldTo := 0, deferred := [], onHearth := false }

/-- The core with that task next to issue, unhindered. -/
def placeCore (c : Core) (base : Nat) (job : BitVec 16) : Core :=
  let j := { c.jobRegs job with pt1root := 0x4000, pt2root := BitVec.ofNat 64 (base + 0x1000) }
  { c.setJobRegs j with
    fenced := false, hearth := none, trace := TraceUnit.reset, slotBal := [], tlb := [],
    lastAt := c.lastAt.setIfInBounds 7 (BitVec.ofNat 5 ((c.port.toNat + 23) % 24)) }

/-- The device with the agenda at this core's turn and nothing in the way. -/
def placeDevice (d : Device) (id : CoreId) (base : Nat) (word : List Byte) : Device :=
  { d with
    agenda := [.core id], gmem := { d.gmem with mem := placeTables d.gmem.mem base word, poison := [] }, decoded := [],
    boot := { d.boot with powered := true, released := Vector.replicate 4 true }, fencedDies := 0, fencedChannels := [], withheld := Vector.replicate 4 0,
    fabric := { d.fabric with regions := [] }, parts := d.parts.map (fun p => { p with attached := [], preempting := [] }) }

end Sys2Proof.Machine
end

