-- ==== Sys2Proof/Machine/Step.lean ====
section
/-! DEFINITION. One step of the machine. Each step runs one word of one task, or one event, or lets one cycle pass. -/

namespace Sys2Proof.Machine

/-- One step: what `prepare` finds runs through `exec`. -/
def step (s : State) : Host.Outcome State Fault Refusal :=
  match s.prepare with
  | some (.turned (.run i s')) => exec i s'
  | some (.turned (.stand s')) => .next s'
  | some (.event o) => o
  | none => .fault .powerOff

/-- The state with an instruction stored where the next step fetches (log entry 2). -/
def State.withFetchWord (s : State) (nbits w : Nat) : State :=
  let base := placeBase s
  let word := toBytes (4 * ((nbits + 31) / 32)) (w % 2 ^ nbits)
  { t := placeTask s.t, c := placeCore s.c base s.t.job, d := placeDevice s.d s.c.id base word }

end Sys2Proof.Machine
end

