-- ==== Sys2Proof/Safety.lean ====
section
/-! DEFINITION. What counts as a safe run, and the words in which the claims are stated: when a unit meets no obstacle at issue, and
what a unit that delivers a result leaves behind. -/

namespace Sys2Proof.Machine

/-- A run of n steps that neither faults nor refuses. -/
def State.runs : Nat → State → Option State
  | 0, s => some s
  | n + 1, s => match step s with
    | .next s' => State.runs n s'
    | _ => none

/-- Every memory of the machine is in its canonical form: global and host memory with the decoded copies of
compressed pages, the slices, and the scratchpads of all cores. -/
def State.Canonical (s : State) : Prop :=
  s.d.gmem.mem.wf = true ∧ s.d.shared.mem.wf = true ∧ s.c.spad.mem.wf = true ∧
  (∀ c ∈ s.d.cores, c.spad.mem.wf = true) ∧ ∀ p ∈ s.d.decoded, p.2.wf = true

/-- A step from a state goes on. -/
def State.goesOn (s : State) : Prop := ∃ s', step s = .next s'

/-- Not a maintenance port (R97). -/
def srPlain : SReg → Bool
  | .q _ => false
  | _ => true

/-- A unit meets no obstacle at issue: its prefixes are accepted (R104), it names no maintenance port and takes nothing from one (R298),
and the group write buffer has room for a result-writing one (R20). -/
def State.Ready (s : State) (a : Accept) (srcs : List SReg) (d : SReg) : Prop :=
  s.t.accepts a = true ∧ srcs.all srPlain = true ∧ srPlain d = true ∧ (srWrites d = true → s.t.buf.length + s.t.lost < 16) ∧ s.t.qtake = []

/-- What a unit that delivers a value to a scalar destination leaves: a general register takes it at the end of the group, through
the group write buffer (R18); L takes it at once from a fixed-latency scalar ALU instruction, whatever its destination (R19); the
prefixes are used up and the task goes on at the next word, or waits for its group's results when the switch marker is set (R17). -/
def State.gives (s : State) (alu sw : Bool) (d : SReg) (v : Val) : State :=
  let buf := match d with
    | .g n => s.t.buf ++ [.g n v]
    | _ => s.t.buf
  ({ s with t := { s.t with buf, l := if alu then v else s.t.l } }).finish sw

/-- A vector unit meets no obstacle at issue: its task is anchored (R36), its prefixes are accepted (R104), and the group write buffer
has room for a result-writing one (R20). -/
def State.ReadyV (s : State) (an : Anchor) (a : Accept) (writes : Bool) : Prop :=
  s.t.anchor = some an ∧ s.t.accepts a = true ∧ (writes = true → s.t.buf.length + s.t.lost < 16) ∧ s.t.qtake = []

/-- What a vector ALU unit that delivers an entry leaves: LV takes it at once, and an operand entry takes it at the end of the group,
through the group write buffer; LV and ZV as destinations take nothing more (R19, R220). -/
def State.givesV (s : State) (an : Anchor) (sw : Bool) (d : VReg) (e : Entry) : State :=
  let buf := match d with
    | .o n => s.t.buf ++ [.o n e]
    | _ => s.t.buf
  ({ s with t := { s.t with buf, anchor := some { an with lv := e } } }).finish sw

/-- What a unit leaves that puts one entry into the group write buffer and writes no latch. -/
def State.givesB (s : State) (sw : Bool) (e : BufEntry) : State := ({ s with t := { s.t with buf := s.t.buf ++ [e] } }).finish sw

/-- Nothing of the task at the port is outstanding: no operation, and no store in the combining buffer. -/
def State.Still (s : State) : Prop := s.t.ops = [] ∧ ∀ e ∈ s.c.scb, e.tid ≠ s.t.tid

/-- The task at the port runs: it is ready, no prefix stands before the unit, it runs in its own slot, and its core neither
records nor replays. -/
def State.Runs (s : State) : Prop :=
  s.t.status = .ready ∧ s.t.pfxImm = none ∧ s.t.pfxMod = none ∧ s.t.onHearth = false ∧ s.t.unitPc = s.t.pc ∧ s.c.trace.rctl = 0 ∧
  s.c.trace.before = [] ∧ s.c.trace.chunkTask = none ∧ s.c.trace.creates = [] ∧ s.d.cores = []

/-- An access of n bytes at an exact address of the core's own scratchpad meets nothing in its way: its capability passes the checks of
R44, the place is no deque or pipe of a user-level task, no breakpoint matches, and nothing of the task is outstanding. -/
def State.SpadOpen (s : State) (cap : Val) (perm : Nat) (addr : Int) (n align : Nat) (loads stores : Bool) : Prop :=
  checkAccess cap memSpaces perm addr n align none = .ok .spad ∧ s.forbidden .spad addr.toNat n = false ∧
  s.dataBreak loads stores addr.toNat n = none ∧ s.Still

/-- What a completed access leaves: the address's label has raised the control label (R50), an acquire at die or wider has emptied the
core's read cache (R78, R87), the result stands in the group write buffer, and the unit has ended. -/
def State.accessed (s : State) (sw : Bool) (lab : Label) (scope : Scope) (order : Order) (e : Option BufEntry) : State :=
  let cache := if (order = .acq ∨ order = .acqrel) ∧ 4 ≤ scope.code then [] else s.c.cache
  ({ s with t := { s.t with clabel := s.t.clabel ||| lab, buf := s.t.buf ++ e.toList }, c := { s.c with cache } }).finish sw

/-- The state after a write to the core's own scratchpad: its new bank, and the pages that it has made dirty (R350). -/
def State.spadWritten (s : State) (b : Bank) (a : Nat) : State :=
  { s with c := { s.c with spad := b, dirty := s.c.dirty ||| BitVec.ofNat 256 (2 ^ (a / 4096 % 256)) } }

/-- The next message to the core in focus is this one, and the core takes it: its partition runs, it is not fenced, its trace unit
neither records nor replays, and no active message runs before an operation of the hearth (R22). -/
def State.Delivers (s : State) (src : CoreId) (k : MsgKind) (rest : List NetMsg) : Prop :=
  s.d.net = { src, dst := s.c.id, kind := k } :: rest ∧ s.d.stopped s.part = false ∧ s.c.fenced = false ∧ s.c.trace.rctl = 0 ∧
  (k.executed = true → s.c.hearth = none)

/-- The state in which the core has taken the message at the head of the network. -/
def State.took (s : State) (rest : List NetMsg) : State := { s with d := { s.d with net := rest } }

/-- The endpoint of a core of this device. -/
def State.end_ (s : State) (c : CoreId) : Endpoint := endpointOf s.d.fabric.device c

/-- The operation `o` of a task of the core in focus is outstanding, and `f` is the state with that task at the issue port. -/
def State.Holds (s : State) (o : PendOp) (f : State) : Prop := s.focusOp s.c.id o.id = some (o, f)

/-- A task with an operation off its list. -/
def Task.without (t : Task) (id : Nat) : Task := { t with ops := t.ops.filter (fun o => o.id != id) }

end Sys2Proof.Machine
end

