-- ==== Sys2Proof/Certificates/Slice0/Obligations.lean ====
section
/-! DEFINITION. The statements for the provers. Each says what a rule of the specification says the machine does; hypotheses name
the state and the operands alone. A statement over several groups of forms is the conjunction of their claims. -/

section Claims

open Sys2Proof Sys2Proof.Machine

/-! ### The integer instructions of the scalar pipe -/

/-- R133: `ialu.op d, a, b` sets G[d] to f(x, y) for each of the fifteen functions; arithmetic wraps modulo 2^64 and a shift amount
is y[5:0]. The result is delivered as R19 and R131 say (`gives`), under the union of the labels of the sources and the control
label. -/
def Claim.IaluResults : Prop :=
  ∀ (s : State) (sw : Bool) (d a b : SReg), s.Ready Accept.none [a, b] d →
    let x := s.x a
    let y := s.x b
    let out (w : Word) : Out := .next (s.gives true sw d { bits := w.setWidth 128, tag := false, label := s.lab a ||| s.lab b ||| s.t.clabel })
    exec (.ialuAdd sw d a b) s = out (BitVec.ofNat 64 (x.toNat + y.toNat)) ∧
    exec (.ialuSub sw d a b) s = out (BitVec.ofInt 64 (x.toNat - y.toNat)) ∧
    exec (.ialuAnd sw d a b) s = out (x &&& y) ∧
    exec (.ialuOr sw d a b) s = out (x ||| y) ∧
    exec (.ialuXor sw d a b) s = out (x ^^^ y) ∧
    exec (.ialuAndn sw d a b) s = out (x &&& ~~~y) ∧
    exec (.ialuSll sw d a b) s = out (BitVec.ofNat 64 (x.toNat * 2 ^ (y.toNat % 64))) ∧
    exec (.ialuSrl sw d a b) s = out (BitVec.ofNat 64 (x.toNat / 2 ^ (y.toNat % 64))) ∧
    exec (.ialuSra sw d a b) s = out (BitVec.ofInt 64 (x.toInt / 2 ^ (y.toNat % 64))) ∧
    exec (.ialuSlt sw d a b) s = out (if x.toInt < y.toInt then 1 else 0) ∧
    exec (.ialuSltu sw d a b) s = out (if x.toNat < y.toNat then 1 else 0) ∧
    exec (.ialuMin sw d a b) s = out (BitVec.ofInt 64 (min x.toInt y.toInt)) ∧
    exec (.ialuMax sw d a b) s = out (BitVec.ofInt 64 (max x.toInt y.toInt)) ∧
    exec (.ialuMinu sw d a b) s = out (BitVec.ofNat 64 (min x.toNat y.toNat)) ∧
    exec (.ialuMaxu sw d a b) s = out (BitVec.ofNat 64 (max x.toNat y.toNat))

/-- R134: `ialui.op d, a, imm` computes as R133 does with y taken from imm12, or behind a hint.imm from the 32-bit field that EXT
and imm12 form: sign-extended for add and slt, zero-extended for and, or, xor; a shift takes imm[5:0] and every higher bit of the
field, EXT included, must be zero. -/
def Claim.IaluiResults : Prop :=
  ∀ (s : State) (sw : Bool) (d a : SReg) (imm : BitVec 12) (sh : BitVec 6),
    let x := s.x a
    let ys : Word := match s.t.pfxImm with
      | some ext => BitVec.signExtend 64 (ext ++ imm)
      | none => BitVec.signExtend 64 imm
    let yz : Word := match s.t.pfxImm with
      | some ext => BitVec.setWidth 64 (ext ++ imm)
      | none => BitVec.setWidth 64 imm
    let out (w : Word) : Out := .next (s.gives true sw d { bits := w.setWidth 128, tag := false, label := s.lab a ||| s.t.clabel })
    (s.Ready Accept.immOnly [a] d →
      exec (.ialuiAdd sw d a imm) s = out (x + ys) ∧
      exec (.ialuiAnd sw d a imm) s = out (x &&& yz) ∧
      exec (.ialuiOr sw d a imm) s = out (x ||| yz) ∧
      exec (.ialuiXor sw d a imm) s = out (x ^^^ yz) ∧
      exec (.ialuiSlt sw d a imm) s = out (if x.toInt < ys.toInt then 1 else 0)) ∧
    (s.Ready Accept.immOnly [a] d → (∀ ext, s.t.pfxImm = some ext → ext = 0) →
      exec (.ialuiSll sw d a sh) s = out (BitVec.ofNat 64 (x.toNat * 2 ^ sh.toNat)) ∧
      exec (.ialuiSrl sw d a sh) s = out (BitVec.ofNat 64 (x.toNat / 2 ^ sh.toNat)) ∧
      exec (.ialuiSra sw d a sh) s = out (BitVec.ofInt 64 (x.toInt / 2 ^ sh.toNat))) ∧
    (∀ ext, s.t.pfxImm = some ext → ext ≠ 0 →
      exec (.ialuiSll sw d a sh) s = .next (s.raise 0x01) ∧
      exec (.ialuiSrl sw d a sh) s = .next (s.raise 0x01) ∧
      exec (.ialuiSra sw d a sh) s = .next (s.raise 0x01))

/-- R135: `lui d, imm` sets G[d][63:0] to SignExtend of imm20 above twelve zero bits from 32 bits, and behind a hint.imm of imm40
above twelve zero bits from 52. -/
def Claim.LuiResult : Prop :=
  ∀ (s : State) (sw : Bool) (d : SReg) (imm : BitVec 20), s.Ready Accept.immOnly [] d →
    exec (.lui sw d imm) s = .next (s.gives true sw d {
      bits := (match s.t.pfxImm with
        | some ext => BitVec.signExtend 64 (ext ++ imm ++ 0#12)
        | none => BitVec.signExtend 64 (imm ++ 0#12)).setWidth 128
      tag := false, label := s.t.clabel })

/-- R136: the eleven `ibit` functions, each by the bits of its result, with pos = y[5:0] and len = y[14:8]. -/
def Claim.IbitResults : Prop :=
  ∀ (s : State) (sw : Bool) (d a b : SReg),
    let x := s.x a
    let y := s.x b
    let pos := y.toNat % 64
    let len := y.toNat / 256 % 128
    let out (l : Label) (w : Word) : Out := .next (s.gives true sw d { bits := w.setWidth 128, tag := false, label := l })
    let la := s.lab a ||| s.t.clabel
    let lb := s.lab a ||| s.lab b ||| s.t.clabel
    (s.Ready Accept.none [a] d →
      (∃ n, exec (.ibitClz sw d a) s = out la (BitVec.ofNat 64 n) ∧ n ≤ 64 ∧ (∀ i, 64 - n ≤ i → x.getLsbD i = false) ∧
        (n < 64 → x.getLsbD (63 - n) = true)) ∧
      (∃ n, exec (.ibitCtz sw d a) s = out la (BitVec.ofNat 64 n) ∧ n ≤ 64 ∧ (∀ i, i < n → x.getLsbD i = false) ∧
        (n < 64 → x.getLsbD n = true)) ∧
      exec (.ibitPopc sw d a) s = out la (BitVec.ofNat 64 ((List.range 64).countP (fun i => x.getLsbD i))) ∧
      (∃ w, exec (.ibitBrev sw d a) s = out la w ∧ ∀ i, i < 64 → w.getLsbD i = x.getLsbD (63 - i)) ∧
      (∃ w, exec (.ibitBswap sw d a) s = out la w ∧ ∀ i, i < 8 → w.extractLsb' (8 * i) 8 = x.extractLsb' (8 * (7 - i)) 8)) ∧
    (s.Ready Accept.none [a, b] d →
      (∃ w, exec (.ibitSext sw d a b) s = out lb w ∧ ∀ i, i < 64 → w.getLsbD i = x.getLsbD (min i pos)) ∧
      (∃ w, exec (.ibitZext sw d a b) s = out lb w ∧ ∀ i, i < 64 → w.getLsbD i = (decide (i ≤ pos) && x.getLsbD i)) ∧
      (∃ w, exec (.ibitBext sw d a b) s = out lb w ∧ ∀ i, i < 64 → w.getLsbD i = (decide (i < len) && x.getLsbD (pos + i))) ∧
      (∃ w, exec (.ibitRol sw d a b) s = out lb w ∧ ∀ i, i < 64 → w.getLsbD ((i + pos) % 64) = x.getLsbD i) ∧
      (∃ w, exec (.ibitRor sw d a b) s = out lb w ∧ ∀ i, i < 64 → w.getLsbD i = x.getLsbD ((i + pos) % 64))) ∧
    (s.Ready Accept.none [a, b, d] d →
      ∃ w, exec (.ibitBins sw d a b) s = out (lb ||| s.lab d) w ∧
        ∀ i, i < 64 → w.getLsbD i = if pos ≤ i ∧ i < pos + len then x.getLsbD (i - pos) else (s.x d).getLsbD i)

/-- R137: the products and quotients of `imul`, in unbounded arithmetic; a divisor of 0 raises integer divide by zero. The four
divisions are no fixed-latency instructions: they write no latch (R19). -/
def Claim.ImulResults : Prop :=
  ∀ (s : State) (sw : Bool) (d a b : SReg), s.Ready Accept.none [a, b] d →
    let x := s.x a
    let y := s.x b
    let v (w : Word) : Val := { bits := w.setWidth 128, tag := false, label := s.lab a ||| s.lab b ||| s.t.clabel }
    let out (w : Word) : Out := .next (s.gives true sw d (v w))
    let late (w : Word) : Out := .next (s.gives false sw d (v w))
    exec (.imulMul sw d a b) s = out (BitVec.ofInt 64 (x.toInt * y.toInt)) ∧
    exec (.imulMulh sw d a b) s = out ((BitVec.ofInt 128 (x.toInt * y.toInt)).extractLsb' 64 64) ∧
    exec (.imulMulhu sw d a b) s = out ((BitVec.ofNat 128 (x.toNat * y.toNat)).extractLsb' 64 64) ∧
    exec (.imulMulhsu sw d a b) s = out ((BitVec.ofInt 128 (x.toInt * (y.toNat : Int))).extractLsb' 64 64) ∧
    (y ≠ 0 →
      exec (.imulDiv sw d a b) s = late (BitVec.ofInt 64 (x.toInt.tdiv y.toInt)) ∧
      exec (.imulDivu sw d a b) s = late (BitVec.ofNat 64 (x.toNat / y.toNat)) ∧
      exec (.imulRem sw d a b) s = late (BitVec.ofInt 64 (x.toInt.tmod y.toInt)) ∧
      exec (.imulRemu sw d a b) s = late (BitVec.ofNat 64 (x.toNat % y.toNat))) ∧
    (y = 0 →
      exec (.imulDiv sw d a b) s = .next (s.raise 0x0F) ∧
      exec (.imulDivu sw d a b) s = .next (s.raise 0x0F) ∧
      exec (.imulRem sw d a b) s = .next (s.raise 0x0F) ∧
      exec (.imulRemu sw d a b) s = .next (s.raise 0x0F))

/-- The scalar ALU forms, with a register, with an immediate, and the upper immediate: `Claim.IaluResults`, `Claim.IaluiResults`, `Claim.LuiResult`. -/
def Obligations.ScalarAluResults : Prop :=
  Claim.IaluResults ∧ Claim.IaluiResults ∧ Claim.LuiResult

/-- The bit forms and the multiplications and divisions: `Claim.IbitResults`, `Claim.ImulResults`. -/
def Obligations.BitAndMultiplyResults : Prop :=
  Claim.IbitResults ∧ Claim.ImulResults

/-! ### Capabilities -/

/-- R138: the get forms write base, top and length modulo 2^65, PERM, SPACE and the tag as untagged values; they read an untagged
operand all the same. -/
def Claim.CapGetResults : Prop :=
  ∀ (s : State) (sw : Bool) (d a : SReg), s.Ready Accept.none [a] d →
    let c := s.rd a
    let out (q : Quad) : Out := .next (s.gives true sw d { bits := q, tag := false, label := s.lab a ||| s.t.clabel })
    exec (.capGetbase sw d a) s = out (BitVec.ofInt 128 (capBase c.bits % 2 ^ 65)) ∧
    exec (.capGettop sw d a) s = out (BitVec.ofInt 128 (capTop c.bits % 2 ^ 65)) ∧
    exec (.capGetlen sw d a) s = out (BitVec.ofInt 128 ((capTop c.bits - capBase c.bits) % 2 ^ 65)) ∧
    exec (.capGetperm sw d a) s = out ((c.bits.extractLsb' 68 12).setWidth 128) ∧
    exec (.capGetspace sw d a) s = out ((c.bits.extractLsb' 64 4).setWidth 128) ∧
    exec (.capGettag sw d a) s = out (if c.tag then 1 else 0)

/-- R139: the cursor forms give the capability a new cursor, modulo 2^64, and keep the tag only when the bounds decode to the same
base and top; no fault is raised. -/
def Claim.CapCursorResults : Prop :=
  ∀ (s : State) (sw : Bool) (d a b : SReg) (imm : BitVec 12),
    let c := s.rd a
    let moved (cursor : Word) (l : Label) : Val :=
      let q := c.bits.extractLsb' 64 64 ++ cursor
      { bits := q, tag := c.tag && decide (capBase q = capBase c.bits ∧ capTop q = capTop c.bits), label := l }
    let out (v : Val) : Out := .next (s.gives true sw d v)
    let off : Word := match s.t.pfxImm with
      | some ext => BitVec.signExtend 64 (ext ++ imm)
      | none => BitVec.signExtend 64 imm
    (s.Ready Accept.none [a, b] d →
      exec (.capSetcur sw d a b) s = out (moved (s.x b) (s.lab a ||| s.lab b ||| s.t.clabel)) ∧
      exec (.capAddcur sw d a b) s = out (moved (s.x a + s.x b) (s.lab a ||| s.lab b ||| s.t.clabel))) ∧
    (s.Ready Accept.immOnly [a] d →
      exec (.capiAddcur sw d a imm) s = out (moved (s.x a + off) (s.lab a ||| s.t.clabel)))

/-- R140: the narrowing forms raise capability tag on an untagged operand and bounds when the range from the cursor leaves the
operand's bounds, and otherwise, when the rounded range stays inside and is exact where the form asks for it, deliver the narrowed
capability, whose cursor, PERM and SPACE are the operand's and which is tagged. -/
def Claim.CapBoundsResults : Prop :=
  ∀ (s : State) (sw : Bool) (d a b : SReg) (imm : BitVec 12),
    let c := s.rd a
    let lo := capCursor c.bits
    let run (len : Nat) (exact : Bool) (l : Label) (o : Out) : Prop :=
      (c.tag = false → o = .next (s.raise 0x04)) ∧
      (c.tag = true → ((lo : Int) < capBase c.bits ∨ capTop c.bits < ((lo + len : Nat) : Int)) →
        o = .next (s.raise 0x05 0 (BitVec.ofNat 64 lo))) ∧
      (∀ v, narrow c len exact l = .ok v → o = .next (s.gives true sw d v) ∧ v.tag = true ∧ v.label = l ∧
        capCursor v.bits = lo ∧ capPerm v.bits = capPerm c.bits ∧ capSpace v.bits = capSpace c.bits) ∧
      (c.tag = true → (∀ v, narrow c len exact l ≠ .ok v) → o = .next (s.raise 0x05 0 (BitVec.ofNat 64 lo)))
    (s.Ready Accept.none [a, b] d →
      run (s.x b).toNat false (s.lab a ||| s.lab b ||| s.t.clabel) (exec (.capSetbnd sw d a b) s) ∧
      run (s.x b).toNat true (s.lab a ||| s.lab b ||| s.t.clabel) (exec (.capSetbndx sw d a b) s)) ∧
    (s.Ready Accept.immOnly [a] d →
      run (s.t.immZ 12 imm.toNat) false (s.lab a ||| s.t.clabel) (exec (.capiSetbnd sw d a imm) s) ∧
      run (s.t.immZ 12 imm.toNat) true (s.lab a ||| s.t.clabel) (exec (.capiSetbndx sw d a imm) s))

/-- R141: `cap.andperm` and `capi.andperm` keep the tag and set PERM to c.PERM & m, changing no other bit; `cap.setspace` raises
capability tag, reserved field, bounds or permission, or sets SPACE alone. -/
def Claim.CapPermResults : Prop :=
  ∀ (s : State) (sw : Bool) (d a b : SReg) (imm : BitVec 12),
    let c := s.rd a
    let sp := (s.x b).toNat % 16
    let perms (m : Nat) (l : Label) (o : Out) : Prop := ∃ v : Val, o = .next (s.gives true sw d v) ∧ v.tag = c.tag ∧ v.label = l ∧
      capPerm v.bits = capPerm c.bits &&& m ∧ capSpace v.bits = capSpace c.bits ∧ capCursor v.bits = capCursor c.bits ∧
      v.bits.extractLsb' 80 48 = c.bits.extractLsb' 80 48
    (s.Ready Accept.none [a, b] d →
      perms ((s.x b).toNat % 4096) (s.lab a ||| s.lab b ||| s.t.clabel) (exec (.capAndperm sw d a b) s) ∧
      (c.tag = false → exec (.capSetspace sw d a b) s = .next (s.raise 0x04)) ∧
      (c.tag = true → 7 ≤ sp → exec (.capSetspace sw d a b) s = .next (s.raise 0x02 1)) ∧
      (c.tag = true → sp < 7 → sp = capSpace c.bits →
        exec (.capSetspace sw d a b) s = .next (s.gives true sw d { c with label := s.lab a ||| s.lab b ||| s.t.clabel })) ∧
      (c.tag = true → sp < 7 → sp ≠ capSpace c.bits → capSpace c.bits = 0 → ∀ w, spaceWin sp = some w →
        ((w.lo : Int) ≤ capBase c.bits ∧ capTop c.bits ≤ (w.hi : Int) →
          exec (.capSetspace sw d a b) s = .next (s.gives true sw d
            { bits := c.bits + BitVec.ofNat 128 (sp * 2 ^ 64), tag := true, label := s.lab a ||| s.lab b ||| s.t.clabel })) ∧
        (¬((w.lo : Int) ≤ capBase c.bits ∧ capTop c.bits ≤ (w.hi : Int)) →
          exec (.capSetspace sw d a b) s = .next (s.raise 0x05 0 (s.x a)))) ∧
      (c.tag = true → sp < 7 → sp ≠ capSpace c.bits → (capSpace c.bits ≠ 0 ∨ spaceWin sp = none) →
        exec (.capSetspace sw d a b) s = .next (s.raise 0x06 0 (s.x a)))) ∧
    (s.Ready Accept.immOnly [a] d →
      perms imm.toNat (s.lab a ||| s.t.clabel) (exec (.capiAndperm sw d a imm) s))

/-! ### Branches, jumps, calls, labels and hints -/

/-- R142, R50: a branch sets the pc to its own address plus four times the offset when its condition holds, to the next word when it
does not; the control label rises by the labels of both operands in either case. -/
def Claim.BranchResults : Prop :=
  ∀ (s : State) (sw : Bool) (a b : SReg) (off : BitVec 12), s.Ready Accept.immOnly [a, b] .zero →
    let x := s.x a
    let y := s.x b
    let words : Word := match s.t.pfxImm with
      | some ext => BitVec.signExtend 64 (ext ++ off)
      | none => BitVec.signExtend 64 off
    let after : State := { s with t := { s.t with clabel := s.t.clabel ||| (s.lab a ||| s.lab b), predict := none } }
    let out (c : Prop) (o : Out) : Prop :=
      (c → o = .next (after.finishAt sw (s.t.pc + 4 * words))) ∧ (¬c → o = .next (after.finishAt sw (s.t.pc + 4)))
    out (x = y) (exec (.brEq sw a b off) s) ∧ out (x ≠ y) (exec (.brNe sw a b off) s) ∧
    out (x.toInt < y.toInt) (exec (.brLt sw a b off) s) ∧ out (y.toInt ≤ x.toInt) (exec (.brGe sw a b off) s) ∧
    out (x.toNat < y.toNat) (exec (.brLtu sw a b off) s) ∧ out (y.toNat ≤ x.toNat) (exec (.brGeu sw a b off) s) ∧
    out (x &&& y ≠ 0) (exec (.brBset sw a b off) s) ∧ out (x &&& y = 0) (exec (.brBclr sw a b off) s)

/-- R143: `jmp` sets the pc to its target; `call` does the same and writes into G[15], through the group write buffer, a tagged
capability of space 1 with EXEC alone whose cursor is the address after the call and whose bounds are its four bytes, under the
control label. -/
def Claim.JumpResults : Prop :=
  ∀ (s : State) (sw : Bool) (off : BitVec 25),
    let goal := s.t.pc + 4 * BitVec.signExtend 64 off
    let ret := s.t.pc + 4
    (s.Ready Accept.none [] .zero → exec (.jmp sw off) s = .next (s.finishAt sw goal)) ∧
    (s.Ready Accept.none [] (.g 15) → ∃ v : Val,
      exec (.call sw off) s = .next (State.finishAt { s with t := { s.t with buf := s.t.buf ++ [.g 15 v] } } sw goal) ∧
      v.tag = true ∧ v.label = s.t.clabel ∧ v.bits.extractLsb' 0 64 = ret ∧ capSpace v.bits = 1 ∧ capPerm v.bits = pEXEC ∧
      capE v.bits = 0 ∧ capB v.bits = ret.toNat % 2 ^ 20 ∧ capT v.bits = (ret.toNat + 4) % 2 ^ 20)

/-- R144: a register jump checks its capability in the order of the rule and raises the cause of the first failure; when every check
passes, the control label rises by the label of G[a], the pc becomes the cursor, and `jr.link` writes a return capability under the
control label, its destination ZERO writing nothing. -/
def Claim.RegisterJumpResults : Prop :=
  ∀ (s : State) (sw : Bool) (d a : SReg),
    let c := s.rd a
    let at_ := capCursor c.bits
    let checks (go : Out → Prop) (o : Out) : Prop :=
      (c.tag = false → o = .next (s.raise 0x04)) ∧
      (c.tag = true →
        (¬((capSpace c.bits = 0 ∨ capSpace c.bits = 1) ∧ hasPerm c.bits pEXEC = true ∧ winOf at_ = some .glob) →
          o = .next (s.raise 0x06 0 (BitVec.ofNat 64 at_))) ∧
        ((capSpace c.bits = 0 ∨ capSpace c.bits = 1) → hasPerm c.bits pEXEC = true → winOf at_ = some .glob →
          (¬(capBase c.bits ≤ at_ ∧ (at_ : Int) + 4 ≤ capTop c.bits) → o = .next (s.raise 0x05 0 (BitVec.ofNat 64 at_))) ∧
          (capBase c.bits ≤ at_ → (at_ : Int) + 4 ≤ capTop c.bits →
            (at_ % 4 ≠ 0 → o = .next (s.raise 0x08 0 (BitVec.ofNat 64 at_))) ∧ (at_ % 4 = 0 → go o))))
    let up := s.t.clabel ||| c.label
    (s.Ready Accept.none [a] .zero →
      checks (fun o => o = .next (State.finishAt { s with t := { s.t with clabel := up } } sw (s.x a))) (exec (.jrGo sw a) s)) ∧
    (s.Ready Accept.none [a] d →
      checks (fun o => o = .next (State.finishAt { s with t := { s.t with clabel := up, buf := (match d with
        | .g n => s.t.buf ++ [.g n (returnCap (s.t.pc + 4) up)]
        | _ => s.t.buf) } } sw (s.x a))) (exec (.jrLink sw d a) s))

/-- R148: the label forms. None of them lowers a label. -/
def Claim.LabelResults : Prop :=
  ∀ (s : State) (sw : Bool) (d a b : SReg),
    let out (v : Val) : Out := .next (s.gives true sw d v)
    (s.Ready Accept.none [a] d →
      exec (.lblGet sw d a) s = out { bits := (s.lab a).setWidth 128, tag := false, label := s.lab a ||| s.t.clabel }) ∧
    (s.Ready Accept.none [] d →
      exec (.lblCtl sw d) s = out { bits := s.t.clabel.setWidth 128, tag := false, label := s.t.clabel }) ∧
    (s.Ready Accept.none [a, b] d →
      exec (.lblRaise sw d a b) s = out {
        bits := (s.rd a).bits, tag := (s.rd a).tag,
        label := s.lab a ||| s.lab b ||| s.t.clabel ||| (s.x b).setWidth 16 } ∧
      exec (.lblSub sw d a b) s = out {
        bits := if ∀ i : Fin 16, (s.lab a).getLsbD i = true → (s.x b).getLsbD i = true then 1 else 0,
        tag := false, label := s.lab a ||| s.lab b ||| s.t.clabel })

/-- R104, R105, R149, R150: a prefix leaves its fields for the next word and writes nothing else; a second hint.imm, and a hint.mod,
hint.sched or hint.br behind a prefix, make the unit illegal; hint.sched offers the task to be passed over for DEFER rounds and
hint.br leaves its prediction. -/
def Claim.HintResults : Prop :=
  ∀ (s : State) (sw : Bool) (ext : BitVec 20) (n : BitVec 6) (mig : Mig) (msk : Option (BitVec 2)) (neg taken : Bool),
    (s.t.pfxImm = none →
      exec (.hintImm ext) s = .next { s with t := { s.t with pfxImm := some ext, pc := s.t.pc + 4 } }) ∧
    (s.t.pfxImm ≠ none → exec (.hintImm ext) s = .next (s.raise 0x01)) ∧
    (s.t.pfxImm = none → s.t.pfxMod = none →
      exec (.hintMod mig msk neg) s = .next { s with t := { s.t with pfxMod := some { mig, msk, neg }, pc := s.t.pc + 4 } } ∧
      exec (.hintSched sw n) s = .next (State.finish { s with t := { s.t with passOver := n } } sw) ∧
      exec (.hintBr sw taken) s = .next (State.finish { s with t := { s.t with predict := some taken } } sw)) ∧
    (s.t.pfxImm ≠ none ∨ s.t.pfxMod ≠ none →
      exec (.hintMod mig msk neg) s = .next (s.raise 0x01) ∧
      exec (.hintSched sw n) s = .next (s.raise 0x01) ∧
      exec (.hintBr sw taken) s = .next (s.raise 0x01))

/-- The forms that read a capability and those that move its cursor: `Claim.CapGetResults`, `Claim.CapCursorResults`. -/
def Obligations.CapabilityReadResults : Prop :=
  Claim.CapGetResults ∧ Claim.CapCursorResults

/-- The forms that narrow the bounds, the permissions or the space of a capability: `Claim.CapBoundsResults`, `Claim.CapPermResults`. -/
def Obligations.CapabilityNarrowResults : Prop :=
  Claim.CapBoundsResults ∧ Claim.CapPermResults

/-- Branches, jumps and calls, and register jumps: `Claim.BranchResults`, `Claim.JumpResults`, `Claim.RegisterJumpResults`. -/
def Obligations.ControlFlowResults : Prop :=
  Claim.BranchResults ∧ Claim.JumpResults ∧ Claim.RegisterJumpResults

/-- The label forms and the hint words: `Claim.LabelResults`, `Claim.HintResults`. -/
def Obligations.LabelAndHintResults : Prop :=
  Claim.LabelResults ∧ Claim.HintResults

/-! ### Scalar floating point -/

/-- R145 to R147, R58, with R54 and R56 for the values: an fpu or fcvt form raises its flags into TSW; a flag whose enable is set in
TSW.FPEN raises FP trap without writing a destination; otherwise the result is delivered untagged, with the bits above the format's
width zero, and no latch is written. -/
def Obligations.FpuResults : Prop :=
  ∀ (s : State) (sw : Bool) (d a b : SReg) (fmt : SFmt),
    let F := sfmtF fmt
    let rm := s.t.tsw.toNat / 2 ^ 10 % 4
    let x := (s.rd a).bits.toNat % 2 ^ F.width
    let y := (s.rd b).bits.toNat % 2 ^ F.width
    let z := (s.rd d).bits.toNat % 2 ^ F.width
    let top := 2 ^ (F.width - 1)
    let run (l : Label) (r : Nat × Nat) (o : Out) : Prop :=
      let flagged : State := { s with t := s.t.orFlags r.2 l }
      (s.t.tsw.toNat / 2 ^ 5 % 32 &&& r.2 ≠ 0 → o = .next (flagged.raise 0x10 r.2)) ∧
      (s.t.tsw.toNat / 2 ^ 5 % 32 &&& r.2 = 0 →
        o = .next (flagged.gives false sw d { bits := BitVec.ofNat 128 r.1, tag := false, label := l }))
    let l1 := s.lab a ||| s.t.clabel
    let l2 := s.lab a ||| s.lab b ||| s.t.clabel
    let truth (c : Bool × Nat) : Nat × Nat := (if c.1 then 1 else 0, c.2)
    (s.Ready Accept.none [a, b] d →
      run l2 (fadd F rm x y) (exec (.fpuAdd sw d a b fmt) s) ∧
      run l2 (fsub F rm x y) (exec (.fpuSub sw d a b fmt) s) ∧
      run l2 (fmul F rm x y) (exec (.fpuMul sw d a b fmt) s) ∧
      run l2 (fdiv F rm x y) (exec (.fpuDiv sw d a b fmt) s) ∧
      run l2 (fminmax F false x y) (exec (.fpuMin sw d a b fmt) s) ∧
      run l2 (fminmax F true x y) (exec (.fpuMax sw d a b fmt) s) ∧
      run l2 (x % top + y / top * top, 0) (exec (.fpuSgnj sw d a b fmt) s) ∧
      run l2 (truth (fcmpeq F x y)) (exec (.fpuCmpeq sw d a b fmt) s) ∧
      run l2 (truth (fcmplt F false x y)) (exec (.fpuCmplt sw d a b fmt) s) ∧
      run l2 (truth (fcmplt F true x y)) (exec (.fpuCmple sw d a b fmt) s)) ∧
    (s.Ready Accept.none [a] d →
      run l1 (fsqrt F rm x) (exec (.fpuSqrt sw d a fmt) s) ∧
      run l1 (if x < top then x + top else x - top, 0) (exec (.fpuNeg sw d a fmt) s) ∧
      run l1 (x % top, 0) (exec (.fpuAbs sw d a fmt) s) ∧
      run l1 (fclass F x, 0) (exec (.fpuClass sw d a fmt) s) ∧
      ∀ dst src, run l1 (convertScalar rm dst src (s.rd a).bits.toNat) (exec (.fcvt sw d a dst src) s)) ∧
    (s.Ready Accept.none [a, b, d] d →
      run (l2 ||| s.lab d) (ffma F rm x y z) (exec (.fpuFma sw d a b fmt) s))

/-! ### Vectors -/

/-- What a vector ALU form does whose sources `srcs` carry `tag` and whose element i is `f i`, a result and its flags (R219, R220): a
source with another tag, or, under a mask, an old destination with another tag that is not NONE, raises format tag; a flag whose trap
is enabled raises FP trap without a write; otherwise the elements that the mask selects take the result, the others keep the old
value, and LV and the destination entry take the row. -/
def vectorRun (s : State) (an : Anchor) (sw : Bool) (d : VReg) (srcs : List VReg) (extra : Label) (tag : FTag) (f : Nat → Nat × Nat)
    (o : Out) : Prop :=
  let n := (tagLanes tag).1
  let w := (tagLanes tag).2
  let mask := s.prefixMask an
  let sel (i : Nat) : Bool := mask.all (fun m => m.selects n i)
  let old := match d with
    | .o k => an.o[k.toNat]?.getD Entry.zero
    | _ => an.lv
  let sources := srcs.foldl (fun l r => l ||| (an.rd r).label) (s.t.clabel ||| extra)
  let lab := match mask with
    | some m => sources ||| m.label ||| old.label
    | none => sources
  let fl := (rangeFrom 0 n).foldl (fun acc i => if sel i then acc ||| (f i).2 else acc) 0
  let flagged : State := { s with t := s.t.orFlags fl lab }
  ((∃ r ∈ srcs, r ≠ .zv ∧ (an.rd r).fmt ≠ tag) → o = .next (s.raise 0x03)) ∧
  ((∀ r ∈ srcs, r = .zv ∨ (an.rd r).fmt = tag) →
    (mask.isSome = true → old.fmt ≠ .none → old.fmt ≠ tag → o = .next (s.raise 0x03)) ∧
    ((mask.isSome = true → old.fmt = .none ∨ old.fmt = tag) →
      (s.t.tsw.toNat / 2 ^ 5 % 32 &&& fl ≠ 0 → o = .next (flagged.raise 0x10 fl)) ∧
      (s.t.tsw.toNat / 2 ^ 5 % 32 &&& fl = 0 → ∃ bits : Row,
        o = .next (flagged.givesV an sw d { bits, fmt := tag, label := lab }) ∧
        ∀ i, i < n → lane bits w i =
          if sel i then (f i).1 % 2 ^ w else if old.fmt = .none then 0 else lane old.bits w i)))

/-- R221, R220: the arithmetic forms of `vfp`, element by element under the rounding mode of TSW. -/
def Claim.VfpResults : Prop :=
  ∀ (s : State) (an : Anchor) (sw : Bool) (d a b c : VReg) (fmt : VFmt), s.ReadyV an Accept.mskOnly (vrWrites d) →
    let F := vfmtF fmt
    let rm := s.t.tsw.toNat / 2 ^ 10 % 4
    let x := an.el a F.width
    let y := an.el b F.width
    let top := 2 ^ (F.width - 1)
    let run2 (f : Nat → Nat → Nat × Nat) (o : Out) : Prop := vectorRun s an sw d [a, b] 0 (vfmtTag fmt) (fun i => f (x i) (y i)) o
    let run1 (f : Nat → Nat × Nat) (o : Out) : Prop := vectorRun s an sw d [a] 0 (vfmtTag fmt) (fun i => f (x i)) o
    run2 (fadd F rm) (exec (.vfpAdd sw d a b fmt) s) ∧ run2 (fsub F rm) (exec (.vfpSub sw d a b fmt) s) ∧
    run2 (fmul F rm) (exec (.vfpMul sw d a b fmt) s) ∧ run2 (fdiv F rm) (exec (.vfpDiv sw d a b fmt) s) ∧
    run2 (fminmax F false) (exec (.vfpMin sw d a b fmt) s) ∧ run2 (fminmax F true) (exec (.vfpMax sw d a b fmt) s) ∧
    run1 (fun v => (v % top, 0)) (exec (.vfpAbs sw d a fmt) s) ∧
    run1 (fun v => (if v < top then v + top else v - top, 0)) (exec (.vfpNeg sw d a fmt) s) ∧
    run1 (fsqrt F rm) (exec (.vfpSqrt sw d a fmt) s) ∧
    vectorRun s an sw d [a, b, c] 0 (vfmtTag fmt) (fun i => ffma F rm (x i) (y i) (an.el c F.width i)) (exec (.vfpFma sw d a b c fmt) s)

/-- R223, R220: the arithmetic and logic forms of `vint` on elements of n bits; no flag is raised. -/
def Claim.VintResults : Prop :=
  ∀ (s : State) (an : Anchor) (sw : Bool) (d a b : VReg) (fmt : IFmt), s.ReadyV an Accept.mskOnly (vrWrites d) →
    let n := ifmtWidth fmt
    let num := intOf (ifmtSigned fmt) n
    let lo := intLo (ifmtSigned fmt) n
    let hi := intHi (ifmtSigned fmt) n
    let mod (v : Int) : Nat := (v % 2 ^ n).toNat
    let run (f : Nat → Nat → Nat) (o : Out) : Prop :=
      vectorRun s an sw d [a, b] 0 (ifmtTag fmt) (fun i => (f (an.el a n i) (an.el b n i), 0)) o
    run (fun x y => mod (x + y)) (exec (.vintAdd sw d a b fmt) s) ∧ run (fun x y => mod ((x : Int) - y)) (exec (.vintSub sw d a b fmt) s) ∧
    run (fun x y => mod (x * y)) (exec (.vintMul sw d a b fmt) s) ∧
    run (fun x y => mod (max lo (min hi (num x + num y)))) (exec (.vintAdds sw d a b fmt) s) ∧
    run (fun x y => mod (max lo (min hi (num x - num y)))) (exec (.vintSubs sw d a b fmt) s) ∧
    run (fun x y => mod (min (num x) (num y))) (exec (.vintMin sw d a b fmt) s) ∧
    run (fun x y => mod (max (num x) (num y))) (exec (.vintMax sw d a b fmt) s) ∧
    run (fun x y => x &&& y) (exec (.vintAnd sw d a b fmt) s) ∧ run (fun x y => x ||| y) (exec (.vintOr sw d a b fmt) s) ∧
    run (fun x y => x ^^^ y) (exec (.vintXor sw d a b fmt) s) ∧
    run (fun x y => x * 2 ^ (y % n)) (exec (.vintSll sw d a b fmt) s) ∧ run (fun x y => x / 2 ^ (y % n)) (exec (.vintSrl sw d a b fmt) s) ∧
    run (fun x y => mod (signed n x / 2 ^ (y % n))) (exec (.vintSra sw d a b fmt) s)

/-- R222: a compare writes bit i of the named mask with the relation at element i and 0 from the row width up, under the labels of
both sources and the control label, and writes no latch and no entry; `sel` takes element i of va where bit i of the mask is 1 and of
vb where it is 0, and the mask's label joins. -/
def Claim.VectorCompareResults : Prop :=
  ∀ (s : State) (an : Anchor) (sw : Bool) (d a b : VReg) (mk : BitVec 2) (fmt : VFmt) (ifmt : IFmt),
    let compare (tag : FTag) (f : Nat → Nat → Bool × Nat) (o : Out) : Prop :=
      let n := (tagLanes tag).1
      let w := (tagLanes tag).2
      let lab := s.t.clabel ||| (an.rd a).label ||| (an.rd b).label
      let fl := (rangeFrom 0 n).foldl (fun acc i => acc ||| (f (an.el a w i) (an.el b w i)).2) 0
      let flagged : State := { s with t := s.t.orFlags fl lab }
      ((a ≠ .zv ∧ (an.rd a).fmt ≠ tag) ∨ (b ≠ .zv ∧ (an.rd b).fmt ≠ tag) → o = .next (s.raise 0x03)) ∧
      ((a = .zv ∨ (an.rd a).fmt = tag) → (b = .zv ∨ (an.rd b).fmt = tag) →
        (s.t.tsw.toNat / 2 ^ 5 % 32 &&& fl ≠ 0 → o = .next (flagged.raise 0x10 fl)) ∧
        (s.t.tsw.toNat / 2 ^ 5 % 32 &&& fl = 0 → ∃ q : Quad,
          o = .next (State.finish { flagged with t := { flagged.t with
            anchor := some { an with m := an.m.setIfInBounds mk.toNat { bits := q, label := lab } } } } sw) ∧
          ∀ i, i < 128 → q.getLsbD i = (decide (i < n) && (f (an.el a w i) (an.el b w i)).1)))
    (s.ReadyV an Accept.none false →
      compare (vfmtTag fmt) (fcmpeq (vfmtF fmt)) (exec (.vfpCmpeq sw a b mk fmt) s) ∧
      compare (vfmtTag fmt) (fcmplt (vfmtF fmt) false) (exec (.vfpCmplt sw a b mk fmt) s) ∧
      compare (vfmtTag fmt) (fcmplt (vfmtF fmt) true) (exec (.vfpCmple sw a b mk fmt) s) ∧
      (ifmt ≠ .i8 →
        compare (ifmtTag ifmt) (fun x y => (x == y, 0)) (exec (.vintCmpeq sw a b mk ifmt) s) ∧
        compare (ifmtTag ifmt) (fun x y => (decide (intOf (ifmtSigned ifmt) (ifmtWidth ifmt) x < intOf (ifmtSigned ifmt) (ifmtWidth ifmt) y), 0))
          (exec (.vintCmplt sw a b mk ifmt) s))) ∧
    (s.ReadyV an Accept.none (vrWrites d) →
      let m := an.m[mk.toNat]?.getD Mask.ones
      let pick (w i : Nat) : Nat × Nat := (if m.bits.getLsbD i then an.el a w i else an.el b w i, 0)
      vectorRun s an sw d [a, b] m.label (vfmtTag fmt) (pick (vfmtF fmt).width) (exec (.vfpSel sw d a b mk fmt) s) ∧
      (ifmt ≠ .i8 → vectorRun s an sw d [a, b] m.label (ifmtTag ifmt) (pick (ifmtWidth ifmt)) (exec (.vintSel sw d a b mk ifmt) s)))

/-- R224: the six special functions, element by element. Which of the two values that R70 allows a finite result takes is free
(`Config.vsfThreshold`, log entry 6), so the statement holds for either. -/
def Claim.VsfResults : Prop :=
  ∀ (s : State) (an : Anchor) (sw : Bool) (d a : VReg) (fmt : VFmt), s.ReadyV an Accept.mskOnly (vrWrites d) →
    let F := vfmtF fmt
    let run (f : FFmt → Nat → Nat → Nat × Nat) (o : Out) : Prop :=
      vectorRun s an sw d [a] 0 (vfmtTag fmt) (fun i => f F (VFmt.code fmt) (an.el a F.width i)) o
    run vexp2 (exec (.vsfExp2 sw d a fmt) s) ∧ run vlog2 (exec (.vsfLog2 sw d a fmt) s) ∧ run vexp (exec (.vsfExp sw d a fmt) s) ∧
    run vlog (exec (.vsfLog sw d a fmt) s) ∧ run vrcp (exec (.vsfRcp sw d a fmt) s) ∧ run vrsqrt (exec (.vsfRsqrt sw d a fmt) s)

/-- R225, R226: a conversion to or from RAW keeps the 256 bytes under the new tag without a flag; a conversion between two formats of one
row width converts element by element; a widening one converts the named half of the row, a narrowing one fills the named half and
keeps the other elements of the old value; the conversions between BF16 and a BQ format deliver an entry of the destination's tag. No
flag's trap is enabled, or none is raised, in the cases stated. -/
def Claim.VcvtResults : Prop :=
  ∀ (s : State) (an : Anchor) (sw : Bool) (d a : VReg) (dst src : FTag) (hi : Bool) (g : BitVec 4), s.ReadyV an Accept.none (vrWrites d) →
    (a = .zv ∨ (an.rd a).fmt = src) → dst ≠ src →
    let rm := s.t.tsw.toNat / 2 ^ 10 % 4
    let fpen := s.t.tsw.toNat / 2 ^ 5 % 32
    let lab := s.t.clabel ||| (an.rd a).label
    let h := if hi then 1 else 0
    let old := match d with
      | .o k => an.o[k.toNat]?.getD Entry.zero
      | _ => an.lv
    let given (fl : Nat) (l : Label) (e : Entry) : Out := .next (State.givesV { s with t := s.t.orFlags fl l } an sw d e)
    ((dst = .raw ∧ src ≠ .none ∨ src = .raw ∧ dst ≠ .none) →
      exec (.vcvt sw d a 0 dst src false) s = .next (s.givesV an sw d { bits := (an.rd a).bits, fmt := dst, label := lab })) ∧
    (∀ n, dst.width = some n → src.width = some n → fpen = 0 → ∃ (bits : Row) (fl : Nat),
        exec (.vcvt sw d a 0 dst src false) s = given fl lab { bits, fmt := dst, label := lab } ∧
        ∀ i, i < n → lane bits (2048 / n) i = (convertEl rm dst src (an.el a (2048 / n) i)).1 % 2 ^ (2048 / n)) ∧
    (∀ n, dst.width = some n → src.width = some (2 * n) → fpen = 0 → ∃ (bits : Row) (fl : Nat),
        exec (.vcvt sw d a 0 dst src hi) s = given fl lab { bits, fmt := dst, label := lab } ∧
        ∀ i, i < n → lane bits (2048 / n) i = (convertEl rm dst src (an.el a (1024 / n) (i + h * n))).1 % 2 ^ (2048 / n)) ∧
    (∀ n, dst.width = some (2 * n) → src.width = some n → fpen = 0 →
      (old.fmt ≠ .none → old.fmt ≠ dst → exec (.vcvt sw d a 0 dst src hi) s = .next (s.raise 0x03)) ∧
      (old.fmt = .none ∨ old.fmt = dst → ∃ (bits : Row) (fl : Nat),
        exec (.vcvt sw d a 0 dst src hi) s = given fl (lab ||| old.label) { bits, fmt := dst, label := lab ||| old.label } ∧
        ∀ i, i < 2 * n → lane bits (1024 / n) i =
          if i / n = h then (convertEl rm dst src (an.el a (2048 / n) (i - h * n))).1 % 2 ^ (1024 / n)
          else if old.fmt = .none then 0 else lane old.bits (1024 / n) i)) ∧
    (dst = .bf16 → src.isBq = true → fpen = 0 → ∃ (bits : Row) (fl : Nat),
      exec (.vcvt sw d a g dst src false) s = given fl lab { bits, fmt := dst, label := lab }) ∧
    (dst.isBq = true → src = .bf16 → fpen = 0 →
      (old.fmt ≠ .none → old.fmt ≠ dst → exec (.vcvt sw d a g dst src false) s = .next (s.raise 0x03)) ∧
      (old.fmt = .none ∨ old.fmt = dst → ∃ (bits : Row) (fl : Nat),
        exec (.vcvt sw d a g dst src false) s = given fl (lab ||| old.label) { bits, fmt := dst, label := lab ||| old.label }))

/-- R227: the moves. `get` reads a row with its tile's tag and label, `put` writes one, `copy` copies an entry or broadcasts a lane,
`clr` writes zero bits under the tile's tag; the control label joins, a source or a read tile tagged NONE raises
format tag, and a poisoned row raises poison consumed with one of the places of R352, whichever it is (log entry 128). -/
def Claim.VmovResults : Prop :=
  ∀ (s : State) (an : Anchor) (sw : Bool) (n : BitVec 3) (a : VReg) (tile : BitVec 3) (row : BitVec 6) (k : BitVec 8),
    s.ReadyV an Accept.none true →
    let t := s.c.tiles[tile.toNat]?.getD Tile.zero
    let e := an.rd a
    let lab := e.label ||| s.t.clabel
    (an.tiles.getLsbD tile.toNat = false →
      exec (.vmovGet sw (.o n) tile row) s = .next (s.raise 0x01) ∧ exec (.vmovPut sw a tile row) s = .next (s.raise 0x01) ∧
      exec (.vmovClr sw tile row) s = .next (s.raise 0x01)) ∧
    (an.tiles.getLsbD tile.toNat = true → s.busyTiles.getLsbD tile.toNat = true →
      exec (.vmovGet sw (.o n) tile row) s = .next (s.park (.tiles (BitVec.ofNat 8 (2 ^ tile.toNat))))) ∧
    (an.tiles.getLsbD tile.toNat = true → s.busyTiles.getLsbD tile.toNat = false →
      (t.fmt = .none → exec (.vmovGet sw (.o n) tile row) s = .next (s.raise 0x03)) ∧
      (t.fmt ≠ .none → t.poison.getLsbD row.toNat = true → ∃ place, 1 ≤ place ∧ place ≤ 6 ∧
        exec (.vmovGet sw (.o n) tile row) s = .next (s.raise 0x18 place)) ∧
      (t.fmt ≠ .none → t.poison.getLsbD row.toNat = false →
        exec (.vmovGet sw (.o n) tile row) s =
          .next (s.givesB sw (.o n { bits := t.rows[row.toNat]?.getD 0, fmt := t.fmt, label := t.label ||| s.t.clabel })))) ∧
    (an.tiles.getLsbD tile.toNat = true →
      (e.fmt = .none ∨ (s.tileTag tile ≠ .none ∧ s.tileTag tile ≠ e.fmt) → exec (.vmovPut sw a tile row) s = .next (s.raise 0x03)) ∧
      (e.fmt ≠ .none → (s.tileTag tile = .none ∨ s.tileTag tile = e.fmt) →
        exec (.vmovPut sw a tile row) s = .next (s.givesB sw (.row tile row { bits := e.bits, fmt := e.fmt, label := lab }))) ∧
      exec (.vmovClr sw tile row) s =
        .next (s.givesB sw (.row tile row { bits := 0, fmt := s.tileTag tile, label := s.t.clabel }))) ∧
    (e.fmt = .none → exec (.vmovCopy sw (.o n) a none) s = .next (s.raise 0x03)) ∧
    (e.fmt ≠ .none → exec (.vmovCopy sw (.o n) a none) s = .next (s.givesB sw (.o n { bits := e.bits, fmt := e.fmt, label := lab }))) ∧
    (e.fmt.width = none → exec (.vmovCopy sw (.o n) a (some k)) s = .next (s.raise 0x03)) ∧
    (∀ w, e.fmt.width = some w →
      (w ≤ k.toNat → exec (.vmovCopy sw (.o n) a (some k)) s = .next (s.raise 0x01)) ∧
      (k.toNat < w → ∃ bits : Row,
        exec (.vmovCopy sw (.o n) a (some k)) s = .next (s.givesB sw (.o n { bits, fmt := e.fmt, label := lab })) ∧
        ∀ i, i < w → lane bits (2048 / w) i = lane e.bits (2048 / w) k.toNat))

/-- R228, R229: `vred` replaces element j mod w of va by the reduction of row j of the tile, under the labels of va, the tile and the
control label; `vred.rowstat` puts one entry into the buffer that names three operand entries, without a latch. -/
def Claim.VredResults : Prop :=
  ∀ (s : State) (an : Anchor) (sw : Bool) (d a : VReg) (n : BitVec 3) (tile : BitVec 3) (row : BitVec 6) (fmt : RFmt),
    let t := s.c.tiles[tile.toNat]?.getD Tile.zero
    let tag := rfmtTag fmt
    let rm := s.t.tsw.toNat / 2 ^ 10 % 4
    let fpen := s.t.tsw.toNat / 2 ^ 5 % 32
    let lab := s.t.clabel ||| (an.rd a).label ||| t.label
    let run (op : Nat) (o : Out) : Prop :=
      let r := reduceRow op tag rm (t.rows[row.toNat]?.getD 0)
      (t.fmt ≠ tag ∨ (a ≠ .zv ∧ (an.rd a).fmt ≠ tag) → o = .next (s.raise 0x03)) ∧
      (t.fmt = tag → (a = .zv ∨ (an.rd a).fmt = tag) → t.poison.getLsbD row.toNat = false →
        (fpen &&& r.2 ≠ 0 → o = .next (State.raise { s with t := s.t.orFlags r.2 lab } 0x10 r.2)) ∧
        (fpen &&& r.2 = 0 → ∃ bits : Row,
          o = .next (State.givesV { s with t := s.t.orFlags r.2 lab } an sw d { bits, fmt := tag, label := lab }) ∧
          ∀ i, i < (tagLanes tag).1 → lane bits (tagLanes tag).2 i =
            if i = row.toNat % (tagLanes tag).1 then r.1 % 2 ^ (tagLanes tag).2 else an.el a (tagLanes tag).2 i))
    an.tiles.getLsbD tile.toNat = true → s.busyTiles.getLsbD tile.toNat = false →
    (s.ReadyV an Accept.none (vrWrites d) →
      run 0 (exec (.vredSum sw d a tile row fmt) s) ∧ run 1 (exec (.vredMax sw d a tile row fmt) s) ∧
      run 2 (exec (.vredMin sw d a tile row fmt) s)) ∧
    (s.ReadyV an Accept.none true → (fmt = .f32 ∨ fmt = .bf16 ∨ fmt = .f16) →
      (t.fmt ≠ tag → exec (.vredRowstat sw (.o n) tile fmt) s = .next (s.raise 0x03)) ∧
      (t.fmt = tag → t.poison = 0 → fpen = 0 → ∃ (fl : Nat) (m p q : Entry),
        exec (.vredRowstat sw (.o n) tile fmt) s = .next (State.givesB
          { s with t := s.t.orFlags fl (t.label ||| s.t.clabel) } sw (.stat n m p q)) ∧
        (∀ e ∈ [m, p, q], e.fmt = .fp32 ∧ e.label = t.label ||| s.t.clabel) ∧
        ∀ j, j < 64 → lane p.bits 32 j = (sumNums FFmt.fp32 rm ((rangeFrom 0 (tagLanes tag).1).map
          (fun i => FFmt.decode (vfmtF (match fmt with | .f32 => .f32 | .bf16 => .bf16 | _ => .f16))
            (lane (t.rows[j]?.getD 0) (tagLanes tag).2 i)))).1 % 2 ^ 32))

/-- The floating and the integer vector forms: `Claim.VfpResults`, `Claim.VintResults`. -/
def Obligations.VectorArithmeticResults : Prop :=
  Claim.VfpResults ∧ Claim.VintResults

/-- The vector comparisons and the vector moves: `Claim.VectorCompareResults`, `Claim.VmovResults`. -/
def Obligations.VectorMoveResults : Prop :=
  Claim.VectorCompareResults ∧ Claim.VmovResults

/-- Special functions, conversions and reductions of vectors: `Claim.VsfResults`, `Claim.VcvtResults`, `Claim.VredResults`. -/
def Obligations.VectorFunctionResults : Prop :=
  Claim.VsfResults ∧ Claim.VcvtResults ∧ Claim.VredResults

/-! ### Issue, groups and traps -/

/-- The scalar forms whose checks at issue are the common ones: the prefixes that they accept, their sources, their destination. -/
def scalarForm : Instr → Option (Accept × List SReg × SReg)
  | .ialuAdd _ d a b | .ialuSub _ d a b | .ialuAnd _ d a b | .ialuOr _ d a b | .ialuXor _ d a b | .ialuAndn _ d a b | .ialuSll _ d a b
  | .ialuSrl _ d a b | .ialuSra _ d a b | .ialuSlt _ d a b | .ialuSltu _ d a b | .ialuMin _ d a b | .ialuMax _ d a b | .ialuMinu _ d a b
  | .ialuMaxu _ d a b | .ibitSext _ d a b | .ibitZext _ d a b | .ibitBext _ d a b | .ibitRol _ d a b | .ibitRor _ d a b
  | .imulMul _ d a b | .imulMulh _ d a b | .imulMulhu _ d a b | .imulMulhsu _ d a b | .imulDiv _ d a b | .imulDivu _ d a b
  | .imulRem _ d a b | .imulRemu _ d a b | .capSetcur _ d a b | .capAddcur _ d a b | .capSetbnd _ d a b | .capSetbndx _ d a b
  | .capAndperm _ d a b | .capSetspace _ d a b | .lblRaise _ d a b | .lblSub _ d a b | .fpuAdd _ d a b _ | .fpuSub _ d a b _
  | .fpuMul _ d a b _ | .fpuDiv _ d a b _ | .fpuMin _ d a b _ | .fpuMax _ d a b _ | .fpuSgnj _ d a b _ | .fpuCmpeq _ d a b _
  | .fpuCmplt _ d a b _ | .fpuCmple _ d a b _ => some (Accept.none, [a, b], d)
  | .ibitBins _ d a b | .fpuFma _ d a b _ => some (Accept.none, [a, b, d], d)
  | .ibitClz _ d a | .ibitCtz _ d a | .ibitPopc _ d a | .ibitBrev _ d a | .ibitBswap _ d a | .capGetbase _ d a | .capGettop _ d a
  | .capGetlen _ d a | .capGetperm _ d a | .capGetspace _ d a | .capGettag _ d a | .lblGet _ d a | .jrLink _ d a | .fpuSqrt _ d a _
  | .fpuNeg _ d a _ | .fpuAbs _ d a _ | .fpuClass _ d a _ | .fcvt _ d a _ _ => some (Accept.none, [a], d)
  | .ialuiAdd _ d a _ | .ialuiAnd _ d a _ | .ialuiOr _ d a _ | .ialuiXor _ d a _ | .ialuiSlt _ d a _ | .capiAddcur _ d a _
  | .capiSetbnd _ d a _ | .capiSetbndx _ d a _ | .capiAndperm _ d a _ => some (Accept.immOnly, [a], d)
  | .lui _ d _ => some (Accept.immOnly, [], d)
  | .lblCtl _ d => some (Accept.none, [], d)
  | .call _ _ => some (Accept.none, [], .g 15)
  | .brEq _ a b _ | .brNe _ a b _ | .brLt _ a b _ | .brGe _ a b _ | .brLtu _ a b _ | .brGeu _ a b _ | .brBset _ a b _
  | .brBclr _ a b _ => some (Accept.immOnly, [a, b], .zero)
  | .jmp _ _ => some (Accept.none, [], .zero)
  | .jrGo _ a => some (Accept.none, [a], .zero)
  | _ => none

/-- R97, R104, R20: at issue, every form of the scalar pipe raises illegal instruction behind a prefix that it does not accept, and
when it names a maintenance port outside maintenance mode; with sixteen entries in the group write buffer, those that a later trap has taken out
of it included, a form whose destination is
a g register raises group overflow, and nothing else has happened. -/
def Claim.ScalarIssueChecks : Prop :=
  ∀ (i : Instr) (acc : Accept) (srcs : List SReg) (d : SReg) (s : State), scalarForm i = some (acc, srcs, d) →
    (s.t.accepts acc = false → exec i s = .next (s.raise 0x01)) ∧
    (s.t.accepts acc = true → s.t.maint = false → (∃ p, .q p ∈ d :: srcs) → exec i s = .next (s.raise 0x01)) ∧
    (s.t.accepts acc = true → (∀ p, .q p ∉ d :: srcs) → (∃ n, d = .g n) → 16 ≤ s.t.buf.length + s.t.lost → exec i s = .next (s.raise 0x0D))

/-- R298: in maintenance mode a source Q port pops the doubleword at the head of its queue as an untagged value of label 0, or parks the
task at the unit when the queue is empty; a destination Q port takes the low 64 bits of a result of label 0, parks the task when it is
full, and raises label violation when the result or the control is labelled. Stated of `ialu.or` with ZERO. -/
def Claim.MaintenancePortOperands : Prop :=
  ∀ (s : State) (sw : Bool) (p : BitVec 3) (n : BitVec 4), s.t.maint = true → s.t.accepts Accept.none = true → s.t.buf.length + s.t.lost < 16 →
    s.t.qtake = [] → s.t.onHearth = false →
    (∀ v dev, s.d.qpop (CoreId.die s.c.id) p = some (v, dev) →
      exec (.ialuOr sw (.g n) (.q p) .zero) s = .next (State.gives
        { s with t := { s.t with qin := s.t.qin.setIfInBounds p.toNat v }, d := dev } true sw (.g n)
        { bits := v.setWidth 128, tag := false, label := s.t.clabel })) ∧
    (s.d.qpop (CoreId.die s.c.id) p = none →
      exec (.ialuOr sw (.g n) (.q p) .zero) s = .next (s.park (.qport p false))) ∧
    (s.d.qfull (CoreId.die s.c.id) p = true →
      exec (.ialuOr sw (.q p) (.g n) .zero) s = .next (s.park (.qport p true))) ∧
    (s.d.qfull (CoreId.die s.c.id) p = false → s.lab (.g n) ||| s.t.clabel ≠ 0 →
      exec (.ialuOr sw (.q p) (.g n) .zero) s = .next (s.raise 0x0B ((s.lab (.g n) ||| s.t.clabel).toNat * 65536))) ∧
    (s.d.qfull (CoreId.die s.c.id) p = false → s.lab (.g n) ||| s.t.clabel = 0 →
      exec (.ialuOr sw (.q p) (.g n) .zero) s = .next (State.finish
        { s with t := { s.t with l := { bits := (s.x (.g n)).setWidth 128, tag := false, label := 0 } },
                 d := s.d.qpush (CoreId.die s.c.id) p (s.x (.g n)) } sw))

/-- R17 to R19, R51: when every result of the marked group has arrived, GROUP_END applies the buffer in program order, so that the value
written later is the one that a register keeps; the latches read as zero, the buffer is empty, the task is ready, and memory, the
special registers and the other tasks are as before. A parity error of the buffer raises its cause and applies nothing. -/
def Obligations.GroupEndApplies : Prop :=
  ∀ s : State, s.t.status = .parked .group → s.t.onHearth = false → s.groupOver = true → s.t.bounced = [] → s.t.mark = none →
    s.c.trace.chunkTask ≠ some s.t.tid →
    (s.t.parity = false → ∃ t, exec (.groupEnd s.c.id s.t.tid) s = .next t ∧ t.t.status = .ready ∧ t.t.buf = [] ∧ t.t.l = Val.zero ∧
      t.t.midGroup = false ∧
      (∀ n : Fin 16, t.t.g[n] = (s.t.buf.reverse.findSome? (fun e => match e with
        | .g k v => if k.toNat = n.val then some v else none
        | _ => none)).getD s.t.g[n]) ∧
      (s.t.anchor = none → t.t.anchor = none ∧ t.c.tiles = s.c.tiles) ∧
      (∀ x, t.t.anchor = some x → x.lv = Entry.zero) ∧
      t.t.pc = s.t.pc ∧ t.t.tsw = s.t.tsw ∧ t.t.clabel = s.t.clabel ∧ t.t.tlevel = s.t.tlevel ∧ t.t.ops = s.t.ops ∧
      t.c.spad = s.c.spad ∧ t.c.slots = s.c.slots ∧ t.c.jobs = s.c.jobs ∧ t.d = s.d) ∧
    (s.t.parity = true → exec (.groupEnd s.c.id s.t.tid) s =
      .next (State.raiseAt { s with t := { s.t with buf := [], lost := 0, parity := false, status := .ready } } s.t.pc 0x19 0 0))

/-- R291: the destination of a cause, in the order of the rule. -/
def Obligations.CauseRouting : Prop :=
  ∀ (s : State) (c : Nat),
    let inside := s.t.level = 0 ∧ (s.c.jobRegs s.t.job).udeleg.getLsbD c = true ∧ s.t.utvec ≠ 0 ∧ s.t.tlevel.getLsbD 2 = false
    let upcall := s.t.level = 0 ∧ c = 0x09 ∧ (s.c.jobRegs s.t.job).upentry ≠ 0
    let sup := s.t.level = 0 ∧ (s.d.partState s.part).sdeleg.getLsbD c = true
    let hyp := s.t.level ≤ 1 ∧ (s.d.partState s.part).hdeleg.getLsbD c = true
    (inside → s.route c = .inTask) ∧ (¬inside → upcall → s.route c = .upcall) ∧ (¬inside → ¬upcall → sup → s.route c = .level 1) ∧
    (¬inside → ¬upcall → ¬sup → hyp → s.route c = .level 2) ∧ (¬inside → ¬upcall → ¬sup → ¬hyp → s.route c = .level 3)

/-- R292, R295: an in-task trap saves the pc, the cause word with INTASK and the value into UEPC, UCAUSE and UVAL, sets the buffer, the
latches and the migration mark aside as held state, sets UT and goes on at UTVEC; every g register, the status word, memory and every
other register is as before. ILLEGAL_INSTRUCTION raises cause 0x01 at the first word of the unit. -/
def Claim.InTaskTrap : Prop :=
  ∀ (s : State) (pc value : Word) (cause detail : Nat), s.t.onHearth = false → s.route cause = .inTask →
    let r := s.raiseAt pc cause detail value
    (r.t.uepc = pc ∧ r.t.uval = value ∧
      r.t.ucause = BitVec.ofNat 64 (detail % 2 ^ 32 * 2 ^ 32 + 2 ^ 10 + s.t.level % 4 * 2 ^ 8 + cause % 256) ∧
      r.t.held = some { buf := s.t.buf, lost := s.t.lost, parity := s.t.parity, l := s.t.l, lv := s.t.anchor.elim Entry.zero (·.lv), mark := s.t.mark } ∧
      r.t.buf = [] ∧ r.t.l = Val.zero ∧ r.t.mark = none ∧ r.t.anchor = s.t.anchor.map (fun a => { a with lv := Entry.zero }) ∧
      r.t.tlevel = s.t.tlevel ||| 4 ∧ r.t.pc = s.t.utvec ∧ r.t.status = .ready ∧
      r.t.g = s.t.g ∧ r.t.tsw = s.t.tsw ∧ r.t.clabel = s.t.clabel ∧ r.t.utvec = s.t.utvec ∧ r.t.ops = s.t.ops ∧ r.t.inbox = s.t.inbox ∧
      r.t.tidReg = s.t.tidReg ∧ r.d = s.d ∧ r.c = { s.c with trace := r.c.trace }) ∧
    (s.t.status ≠ .vacant → exec .illegalInstruction s = .next (s.raiseAt s.t.unitPc 0x01 0 0))

/-- R296: an upcall parks the faulting task awaiting notice at the faulting unit, with its buffer and one inbox reservation, and queues
an upcall task at UPENTRY, at user level, with the cause word, the value, the TID and the pc in g1 to g4 under the control label. -/
def Claim.UpcallStarts : Prop :=
  ∀ (s : State) (pc value : Word) (cause detail : Nat), s.t.onHearth = false → s.route cause = .upcall → s.c.trace.creates = [] →
    let r := s.raiseAt pc cause detail value
    let word := detail % 2 ^ 32 * 2 ^ 32 + s.t.level % 4 * 2 ^ 8 + cause % 256
    let v (n : Nat) : Val := { bits := BitVec.ofNat 128 n, tag := false, label := s.t.clabel }
    r.t.status = .parked .notice ∧ r.t.pc = pc ∧ r.t.buf = s.t.buf ∧ r.t.g = s.t.g ∧ r.t.l = s.t.l ∧ r.t.resv = s.t.resv + 1 ∧
    r.t.inbox = s.t.inbox ∧
    (∃ u, r.c.upcallQ = s.c.upcallQ ++ [u] ∧ u.pc = (s.c.jobRegs s.t.job).upentry ∧ u.level = 0 ∧ u.clabel = s.t.clabel ∧
      u.job = s.t.job ∧ u.g[1] = v word ∧ u.g[2] = v value.toNat ∧ u.g[3] = v s.t.tid.toNat ∧ u.g[4] = v pc.toNat ∧ u.g[0] = Val.zero ∧
      u.g[5] = Val.zero) ∧
    r.d = s.d ∧ r.c.spad = s.c.spad ∧ r.c.slots = s.c.slots

/-- R293: a trap to supervisor or hypervisor level whose vector is not 0, of a task that may be saved at once, saves the task, with its buffer unapplied, into a context area
and starts a handler in the same slot, at the level's vector, at priority 7, with the cause word, the value, the trapped task's TID and
its saved pc in g1 to g4 and every other g register but g5 zero, under the trapped task's control label. -/
def Claim.TrapToHigherLevel : Prop :=
  ∀ (s : State) (h : BitVec 2) (pc value : Word) (cause detail : Nat), s.t.onHearth = false → s.t.level < 3 → s.route cause = .level h → h ≠ 3 →
    s.vector h ≠ 0 → s.c.trace.creates = [] → s.t.parity = false → s.t.held.any (·.parity) = false →
    State.quiet { s with t := { s.t.backTo pc with status := .ready } } = true →
    let r := s.raiseAt pc cause detail value
    let word := detail % 2 ^ 32 * 2 ^ 32 + s.t.level % 4 * 2 ^ 8 + cause % 256
    let v (n : Nat) : Val := { bits := BitVec.ofNat 128 n, tag := false, label := s.t.clabel }
    r.t.status = .ready ∧ r.t.pc = s.vector h ∧ r.t.level = h.toNat ∧ r.t.prio = 7 ∧ r.t.clabel = s.t.clabel ∧ r.c.port = s.c.port ∧
    r.t.g[1] = v word ∧ r.t.g[2] = v value.toNat ∧ r.t.g[3] = v s.t.tid.toNat ∧ r.t.g[4] = v pc.toNat ∧
    (∀ n : Fin 16, n.val = 0 ∨ 5 < n.val → r.t.g[n] = Val.zero) ∧
    (∃ x, r.d.saved = s.d.saved ++ [x] ∧ r.t.trapped = some x.area ∧ x.core = s.c.id ∧ x.slot = some s.c.port ∧ x.task.tid = s.t.tid ∧
      x.task.pc = pc ∧ x.task.buf = s.t.buf ∧ x.task.g = s.t.g ∧ x.task.clabel = s.t.clabel ∧ x.task.tsw = s.t.tsw) ∧
    r.c.spad = s.c.spad ∧ r.c.slots = s.c.slots

/-- R291 step 5, R355: a cause that reaches machine level, or finds a zero vector, from a task of a lower level stops the task, writes a
core dump with the cause word, and withdraws its launch; launches of other keys keep their state. -/
def Claim.UnhandledCauseWithdraws : Prop :=
  ∀ (s : State) (h : BitVec 2) (pc value : Word) (cause detail : Nat), s.t.onHearth = false → s.t.level < 3 → s.route cause = .level h →
    (h = 3 ∨ s.vector h = 0) → s.t.status ≠ .vacant →
    let r := s.raiseAt pc cause detail value
    r.t.status = .vacant ∧
    (∃ x, r.d.dumps = s.d.dumps ++ [x] ∧ x.core.id = s.c.id ∧ x.tid = s.t.tidReg ∧
      x.causew = BitVec.ofNat 64 (detail % 2 ^ 32 * 2 ^ 32 + s.t.level % 4 * 2 ^ 8 + cause % 256)) ∧
    (∀ l ∈ r.d.launches, l.key = s.t.launch → l.state = .withdrawing) ∧
    (∀ l ∈ r.d.launches, l.key ≠ s.t.launch → ∃ k ∈ s.d.launches, k.key = l.key ∧ k.state = l.state) ∧
    r.d.gmem = s.d.gmem ∧ r.c.spad = s.c.spad

/-- What a scalar unit meets at issue, and the maintenance ports as operands: `Claim.ScalarIssueChecks`, `Claim.MaintenancePortOperands`. -/
def Obligations.ScalarOperands : Prop :=
  Claim.ScalarIssueChecks ∧ Claim.MaintenancePortOperands

/-- A cause handled inside the task, and one handled by an upcall: `Claim.InTaskTrap`, `Claim.UpcallStarts`. -/
def Obligations.CausesAtUserLevel : Prop :=
  Claim.InTaskTrap ∧ Claim.UpcallStarts

/-- A cause handled by a handler task, and one that nothing handles: `Claim.TrapToHigherLevel`, `Claim.UnhandledCauseWithdraws`. -/
def Obligations.CausesAtHigherLevel : Prop :=
  Claim.TrapToHigherLevel ∧ Claim.UnhandledCauseWithdraws

/-! ### System registers, trap instructions, invalidation, debug and maintenance ports -/

/-- R284: the level that a read and a write of each system register need; none for a register that is read-only. -/
def sysLevels : SysReg → Nat × Option Nat
  | .tsw | .utvec | .uepc | .ucause | .uval => (0, some 0)
  | .tlevel => (0, some 3)
  | .dqBase | .dqLimit | .jscap | .upentry | .udeleg => (0, some 1)
  | .dqBot | .dqTop | .cycle | .coreId | .jobid => (0, none)
  | .jsel | .barown | .notice | .pt1root | .asid | .stvec => (1, some 1)
  | .sdeleg => (1, some 2)
  | .pt2root | .vmid | .htvec => (2, some 2)
  | .hdeleg => (2, some 3)
  | .mtvec => (3, some 3)

/-- R284: what each system register reads, in the task, the core, the job entry or the partition that its scope names. -/
def sysTable (s : State) (job : BitVec 16) (r : SysReg) : Val :=
  let w (v : Word) : Val := { bits := v.setWidth 128, tag := false, label := 0 }
  let p := s.d.partState s.part
  let j := s.c.jobRegs job
  match r with
  | .tsw => w s.t.tsw | .tlevel => w s.t.tlevel | .utvec => w s.t.utvec | .uepc => w s.t.uepc | .ucause => w s.t.ucause
  | .uval => w s.t.uval | .dqBase => w s.c.dqBase | .dqLimit => w s.c.dqLimit | .dqBot => w s.c.dqBot | .dqTop => w s.c.dqTop
  | .jsel => w s.c.jsel | .barown => w s.c.barown | .cycle => w (BitVec.ofNat 64 s.d.cycle) | .notice => w s.c.noticeReg
  | .coreId => w (BitVec.ofNat 64 (s.d.fabric.device.toNat * 4096 + s.c.id.toNat * 4))
  | .jobid => w (job.setWidth 64) | .jscap => j.jscap | .upentry => w j.upentry | .udeleg => w j.udeleg | .pt1root => w j.pt1root
  | .asid => w j.asid | .pt2root => w j.pt2root | .vmid => w j.vmid | .stvec => w p.stvec | .sdeleg => w p.sdeleg
  | .htvec => w p.htvec | .hdeleg => w p.hdeleg | .mtvec => w (s.d.boot.mtvec[(CoreId.die s.c.id).toNat]?.getD 0)

/-- R284 to R286: `sys.rd` raises privileged instruction below the level that the table gives the register; otherwise it delivers the
register's value under the control label, tagged only for JSCAP, and changes no register. A job-scope register is that of the job that
JSEL selects, and permission is raised when it names none. -/
def Obligations.SysReads : Prop :=
  ∀ (s : State) (sw : Bool) (d : SReg) (reg : SysReg), s.Ready Accept.none [] d →
    (s.t.level < (sysLevels reg).1 → exec (.sysRd sw d reg) s = .next (s.raise 0x16)) ∧
    ((sysLevels reg).1 ≤ s.t.level → sysScope reg = .job → s.sysJob = none → exec (.sysRd sw d reg) s = .next (s.raise 0x06)) ∧
    (∀ job, (sysLevels reg).1 ≤ s.t.level → (sysScope reg = .job → s.sysJob = some job) → (reg = .cycle → s.Runs) →
      exec (.sysRd sw d reg) s = .next (s.gives false sw d { sysTable s job reg with label := s.t.clabel }))

/-- The registers whose writes have no effect but their new value. -/
def sysPlain : SysReg → Bool
  | .uepc | .ucause | .uval | .utvec | .jsel | .jscap | .upentry | .udeleg | .pt1root | .asid | .pt2root | .vmid | .stvec | .sdeleg
  | .htvec | .hdeleg | .mtvec => true
  | _ => false

/-- R284 to R286, R290: for the registers whose write has no further effect, the four write forms raise privileged instruction below
the write level, capability tag for a JSCAP that is not a tagged capability of space 3, reserved field for a value that breaks the
field rules, and label violation for a labelled value or control outside task scope; otherwise the register reads the new value, whole
for JSCAP and with bits [1:0] zero for UTVEC, every other register reads as before, and all but `sys.wr` deliver the old value. -/
def Claim.SysWrites : Prop :=
  ∀ (s : State) (sw : Bool) (d a : SReg) (reg : SysReg) (job : BitVec 16) (level : Nat), sysPlain reg = true →
    (sysLevels reg).2 = some level → s.Ready Accept.none [a] d → s.Ready Accept.none [a] .zero →
    (sysScope reg = .job → s.sysJob = some job) →
    let old := sysTable s job reg
    let x := s.x a
    let run (new : Word) (gives : Bool) (o : Out) : Prop :=
      let task := sysScope reg = .task
      let lab := s.lab a ||| s.t.clabel
      let badCap := reg = .jscap ∧ ((s.rd a).tag = false ∨ capSpace (s.rd a).bits ≠ 3)
      (s.t.level < level → o = .next (s.raise 0x16)) ∧
      (level ≤ s.t.level → badCap → o = .next (s.raise 0x04)) ∧
      (level ≤ s.t.level → ¬badCap → reg ≠ .jscap → s.sysValid reg new = false → o = .next (s.raise 0x02 1)) ∧
      (level ≤ s.t.level → ¬badCap → (reg = .jscap ∨ s.sysValid reg new = true) → ¬task → lab ≠ 0 →
        o = .next (s.raise 0x0B (lab.toNat * 65536))) ∧
      (level ≤ s.t.level → ¬badCap → (reg = .jscap ∨ s.sysValid reg new = true) → (task ∨ lab = 0) → ∃ t, o = .next t ∧
        sysTable t job reg = (if reg = .jscap then s.rd a
          else if reg = .utvec then { bits := (new &&& ~~~3).setWidth 128, tag := false, label := 0 }
          else { bits := new.setWidth 128, tag := false, label := 0 }) ∧
        (∀ r, r ≠ reg → sysTable t job r = sysTable s job r) ∧
        t.t.buf = (match gives, d with
          | true, .g n => s.t.buf ++ [.g n { old with label := t.t.clabel }]
          | _, _ => s.t.buf) ∧
        (t.t.clabel = if task then s.t.clabel ||| s.lab a else s.t.clabel) ∧
        t.t.g = s.t.g ∧ t.t.l = s.t.l ∧ t.t.pc = s.t.pc + 4 ∧ t.c.spad = s.c.spad ∧ t.d.gmem = s.d.gmem ∧ t.d.shared = s.d.shared ∧
        t.c.slots = s.c.slots)
    run x false (exec (.sysWr sw a reg) s) ∧
    run x true (exec (.sysXchg sw d a reg) s) ∧
    (reg ≠ .jscap → run (old.bits.setWidth 64 ||| x) true (exec (.sysSet sw d a reg) s) ∧
      run (old.bits.setWidth 64 &&& ~~~x) true (exec (.sysClr sw d a reg) s))

/-- R11, R283, R288, R296, R297: the writes with effects of their own, by `sys.wr` with unlabelled operands at machine level. TSW keeps
KIND, ANC and PIN and holds PRIO to the ceiling; TLEVEL takes MAINT alone; a deque bound resets both indices and is refused while the
deque holds records; BAROWN assigns an empty barrier object and is refused when it has members; NOTICE readies the task that it names,
when that one awaits notice. -/
def Claim.SysSpecialWrites : Prop :=
  ∀ (s : State) (sw : Bool) (a : SReg), s.Ready Accept.none [a] .zero → s.t.level = 3 → s.lab a ||| s.t.clabel = 0 →
    let v := s.x a
    (s.sysValid .tsw v = true → ∃ t, exec (.sysWr sw a .tsw) s = .next t ∧ t.t.prio.toNat = min (v.toNat / 2 ^ 12 % 8) s.t.ceil.toNat ∧
      bitsOf t.t.tsw.toNat 0 12 = bitsOf v.toNat 0 12 ∧ bitsOf t.t.tsw.toNat 15 2 = bitsOf v.toNat 15 2 ∧
      bitsOf t.t.tsw.toNat 17 5 = bitsOf s.t.tsw.toNat 17 5 ∧ t.t.pc = s.t.pc + 4 ∧ t.d = s.d) ∧
    (s.sysValid .tlevel v = true → ∃ t, exec (.sysWr sw a .tlevel) s = .next t ∧ t.t.maint = v.getLsbD 3 ∧ t.t.level = s.t.level ∧
      t.t.ut = s.t.ut ∧ t.t.pc = s.t.pc + 4 ∧ t.d = s.d) ∧
    (∀ limit : Bool, (v.toNat % 64 = 0 ∧ v.toNat ≤ 0x100000 ∧
        (if limit then s.c.dqBase.toNat ≤ v.toNat else v.toNat ≤ s.c.dqLimit.toNat)) →
      (s.c.dqBot = s.c.dqTop → ∃ t, exec (.sysWr sw a (if limit then .dqLimit else .dqBase)) s = .next t ∧
        t.c.dqBase = (if limit then s.c.dqBase else v) ∧ t.c.dqLimit = (if limit then v else s.c.dqLimit) ∧ t.c.dqBot = 0 ∧ t.c.dqTop = 0 ∧
        t.t.pc = s.t.pc + 4 ∧ t.d = s.d) ∧
      (s.c.dqBot ≠ s.c.dqTop → exec (.sysWr sw a (if limit then .dqLimit else .dqBase)) s = .next (s.raise 0x06))) ∧
    (v.toNat / 2 ^ 32 = 0 → v.toNat / 64 % 1024 = 0 →
      let b := s.d.barrier (CoreId.cluster s.c.id) (v.setWidth 6)
      (b.members ≠ 0 → exec (.sysWr sw a .barown) s = .next (s.raise 0x06)) ∧
      (b.members = 0 → ∃ t, exec (.sysWr sw a .barown) s = .next t ∧ t.c.barown = v ∧ t.t.pc = s.t.pc + 4 ∧
        (let n := t.d.barrier (CoreId.cluster s.c.id) (v.setWidth 6)
         n.owner.toNat = v.toNat / 2 ^ 16 % 2 ^ 16 ∧ n.members = 0 ∧ n.arrived = 0 ∧ n.phase = 0 ∧ n.plabel = 0))) ∧
    (v.toNat / 2 ^ 48 = 0 → s.slotOf (v.setWidth 48) = none → (∀ x ∈ s.d.saved, x.task.tid ≠ v.setWidth 48) →
      ∃ t, exec (.sysWr sw a .notice) s = .next t ∧ t.c.noticeReg = v ∧ t.t.pc = s.t.pc + 4 ∧ t.c.slots = s.c.slots) ∧
    (∀ (n : Nat) (f : Task), v.toNat / 2 ^ 48 = 0 → s.slotOf (v.setWidth 48) = some n → n < 24 → s.c.port.toNat < 24 → n ≠ s.c.port.toNat →
      s.c.slots[n]? = some (some f) → f.status = .parked .notice → s.t.status = .ready → s.t.onHearth = false → f.onHearth = false →
      ∃ t g, exec (.sysWr sw a .notice) s = .next t ∧ t.c.slots[n]? = some (some g) ∧ g.status = .ready ∧ g.pc = f.pc ∧ g.buf = f.buf ∧
        t.t.pc = s.t.pc + 4)

/-- R293, R294: `trap.call` raises trap instruction with value G[a] after its unit, whose label raises the control label; with the switch
marker the cause waits for the end of the group. `trap.ret` raises privileged instruction below supervisor level, illegal instruction
in a task that is no trap handler, and otherwise ends the handler and returns the trapped task, as its context area gives it, to the
slot. -/
def Claim.TrapCallAndReturn : Prop :=
  ∀ (s : State) (sw : Bool) (a : SReg),
    (s.Ready Accept.none [a] .zero → s.t.status = .ready →
      let up := s.t.clabel ||| s.lab a
      exec (.trapCall false a) s = .next (State.raiseAt (State.finish { s with t := { s.t with clabel := up } } false) (s.t.pc + 4) 0x17 0 (s.x a)) ∧
      ∃ t, exec (.trapCall true a) s = .next t ∧ t.t.status = .parked .group ∧ t.t.pc = s.t.pc + 4 ∧ t.t.clabel = up ∧
        t.t.deferred = s.t.deferred ++ [(0x17, 0, s.x a)]) ∧
    (s.Ready Accept.none [] .zero →
      (s.t.level = 0 → exec (.trapRet sw) s = .next (s.raise 0x16)) ∧
      (0 < s.t.level → s.t.trapped = none → exec (.trapRet sw) s = .next (s.raise 0x01)) ∧
      (∀ area v w, 0 < s.t.level → s.t.trapped = some area → s.t.anchor = none → s.Still → s.enginesDone = true → s.Runs →
        s.d.saved.find? (fun y => y.area == area) = some v → readContext s.d.gmem.mem v = some w → w.task.replay = [] →
        let x := w.task
        ∃ t, exec (.trapRet sw) s = .next t ∧ t.t.tid = x.tid ∧ t.t.pc = x.pc ∧ t.t.g = x.g ∧ t.t.l = x.l ∧ t.t.buf = x.buf ∧
          t.t.tsw = x.tsw ∧ t.t.clabel = x.clabel ∧ t.t.tlevel = x.tlevel ∧ t.t.status = resumed x.status ∧ t.c.port = s.c.port ∧
          (∀ y ∈ t.d.saved, y.area ≠ area) ∧ t.d.gmem = s.d.gmem ∧ t.c.spad = s.c.spad))

/-- R295: `trap.uret` raises illegal instruction while UT is 0; otherwise the handler's group ends and its results are applied, the held
state returns as buffer, latches and mark, UT becomes 0 and the pc becomes UEPC. Stated of a group without rows, with nothing
outstanding and no parity error. -/
def Claim.TrapUretRestores : Prop :=
  ∀ s : State, s.Ready Accept.none [] .zero →
    (s.t.ut = false → exec .trapUret s = .next (s.raise 0x01)) ∧
    (∀ h, s.t.ut = true → s.t.ops = [] → s.t.rowTiles = 0 → s.t.parity = false → s.t.held = some h → s.c.trace.chunkTask ≠ some s.t.tid →
      ∃ t, exec .trapUret s = .next t ∧ t.t.ut = false ∧ t.t.level = s.t.level ∧ t.t.pc = s.t.uepc ∧ t.t.buf = h.buf ∧ t.t.l = h.l ∧
        t.t.mark = h.mark ∧ t.t.held = none ∧ (∀ x, t.t.anchor = some x → x.lv = h.lv) ∧
        (∀ n : Fin 16, t.t.g[n] = (s.t.buf.reverse.findSome? (fun e => match e with
          | .g k v => if k.toNat = n.val then some v else none
          | _ => none)).getD s.t.g[n]) ∧
        t.t.tsw = s.t.tsw ∧ t.t.clabel = s.t.clabel ∧ t.t.uepc = s.t.uepc ∧ t.c.spad = s.c.spad ∧ t.d = s.d)

/-- R299, R310: the tlb forms raise privileged instruction below their level and reserved field for bits above their fields; otherwise no
entry that they name is left in any TLB of the partition's cores, entries of other address spaces stay, and `tlb.sync` parks its task
until the accesses made before it have been performed. -/
def Claim.TlbForms : Prop :=
  ∀ (s : State) (sw : Bool) (a b : SReg) (job : BitVec 16), s.Ready Accept.none [a, b] .zero → s.Still → s.sysJob = some job →
    let x := s.x a
    let y := s.x b
    let own : BitVec 16 := (s.c.jobRegs job).vmid.setWidth 16
    let mine : BitVec 16 := (s.c.jobRegs s.t.job).vmid.setWidth 16
    let drops (gone : TlbEntry → Prop) (o : Out) : Prop := ∃ t, o = .next t ∧ t.t.pc = s.t.pc + 4 ∧
      (∀ e, e ∈ t.c.tlb ↔ e ∈ s.c.tlb ∧ ¬gone e) ∧
      (∀ c ∈ t.d.cores, s.d.partOf (CoreId.die c.id) = s.part → ∀ e ∈ c.tlb, ¬gone e) ∧
      t.t.g = s.t.g ∧ t.t.buf = s.t.buf ∧ t.c.spad = s.c.spad ∧ t.d.gmem = s.d.gmem
    (s.t.level = 0 → exec (.tlbInv1 sw a b) s = .next (s.raise 0x16) ∧ exec (.tlbInvid sw a) s = .next (s.raise 0x16) ∧
      exec (.tlbInvall sw a) s = .next (s.raise 0x16) ∧ exec .tlbSync s = .next (s.raise 0x16)) ∧
    (s.t.level < 2 → exec (.tlbInv2 sw a b) s = .next (s.raise 0x16)) ∧
    (1 ≤ s.t.level → x.toNat < 2 ^ 57 → y.toNat < 2 ^ 16 →
      drops (fun e => e.vmid = own ∧ e.asid = y.setWidth 16 ∧ e.first (x.toNat / 4096 * 4096) = true) (exec (.tlbInv1 sw a b) s)) ∧
    (1 ≤ s.t.level → (2 ^ 57 ≤ x.toNat ∨ 2 ^ 16 ≤ y.toNat) → exec (.tlbInv1 sw a b) s = .next (s.raise 0x02 1)) ∧
    (2 ≤ s.t.level → x.toNat < 2 ^ 57 → y.toNat < 2 ^ 16 →
      drops (fun e => e.vmid = y.setWidth 16 ∧ e.second (x.toNat / 4096 * 4096) = true) (exec (.tlbInv2 sw a b) s)) ∧
    (1 ≤ s.t.level → x.toNat < 2 ^ 16 → drops (fun e => e.vmid = own ∧ e.asid = x.setWidth 16) (exec (.tlbInvid sw a) s)) ∧
    (1 ≤ s.t.level → x.toNat < 2 ^ 16 → (2 ≤ s.t.level ∨ x.setWidth 16 = mine) →
      drops (fun e => e.vmid = x.setWidth 16) (exec (.tlbInvall sw a) s)) ∧
    (s.t.level = 1 → x.toNat < 2 ^ 16 → x.setWidth 16 ≠ mine → exec (.tlbInvall sw a) s = .next (s.raise 0x06)) ∧
    (1 ≤ s.t.level → ∃ t w, exec .tlbSync s = .next t ∧ t.t.status = .parked w ∧ (w = .group ∨ ∃ op cycle, w = .tlbSync op cycle) ∧
      t.t.pc = s.t.pc + 4 ∧ t.c.tlb = s.c.tlb)

/-- R300, R416: `dbg.brk` raises breakpoint when no debug unit holds the task, and otherwise stops it there with reason 0x80; `dbg.mark`
leaves a marker record of G[a][31:0] and no other effect; `dbg.rdctr` raises reserved field for a bank or counter that does not exist,
privileged instruction below the bank's level, and otherwise delivers the count. -/
def Claim.DebugForms : Prop :=
  ∀ (s : State) (sw : Bool) (d a : SReg),
    (s.Ready Accept.none [] .zero →
      (s.attachedTo = none → exec (.dbgBrk sw) s = .next (s.raise 0x14)) ∧
      (∀ u, s.attachedTo = some u → exec (.dbgBrk sw) s = .next (s.stopFor u 0x80))) ∧
    (s.Ready Accept.none [a] .zero →
      exec (.dbgMark sw a) s = .next (State.finish (s.record 14 s.t (s.lab a) ((s.x a).setWidth 32 |>.setWidth 64) 0) sw)) ∧
    (s.Ready Accept.none [a] d →
      let v := (s.x a).toNat
      let bank := v / 256 % 256
      let n := v % 256
      ((65536 ≤ v ∨ 1 < bank ∨ (bank = 0 ∧ 18 < n) ∨ (bank = 1 ∧ 16 < n)) → exec (.dbgRdctr sw d a) s = .next (s.raise 0x02 1)) ∧
      (v < 65536 → bank = 0 → n ≤ 18 → s.c.bank.holder = .free → s.c.bank.revoked = none →
        (s.t.level = 0 → exec (.dbgRdctr sw d a) s = .next (s.raise 0x16)) ∧
        (1 ≤ s.t.level → exec (.dbgRdctr sw d a) s = .next (s.gives false sw d
          { bits := (s.c.bank.counts[n]?.getD 0).setWidth 128, tag := false, label := s.lab a ||| s.t.clabel }))) ∧
      (v < 65536 → bank = 0 → n ≤ 18 → s.c.bank.holder = .guest s.part → s.c.bank.bctl.getLsbD 0 = true →
        exec (.dbgRdctr sw d a) s = .next (s.gives false sw d
          { bits := (s.c.bank.counts[n]?.getD 0).setWidth 128, tag := false, label := s.lab a ||| s.t.clabel })))

/-- R288, R296 to R298: the events of the registers and the maintenance ports. A notice is written with a TID: the task that awaits it goes
on, a saved one finds it when it returns, and another TID changes no task. A deque bound of a core is written when it keeps the field
rules and the deque is empty; BAROWN assigns an object without members; a Q port gives its oldest doubleword to the task in maintenance
mode, or takes one from it; the far end of Q4 to Q7 puts a doubleword into the port while it holds fewer than sixteen. -/
def Obligations.RegisterAndPortEvents : Prop :=
  ∀ (s : State) (v : BitVec 64) (limit : Bool) (p : BitVec 3),
    (v.toNat % 64 = 0 → v.toNat ≤ 0x100000 → (if limit then s.c.dqBase.toNat ≤ v.toNat else v.toNat ≤ s.c.dqLimit.toNat) →
      s.c.dqBot = s.c.dqTop → ∃ t, exec (.dqBaseLimitWrite s.c.id limit v) s = .next t ∧
        t.c.dqBase = (if limit then s.c.dqBase else v) ∧ t.c.dqLimit = (if limit then v else s.c.dqLimit) ∧ t.c.dqBot = 0 ∧ t.c.dqTop = 0 ∧
        t.t = s.t ∧ t.d = s.d) ∧
    (v.toNat / 2 ^ 32 = 0 → v.toNat / 64 % 1024 = 0 → (s.d.barrier (CoreId.cluster s.c.id) (v.setWidth 6)).members = 0 →
      ∃ t, exec (.barown s.c.id v) s = .next t ∧ t.c.barown = v ∧ t.t = s.t ∧
        (let n := t.d.barrier (CoreId.cluster s.c.id) (v.setWidth 6)
         n.owner.toNat = v.toNat / 2 ^ 16 % 2 ^ 16 ∧ n.members = 0 ∧ n.arrived = 0 ∧ n.phase = 0 ∧ n.plabel = 0)) ∧
    (s.t.status = .ready → s.t.maint = true →
      (∀ w dev, s.d.qpop (CoreId.die s.c.id) p = some (w, dev) → ∃ t, exec (.qPortRead s.c.id p) s = .next t ∧
        t.t.qin = s.t.qin.setIfInBounds p.toNat w ∧ t.d = dev ∧ t.c = s.c ∧ t.t.g = s.t.g) ∧
      (s.d.qpop (CoreId.die s.c.id) p = none → exec (.qPortRead s.c.id p) s = .next (s.park (.qport p false))) ∧
      (s.d.qfull (CoreId.die s.c.id) p = true → exec (.qPortWrite s.c.id p v 0) s = .next (s.park (.qport p true))) ∧
      (s.d.qfull (CoreId.die s.c.id) p = false → s.t.clabel = 0 → exec (.qPortWrite s.c.id p v 0) s =
        .next { s with d := s.d.qpush (CoreId.die s.c.id) p v })) ∧
    (∀ die : BitVec 2, 4 ≤ p.toNat → s.d.cores = [] → CoreId.die s.c.id ≠ die → (s.d.qport die p).inward.length < 16 →
      ∃ t, exec (.maintenancePortArrival die p (some v) 0) s = .next t ∧ (t.d.qport die p).inward = (s.d.qport die p).inward ++ [v] ∧
        t.t = s.t ∧ t.d.gmem = s.d.gmem) ∧
    (let tid : Tid := v.setWidth 48
     let o := exec (.notice s.c.id v) s
     (v.toNat / 2 ^ 48 ≠ 0 → o = .next s) ∧
     (v.toNat / 2 ^ 48 = 0 → s.d.fabric.held = [] →
       (s.slotOf tid = none → (∀ x ∈ s.d.saved, x.task.tid ≠ tid) → ∃ t, o = .next t ∧ t.c.noticeReg = v ∧ t.t = s.t ∧
         t.c.slots = s.c.slots ∧ t.d.gmem = s.d.gmem) ∧
       (∀ x, s.slotOf tid = none → s.d.saved.find? (fun x => x.task.tid == tid && x.core == s.c.id) = some x → x.awaiting = true →
         ∃ t y, o = .next t ∧ t.c.noticeReg = v ∧ t.t = s.t ∧ y ∈ t.d.saved ∧ y.area = x.area ∧ y.task.tid = tid ∧ y.task.noticed = true) ∧
       (s.slotOf tid = some s.c.port.toNat → s.t.onHearth = false →
         (s.t.status = .parked .notice → ∃ t, o = .next t ∧ t.c.noticeReg = v ∧ t.d.gmem = s.d.gmem ∧
           t.t = { s.t.resumeEngines with status := .ready, resv := s.t.resv - 1 }) ∧
         (s.t.status ≠ .parked .notice → ∃ t, o = .next t ∧ t.c.noticeReg = v ∧ t.d.gmem = s.d.gmem ∧ t.t = s.t.resumeEngines))))

/-- Writes of the system registers: `Claim.SysWrites`, `Claim.SysSpecialWrites`. -/
def Obligations.SysWriteResults : Prop :=
  Claim.SysWrites ∧ Claim.SysSpecialWrites

/-- The trap forms: `Claim.TrapCallAndReturn`, `Claim.TrapUretRestores`. -/
def Obligations.TrapForms : Prop :=
  Claim.TrapCallAndReturn ∧ Claim.TrapUretRestores

/-- The translation and the debug forms: `Claim.TlbForms`, `Claim.DebugForms`. -/
def Obligations.TlbAndDebugForms : Prop :=
  Claim.TlbForms ∧ Claim.DebugForms

/-! ### Loads, stores, atomics and fences -/

/-- R152, R153, R230: an access that fails a check of R44 raises that check's cause with its address, and one to a user-level task's deque
or pipe raises permission; from the core's own scratchpad a load delivers the bytes, the lowest first, zero-extended, with the tag for
`cap` alone under LDCAP, and the page's label with that of the address and the control; `vld` delivers 256 bytes with the tag of fmt; a
poisoned line raises poison consumed. A destination ZERO or ZV takes nothing. -/
def Claim.LoadResults : Prop :=
  ∀ (s : State) (sw : Bool) (a : SReg) (scope : Scope) (order : Order) (off : BitVec 6),
    let cap := s.rd a
    let lab := cap.label ||| s.t.clabel
    let run (addr : Int) (n align : Nat) (o : Out) : Prop :=
      (∀ c, checkAccess cap memSpaces pLD addr n align none = .error c → o = .next (s.raise c 0 (causeValue c addr.toNat))) ∧
      (checkAccess cap memSpaces pLD addr n align none = .ok .spad → s.forbidden .spad addr.toNat n = true →
        o = .next (s.raise 0x06 0 (BitVec.ofNat 64 addr.toNat))) ∧
      (s.SpadOpen cap pLD addr n align true false → s.c.spad.poisoned addr.toNat n = true →
        o = .next (s.raise 0x18 3 (BitVec.ofNat 64 addr.toNat)))
    (∀ (d : SReg) (size : Size), s.Ready Accept.mem [a] d →
      let n := sizeBytes size
      let addr : Int := (capCursor cap.bits : Int) + s.t.immS 6 off.toNat * n
      run addr n n (exec (.ld sw d a scope order size off) s) ∧
      (s.SpadOpen cap pLD addr n n true false → s.c.spad.poisoned addr.toNat n = false →
        let v : Val := {
          bits := BitVec.ofNat 128 (s.c.spad.mem.read addr.toNat n),
          tag := size == .cap && hasPerm cap.bits pLDCAP && s.c.spad.tagAt addr.toNat,
          label := s.c.spad.labelOf addr.toNat n ||| lab }
        exec (.ld sw d a scope order size off) s = .next (s.accessed sw cap.label scope order
          (match d with | .g k => some (.g k v) | _ => none)))) ∧
    (∀ (an : Anchor) (d : VReg) (fmt : MFmt), s.ReadyV an Accept.mem (vrWrites d) → srPlain a = true →
      let addr : Int := (capCursor cap.bits : Int) + s.t.immS 6 off.toNat * 256
      run addr 256 64 (exec (.vld sw d a scope order fmt off) s) ∧
      (s.SpadOpen cap pLD addr 256 64 true false → s.c.spad.poisoned addr.toNat 256 = false →
        let e : Entry := {
          bits := BitVec.ofNat 2048 (s.c.spad.mem.read addr.toNat 256), fmt := mfmtTag fmt,
          label := s.c.spad.labelOf addr.toNat 256 ||| lab }
        exec (.vld sw d a scope order fmt off) s = .next (s.accessed sw cap.label scope order
          (match d with | .o k => some (.o k e) | _ => none))))

/-- R152, R154, R230, R46, R50: a store writes the low bytes of its source to the core's own scratchpad at once, clears the tags of the
granules that it touches, and for `cap` writes the tag that R46 allows; no other byte changes. A page whose label does not hold the
value's raises label violation, and nothing is written; `vst` first checks the source's format tag. -/
def Claim.StoreResults : Prop :=
  ∀ (s : State) (sw : Bool) (a : SReg) (scope : Scope) (order : Order) (off : BitVec 6),
    let cap := s.rd a
    let run (addr : Int) (n align : Nat) (vl : Label) (o : Out) : Prop :=
      (∀ c, checkAccess cap memSpaces pST addr n align none = .error c → o = .next (s.raise c 0 (causeValue c addr.toNat))) ∧
      (checkAccess cap memSpaces pST addr n align none = .ok .spad → s.forbidden .spad addr.toNat n = true →
        o = .next (s.raise 0x06 0 (BitVec.ofNat 64 addr.toNat))) ∧
      (s.SpadOpen cap pST addr n align false true → s.c.spad.accepts addr.toNat n vl = false →
        o = .next (s.raise 0x0B (labelDetail (s.c.spad.labelOf addr.toNat n) vl) (BitVec.ofNat 64 addr.toNat)))
    (∀ (d : SReg) (size : Size), s.Ready Accept.mem [a, d] .zero →
      let n := sizeBytes size
      let addr : Int := (capCursor cap.bits : Int) + s.t.immS 6 off.toNat * n
      let vl := s.lab d ||| cap.label ||| s.t.clabel
      run addr n n vl (exec (.st sw d a scope order size off) s) ∧
      (s.SpadOpen cap pST addr n n false true → s.c.spad.accepts addr.toNat n vl = true →
        let keep := size = .cap ∧ (s.rd d).tag = true ∧ hasPerm cap.bits pSTCAP = true
        let v := (s.rd d).bits.toNat % 2 ^ (8 * n)
        let b := if keep then s.c.spad.putCap addr.toNat (s.rd d).bits true else s.c.spad.put addr.toNat n v
        exec (.st sw d a scope order size off) s = .next ((s.spadWritten b addr.toNat).accessed sw cap.label scope order none) ∧
        (s.c.spad.mem.wf = true → b.mem.wf = true ∧ ∀ x, b.mem.get x =
          if addr.toNat ≤ x ∧ x < addr.toNat + n then BitVec.ofNat 8 (v / 2 ^ (8 * (x - addr.toNat)))
          else s.c.spad.mem.get x))) ∧
    (∀ (an : Anchor) (d : VReg) (fmt : MFmt), s.ReadyV an Accept.mem false → srPlain a = true →
      let addr : Int := (capCursor cap.bits : Int) + s.t.immS 6 off.toNat * 256
      let e := an.rd d
      let ok := d = .zv ∨ (if fmt = .raw then e.fmt ≠ .none else e.fmt = mfmtTag fmt)
      let vl := e.label ||| cap.label ||| s.t.clabel
      (¬ok → exec (.vst sw d a scope order fmt off) s = .next (s.raise 0x03)) ∧
      (ok → run addr 256 64 vl (exec (.vst sw d a scope order fmt off) s) ∧
        (s.SpadOpen cap pST addr 256 64 false true → s.c.spad.accepts addr.toNat 256 vl = true →
          let b := s.c.spad.put addr.toNat 256 e.bits.toNat
          (∃ dirty : BitVec 256, exec (.vst sw d a scope order fmt off) s =
            .next (State.accessed { s with c := { s.c with spad := b, dirty } } sw cap.label scope order none)) ∧
          (s.c.spad.mem.wf = true → b.mem.wf = true ∧ ∀ x, b.mem.get x =
            if addr.toNat ≤ x ∧ x < addr.toNat + 256 then BitVec.ofNat 8 (e.bits.toNat / 2 ^ (8 * (x - addr.toNat)))
            else s.c.spad.mem.get x))))

/-- R156, R157: an atomic on the core's own scratchpad reads the old value, writes the new one in the same step, and delivers the old one
zero-extended; `cas` writes only when its compared value agrees; `decf` first checks its fire cell, and sends one spawn request to the
cell's target exactly when the counter goes from non-zero to zero. The label rule is checked whether or not it writes, and a poisoned
line raises poison consumed. -/
def Claim.AtomicResults : Prop :=
  ∀ (s : State) (sw : Bool) (d a b : SReg) (scope : Scope) (order : Order) (sz : ASize),
    let cap := s.rd a
    let n := asizeBytes sz
    let m := 2 ^ (8 * n)
    let addr := capCursor cap.bits
    let old := s.c.spad.mem.read addr n
    let x := (s.rd b).bits.toNat % m
    let c := (s.rd d).bits.toNat % m
    let page := s.c.spad.labelOf addr n
    let entry : Option BufEntry := match d with
      | .g k => some (.g k { bits := BitVec.ofNat 128 old, tag := false, label := page ||| cap.label ||| s.t.clabel })
      | _ => none
    let checks (align : Nat) (vl : Label) (o : Out) : Prop :=
      (∀ e, checkAccess cap memSpaces pATOM addr n align none = .error e → o = .next (s.raise e 0 (causeValue e addr))) ∧
      (checkAccess cap memSpaces pATOM addr n align none = .ok .spad → s.forbidden .spad addr n = true →
        o = .next (s.raise 0x06 0 (BitVec.ofNat 64 addr))) ∧
      (s.SpadOpen cap pATOM addr n align true true → s.c.spad.accepts addr n vl = false →
        o = .next (s.raise 0x0B (labelDetail page vl) (BitVec.ofNat 64 addr)))
    let run (vl : Label) (new : Nat) (writes : Prop) (o : Out) : Prop :=
      checks n vl o ∧
      (s.SpadOpen cap pATOM addr n n true true → s.c.spad.accepts addr n vl = true → s.c.spad.poisoned addr n = true →
        o = .next (s.raise 0x18 3 (BitVec.ofNat 64 addr))) ∧
      (s.SpadOpen cap pATOM addr n n true true → s.c.spad.accepts addr n vl = true → s.c.spad.poisoned addr n = false →
        (writes → o = .next ((s.spadWritten (s.c.spad.put addr n new) addr).accessed sw cap.label scope order entry)) ∧
        (¬writes → o = .next ((s.spadWritten s.c.spad addr).accessed sw cap.label scope order entry)))
    let vl := s.lab b ||| cap.label ||| s.t.clabel
    (s.Ready Accept.migOnly [a, b] d →
      run vl x True (exec (.atomSwap sw d a b scope order sz) s) ∧
      run vl ((old + x) % m) True (exec (.atomAdd sw d a b scope order sz) s) ∧
      run vl (old &&& x) True (exec (.atomAnd sw d a b scope order sz) s) ∧
      run vl (old ||| x) True (exec (.atomOr sw d a b scope order sz) s) ∧
      run vl (if signed (8 * n) old ≤ signed (8 * n) x then old else x) True (exec (.atomMin sw d a b scope order sz) s) ∧
      run vl (if signed (8 * n) x ≤ signed (8 * n) old then old else x) True (exec (.atomMax sw d a b scope order sz) s) ∧
      checks 32 vl (exec (.atomDecf sw d a b scope order sz) s) ∧
      (s.SpadOpen cap pATOM addr n 32 true true → s.c.spad.accepts addr n vl = true →
        let cell := s.c.spad.mem.read addr 32
        let bad := cell / 2 ^ 64 % 4 ≠ 0 ∨ cell / 2 ^ 88 % 2 ^ 40 ≠ 0
        let new := (old + m - x) % m
        let after := (s.spadWritten (s.c.spad.put addr n new) addr)
        let o := exec (.atomDecf sw d a b scope order sz) s
        (bad → o = .next (s.raise 0x02 2)) ∧
        (¬bad → s.c.spad.poisoned addr n = true → o = .next (s.raise 0x18 3 (BitVec.ofNat 64 addr))) ∧
        (¬bad → s.c.spad.poisoned addr n = false → ¬(old ≠ 0 ∧ new = 0) → o = .next (after.accessed sw cap.label scope order entry)) ∧
        (¬bad → s.c.spad.poisoned addr n = false → old ≠ 0 → new = 0 → cell / 2 ^ 76 % 2 ^ 12 = s.d.fabric.device.toNat →
          let r : SpawnRec := {
            join := 0, arg2 := BitVec.ofNat 128 addr, arg1 := BitVec.ofNat 128 (cell / 2 ^ 192 % 2 ^ 64), rkind := 0, tags := 0,
            prio := s.t.prio, entry := BitVec.ofNat 64 (cell / 2 ^ 128 % 2 ^ 64), tid := 0, clabel := page ||| vl,
            launch := s.t.launch }
          let msg : NetMsg := { src := s.c.id, dst := BitVec.ofNat 10 (cell / 2 ^ 66), kind := .fire s.t.tid r addr }
          o = .next (State.accessed { after with d := { after.d with net := s.d.net ++ [msg] } } sw cap.label scope order entry)))) ∧
    (s.Ready Accept.migOnly [a, b, d] d →
      run (s.lab b ||| cap.label ||| s.lab d ||| s.t.clabel) x (old = c ∧ x ≠ old) (exec (.atomCas sw d a b scope order sz) s))

/-- R159, R160: a floating atomic computes under rounding to nearest even whatever TSW.RM holds, writes the result, ORs its flags into
TSW and delivers the old bits; when a flag that it raises is enabled, memory has been written, no register is (the group counts the
result all the same), and FP trap is raised after the unit. -/
def Claim.FloatingAtomicResults : Prop :=
  ∀ (s : State) (sw : Bool) (d a b : SReg) (scope : Scope) (order : Order) (fmt : SFmt), s.Ready Accept.migOnly [a, b] d →
    let cap := s.rd a
    let n := sfmtBytes fmt
    let F := match fmt with
      | .f32 => FFmt.fp32
      | .f64 => FFmt.fp64
    let addr := capCursor cap.bits
    let old := s.c.spad.mem.read addr n
    let x := (s.rd b).bits.toNat % 2 ^ (8 * n)
    let lab := s.c.spad.labelOf addr n ||| cap.label ||| s.t.clabel
    let vl := s.lab b ||| cap.label ||| s.t.clabel
    let entry : Option BufEntry := match d with
      | .g k => some (.g k { bits := BitVec.ofNat 128 old, tag := false, label := lab })
      | _ => none
    let run (r : Nat × Nat) (o : Out) : Prop :=
      (∀ e, checkAccess cap memSpaces pATOM addr n n none = .error e → o = .next (s.raise e 0 (causeValue e addr))) ∧
      (s.SpadOpen cap pATOM addr n n true true →
        (s.c.spad.accepts addr n vl = false → o = .next (s.raise 0x0B (labelDetail (s.c.spad.labelOf addr n) vl) (BitVec.ofNat 64 addr))) ∧
        (s.c.spad.accepts addr n vl = true → s.c.spad.poisoned addr n = true → o = .next (s.raise 0x18 3 (BitVec.ofNat 64 addr))) ∧
        (s.c.spad.accepts addr n vl = true → s.c.spad.poisoned addr n = false →
          let up : State := { s with t := s.t.orFlags r.2 lab }
          let after := up.spadWritten (s.c.spad.put addr n r.1) addr
          (s.t.tsw.toNat / 2 ^ 5 % 32 &&& r.2 = 0 → o = .next (after.accessed sw cap.label scope order entry)) ∧
          (s.t.tsw.toNat / 2 ^ 5 % 32 &&& r.2 ≠ 0 →
            let counted : State := { after with t := { after.t with lost := s.t.lost + (match d with | .g _ => 1 | _ => 0) } }
            o = .next ((counted.accessed sw cap.label scope order none).raiseAfter (s.t.pc + 4) 0x10 r.2 0))))
    run (fadd F 0 old x) (exec (.fatomAdd sw d a b scope order fmt) s) ∧
    run (fminmax F false old x) (exec (.fatomMin sw d a b scope order fmt) s) ∧
    run (fminmax F true old x) (exec (.fatomMax sw d a b scope order fmt) s)

/-- R86, R87, R89, R161: a release fence drains the task's combining-buffer entries unless its scope is task, and parks the task while an
operation that the scope covers is outstanding; an acquire fence parks it likewise, and at scope die or wider invalidates the core's
read cache; no fence writes a register or memory beyond that. -/
def Claim.FenceResults : Prop :=
  ∀ (s : State) (sw : Bool) (scope : Scope), s.Ready Accept.none [] .zero →
    let r := if scope = .task then s else s.drainTask
    let wait (x : State) : Prop := ∃ o ∈ x.t.ops, o.awaited scope = true
    let fresh (x : State) : State := if 4 ≤ scope.code then { x with c := { x.c with cache := [] } } else x
    (wait s → exec (.fenceAcq sw scope) s = .next (s.park .order)) ∧
    (¬wait s → exec (.fenceAcq sw scope) s = .next ((fresh s).finish sw)) ∧
    (wait r → exec (.fenceRel sw scope) s = .next (r.park (.release scope)) ∧
      exec (.fenceSc sw scope) s = .next (r.park (.release scope)) ∧ exec (.fenceAcqrel sw scope) s = .next (r.park (.release scope))) ∧
    (¬wait r → exec (.fenceRel sw scope) s = .next (r.finish sw) ∧
      exec (.fenceSc sw scope) s = .next ((fresh r).finish sw) ∧ exec (.fenceAcqrel sw scope) s = .next ((fresh r).finish sw))

/-- Loads and stores of the own scratchpad: `Claim.LoadResults`, `Claim.StoreResults`. -/
def Obligations.LoadAndStoreResults : Prop :=
  Claim.LoadResults ∧ Claim.StoreResults

/-- Integer and floating atomics of the own scratchpad: `Claim.AtomicResults`, `Claim.FloatingAtomicResults`. -/
def Obligations.AtomicForms : Prop :=
  Claim.AtomicResults ∧ Claim.FloatingAtomicResults

/-! ### Accesses away from the core -/

/-- R76, R77: a store to global memory enters the combining buffer, merged with nothing of another task, and leaves memory as it was; a
load by the same task of bytes that the buffer holds delivers those bytes, and one at scope die or wider is read at the home (R78); a
drain writes the masked bytes alone to the line's home and
empties the entry. Stated of a page of HBM or the second tier of this device. -/
def Claim.CombiningBuffer : Prop :=
  ∀ (s s' : State) (sw : Bool) (d a : SReg) (scope : Scope) (order : Order) (size : Size) (off : BitVec 6) (e : TlbEntry),
    let cap := s.rd a
    let n := sizeBytes size
    let addr : Int := (capCursor cap.bits : Int) + s.t.immS 6 off.toNat * n
    let va := addr.toNat
    let pa := e.at va
    let sh := pa % 64
    let open_ (perm : Nat) (loads stores : Bool) : Prop :=
      checkAccess cap memSpaces perm addr n n none = .ok .glob ∧ s.forbidden .glob va n = false ∧
      s.dataBreak loads stores va n = none ∧ s.t.ops = [] ∧ (order = .plain ∨ order = .acq) ∧ s.gplaceOf s.t.job s.t.level va = .here
    let mine (x : ScbEntry) : Bool := x.tid == s.t.tid && x.line == pa / 64 && x.home == Home.channel
    (s.Ready Accept.mem [a, d] .zero → open_ pST false true → s.translate .store va = (.ok e, s') → e.tier ≠ 2 →
      let vl := s.lab d ||| cap.label ||| s.t.clabel
      (vl.sub e.label = false →
        exec (.st sw d a scope order size off) s = .next (s'.raise 0x0B (labelDetail e.label vl) (BitVec.ofNat 64 va))) ∧
      (vl.sub e.label = true → s.c.scb.length < 32 → s.c.scb.find? mine = none → ∃ t x, exec (.st sw d a scope order size off) s = .next t ∧
        t.c.scb = s.c.scb ++ [x] ∧ x.line = pa / 64 ∧ x.home = Home.channel ∧ x.tid = s.t.tid ∧
        x.mask = BitVec.ofNat 64 ((2 ^ n - 1) * 2 ^ sh) ∧
        x.data = BitVec.ofNat 512 ((s.rd d).bits.toNat % 2 ^ (8 * n) * 2 ^ (8 * sh)) ∧
        t.d.gmem = s.d.gmem ∧ t.d.shared = s.d.shared ∧ t.c.spad = s.c.spad ∧ t.t.g = s.t.g ∧ t.t.buf = s.t.buf ∧ t.t.pc = s.t.pc + 4 ∧
        t.t.clabel = s.t.clabel ||| cap.label)) ∧
    (s.Ready Accept.mem [a] d → open_ pLD true false → s.translate .load va = (.ok e, s') → e.tier ≠ 2 →
      ∀ x, s.c.scb.find? mine = some x → x.mask.toNat / 2 ^ sh % 2 ^ n = 2 ^ n - 1 → scope.code < 4 →
        let v : Val := {
          bits := BitVec.ofNat 128 (x.data.toNat / 2 ^ (8 * sh) % 2 ^ (8 * n)), tag := false,
          label := e.label ||| cap.label ||| s.t.clabel }
        exec (.ld sw d a scope order size off) s = .next (s'.accessed sw cap.label scope order
          (match d with | .g k => some (.g k v) | _ => none))) ∧
    (s.Ready Accept.mem [a] d → open_ pLD true false → s.translate .load va = (.ok e, s') → e.tier ≠ 2 → 4 ≤ scope.code →
      ∃ t o, exec (.ld sw d a scope order size off) s = .next t ∧ t.t.ops = [o] ∧ o.stage = .sent ∧ o.dest = laterDest d ∧
        (∃ x, o.kind = .access x ∧ x.home = Home.channel ∧ x.addr = pa ∧ x.n = n ∧ x.kind = .ld size) ∧
        t.t.buf = s.t.buf ++ (match d with | .g k => [.wait o.id (.g k)] | _ => []) ∧ t.c.scb = s.c.scb ∧ t.d.gmem = s.d.gmem) ∧
    (∀ (i : Nat) (x : ScbEntry), s.c.scb[i]? = some x → x.home = Home.channel → x.comp = false → s.d.fencedChannels = [] →
      sysPieceOf s.d (64 * x.line) = none → ∃ t, exec (.combiningBufferDrain s.c.id i) s = .next t ∧
        t.d.gmem = s.d.gmem.putMasked (64 * x.line) 64 x.mask.toNat x.data.toNat ∧ t.c.scb = s.c.scb.filter (fun k => k != x) ∧
        t.t = s.t ∧ t.c.spad = s.c.spad ∧ t.d.shared = s.d.shared)

/-- R22, R50, R155, R353: a hearth executes the next access to its slice and sends the outcome back: a load gives the bytes, a store
whose label the page holds writes them and clears tags, any other writes nothing and fails with label violation, and a fenced slice
refuses all. The reply puts a load's value in the place that its group kept for it; a failed load raises its cause at its unit; an
acknowledged store is done, and a failed one leaves its cause for the task's next unit. A load of global memory is performed at its
channel home, and the task's own buffered bytes are merged over what it gives (R77). -/
def Obligations.RemoteAccesses : Prop :=
  ∀ s : State,
    (∀ tid op a src rest, s.Delivers src (.access tid op a) rest → a.home = .slice s.c.id →
      let f := ((s.took rest).count 9).dropOrphan op
      let old := s.d.shared.mem.read a.addr a.n
      let page := s.d.shared.labelOf a.addr a.n
      let r : Result := { data := BitVec.ofNat 512 old, tag := a.keep && s.d.shared.tagAt a.addr, label := page, flags := 0 }
      let run (t : State) : Prop := exec (.hearthRemoteAccess s.c.id (s.end_ src)) s = .next t
      (s.d.fencedSlices.contains s.c.id = true → run (f.setStage src op (.failed 0x11 0x18))) ∧
      (s.d.fencedSlices.contains s.c.id = false →
        (a.kind.isLoad = true → s.d.shared.poisoned a.addr a.n = false → run (f.setStage src op (.executed r))) ∧
        (a.kind.isLoad = true → s.d.shared.poisoned a.addr a.n = true → run (f.setStage src op (.failed 0x18 4))) ∧
        (a.kind.isStore = true → s.d.shared.accepts a.lo a.len a.vl = false →
          run (f.setStage src op (.failed 0x0B (BitVec.ofNat 32 (labelDetail (s.d.shared.labelOf a.lo a.len) a.vl))))) ∧
        (a.kind.isStore = true → s.d.shared.accepts a.lo a.len a.vl = true → a.tag = false → run (State.setStage
          { f with d := (Device.countWrites { f.d with shared := s.d.shared.put a.addr a.n a.data.toNat } a.addr a.n).rereadSlices a.addr a.n } src op (.executed r))))) ∧
    (∀ o f a size n, s.Holds o f → o.kind = .access a → a.kind = .ld size → o.result = true → o.dest = some (.g n) → o.peer = false →
      o.host = false → a.order = .plain → f.t.arrival = none →
      let lab := a.al ||| o.clabel
      let v (bits : Nat) (tag : Bool) (page : Label) : BufEntry :=
        .g n { bits := BitVec.ofNat 128 (bits % 2 ^ (8 * a.n)), tag, label := page ||| lab }
      (∀ r, o.stage = .executed r → exec (.remoteReply s.c.id o.id none) s =
        .next { f with t := { f.t.without o.id with
          buf := fillWait o.id (some (v r.data.toNat r.tag r.label)) f.t.buf,
          held := f.t.held.map (fun h => { h with buf := fillWait o.id (some (v r.data.toNat r.tag r.label)) h.buf }) } }) ∧
      (∀ c detail, o.stage = .failed c detail → exec (.remoteReply s.c.id o.id none) s = .next (State.raiseAt
        { f with t := { (f.t.fill o.id none).without o.id with arrival := none } } o.pc c.toNat detail.toNat (causeValue c.toNat a.va))) ∧
      (o.stage = .sent → a.home = .channel → f.d.gpoisoned a.comp a.addr a.n = false → a.n = sizeBytes size →
        let x := f.forward a (f.d.gread a.comp a.addr a.n)
        ∃ t, exec (.remoteReply s.c.id o.id none) s = .next t ∧
          t.t = { f.t.without o.id with
            buf := fillWait o.id (some (v x false a.page)) f.t.buf,
            held := f.t.held.map (fun h => { h with buf := fillWait o.id (some (v x false a.page)) h.buf }) } ∧
          t.d.gmem = f.d.gmem ∧ t.d.decoded = f.d.decoded ∧ t.c.spad = f.c.spad)) ∧
    (∀ o f a size, s.Holds o f → o.kind = .access a → a.kind = .st size → o.result = false → o.dest = none →
      f.t.arrival = none → (a.order = .plain ∨ a.order = .rel) →
      (∀ r, o.stage = .executed r → exec (.operationAcknowledgement s.c.id o.id) s = .next { f with t := f.t.without o.id }) ∧
      (∀ c detail st, o.stage = .failed c detail → c ≠ 0x11 → c ≠ 0x12 → exec (.deferredErrorReply s.c.id o.id st) s =
        .next { f with t := { (f.t.fill o.id none).without o.id with
          arrival := none, deferred := f.t.deferred ++ [(c, detail, causeValue c.toNat a.va)] } }) ∧
      (∀ c detail st, o.stage = .failed c detail → (c = 0x11 ∨ c = 0x12) → exec (.deferredErrorReply s.c.id o.id st) s =
        .next { f with t := { (f.t.fill o.id none).without o.id with
          arrival := none, deferred := f.t.deferred ++ [(c, BitVec.ofNat 32 (detail.toNat + 256), causeValue c.toNat a.va)] } }))

/-- R83: the host port takes its atomics one at a time in the order of arrival; a swap, cas or add is one request, whose completion gives
the old value and leaves the new one in host memory; any other runs as a compare loop, ended by a completion that returns the compared
value, without a request when nothing changes, and failed after 256 requests; an unsuccessful or late completion ends the atomic with
remote error and no effect. -/
def Claim.HostAtomics : Prop :=
  ∀ (s : State) (h : HostAtomic) (value : BitVec 64), s.d.fabric.pending = [] → s.d.fencedChannels = [] → h.core = s.c.id →
    let a := h.acc
    let old := value.toNat % 2 ^ (8 * a.n)
    let new := (a.effect old).1.getD old
    let ends (o : Out) (stage : OpStage) (mem : Bank) : Prop := ∃ t, o = .next t ∧ t.d.hostAtomic = none ∧ t.d.hostQueue = s.d.hostQueue ∧
      t.d.gmem = mem ∧ t.t.ops = s.t.ops.map (fun o => if o.id = h.op then { o with stage } else o) ∧ t.t.g = s.t.g ∧ t.t.buf = s.t.buf ∧
      t.c.spad = s.c.spad ∧ t.d.shared = s.d.shared
    let done : OpStage := .executed { data := BitVec.ofNat 512 old, tag := false, label := a.page,
                                      flags := BitVec.ofNat 5 (a.effect old).2.1 }
    let wrote := s.d.gmem.putMasked a.addr a.n (2 ^ a.n - 1) new
    let failed : OpStage := .failed 0x11 0
    (∀ r, s.d.hostAtomic = none → s.d.hostQueue = h :: r →
      exec .hostPortAtomic s = .next { s with d := { s.d with hostAtomic := some h, hostQueue := r } }) ∧
    (s.d.hostAtomic = some h →
      ends (exec (.atomicopCompletion value false) s) failed s.d.gmem ∧ ends (exec .cxlCompletionTimeout s) failed s.d.gmem ∧
      (a.kind.oneRequest = true → ends (exec (.atomicopCompletion value true) s) done wrote) ∧
      (a.kind.oneRequest = false → h.compared = none → new = old → ends (exec (.atomicopCompletion value true) s) done wrote) ∧
      (a.kind.oneRequest = false → h.compared = none → new ≠ old → exec (.atomicopCompletion value true) s =
        .next { s with d := { s.d with hostAtomic := some { h with compared := some (BitVec.ofNat 64 old), tries := 1 } } }) ∧
      (a.kind.oneRequest = false → h.compared = some (BitVec.ofNat 64 old) → ends (exec (.atomicopCompletion value true) s) done wrote) ∧
      (∀ c, a.kind.oneRequest = false → h.compared = some c → old ≠ c.toNat →
        (h.tries < 256 → exec (.atomicopCompletion value true) s = .next { s with d := { s.d with
          hostAtomic := some { h with compared := some (BitVec.ofNat 64 old), tries := h.tries + 1 } } }) ∧
        (256 ≤ h.tries → ends (exec (.atomicopCompletion value true) s) failed s.d.gmem)))

/-- R22, R24: the hearth starts a handler-type active message as a task of its own, at the message's entry, at user level, with its
arguments in g1 to g4 under the message's label; the 513th instruction is not issued: the run ends, and its sender has status 0x13 with
the count. -/
def Claim.ActiveMessages : Prop :=
  ∀ s : State,
    (∀ tid op entry args label job src rest, s.Delivers src (.active tid op entry args label job) rest → s.c.hearth = none →
      s.t.onHearth = false → s.c.trace.creates = [] → ∃ t h, exec (.activeMessage s.c.id (s.end_ src)) s = .next t ∧
        t.c.hearth = some h ∧ h.src = src ∧ h.op = op ∧ h.count = 0 ∧ h.task.pc = entry ∧ h.task.level = 0 ∧ h.task.clabel = label ∧
        h.task.job = job ∧ h.task.status = .ready ∧
        (∀ n : Fin 4, h.task.g[n.val + 1] = { bits := (args[n]).setWidth 128, tag := false, label }) ∧
        h.task.g[0] = Val.zero ∧ (∀ n : Fin 11, h.task.g[n.val + 5] = Val.zero) ∧
        t.t = s.t ∧ t.d.net = rest ∧ t.c.spad = s.c.spad ∧ t.d.gmem = s.d.gmem ∧ t.c.slots = s.c.slots) ∧
    (∀ h, s.c.hearth = some h → s.t.onHearth = false → 512 ≤ h.count → h.task.status = .ready → h.task.onHearth = true →
      ∃ t, exec (.hearthOverrun s.c.id) s = .next t ∧ t.c.hearth = none ∧ t.c.spad = s.c.spad ∧ t.d.gmem = s.d.gmem ∧
        t.d.shared = s.d.shared ∧
        t.d.fabric = s.d.fabric.replied h.op 0x13 false h.task.clabel (toBytes 8 h.count))

/-- Fences, and the combining buffer that they drain: `Claim.FenceResults`, `Claim.CombiningBuffer`. -/
def Obligations.FencesAndDrains : Prop :=
  Claim.FenceResults ∧ Claim.CombiningBuffer

/-- Atomics on host memory, and active messages: `Claim.HostAtomics`, `Claim.ActiveMessages`. -/
def Obligations.HostAtomicsAndActiveMessages : Prop :=
  Claim.HostAtomics ∧ Claim.ActiveMessages

/-! ### Barriers, waits for change and the inbox -/

/-- The state of a barrier object after its phase is examined (R163): with members, all of them arrived, the phase completes. -/
def settled (b : BarObj) (t : BarObj) : Prop :=
  t.owner = b.owner ∧ t.members = b.members ∧
  (b.members ≠ 0 ∧ b.arrived = b.members → t.phase = b.phase + 1 ∧ t.arrived = 0 ∧ t.plabel = 0) ∧
  (¬(b.members ≠ 0 ∧ b.arrived = b.members) → t.phase = b.phase ∧ t.arrived = b.arrived ∧ t.plabel = b.plabel)

/-- R162 to R164: the cluster-barrier forms on the object that G[a] names, in a task with nothing outstanding. Reserved field is raised
for bits above the object number, permission for an object that is not the job's, or for a form that needs membership of it. -/
def Claim.BarrierForms : Prop :=
  ∀ (s : State) (sw : Bool) (d a b : SReg) (scope : Scope), s.Still →
    let cl := CoreId.cluster s.c.id
    let x : BarObj := s.d.barrier cl ((s.x a).setWidth 6)
    let bit (i : BitVec 6) : BitVec 64 := BitVec.ofNat 64 (2 ^ i.toNat)
    let mine := (s.x a).toNat < 64 ∧ x.owner ≠ 0 ∧ x.owner = s.t.job
    let up := s.t.clabel ||| s.lab a
    let checks (o : Out) : Prop :=
      (64 ≤ (s.x a).toNat → o = .next (s.raise 0x02 1)) ∧
      ((s.x a).toNat < 64 → (x.owner = 0 ∨ x.owner ≠ s.t.job) → o = .next (s.raise 0x06))
    let member (o : Out) : Prop := mine → (∀ i, s.t.member ≠ some (x.obj, i)) → o = .next (s.raise 0x06)
    let result (t : State) (r : SReg) (v : Val) : Prop := t.t.buf = (match r with
      | .g n => s.t.buf ++ [.g n v]
      | _ => s.t.buf)
    let frame (t : State) : Prop :=
      t.t.g = s.t.g ∧ t.t.l = s.t.l ∧ t.c.spad = s.c.spad ∧ t.c.slots = s.c.slots ∧ t.d.gmem = s.d.gmem ∧ t.d.shared = s.d.shared ∧
      ∀ c o, (c ≠ cl ∨ o ≠ x.obj) → t.d.barrier c o = s.d.barrier c o
    let arrives (i : BitVec 6) (t : State) : Prop :=
      settled { x with arrived := x.arrived ||| bit i, plabel := x.plabel ||| up } (t.d.barrier cl x.obj)
    let ticket : Val := { bits := x.phase.setWidth 128, tag := false, label := x.plabel ||| up }
    (s.Ready Accept.none [a] d →
      checks (exec (.barJoin sw d a) s) ∧ checks (exec (.barArrive sw d a scope) s) ∧ checks (exec (.barSync sw d a scope) s) ∧
      checks (exec (.barMiss sw d a) s) ∧ member (exec (.barArrive sw d a scope) s) ∧ member (exec (.barSync sw d a scope) s) ∧
      (mine → s.t.member ≠ none → exec (.barJoin sw d a) s = .next (s.raise 0x01)) ∧
      (mine → s.t.member = none → x.members = BitVec.allOnes 64 → exec (.barJoin sw d a) s = .next (s.raise 0x06)) ∧
      (∀ i : BitVec 6, mine → s.t.member = none → x.members.getLsbD i.toNat = false → (∀ j < i.toNat, x.members.getLsbD j = true) →
        ∃ t, exec (.barJoin sw d a) s = .next t ∧ t.t.member = some (x.obj, i) ∧ tswPin t.t.tsw = true ∧
          (t.d.barrier cl x.obj) = { x with members := x.members ||| bit i } ∧ t.t.clabel = up ∧
          result t d { bits := BitVec.ofNat 128 i.toNat, tag := false, label := up } ∧ frame t ∧ t.t.pc = s.t.pc + 4) ∧
      (∀ i, mine → s.t.member = some (x.obj, i) → x.arrived &&& bit i ≠ 0 →
        exec (.barArrive sw d a scope) s = .next (s.park (.rearrive x.obj x.phase))) ∧
      (∀ i, mine → s.t.member = some (x.obj, i) → x.arrived &&& bit i = 0 → ∃ t, exec (.barArrive sw d a scope) s = .next t ∧
        arrives i t ∧ result t d ticket ∧ frame t ∧ t.t.member = s.t.member ∧ t.t.pc = s.t.pc + 4 ∧ t.t.clabel = up) ∧
      (∀ i, mine → s.t.member = some (x.obj, i) → s.t.arrival = none → x.arrived &&& bit i = 0 → s.t.pc = s.t.unitPc →
        ∃ t, exec (.barSync sw d a scope) s = .next t ∧ arrives i t ∧ frame t ∧ t.t.member = s.t.member ∧
          ((t.d.barrier cl x.obj).phase = x.phase → t.t.status = .parked (.phase x.obj x.phase) ∧
            t.t.arrival = some (s.t.unitPc, x.phase) ∧ t.t.pc = s.t.unitPc ∧ t.t.buf = s.t.buf) ∧
          ((t.d.barrier cl x.obj).phase ≠ x.phase → t.t.arrival = none ∧ t.t.pc = s.t.pc + 4 ∧
            t.t.clabel = up ||| x.plabel ∧ result t d { ticket with label := x.plabel ||| up })) ∧
      (∀ i k, mine → s.t.member = some (x.obj, i) → s.t.arrival = some (s.t.unitPc, k) → passed x.phase k = true → s.t.pc = s.t.unitPc →
        ∃ t, exec (.barSync sw d a scope) s = .next t ∧ t.t.arrival = none ∧ t.t.pc = s.t.pc + 4 ∧ frame t ∧
          t.t.clabel = s.t.clabel ||| (x.labels.lookup k).getD 0 ∧ t.d.barriers = s.d.barriers ∧
          result t d { bits := k.setWidth 128, tag := false, label := (x.labels.lookup k).getD x.plabel ||| t.t.clabel }) ∧
      (mine → ∃ t, exec (.barMiss sw d a) s = .next t ∧ t.d = s.d ∧ t.t.pc = s.t.pc + 4 ∧ t.t.clabel = up ∧ frame t ∧
        result t d { bits := (x.phase ++ (x.members &&& ~~~x.arrived)).setWidth 128, tag := false, label := x.plabel ||| up })) ∧
    (s.Ready Accept.none [a] .zero → checks (exec (.barLeave sw a) s) ∧ member (exec (.barLeave sw a) s) ∧
      ∀ i, mine → s.t.member = some (x.obj, i) → ∃ t, exec (.barLeave sw a) s = .next t ∧ t.t.member = none ∧ tswPin t.t.tsw = false ∧
        settled { x with members := x.members &&& ~~~bit i, arrived := x.arrived &&& ~~~bit i } (t.d.barrier cl x.obj) ∧
        t.t.buf = s.t.buf ∧ t.t.clabel = up ∧ frame t ∧ t.t.pc = s.t.pc + 4) ∧
    (s.Ready Accept.none [a, b] .zero → checks (exec (.barWait sw a b scope) s) ∧ member (exec (.barWait sw a b scope) s) ∧
      ∀ i, mine → s.t.member = some (x.obj, i) →
        let k : BitVec 32 := (s.x b).setWidth 32
        (passed x.phase k = true → ∃ t, exec (.barWait sw a b scope) s = .next t ∧ t.t.clabel = up ||| (x.labels.lookup k).getD 0 ∧
          (4 ≤ scope.code → t.c.cache = []) ∧ t.t.buf = s.t.buf ∧ t.d = s.d ∧ frame t ∧ t.t.pc = s.t.pc + 4) ∧
        (passed x.phase k = false → ∃ t, exec (.barWait sw a b scope) s = .next t ∧ t.t.status = .parked (.phase x.obj k) ∧
          t.t.pc = s.t.unitPc ∧ t.t.buf = s.t.buf ∧ t.d.barriers = s.d.barriers ∧ frame t)) ∧
    (∀ obj k, s.t.status = .parked (.phase obj k) → s.t.onHearth = false → ∃ t, exec (.barrierWaitWake s.c.id s.t.tid) s = .next t ∧
      t.t = (if passed (s.d.barrier cl obj).phase k then { s.t with status := .ready } else s.t) ∧ t.d = s.d ∧ t.c.slots = s.c.slots)

/-- R165, R166: `bar.wregion` sets the core's region after its checks and resets the phase count; `bar.warrive` arrives for the core and
delivers the count; a wire wait ends with 0 when the phase has passed its ticket, and otherwise parks; when every core of the region has
arrived with one descriptor, each counts the phase and its waits go on; a wait that runs out of time ends with the masks of the
columns and rows that hold a missing core. -/
def Claim.WireBarriers : Prop :=
  ∀ (s : State) (sw : Bool) (d a : SReg) (scope : Scope), s.Still →
    let v := (s.rd a).bits
    let r : BitVec 48 := v.setWidth 48
    let X0 := v.toNat % 16
    let Y0 := v.toNat / 16 % 16
    let X1 := v.toNat / 256 % 16
    let Y1 := v.toNat / 4096 % 16
    let die := CoreId.die s.c.id
    let inside := X0 ≤ CoreId.x s.c.id ∧ CoreId.x s.c.id ≤ X1 ∧ Y0 ≤ CoreId.y s.c.id ∧ CoreId.y s.c.id ≤ Y1
    let held := ∀ c ∈ wireCores die r, s.d.jobHolds s.part s.t.job c = true
    let o := exec (.barWregion sw a) s
    (s.Ready Accept.none [a] .zero →
      ((2 ^ 48 ≤ v.toNat ∨ X1 < X0 ∨ Y1 < Y0) → o = .next (s.raise 0x02 1)) ∧
      (v.toNat < 2 ^ 48 → X0 ≤ X1 → Y0 ≤ Y1 →
        (¬inside → o = .next (s.raise 0x05)) ∧ (inside → ¬held → o = .next (s.raise 0x06)) ∧
        (inside → held → s.c.warrived = true → o = .next (s.raise 0x01)) ∧
        (inside → held → s.c.warrived = false → o = .next (State.finish { s with c := { s.c with region := some r, wphase := 0 } } sw)))) ∧
    (s.Ready Accept.none [] d →
      (s.c.region = none → exec (.barWarrive sw d scope) s = .next (s.raise 0x06)) ∧
      (s.c.region ≠ none → s.c.warrived = true → exec (.barWarrive sw d scope) s = .next (s.park (.wireAgain s.c.wphase))) ∧
      (s.c.region ≠ none → s.c.warrived = false → exec (.barWarrive sw d scope) s = .next (State.gives
        { s with c := { s.c with warrived := true } } false sw d { bits := s.c.wphase.setWidth 128, tag := false, label := s.t.clabel }))) ∧
    (s.Ready Accept.none [a] d →
      let k : BitVec 32 := (s.x a).setWidth 32
      let w := exec (.barWwait sw d a scope) s
      let result (t : State) (n : Word) : Prop := t.t.buf = (match d with
        | .g i => s.t.buf ++ [.g i { bits := n.setWidth 128, tag := false, label := s.lab a ||| s.t.clabel }]
        | _ => s.t.buf)
      (s.c.region = none → w = .next (s.raise 0x06)) ∧
      (∀ n, s.c.region ≠ none → s.t.wireOut = some n → ∃ t, w = .next t ∧ result t n ∧ t.t.wireOut = none ∧ t.c.cache = s.c.cache ∧
        t.t.pc = s.t.pc + 4 ∧ t.d = s.d) ∧
      (s.c.region ≠ none → s.t.wireOut = none → passed s.c.wphase k = true → ∃ t, w = .next t ∧ result t 0 ∧
        (4 ≤ scope.code → t.c.cache = []) ∧ t.t.pc = s.t.pc + 4 ∧ t.d = s.d) ∧
      (s.c.region ≠ none → s.t.wireOut = none → passed s.c.wphase k = false → w = .next (s.park (.wire k s.d.cycle)))) ∧
    (∀ r, s.c.region = some r → (∀ c ∈ wireCores die r, (s.core c).region = some r ∧ (s.core c).warrived = true) →
      s.t.status ≠ .vacant → s.t.onHearth = false → s.c.port.toNat < 24 → ∃ t, exec (.wirePhaseComplete s.c.id) s = .next t ∧
        t.c.wphase = s.c.wphase + 1 ∧ t.c.warrived = false ∧ t.c.region = some r ∧ t.c.spad = s.c.spad ∧ t.c.port = s.c.port ∧
        (∀ k c, s.t.status = .parked (.wire k c) → t.t = { s.t with status := if passed (s.c.wphase + 1) k then .ready else s.t.status }) ∧
        (s.t.status = .ready → t.t = s.t) ∧
        (∀ c ∈ s.d.cores, c.id ∈ wireCores die r → ∃ c' ∈ t.d.cores, c'.id = c.id ∧ c'.wphase = c.wphase + 1 ∧ c'.warrived = false) ∧
        (∀ c ∈ s.d.cores, c.id ∉ wireCores die r → c ∈ t.d.cores) ∧ t.d.gmem = s.d.gmem) ∧
    (∀ r k since, s.c.region = some r → s.t.status = .parked (.wire k since) → r.toNat / 65536 % 2 ^ 32 ≠ 0 →
      since + r.toNat / 65536 % 2 ^ 32 ≤ s.d.cycle → s.t.onHearth = false → s.c.trace.rctl = 0 → s.c.trace.before = [] →
      let missing (c : CoreId) : Prop := c ∈ wireCores die r ∧ ¬((s.core c).region = some r ∧ (s.core c).warrived = true)
      ∃ t n, exec (.wireWaitTimeout s.c.id s.t.tid) s = .next t ∧ t.t = { s.t with status := .ready, wireOut := some n } ∧
        n.getLsbD 63 = true ∧ (∀ i < 16, n.getLsbD (16 + i) = true ↔ ∃ c, missing c ∧ CoreId.x c = r.toNat % 16 + i) ∧
        (∀ i < 16, n.getLsbD i = true ↔ ∃ c, missing c ∧ CoreId.y c = r.toNat / 16 % 16 + i) ∧
        (∀ i, 32 ≤ i → i < 63 → n.getLsbD i = false) ∧ t.c.warrived = s.c.warrived ∧ t.d = s.d)

/-- R167: a wait for change on the core's scratchpad parks its task while the location holds the compared value, and otherwise delivers the
value found, acquires, and raises the control label by its label; global memory raises permission, a misaligned place its cause. A
parked wait goes on when its location differs from the value last read. -/
def Claim.WaitsForChange : Prop :=
  ∀ (s : State) (sw : Bool) (d a b : SReg) (scope : Scope), s.Ready Accept.none [a, b] d → s.t.ops = [] →
    let cap := s.rd a
    let at_ := capCursor cap.bits
    let run (n : Nat) (o : Out) : Prop :=
      let v := s.c.spad.mem.read at_ n
      let lab := s.c.spad.labelOf at_ n ||| cap.label ||| s.t.clabel
      (∀ c, checkAccess cap memSpaces pLD at_ n 1 none = .error c → o = .next (s.raise c 0 (causeValue c at_))) ∧
      (checkAccess cap memSpaces pLD at_ n 1 none = .ok .glob → o = .next (s.raise 0x06 0 (BitVec.ofNat 64 at_))) ∧
      (checkAccess cap memSpaces pLD at_ n 1 none = .ok .spad → at_ % n ≠ 0 → o = .next (s.raise 0x08 0 (BitVec.ofNat 64 at_))) ∧
      (checkAccess cap memSpaces pLD at_ n 1 none = .ok .spad → at_ % n = 0 → at_ < 0x100000 →
        s.forbidden .spad at_ n = false → s.dataBreak true false at_ n = none → s.c.spad.poisoned at_ n = false →
        (v = (s.rd b).bits.toNat % 2 ^ (8 * n) →
          o = .next (State.park { s with t := { s.t with clabel := s.t.clabel ||| cap.label } } (.change at_ n v))) ∧
        (v ≠ (s.rd b).bits.toNat % 2 ^ (8 * n) → ∃ t, o = .next t ∧ t.t.clabel = s.t.clabel ||| lab ∧
          t.t.buf = (match d with
            | .g k => s.t.buf ++ [.g k { bits := BitVec.ofNat 128 v, tag := false, label := lab }]
            | _ => s.t.buf) ∧
          (4 ≤ scope.code → t.c.cache = []) ∧ t.t.pc = s.t.pc + 4 ∧ t.t.g = s.t.g ∧ t.c.spad = s.c.spad ∧ t.d = s.d))
    run 4 (exec (.barWfcw sw d a b scope) s) ∧ run 8 (exec (.barWfcd sw d a b scope) s) ∧
    (∀ x n seen, s.t.status = .parked (.change x n seen) → s.t.onHearth = false → x < 0x100000 → s.c.spad.poisoned x n = false →
      ∃ t, exec (.waitForChangeWake s.c.id s.t.tid) s = .next t ∧
        t.t = { s.t with status := if s.c.spad.mem.read x n = seen then s.t.status else .ready } ∧ t.d = s.d ∧ t.c.spad = s.c.spad)

/-- R168, R169: `inbox.pop` stores the oldest message at the cursor of G[a], removes it and delivers its low doubleword; without a message it
parks while a reservation is held, and delivers 0 with neither; a store that faults leaves the message held. `inbox.peek` removes nothing,
and `inbox.count` delivers the numbers of messages and reservations. A message that arrives uses one reservation, and a task that waits
for it goes on; for a task that has ended it is discarded. -/
def Claim.InboxForms : Prop :=
  ∀ (s : State) (sw : Bool) (d a : SReg),
    let low (m : Msg) : Val := { bits := BitVec.ofNat 128 (m.bits.toNat % 2 ^ 64), tag := false, label := m.label ||| s.t.clabel }
    let none_ : Val := { bits := 0, tag := false, label := s.t.clabel }
    (s.Ready Accept.none [a] d →
      (s.t.inbox = [] → s.t.resv = 0 → exec (.inboxPop sw d a) s = .next (s.gives false sw d none_)) ∧
      (s.t.inbox = [] → 0 < s.t.resv → ∃ t, exec (.inboxPop sw d a) s = .next t ∧ t.t.status = .parked .inbox ∧ t.t.pc = s.t.unitPc ∧
        t.t.buf = s.t.buf ∧ t.t.resv = s.t.resv ∧ t.d.net = s.d.net ∧ t.d.gmem = s.d.gmem ∧ t.c.spad = s.c.spad) ∧
      (∀ m rest, s.t.inbox = m :: rest →
        let cap := s.rd a
        let at_ := capCursor cap.bits
        let vl := m.label ||| cap.label ||| s.t.clabel
        let chk := checkAccess cap memSpaces pST at_ 32 32 (some .spad)
        (∀ c, chk = .error c → exec (.inboxPop sw d a) s = .next (s.raise c 0 (causeValue c at_))) ∧
        (chk = .ok .spad → s.forbidden .spad at_ 32 = false → s.c.spad.accepts at_ 32 vl = false →
          exec (.inboxPop sw d a) s = .next (s.raise 0x0B (labelDetail (s.c.spad.labelOf at_ 32) vl) (BitVec.ofNat 64 at_))) ∧
        (chk = .ok .spad → s.forbidden .spad at_ 32 = false → s.c.spad.accepts at_ 32 vl = true →
          s.dataBreak false true at_ 32 = none → s.t.ops.any (·.acquiring) = false → s.t.ops.any (·.touches at_ 32) = false →
          ∃ t, exec (.inboxPop sw d a) s = .next t ∧
          t.c.spad = s.c.spad.put at_ 32 m.bits.toNat ∧ t.t.inbox = rest ∧ t.t.resv = s.t.resv ∧ t.t.clabel = s.t.clabel ||| cap.label ∧
          t.t.buf = (match d with
            | .g k => s.t.buf ++ [.g k { low m with label := m.label ||| (s.t.clabel ||| cap.label) }]
            | _ => s.t.buf) ∧
          t.t.pc = s.t.pc + 4 ∧ t.t.g = s.t.g ∧ t.d = s.d ∧ t.c.slots = s.c.slots))) ∧
    (s.Ready Accept.none [] d →
      (s.t.inbox = [] → exec (.inboxPeek sw d) s = .next (s.gives false sw d none_)) ∧
      (∀ m rest, s.t.inbox = m :: rest → exec (.inboxPeek sw d) s = .next (s.gives false sw d (low m))) ∧
      (s.t.inbox.length < 2 ^ 16 → s.t.resv < 2 ^ 16 → exec (.inboxCount sw d) s = .next (s.gives false sw d {
        bits := BitVec.ofNat 128 (s.t.inbox.length + 2 ^ 16 * s.t.resv), tag := false,
        label := s.t.inbox.foldl (fun l m => l ||| m.label) s.t.clabel }))) ∧
    (∀ src tid m rest, s.d.net = { src, dst := s.c.id, kind := .inbox tid m } :: rest → s.d.savedOf tid = none → s.t.onHearth = false →
      (s.t.tid = tid → s.t.status ≠ .vacant → ∃ t, exec (.inboxMessage s.c.id) s = .next t ∧
        t.t = { s.t with resv := s.t.resv - 1, inbox := s.t.inbox ++ [m],
                         status := if s.t.status = .parked .inbox then .ready else s.t.status } ∧
        t.d = { s.d with net := rest } ∧ t.c.slots = s.c.slots) ∧
      (s.focusTask s.c.id tid = none → exec (.inboxMessage s.c.id) s = .next { s with d := { s.d with net := rest } }))

/-- The barriers of a cluster and the wire barrier: `Claim.BarrierForms`, `Claim.WireBarriers`. -/
def Obligations.BarrierResults : Prop :=
  Claim.BarrierForms ∧ Claim.WireBarriers

/-- Waits for change, and the inbox: `Claim.WaitsForChange`, `Claim.InboxForms`. -/
def Obligations.WaitsAndInbox : Prop :=
  Claim.WaitsForChange ∧ Claim.InboxForms

/-! ### Tasks: spawning, joining, ending, anchoring, stealing and migration -/

/-- R175: the source record of a spawn passes its checks, and r is the record that the spawn forms from it, without its TID. -/
def sourceOk (s : State) (a : SReg) (r : SpawnRec) : Prop :=
  let cap := s.rd a
  let at_ := capCursor cap.bits
  let n := s.c.spad.mem.read at_ 64
  let src := spawnOf n s.t.launch
  let tags := s.c.spad.recordTags at_
  checkAccess cap [0, 3] pLD at_ 64 64 (some .spad) = .ok .spad ∧ s.forbidden .spad at_ 64 = false ∧
  s.c.spad.poisoned at_ 64 = false ∧ n / 2 ^ 126 % 4 = 0 ∧ n / 2 ^ 119 % 2 = 0 ∧ s.d.entryOk s.t.launch src.entry 0 = true ∧
  joinOk src.join (tags.getLsbD 2) = true ∧
  r = { src with
    tags, prio := minPrio src.prio (s.d.ceilOf s.t.launch src.entry),
    clabel := s.t.clabel ||| cap.label ||| s.c.spad.labelOf at_ 64 }

/-- What a result-writing form leaves in the buffer. -/
def buffered (s : State) (d : SReg) (v : Val) : List BufEntry :=
  match d with
  | .g n => s.t.buf ++ [.g n v]
  | _ => s.t.buf

/-- R175, R176: `task.spawn` names its record, pushes it at BOT and delivers the TID; on a full deque the child is kept to run inline after
the group, and with sixteen inline frames queue overflow is raised; `task.spawnto` sends the record to its target core and its group
waits for the reply. Stated of a task with nothing outstanding. -/
def Claim.SpawnForms : Prop :=
  ∀ (s : State) (d a b : SReg) (r : SpawnRec), s.Still → s.c.trace.creates = [] → sourceOk s a r →
    let tid : Tid := BitVec.ofNat 48 (s.d.fabric.device.toNat * 2 ^ 36 + s.c.id.toNat * 2 ^ 26 + s.c.seq.toNat)
    let ends (t : State) (lab : Label) : Prop := t.t.status = .parked .group ∧ t.t.pc = s.t.pc + 4 ∧ t.t.clabel = s.t.clabel ||| lab ∧
      t.c.seq = s.c.seq + 1 ∧ t.t.g = s.t.g ∧ t.t.l = s.t.l ∧ t.c.slots = s.c.slots ∧ t.d.gmem = s.d.gmem ∧ t.d.shared = s.d.shared
    (s.Ready Accept.none [a] d →
      let v : Val := { bits := tid.setWidth 128, tag := false, label := r.clabel }
      (s.c.dqLen < s.c.dqCap → ∃ t, exec (.taskSpawn d a) s = .next t ∧ ends t r.clabel ∧ t.t.buf = buffered s d v ∧
        t.c.spad = s.c.spad.put (s.c.dqAt s.c.dqBot.toNat) 64 ({ r with tid }).bits ∧ t.c.dqBot = s.c.dqBot + 1 ∧
        t.c.dqTop = s.c.dqTop ∧ t.t.bounced = s.t.bounced) ∧
      (s.c.dqCap ≤ s.c.dqLen → s.t.frames.length + s.t.bounced.length < 16 → ∃ t, exec (.taskSpawn d a) s = .next t ∧ ends t r.clabel ∧
        t.t.buf = buffered s d v ∧ t.c.spad = s.c.spad ∧ t.c.dqBot = s.c.dqBot ∧ t.t.bounced = s.t.bounced ++ [({ r with tid }, some (s.t.pc + 4))]) ∧
      (s.c.dqCap ≤ s.c.dqLen → 16 ≤ s.t.frames.length + s.t.bounced.length → ∃ x, exec (.taskSpawn d a) s = .next (State.raise x 0x0E) ∧
        x.t = s.t ∧ x.c.spad = s.c.spad ∧ x.c.dqBot = s.c.dqBot ∧ x.c.seq = s.c.seq + 1)) ∧
    (s.Ready Accept.none [a, b] d →
      let v := (s.x b).toNat
      let own := v / 2 ^ 12 % 2 ^ 12 = s.d.fabric.device.toNat
      let target : CoreId := BitVec.ofNat 10 (v / 4)
      let sent : SpawnRec := { r with tid }
      let msg : NetMsg := { src := s.c.id, dst := target, kind := .spawn s.t.tid s.d.nextOp sent }
      ((2 ^ 24 ≤ v ∨ v % 4 ≠ 0) → exec (.taskSpawnto d a b) s = .next (s.raise 0x02 1)) ∧
      (v < 2 ^ 24 → v % 4 = 0 → own → s.d.jobHolds s.part s.t.job target = false → exec (.taskSpawnto d a b) s = .next (s.raise 0x06)) ∧
      (v < 2 ^ 24 → v % 4 = 0 → ¬own → r.tags.getLsbD 2 = true → exec (.taskSpawnto d a b) s = .next (s.raise 0x06)) ∧
      (v < 2 ^ 24 → v % 4 = 0 → own → s.d.jobHolds s.part s.t.job target = true → ∃ t o, exec (.taskSpawnto d a b) s = .next t ∧
        ends t r.clabel ∧ t.t.ops = [o] ∧ o.id = s.d.nextOp ∧ o.result = true ∧ o.stage = .sent ∧
        t.t.buf = (match d with
          | .g n => s.t.buf ++ [.wait s.d.nextOp (.g n)]
          | _ => s.t.buf) ∧
        t.d.net = s.d.net ++ [msg] ∧
        t.c.spad = s.c.spad ∧ t.c.dqBot = s.c.dqBot))

/-- R177 to R180: a join whose counter is 0 goes on after an acquire at scope partition; otherwise it takes a record of its own deque to run
inline, returning to the join, or parks until the counter is written. `task.end` decrements its counter, then returns from an inline
child, waits for its engine work, or ends the task, which leaves its barrier. `task.anchor` queues a request for tiles, `task.unanchor`
gives the anchor up, and `task.yield` names the other ready tasks of its level. -/
def Claim.TaskForms : Prop :=
  ∀ (s : State) (a : SReg), s.Still →
    let cap := s.rd a
    let at_ := capCursor cap.bits
    (s.Ready Accept.none [a] .zero → checkAccess cap memSpaces pLD at_ 8 1 none = .ok .shared → at_ % 8 = 0 → 0x40000000 ≤ at_ →
      s.forbidden .shared at_ 8 = false → s.dataBreak true false at_ 8 = none → s.d.shared.poisoned at_ 8 = false →
      let v := s.d.shared.mem.read at_ 8
      let up := s.t.clabel ||| (s.d.shared.labelOf at_ 8 ||| cap.label)
      (v = 0 → ∃ t, exec (.taskJoin a) s = .next t ∧ t.t.status = .parked .group ∧ t.t.pc = s.t.pc + 4 ∧ t.t.clabel = up ∧ t.c.cache = [] ∧
        t.t.bounced = s.t.bounced ∧ t.c.dqBot = s.c.dqBot ∧ t.d = s.d) ∧
      (v ≠ 0 → s.c.dqLen = 0 → ∃ t, exec (.taskJoin a) s = .next t ∧ t.t.status = .parked (.join at_ (s.d.writesAt at_)) ∧
        t.t.pc = s.t.unitPc ∧ t.t.clabel = up ∧ t.t.bounced = s.t.bounced ∧ t.d.shared = s.d.shared ∧ t.d.gmem = s.d.gmem ∧
        t.c.spad = s.c.spad) ∧
      (∀ r, v ≠ 0 → s.c.dqLen ≠ 0 → s.c.dqRecord (s.c.dqBot - 1).toNat = some r →
        (s.t.frames.length + s.t.bounced.length < 16 → ∃ t, exec (.taskJoin a) s = .next t ∧ t.t.status = .parked .group ∧
          t.t.clabel = up ∧ t.t.bounced = s.t.bounced ++ [(r, some s.t.unitPc)] ∧ t.c.dqBot = s.c.dqBot - 1 ∧ t.c.dqTop = s.c.dqTop ∧
          t.c.spad = s.c.spad) ∧
        (16 ≤ s.t.frames.length + s.t.bounced.length → ∃ t, exec (.taskJoin a) s = .next t ∧
          t.t.status = .parked (.join at_ (s.d.writesAt at_)) ∧ t.t.bounced = s.t.bounced ∧ t.c.dqBot = s.c.dqBot ∧ t.c.dqTop = s.c.dqTop))) ∧
    (s.Ready Accept.none [a] .zero → s.t.onHearth = false → s.t.trapped = none → s.c.trace.chunkTask ≠ some s.t.tid →
      let holdsNone : Prop := ∀ x ∈ s.d.slices, ∀ p ∈ x.leases, p.2 ≠ s.t.tid
      let ended (t : State) : Prop := t.t = Task.vacant ∧ t.c.spad = s.c.spad ∧ t.c.slots = s.c.slots ∧ t.d.gmem = s.d.gmem ∧
        (s.t.member = none → t.d.barriers = s.d.barriers) ∧
        (∀ o i, s.t.member = some (o, i) →
          t.d.barrier (CoreId.cluster s.c.id) o = (s.d.barrier (CoreId.cluster s.c.id) o).leave i) ∧
        (∀ x ∈ t.d.slices, ∀ p ∈ x.leases, p.2 ≠ s.t.tid)
      (cap.tag = false →
        (∀ fs f, s.t.frames = fs ++ [f] → exec (.taskEnd a) s =
          .next (State.finishAt { s with t := { s.t with frames := fs, tidReg := f.tid } } true f.ret)) ∧
        (s.t.frames = [] → s.enginesDone = false → exec (.taskEnd a) s = .next (State.park
          { s with t := { s.t with arrival := some (s.t.unitPc, 0) } } .ending)) ∧
        (s.t.frames = [] → s.enginesDone = true → ∃ t, exec (.taskEnd a) s = .next t ∧ ended t ∧
          (holdsNone → t.d.shared = s.d.shared))) ∧
      (cap.tag = true → s.t.arrival = none →
        (∀ c, checkAccess cap memSpaces pATOM at_ 8 8 (some .shared) = .error c → exec (.taskEnd a) s = .next (s.raise c 0 (causeValue c at_))) ∧
        (checkAccess cap memSpaces pATOM at_ 8 8 (some .shared) = .ok .shared → s.forbidden .shared at_ 8 = false →
          s.dataBreak true true at_ 8 = none → sliceCore (at_ - 0x40000000) = s.c.id → s.d.fencedSlices.contains s.c.id = false →
          s.d.shared.accepts at_ 8 (cap.label ||| s.t.clabel) = true → s.d.shared.poisoned at_ 8 = false → s.t.frames = [] →
          s.enginesDone = true → ∃ t, exec (.taskEnd a) s = .next t ∧ ended t ∧
            (holdsNone → t.d.shared = s.d.shared.put at_ 8 ((s.d.shared.mem.read at_ 8 + (2 ^ 64 - 1)) % 2 ^ 64))))) ∧
    (s.Ready Accept.none [a] .zero →
      let v := s.x a
      let limit := (s.d.kernelAt s.t.launch s.t.unitPc).elim 0 (·.anchor)
      ((v = 0 ∨ 256 ≤ v.toNat) → exec (.taskAnchor a) s = .next (s.raise 0x02 1)) ∧
      (v ≠ 0 → v.toNat < 256 → limit < tileCount (v.setWidth 8) → exec (.taskAnchor a) s = .next (s.raise 0x06)) ∧
      (v ≠ 0 → v.toNat < 256 → tileCount (v.setWidth 8) ≤ limit → s.t.anchor ≠ none → exec (.taskAnchor a) s = .next (s.raise 0x01)) ∧
      (v ≠ 0 → v.toNat < 256 → tileCount (v.setWidth 8) ≤ limit → s.t.anchor = none → ∃ t, exec (.taskAnchor a) s = .next t ∧
        t.t.status = .parked (.anchor (v.setWidth 8) (s.lab a)) ∧ t.c.anchorQ = s.c.anchorQ ++ [s.t.tid] ∧ t.t.pc = s.t.pc + 4 ∧
        t.t.anchor = none ∧ t.c.tiles = s.c.tiles ∧ t.d = s.d)) ∧
    (s.Ready Accept.none [] .zero →
      (s.t.anchor = none → exec .taskUnanchor s = .next (s.raise 0x01)) ∧
      (∀ x, s.t.anchor = some x → ((∃ p, (x.mprog = some p ∨ x.cprog = some p ∨ x.sprog = some p) ∧ p.ended = false) ∨
        x.tiles &&& s.busyTiles ≠ 0) → exec .taskUnanchor s = .next (s.raise 0x01)) ∧
      (∀ x, s.t.anchor = some x → (∀ p, (x.mprog = some p ∨ x.cprog = some p ∨ x.sprog = some p) → p.ended = true) →
        x.tiles &&& s.busyTiles = 0 → ∃ t, exec .taskUnanchor s = .next t ∧ t.t.anchor = none ∧ tswAnc t.t.tsw = false ∧
        t.t.status = .parked .group ∧ t.t.pc = s.t.pc + 4 ∧ t.t.g = s.t.g ∧ t.d = s.d) ∧
      (∃ t, exec .taskYield s = .next t ∧ t.t.status = .parked .group ∧ t.t.pc = s.t.pc + 4 ∧ t.t.g = s.t.g ∧ t.t.tsw = s.t.tsw ∧ t.d = s.d ∧
        ∀ n < 24, t.t.yieldTo.getLsbD n = true ↔ (s.isReady (s.whole.slot n) = true ∧ (s.whole.slot n).tid ≠ s.t.tid ∧
          (s.whole.slot n).eff = s.t.eff)))

/-- R14, R15, R157, R175, R176, R178: the events that spawns and waits lead to. A hearth pushes the record of a spawn request that it admits
and answers with its TID; it refuses one whose entry is not the job's, and bounces one on a full deque; a refused spawn raises permission
at its unit, a bounced child runs inline. A refused fire leaves its cause for the task that issued it, and the child of a bounced one runs
inline in that task. A pending fire is pushed when a place
frees. A join whose counter has been written goes on; the request at the head of the anchor queue is granted with its tiles at zero; a
task of 24 rounds rises one level. -/
def Obligations.SpawnAndWaitEvents : Prop :=
  ∀ s : State, s.c.trace.creates = [] → s.t.onHearth = false →
    (∀ tid op r src rest, s.Delivers src (.spawn tid op r) rest → src ≠ s.c.id →
      let f := (s.took rest).count 9
      let ok := s.d.entryOk r.launch r.entry 0 = true ∧ s.d.jobHolds (launchPart r.launch) (s.d.jobOfLaunch r.launch) s.c.id = true
      let back (bounce : Bool) : NetMsg := { src := s.c.id, dst := src, kind := .spawnRefused tid op bounce r }
      (¬ok → exec (.spawnRequest s.c.id (s.end_ src)) s = .next { f with d := { f.d with net := rest ++ [back false] } }) ∧
      (ok → s.c.dqCap ≤ s.c.dqLen → ∃ t, exec (.spawnRequest s.c.id (s.end_ src)) s = .next t ∧ t.d.net = rest ++ [back true] ∧
        t.c.spad = s.c.spad ∧ t.c.dqBot = s.c.dqBot ∧ t.t = s.t) ∧
      (ok → s.c.dqLen < s.c.dqCap → ∃ t, exec (.spawnRequest s.c.id (s.end_ src)) s = .next t ∧
        t.c.spad = s.c.spad.put (s.c.dqAt s.c.dqBot.toNat) 64 r.bits ∧ t.c.dqBot = s.c.dqBot + 1 ∧ t.d.net = rest ∧ t.t = s.t ∧
        t.d.cores = (f.setStage src op (.executed { data := r.tid.setWidth 512, tag := false, label := r.clabel, flags := 0 })).d.cores)) ∧
    (∀ tid op bounce r src rest o, s.Delivers src (.spawnRefused tid op bounce r) rest → s.t.tid = tid → s.t.status ≠ .vacant →
      s.away tid = false → s.t.ops.find? (fun x => x.id == op) = some o → o.kind = .spawnto r.tid → o.result = true →
      (∃ n, o.dest = some (.g n)) → s.t.arrival = none →
      let f := s.took rest
      (bounce = false → exec (.spawntoRefusal s.c.id (s.end_ src)) s = .next (State.raiseAt
        { f with t := { (s.t.fill o.id none).without o.id with arrival := none } } o.pc 0x06 0 0)) ∧
      (bounce = true → s.t.frames.length + s.t.bounced.length < 16 → ∃ t, exec (.spawntoRefusal s.c.id (s.end_ src)) s = .next t ∧
        t.t.bounced = s.t.bounced ++ [(r, some o.next)] ∧ t.t.ops = s.t.ops.filter (fun x => x.id != op) ∧ t.d = f.d)) ∧
    (∀ tid r cell cause src rest n, s.Delivers src (.fireRefused tid r cell cause) rest → s.t.tid = tid → s.t.status ≠ .vacant →
      s.away tid = false → s.find tid = some (s.c.id, n) →
      (cause ≠ 0x0E → exec (.fireRefusal s.c.id (s.end_ src)) s = .next
        { s.took rest with t := { s.t with deferred := s.t.deferred ++ [(0x11, 0x100 ||| cause.setWidth 32, 0)] } }) ∧
      (cause = 0x0E → s.t.frames.length + s.t.bounced.length < 16 → exec (.fireRefusal s.c.id (s.end_ src)) s = .next
        { s.took rest with t := { s.t with bounced := s.t.bounced ++ [(r, none)] } })) ∧
    (∀ r rest, s.c.pendFires = r :: rest →
      (s.c.dqLen < s.c.dqCap → ∃ t, exec (.pendingFirePush s.c.id) s = .next t ∧ t.c.pendFires = rest ∧ t.c.dqBot = s.c.dqBot + 1 ∧
        t.c.spad = s.c.spad.put (s.c.dqAt s.c.dqBot.toNat) 64 r.bits ∧ t.t = s.t ∧ t.d = s.d) ∧
      (s.c.dqCap ≤ s.c.dqLen → exec (.pendingFirePush s.c.id) s = .next s)) ∧
    (∀ x n, s.t.status = .parked (.join x n) → ∃ t, exec (.joinWake s.c.id s.t.tid) s = .next t ∧
      t.t = { s.t with status := if s.d.writesAt x = n then s.t.status else .ready } ∧ t.d = s.d) ∧
    (∀ mask label, s.anchorDue = some (s.t.tid, mask, label) → s.t.status = .parked (.anchor mask label) →
      ∃ t, exec (.anchorGrant s.c.id) s = .next t ∧ t.t.anchor = some (Anchor.fresh mask) ∧ tswAnc t.t.tsw = true ∧
        t.t.clabel = s.t.clabel ||| label ∧ t.t.mark = none ∧ t.t.status = .parked .group ∧
        (∀ n : Fin 8, t.c.tiles[n] = if mask.getLsbD n.val then Tile.zero else s.c.tiles[n]) ∧
        s.t.tid ∉ t.c.anchorQ ∧ t.c.spad = s.c.spad ∧ t.d = s.d) ∧
    (s.isReady s.t = true → 24 ≤ s.t.age → s.c.port.toNat < 24 → ∃ t, exec (.priorityAgeing s.c.id) s = .next t ∧
      t.t = (if s.t.eff = 7 then { s.t with age := 0 } else { s.t with age := 0, eff := s.t.eff + 1, passOver := 0, yieldTo := 0 }) ∧ t.d = s.d)

/-- R26, R29, R30: a thief asks the next victim of its narrowest domain; a victim gives the record at its TOP when the thief's jobs reach it,
and answers empty otherwise; a stolen record waits for a slot as a light task. A task marked to migrate asks its target for a slot when
its operations have landed, and gets none that waits for an upcall task or the gang at the head of its queue (R335, R432); a granted task's context follows, and is ready in a free slot of the target; a refused task goes on. -/
def Obligations.StealingAndMigration : Prop :=
  ∀ s : State, s.t.onHearth = false → s.c.trace.before = [] →
    (∀ v rest, s.thief = true → s.c.search = none → s.d.stealFor s.part s.c.id 0 ≠ [] →
      rotateAfter (s.c.lastVictim[0]) (s.d.domain s.c.id 0) = v :: rest → ∃ t, exec (.steal s.c.id) s = .next t ∧
        t.c.search = some { domain := 0, victim := v, left := rest, waiting := true } ∧ t.c.lastVictim[0] = v ∧
        t.d.net = s.d.net ++ [{ src := s.c.id, dst := v, kind := .stealReq s.c.id (s.d.stealFor s.part s.c.id 0) }] ∧ t.t = s.t) ∧
    (∀ thief jobs src rest, s.Delivers src (.stealReq thief jobs) rest →
      let back (r : Option SpawnRec) : NetMsg := { src := s.c.id, dst := thief, kind := .stealReply r }
      (s.c.dqLen = 0 → ∃ t, exec (.stealRequest s.c.id (s.end_ src)) s = .next t ∧ t.d.net = rest ++ [back none] ∧ t.c.dqTop = s.c.dqTop) ∧
      (∀ r, s.c.dqLen ≠ 0 → s.c.dqRecord s.c.dqTop.toNat = some r →
        let ok := jobs.contains (s.d.jobOfLaunch r.launch) && s.d.jobHolds s.part (s.d.jobOfLaunch r.launch) s.c.id
        ∃ t, exec (.stealRequest s.c.id (s.end_ src)) s = .next t ∧ t.d.net = rest ++ [back (if ok then some r else none)] ∧
          t.c.dqTop = (if ok then s.c.dqTop + 1 else s.c.dqTop) ∧ t.c.dqBot = s.c.dqBot ∧ t.c.spad = s.c.spad ∧ t.t = s.t)) ∧
    (∀ r src rest, s.Delivers src (.stealReply (some r)) rest → ∃ t x, exec (.stealReply s.c.id (s.end_ src)) s = .next t ∧
      t.c.startQ = s.c.startQ ++ [x] ∧ t.c.search = none ∧ x.tid = r.tid ∧ x.pc = r.entry ∧ x.clabel = r.clabel ∧ x.kind = 0 ∧
      x.g[1] = { bits := r.arg1, tag := r.tags.getLsbD 0, label := r.clabel } ∧
      x.g[2] = { bits := r.arg2, tag := r.tags.getLsbD 1, label := r.clabel } ∧
      x.g[3] = { bits := r.join, tag := r.tags.getLsbD 2, label := r.clabel } ∧ t.d.net = rest ∧ t.t = s.t) ∧
    (∀ goal, s.t.status = .parked (.migrate goal) → s.Still → exec (.migration s.c.id s.t.tid) s = .next
      { s with t := { s.t with status := .parked (.reserved goal) },
               d := { s.d with net := s.d.net ++ [{ src := s.c.id, dst := goal, kind := .reserve s.t.tid }] } }) ∧
    (∀ tid src rest x, s.Delivers src (.reserve tid) rest → src ≠ s.c.id → s.reserving src tid s.c.id = some x →
      (s.core src).replays x = false →
      (s.rotationSlot = none → ∃ t, exec (.slotReservation s.c.id (s.end_ src)) s = .next t ∧ t.c.reserved = s.c.reserved ∧
        t.d.net = rest ++ [{ src := s.c.id, dst := src, kind := .reserveRefused tid }]) ∧
      (s.rotationSlot ≠ none → ∃ t, exec (.slotReservation s.c.id (s.end_ src)) s = .next t ∧ t.c.reserved = s.c.reserved ++ [(tid, x.launch)] ∧
        t.d.net = rest ++ [{ src, dst := s.c.id, kind := .context x }])) ∧
    (∀ tid src rest, s.Delivers src (.reserveRefused tid) rest → s.t.tid = tid → s.t.status = .parked (.reserved src) →
      ∃ t, exec (.migrationRefused s.c.id (s.end_ src)) s = .next t ∧ t.t = { s.t with status := .ready } ∧ t.d.net = rest) ∧
    (∀ x src rest n, s.Delivers src (.context x) rest → src ≠ s.c.id → s.whole.emptySlots.head? = some n → x.status ≠ .vacant →
      ∃ t, exec (.taskContextArrival s.c.id (s.end_ src)) s = .next t ∧ t.d.net = rest ∧ (∀ p ∈ t.c.reserved, p.1 ≠ x.tid) ∧
        (n = s.c.port.toNat → t.t = { x with status := .ready, eff := x.prio, age := 0 }) ∧
        (n ≠ s.c.port.toNat → t.t = s.t ∧ t.c.slots[n]? = some (some { x with status := .ready, eff := x.prio, age := 0 })))

/-- The task forms: `Claim.SpawnForms`, `Claim.TaskForms`. -/
def Obligations.SpawnAndTaskForms : Prop :=
  Claim.SpawnForms ∧ Claim.TaskForms

/-! ### Queues, pipes, forks -/

/-- R181, R183 to R185: the queue forms name a queue by its place among the kernel's declarations, and raise the control label by that of
the name. A push writes the record into the next place of the core's ring as a spawn forms it, and leaves the ring as it was when a check
fails or no place is free; a tail sends the ring's index to the consumer; a pop stores a held data record and delivers its size, or
delivers 0. Stated of a task with nothing outstanding. -/
def Claim.QueueForms : Prop :=
  ∀ (s : State) (sw : Bool) (d a b : SReg), s.Still →
    let v := (s.x a).toNat
    let qs := (s.d.kernelOf s.t).elim [] Kernel.queues
    let up := s.t.clabel ||| s.lab a
    let u : State := { s with t := { s.t with clabel := up } }
    let cap := s.rd b
    let at_ := capCursor cap.bits
    let names (o : Out) : Prop :=
      (256 ≤ v → o = .next (s.raise 0x02 1)) ∧ (v < 256 → qs[v]? = none → o = .next (s.raise 0x06))
    (s.Ready Accept.none [a, b] .zero → names (exec (.queuePush sw a b) s) ∧
      ∀ q, v < 256 → qs[v]? = some q →
        ((s.d.ringOf s.t.launch q.id s.c.id = none ∨ q.pop = true) → exec (.queuePush sw a b) s = .next (u.raise 0x06)) ∧
        (∀ i ring, s.d.ringOf s.t.launch q.id s.c.id = some (i, ring) → q.pop = false →
          checkAccess cap [0, 3] pLD at_ q.size 64 (some .spad) = .ok .spad → s.forbidden .spad at_ q.size = false →
          s.c.spad.poisoned at_ q.size = false →
          let r := spawnOf (s.c.spad.mem.read at_ 64) s.t.launch
          let tags := s.c.spad.recordTags at_
          let ws := windowsAt s.c.spad.mem s.c.spad.tagAt (at_ + 64) (if r.rkind = 1 then (q.size - 64) / 32 else 0)
          let cl := up ||| cap.label ||| s.c.spad.labelOf at_ q.size
          let pa := ring.pa + ring.pushed % ring.entries * ring.size
          (∀ c detail, s.recordBad (s.c.spad.mem.read at_ 64) r tags ws = some (c, detail) →
            exec (.queuePush sw a b) s = .next (u.raise c detail (causeValue c at_))) ∧
          (s.recordBad (s.c.spad.mem.read at_ 64) r tags ws = none →
            (ring.entries ≤ ring.pushed - ring.back → exec (.queuePush sw a b) s = .next (u.raise 0x0E)) ∧
            (∀ page, ring.pushed - ring.back < ring.entries → ringRefuses cl pa q.size = some page →
              exec (.queuePush sw a b) s = .next (u.raise 0x0B (labelDetail page cl))) ∧
            (ring.pushed - ring.back < ring.entries → ringRefuses cl pa q.size = none → 64 ≤ ring.size → s.d.fencedChannels = [] →
              s.d.gmem.mem.wf = true → ∃ t, exec (.queuePush sw a b) s = .next t ∧
              (let prio := if r.rkind = 2 then r.prio else minPrio r.prio (s.d.ceilOf s.t.launch r.entry)
               let rec_ : SpawnRec := { r with tags, clabel := cl, prio, tid := 0 }
               ∀ x, (x < pa ∨ pa + ring.size ≤ x → t.d.gmem.mem.get x = s.d.gmem.mem.get x) ∧
                 (pa ≤ x → x < pa + 64 → t.d.gmem.mem.get x = BitVec.ofNat 8 (rec_.bits / 2 ^ (8 * (x - pa)))) ∧
                 (pa + 64 ≤ x → x < pa + ring.size → r.rkind ≠ 1 → t.d.gmem.mem.get x = s.c.spad.mem.get (at_ + (x - pa)))) ∧
              t.d.ringOf s.t.launch q.id s.c.id = some (i, { ring with pushed := ring.pushed + 1 }) ∧
              t.t.clabel = up ||| cap.label ∧ t.t.buf = s.t.buf ∧ t.t.pc = s.t.pc + 4 ∧ t.c.spad = s.c.spad ∧ t.d.net = s.d.net)))) ∧
    (s.Ready Accept.none [a] .zero → names (exec (.queueTail sw a) s) ∧
      ∀ q, v < 256 → qs[v]? = some q →
        (q.pop = true → exec (.queueTail sw a) s = .next (u.raise 0x06)) ∧
        (∀ i ring, s.d.ringOf s.t.launch q.id s.c.id = some (i, ring) → q.pop = false → ∃ t o, exec (.queueTail sw a) s = .next t ∧
          t.t.ops = [o] ∧ o.id = s.d.nextOp ∧ o.result = false ∧
          t.d.net = s.d.net ++ [{ src := s.c.id, dst := ring.consumer, kind := .tail s.t.tid s.d.nextOp s.t.launch i ring.pushed }] ∧
          t.t.clabel = up ∧ t.t.pc = s.t.pc + 4 ∧ t.d.gmem = s.d.gmem ∧ t.c.spad = s.c.spad)) ∧
    (s.Ready Accept.none [a, b] d → names (exec (.queuePop sw d a b) s) ∧
      ∀ q l, v < 256 → qs[v]? = some q → s.d.launchOf s.t.launch = some l →
        let here := (s.d.launchGraph s.t.launch).any (fun g => g.consumer q.id == s.c.id) = true
        (¬here → exec (.queuePop sw d a b) s = .next (u.raise 0x06)) ∧
        (here → takeData q.id l.data = none → exec (.queuePop sw d a b) s = .next (State.gives
          { u with c := { s.c with cache := [] } } false sw d { bits := 0, tag := false, label := up })) ∧
        (∀ r rest, here → takeData q.id l.data = some (r, rest) →
          checkAccess cap memSpaces pST at_ q.size 64 (some .spad) = .ok .spad → s.forbidden .spad at_ q.size = false →
          s.dataBreak false true at_ q.size = none →
          let vl := r.clabel ||| cap.label ||| up
          (s.c.spad.accepts at_ q.size vl = false → exec (.queuePop sw d a b) s =
            .next (u.raise 0x0B (labelDetail (s.c.spad.labelOf at_ q.size) vl) (BitVec.ofNat 64 at_))) ∧
          (s.c.spad.accepts at_ q.size vl = true → ∃ t, exec (.queuePop sw d a b) s = .next t ∧
            t.c.spad = s.c.spad.put at_ q.size (ofBytes r.bytes) ∧ t.c.cache = [] ∧ t.t.clabel = up ||| cap.label ∧
            t.t.buf = buffered s d { bits := BitVec.ofNat 128 (q.size % 2 ^ 64), tag := false, label := r.clabel ||| (up ||| cap.label) } ∧
            (∃ l', t.d.launchOf s.t.launch = some l' ∧ l'.data = rest) ∧ t.t.pc = s.t.pc + 4 ∧ t.d.gmem = s.d.gmem)))

/-- R184, R313: a tail index raises what the consumer has received from the ring, and never lowers it; the next record of a ring is pulled in
ring order: a data record is held, a task record gets its TID and waits, a light one for a slot (behind the
staged ones of its ring) and a staged one for its windows; the
windows of the oldest staged record are pinned and copied before its task waits for a slot. -/
def Claim.QueueEvents : Prop :=
  ∀ s : State, s.c.trace.creates = [] →
    (∀ tid op launch i index src rest l r, s.Delivers src (.tail tid op launch i index) rest → src ≠ s.c.id →
      s.d.launchOf launch = some l → l.rings[i]? = some r → ∃ t l', exec (.queueTailWrite s.c.id (s.end_ src)) s = .next t ∧
        t.d.launchOf launch = some l' ∧ l'.rings[i]? = some { r with recv := max r.recv index } ∧ l'.data = l.data ∧ l'.pipes = l.pipes ∧
        (∀ j, j ≠ i → l'.rings[j]? = l.rings[j]?) ∧ t.d.net = rest ∧ t.t = s.t ∧ t.d.gmem = s.d.gmem ∧
        t.d.cores = (s.setStage src op (.executed { data := 0, tag := false, label := 0, flags := 0 })).d.cores) ∧
    (∀ job q producer launch i ring, s.d.pullDue job (BitVec.toNat q) producer s.c.id = some (launch, i, ring) →
      let r := spawnOf (s.d.gmem.mem.read (ring.pa + ring.pulled % ring.entries * ring.size) 64) launch
      ∃ t l', exec (.queuePull s.c.id job q producer) s = .next t ∧ t.d.launchOf launch = some l' ∧
        l'.rings[i]? = some { ring with pulled := ring.pulled + 1 } ∧ t.t = s.t ∧ t.d.gmem = s.d.gmem ∧ t.c.spad = s.c.spad ∧
        (r.rkind = 2 → t.c = s.c ∧ ∃ l x, s.d.launchOf launch = some l ∧ l'.data = l.data ++ [x] ∧ x.queue = q.toNat ∧ x.ring = i ∧
          x.clabel = r.clabel ∧
          x.bytes = s.d.gmem.mem.bytes (ring.pa + ring.pulled % ring.entries * ring.size) ring.size) ∧
        (r.rkind ≠ 2 → t.c.cache = [] ∧ t.c.seq = s.c.seq + 1) ∧
        (r.rkind = 0 → (∃ x ∈ s.c.staging, x.spawn.launch = launch ∧ x.ring = i) → t.c.startQ = s.c.startQ ∧
          ∃ x, t.c.staging = s.c.staging ++ [x] ∧ x.ring = i ∧ x.windows = [] ∧ x.spawn.entry = r.entry) ∧
        (r.rkind = 0 → (∀ x ∈ s.c.staging, ¬(x.spawn.launch = launch ∧ x.ring = i)) → t.c.staging = s.c.staging ∧ ∃ x, t.c.startQ = s.c.startQ ++ [x] ∧ x.pc = r.entry ∧ x.clabel = r.clabel ∧
          x.fromRing = some i ∧ x.kind = 0 ∧ x.tid = BitVec.ofNat 48
            (s.d.fabric.device.toNat * 2 ^ 36 + s.c.id.toNat * 2 ^ 26 + s.c.seq.toNat)) ∧
        (r.rkind = 1 → t.c.startQ = s.c.startQ ∧ ∃ x, t.c.staging = s.c.staging ++ [x] ∧ x.ring = i ∧ x.spawn.entry = r.entry ∧
          x.spawn.clabel = r.clabel)) ∧
    (∀ r rest pins f, s.c.staging = r :: rest → r.pages ≤ 4096 → s.pinsUsed + r.pages ≤ 4096 →
      (State.giveSpad { s with c := { s.c with staging := rest } } (s.d.jobOfLaunch r.spawn.launch)).pinWindows (s.d.jobOfLaunch r.spawn.launch)
        ((s.d.launchGraph r.spawn.launch).elim 0 (·.level.toNat)) r.windows = .ok (pins, f) →
      ∃ t x, exec (.stagedInputPin s.c.id) s = .next t ∧ t.c.startQ = f.c.startQ ++ [x] ∧ x.pins = pins ∧ x.fromRing = some r.ring ∧
        x.tid = r.spawn.tid ∧ x.pc = r.spawn.entry ∧ x.kind = r.spawn.rkind.toNat ∧ t.c.spad = f.c.spad ∧ t.c.staging = f.c.staging)

/-- R186, R187: `pipe.send` takes a credit and copies its bytes into the receiver's next slot, parks without a credit, and delivers 0 once
the receiver has ended; `pipe.recv` stores the oldest message, returns a credit and delivers the size; it delivers 0 on an empty closed
pipe and parks on an open one; `pipe.close` closes once. An arriving message is held, an arriving credit counted, and a task that waits for
it goes on. -/
def Claim.PipeForms : Prop :=
  ∀ (s : State) (sw : Bool) (d a b : SReg), s.Still →
    let v := (s.x a).toNat
    let up := s.t.clabel ||| s.lab a
    let u : State := { s with t := { s.t with clabel := up } }
    let cap := s.rd b
    let at_ := capCursor cap.bits
    let decl (recv : Bool) (p : Pipe) : Prop := v < 256 ∧ ((s.d.kernelOf s.t).elim [] Kernel.pipes)[v]? = some (p.id, recv) ∧
      s.d.pipeOf s.t.launch p.id = some p
    let num (n : Nat) (lab : Label) : Val := { bits := BitVec.ofNat 128 n, tag := false, label := lab }
    (∀ p, s.Ready Accept.none [a, b] d →
      (decl true p → exec (.pipeSend sw d a b) s = .next (u.raise 0x06)) ∧ (decl false p → exec (.pipeRecv sw d a b) s = .next (u.raise 0x06)) ∧
      (decl false p → checkAccess cap memSpaces pLD at_ p.size 16 (some .spad) = .ok .spad → s.forbidden .spad at_ p.size = false →
        s.c.spad.poisoned at_ p.size = false →
        let lab := s.c.spad.labelOf at_ p.size ||| cap.label ||| up
        let n := p.next % p.depth
        (p.closed = true → exec (.pipeSend sw d a b) s = .next (u.raise 0x06 0 (BitVec.ofNat 64 at_))) ∧
        (p.closed = false → p.recvEnded = true → ∃ t, exec (.pipeSend sw d a b) s = .next t ∧ t.d = s.d ∧ t.c.spad = s.c.spad ∧
          t.t.buf = buffered s d (num 0 (up ||| cap.label)) ∧ t.t.pc = s.t.pc + 4) ∧
        (p.closed = false → p.recvEnded = false → p.credits = 0 → exec (.pipeSend sw d a b) s = .next (u.park (.credit p.id))) ∧
        (p.closed = false → p.recvEnded = false → 0 < p.credits → ∃ t, exec (.pipeSend sw d a b) s = .next t ∧
          t.d.pipeOf s.t.launch p.id = some { p with credits := p.credits - 1, next := n + 1 } ∧
          t.d.net = s.d.net ++ [{ src := s.c.id, dst := p.receiver, kind := .pipeMsg s.t.launch p.id n lab }] ∧
          (t.core p.receiver).spad = (s.core p.receiver).spad.put (p.base + n * p.size) p.size (s.c.spad.mem.read at_ p.size) ∧
          t.t.buf = buffered s d (num 1 (up ||| cap.label)) ∧ t.t.pc = s.t.pc + 4 ∧ t.d.gmem = s.d.gmem)) ∧
      (decl true p →
        (p.held = [] → p.closeArrived = true → s.d.pipeComing s.t.launch p.id = false → ∃ t, exec (.pipeRecv sw d a b) s = .next t ∧
          t.t.buf = buffered s d (num 0 up) ∧ t.t.pc = s.t.pc + 4 ∧ t.d = s.d ∧ t.c.spad = s.c.spad) ∧
        (p.held = [] → p.closeArrived = false → exec (.pipeRecv sw d a b) s = .next (u.park (.message p.id))) ∧
        (∀ n label rest, p.held = (n, label) :: rest → checkAccess cap memSpaces pST at_ p.size 16 (some .spad) = .ok .spad →
          s.forbidden .spad at_ p.size = false → s.c.spad.accepts at_ p.size (label ||| cap.label ||| up) = true →
          s.dataBreak false true at_ p.size = none → ∃ t, exec (.pipeRecv sw d a b) s = .next t ∧ t.d.pipeOf s.t.launch p.id = some { p with held := rest } ∧
          t.c.spad = s.c.spad.put at_ p.size (s.c.spad.mem.read (p.base + n * p.size) p.size) ∧ t.c.cache = [] ∧
          t.d.net = s.d.net ++ [{ src := s.c.id, dst := p.sender, kind := .pipeCredit s.t.launch p.id }] ∧
          t.t.buf = buffered s d (num (p.size % 2 ^ 64) (label ||| (up ||| cap.label))) ∧ t.t.pc = s.t.pc + 4))) ∧
    (∀ p, s.Ready Accept.none [a] .zero → decl false p →
      (p.closed = true → ∃ t, exec (.pipeClose sw a) s = .next t ∧ t.d = s.d ∧ t.t.pc = s.t.pc + 4) ∧
      (p.closed = false → ∃ t, exec (.pipeClose sw a) s = .next t ∧ t.d.pipeOf s.t.launch p.id = some { p with closed := true } ∧
        t.d.net = s.d.net ++ [{ src := s.c.id, dst := p.receiver, kind := .pipeClose s.t.launch p.id }] ∧ t.t.pc = s.t.pc + 4)) ∧
    (∀ launch id p src rest, s.d.pipeOf launch id = some p →
      let wakes (w : Wait) (t : State) : Prop := s.t.status ≠ .vacant → t.t = { s.t with
        status := if s.t.launch = launch ∧ s.t.status = .parked w then .ready else s.t.status }
      (∀ n label, s.Delivers src (.pipeMsg launch id n label) rest → ∃ t, exec (.pipeMessageArrival s.c.id (s.end_ src)) s = .next t ∧
        t.d.pipeOf launch id = some { p with held := p.held ++ [(n, label)] } ∧ wakes (.message id) t ∧ t.d.net = rest) ∧
      (s.Delivers src (.pipeClose launch id) rest → ∃ t, exec (.pipeMessageArrival s.c.id (s.end_ src)) s = .next t ∧
        t.d.pipeOf launch id = some { p with closeArrived := true } ∧ wakes (.message id) t ∧ t.d.net = rest) ∧
      (s.Delivers src (.pipeCredit launch id) rest → ∃ t, exec (.pipeCreditReturn s.c.id (s.end_ src)) s = .next t ∧
        t.d.pipeOf launch id = some { p with credits := p.credits + 1 } ∧ wakes (.credit id) t ∧ t.d.net = rest))

/-- R188, R189, R191: `eng.fork` captures each named engine's program from the scratchpad with the general registers of the group's start and
its OPTAG, takes one inbox reservation each, and raises the control label by every general register's; its checks come in the rule's order.
`eng.rdv` parks while a program of its mask runs, and otherwise frees the programs that have ended. -/
def Claim.ForkAndRendezvous : Prop :=
  ∀ (s : State) (sw : Bool) (a b : SReg) (mask : BitVec 3), s.Still →
    let cap := s.rd a
    let at_ := capCursor cap.bits
    let engs := enginesOf mask
    let entry (e : Engine) := progEntry (s.c.spad.mem.read (at_ + 8 * Engine.index e) 8)
    let o := exec (.engFork sw a b mask) s
    (s.Ready Accept.none [a, b] .zero →
      (s.t.anchor = none → o = .next (s.raise 0x01)) ∧
      (∀ x, s.t.anchor = some x →
        ((∃ e ∈ engs, x.prog e ≠ none) → o = .next (s.raise 0x01)) ∧
        ((∀ e ∈ engs, x.prog e = none) →
          (∀ c, checkAccess cap [0, 3] pLD at_ 32 32 (some .spad) = .error c → o = .next (s.raise c 0 (causeValue c at_))) ∧
          (checkAccess cap [0, 3] pLD at_ 32 32 (some .spad) = .ok .spad → s.forbidden .spad at_ 32 = false →
            s.c.spad.poisoned at_ 32 = false →
            (((∃ e ∈ engs, entry e = none) ∨ s.c.spad.mem.read (at_ + 24) 8 ≠ 0) → o = .next (s.raise 0x02 2)) ∧
            (s.c.spad.mem.read (at_ + 24) 8 = 0 → (∀ e ∈ engs, ∃ start n, entry e = some (start, n) ∧
                inBounds cap start (4 * n) = true ∧ start + 4 * n ≤ 0x100000) →
              s.roomForResv engs.length = true → ∃ t y, o = .next t ∧ t.t.anchor = some y ∧ t.t.resv = s.t.resv + engs.length ∧
                t.t.clabel = s.t.g.toList.foldl (fun l v => l ||| v.label) (s.t.clabel ||| cap.label ||| s.lab b) ∧
                (∀ e, e ∉ engs → y.prog e = x.prog e) ∧
                (∀ e ∈ engs, ∃ start n p, entry e = some (start, n) ∧ y.prog e = some p ∧ p.words = wordsAt s.c.spad.mem start n ∧
                  p.next = 0 ∧ p.regs = s.t.g ∧ p.optag = s.x b ∧ p.running = false ∧ p.ended = false) ∧
                y.tiles = x.tiles ∧ y.o = x.o ∧ t.c.spad = s.c.spad ∧ t.d = s.d ∧ t.t.pc = s.t.pc + 4))))) ∧
    (s.Ready Accept.none [] .zero →
      (∀ x e p, s.t.anchor = some x → e ∈ engs → x.prog e = some p → p.ended = false →
        exec (.engRdv sw mask) s = .next (s.park (.engines mask))) ∧
      (s.t.anchor = none → ∃ t, exec (.engRdv sw mask) s = .next t ∧ t.t.pc = s.t.pc + 4 ∧ t.t.resv = s.t.resv ∧ t.t.anchor = none ∧ t.d = s.d) ∧
      (∀ x, s.t.anchor = some x → (∀ e ∈ engs, ∀ p, x.prog e = some p → p.ended = true) → ∃ t y, exec (.engRdv sw mask) s = .next t ∧
        t.t.anchor = some y ∧ (∀ e ∈ engs, y.prog e = none) ∧ (∀ e, e ∉ engs → y.prog e = x.prog e) ∧
        t.t.resv = s.t.resv - ((engs.filterMap x.prog).filter (·.holds)).length ∧ t.t.pc = s.t.pc + 4 ∧ t.d = s.d))

/-- Queues: the forms and the events: `Claim.QueueForms`, `Claim.QueueEvents`. -/
def Obligations.QueueFormsAndEvents : Prop :=
  Claim.QueueForms ∧ Claim.QueueEvents

/-- Pipes, forks and rendezvous: `Claim.PipeForms`, `Claim.ForkAndRendezvous`. -/
def Obligations.PipesAndForks : Prop :=
  Claim.PipeForms ∧ Claim.ForkAndRendezvous

/-! ### The ember store -/

/-- R192, R203 to R209: every form first checks its store capability, then its other operands, and raises the cause of the first failure with
nothing sent. A post goes to its key's slice with the union of its labels, which LMAX must hold; `ev.take` and `ev.stat` ask the slice that
their index names; `ev.done` gives a lease back; `ev.thresh` and `ev.flush` go to every slice. Stated of a task with nothing outstanding. That `ev.thresh` raises the
control label by the label of its threshold is the model's choice (log entry 122). -/
def Claim.EmberForms : Prop :=
  ∀ (s : State) (sw : Bool) (d a b : SReg), s.Still →
    let store (cap : Val) (perm : Nat) (o : Out) : Prop :=
      let n := capCursor cap.bits
      (∀ c, checkCap cap [4] perm = some c → o = .next (s.raise c 0 (causeValue c n))) ∧
      (checkCap cap [4] perm = none → inBounds cap n 1 = false → o = .next (s.raise 0x05 0 (BitVec.ofNat 64 n))) ∧
      (checkCap cap [4] perm = none → inBounds cap n 1 = true → s.storeOf n = none →
        o = .next (s.raise 0x06 0 (BitVec.ofNat 64 n)))
    let names (cap : Val) (perm : Nat) (x : StoreDecl) : Prop :=
      checkCap cap [4] perm = none ∧ inBounds cap (capCursor cap.bits) 1 = true ∧ s.storeOf (capCursor cap.bits) = some x
    let sent (o : Out) (lab : Label) (result : Bool) (buf : List BufEntry) (msgs : List NetMsg) : Prop := ∃ t p, o = .next t ∧
      t.t.ops = [p] ∧ p.id = s.d.nextOp ∧ p.result = result ∧ p.stage = .sent ∧ t.d.net = s.d.net ++ msgs ∧ t.t.buf = buf ∧
      t.t.clabel = s.t.clabel ||| lab ∧ t.t.pc = s.t.pc + 4 ∧ t.t.g = s.t.g ∧ t.c.spad = s.c.spad ∧ t.d.slices = s.d.slices
    let awaits : List BufEntry := match d with
      | .g n => s.t.buf ++ [.wait s.d.nextOp (.g n)]
      | _ => s.t.buf
    let msg (dst : CoreId) (kind : MsgKind) : NetMsg := { src := s.c.id, dst, kind }
    let index (r : SReg) (x : StoreDecl) (o : Out) : Prop :=
      (2 ^ 16 ≤ (s.x r).toNat → o = .next (s.raise 0x02 1)) ∧
      ((s.x r).toNat < 2 ^ 16 → x.count ≤ (s.x r).toNat → o = .next (s.raise 0x05 0 (s.x r)))
    let post (want : Bool) (o : Out) (buf : List BufEntry) : Prop := store (s.rd d) pEVPOST o ∧ ∀ x, names (s.rd d) pEVPOST x →
      let key := s.x a
      let pl := s.t.clabel ||| s.lab d ||| s.lab a ||| s.lab b
      (pl.sub x.lmax = false → o = .next (s.raise 0x0B (labelDetail x.lmax pl) key)) ∧
      (pl.sub x.lmax = true → x.indexed = true → x.pkeys ≤ key.toNat → o = .next (s.raise 0x05 0 key)) ∧
      (pl.sub x.lmax = true → (x.indexed = true → key.toNat < x.pkeys) → (want = false → s.roomForResv 1 = true) →
        sent o (s.lab a ||| s.lab d) want buf
          [msg (x.sliceOf key) (.post s.t.tid s.d.nextOp s.t.job x.num key (s.x b) pl want s.t.unitPc)])
    (s.Ready Accept.none [d, a, b] .zero → post false (exec (.evPost sw d a b) s) s.t.buf) ∧
    (s.Ready Accept.none [d, a, b] d → post true (exec (.evPostw sw d a b) s) awaits) ∧
    (s.Ready Accept.none [d, a, b] d → store (s.rd a) pST (exec (.evTake sw d a b) s) ∧ ∀ x, names (s.rd a) pST x →
      let o := exec (.evTake sw d a b) s
      let at_ := capCursor (s.rd b).bits
      (x.pull = false → o = .next (s.raise 0x06)) ∧ (x.pull = true → index d x o) ∧
      (x.pull = true → (s.x d).toNat < 2 ^ 16 → (s.x d).toNat < x.count →
        (∀ c, checkAccess (s.rd b) memSpaces pST at_ 32 32 (some .spad) = .error c → o = .next (s.raise c 0 (causeValue c at_))) ∧
        (checkAccess (s.rd b) memSpaces pST at_ 32 32 (some .spad) = .ok .spad → s.forbidden .spad at_ 32 = false →
          (x.lease = true → 16 ≤ s.t.leases.length → o = .next (s.raise 0x0E)) ∧
          ((x.lease = true → s.t.leases.length < 16) → sent o (s.lab a ||| s.lab b) true awaits
            [msg (x.slice (s.x d).toNat) (.take s.t.tid s.d.nextOp s.t.job x.num)])))) ∧
    (s.Ready Accept.none [a, b] d → store (s.rd a) pLD (exec (.evStat sw d a b) s) ∧ ∀ x, names (s.rd a) pLD x →
      index b x (exec (.evStat sw d a b) s) ∧
      ((s.x b).toNat < 2 ^ 16 → (s.x b).toNat < x.count → sent (exec (.evStat sw d a b) s) (s.lab a) true awaits
        [msg (x.slice (s.x b).toNat) (.stat s.t.tid s.d.nextOp s.t.job x.num)])) ∧
    (s.Ready Accept.none [a, b] .zero → store (s.rd a) pEVPOST (exec (.evDone sw a b) s) ∧ ∀ x, names (s.rd a) pEVPOST x →
      ((x.num, s.x b) ∉ s.t.leases → exec (.evDone sw a b) s = .next (s.raise 0x06)) ∧
      ((x.num, s.x b) ∈ s.t.leases → sent (exec (.evDone sw a b) s) (s.lab a ||| s.lab b) false s.t.buf
          [msg (x.sliceOf (s.x b)) (.done s.t.tid s.d.nextOp s.t.job x.num (s.x b))] ∧
        ∃ t, exec (.evDone sw a b) s = .next t ∧ t.t.leases = s.t.leases.filter (fun p => p != (x.num, s.x b)))) ∧
    (s.Ready Accept.none [a, b] .zero → store (s.rd a) pST (exec (.evThresh sw a b) s) ∧ ∀ x, names (s.rd a) pST x →
      sent (exec (.evThresh sw a b) s) (s.lab a ||| s.lab b) true s.t.buf ((rangeFrom 0 x.count).map (fun i =>
        msg (x.slice i) (.thresh s.t.tid s.d.nextOp s.t.job x.num (s.x b))))) ∧
    (s.Ready Accept.none [a] .zero → store (s.rd a) pST (exec (.evFlush sw a) s) ∧ ∀ x, names (s.rd a) pST x →
      sent (exec (.evFlush sw a) s) (s.lab a) true s.t.buf ((rangeFrom 0 x.count).map (fun i =>
        msg (x.slice i) (.flush s.t.tid s.d.nextOp s.t.job x.num))))

/-- R203: the slice of a key. -/
def Claim.EmberKeySlice : Prop :=
  ∀ (x : StoreDecl) (key : BitVec 64),
    let w := x.x1.toNat + 1 - x.x0.toNat
    let h := x.y1.toNat + 1 - x.y0.toNat
    let p := key * 0x9E3779B97F4A7C15
    let i := ((p >>> 32) ^^^ (p &&& 0xFFFFFFFF)).toNat % (w * h)
    (x.hash = false → x.sliceOf key = coreAt x.die.toNat x.x0.toNat x.y0.toNat) ∧
    (x.hash = true → x.sliceOf key = coreAt x.die.toNat (x.x0.toNat + i % w) (x.y0.toNat + i / w))

/-- R198 to R202, R204 to R208, R214, R216: a slice folds a post of a key that it holds, creates the ember of another while it holds fewer than
CAP, and refuses one beyond that under policy refuse, with a message for `ev.post`; a take removes the first eligible ember in drain order
whose key is not leased; a lease, a threshold and a flush are set as the forms ask; a deferred record, as
the ash log holds it, is posted again under LMAX. The value bits of a refusal message are all those of the post (log entry 123, the
model's choice). -/
def Obligations.EmberEvents : Prop :=
  ∀ (s : State) (job : BitVec 16) (store : BitVec 8) (sl : Slice) (src : CoreId) (rest : List NetMsg) (tid : Tid) (op : Nat),
    s.d.sliceAt s.c.id job store = some sl → s.d.fencedSlices.contains s.c.id = false →
    (∀ i < sl.decl.count, s.d.fencedSlices.contains (sl.decl.slice i) = false) → src ≠ s.c.id →
    let replies (t : State) (n : Nat) (lab : Label) : Prop := t.t = s.t ∧ t.c.spad = s.c.spad ∧ t.d.gmem = s.d.gmem ∧
      t.d.cores = (s.setStage src op (.executed { data := BitVec.ofNat 512 n, tag := false, label := lab, flags := 0 })).d.cores
    let slice (t : State) : Option Slice := t.d.sliceAt s.c.id job store
    (∀ key val label want pc, s.Delivers src (.post tid op job store key val label want pc) rest →
      let lab := if want then sl.decl.lmax else 0
      let run (t : State) : Prop := exec (.emberPostAccept s.c.id (s.end_ src)) s = .next t
      (∀ e, sl.embers.find? (fun e => e.key == key) = some e → ∃ (t : State) (y : Ember), run t ∧ replies t 2 lab ∧ t.d.net = rest ∧
        slice t = some { sl with embers := sl.embers.map (fun k => if k.key == key then y else k) } ∧
        y.key = e.key ∧ y.label = e.label ||| label ∧
          (sl.decl.op = 2 → y.value = e.value + val) ∧ (sl.decl.op = 9 → y.value = e.value ||| val) ∧
          (sl.decl.op = 5 → y.value = if e.value.toInt ≤ val.toInt then e.value else val) ∧
          (sl.decl.op = 8 → y.value = if val.toInt ≤ e.value.toInt then e.value else val) ∧
          (sl.decl.op = 1 → y.value = BitVec.ofNat 64 (fadd FFmt.fp64 0 e.value.toNat val.toNat).1) ∧
          (sl.decl.rule = 3 → y.mag = e.mag) ∧ (sl.decl.rule = 1 → sl.decl.op = 2 → y.mag = y.value)) ∧
      (sl.embers.find? (fun e => e.key == key) = none → sl.embers.length < sl.decl.cap → ∃ t e, run t ∧ replies t 1 lab ∧ t.d.net = rest ∧
        slice t = some { sl with embers := sl.embers ++ [e], created := sl.created + 1 } ∧ e.key = key ∧ e.label = label ∧
        ((sl.decl.op = 2 ∨ sl.decl.op = 5 ∨ sl.decl.op = 8 ∨ sl.decl.op = 9) → e.value = val) ∧
        (sl.decl.rule = 3 → e.mag = BitVec.ofNat 64 sl.created)) ∧
      (sl.embers.find? (fun e => e.key == key) = none → sl.decl.cap ≤ sl.embers.length → sl.decl.refuse = true → ∃ t, run t ∧
        replies t 0 lab ∧ slice t = some sl ∧
        (want = true → t.d.net = rest) ∧
        (want = false → ∃ (m : Msg), t.d.net = rest ++ [{ src := s.c.id, dst := src, kind := .inbox tid m }] ∧ m.type = 5 ∧ m.cause = 0 ∧
          m.src = s.end_ s.c.id ∧ m.optag = pc ∧ m.label = label ∧ m.payload = val ++ key))) ∧
    (s.Delivers src (.take tid op job store) rest →
      let best (e : Ember) : Prop := e ∈ sl.embers ∧ sl.eligible e = true ∧ sl.leased e.key = false ∧
        ∀ k ∈ sl.embers, sl.eligible k = true → sl.leased k.key = false → k.key ≠ e.key → emberBefore sl.decl k e = false
      ((∀ e ∈ sl.embers, sl.eligible e = false ∨ sl.leased e.key = true) → ∃ t, exec (.sliceTake s.c.id (s.end_ src)) s = .next t ∧
        replies t 0 0 ∧ slice t = some sl ∧ t.d.net = rest) ∧
      ((∃ e ∈ sl.embers, sl.eligible e = true ∧ sl.leased e.key = false) → ∃ t e z, exec (.sliceTake s.c.id (s.end_ src)) s = .next t ∧
        best e ∧ replies t (1 + e.bits * 2 ^ 256) e.label ∧ slice t = some z ∧ t.d.net = rest ∧
        z.embers = sl.embers.filter (fun k => k.key != e.key) ∧
        z.leases = (if sl.decl.lease then sl.leases ++ [(e.key, tid)] else sl.leases) ∧ z.ash = sl.ash ∧ z.thresh = sl.thresh)) ∧
    (s.Delivers src (.stat tid op job store) rest → ∃ t n, exec (.sliceTake s.c.id (s.end_ src)) s = .next t ∧
      replies t n sl.decl.lmax ∧ slice t = some sl ∧ n % 2 ^ 15 = sl.embers.length % 2 ^ 15 ∧ n / 2 ^ 16 % 2 ^ 25 = sl.ash.length % 2 ^ 25 ∧
      n / 2 ^ 41 % 32 = sl.handlers % 32 ∧ n / 2 ^ 63 % 2 = (if sl.flushing then 1 else 0) ∧
      n / 2 ^ 62 % 2 = (if sl.embers = [] then 0 else 1)) ∧
    (∀ key, s.Delivers src (.done tid op job store key) rest → ∃ t, exec (.leaseRelease s.c.id (s.end_ src)) s = .next t ∧ replies t 0 0 ∧
      slice t = some { sl with leases := sl.leases.filter (fun p => p != (key, tid)) } ∧ t.d.net = rest) ∧
    (∀ v, s.Delivers src (.thresh tid op job store v) rest → ∃ t z, exec (.sliceThreshold s.c.id (s.end_ src)) s = .next t ∧
      slice t = some z ∧ z.thresh = v ∧ z.embers = sl.embers ∧ z.leases = sl.leases ∧ t.d.net = rest ∧ t.t = s.t) ∧
    (s.Delivers src (.flush tid op job store) rest → ∃ t z, exec (.sliceFlush s.c.id (s.end_ src)) s = .next t ∧
      slice t = some z ∧ z.flushing = !(sl.embers.isEmpty && sl.ash.isEmpty) ∧ z.embers = sl.embers ∧ z.thresh = sl.thresh ∧
      t.d.net = rest ∧ t.t = s.t) ∧
    (∀ key val first more, sl.ash = first :: more → s.mayRepost sl = true → s.d.ashHeld sl = false → s.ashRead sl = .ok (key, val) →
      sl.embers.length < sl.decl.cap →
      sl.embers.find? (fun e => e.key == key) = none → ∃ t e, exec (.ashRepost s.c.id job store) s = .next t ∧
        slice t = some { sl with
          embers := sl.embers ++ [e], created := sl.created + 1, ash := more, ashHead := sl.ashHead + 1, reposts := sl.reposts + 1 } ∧
        e.key = key ∧ e.label = sl.decl.lmax ∧ t.t = s.t ∧ t.d.gmem = s.d.gmem)

/-- The ember forms, and the slice that a key names: `Claim.EmberForms`, `Claim.EmberKeySlice`. -/
def Obligations.EmberStoreForms : Prop :=
  Claim.EmberForms ∧ Claim.EmberKeySlice

/-! ### The engines -/

/-- What a directly issued engine form meets first (R90, R36): no anchor or an ungranted tile is illegal, and a running program of the
engine makes the task wait; `go` says what follows when neither stands in the way. -/
def engineForm (s : State) (e : Engine) (held : Anchor → Bool) (o : Out) (go : Anchor → Prop) : Prop :=
  (s.t.anchor = none → o = .next (s.raise 0x01)) ∧
  ∀ x, s.t.anchor = some x → (held x = false → o = .next (s.raise 0x01)) ∧
    (held x = true → ∀ p, x.prog e = some p → p.ended = false → o = .next (s.park (.engine e))) ∧
    (held x = true → (∀ p, x.prog e = some p → p.ended = true) → go x)

/-- R232, R234, R237, R239: a matrix form checks its descriptor capability, the descriptor, the operands and the accumulator's tag in this
order, waits while the queue is full, and otherwise enters an operation in the queue, with one inbox reservation, and raises the control
label; `mx.zero` takes no reservation. `mxc.send` checks the command right first, and sends the operation to its target core. Stated of a
task with nothing outstanding. -/
def Claim.MatrixForms : Prop :=
  ∀ (s : State) (sw : Bool) (a b : SReg) (tile pri : BitVec 3), s.Still →
    let at_ (r : SReg) := capCursor (s.rd r).bits
    let rec_ (r : SReg) := s.c.spad.mem.read (at_ r) 64
    let spadLab (r : SReg) := s.c.spad.labelOf (at_ r) 64
    let enters (o : Out) (resv : Nat) (chk : Except Raised MxOp) : Prop := engineForm s .matrix (fun x => x.holds tile) o (fun _ =>
      (16 ≤ s.c.mx.length → o = .next (s.park (.engine .matrix))) ∧
      (s.c.mx.length < 16 → (∀ c detail v, chk = .error (c, detail, v) → o = .next (s.raise c detail v)) ∧
        (∀ m, chk = .ok m → (resv = 0 ∨ s.roomForResv resv = true) → ∃ t, o = .next t ∧ t.c.mx = s.c.mx ++ [m] ∧
          t.t.resv = s.t.resv + resv ∧ t.t.clabel = s.t.clabel ||| m.lab ∧ t.t.anchor = s.t.anchor ∧ t.c.tiles = s.c.tiles ∧
          t.c.spad = s.c.spad ∧ t.d.gmem = s.d.gmem ∧ t.t.buf = s.t.buf ∧ t.t.g = s.t.g ∧ t.t.pc = s.t.pc + 4)))
    -- what a descriptor says
    let desc (r : SReg) (f : FTag) : MxOp :=
      descOf (rec_ r) (s.c.spad.tagAt (at_ r)) (s.c.spad.tagAt (at_ r + 16)) (spadLab r) s s.direct tile f
    let readable (r : SReg) : Prop :=
      s.engRange (s.rd r) memSpaces (pLD + pLDCAP) (at_ r) 64 64 (some .spad) = none ∧ s.c.spad.poisoned (at_ r) 64 = false
    let product (z : Bool) : Prop :=
      let chk := s.mxCheck (s.rd a) s.direct tile z
      (∀ x, s.engRange (s.rd a) memSpaces (pLD + pLDCAP) (at_ a) 64 64 (some .spad) = some x → chk = .error x) ∧
      (s.engRange (s.rd a) memSpaces (pLD + pLDCAP) (at_ a) 64 64 (some .spad) = none → s.c.spad.poisoned (at_ a) 64 = true →
        chk = .error (raisedAt 0x18 3 (at_ a))) ∧
      (readable a → mxFmt (rec_ a / 2 ^ 474 % 16) = none → chk = .error (0x02, 2, 0)) ∧
      (∀ f, readable a → mxFmt (rec_ a / 2 ^ 474 % 16) = some f →
        ((descOk (rec_ a) (desc a f) = false ∨ rec_ a / 2 ^ 480 % 2 = 1) → chk = .error (0x02, 2, 0)) ∧
        (descOk (rec_ a) (desc a f) = true → rec_ a / 2 ^ 480 % 2 = 0 →
          (∀ x, s.operandsBad (desc a f) none = some x → chk = .error x) ∧
          (s.operandsBad (desc a f) none = none → z = false → (s.futureTag s.t.tid tile).1 ≠ accTag f → chk = .error (0x03, 0, 0)) ∧
          (s.operandsBad (desc a f) none = none → (z = true ∨ (s.futureTag s.t.tid tile).1 = accTag f) → ∃ m, chk = .ok m ∧
            m.id = s.d.nextOp ∧ m.owner = s.t.tid ∧ m.tile = tile ∧ m.fmt = f ∧ m.kd = 0 ∧ m.zfirst = z ∧ m.zero = none ∧
            m.ksteps = rec_ a / 2 ^ 448 % 2 ^ 13 ∧ m.prio = s.t.prio ∧ m.eff = s.t.prio ∧ m.holds = true ∧ m.remote = none ∧
            m.acap.bits = BitVec.ofNat 128 (rec_ a) ∧ m.bcap.bits = BitVec.ofNat 128 (rec_ a / 2 ^ 128) ∧
            m.astride = rec_ a / 2 ^ 256 % 2 ^ 32 ∧ m.bstride = rec_ a / 2 ^ 288 % 2 ^ 32 ∧
            m.lab = spadLab a ||| s.lab a ||| s.t.clabel)))
    let zero : Prop :=
      let chk := s.zeroCheck (s.rd a) s.direct tile
      (s.x a ≠ 1 → s.x a ≠ 5 → chk = .error (0x02, 1, 0)) ∧
      (∀ f, (s.x a = 1 ∧ f = FTag.fp32) ∨ (s.x a = 5 ∧ f = FTag.int32) → ∃ m, chk = .ok m ∧ m.zero = some f ∧ m.tile = tile ∧
        m.owner = s.t.tid ∧ m.lab = s.lab a ||| s.t.clabel ∧ m.holds = false)
    (s.Ready Accept.none [a] .zero →
      enters (exec (.mxMma sw a tile) s) 1 (s.mxCheck (s.rd a) s.direct tile false) ∧
      enters (exec (.mxMmaz sw a tile) s) 1 (s.mxCheck (s.rd a) s.direct tile true) ∧
      enters (exec (.mxZero sw a tile) s) 0 (s.zeroCheck (s.rd a) s.direct tile)) ∧
    product false ∧ product true ∧ zero ∧
    (s.Ready Accept.none [a, b] .zero →
      let o := exec (.mxcSend sw a b tile pri) s
      let at1 := at_ a + tile.toNat
      let ep : Endpoint := BitVec.ofNat 24 (at_ a / 8)
      (∀ c, checkCap (s.rd a) [6] pCMD = some c → o = .next (s.raise c 0 (causeValue c at1))) ∧
      (checkCap (s.rd a) [6] pCMD = none →
        ((at_ a % 8 ≠ 0 ∨ 2 ^ 27 ≤ at_ a ∨ Endpoint.kind ep ≠ 0) → o = .next (s.raise 0x02 1)) ∧
        (at_ a % 8 = 0 → at_ a < 2 ^ 27 → Endpoint.kind ep = 0 →
          (inBounds (s.rd a) (at1 : Nat) 1 = false → o = .next (s.raise 0x05 0 (BitVec.ofNat 64 at1))) ∧
          (inBounds (s.rd a) (at1 : Nat) 1 = true → ∀ f, readable b → mxFmt (rec_ b / 2 ^ 474 % 16) = some f →
            descOk (rec_ b) (desc b f) = true →
            ((rec_ b / 2 ^ 478 % 4 ≠ 0) → o = .next (s.raise 0x02 2)) ∧
            (rec_ b / 2 ^ 478 % 4 = 0 → s.operandsBad (desc b f) (some .glob) = none →
              ((hasPerm (desc b f).acap.bits pGLOBAL = false ∨ hasPerm (desc b f).bcap.bits pGLOBAL = false) → o = .next (s.raise 0x06)) ∧
              (hasPerm (desc b f).acap.bits pGLOBAL = true → hasPerm (desc b f).bcap.bits pGLOBAL = true → s.roomForResv 1 = true →
                ∃ t p m, o = .next t ∧ t.t.ops = [p] ∧ p.id = s.d.nextOp ∧ p.result = false ∧ t.t.resv = s.t.resv + 1 ∧
                  t.t.clabel = s.t.clabel ||| m.lab ∧ m.lab = spadLab b ||| s.lab a ||| s.lab b ||| s.t.clabel ∧ m.tile = tile ∧
                  m.fmt = f ∧ m.prio = pri ∧ m.zfirst = (rec_ b / 2 ^ 480 % 2 == 1) ∧ m.remote = some s.c.id ∧
                  m.ksteps = rec_ b / 2 ^ 448 % 2 ^ 13 ∧ t.c.spad = s.c.spad ∧ t.t.pc = s.t.pc + 4 ∧
                  (Endpoint.dev ep = s.d.fabric.device → t.d.net = s.d.net ++
                    [{ src := s.c.id, dst := Endpoint.core ep, kind := .matrix s.t.tid s.d.nextOp m }]) ∧
                  (Endpoint.dev ep ≠ s.d.fabric.device → t.d.net = s.d.net ∧ p.kind = .command ep tile m.ksteps)))))))

/-- R235 to R237, R240: the matrix array zeroes a tile, and applies one k-step of the chosen operation to every accumulator of its tile
at once; the operation leaves the queue after its last k-step; waiting entries age. A command is acknowledged, and enters the
queue of the core on which its tile is granted to a task of the sender's job, or is refused. -/
def Claim.MatrixEvents : Prop :=
  ∀ s : State, s.c.trace.rctl = 0 →
    (∀ m, s.mxChoice = some m → s.d.stopped s.part = false → m.remote = none → m.answer = none → m.doomed = false →
      s.c.spadJob = m.job → (∀ p ∈ s.pinsOf m.owner, 0x100000 ≤ p.lo ∧ p.lo ≤ p.hi) →
      let others (t : State) : Prop := (∀ i, i ≠ m.tile → t.tile i = s.tile i) ∧ t.c.spad = s.c.spad ∧ t.d.gmem = s.d.gmem
      (∀ f, m.zero = some f → m.begun = false → m.tile.toNat < 8 → ∃ t, exec (.matrixKstep s.c.id) s = .next t ∧
        t.tile m.tile = { rows := Vector.replicate 64 0, fmt := f, label := m.lab, poison := 0 } ∧ others t ∧
        t.c.mx.length + (s.c.mx.filter (fun o => o.id == m.id)).length = s.c.mx.length ∧ ∀ o ∈ t.c.mx, o.id ≠ m.id) ∧
      (m.begun = true → (s.tile m.tile).poison = 0 → m.asrc = false → m.bsrc = false →
        let n := stepBytes m.fmt
        let at_ (cap : Val) (stride i : Nat) : Nat := capCursor cap.bits + (i * stride + m.kd * n)
        let scale (cap : Val) (off : Int) (sstride i : Nat) : Int := (capCursor cap.bits : Int) + off + (i * sstride + 2 * m.kd : Nat)
        let spad (p : Int) (k : Nat) : Prop := 0 ≤ p ∧ p + k ≤ 0x100000 ∧ s.c.spad.poisoned p.toNat k = false
        let row (cap : Val) (stride : Nat) (off : Int) (sstride i : Nat) : RowStep :=
          (s.c.spad.mem.read (at_ cap stride i) n, if isBq m.fmt then s.c.spad.mem.read (scale cap off sstride i).toNat 2 else 0)
        (∀ i < 64, spad (at_ m.acap m.astride i) n ∧ spad (at_ m.bcap m.bstride i) n ∧
          (isBq m.fmt = true → spad (scale m.acap m.asoff m.asstride i) 2 ∧ spad (scale m.bcap m.bsoff m.bsstride i) 2)) →
        ∃ t, exec (.matrixKstep s.c.id) s = .next t ∧ others t ∧ (t.tile m.tile).fmt = (s.tile m.tile).fmt ∧
          ((s.tile m.tile).label ||| m.lab).sub (t.tile m.tile).label = true ∧
          (∀ i j, i < 64 → j < 64 → lane ((t.tile m.tile).rows[i]?.getD 0) 32 j =
            accumulate m.fmt (lane ((s.tile m.tile).rows[i]?.getD 0) 32 j) (row m.acap m.astride m.asoff m.asstride i)
              (row m.bcap m.bstride m.bsoff m.bsstride j) % 2 ^ 32) ∧
          (m.kd + 1 < m.ksteps → ∀ o ∈ t.c.mx, o.id = m.id → o.kd = m.kd + 1 ∧ o.eff = m.prio) ∧
          (m.ksteps ≤ m.kd + 1 → ∀ o ∈ t.c.mx, o.id ≠ m.id))) ∧
    (∃ t, exec (.matrixQueueAgeing s.c.id) s = .next t ∧ t = { s with c := { s.c with mx := t.c.mx } } ∧
      t.c.mx.length = s.c.mx.length ∧ ∀ (i : Nat) (m : MxOp), s.c.mx[i]? = some m → ∃ o, t.c.mx[i]? = some o ∧ o.id = m.id ∧ o.kd = m.kd ∧
        (m.running = true → o = m) ∧
        (m.running = false → s.engHeld m.launch = false → m.age + 4096 ≤ s.d.cycle → o.eff = (if m.eff = 7 then 7 else m.eff + 1)) ∧
        (m.running = false → (s.engHeld m.launch = true ∨ s.d.cycle < m.age + 4096) → o.eff = m.eff)) ∧
    (∀ src rest tid op m, s.Delivers src (.matrix tid op m) rest → src ≠ s.c.id →
      let owns (k : Task) : Prop := k.job = m.job ∧ ∃ x, k.anchor = some x ∧ x.holds m.tile = true
      let reply (cause : Nat) : Prop := ∃ t k, exec (.matrixCommand s.c.id (s.end_ src)) s = .next t ∧ t.c.mx = s.c.mx ∧
        t.d.net = rest ++ [{ src := s.c.id, dst := src, kind := .inbox m.owner k }] ∧ k.type = 2 ∧ k.cause = BitVec.ofNat 8 cause ∧
        k.optag = m.pc ∧ k.label = m.lab ∧ k.payload = BitVec.ofNat 128 (m.kd + m.tile.toNat * 2 ^ 16)
      ((∃ p ∈ s.whole.tasks, owns p.2) → s.c.mx.length < 16 → ∃ t, exec (.matrixCommand s.c.id (s.end_ src)) s = .next t ∧
        t.c.mx = s.c.mx ++ [{ m with id := s.d.nextOp, age := s.d.cycle }] ∧ t.d.net = rest ∧ t.c.tiles = s.c.tiles ∧
        t.d.cores = (s.setStage src op (.executed { data := 0, tag := false, label := 0, flags := 0 })).d.cores) ∧
      ((∃ p ∈ s.whole.tasks, owns p.2) → 16 ≤ s.c.mx.length → reply 0x0E) ∧
      ((∀ p ∈ s.whole.tasks, ¬owns p.2) → (∃ v ∈ s.d.saved, v.core = s.c.id ∧ owns v.task) → reply 0x12) ∧
      ((∀ p ∈ s.whole.tasks, ¬owns p.2) → (∀ v ∈ s.d.saved, v.core = s.c.id → ¬owns v.task) → reply 0x06))

/-- R246, R247, R249 to R251, R339: a copy form waits while a program of its engine runs or 64 copies are held, raises the cause of the first
failing check, and otherwise enters a copy with one reservation; `cp.raw` is for supervisor level. A contiguous copy's length is that from
its destination's cursor to its top, and its ranges must not overlap. A release passes the gate first. -/
def Claim.CopyForms : Prop :=
  ∀ (s : State) (sw note : Bool) (a b : SReg) (dest : CpDest), s.Still →
    let clear : Prop := ∀ x p, s.t.anchor = some x → x.prog .copy = some p → p.ended = true
    let busy (o : Out) : Prop := (∀ x p, s.t.anchor = some x → x.prog .copy = some p → p.ended = false → o = .next (s.park (.engine .copy))) ∧
      (clear → 64 ≤ s.c.cp.length → o = .next (s.park (.engine .copy)))
    let bad (o : Out) (chk : Except Raised CpOp) : Prop := clear → s.c.cp.length < 64 → ∀ c detail v, chk = .error (c, detail, v) →
      o = .next (s.raise c detail v)
    let enters (o : Out) (chk : Except Raised CpOp) : Prop := busy o ∧ bad o chk ∧ (clear → s.c.cp.length < 64 → s.roomForResv 1 = true →
      ∀ m, chk = .ok m → ∃ t, o = .next t ∧ t.c.cp = s.c.cp ++ [m] ∧ t.t.resv = s.t.resv + 1 ∧ t.t.clabel = s.t.clabel ||| m.lab ∧
        t.c.spad = s.c.spad ∧ t.d.gmem = s.d.gmem ∧ t.t.g = s.t.g ∧ t.t.buf = s.t.buf ∧ t.t.pc = s.t.pc + 4)
    let bulk (kind : CpKind) (dst src : SReg) : Prop :=
      let chk := s.bulkCheck s.direct kind note (s.rd a) (s.rd b)
      let da := capCursor (s.rd dst).bits
      let sa := capCursor (s.rd src).bits
      let len : Int := capTop (s.rd dst).bits - da
      let rel : Nat := if kind = .release then pRELEASE else 0
      (∀ c, checkCap (s.rd a) memSpaces (if kind = .release then pLD + rel else pST) = some c → chk = .error (raisedAt c 0 (capCursor (s.rd a).bits))) ∧
      (checkCap (s.rd dst) memSpaces pST = none → checkCap (s.rd src) memSpaces (pLD + rel) = none →
        ((len < 1 ∨ 2 ^ 32 < len) → chk = .error (raisedAt 0x05 0 da)) ∧
        (1 ≤ len → len ≤ 2 ^ 32 → s.engRange (s.rd a) memSpaces 0 (capCursor (s.rd a).bits) len.toNat 1 none = none →
          s.engRange (s.rd b) memSpaces 0 (capCursor (s.rd b).bits) len.toNat 1 none = none →
          ((da < sa + len.toNat ∧ sa < da + len.toNat) → chk = .error (raisedAt 0x05 0 da)) ∧
          (¬(da < sa + len.toNat ∧ sa < da + len.toNat) → ∃ m, chk = .ok m ∧ m.id = s.d.nextOp ∧ m.kind = kind ∧ m.owner = s.t.tid ∧
            m.src = sa ∧ m.dst = da ∧ m.len = len.toNat ∧ m.seg = 0 ∧ m.written = 0 ∧ m.note = note ∧ m.ended = none ∧
            m.lab = s.lab a ||| s.lab b ||| s.t.clabel ∧ m.prio = s.t.prio ∧ m.holds = true)))
    (s.Ready Accept.none [a, b] .zero →
      (dest ≠ .spad → s.t.anchor = none → exec (.cpTensor sw a b dest note) s = .next (s.raise 0x01)) ∧
      ((dest = .spad ∨ s.t.anchor ≠ none) → enters (exec (.cpTensor sw a b dest note) s) (s.tensorCheck s.direct dest note (s.rd a) (s.rd b))) ∧
      enters (exec (.cpBulk sw a b note) s) (s.bulkCheck s.direct .bulk note (s.rd a) (s.rd b)) ∧
      (s.t.level = 0 → exec (.cpRaw sw a b note) s = .next (s.raise 0x16)) ∧
      (s.t.level ≠ 0 → enters (exec (.cpRaw sw a b note) s) (s.bulkCheck s.direct .rawCopy note (s.rd a) (s.rd b))) ∧
      (let o := exec (.cpRelease sw a b note) s
       let chk := s.bulkCheck s.direct .release note (s.rd a) (s.rd b)
       busy o ∧ bad o chk ∧ (clear → s.c.cp.length < 64 → s.roomForResv 1 = true → ∀ m, chk = .ok m →
        let u : State := { s with t := { s.t with resv := s.t.resv + 1 } }
        (∀ c detail v d w, u.admission m = (.bad (c, detail, v), d, w) →
          o = .next (State.raise { w with t := w.t.freeResv } c detail v)) ∧
        (∀ d w, u.admission m = (.ok, d, w) → ∃ t, o = .next t ∧ t.c.cp = w.c.cp ++ [{ m with seen := d, id := w.d.nextOp }] ∧
          t.t.resv = w.t.resv ∧ t.t.clabel = w.t.clabel ||| m.lab ∧ t.t.pc = w.t.pc + 4)))) ∧
    bulk .bulk a b ∧ bulk .rawCopy a b ∧ bulk .release b a

/-- R250: the gate admits a release under the first policy whose conditions all hold, and takes its length from that policy's budget at
once; without one it refuses and leaves every budget; policies that have expired are removed. -/
def Claim.ReleaseGate : Prop :=
  ∀ (s : State) (lab : Label) (cls : Nat × BitVec 12) (measure : BitVec 256) (len : Nat),
    let ps := (s.d.partState s.part).policies
    let holds (p : Policy) : Prop := lab.sub p.labelset = true ∧ p.cls.toNat = cls.1 ∧ (cls.1 = 1 ∨ p.peer.setWidth 12 = cls.2) ∧
      s.d.cycle < p.expiry.toNat ∧ p.measure = measure ∧ len ≤ p.budget
    let after (t : State) : List Policy := (t.d.partState s.part).policies
    let (r, t) := s.gate lab cls measure len
    ((∀ p ∈ ps, ¬holds p) → (∃ detail, r = some detail ∧ 1 ≤ detail ∧ detail ≤ 5) ∧
      after t = ps.filter (fun p => decide (s.d.cycle < p.expiry.toNat))) ∧
    (∀ pre p post, ps = pre ++ p :: post → (∀ q ∈ pre, ¬holds q ∧ q.place ≠ p.place) → (∀ q ∈ post, q.place ≠ p.place) → holds p →
      r = none ∧ after t = (pre ++ { p with budget := p.budget - len } :: post).filter (fun q => decide (s.d.cycle < q.expiry.toNat))) ∧
    t.t = s.t ∧ t.d.gmem = s.d.gmem

/-- R248, R339: the copy engine writes one segment of at most 4 KiB of the chosen copy at a time, each byte of the destination from its place
in the source; a copy ends after its last segment, or with label mismatch before a segment that a destination page may not take; copies age
like matrix operations. Stated of a contiguous copy within the scratchpad. -/
def Obligations.CopyEvents : Prop :=
  ∀ s : State, s.c.trace.rctl = 0 →
    (∀ m, s.c.cp.find? (fun o => o.ended.isSome && o.acks.isEmpty) = none → bestCp (s.c.cp.filter s.cpEligible) = some m →
      s.d.stopped s.part = false → m.kind = .bulk → m.acks = [] → s.c.spadJob = m.job →
      (∀ p ∈ s.pinsOf m.owner, 0x100000 ≤ p.lo ∧ p.lo ≤ p.hi) →
      let lo := 4096 * m.seg
      let n := min 4096 (m.len - lo)
      lo < m.len → m.src + m.len ≤ 0x100000 → m.dst + m.len ≤ 0x100000 → rangesOverlap m.dst m.src m.len = false →
      s.c.spad.poisoned (m.src + lo) n = false → s.c.spad.mem.wf = true →
      let lab := m.lab ||| s.c.spad.labelOf (m.src + lo) n
      let left (t : State) : Prop := ∀ o ∈ t.c.cp, o.id ≠ m.id
      (s.c.spad.accepts (m.dst + lo) n lab = false → ∃ t, exec (.copySegment s.c.id) s = .next t ∧ t.c.spad = s.c.spad ∧ left t ∧
        ∃ k, t.d.net = s.d.net ++ [{ src := s.c.id, dst := s.c.id, kind := .inbox m.owner k }] ∧ k.cause = 0x0B) ∧
      (s.c.spad.accepts (m.dst + lo) n lab = true → ∃ t, exec (.copySegment s.c.id) s = .next t ∧ t.c.spad.mem.wf = true ∧
        (∀ x, t.c.spad.mem.get x =
          if m.dst + lo ≤ x ∧ x < m.dst + lo + n then s.c.spad.mem.get (x - m.dst + m.src) else s.c.spad.mem.get x) ∧
        t.c.spad.labels = s.c.spad.labels ∧ t.c.tiles = s.c.tiles ∧ t.d.gmem = s.d.gmem ∧
        (lo + 4096 < m.len → ∀ o ∈ t.c.cp, o.id = m.id → o.seg = m.seg + 1 ∧ o.written = m.written + n ∧ o.eff = m.prio) ∧
        (m.len ≤ lo + 4096 → left t ∧ (m.note = true → ∃ k, t.d.net = s.d.net ++ [{ src := s.c.id, dst := s.c.id, kind := .inbox m.owner k }] ∧
          k.type = 1 ∧ k.cause = 0 ∧ k.optag = m.optag ∧
          k.payload = BitVec.ofNat 128 (m.written + n + m.flags.toNat * 2 ^ 64))))) ∧
    (∃ t, exec (.copyAgeing s.c.id) s = .next t ∧ t = { s with c := { s.c with cp := t.c.cp } } ∧
      t.c.cp.length = s.c.cp.length ∧ ∀ (i : Nat) (m : CpOp), s.c.cp[i]? = some m → ∃ o, t.c.cp[i]? = some o ∧ o.id = m.id ∧ o.seg = m.seg ∧
        (s.c.held .engine (s.d.tenantOf m.launch) = false → m.age + 4096 ≤ s.d.cycle → o.eff = (if m.eff = 7 then 7 else m.eff + 1)) ∧
        ((s.c.held .engine (s.d.tenantOf m.launch) = true ∨ s.d.cycle < m.age + 4096) → o.eff = m.eff))

/-- R259 to R265: a sort form must name a granted pair of tiles whose first is even; it waits while a program of its engine runs, raises the
cause of the first failing check, and otherwise enters an operation with one reservation. -/
def Claim.SortForms : Prop :=
  ∀ (s : State) (sw note : Bool) (a b : SReg) (tile : BitVec 3) (kfmt : KFmt) (form : KForm), s.Still →
    let pair (x : Anchor) : Bool := decide (tile.toNat % 2 = 0) && x.holds tile && x.holds (tile + 1)
    let enters (o : Out) (chk : Anchor → Except Raised SortOp) : Prop := engineForm s .sort pair o (fun x =>
      (∀ c detail v, chk x = .error (c, detail, v) → o = .next (s.raise c detail v)) ∧
      (∀ m, chk x = .ok m → s.roomForResv 1 = true → ∃ t, o = .next t ∧ t.c.srt = s.c.srt ++ [m] ∧ t.t.resv = s.t.resv + 1 ∧
        t.t.clabel = s.t.clabel ||| m.lab ∧ t.t.anchor = s.t.anchor ∧ t.c.tiles = s.c.tiles ∧ t.c.spad = s.c.spad ∧
        t.d.gmem = s.d.gmem ∧ t.t.buf = s.t.buf ∧ t.t.pc = s.t.pc + 4))
    (s.Ready Accept.none [a, b] .zero →
      enters (exec (.sortLoad sw a b tile note kfmt form) s) (fun x => s.loadCheck x s.direct (s.rd a) (s.rd b) tile note kfmt form) ∧
      enters (exec (.sortStore sw a b tile note kfmt form) s) (fun x => s.storeCheck x s.direct (s.rd a) (s.rd b) tile note kfmt form) ∧
      enters (exec (.sortTopk sw a b tile note kfmt form) s) (fun x => s.topkCheck x s.direct (s.rd a) (s.rd b) tile note kfmt form)) ∧
    (s.Ready Accept.none [a] .zero →
      enters (exec (.sortRun sw a tile note kfmt form) s) (fun x => s.runCheck x s.direct (s.rd a) tile note kfmt form)) ∧
    (s.Ready Accept.none [] .zero →
      enters (exec (.sortRows sw tile note kfmt form) s) (fun x => s.rowsCheck x s.direct tile note kfmt form)) ∧
    -- what an accepted operation does
    (∀ x m, s.t.anchor = some x →
      let n := (s.x b).toNat
      let same (kind : SortKind) (addr : Nat) (lab : Label) : Prop := m.kind = kind ∧ m.tile = tile ∧ m.addr = addr ∧ m.owner = s.t.tid ∧
        m.kfmt = kfmt ∧ m.form = form ∧ m.note = note ∧ m.lab = lab ||| s.t.clabel ∧ m.steps = 0 ∧ m.holds = true
      let at_ := capCursor (s.rd a).bits
      (s.loadCheck x s.direct (s.rd a) (s.rd b) tile note kfmt form = .ok m →
        same (.load (BitVec.ofNat 2 (n / 2 ^ 21)) (n / 2 ^ 20 % 2 == 1) (BitVec.ofNat 20 n)) at_ (s.lab a ||| s.lab b) ∧ n < 2 ^ 23 ∧
        n / 2 ^ 21 ≠ 3) ∧
      (s.storeCheck x s.direct (s.rd a) (s.rd b) tile note kfmt form = .ok m →
        same (.store (BitVec.ofNat 2 (n / 2 ^ 21)) (n / 2 ^ 23 % 2 == 1)) at_ (s.lab a ||| s.lab b) ∧ n < 2 ^ 24 ∧ n % 2 ^ 21 = 0) ∧
      (s.topkCheck x s.direct (s.rd a) (s.rd b) tile note kfmt form = .ok m → same (.topk n) at_ (s.lab a ||| s.lab b) ∧ 1 ≤ n ∧ n ≤ 4096) ∧
      (s.runCheck x s.direct (s.rd a) tile note kfmt form = .ok m → (s.x a).toNat < 16 ∧
        ∃ left, same (.run left) 0 (s.lab a) ∧ ((s.x a).toNat ≠ 0 → left = (s.x a).toNat)) ∧
      (s.rowsCheck x s.direct tile note kfmt form = .ok m → same .rows 0 0))

/-- R254 to R258, R261, R262: a whole load puts the pairs of the scratchpad into the positions of the tile pair and sets the sort state; an array
step exchanges each compared pair whose second ranks before its first; a store writes the pairs of its positions. -/
def Claim.SortEvents : Prop :=
  ∀ (s : State) (m : SortOp) (rest : List SortOp) (x : Anchor), s.c.srt = m :: rest → s.c.trace.rctl = 0 → s.d.stopped s.part = false →
    s.t.tid = m.owner → s.t.status ≠ .vacant → s.t.anchor = some x → s.taskOf m.owner = some s.t → m.doomed = false → m.prog = false →
    m.tile.toNat % 2 = 0 → (∀ o ∈ rest, o.id ≠ m.id) → s.c.spadJob = m.job →
    let o := exec (.sortStep s.c.id) s
    let element (t : State) (n : Nat) : Nat :=
      lane ((t.tile (if posCol n < 32 then m.tile else m.tile + 1)).rows[n / 64]?.getD 0) 64 (posCol n % 32)
    let others (t : State) : Prop := (∀ i, i ≠ m.tile → i ≠ m.tile + 1 → t.tile i = s.tile i) ∧ t.d.gmem = s.d.gmem
    let sort (t : State) (st : SortState) : Prop := ∃ y, t.t.anchor = some y ∧ y.sort = st ∧ y.o = x.o ∧ y.tiles = x.tiles
    let org (p : BitVec 131072) (n : Nat) : Nat := p.toNat / 2 ^ (32 * n) % 2 ^ 32
    (∀ desc sb, m.kind = .load 0 desc sb → s.c.spad.poisoned m.addr 32768 = false → ∃ t st, o = .next t ∧ others t ∧ sort t st ∧
      t.c.srt = rest ∧ t.c.spad = s.c.spad ∧ st.bound = true ∧ st.pairT = m.tile ∧ st.desc = desc ∧ st.kfmt = m.kfmt ∧ st.form = m.form ∧
      st.ph = 0 ∧ st.step = 0 ∧ (t.tile m.tile).fmt = .keys ∧ (t.tile (m.tile + 1)).fmt = .keys ∧
      ∀ n < 4096, element t n = s.c.spad.mem.read (m.addr + 8 * n) 8 ∧ org st.origins n = sb.toNat * 4096 + n) ∧
    (∀ left, m.kind = .run left → 0 < left → m.begun = true → s.sortPoisoned m = false →
      let st := x.sort
      let row : Bool := st.ph.toNat % 2 == 0
      let pair (n : Nat) : Pair := { bits := element s n, org := org st.origins n }
      let after (n : Nat) : Pair := match partner row st.step.toNat n with
        | none => pair n
        | some (k, first) => if (if first then ranksBefore st.kfmt st.desc (pair k) (pair n) else ranksBefore st.kfmt st.desc (pair n) (pair k))
            then pair k else pair n
      ∃ t z, o = .next t ∧ others t ∧ sort t z ∧ t.c.spad = s.c.spad ∧
        (∀ n < 4096, element t n = (after n).bits ∧ org z.origins n = (after n).org) ∧
        (st.step = 63 → z.step = 0 ∧ z.ph = st.ph + 1) ∧
        (st.step = 0 → z.step = 1 ∧ z.ph = st.ph ∧ z.xprev = (rangeFrom 0 4096).any (fun n => after n != pair n))) ∧
    (∀ half, m.kind = .store half false → half ≠ 3 → s.sortPoisoned m = false → s.c.spad.mem.wf = true →
      let (n0, count) := halfRange half
      m.addr + 8 * count ≤ 0x100000 → s.c.spad.accepts m.addr (8 * count) (s.sortLabel m) = true → ∃ t, o = .next t ∧ others t ∧ t.c.srt = rest ∧
        t.c.spad.mem.wf = true ∧ (∀ n < count, t.c.spad.mem.read (m.addr + 8 * n) 8 = element s (n0 + n)) ∧
        ∀ y, (y < m.addr ∨ m.addr + 8 * count ≤ y) → t.c.spad.mem.get y = s.c.spad.mem.get y)

/-- R90, R189, R190: the next word of a forked program is taken once the one before it has ended. A word that is no form of its engine, or
that fails a check, ends the program with an engine fault message; any other is accepted as the directly issued form would be, from the
registers as they stood at the fork. -/
def Obligations.EngineWords : Prop :=
  ∀ (s : State) (e : Engine) (x : Anchor) (p : Prog), s.t.status ≠ .vacant → s.t.onHearth = false → s.t.anchor = some x →
    x.prog e = some p → p.running = false → p.ended = false → p.suspended = false → p.next < p.words.length →
    s.c.spadJob = s.t.job → let o := exec (.engineWord s.c.id s.t.tid e) s
    let word := (p.words[p.next]?).bind (wordForm e)
    let fails (cause : Nat) : Prop := ∃ t y k, o = .next t ∧ t.t.anchor = some y ∧
      y.prog e = some { p with running := false, ended := true, holds := false } ∧ (∀ i, i ≠ e → y.prog i = x.prog i) ∧
      t.d.net = s.d.net ++ [{ src := s.c.id, dst := s.c.id, kind := .inbox s.t.tid k }] ∧ k.type = 4 ∧ k.cause = BitVec.ofNat 8 cause ∧
      k.optag = p.optag ∧ k.payload = BitVec.ofNat 128 (Engine.index e + p.next * 2 ^ 64) ∧ t.c.mx = s.c.mx ∧ t.c.cp = s.c.cp ∧
      t.c.srt = s.c.srt ∧ t.t.pc = s.t.pc
    let starts (t : State) (f : WordForm) (lab : Label) : Prop := o = .next t ∧ (∃ y, t.t.anchor = some y ∧
      y.prog e = some { p with next := p.next + 1, running := true } ∧ ∀ i, i ≠ e → y.prog i = x.prog i) ∧
      t.t.resv = s.t.resv + (if f.note then 1 else 0) ∧ t.t.clabel = s.t.clabel ||| lab ∧ t.c.tiles = s.c.tiles ∧ t.c.spad = s.c.spad ∧
      t.t.pc = s.t.pc
    let og : Origin := { pc := p.forkPc, optag := p.optag, prog := true, word := p.next }
    let rd := p.rd s.t
    (word = none → fails 0x01) ∧
    (∀ f, word = some f →
      ((portsOf f.srcs ≠ [] ∨ x.holdsFor f = false) → fails 0x01) ∧
      (portsOf f.srcs = [] → x.holdsFor f = true →
        (∀ a b n, f = .copy .rawCopy a b n → s.t.level = 0 → fails 0x16) ∧
        (s.engFull e = true → (∀ a b n, f ≠ .copy .rawCopy a b n) → o = .next s) ∧
        (s.engFull e = false → s.roomForResv (if f.note then 1 else 0) = true →
          (∀ a t z, f = .mma a t z →
            (∀ m, s.mxCheck (rd a) og t z = .ok m → ∃ u, starts u f m.lab ∧ u.c.mx = s.c.mx ++ [m] ∧ u.c.cp = s.c.cp ∧ u.c.srt = s.c.srt) ∧
            (∀ c detail v, s.mxCheck (rd a) og t z = .error (c, detail, v) → fails c)) ∧
          (∀ a t, f = .zero a t →
            (∀ m, s.zeroCheck (rd a) og t = .ok m → ∃ u, starts u f m.lab ∧ u.c.mx = s.c.mx ++ [m]) ∧
            (∀ c detail v, s.zeroCheck (rd a) og t = .error (c, detail, v) → fails c)) ∧
          (∀ kind a b n, f = .copy kind a b n → (kind = .rawCopy → s.t.level ≠ 0) →
            (∀ m, s.copyCheck og kind n (rd a) (rd b) = .ok m → kind ≠ .release → ∃ u, starts u f m.lab ∧ u.c.cp = s.c.cp ++ [m]) ∧
            (∀ c detail v, s.copyCheck og kind n (rd a) (rd b) = .error (c, detail, v) → fails c)) ∧
          (∀ a b t n k fm, f = .load a b t n k fm → ∀ m, s.loadCheck x og (rd a) (rd b) t n k fm = .ok m →
            ∃ u, starts u f m.lab ∧ u.c.srt = s.c.srt ++ [m]) ∧
          (∀ a b t n k fm, f = .store a b t n k fm → ∀ m, s.storeCheck x og (rd a) (rd b) t n k fm = .ok m →
            ∃ u, starts u f m.lab ∧ u.c.srt = s.c.srt ++ [m]) ∧
          (∀ a t n k fm, f = .run a t n k fm → ∀ m, s.runCheck x og (rd a) t n k fm = .ok m →
            ∃ u, starts u f m.lab ∧ u.c.srt = s.c.srt ++ [m]) ∧
          (∀ t n k fm, f = .rows t n k fm → ∀ m, s.rowsCheck x og t n k fm = .ok m →
            ∃ u, starts u f m.lab ∧ u.c.srt = s.c.srt ++ [m]) ∧
          (∀ a b t n k fm, f = .topk a b t n k fm → ∀ m, s.topkCheck x og (rd a) (rd b) t n k fm = .ok m →
            ∃ u, starts u f m.lab ∧ u.c.srt = s.c.srt ++ [m]))))

/-- Matrix work: the forms and the events: `Claim.MatrixForms`, `Claim.MatrixEvents`. -/
def Obligations.MatrixFormsAndEvents : Prop :=
  Claim.MatrixForms ∧ Claim.MatrixEvents

/-- The copy forms, and the release gate: `Claim.CopyForms`, `Claim.ReleaseGate`. -/
def Obligations.CopyFormsAndGate : Prop :=
  Claim.CopyForms ∧ Claim.ReleaseGate

/-- The sorting array: the forms and the events: `Claim.SortForms`, `Claim.SortEvents`. -/
def Obligations.SortFormsAndEvents : Prop :=
  Claim.SortForms ∧ Claim.SortEvents

/-! ### The debug units -/

/-- A field of a task's stop list: what a store to STOPREQ adds. -/
def asksStop (u w : TraceUnit) (tid : Tid) : Prop := w.pendingStops = u.pendingStops ++ [(tid, 0xFF)]

/-- R398 to R400, R408, R409, R411 to R413, R417: a store that the unit refuses does nothing; any other writes its register. TCTL clears TSTAT
and starts the sampling period; RCTL holds for the tasks that start after it; a breakpoint that would be the 33rd to name a TID is stored
with EN 0; STOPREQ asks a live task that its holder reaches to stop; RESUME lets a task go that the unit had stopped, for one unit if
STEP is 1; DUMPVA writes a dump of at most DUMPMAX bytes and appends its record; a page of the host holds the dump back, and what cannot
be written otherwise is a dump of no bytes. -/
def Claim.DebugRegisters : Prop :=
  ∀ (s : State) (c : CoreId) (v : Word),
    let u := (s.core c).trace
    let p := s.d.partOf (CoreId.die c)
    let stores (i : Instr) (off : Nat) (w : State → TraceUnit → Prop) : Prop :=
      (s.traceRefuses c off v ≠ none → exec i s = .next s) ∧
      (s.traceRefuses c off v = none → ∃ t, exec i s = .next t ∧ w t (t.core c).trace ∧ t.t = s.t ∧
        (∀ k, k ≠ c → t.core k = s.core k) ∧ (t.core c).tiles = (s.core c).tiles ∧ (t.core c).spad = (s.core c).spad ∧
        (t.core c).mx = (s.core c).mx ∧ t.d.net = s.d.net)
    stores (.tctl c v) 0x00 (fun t w => t.d = { s.d with cores := t.d.cores } ∧ w =
      { u with tctl := v, tstat := 0, sampled := s.d.cycle, needTime := u.needTime || (u.tctl.toNat % 2 == 0 && v.toNat % 2 == 1) }) ∧
    stores (.trd c v) 0x28 (fun t w => t.d = { s.d with cores := t.d.cores } ∧ w = { u with trd := v }) ∧
    stores (.rctl c v) 0x48 (fun t w => t.d = { s.d with cores := t.d.cores } ∧ w.rctl = v ∧ w.inputs = [] ∧ w.creates = [] ∧
      w.chunk = none ∧ w.tctl = u.tctl ∧ w.staged = u.staged ∧ w.twr = u.twr ∧
      (∀ tid ∈ s.startedTids, w.rctlOf tid = u.rctlOf tid) ∧ ∀ tid, tid ∉ s.startedTids → w.rctlOf tid = v) ∧
    (∀ n : BitVec 3, stores (.bpctl c n v) (0x108 + 16 * n.toNat) (fun t w =>
      let rest := (s.d.partState p).attached.filter (fun x => !(x.2.1 == c && x.2.2 == n))
      let names : Prop := v.toNat % 2 = 1 ∧ v.toNat / 2 ^ 7 % 2 = 1
      (∀ k, k ≠ n → w.bpctl[k.toNat]? = u.bpctl[k.toNat]?) ∧ w.bpaddr = u.bpaddr ∧ t.d.gmem = s.d.gmem ∧
      (names → 32 ≤ rest.length → w.bpctl[n.toNat]? = some (v - 1) ∧ (t.d.partState p).attached = rest) ∧
      (names → rest.length < 32 → w.bpctl[n.toNat]? = some v ∧
        (t.d.partState p).attached = rest ++ [(BitVec.ofNat 48 (v.toNat / 2 ^ 16), c, n)]) ∧
      (¬names → w.bpctl[n.toNat]? = some v ∧ (t.d.partState p).attached = rest))) ∧
    stores (.stopreq c v) 0x50 (fun t w =>
      let tid : Tid := v.setWidth 48
      let reached : Prop := ∃ q, s.taskPart tid = some q ∧ (u.holder = .hyp ∨ u.holder = .guest q)
      let free : Prop := (∀ x ∈ s.d.saved, x.task.tid = tid → x.unit = none) ∧ ∀ k ∈ s.allCores, ∀ x ∈ k.trace.pendingStops, x.1 ≠ tid
      t.d.gmem = s.d.gmem ∧ w.stopreq = v ∧ (reached → free → asksStop u w tid) ∧
      ((¬reached ∨ ¬free) → w.pendingStops = u.pendingStops)) ∧
    stores (.resume c v) 0x58 (fun t w =>
      let tid : Tid := v.setWidth 48
      w.resume = v ∧ w.heldTids = u.heldTids.filter (fun x => x.1 != tid) ∧ t.d.gmem = s.d.gmem ∧
      t.d.saved.length = s.d.saved.length ∧ ∀ (i : Nat) (x : Saved), s.d.saved[i]? = some x → ∃ y, t.d.saved[i]? = some y ∧
        (x.task.tid = tid ∧ x.unit = some c → y = { x with
          unit := none, task := { x.task with single := if v.toNat / 2 ^ 48 % 2 = 1 then some c else none } }) ∧
        (¬(x.task.tid = tid ∧ x.unit = some c) → y = x)) ∧
    stores (.dumpva c v) 0x60 (fun t w => ∃ bytes : List Byte, bytes.length ≤ u.dumpmax.toNat ∧ (bytes = [] ∨ 64 ≤ bytes.length) ∧
      let a := s.modTrace c (fun x => { x with dumpva := v })
      let done (n : Nat) : Prop := t.d.heldWork = s.d.heldWork ∧
        w = { u with dumpva := v }.emit { type := 21, cycle := s.d.cycle, tid := none, label := 0, arg0 := BitVec.ofNat 64 n, arg1 := 0 }
      (∀ m, a.jobPut (a.jobRoots p (u.tjob.setWidth 16)) v.toNat bytes = .ok m → t.d.gmem = m.d.gmem ∧ done bytes.length) ∧
      (∀ f, a.jobPut (a.jobRoots p (u.tjob.setWidth 16)) v.toNat bytes = .error f → t.d.gmem = s.d.gmem ∧
        ((∀ ia frame, f ≠ .flip ia frame) → done 0) ∧
        ∀ ia frame, f = .flip ia frame → w = { u with dumpva := v } ∧ ∃ x, t.d.heldWork = s.d.heldWork ++ [x] ∧
          x.ia = ia / 4096 * 4096 ∧ x.work = .dump c (u.tjob.setWidth 16) v.toNat bytes)) ∧
    (∀ (unit : UnitId) (off : BitVec 12),
      let o := exec (.unitRegisterWrite unit off v) s
      (s.holderOf unit = .free → o = .next s) ∧ (s.unitRefuses unit off.toNat v 0 ≠ none → o = .next s) ∧
      (s.holderOf unit ≠ .free → s.unitRefuses unit off.toNat v 0 = none → ∃ t, o = .next t ∧ t.t = s.t ∧ t.d.gmem = s.d.gmem ∧
        (∀ k, unit = .trace k →
          let x := (s.core k).trace
          let y := (t.core k).trace
          (off = 0x08 → y = { x with tbase := v }) ∧ (off = 0x10 → y = { x with tsize := v }) ∧ (off = 0x18 → y = { x with tjob := v }) ∧
          (off = 0x20 → y = { x with twr := v }) ∧ (off = 0x68 → y = { x with dumpmax := v }) ∧
          (∀ n : Nat, n < 8 → off.toNat = 0x100 + 16 * n → y = { x with bpaddr := x.bpaddr.setIfInBounds n v })) ∧
        ((∀ k, unit ≠ .trace k) →
          (off = 0x200 → t.bankOf unit = { s.bankOf unit with bctl := v }) ∧
          (off ≠ 0x200 → t.bankOf unit = { s.bankOf unit with counts := (s.bankOf unit).counts.setIfInBounds (off.toNat / 8) v }))))

/-- R401 to R403, R406, R421, R422: the oldest staged record goes to the ring as 32 bytes, with a TIME record before it where one is due, and
TWR rises by what was written; a ring that cannot be written stops with its cause in TSTAT, and one on a page of the host waits for the
page. A due sample is recorded. A replaying unit
reads its log up to the next chunk; a chunk whose units have issued commits; a divergence sets DIVERGE. -/
def Claim.DebugEvents : Prop :=
  (∀ (r : TraceRec) (delta : Nat) (redact : Bool),
    let b := r.bytes delta redact
    let n := ofBytes b
    b.length = 32 ∧ n % 2 ^ 16 = delta % 2 ^ 16 ∧ n / 2 ^ 16 % 2 ^ 8 = r.type.toNat ∧
    n / 2 ^ 24 % 2 ^ 8 = (if redact then 1 else 0) + (if r.tid.isNone then 2 else 0) ∧ n / 2 ^ 32 % 2 ^ 32 = 0 ∧
    n / 2 ^ 64 % 2 ^ 16 = r.label.toNat ∧ n / 2 ^ 80 % 2 ^ 48 = r.tid.elim 0 (·.toNat) ∧
    n / 2 ^ 128 % 2 ^ 64 = (if redact then 0 else r.arg0.toNat) ∧ n / 2 ^ 192 % 2 ^ 64 = (if redact then 0 else r.arg1.toNat)) ∧
  ∀ (s : State) (c : CoreId),
    let u := (s.core c).trace
    let p := s.d.partOf (CoreId.die c)
    let recs := u.toWrite
    let n := 32 * recs.length
    let drain := exec (.traceDrain c) s
    (u.staged = [] → drain = .next s) ∧ (u.tstat.toNat % 2 = 1 → drain = .next s) ∧
    (2 ^ u.tsize.toNat < (u.twr - u.trd).toNat + n → drain = .next s) ∧
    (∀ (r : TraceRec) (rest : List TraceRec), u.staged = r :: rest → u.tstat.toNat % 2 = 0 → (u.twr - u.trd).toNat + n ≤ 2 ^ u.tsize.toNat →
      n ≤ s.d.leftOf (CoreId.die c) (if r.type = 19 ∨ r.type = 20 then 3 else 2) →
      let put := s.ringPut u (s.jobRoots p (u.tjob.setWidth 16)) u.twr.toNat recs
      (recs.head?.map Prod.fst = some r ∨ ∃ x : TraceRec, x.type = 1 ∧ recs = [(x, 0), (r, 0)]) ∧
      (∀ ia frame, put = .error (.flip ia frame) → drain = .next
        (s.startFlip (s.jobRoots p (u.tjob.setWidth 16)).part (s.jobRoots p (u.tjob.setWidth 16)).vmid ia frame)) ∧
      (∀ f, put = .error f → (∀ ia frame, f ≠ .flip ia frame) → ∃ t, drain = .next t ∧ (t.core c).trace.tstat.toNat % 2 = 1 ∧ (t.core c).trace.tstat.toNat / 2 ^ 8 % 2 ^ 8 = f.code % 2 ^ 8 ∧
        (t.core c).trace.staged = u.staged ∧ (t.core c).trace.twr = u.twr ∧ t.d.gmem = s.d.gmem ∧ t.t = s.t) ∧
      (∀ w, put = .ok w → ∃ t, drain = .next t ∧ t.d.gmem = w.d.gmem ∧ t.t = s.t ∧
        (t.core c).trace.twr = u.twr + BitVec.ofNat 64 n ∧ (t.core c).trace.lastTime = r.cycle ∧ (t.core c).trace.needTime = false ∧
        (u.unreported = 0 → (t.core c).trace.staged = rest) ∧
        (u.unreported ≠ 0 → ∃ x, (t.core c).trace.staged = rest ++ [x] ∧ x.type = 18 ∧ x.arg0 = BitVec.ofNat 64 u.unreported))) ∧
    (s.c.trace.sampleDue s.d.cycle = false → exec (.sample s.c.id) s = .next s) ∧
    (s.c.trace.sampleDue s.d.cycle = true → s.t.status ≠ .vacant → exec (.sample s.c.id) s = .next { s with c := { s.c with
      trace := { s.c.trace.emit { type := 15, cycle := s.d.cycle, tid := some s.t.tidReg, label := s.t.clabel, arg0 := s.t.unitPc, arg1 := 0 }
        with sampled := s.d.cycle } } }) ∧
    (let x := s.c.trace
     let o := exec (.replayChunk s.c.id) s
     let log := s.readLog (s.jobRoots s.part (x.tjob.setWidth 16)) ((x.twr - x.trd).toNat / 32 + 1) x
     let follows : Prop := x.rctl.toNat / 2 ^ 16 % 4 = 2 ∧ x.tstat.toNat / 2 % 2 = 0
     (¬follows → o = .next s) ∧
     (follows → x.chunk = none →
       (∀ y, log = .chunk y → o = .next { s with c := { s.c with trace := y } }) ∧
       (∀ y, log = .ended y → s.whole.runsJob (x.rctl.setWidth 16) = false → o = .next { s with c := { s.c with trace := y } }) ∧
       (∀ ia frame, log = .waits ia frame → o = .next
         (s.startFlip (s.jobRoots s.part (x.tjob.setWidth 16)).part (s.jobRoots s.part (x.tjob.setWidth 16)).vmid ia frame)) ∧
       (∀ y, log = .diverged y → ∃ t, o = .next t ∧ t.c.trace.tstat.toNat / 2 % 2 = 1 ∧ t.c.trace.chunk = none)) ∧
     (follows → ∀ k, x.chunk = some k → k.kind = 0 → k.place = (s.d.partState s.part).commits + 1 → k.left = 0 →
       s.t.status = .ready → some s.t.tidReg = k.task → s.whole.tasks.find? (fun q => some q.2.tidReg == k.task) = some (s.c.port.toNat, s.t) →
       s.t.atUnit = true → ∃ t, o = .next t ∧ t.c.trace = { x with chunk := none } ∧ (t.d.partState s.part).commits = k.place ∧ t.t = s.t))

/-- The debug units: their registers and their events: `Claim.DebugRegisters`, `Claim.DebugEvents`. -/
def Obligations.DebugUnits : Prop :=
  Claim.DebugRegisters ∧ Claim.DebugEvents

/-! ### The partition control block -/

/-- A command that runs in a mailbox ends with a STATUS and a VALUE: its result word holds DONE and them, and the state has `also`. -/
def endsWith (s : State) (p : BitVec 2) (hyp : Bool) (o : Out) (st v : Nat) (also : State → Prop) : Prop :=
  ∃ t, o = .next t ∧ (t.d.partState p).box hyp = { (s.d.partState p).box hyp with result := BitVec.ofNat 64 (1 + 16 * st + 65536 * v) } ∧ also t

/-- R342, R368 to R370, R372, R375 to R377: the supervisor's commands. A command that its mailbox does not run changes nothing; each checks its
reserved operands first (STATUS 1) and then what it names. SETLABEL sets the labels of whole pages of the partition's own scratchpads or
shared memory; PREEMPT asks for a task to be saved; GETNONCE writes a fresh nonce; INSTALL takes a signed policy under that nonce; a page
of the host that it must read holds it back. REMOVE and QUERY name an installed one. -/
def Claim.SupervisorCommands : Prop :=
  ∀ (s : State) (part : BitVec 2) (ops : BitVec 512),
    let q := s.d.partState part
    let f (lo n : Nat) := opField ops lo n
    let same (t : State) : Prop := t.t = s.t ∧ t.c = s.c ∧ t.d.net = s.d.net ∧ (t.d.partState part).policies = q.policies
    let idle (n : Nat) (i : Instr) : Prop := q.runs false n ops = false → exec i s = .next s
    let ends (i : Instr) (st v : Nat) (also : State → Prop) : Prop := endsWith s part false (exec i s) st v also
    idle 1 (.setlabel part ops) ∧ idle 2 (.preempt part ops) ∧ idle 3 (.getnonce part ops) ∧ idle 4 (.install part ops) ∧
    idle 5 (.remove part ops) ∧ idle 6 (.query part ops) ∧
    (q.runs false 1 ops = true →
      let c := Endpoint.core (BitVec.ofNat 24 (f 0 8))
      let addr := f 8 8
      let n := f 16 8
      let label : Label := BitVec.ofNat 16 (f 24 2)
      let valid : Prop := ∀ i : Nat, i < 16 → label.getLsbD i = true → q.slotValid i = true
      ((f 26 38 ≠ 0 ∨ addr % 4096 ≠ 0) → ends (.setlabel part ops) 1 0 same) ∧
      (f 26 38 = 0 → addr % 4096 = 0 → addr < 0x100000 → f 0 8 < 2 ^ 24 → f 0 8 % 4 = 0 →
        let inside : Prop := Endpoint.dev (BitVec.ofNat 24 (f 0 8)) = s.d.fabric.device ∧ s.d.partOf (CoreId.die c) = part ∧
          addr + 4096 * n ≤ 0x100000
        ((¬inside ∨ ¬valid ∨ s.spadKept c addr (4096 * n) = true) → ends (.setlabel part ops) 2 0 same) ∧
        (inside → valid → s.spadKept c addr (4096 * n) = false → ends (.setlabel part ops) 0 0 (fun t => t.t = s.t ∧
          (t.core c).spad.mem = (s.core c).spad.mem ∧ (t.core c).spad.tags = (s.core c).spad.tags ∧ t.d.shared = s.d.shared ∧
          ∀ page, (t.core c).spad.pageLabel page =
            if addr / 4096 ≤ page ∧ page < addr / 4096 + n then label else (s.core c).spad.pageLabel page))) ∧
      (f 26 38 = 0 → addr % 4096 = 0 → 0x40000000 ≤ addr → f 0 8 = 0 → addr + 4096 * n ≤ 0x80000000 →
        (∀ p, addr / 4096 ≤ p → p < addr / 4096 + n → s.d.partOf (CoreId.die (sliceCore (4096 * p - 0x40000000))) = part) → valid →
        s.d.emberGuarded addr (4096 * n) = false → ends (.setlabel part ops) 0 0 (fun t => t.t = s.t ∧ t.c = s.c ∧
          t.d.shared.mem = s.d.shared.mem ∧ ∀ page, t.d.shared.pageLabel page =
            if addr / 4096 ≤ page ∧ page < addr / 4096 + n then label else s.d.shared.pageLabel page))) ∧
    (q.runs false 2 ops = true →
      let tid : Tid := BitVec.ofNat 48 (f 0 6)
      (f 6 58 ≠ 0 → ends (.preempt part ops) 1 0 same) ∧
      (f 6 58 = 0 → s.taskPart tid ≠ some part → ends (.preempt part ops) 4 0 same) ∧
      (f 6 58 = 0 → s.taskPart tid = some part → s.find tid = none → ends (.preempt part ops) 0 0 same) ∧
      (f 6 58 = 0 → s.taskPart tid = some part → s.find tid ≠ none → ∃ t, exec (.preempt part ops) s = .next t ∧ same t ∧
        (t.d.partState part).preempting = q.preempting ++ [tid] ∧ (t.d.partState part).box false = q.box false)) ∧
    (q.runs false 3 ops = true →
      (ops ≠ 0 → ends (.getnonce part ops) 1 0 same) ∧
      (ops = 0 → ends (.getnonce part ops) 0 0 (fun t => same t ∧ (t.d.partState part).nonce = some (Config.nonce s.d.free) ∧
        t.d.free = s.d.free + 1 ∧ (s.d.gmem.mem.wf = true → t.d.gmem.mem.wf = true ∧
          t.d.gmem.mem.read (controlPa part + 80) 32 = (Config.nonce s.d.free).toNat)))) ∧
    (q.runs false 4 ops = true → s.d.installHeld part = true → exec (.install part ops) s = .next s) ∧
    (q.runs false 4 ops = true → s.d.installHeld part = false →
      let i := Instr.install part ops
      let waits (ia frame : Nat) : Prop :=
        exec i s = .next (s.holdWork (s.jobRoots part 0) ia frame (.install part ops))
      ((f 8 56 ≠ 0 ∨ f 0 8 % 64 ≠ 0) → ends i 1 0 same) ∧
      (∀ e, f 8 56 = 0 → f 0 8 % 64 = 0 → s.hypBytes part (f 0 8) 128 = .error e →
        ((∀ ia frame, e ≠ .flip ia frame) → ends i 1 0 same) ∧ ∀ ia frame, e = .flip ia frame → waits ia frame) ∧
      (∀ b, f 8 56 = 0 → f 0 8 % 64 = 0 → s.hypBytes part (f 0 8) 128 = .ok b →
        (policyShape b = false → ends i 1 0 same) ∧
        (policyShape b = true → ∀ sigs,
          let pol := policyOf b 0
          s.hypBytes part (f 0 8 + 128) (3328 * (slotsOf (BitVec.ofNat 16 (bytesAt b 2 2))).length) = .ok sigs →
          let asked : Prop := q.nonce = some (BitVec.ofNat 256 (bytesAt b 96 32))
          let used (t : State) : Prop := same t ∧ (t.d.partState part).nonce = none
          let timely : Prop := s.d.cycle < pol.expiry.toNat
          let named : Prop := ∀ k : Nat, k < 16 → pol.labelset.getLsbD k = true → q.slotValid k = true
          let fresh : Prop := ∀ x ∈ q.policies, x.id ≠ pol.id
          let signs := s.allSigned part pol.body (slotsOf pol.labelset) sigs
          (¬asked → ends i 6 0 same) ∧ (asked → ¬timely → ends i 7 0 used) ∧ (asked → timely → ¬named → ends i 4 0 used) ∧
          (asked → timely → named → ¬fresh → ends i 9 0 used) ∧ (asked → timely → named → fresh → signs = .ok false → ends i 5 0 used) ∧
          (asked → timely → named → fresh → signs = .ok true → (∀ k < 64, ∃ x ∈ q.policies, x.place = k) → ends i 8 0 used) ∧
          (∀ ia frame, asked → timely → named → fresh → signs = .error (.flip ia frame) → waits ia frame) ∧
          (∀ k < 64, asked → timely → named → fresh → signs = .ok true → (∀ x ∈ q.policies, x.place ≠ k) →
            (∀ j < k, ∃ x ∈ q.policies, x.place = j) → ends i 0 0 (fun t => t.t = s.t ∧ t.c = s.c ∧ (t.d.partState part).nonce = none ∧
              (t.d.partState part).policies = q.policies ++ [{ pol with place := k }]))))) ∧
    (q.runs false 5 ops = true →
      let id : Word := BitVec.ofNat 64 (f 0 8)
      (f 8 56 ≠ 0 → ends (.remove part ops) 1 0 same) ∧
      (f 8 56 = 0 → (∀ x ∈ q.policies, x.id ≠ id) → ends (.remove part ops) 4 0 same) ∧
      (f 8 56 = 0 → (∃ x ∈ q.policies, x.id = id) → ends (.remove part ops) 0 0 (fun t => t.t = s.t ∧ t.c = s.c ∧
        (t.d.partState part).policies = q.policies.filter (fun x => x.id != id)))) ∧
    (q.runs false 6 ops = true →
      (f 8 56 ≠ 0 → ends (.query part ops) 1 0 same) ∧
      (f 8 56 = 0 → (∀ x ∈ q.policies, x.id ≠ BitVec.ofNat 64 (f 0 8)) → ends (.query part ops) 4 0 same) ∧
      (∀ pre x post, f 8 56 = 0 → q.policies = pre ++ x :: post → (∀ y ∈ pre, y.id ≠ BitVec.ofNat 64 (f 0 8)) →
        x.id = BitVec.ofNat 64 (f 0 8) → ends (.query part ops) 0 (min x.budget (2 ^ 48 - 1)) same))

/-- R378: a free unit is given to the party that claims it; a guest cannot take one that another party holds, and the hypervisor takes one from
a guest, which is told by a cause entry of kind 5; the holder gives a unit back, and a guest from which one was taken drops its frozen
copy. A guest names units of its own partition. -/
def Claim.UnitClaims : Prop :=
  ∀ (s : State) (part : BitVec 2) (hyp : Bool) (ops : BitVec 512),
    let q := s.d.partState part
    let v := opField ops 0 2
    let kept (t : State) : Prop := t.t = s.t ∧ t.d.gmem.mem.wf = s.d.gmem.mem.wf ∧ ∀ u, t.holderOf u = s.holderOf u
    let claim (st : Nat) (also : State → Prop) : Prop := endsWith s part hyp (exec (.claim part hyp ops) s) st 0 also
    let unclaim (st : Nat) (also : State → Prop) : Prop := endsWith s part hyp (exec (.unclaim part hyp ops) s) st 0 also
    let holds (u : UnitId) (h : Holder) (t : State) : Prop := t.t = s.t ∧ t.holderOf u = h ∧ ∀ w, w ≠ u → t.holderOf w = s.holderOf w
    let party : Holder := if hyp then .hyp else .guest part
    (q.runs hyp 7 ops = false → exec (.claim part hyp ops) s = .next s) ∧
    (q.runs hyp 8 ops = false → exec (.unclaim part hyp ops) s = .next s) ∧
    (s.d.gmem.mem.wf = true → q.runs hyp 7 ops = true →
      (opField ops 2 62 ≠ 0 → claim 1 kept) ∧
      (∀ e, opField ops 2 62 = 0 → unitNamed v = .error e → claim e kept) ∧
      (∀ u, opField ops 2 62 = 0 → unitNamed v = .ok u →
        (hyp = false → s.d.partOf (unitDie u) ≠ part → claim 2 kept) ∧
        ((hyp = true ∨ s.d.partOf (unitDie u) = part) →
          (s.holderOf u = .free → claim 0 (holds u party)) ∧ (s.holderOf u = party → claim 0 kept) ∧
          (hyp = false → s.holderOf u ≠ .free → s.holderOf u ≠ party → claim 3 kept) ∧
          (∀ g, hyp = true → s.holderOf u = .guest g → claim 0 (fun t => holds u .hyp t ∧ t.revokedTo u g = true ∧
            (s.d.pidx < s.d.cidx + 4096 → t.d.pidx = s.d.pidx + 1 ∧ ∃ e, t.d.causes.getLast? = some e ∧ e.kind = 5 ∧
              e.part = g.setWidth 8 ∧ e.func.toNat = s.d.hostFuncNo g)))))) ∧
    (s.d.gmem.mem.wf = true → q.runs hyp 8 ops = true →
      (opField ops 2 62 ≠ 0 → unclaim 1 kept) ∧
      (∀ u, opField ops 2 62 = 0 → unitNamed v = .ok u → (hyp = true ∨ s.d.partOf (unitDie u) = part) →
        (s.holderOf u = party → unclaim 0 (holds u .free)) ∧
        (hyp = false → s.holderOf u ≠ party → s.revokedTo u part = true → unclaim 0 (fun t => kept t ∧ t.revokedTo u part = false)) ∧
        (s.holderOf u ≠ party → (hyp = true ∨ s.revokedTo u part = false) → unclaim 2 kept)))

/-- R367, R369 to R371, R373, R374: the hypervisor's commands. RESHAPE gives each die its partition and its bridges when no launch lives in a
partition that changes; VFUP makes a function valid; VFDOWN tears one down, quarantines it, drops its queued words and reports it;
SLOTSET writes a party slot that nothing names. A write of CIDX rings the vector again while entries are left. -/
def Obligations.HypervisorCommands : Prop :=
  ∀ (s : State) (part : BitVec 2) (ops : BitVec 512),
    let q := s.d.partState part
    let f (lo n : Nat) := opField ops lo n
    let same (t : State) : Prop := t.t = s.t ∧ t.c = s.c ∧ t.d.net = s.d.net ∧ t.d.brfw = s.d.brfw ∧ t.d.funcs = s.d.funcs ∧
      (t.d.partState part).slots = q.slots
    let idle (n : Nat) (i : Instr) : Prop := q.runs true n ops = false → exec i s = .next s
    let ends (i : Instr) (st : Nat) (also : State → Prop) : Prop := endsWith s part true (exec i s) st 0 also
    idle 9 (.reshape part ops) ∧ idle 10 (.vfup part ops) ∧ idle 11 (.vfdown part ops) ∧ idle 12 (.slotset part ops) ∧
    (q.runs true 9 ops = true →
      ((f 2 62 ≠ 0 ∨ arcs ops = false) → ends (.reshape part ops) 1 same) ∧
      (f 2 62 = 0 → arcs ops = true → (∃ l ∈ s.d.launches, s.d.reshaped ops (launchPart l.key) = true) → ends (.reshape part ops) 9 same) ∧
      (f 2 62 = 0 → arcs ops = true → (∀ l ∈ s.d.launches, s.d.reshaped ops (launchPart l.key) = false) →
        ends (.reshape part ops) 0 (fun t => t.t = s.t ∧ t.c = s.c ∧ t.d.funcs = s.d.funcs ∧ ∀ d : BitVec 2,
          (t.d.partOf d).toNat = newPart ops d.toNat ∧ ∃ w, t.d.brfw[d.toNat]? = some w ∧
            w.toNat % 2 = (if newPart ops (d.toNat + 3) = newPart ops d.toNat then 1 else 0) ∧
            w.toNat / 2 % 2 = (if newPart ops (d.toNat + 1) = newPart ops d.toNat then 1 else 0)))) ∧
    (q.runs true 10 ops = true →
      let i : BitVec 6 := BitVec.ofNat 6 (f 0 1)
      let p : BitVec 2 := BitVec.ofNat 2 (f 1 1)
      let shaped : Prop := f 5 59 = 0 ∧ 1 ≤ f 0 1 ∧ f 0 1 < 64 ∧ f 1 1 < 4 ∧ f 2 1 < 16 ∧ f 3 1 < 16 ∧ f 4 1 < 2 ∧ partDies s.d p ≠ []
      let free : Prop := (s.d.func i).valid = false ∧ (s.d.func i).quarantine ≤ s.d.cycle ∧ (f 4 1 = 0 ∨ s.d.hostFunc p = none)
      (¬shaped → ends (.vfup part ops) 1 same) ∧ (shaped → ¬free → ends (.vfup part ops) 9 same) ∧
      (shaped → free → ends (.vfup part ops) 0 (fun t => t.t = s.t ∧ t.c = s.c ∧ (t.d.func i).valid = true ∧
        (t.d.func i).host = (f 4 1 == 1) ∧ (t.d.func i).part = p ∧ (t.d.func i).tenant.toNat = f 2 1 ∧ (t.d.func i).slot.toNat = f 3 1 ∧
        ∀ j, j ≠ i → t.d.func j = s.d.func j))) ∧
    (q.runs true 11 ops = true →
      let i : BitVec 6 := BitVec.ofNat 6 (f 0 1)
      ((f 1 63 ≠ 0 ∨ 64 ≤ f 0 1) → ends (.vfdown part ops) 1 same) ∧
      (f 1 63 = 0 → f 0 1 < 64 → (s.d.func i).valid = false → ends (.vfdown part ops) 4 same) ∧
      (f 1 63 = 0 → f 0 1 < 64 → (s.d.func i).valid = true → ∃ t, exec (.vfdown part ops) s = .next t ∧ (t.d.func i).valid = false ∧
        (t.d.func i).quarantine = s.d.cycle + 10500000 ∧ (∀ g ∈ t.d.graphs, g.func = i → g.live = false) ∧
        (∀ w ∈ (t.d.partState (s.d.func i).part).queue, w.2 ≠ some i) ∧
        ((t.d.partState part).box true).result = 1)) ∧
    (q.runs true 12 ops = true →
      let i := f 0 1
      ((f 1 7 ≠ 0 ∨ f 18 14 ≠ 0 ∨ 16 ≤ i) → ends (.slotset part ops) 1 same) ∧
      (f 1 7 = 0 → f 18 14 = 0 → i < 16 → s.slotUsed part i = true → ends (.slotset part ops) 9 same) ∧
      (f 1 7 = 0 → f 18 14 = 0 → i < 16 → s.slotUsed part i = false → ends (.slotset part ops) 0 (fun t => t.t = s.t ∧ t.c = s.c ∧
        (∀ j, j ≠ i → (t.d.partState part).slots[j]? = q.slots[j]?) ∧
        (f 8 8 = 0 → (t.d.partState part).slots[i]? = some { keyva := 0, tenants := 0, keyhash := 0 }) ∧
        (f 8 8 ≠ 0 → (t.d.partState part).slots[i]? = some {
          keyva := BitVec.ofNat 64 (f 8 8), tenants := BitVec.ofNat 16 (f 16 2), keyhash := BitVec.ofNat 256 (f 32 32) })))) ∧
    (∀ v : Word, exec (.cidx v) s = .next { s with d := { s.d with
      cidx := v.toNat, msix := s.d.msix + (if v.toNat = s.d.pidx then 0 else 1), msixArmed := decide (v.toNat = s.d.pidx) } })

/-- The supervisor's commands, and the claims of units: `Claim.SupervisorCommands`, `Claim.UnitClaims`. -/
def Obligations.PartitionCommands : Prop :=
  Claim.SupervisorCommands ∧ Claim.UnitClaims

/-! ### Graphs, launches and slots -/

/-- A function's mailbox command ends: its result word holds DONE, a STATUS and a handle, and a cause entry of kind 4 tells of it when the
table has room for `room` entries. -/
def funcEnds (s : State) (func : BitVec 6) (room : Nat) (o : Out) (st handle : Nat) (also : State → Prop) : Prop :=
  ∃ t, o = .next t ∧ (t.d.func func).result = BitVec.ofNat 64 (1 + 16 * st + 256 * handle) ∧ (t.d.func func).pending = none ∧
    (s.d.pidx + room ≤ s.d.cidx + 4096 → ∃ e ∈ t.d.causes, e.kind = 4 ∧ e.func = func.setWidth 8) ∧ also t

/-- R322 to R324, R326, R334, R373: REGISTER checks its request, the image and the graph in the rule's order, writes the image's global
sections and gives the graph the lowest free index, with its generation; a page of the host that the die controller must reach holds it
back. UNREGISTER frees the index and raises its generation, and ends with the graph's launches; WITHDRAW ends the tasks of a launch of the
graph that its handle names. A function that is invalid or busy takes no command; a command word with a reserved value or bit ends with
STATUS 10, as does, by the model's choice (log entry 130), one with a field that its command does not use. -/
def Obligations.GraphCommands : Prop :=
  ∀ (s : State) (func : BitVec 6),
    let f := s.d.func func
    let idle : Prop := f.valid = true ∧ f.result.toNat % 2 = 1
    let still (t : State) : Prop := t.d.graphs = s.d.graphs ∧ t.d.launches = s.d.launches ∧ t.t = s.t ∧ t.c = s.c ∧ t.d.gmem = s.d.gmem
    (∀ (request : BitVec 512) (word : Word),
      let o := exec (.register func (word ++ request)) s
      let s0 := s.modFunc func (fun x => { x with request })
      let ends (st : Nat) : Prop := funcEnds s func 1 o st 0 still
      let n := word.toNat
      (¬idle → o = .next s) ∧
      (idle → (2 ^ 56 ≤ n ∨ n % 16 = 0 ∨ 3 < n % 16 ∨ (n % 16 = 1 ∧ n ≠ 1)) → ends 10) ∧
      (idle → n % 16 = 2 → o = exec (.unregister func (BitVec.ofNat 60 (n / 16))) s0) ∧
      (idle → n % 16 = 3 → o = exec (.withdraw func (BitVec.ofNat 60 (n / 16))) s0)) ∧
    (∀ request : BitVec 512,
      let o := exec (.register func (1#64 ++ request)) s
      let u := (s.modFunc func (fun x => { x with request })).modFunc func (fun x => { x with result := 0 })
      let q := requestOf request
      let r := u.jobRoots f.part q.job
      let ends (st : Nat) : Prop := funcEnds s func 1 o st 0 still
      let waits (ia frame : Nat) : Prop := o = .next (u.holdWork r ia frame (.register func))
      (idle → q.ok func f = false → ends 10) ∧
      (∀ e, idle → q.ok func f = true → u.readRequest r q = .error e →
        ((∀ ia frame, e ≠ .flip ia frame) → ends 1) ∧ ∀ ia frame, e = .flip ia frame → waits ia frame) ∧
      (idle → q.ok func f = true → u.readRequest r q = .ok none → ends 1) ∧
      (∀ x kernels auth clean, idle → q.ok func f = true → u.readRequest r q = .ok (some (x, kernels, auth, clean)) →
        let g := q.graph x func f kernels auth
        let st := u.checkGraph g x r
        (clean = false → ends 10) ∧ (clean = true → st ≠ 0 → st < 8 → (st = 7 → u.ashFlip r g = none) → ends st) ∧
        (∀ ia frame, clean = true → st = 7 → u.ashFlip r g = some (ia, frame) → waits ia frame) ∧
        (clean = true → st = 0 → s.d.freeIndex f.part = none → ends 9) ∧
        (∀ i : Nat, clean = true → st = 0 → s.d.freeIndex f.part = some i →
          (∀ e, u.writeSections r x.img x.secs = .error e →
            ((∀ ia frame, e ≠ .flip ia frame) → ends 11) ∧ ∀ ia frame, e = .flip ia frame → waits ia frame) ∧
          (∀ w, u.writeSections r x.img x.secs = .ok w → i < 4096 →
            funcEnds s func 1 o 0 ((s.d.genOf f.part (BitVec.ofNat 12 i)).toNat * 4096 + i)
              (fun t => t.d.graphs = s.d.graphs ++ [{ g with index := BitVec.ofNat 12 i, gen := s.d.genOf f.part (BitVec.ofNat 12 i) }] ∧
                t.d.gmem = w.d.gmem ∧ t.t = s.t ∧ t.c = s.c))))) ∧
    (∀ word : BitVec 60,
      let o := exec (.unregister func word) s
      let handle := word.toNat % 2 ^ 20
      (¬idle → o = .next s) ∧ (idle → 2 ^ 20 ≤ word.toNat → funcEnds s func 1 o 10 0 still) ∧
      (idle → word.toNat < 2 ^ 20 → s.d.funcGraph func handle = none → funcEnds s func 1 o 1 0 still) ∧
      (∀ g, idle → word.toNat < 2 ^ 20 → s.d.funcGraph func handle = some g →
        let ended (t : State) : Prop := (∀ x ∈ t.d.graphs, x.part = g.part → x.index = g.index → x.gen = g.gen → x.live = false) ∧
          t.d.genOf g.part g.index = g.gen + 1 ∧ t.t = s.t ∧ t.c = s.c ∧ t.d.launches = s.d.launches
        (s.d.hasLaunch f.part g.index g.gen = false → funcEnds s func 64 o 0 0 ended) ∧
        (s.d.hasLaunch f.part g.index g.gen = true → ∃ t, o = .next t ∧ ended t ∧ (t.d.func func).result = 0 ∧
          (t.d.func func).pending = some (g.index, g.gen)))) ∧
    (∀ word : BitVec 60,
      let o := exec (.withdraw func word) s
      let key := f.part.toNat * 2 ^ 32 + word.toNat / 2 ^ 20 % 2 ^ 32
      let own : Prop := ∃ l g, s.d.launchOf key = some l ∧ s.d.launchGraph key = some g ∧ g.func = func ∧ g.handle = word.toNat % 2 ^ 20
      (¬idle → o = .next s) ∧ (idle → 2 ^ 52 ≤ word.toNat → funcEnds s func 1 o 10 0 still) ∧
      (idle → word.toNat < 2 ^ 52 → ¬own → funcEnds s func 1 o 1 0 still) ∧
      (idle → word.toNat < 2 ^ 52 → own → ∃ t l, o = .next t ∧ t.d.launchOf key = some l ∧ l.state = .withdrawing ∧ l.data = [] ∧
        (t.d.func func).result = 0 ∧ (t.d.func func).withdrawing = some key ∧ (t.t.status ≠ .vacant → t.t.launch ≠ key) ∧
        (∀ k ∈ t.d.cores, ∀ x, some x ∈ k.slots.toList → x.launch ≠ key) ∧ (∀ v ∈ t.d.saved, v.task.launch ≠ key) ∧
        ∀ sl ∈ t.d.slices, sl.launch = key → sl.embers = [] ∧ sl.ash = [] ∧ sl.leases = []))

/-- R318, R327 to R329, R333, R335: a doorbell word is queued for a graph of its function, or counted in LDROP; a launch packet is queued when the
access-control table admits it. The word at the head of a queue waits for an argument block on a page of the host; it is served in the rule's steps, and a launch has the graph's rings and
pipes and the next number of its partition. A gang starts once its whole need is held; a launch with no live work completes, and a
withdrawn one ends after its drain. -/
def Obligations.LaunchEvents : Prop :=
  ∀ s : State,
    (∀ (func : BitVec 6) (w : Word),
      let o := exec (.launch func w) s
      let f := s.d.func func
      let known : Prop := ∃ g, s.d.funcGraph func (wordHandle w) = some g
      let queue := (s.d.partState f.part).queue
      let drops : Prop := ∃ t, o = .next t ∧ (t.d.func func).ldrop = f.ldrop + 1 ∧ (t.d.partState f.part).queue = queue ∧ t.t = s.t
      (f.valid = false → o = .next s) ∧ (f.valid = true → (¬known ∨ 256 ≤ queue.length) → drops) ∧
      (f.valid = true → known → queue.length < 256 → ∃ t, o = .next t ∧ (t.d.partState f.part).queue = queue ++ [(w, some func)] ∧
        t.d.func func = f ∧ t.t = s.t ∧ t.c = s.c)) ∧
    (∀ (part : BitVec 2) (dev : BitVec 12) (job : BitVec 16) (w : Word),
      let o := exec (.launchPacket part dev job w) s
      let p := s.d.partState part
      let admitted : Prop := p.admitsLaunch dev job (wordHandle w) = true
      let answered (st : Nat) (t : State) : Prop := dev = s.d.fabric.device → ∀ core op, s.ownLaunch w = some (core, op) →
        let w := s.setStage core op (if st = 0 then .executed { data := 0, tag := false, label := 0, flags := 0 }
          else .failed 0x11 (BitVec.ofNat 32 st))
        t.t = w.t ∧ t.c = w.c ∧ t.d.cores = w.d.cores
      (¬admitted → ∃ t, o = .next t ∧ (t.d.partState part).queue = p.queue ∧ answered 0x06 t) ∧
      (admitted → 256 ≤ p.queue.length → ∃ t, o = .next t ∧ (t.d.partState part).queue = p.queue ∧ answered 0x0E t) ∧
      (admitted → p.queue.length < 256 → ∃ t, o = .next t ∧ (t.d.partState part).queue = p.queue ++ [(w, none)] ∧ answered 0 t)) ∧
    (∀ part : BitVec 2,
      let o := exec (.launchWordService part) s
      (((s.d.partState part).queue = [] ∨ s.d.stopped part = true) → o = .next s) ∧
      (∀ w func rest roots ia frame, (s.d.partState part).queue = (w, func) :: rest → s.d.stopped part = false →
        s.argFlip part w = some (roots, ia, frame) → o = .next (s.startFlip roots.part roots.vmid ia frame)) ∧
      (∀ w func rest, (s.d.partState part).queue = (w, func) :: rest → s.d.stopped part = false → s.argFlip part w = none →
        let u := s.modPart part (fun q => { q with queue := rest })
        let refused : Prop := ∃ t, o = .next t ∧ t.d.launches = s.d.launches ∧ (t.d.partState part).queue = rest ∧ t.t = s.t
        (s.d.graphOf part (wordHandle w) = none → refused) ∧
        (∀ g c z, s.d.graphOf part (wordHandle w) = some g → u.argFault g w = (c, z) →
          (c ≠ 0 → refused) ∧ (c = 0 → z.d.areasHeld g = true → refused) ∧
          (c = 0 → z.d.areasHeld g = false → z.d.reserveRings g z.d.ringRanges g.rings = none → refused) ∧
          (∀ rings d, c = 0 → z.d.areasHeld g = false → z.d.reserveRings g z.d.ringRanges g.rings = some rings →
            z.d.reserveAreas g.job g.cores = some d → ∃ t l, o = .next t ∧ t.d.launches = s.d.launches ++ [l] ∧
              (t.d.partState part).queue = rest ∧ l.word = w ∧ l.graph = g.index ∧ l.gen = g.gen ∧ l.rings = rings ∧ l.pipes = g.pipes ∧
              l.key = part.toNat * 2 ^ 32 + ((s.d.partState part).launchNo + 1).toNat ∧
              (l.state = .live ∨ l.state = .gangWaiting) ∧ (t.d.partState part).launchNo = (s.d.partState part).launchNo + 1)))) ∧
    (∀ part : BitVec 2,
      let o := exec (.gangPlacement part) s
      ((s.d.partState part).gangs = [] → o = .next s) ∧
      (∀ key i rest g l, (s.d.partState part).gangs = (key, i) :: rest → s.d.launchGraph key = some g → s.d.launchOf key = some l →
        let ready : Prop := s.d.stopped part = false ∧ ∀ c ∈ g.cores, (g.need i c).1 ≠ 0 → (s.focus c).holds (g.need i c) = true
        (¬ready → o = .next s) ∧
        (ready → ∃ t l', o = .next t ∧ (t.d.partState part).gangs = rest ∧ t.d.launchOf key = some l' ∧
          ((∃ x ∈ rest, x.1 = key) → l' = l) ∧ ((∀ x ∈ rest, x.1 ≠ key) → l' = { l with state := .live })))) ∧
    (∀ (part : BitVec 2) (number : BitVec 32) (l : Launch), s.d.launchOf (part.toNat * 2 ^ 32 + number.toNat) = some l →
      let o := exec (.launchCompletion part number) s
      let gone : Prop := ∃ t, o = .next t ∧ t.d.launches = s.d.launches.filter (fun x => x.key != l.key) ∧ t.t = s.t
      (l.state = .gangWaiting → o = .next s) ∧ (l.state = .live → s.lives l = true → o = .next s) ∧ (l.state = .live → s.lives l = false → gone) ∧
      (l.state = .withdrawing → s.draining l.key = true → o = .next s) ∧ (l.state = .withdrawing → s.draining l.key = false → gone))

/-- R13, R210, R336, R432: a free slot goes to the head of the upcall queue first, then to the class whose turn it is; an ember dispatch starts a
handler with the ember's key, value and magnitude in g1, g2 and g3, and takes the ember off its slice. A period starts every 52,500
cycles, and what was used of the budgets starts afresh. -/
def Obligations.SlotsAndPeriods : Prop :=
  ∀ s : State,
    let started (t : State) (n : Nat) (k : Task) : Prop := t.whole.slot n = { k with status := .ready, eff := k.prio, age := 0, unitPc := k.pc }
    let o := exec (.slotGrant s.c.id) s
    ((s.halted = true ∨ s.freeSlot = none) → o = .next s) ∧
    (∀ n k rest, s.halted = false → s.freeSlot = some n → s.c.upcallQ = k :: rest → ∃ t, o = .next t ∧ t.c.upcallQ = rest ∧ started t n k ∧
      t.c.cache = [] ∧ t.c.startQ = s.c.startQ ∧ t.d = s.d) ∧
    (∀ n k rest, s.halted = false → s.c.upcallQ = [] → s.rotationSlot = some n → s.turnClass = some 0 → s.c.startQ = k :: rest →
      k.fromRing = none → ∃ t, o = .next t ∧ t.c.startQ = rest ∧ started t n k ∧ t.c.lastClass = 0 ∧ t.d = s.d) ∧
    (∀ n r c, s.halted = false → s.c.upcallQ = [] → s.rotationSlot = some n → s.turnClass = some 2 →
      Core.popBot { s.c with lastClass := 2 } (fun _ => true) = (some r, c) → ∃ t, o = .next t ∧ t.c.lastClass = 2 ∧ t.c.startQ = s.c.startQ ∧
        started t n (s.d.childOf r 0)) ∧
    (∀ (job : BitVec 16) (store : BitVec 8),
      let e := exec (.emberDispatch s.c.id job store) s
      ((s.halted = true ∨ s.rotationSlot = none ∨ s.turnClass ≠ some 1) → e = .next s) ∧
      (∀ n sl em, s.halted = false → s.rotationSlot = some n → s.turnClass = some 1 → s.c.trace.rctl = 0 → s.c.trace.creates = [] →
        s.dispatchable.find? (fun x => x.job == job && x.decl.num == store) = some sl → sl.next = some em →
        s.d.sliceAt s.c.id job store = some sl →
        ∃ t k z, e = .next t ∧ t.whole.slot n = k ∧ t.c.lastClass = 1 ∧ k.status = .ready ∧ k.pc = sl.decl.hentry ∧ k.kind = 2 ∧
          k.job = job ∧ k.launch = sl.launch ∧ k.clabel = em.label ∧ k.handlerOf = some sl.decl.num ∧
          k.g[1] = { bits := em.key.setWidth 128, tag := false, label := em.label } ∧
          k.g[2] = { bits := em.value.setWidth 128, tag := false, label := em.label } ∧
          k.g[3] = { bits := em.mag.setWidth 128, tag := false, label := em.label } ∧
          t.d.sliceAt s.c.id job store = some z ∧ z.embers = sl.embers.filter (fun x => x.key != em.key) ∧ z.handlers = sl.handlers + 1 ∧
          z.leases = (if sl.decl.lease then sl.leases ++ [(em.key, k.tid)] else sl.leases) ∧ t.d.gmem = s.d.gmem)) ∧
    (let o := exec .qosPeriodStart s
     (s.d.cycle < 52500 * s.d.periods → o = .next s) ∧
     (52500 * s.d.periods ≤ s.d.cycle → ∃ t, o = .next t ∧ t.d.periods = s.d.periods + 1 ∧ t.d.used = [] ∧ t.t = s.t ∧
       t.d.gmem = s.d.gmem ∧ t.c = s.c.newPeriod (t.d.partState s.part) ∧ (∀ x ∈ t.d.slices, x.reposts = 0) ∧
       (∀ p : BitVec 2, (∃ d : BitVec 2, s.d.partOf d = p) → ∀ k < 40,
         (t.d.partState p).qos[k]? = some (BitVec.ofNat 64 (s.d.gmem.mem.read (s.d.qosPa p + 8 * k) 8)))))

/-! ### Pre-emption, restore and pages shared with the host -/

/-- R343, R345, R369: a task that a command asks to pre-empt is saved once nothing of it is outstanding, its slot becomes free and the
command ends, once the context pool has a place for it; a task that has ended is not found. A saved task returns to a free slot that
nothing waits for, with its context read back from its area, its tiles in place and its matrix work in the queue; a wait that is issued afresh ends. -/
def Obligations.PreemptionAndRestore : Prop :=
  ∀ s : State,
    (let o := exec (.preemption s.c.id s.t.tid) s
     let asked : Bool := (s.d.partState s.part).preempting.contains s.t.tid
     let live : Prop := s.t.status ≠ .vacant ∧ s.t.onHearth = false ∧ ∀ m, s.t.status ≠ .departing m
     (live → asked = false → o = .next s) ∧
     let kept := s.c.saved s.t.stopUnit 0xFF none none false
     (live → asked = true → s.Still → s.t.anchor = none → s.c.trace.chunkTask = none →
       (s.d.poolFit (CoreId.die s.c.id).toNat 64 (kept.bytes s.d.fabric.device).length).isSome = true → endsWith s s.part false o 0 0 (fun t =>
        t.t.status = .vacant ∧ t.c.slots = s.c.slots ∧ t.d.launches = s.d.launches ∧
        (t.d.partState s.part).preempting = (s.d.partState s.part).preempting.filter (fun x => x != s.t.tid) ∧
        ∃ v, t.d.saved = s.d.saved ++ [v] ∧ v.core = s.c.id ∧ v.task = s.t.stopUnit.stopOps.saveParity ∧ v.unit = none ∧ v.slot = none ∧
          v.awaiting = false ∧ s.d.poolFit (CoreId.die s.c.id).toNat 64 v.size = some v.area))) ∧
    (∀ (tid : Tid),
      let p := s.part
      s.focusTask s.c.id tid = none → (s.d.partState p).preempting.contains tid = true → s.ended tid = true →
        endsWith s p false (exec (.preemption s.c.id tid) s) 4 0 (fun t =>
          t.t = s.t ∧ t.c = s.c ∧ (t.d.partState p).preempting.contains tid = false)) ∧
    (∀ (tid : Tid),
      let o := exec (.taskRestore s.c.id tid) s
      (s.d.savedOf tid = none → o = .next s) ∧
      (∀ v, s.d.savedOf tid = some v → (v.mayReturn = false ∨ s.restorable v s.c.id = false ∨ s.halted = true ∨ s.rotationSlot = none) → o = .next s) ∧
      (∀ v n u, s.d.savedOf tid = some v → v.mayReturn = true → s.restorable v s.c.id = true → s.halted = false → s.rotationSlot = some n →
        (v.task.anchor = none ∨ s.anchorFree (v.task.anchor.elim 0 (·.tiles)) = true) → s.c.spadJob = v.task.job →
        v.core = s.c.id → readContext s.d.gmem.mem v = some u → u.task.replay = [] →
        ∃ t, o = .next t ∧ t.t = { u.task with
            ops := [], unsent := [], unitPc := u.task.pc, eff := u.task.prio, age := 0,
            status := if v.awaiting then .ready else resumed u.task.status } ∧
          t.c.port = BitVec.ofNat 5 n ∧ t.d.saved = s.d.saved.filter (fun w => w.area != v.area) ∧ t.d.gmem = s.d.gmem ∧
          t.c.mx = s.c.mx ++ u.mxops.map (fun (m : MxOp) => { m with age := s.d.cycle }) ∧ t.c.cp = s.c.cp ++ u.cpops ∧
          t.c.srt = s.c.srt ++ u.srtops ∧ t.c.tiles = u.tiles.foldl (fun ts (p : BitVec 3 × Tile) => vmod ts p.1.toNat (fun _ => p.2)) s.c.tiles))

/-- R317 to R319, R321: a die's controller asks the driver for the page of a request that stands at its head, with a cause entry of kind 3.
A granted flip copies the host's page into the frame and makes the second-stage entry valid, or clears its host bit when there is no page;
the tasks that wait for the page go on. A request of the host is queued; when it begins it is refused by the page's label or takes the
leaf, whose translations are dropped; once no access to the frame is on its way the page is copied out and the host is told. -/
def Claim.PageFlips : Prop :=
  ∀ s : State,
    (∀ (vmid : BitVec 16) (ia : BitVec 64) (host : Option (BitVec 64)),
      let o := exec (.flipGrant vmid ia host) s
      let va := ia.toNat / 4096 * 4096
      let asked := s.d.flips.find? (fun f => f.vmid == vmid && f.ia == va && f.hostPa.isNone && f.begun)
      let flipDone (f : Flip) (t : State) : Prop := t.d.flips = s.d.flips.filter (fun g => g != f) ∧
        (s.t.status = .parked (.flip vmid va) → t.t = { s.t with status := .ready }) ∧
        (s.t.status ≠ .parked (.flip vmid va) → t.t = s.t)
      ((asked = none ∨ s.d.boot.cxlUp = false) → o = .next s) ∧
      (∀ f, asked = some f → s.d.boot.cxlUp = true → (∀ ea w, s.pageOf vmid va = some (ea, w) → hostOwned w = false) →
        ∃ t, o = .next t ∧ flipDone f t ∧ t.d.gmem = s.d.gmem) ∧
      (∀ f ea w, asked = some f → s.d.boot.cxlUp = true → s.pageOf vmid va = some (ea, w) → hostOwned w = true →
        (host = none → ∃ t, o = .next t ∧ flipDone f t ∧ t.d.gmem.mem = s.d.gmem.mem.write ea 8 (w - 256)) ∧
        (∀ pa, host = some pa → ∃ t, o = .next t ∧ flipDone f t ∧
          let frame := bitsOf w 12 36 * 4096
          (bitsOf w 9 1 = 0 → s.d.fencedChannels = [] → s.d.gmem.mem.wf = true → frame + 4096 ≤ hostBase → ea + 8 ≤ hostBase →
            (ea + 8 ≤ frame ∨ frame + 4096 ≤ ea) →
            (∀ i < 4096, t.d.gmem.mem.get (frame + i) = s.d.gmem.mem.get (hostBase + pa.toNat + i)) ∧
            t.d.gmem.mem.read ea 8 = (w + 1 - 256) % 2 ^ 64 ∧
            ∀ a, (a < frame ∨ frame + 4096 ≤ a) → (a < ea ∨ ea + 8 ≤ a) → t.d.gmem.mem.get a = s.d.gmem.mem.get a)))) ∧
    (∀ (vmid : BitVec 16) (ia host : BitVec 64),
      let o := exec (.flipToHost vmid ia host) s
      let va := ia.toNat / 4096 * 4096
      let before := (s.d.flips.filter (fun g => g.vmid == vmid && g.ia == va)).getLast?
      (s.d.boot.cxlUp = false → o = .next s) ∧
      (s.d.boot.cxlUp = true → (s.vmRoot vmid = none ∨ s.pageOf vmid va = none) →
        o = .next { s with d := { s.d with hostSees := s.d.hostSees ++ [.refused vmid va] } }) ∧
      (∀ p root ea w, s.d.boot.cxlUp = true → s.vmRoot vmid = some (p, root) → s.pageOf vmid va = some (ea, w) →
        let f : Flip := { vmid, ia := va, part := p, frame := bitsOf w 12 36 * 4096, hostPa := some host.toNat, begun := false }
        (∀ g pa, before = some g → g.hostPa = some pa → o = .next s) ∧
        ((before = none ∨ ∃ g, before = some g ∧ g.hostPa = none) →
          o = .next { s with d := { s.d with flips := s.d.flips ++ [f] } }))) ∧
    (∀ f ea w, f.hostPa = none → f.begun = false → s.pageOf f.vmid f.ia = some (ea, w) → hostOwned w = true →
      let t := s.turnFlip f
      t.t = s.t ∧ t.c = s.c ∧ t.d.gmem = s.d.gmem ∧ (f ∈ s.d.flips → { f with begun := true } ∈ t.d.flips) ∧
      (s.d.pidx < s.d.cidx + 4096 → ∃ e ∈ t.d.causes, e.kind = 3 ∧ e.part = f.part.setWidth 8)) ∧
    (∀ f pa p root lf, f.hostPa = some pa → f.begun = false → s.vmRoot f.vmid = some (p, root) → walk2 s.d p .load f.ia 5 root = .ok lf →
      let t := s.turnFlip f
      let w := s.d.gmem.mem.read lf.ent 8
      let bit : Label := (s.d.hostFunc p).elim 0 (fun q => BitVec.ofNat 16 (2 ^ q.2.slot.toNat))
      let stale (e : TlbEntry) : Bool := e.vmid == f.vmid && e.leaf2 == lf.ent
      t.t = s.t ∧
      ((lf.lvl ≠ 0 ∨ lf.tier ≠ 0 ∨ lf.label.sub bit = false) → t.c = s.c ∧ t.d.gmem = s.d.gmem ∧
        t.d.hostSees = s.d.hostSees ++ [.refused f.vmid f.ia] ∧ t.d.flips = s.d.flips.filter (fun g => g != f)) ∧
      (lf.lvl = 0 → lf.tier = 0 → lf.label.sub bit = true → t.c = { s.c with tlb := s.c.tlb.filter (fun e => !stale e) } ∧
        (∀ k ∈ t.d.cores, ∀ e ∈ k.tlb, stale e = false) ∧ t.d.hostSees = s.d.hostSees ∧
        t.d.gmem.mem = s.d.gmem.mem.write lf.ent 8 (w - 1 + 256 - bitsOf w 8 1 * 256))) ∧
    (∀ f pa, f.hostPa = some pa → f.begun = true → s.d.cores = [] → s.c.scb = [] →
      let t := s.turnFlip f
      (s.frameBusy f.frame = true → t = s) ∧
      (s.frameBusy f.frame = false → t.t = s.t ∧ t.c = s.c ∧ t.d.hostSees = s.d.hostSees ++ [.granted f.vmid f.ia] ∧
        t.d.flips = s.d.flips.filter (fun g => g != f) ∧
        ((∀ ea w, s.pageOf f.vmid f.ia = some (ea, w) → bitsOf w 9 1 = 0) → s.d.gmem.mem.wf = true → f.frame + 4096 ≤ hostBase →
          (∀ i < 4096, t.d.gmem.mem.get (hostBase + pa + i) = s.d.gmem.mem.get (f.frame + i)) ∧
          ∀ a, (a < hostBase + pa ∨ hostBase + pa + 4096 ≤ a) → t.d.gmem.mem.get a = s.d.gmem.mem.get a)))

/-- R321: while the link is up, a host read receives, for each line, the bytes of the page that the decoder and the second stage give, with
their poison, when the host's slot admits the page's label, and otherwise all-ones bytes with poison; no memory changes. A host write within
a line reaches its page when the page's label admits the host's slot. A refused access leaves a cause entry of kind 2. -/
def Claim.HostMemory : Prop :=
  ∀ s : State,
    (∀ (addr : BitVec 64) (n : Nat),
      let o := exec (.hostMemRead addr n) s
      (s.d.boot.cxlUp = false → o = .next s) ∧
      (s.d.boot.cxlUp = true → ∃ t, o = .next t ∧ t.t = s.t ∧ t.c = s.c ∧ t.d.gmem = s.d.gmem ∧
        t.d.hostSees.length = s.d.hostSees.length + (units 64 addr.toNat n).length) ∧
      (0 < n → addr.toNat % 64 + n ≤ 64 → s.d.boot.cxlUp = true →
        (∀ lf pa, s.hostPage .load addr.toNat = some (lf, pa) → ∃ t, o = .next t ∧ t.d.hostSees = s.d.hostSees ++
          [.line addr.toNat (toBytes n (s.d.gread lf.comp pa n)) (s.d.gpoisoned lf.comp pa n)]) ∧
        (s.hostPage .load addr.toNat = none → ∃ t, o = .next t ∧
          t.d.hostSees = s.d.hostSees ++ [.line addr.toNat (List.replicate n 0xFF#8) true] ∧
          (s.d.pidx < s.d.cidx + 4096 → ∃ e ∈ t.d.causes, e.kind = 2)))) ∧
    (∀ (addr : BitVec 64) (data : List (BitVec 8)),
      let o := exec (.hostMemWrite addr data) s
      (s.d.boot.cxlUp = false → o = .next s) ∧ (∃ t, o = .next t ∧ t.t = s.t ∧ t.c = s.c ∧ t.d.hostSees = s.d.hostSees) ∧
      (0 < data.length → addr.toNat % 64 + data.length ≤ 64 → s.d.boot.cxlUp = true →
        (s.hostPage .store addr.toNat = none → ∃ t, o = .next t ∧ t.d.gmem = s.d.gmem ∧
          (s.d.pidx < s.d.cidx + 4096 → ∃ e ∈ t.d.causes, e.kind = 2)) ∧
        (∀ lf pa, s.hostPage .store addr.toNat = some (lf, pa) → lf.comp = false → s.d.fencedChannels = [] → s.d.gmem.mem.wf = true →
          ∃ t, o = .next t ∧ (∀ i, ∀ h : i < data.length, t.d.gmem.mem.get (pa + i) = data[i]) ∧
            ∀ a, (a < pa ∨ pa + data.length ≤ a) → t.d.gmem.mem.get a = s.d.gmem.mem.get a)))

/-- Pages shared with the host, and host accesses to device memory: `Claim.PageFlips`, `Claim.HostMemory`. -/
def Obligations.HostPages : Prop :=
  Claim.PageFlips ∧ Claim.HostMemory

/-! ### Fences, errors and the power manager -/

/-- R356: a function is fenced once, until the next reset; the failure is recorded in the boot journal and, with kind 1, in the cause
table. A fenced core is dumped, its tasks end, their launches and those of its saved tasks are withdrawn and its slice is fenced with it; a link is taken down and loses
what it held; a die's partition stops and its bridges close. -/
def Obligations.Fences : Prop :=
  ∀ s : State,
    let noted (t : State) : Prop := (∃ r, t.d.boot.journal = s.d.boot.journal ++ [r]) ∧
      (s.d.pidx < s.d.cidx + 4096 → ∃ e ∈ t.d.causes, e.kind = 1)
    (∀ x : FenceTarget, s.isFenced x = true → exec (.fence x) s = .next s) ∧
    (s.isFenced (.core s.c.id) = false → s.c.hearth = none → s.t.onHearth = false → ∃ t, exec (.fence (.core s.c.id)) s = .next t ∧ noted t ∧
      t.c.id = s.c.id ∧ t.c.fenced = true ∧ t.halted = true ∧ t.d.fencedSlices.contains s.c.id = true ∧ t.whole.tasks = [] ∧
      (∃ x, t.d.dumps = s.d.dumps ++ [x]) ∧
      ∀ q ∈ s.whole.tasks, q.2.launch ≠ 0 → ∀ l, s.d.launchOf q.2.launch = some l → ∃ l', t.d.launchOf q.2.launch = some l' ∧ l'.state = .withdrawing) ∧
    (s.isFenced (.core s.c.id) = false → s.c.hearth = none → s.t.onHearth = false → ∀ v ∈ s.d.saved, v.core = s.c.id →
      ∀ l, s.d.launchOf v.task.launch = some l → ∃ t l', exec (.fence (.core s.c.id)) s = .next t ∧
        t.d.launchOf v.task.launch = some l' ∧ l'.state = .withdrawing) ∧
    (∀ c : CoreId, s.isFenced (.slice c) = false → ∃ t, exec (.fence (.slice c)) s = .next t ∧ noted t ∧ t.d.fencedSlices.contains c = true ∧
      t.t = s.t ∧ t.c = s.c) ∧
    (∀ (die : BitVec 2) (ch : BitVec 3), s.isFenced (.channel die ch) = false → ∃ t, exec (.fence (.channel die ch)) s = .next t ∧ noted t ∧
      t.d.fencedChannels.contains (die, ch) = true ∧ t.t = s.t ∧ t.c = s.c ∧ t.d.gmem = s.d.gmem) ∧
    (∀ port : BitVec 5, s.isFenced (.link port) = false → ∃ t l, exec (.fence (.link port)) s = .next t ∧ noted t ∧
      t.d.fabric.links[port.toNat]? = some l ∧ l.fenced = true ∧ l.up = false ∧ l.kept = [] ∧ l.tx = [] ∧ t.t = s.t ∧ t.c = s.c) ∧
    (∀ die : BitVec 2, s.isFenced (.die die) = false → ∃ t, exec (.fence (.die die)) s = .next t ∧ noted t ∧
      t.d.fencedDies.getLsbD die.toNat = true ∧ t.d.stopped (s.d.partOf die) = true ∧
      bitsOf (t.d.brfw[die.toNat]?.getD 0).toNat 0 2 = 0 ∧ t.t = s.t ∧ t.c = s.c)

/-- R51, R341, R357, R358: an uncorrectable error marks a line, a tile row or a register and changes no byte; a single-bit error is corrected
and counted, and changes nothing else, but in the register files, which carry parity only. A scrub rewrites one corrected line
within the die's budget. -/
def Claim.MemoryErrors : Prop :=
  ∀ s : State,
    (∀ (p : MemPlace) (a : Nat), placeHolds p a = false → exec (.uncorrectableError p a) s = .next s ∧ exec (.softError p a) s = .next s) ∧
    (∀ a, placeHolds .phys a = true → ∃ t, exec (.uncorrectableError .phys a) s = .next t ∧ t.d.gmem.mem = s.d.gmem.mem ∧ t.t = s.t ∧ t.c = s.c ∧
      ∀ l, l ∈ t.d.gmem.poison ↔ (l = a / 64 ∨ l ∈ s.d.gmem.poison)) ∧
    (∀ a, placeHolds .shared a = true → ∃ t, exec (.uncorrectableError .shared a) s = .next t ∧ t.d.shared.mem = s.d.shared.mem ∧
      t.t = s.t ∧ t.c = s.c ∧ ∀ l, l ∈ t.d.shared.poison ↔ (l = a / 64 ∨ l ∈ s.d.shared.poison)) ∧
    (∀ a, placeHolds (.spad s.c.id) a = true → ∃ t, exec (.uncorrectableError (.spad s.c.id) a) s = .next t ∧ t.t = s.t ∧
      t.c = { s.c with spad := s.c.spad.poisonLine a } ∧ ∀ l, l ∈ t.c.spad.poison ↔ (l = a / 64 ∨ l ∈ s.c.spad.poison)) ∧
    (∀ i j : Nat, i < 8 → j < 64 → ∃ t x y, exec (.uncorrectableError (.tile s.c.id) (64 * i + j)) s = .next t ∧ t.t = s.t ∧
      s.c.tiles[i]? = some x ∧ t.c.tiles[i]? = some y ∧ y = { x with poison := x.poison ||| BitVec.ofNat 64 (2 ^ j) }) ∧
    (s.t.status ≠ .vacant → s.t.onHearth = false → s.c.port.toNat < 24 →
      (∀ n, n < 16 → ∀ i ∈ [Instr.uncorrectableError (.regs s.c.id) (16 * s.c.port.toNat + n), .softError (.regs s.c.id) (16 * s.c.port.toNat + n)],
        ∃ t, exec i s = .next t ∧ t.c = s.c ∧ t.t = { s.t with gpoison := s.t.gpoison ||| BitVec.ofNat 16 (2 ^ n) }) ∧
      (∀ i ∈ [Instr.uncorrectableError (.regs s.c.id) (384 + s.c.port.toNat), .softError (.regs s.c.id) (384 + s.c.port.toNat)],
        ∃ t, exec i s = .next t ∧ t.c = s.c ∧ t.t = { s.t with parity := true })) ∧
    (∀ a, placeHolds .phys a = true → ∃ t, exec (.softError .phys a) s = .next t ∧ t.d.gmem = s.d.gmem ∧ t.t = s.t ∧ t.c = s.c ∧
      t.d.dieBanks = vmod s.d.dieBanks (dieOfPa a).toNat (·.add (if a < 4 * dieBytes then 4 else 5) 1) ∧
      (a < 4 * dieBytes → a / 64 ∈ t.d.corrected)) ∧
    (∀ a, placeHolds (.spad s.c.id) a = true → exec (.softError (.spad s.c.id) a) s = .next { s with c := { s.c with bank := s.c.bank.add 17 1 } }) ∧
    (∀ die : BitVec 2, (∀ l ∈ s.d.corrected, dieOfPa (64 * l) ≠ die) → exec (.scrub die) s = .next s) ∧
    (∀ (die : BitVec 2) (l : Nat), s.d.corrected.find? (fun l => dieOfPa (64 * l) == die) = some l →
      (s.d.leftOf die 1 < 64 → exec (.scrub die) s = .next s) ∧
      (64 ≤ s.d.leftOf die 1 → ∃ t, exec (.scrub die) s = .next t ∧ l ∉ t.d.corrected ∧ t.d.usedOf die 1 = s.d.usedOf die 1 + 64 ∧
        t.d.gmem = s.d.gmem ∧ t.t = s.t ∧ t.c = s.c ∧ t.d.dieBanks = vmod s.d.dieBanks die.toNat (·.add 11 1)))

/-- R424: a limit of the power manager withholds issue cycles and changes nothing else; a die whose junction reaches 115 °C is fenced, once. How
many cycles are withheld is a free value. -/
def Claim.PowerLimits : Prop :=
  ∀ s : State,
    let timing (o : Out) : Prop := ∃ w f, o = .next { s with d := { s.d with withheld := w, free := f } }
    timing (exec .packagePowerLimit s) ∧
    ∀ die : BitVec 2, timing (exec (.vcoreCurrentLimit die) s) ∧
      ∀ celsius : Nat,
        (celsius < 105 → exec (.junctionTemperature die celsius) s = .next s) ∧
        (105 ≤ celsius → celsius < 115 → timing (exec (.junctionTemperature die celsius) s)) ∧
        (115 ≤ celsius → exec (.junctionTemperature die celsius) s = exec (.fence (.die die)) s)

/-- Errors in memory, and the limits of the power manager: `Claim.MemoryErrors`, `Claim.PowerLimits`. -/
def Obligations.ErrorsAndLimits : Prop :=
  Claim.MemoryErrors ∧ Claim.PowerLimits

/-! ### The fabric -/

/-- R381 to R383, R395, R396: a group whose numbers, bank or tag do not agree is discarded and changes neither the receive number nor the stream;
a good group is taken, its number and its counter advance, and a group that carries no packet delivers none. A NAK keeps what it does
not acknowledge. A link that fails is taken down, recorded, and trained or fenced. A new key goes into the idle bank. -/
def Obligations.LinkEvents : Prop :=
  ∀ (s : State) (port : BitVec 5) (l : Link), s.d.fabric.links[port.toNat]? = some l →
    let after (o : Out) (p : State → Link → Prop) : Prop := ∃ t k, o = .next t ∧ t.d.fabric.links[port.toNat]? = some k ∧ t.t = s.t ∧
      t.c = s.c ∧ t.d.gmem = s.d.gmem ∧ p t k
    (∀ (headers : BitVec 256) (payload : List (BitVec 8)) (tag : BitVec 128),
      let o := exec (.flitGroupReceive port headers payload tag) s
      let h (i : Nat) : Nat := bitsOf headers.toNat (64 * i) 64
      let bank := bitsOf (h 0) 63 1
      let good : Prop := ∀ i < 4, bitsOf (h i) 63 1 = bank ∧ bitsOf (h i) 38 24 = (l.recvSeq + BitVec.ofNat 24 i).toNat
      let opened (b : Option (List Byte)) : Prop := ∃ key salt, l.recvKeys[bank]? = some (some (key, salt)) ∧
        Config.gcmOpen key (groupIv salt (l.recvCount[bank]?.getD 0)) headers payload tag = b
      let kept : Prop := after o (fun _ k => k.recvSeq = l.recvSeq ∧ k.recvCount = l.recvCount ∧ k.stream = l.stream)
      (l.up = false → o = .next s) ∧
      (l.up = true → l.fails.1 < 1000 → ¬good → kept) ∧
      (l.up = true → l.fails.1 < 1000 → good → opened none → kept) ∧
      (∀ bytes, l.up = true → good → opened (some bytes) → l.stream = [] → bytes.length = 464 → (∀ b ∈ bytes, b = 0) →
        bitsOf headers.toNat 254 1 = 0 → after o (fun t k => k.recvSeq = l.recvSeq + 4 ∧ k.stream = [] ∧ k.recvGen = (bank == 1) ∧
          k.recvCount = vmod l.recvCount bank (· + 1) ∧ k.up = true ∧ t.d.fabric.dropped = s.d.fabric.dropped))) ∧
    (∀ ack : BitVec 24,
      let o := exec (.nak port ack) s
      (l.up = false → o = .next s) ∧
      (l.up = true → l.retried.2 < 15 → after o (fun _ k => k.up = true ∧ k.sendSeq = l.sendSeq ∧
        k.kept = l.kept.filter (fun g => !(ackCovers ack (g.1 + 3)))))) ∧
    (let o := exec (.linkDown port) s
     (l.up = false → o = .next s) ∧
     (l.up = true → after o (fun t k => (k.up = true ∨ k.fenced = true) ∧ k.stream = [] ∧
        ∃ r, t.d.boot.journal = s.d.boot.journal ++ r ∧ r ≠ []))) ∧
    (let now := bankIndex l.sendGen
     let other := 1 - now
     l.sendKeys[now]? ≠ some none → l.sendKeys[other]? = some none → after (exec (.rekey port true) s) (fun _ k => k.sendGen = !l.sendGen ∧
       k.sendKeys[other]? = some (some (Config.linkKey port.toNat true s.d.spdm.generation)) ∧ k.sendCount[other]? = some 0 ∧
       (l.kept = [] → k.sendKeys[now]? = some none))) ∧
    (let now := bankIndex l.recvGen
     let other := 1 - now
     l.recvKeys[now]? ≠ some none → l.recvKeys[other]? = some none → after (exec (.rekey port false) s) (fun _ k => k.recvGen = l.recvGen ∧
       k.recvKeys[now]? = l.recvKeys[now]? ∧ k.recvKeys[other]? = some (some (Config.linkKey port.toNat false s.d.spdm.generation)) ∧
       k.recvCount[other]? = some 0))

/-- R386, R389, R391, R392: a request for another device is dropped and counted; one whose job the port does not let in is refused with 0x06. The cache
gateway frees what RACK covers, drops SEQ 0 and an old number, answers a repeated request from its cache without executing it again, holds
a request that is ahead of a missing one, and passes on the next one: here an acknowledgement packet, which is answered and kept. A source
without entries and without a request for 100 µs is reclaimed, and its highest number stays (the model's reading, log 46). -/
def Obligations.RequestSequence : Prop :=
  ∀ s : State,
    (∀ (port : BitVec 5) (header : BitVec 256) (data : List (BitVec 8)),
      let o := exec (.fabricRequest port header data) s
      let h := headerOf header.toNat
      let ends (f : Fabric) : Prop := ∃ t, o = .next t ∧ t.d.fabric = f ∧ t.t = s.t ∧ t.c = s.c ∧ t.d.gmem = s.d.gmem ∧ t.d.net = s.d.net
      let us : Prop := Endpoint.dev h.dst = s.d.fabric.device
      (¬us → ends { s.d.fabric with dropped := s.d.fabric.dropped + 1 }) ∧
      (us → s.d.jobAt port h.job = none → ends (s.d.fabric.put port { hdr := h.reply 0x06 false 0 [], data := [] })) ∧
      (∀ part job x, us → s.d.jobAt port h.job = some (part, job) → s.d.fabric.source part h.src = some x → x.granted = true →
        let freed (y : Source) (c : CachedReply) : Bool := c.reply.isSome && decide (seqAhead c.seq h.rack < 32768) && y.high != 0
        let noted : Fabric := { s.d.fabric with sources := s.d.fabric.sources.map (fun (y : Source) =>
          if y.src = h.src ∧ y.part = part then { y with last := s.d.cycle, cache := y.cache.filter (fun c => !(freed y c)) } else y) }
        let cached := (x.cache.filter (fun c => !(freed x c))).find? (fun c => c.seq == h.seq)
        let ahead := seqAhead x.high h.seq
        (h.seq = 0 → ends { noted with dropped := s.d.fabric.dropped + 1 }) ∧
        (h.seq ≠ 0 → (ahead = 0 ∨ 256 < ahead) →
          (cached = none → ends { noted with dropped := s.d.fabric.dropped + 1 }) ∧
          (∀ q, cached = some { seq := q, reply := none } → ends noted) ∧
          (∀ q r, cached = some { seq := q, reply := some r } → ends (noted.put port r))) ∧
        (h.seq ≠ 0 → 2 ≤ ahead → ahead ≤ 256 → x.ahead = [] → ∃ t y, o = .next t ∧ t.d.fabric.source part h.src = some y ∧ y.high = x.high ∧
          y.ahead = [(port, { hdr := h, data })] ∧ t.t = s.t ∧ t.c = s.c ∧ t.d.gmem = s.d.gmem) ∧
        (h.seq ≠ 0 → ahead = 1 → x.ahead = [] → h.op = 0x0F → Endpoint.valid h.dst = true → h.reserved = false →
          (∀ q ∈ s.d.fabric.pending, q.1 ≠ s.d.nextOp) → ∃ t y, o = .next t ∧ t.d.fabric.source part h.src = some y ∧ y.high = h.seq ∧
            (∃ c ∈ y.cache, c.seq = h.seq ∧ c.reply = some { hdr := h.reply 0 false 0 [], data := [] }) ∧
            t.t = s.t ∧ t.c = s.c ∧ t.d.gmem = s.d.gmem))) ∧
    (∀ src : Endpoint, ∃ t, exec (.replyCacheReclaim src) s = .next t ∧ t.t = s.t ∧ t.c = s.c ∧ t.d.gmem = s.d.gmem ∧
      ∀ i : Nat, t.d.fabric.sources[i]? = (s.d.fabric.sources[i]?).map (fun (x : Source) => { x with
        granted := x.granted && !(x.src == src && x.cache.isEmpty && x.ahead.isEmpty && decide (x.last + 105000 ≤ s.d.cycle)) })) ∧
    (∀ w : FabricWindow, ∃ t, exec (.rmsync w) s = .next t ∧ t.t = s.t ∧ t.c = s.c ∧ t.d.gmem = s.d.gmem ∧
      t.d.fabric.routes = w.routes ∧ t.d.fabric.syncs = s.d.fabric.syncs + 1 ∧ t.d.fabric.jobs.length = w.jobs.length ∧
      (∀ e ∈ w.jobs, ∃ j, (e.1, j) ∈ t.d.fabric.jobs ∧ j.pod.toNat = bitsOf e.2.toNat 0 16 ∧ j.job.toNat = bitsOf e.2.toNat 16 16 ∧
        j.part.toNat = bitsOf e.2.toNat 32 2 ∧ (j.valid = true ↔ bitsOf e.2.toNat 34 1 = 1 ∧ bitsOf e.2.toNat 35 93 = 0)) ∧
      (∀ r ∈ w.regions, ∃ q ∈ t.d.fabric.regions, q.1 = r.1 ∧ q.2.1 = r.2.1))

/-- R391 to R393: a request without its reply is sent again every 8 µs, with FLAGS[1] set, on the path of the moment; at 40 µs its operation ends
with a remote error and DETAIL 0. A source that has no further request sends an acknowledgement packet 2 µs after its last reply. -/
def Obligations.RequestsInTime : Prop :=
  ∀ s : State,
    (∀ op : Nat, s.t.onHearth = false →
      let o := exec (.requestResend s.c.id op) s
      (s.unanswered s.c.id op = none → o = .next s) ∧
      (∀ q cycle n, s.unanswered s.c.id op = some (q, cycle, n) →
        (s.d.cycle < cycle + 8400 * (n + 1) → o = .next s) ∧
        let dev := Endpoint.dev q.hdr.dst
        let from_ := Endpoint.core q.hdr.src
        let again (t : State) : Prop := t.unanswered s.c.id op = some (q, cycle, n + 1) ∧ t.d.gmem = s.d.gmem ∧ t.t.g = s.t.g ∧
          t.t.status = s.t.status
        (cycle + 8400 * (n + 1) ≤ s.d.cycle → s.d.pathTo from_ dev = none →
          ∃ t, o = .next t ∧ again t ∧ t.d.fabric = s.d.fabric) ∧
        (∀ port, cycle + 8400 * (n + 1) ≤ s.d.cycle → s.d.pathTo from_ dev = some port →
          ∃ t, o = .next t ∧ again t ∧ t.d.fabric = s.d.fabric.put port { q with hdr := { q.hdr with
            flags := q.hdr.flags ||| 2, rack := s.rackOf from_ dev } }))) ∧
    (∀ op : Nat,
      let o := exec (.requestTimeout s.c.id op) s
      (s.unanswered s.c.id op = none → o = .next s) ∧
      (∀ q cycle n, s.unanswered s.c.id op = some (q, cycle, n) →
        (s.d.cycle < cycle + 42000 → o = .next s) ∧
        (∀ x f a, cycle + 42000 ≤ s.d.cycle → s.Holds x f → x.id = op → x.kind = .access a → o = .next (f.opFails x 0x11 0)))) ∧
    (∀ dev : BitVec 12,
      let o := exec (.acknowledgementPacket s.c.id dev) s
      let entry := s.d.fabric.lastReply.find? (fun p => p.1 == s.c.id && p.2.1 == dev)
      let busy : Prop := (∃ x ∈ s.peerOps s.c.id, x.dev = dev ∧ x.stage.isSent = true) ∨
        ∃ q ∈ s.d.peerLines, q.core = s.c.id ∧ q.dev = dev ∧ q.got = none
      (entry = none → o = .next s) ∧
      (∀ c d cycle job, entry = some (c, d, cycle, job) →
        ((busy ∨ s.d.cycle < cycle + 2100) → o = .next s) ∧
        (¬busy → cycle + 2100 ≤ s.d.cycle →
          (s.d.pathTo s.c.id dev = none → ∃ t, o = .next t ∧ t.d.orphans = s.d.orphans ∧ t.t = s.t ∧ t.c = s.c) ∧
          (∀ port, s.d.pathTo s.c.id dev = some port → ∃ t x p, o = .next t ∧ t.d.orphans = s.d.orphans ++ [(s.c.id, 0, x)] ∧
            x.packet = some p ∧ p.hdr.opc = 0x0F ∧ p.hdr.seq = s.d.fabric.nextSeq s.c.id dev ∧ Endpoint.dev p.hdr.dst = dev ∧
            t.t = s.t ∧ t.c = s.c))))

/-! ### Power, bring-up and attestation -/

/-- R423, R425 to R429: a loss of power leaves flash and host memory; a reset starts a new boot. Without a valid firmware or configuration image
D0 stops at step 1 or 2. With both, and no failure, every die sets its registers from the images and releases its cores, and the
capability list is published. A step that fails stops its die, unless a record that waits for it is allowed: that record is used once. -/
def Obligations.PowerAndBringUp : Prop :=
  ∀ s : State,
    (∀ ordered : Bool, ∃ t, exec (.powerLoss ordered) s = .next t ∧ t.t = Task.vacant ∧ t.d.boot.powered = false ∧ t.d.boot.cold = !ordered ∧
      t.d.boot.firmware = s.d.boot.firmware ∧ t.d.boot.config = s.d.boot.config ∧ t.d.boot.journal = s.d.boot.journal ∧ t.d.graphs = [] ∧
      t.d.launches = [] ∧ t.d.saved = [] ∧ t.d.cores = [] ∧ t.c = Core.reset 0 ∧
      ∀ a, t.d.gmem.mem.get a = if hostBase ≤ a then s.d.gmem.mem.get a else 0) ∧
    (∀ failures : List StepFailure, ∃ t, exec (.packageReset failures) s = .next t ∧
      let b := s.d.boot
      t.t = Task.vacant ∧ t.c = Core.reset 0 ∧ t.d.cores = [] ∧ t.d.graphs = [] ∧ t.d.launches = [] ∧ t.d.boot.powered = true ∧
      t.d.boot.count = b.next ∧ (∃ r, t.d.boot.journal = b.journal ++ r ∧ r ≠ []) ∧
      (∀ a, hostBase ≤ a → t.d.gmem.mem.get a = s.d.gmem.mem.get a) ∧
      let none_ (step : Nat) : Prop := t.d.boot.stopped[0] = some (BitVec.ofNat 8 step) ∧ t.d.boot.failed.getLsbD step = true ∧
        ∀ die : Fin 4, t.d.boot.released[die] = false
      (b.select 1 b.firmware = none → none_ 1) ∧
      (∀ fw, b.select 1 b.firmware = some fw → b.select 2 b.config = none → none_ 2) ∧
      (∀ fw cfg, b.select 1 b.firmware = some fw → b.select 2 b.config = some cfg →
        (failures = [] → t.d.fabric.device = Config.cfgDevice cfg.body ∧ t.d.spdm.started = true ∧ t.d.boot.caps = t.d.capList ∧
          t.d.boot.fwHash = fw.hash ∧ t.d.boot.cfgHash = cfg.hash ∧ t.d.boot.failed = 0 ∧
          ∀ die : Fin 4, t.d.boot.released[die] = true ∧ t.d.boot.stopped[die] = none ∧
            t.d.brfw[die] = Config.cfgBrfw cfg.body die.val ∧ t.d.boot.mtvec[die] = Config.fwMtvec fw.body die.val) ∧
        (∀ (f : StepFailure) (die : Fin 4), failures = [f] → f.unit.toNat % 4 = die.val → 3 ≤ f.step.toNat → f.step.toNat ≤ 9 →
          (f.step.toNat = 6 → die.val = 0) →
          let waits := ({ b with count := b.next } : Boot).waiting f.step.toNat f.unit.toNat
          (∀ e : Fin 4, e ≠ die → t.d.boot.released[e] = true) ∧ t.d.boot.failed.getLsbD f.step.toNat = true ∧
          ((waits = none ∨ ∃ r, waits = some r ∧ skippable die.val f.step.toNat (jType r) = false) →
            t.d.boot.stopped[die] = some f.step ∧ t.d.boot.released[die] = false) ∧
          (∀ r, waits = some r → skippable die.val f.step.toNat (jType r) = true → t.d.boot.stopped[die] = none ∧ t.d.boot.released[die] = true ∧
            (jType r = 3 → f.step.toNat = 4 → t.d.boot.absentPorts = [(BitVec.ofNat 2 die.val, BitVec.ofNat 5 (f.unit.toNat / 4))])))))

/-- R395, R427, R430: the responder answers, once it has been started, a request whose conditions have been met, and with an error one whose
conditions have not. Signatures, digests and key exchanges are uninterpreted functions of what they cover; the order in which
requests may follow each other is that of SPDM 1.2 (the model's reading, log 49). -/
def Obligations.Attestation : Prop :=
  ∀ s : State,
    let p := s.d.spdm
    let answers (i : Instr) (q : Spdm) (r : SpdmReply) : Prop := exec i s = .next { s with d := { s.d with spdm := { q with out := q.out ++ [r] } } }
    (∀ (ready : Bool) (i : Instr),
      ((ready, i) ∈ [(p.versioned, Instr.getCapabilities), (p.negotiated, .getDigests), (p.finished, .keyUpdate), (p.finished, .endSession)] ∨
        (∃ a h, (ready, i) = (p.capabilities, .negotiateAlgorithms a h)) ∨ (∃ a n, (ready, i) = (p.negotiated, .getCertificate a n)) ∨
        (∃ n, (ready, i) = (p.negotiated, .challenge n)) ∨ (∃ x n, (ready, i) = (p.negotiated, .getMeasurements x n)) ∨
        (∃ x, (ready, i) = (p.negotiated, .keyExchange x)) ∨ (∃ v, (ready, i) = (p.session, .finish v)) ∨ (ready, i) = (true, .getVersion)) →
      (p.started = false → exec i s = .next s) ∧ (p.started = true → ready = false → answers i p .error)) ∧
    (p.started = true →
      answers .getVersion { p with versioned := true, capabilities := false, negotiated := false, session := false, finished := false } .version ∧
      (p.versioned = true → answers .getCapabilities { p with capabilities := true } .capabilities) ∧
      (∀ a h : List (BitVec 32), p.capabilities = true →
        ((extAsym ∈ a ∧ extHash ∈ h) → answers (.negotiateAlgorithms a h) { p with negotiated := true } (.algorithms 0x000100FF 0x000200FF)) ∧
        (¬(extAsym ∈ a ∧ extHash ∈ h) → answers (.negotiateAlgorithms a h) { p with negotiated := false } .error)) ∧
      (p.negotiated = true →
        answers .getDigests p (.digests (Config.shake256 s.d.boot.chain)) ∧
        (∀ a n, s.d.boot.chain.length ≤ a → answers (.getCertificate a n) p .error) ∧
        (∀ a n, a < s.d.boot.chain.length → answers (.getCertificate a n) p (.certificate ((s.d.boot.chain.drop a).take n))) ∧
        (∀ n, ∃ sig, answers (.challenge n) p (.challengeAuth (Config.shake256 s.d.boot.chain) sig)) ∧
        (∀ (x : BitVec 8) n, (1 ≤ x.toNat ∧ x.toNat ≤ 5) → ∃ sig, answers (.getMeasurements x n) p (.measurements [(x, s.measure x.toNat)] sig)) ∧
        (∀ (x : BitVec 8) n, (x.toNat = 0 ∨ (5 < x.toNat ∧ x.toNat < 255)) → answers (.getMeasurements x n) p .error) ∧
        (∀ x, ∃ r sig, answers (.keyExchange x) { p with session := true, finished := false } (.keyExchange r sig))) ∧
      (∀ v, p.session = true →
        (Config.spdmVerify v = true → answers (.finish v) { p with finished := true, generation := 0 } .finish) ∧
        (Config.spdmVerify v = false → answers (.finish v) { p with session := false } .error)) ∧
      (p.finished = true → answers .keyUpdate { p with generation := p.generation + 1 } .keyUpdate ∧
        answers .endSession { p with session := false, finished := false } .endSession)) ∧
    (∀ (alt : Bool) (step : BitVec 8) (unit : BitVec 16) (arg : BitVec 96),
      let o := exec (.hostSkipAltRecord alt step unit arg) s
      ((p.finished = false ∨ 128 ≤ unit.toNat) → o = .next s) ∧
      (p.finished = true → unit.toNat < 128 → ∃ t r, o = .next t ∧ t.d.boot.journal = s.d.boot.journal ++ [r] ∧ jOk r = true ∧
        jType r = (if alt then 4 else 3) ∧ jStep r = step.toNat ∧ jUnit r = unit.toNat ∧ jBoot r = s.d.boot.count.toNat ∧
        jArg r = arg.toNat ∧ t.t = s.t ∧ t.c = s.c))

/-! ### A step, decoding and reset -/

/-- R94, R101, R102, R103, R105, R305, R350 with log 1: a step runs the instruction that the bytes at the program counter decode to, in the state that the
choice of the task, its job's scratchpad and the fetch leave, a unit under way first, and the instruction that a word under no encoding stands for is the illegal one. An event of
the agenda runs as it stands. Without an agenda a turn of the next core, a word of a hearth and an internal event follow each other. -/
def Obligations.StepRunsDecodedInstruction : Prop :=
  ∀ s : State,
    (∀ i r, s.d.agenda = .event i :: r → step s = exec i { s with d := { s.d with agenda := r } }) ∧
    (s.d.agenda = [] → s.d.boot.powered = true → s.d.rota.kind = 1 → s.nextCore = s.c.id →
      step s = step { s with d := { s.d with agenda := [.core s.c.id], rota := { s.d.rota with kind := 2, turn := s.c.id } } }) ∧
    (∀ r, s.d.agenda = .core s.c.id :: r →
      let u : State := { s with d := { s.d with agenda := r } }
      let runs (z : State) : Prop :=
        (∀ w v i, z.fetch = .word w v → decodeWord w = .ok i → step s = exec i v) ∧
        (∀ w v e, z.fetch = .word w v → decodeWord w = .error e → step s = exec .illegalInstruction v) ∧
        (∀ v, z.fetch = .stopped v → step s = .next v)
      (∀ n, u.canIssue = true → u.midUnit = some n → runs (if s.t.onHearth = true ∨ s.c.port.toNat ≠ n then u.takeSlot n else u)) ∧
      (∀ n, u.midUnit = none →
        let a := u.tick.settle
        let z := (a.round n).giveSpad (a.round n).t.job
        let y := ({ z with t := { z.t with unitPc := z.t.pc } })
        u.tick.canIssue = true → a.agesNow = false → a.select = some n → z.stopOf = none → z.t.deferred = [] →
        z.t.single = none → z.execBreak z.t.pc = none → y.records y.t = false → y.replays y.t = false →
        runs ((y.charge .slot (y.d.tenantOf y.t.launch) 1).count 1))) ∧
    (∀ e v, winOf s.t.pc.toNat = some .glob → s.gplaceOf s.t.job s.t.level s.t.pc.toNat = .here →
      s.translate .fetch s.t.pc.toNat = (.ok e, v) → v.d.gpoisoned e.comp (e.at s.t.pc.toNat) 4 = false →
      let w := v.d.gread e.comp (e.at s.t.pc.toNat) 4
      s.fetch = .word w { v with t := { v.t with word := BitVec.ofNat 32 w } })

/-- A step never refuses, and faults only when the rails are down and nothing of the agenda is left (R423): whatever stands in memory and
in the registers, a powered machine goes on. -/
def Obligations.StepGoesOn : Prop :=
  ∀ s : State, s.goesOn ∨ (step s = .fault .powerOff ∧ s.d.agenda = [] ∧ s.d.boot.powered = false)

/-- Every step keeps every memory of the machine in its canonical form, whatever the state it starts from: addresses rise strictly and
no entry holds the byte that an unlisted address reads as, so that two memories that read alike are equal. The form is the model's own
(log 3); that it holds at reset is part of `ResetValues`. -/
def Obligations.MemoryStaysCanonical : Prop :=
  ∀ s t : State, s.Canonical → step s = .next t → t.Canonical

/-- R94, R100 to R105: words that the specification writes out decode to the instructions that it names beside them, and words that it calls
illegal decode to none. -/
def Obligations.DecodeWords : Prop :=
  decodeWord 0x02308800 = .ok (.ialuAdd false (.g 3) (.g 1) (.g 2)) ∧ decodeWord 0xA0412284 = .ok (.ld true (.g 4) (.g 2) .die .acq .w 4) ∧
  decodeWord 0x40250603 = .ok (.vfpFma false (.o 1) (.o 2) .lv (.o 3) .f32) ∧ decodeWord 0x36531C00 = .ok (.evPost false (.g 5) (.g 6) (.g 7)) ∧
  decodeWord 0x7E012345 = .ok (.hintImm 0x12345) ∧ decodeWord 0xE4000004 = .ok .tlbSync ∧ decodeWord 0x1E000000 = .error .unassignedMajor ∧
  decodeWord 0x0200000F = .error .unlistedOperation

/-- R94, R100: for every instruction of the table that is well formed, with every operand at every value that its encoding admits, the word that
the encoder writes has 32 bits and decodes to that instruction, and so do its four bytes wherever they stand in a stream. -/
def Obligations.DecodeEncode : Prop :=
  ∀ (i : Instr) (rest : List Byte), i.wf = true → encode i ≠ 0 →
    encode i < 2 ^ 32 ∧ decodeWord (encode i) = .ok i ∧ decode (wordBytes (encode i) ++ rest) = .ok (i, rest)

/-- R11, R33, R284, R366, R399, R413 and R428: what the release of reset leaves, as far as the specification gives it. -/
def Obligations.ResetValues : Prop :=
  let s := State.reset
  s.t.status = .vacant ∧ s.c.slots = Vector.replicate 24 none ∧ s.c.tiles = Vector.replicate 8 Tile.zero ∧
  (s.c.dqBase = 0 ∧ s.c.dqLimit = 0 ∧ s.c.dqBot = 0 ∧ s.c.dqTop = 0 ∧ s.c.jsel = 0 ∧ s.c.barown = 0) ∧
  (s.c.trace.tctl = 0 ∧ s.c.trace.tsize = 12 ∧ s.c.trace.rctl = 0) ∧
  (∀ n : Fin 4, s.d.brfw[n] = BitVec.ofNat 64 (16 * n.val) ∧ s.d.boot.released[n] = false) ∧
  (∀ n : Fin 4, s.d.parts[n].stvec = 0 ∧ s.d.parts[n].htvec = 0 ∧ s.d.parts[n].sup.result = 1 ∧ s.d.parts[n].hyp.result = 1) ∧
  s.d.net = [] ∧ s.d.launches = [] ∧ s.d.graphs = [] ∧ s.d.saved = [] ∧ s.Canonical

end Claims
end

