-- ==== Sys2Proof/Laws/Memory.lean ====
section
/-! SUPPORT. Memory: every operation keeps the canonical form, a read after a write gives what was written, and a write leaves every
other byte as it was. -/

namespace Sys2Proof.Machine

set_option Elab.async false

/-! ### The canonical form -/

theorem Memory.wfFrom_mono {lo lo' : Nat} {m : Memory} (h : lo' ≤ lo) (w : Memory.wfFrom lo m = true) : Memory.wfFrom lo' m = true := by
  cases m with
  | nil => rfl
  | cons p r =>
    simp only [Memory.wfFrom, Bool.and_eq_true, decide_eq_true_eq] at w ⊢
    exact ⟨⟨by omega, w.1.2⟩, w.2⟩

theorem Memory.set_wfFrom (m : Memory) (lo a : Nat) (v : Byte) (h : lo ≤ a) (w : Memory.wfFrom lo m = true) :
    Memory.wfFrom lo (m.set a v) = true := by
  induction m generalizing lo with
  | nil =>
    simp only [Memory.set]
    split
    · rfl
    · rename_i hv
      simp only [Memory.wfFrom, Bool.and_eq_true, decide_eq_true_eq, bne_iff_ne, ne_eq]
      exact ⟨⟨h, hv⟩, trivial⟩
  | cons p r ih =>
    obtain ⟨b, x⟩ := p
    simp only [Memory.wfFrom, Bool.and_eq_true, decide_eq_true_eq] at w
    obtain ⟨⟨w1, w2⟩, w3⟩ := w
    simp only [Memory.set]
    split
    · split
      · simp only [Memory.wfFrom, Bool.and_eq_true, decide_eq_true_eq]
        exact ⟨⟨w1, w2⟩, w3⟩
      · rename_i h1 h2
        simp only [Memory.wfFrom, Bool.and_eq_true, decide_eq_true_eq, bne_iff_ne, ne_eq]
        exact ⟨⟨h, h2⟩, ⟨by omega, by simpa using w2⟩, w3⟩
    · split
      · split
        · exact Memory.wfFrom_mono (by omega) w3
        · rename_i h1 h2 h3
          subst h2
          simp only [Memory.wfFrom, Bool.and_eq_true, decide_eq_true_eq, bne_iff_ne, ne_eq]
          exact ⟨⟨w1, h3⟩, w3⟩
      · simp only [Memory.wfFrom, Bool.and_eq_true, decide_eq_true_eq]
        exact ⟨⟨w1, w2⟩, ih (b + 1) (by omega) w3⟩

theorem Memory.set_wf (m : Memory) (a : Nat) (v : Byte) (w : m.wf = true) : (m.set a v).wf = true :=
  Memory.set_wfFrom m 0 a v (Nat.zero_le a) w

theorem Memory.write_wf (n : Nat) : ∀ (m : Memory) (a v : Nat), m.wf = true → (m.write a n v).wf = true := by
  induction n with
  | zero => exact fun _ _ _ w => w
  | succ n ih => exact fun m a v w => ih _ _ _ (Memory.set_wf m a _ w)

theorem Memory.writeBytes_wf (l : List Byte) : ∀ (m : Memory) (a : Nat), m.wf = true → (m.writeBytes a l).wf = true := by
  induction l with
  | nil => exact fun _ _ w => w
  | cons b r ih => exact fun m a w => ih _ _ (Memory.set_wf m a b w)

theorem Memory.writeMasked_wf (n : Nat) : ∀ (m : Memory) (a mask v : Nat), m.wf = true → (m.writeMasked a n mask v).wf = true := by
  induction n with
  | zero => exact fun _ _ _ _ w => w
  | succ n ih =>
    intro m a mask v w
    apply ih
    split
    · exact Memory.set_wf m a _ w
    · exact w

theorem Memory.filter_wf (p : Nat × Byte → Bool) (m : Memory) : ∀ lo, Memory.wfFrom lo m = true → Memory.wfFrom lo (m.filter p) = true := by
  induction m with
  | nil => exact fun _ w => w
  | cons q r ih =>
    obtain ⟨b, x⟩ := q
    intro lo w
    simp only [Memory.wfFrom, Bool.and_eq_true, decide_eq_true_eq] at w
    by_cases hp : p (b, x) = true
    · simp only [List.filter_cons, hp, if_true, Memory.wfFrom, Bool.and_eq_true, decide_eq_true_eq]
      exact ⟨w.1, ih _ w.2⟩
    · simp only [List.filter_cons, hp]
      exact Memory.wfFrom_mono (by omega) (ih _ w.2)

theorem Bank.put_wf (b : Bank) (a n v : Nat) (w : b.mem.wf = true) : (b.put a n v).mem.wf = true := Memory.write_wf n _ _ _ w
theorem Bank.putBytes_wf (b : Bank) (a : Nat) (l : List Byte) (w : b.mem.wf = true) : (b.putBytes a l).mem.wf = true :=
  Memory.writeBytes_wf l _ _ w
theorem Bank.putMasked_wf (b : Bank) (a n mask v : Nat) (w : b.mem.wf = true) : (b.putMasked a n mask v).mem.wf = true :=
  Memory.writeMasked_wf n _ _ _ _ w
theorem Bank.putCap_wf (b : Bank) (a : Nat) (v : Quad) (tag : Bool) (w : b.mem.wf = true) : (b.putCap a v tag).mem.wf = true := by
  have h : (b.putCap a v tag).mem = (b.put a 16 v.toNat).mem := by
    generalize hn : (16 : Nat) = n
    unfold Bank.putCap
    rw [hn]
    split <;> rfl
  rw [h]
  exact Bank.put_wf b a 16 _ w

theorem Bank.empty_wf : Bank.empty.mem.wf = true := rfl
theorem State.reset_gmem : State.reset.d.gmem = Bank.empty := by with_unfolding_all rfl
theorem State.reset_shared : State.reset.d.shared = Bank.empty := by with_unfolding_all rfl
theorem State.reset_spad : State.reset.c.spad = Bank.empty := by with_unfolding_all rfl
theorem State.reset_memory_wf : State.reset.d.gmem.mem.wf = true ∧ State.reset.d.shared.mem.wf = true ∧ State.reset.c.spad.mem.wf = true := by
  rw [State.reset_gmem, State.reset_shared, State.reset_spad]
  exact ⟨Bank.empty_wf, Bank.empty_wf, Bank.empty_wf⟩

/-! ### Reads after writes -/

theorem Memory.get_below (m : Memory) (lo a : Nat) (w : Memory.wfFrom lo m = true) (h : a < lo) : m.get a = 0 := by
  cases m with
  | nil => rfl
  | cons p r =>
    obtain ⟨b, x⟩ := p
    simp only [Memory.wfFrom, Bool.and_eq_true, decide_eq_true_eq] at w
    simp only [Memory.get]
    rw [if_neg (by omega), if_pos (by omega)]

theorem Memory.get_set_from (m : Memory) (lo a b : Nat) (v : Byte) (w : Memory.wfFrom lo m = true) :
    (m.set a v).get b = if b = a then v else m.get b := by
  induction m generalizing lo with
  | nil =>
    by_cases hv : v = 0
    · simp [Memory.set, Memory.get, hv]
    · simp only [Memory.set, hv, if_false, Memory.get]
      split
      · rfl
      · split <;> rfl
  | cons p r ih =>
    obtain ⟨c, x⟩ := p
    simp only [Memory.wfFrom, Bool.and_eq_true, decide_eq_true_eq] at w
    obtain ⟨⟨w1, w2⟩, w3⟩ := w
    simp only [Memory.set]
    split
    · rename_i hac
      by_cases hv : v = 0
      · simp only [hv, if_true]
        split
        · subst b; simp only [Memory.get]; rw [if_neg (by omega), if_pos hac]
        · rfl
      · simp only [hv, if_false]
        by_cases hba : b = a
        · simp [Memory.get, hba]
        · simp only [hba, if_false]
          show (if b = a then v else if b < a then 0 else Memory.get ((c, x) :: r) b) = _
          rw [if_neg hba]
          split
          · rename_i hlt
            simp only [Memory.get]
            rw [if_neg (by omega), if_pos (by omega)]
          · rfl
    · split
      · rename_i h1 h2
        subst h2
        by_cases hv : v = 0
        · simp only [hv, if_true]
          by_cases hba : b = a
          · subst b; simp only [if_true]; exact Memory.get_below r (a + 1) a w3 (by omega)
          · simp only [hba, if_false, Memory.get]
            by_cases hlt : b < a
            · rw [if_pos hlt]; exact Memory.get_below r (a + 1) b w3 (by omega)
            · rw [if_neg hlt]
        · simp only [hv, if_false, Memory.get]
          split <;> rfl
      · rename_i h1 h2
        simp only [Memory.get, ih (c + 1) w3]
        by_cases hba : b = a
        · subst b
          rw [if_pos rfl, if_neg (by omega), if_neg (by omega), if_pos rfl]
        · simp only [hba, if_false]

/-- One byte after a write of one byte. -/
theorem Memory.get_set (m : Memory) (a b : Nat) (v : Byte) (w : m.wf = true) : (m.set a v).get b = if b = a then v else m.get b :=
  Memory.get_set_from m 0 a b v w

/-- A write leaves every byte outside it. -/
theorem Memory.get_write_out (n : Nat) : ∀ (m : Memory) (a v b : Nat), m.wf = true → (b < a ∨ a + n ≤ b) → (m.write a n v).get b = m.get b := by
  induction n with
  | zero => exact fun _ _ _ _ _ _ => rfl
  | succ n ih =>
    intro m a v b w h
    show (Memory.write (m.set a _) (a + 1) n _).get b = _
    rw [ih _ _ _ _ (Memory.set_wf m a _ w) (by omega), Memory.get_set m a b _ w, if_neg (by omega)]

/-- A byte of a write. -/
theorem Memory.get_write_in (n : Nat) : ∀ (m : Memory) (a v i : Nat), m.wf = true → i < n →
    (m.write a n v).get (a + i) = BitVec.ofNat 8 (v / 256 ^ i) := by
  induction n with
  | zero => intro m a v i w h; omega
  | succ n ih =>
    intro m a v i w h
    show (Memory.write (m.set a _) (a + 1) n _).get (a + i) = _
    cases i with
    | zero =>
      rw [Memory.get_write_out n _ _ _ _ (Memory.set_wf m a _ w) (by omega), Memory.get_set m a (a + 0) _ w]
      simp
    | succ i =>
      rw [show a + (i + 1) = a + 1 + i by omega, ih _ _ _ _ (Memory.set_wf m a _ w) (by omega), Nat.div_div_eq_div_mul, Nat.pow_succ, Nat.mul_comm]

/-- A write of bytes leaves every byte outside it. -/
theorem Memory.get_writeBytes_out (l : List Byte) : ∀ (m : Memory) (a b : Nat), m.wf = true → (b < a ∨ a + l.length ≤ b) →
    (m.writeBytes a l).get b = m.get b := by
  induction l with
  | nil => exact fun _ _ _ _ _ => rfl
  | cons x r ih =>
    intro m a b w h
    simp only [List.length_cons] at h
    show (Memory.writeBytes (m.set a x) (a + 1) r).get b = _
    rw [ih _ _ _ (Memory.set_wf m a _ w) (by omega), Memory.get_set m a b _ w, if_neg (by omega)]

/-- A byte of a write of bytes. -/
theorem Memory.get_writeBytes_in (l : List Byte) : ∀ (m : Memory) (a i : Nat), m.wf = true → ∀ h : i < l.length,
    (m.writeBytes a l).get (a + i) = l[i] := by
  induction l with
  | nil => intro m a i w h; simp at h
  | cons x r ih =>
    intro m a i w h
    show (Memory.writeBytes (m.set a x) (a + 1) r).get (a + i) = _
    cases i with
    | zero =>
      rw [Memory.get_writeBytes_out r _ _ _ (Memory.set_wf m a _ w) (by omega), Memory.get_set m a (a + 0) _ w]
      simp
    | succ i =>
      rw [show a + (i + 1) = a + 1 + i by omega, ih _ _ _ (Memory.set_wf m a _ w) (by simpa using h)]
      simp

/-- A number read where it was written (R3). -/
theorem Memory.read_write (n : Nat) : ∀ (m : Memory) (a v : Nat), m.wf = true → (m.write a n v).read a n = v % 256 ^ n := by
  induction n with
  | zero => intro m a v _; simp [Memory.read, Nat.mod_one]
  | succ n ih =>
    intro m a v w
    show (Memory.get (Memory.write (m.set a _) (a + 1) n _) a).toNat + 256 * Memory.read (Memory.write (m.set a _) (a + 1) n _) (a + 1) n = _
    rw [ih _ _ _ (Memory.set_wf m a _ w), Memory.get_write_out n _ _ _ _ (Memory.set_wf m a _ w) (by omega), Memory.get_set m a a _ w, if_pos rfl,
      BitVec.toNat_ofNat, show 256 ^ (n + 1) = 256 * 256 ^ n by rw [Nat.pow_succ, Nat.mul_comm], Nat.mod_mul]

/-- A number read outside what was written. -/
theorem Memory.read_write_out (k : Nat) : ∀ (m : Memory) (a n v b : Nat), m.wf = true → (b + k ≤ a ∨ a + n ≤ b) →
    (m.write a n v).read b k = m.read b k := by
  induction k with
  | zero => exact fun _ _ _ _ _ _ _ => rfl
  | succ k ih =>
    intro m a n v b w h
    simp only [Memory.read]
    rw [Memory.get_write_out n _ _ _ _ w (by omega), ih _ _ _ _ _ w (by omega)]

end Sys2Proof.Machine
end

