-- ==== Sys2Proof/Laws/State.lean ====
section
/-! SUPPORT. What each small update of a state leaves of each field, by `rfl`: no later proof unfolds a record update. -/

namespace Sys2Proof.Machine

set_option Elab.async false

@[simp] theorem Task.buffer_status (t : Task) (e : BufEntry) : (t.buffer e).status = t.status := rfl
@[simp] theorem Task.buffer_g (t : Task) (e : BufEntry) : (t.buffer e).g = t.g := rfl
@[simp] theorem Task.buffer_l (t : Task) (e : BufEntry) : (t.buffer e).l = t.l := rfl
@[simp] theorem Task.buffer_pc (t : Task) (e : BufEntry) : (t.buffer e).pc = t.pc := rfl
@[simp] theorem Task.buffer_tsw (t : Task) (e : BufEntry) : (t.buffer e).tsw = t.tsw := rfl
@[simp] theorem Task.buffer_clabel (t : Task) (e : BufEntry) : (t.buffer e).clabel = t.clabel := rfl
@[simp] theorem Task.buffer_tid (t : Task) (e : BufEntry) : (t.buffer e).tid = t.tid := rfl
@[simp] theorem Task.buffer_tidReg (t : Task) (e : BufEntry) : (t.buffer e).tidReg = t.tidReg := rfl
@[simp] theorem Task.buffer_tlevel (t : Task) (e : BufEntry) : (t.buffer e).tlevel = t.tlevel := rfl
@[simp] theorem Task.buffer_utvec (t : Task) (e : BufEntry) : (t.buffer e).utvec = t.utvec := rfl
@[simp] theorem Task.buffer_uepc (t : Task) (e : BufEntry) : (t.buffer e).uepc = t.uepc := rfl
@[simp] theorem Task.buffer_ucause (t : Task) (e : BufEntry) : (t.buffer e).ucause = t.ucause := rfl
@[simp] theorem Task.buffer_uval (t : Task) (e : BufEntry) : (t.buffer e).uval = t.uval := rfl
@[simp] theorem Task.buffer_unitPc (t : Task) (e : BufEntry) : (t.buffer e).unitPc = t.unitPc := rfl
@[simp] theorem Task.buffer_word (t : Task) (e : BufEntry) : (t.buffer e).word = t.word := rfl
@[simp] theorem Task.buffer_pfxImm (t : Task) (e : BufEntry) : (t.buffer e).pfxImm = t.pfxImm := rfl
@[simp] theorem Task.buffer_pfxMod (t : Task) (e : BufEntry) : (t.buffer e).pfxMod = t.pfxMod := rfl
@[simp] theorem Task.buffer_midGroup (t : Task) (e : BufEntry) : (t.buffer e).midGroup = t.midGroup := rfl
@[simp] theorem Task.buffer_lost (t : Task) (e : BufEntry) : (t.buffer e).lost = t.lost := rfl
@[simp] theorem Task.buffer_held (t : Task) (e : BufEntry) : (t.buffer e).held = t.held := rfl
@[simp] theorem Task.buffer_frames (t : Task) (e : BufEntry) : (t.buffer e).frames = t.frames := rfl
@[simp] theorem Task.buffer_mark (t : Task) (e : BufEntry) : (t.buffer e).mark = t.mark := rfl
@[simp] theorem Task.buffer_ops (t : Task) (e : BufEntry) : (t.buffer e).ops = t.ops := rfl
@[simp] theorem Task.buffer_unsent (t : Task) (e : BufEntry) : (t.buffer e).unsent = t.unsent := rfl
@[simp] theorem Task.buffer_replay (t : Task) (e : BufEntry) : (t.buffer e).replay = t.replay := rfl
@[simp] theorem Task.buffer_inbox (t : Task) (e : BufEntry) : (t.buffer e).inbox = t.inbox := rfl
@[simp] theorem Task.buffer_resv (t : Task) (e : BufEntry) : (t.buffer e).resv = t.resv := rfl
@[simp] theorem Task.buffer_noticed (t : Task) (e : BufEntry) : (t.buffer e).noticed = t.noticed := rfl
@[simp] theorem Task.buffer_anchor (t : Task) (e : BufEntry) : (t.buffer e).anchor = t.anchor := rfl
@[simp] theorem Task.buffer_leases (t : Task) (e : BufEntry) : (t.buffer e).leases = t.leases := rfl
@[simp] theorem Task.buffer_handlerOf (t : Task) (e : BufEntry) : (t.buffer e).handlerOf = t.handlerOf := rfl
@[simp] theorem Task.buffer_pins (t : Task) (e : BufEntry) : (t.buffer e).pins = t.pins := rfl
@[simp] theorem Task.buffer_deferred (t : Task) (e : BufEntry) : (t.buffer e).deferred = t.deferred := rfl
@[simp] theorem Task.buffer_bounced (t : Task) (e : BufEntry) : (t.buffer e).bounced = t.bounced := rfl
@[simp] theorem Task.buffer_trap (t : Task) (e : BufEntry) : (t.buffer e).trap = t.trap := rfl
@[simp] theorem Task.buffer_trapped (t : Task) (e : BufEntry) : (t.buffer e).trapped = t.trapped := rfl
@[simp] theorem Task.buffer_fromRing (t : Task) (e : BufEntry) : (t.buffer e).fromRing = t.fromRing := rfl
@[simp] theorem Task.buffer_member (t : Task) (e : BufEntry) : (t.buffer e).member = t.member := rfl
@[simp] theorem Task.buffer_ceil (t : Task) (e : BufEntry) : (t.buffer e).ceil = t.ceil := rfl
@[simp] theorem Task.buffer_job (t : Task) (e : BufEntry) : (t.buffer e).job = t.job := rfl
@[simp] theorem Task.buffer_launch (t : Task) (e : BufEntry) : (t.buffer e).launch = t.launch := rfl
@[simp] theorem Task.buffer_entry (t : Task) (e : BufEntry) : (t.buffer e).entry = t.entry := rfl
@[simp] theorem Task.buffer_eff (t : Task) (e : BufEntry) : (t.buffer e).eff = t.eff := rfl
@[simp] theorem Task.buffer_age (t : Task) (e : BufEntry) : (t.buffer e).age = t.age := rfl
@[simp] theorem Task.buffer_yieldTo (t : Task) (e : BufEntry) : (t.buffer e).yieldTo = t.yieldTo := rfl
@[simp] theorem Task.buffer_passOver (t : Task) (e : BufEntry) : (t.buffer e).passOver = t.passOver := rfl
@[simp] theorem Task.buffer_predict (t : Task) (e : BufEntry) : (t.buffer e).predict = t.predict := rfl
@[simp] theorem Task.buffer_parity (t : Task) (e : BufEntry) : (t.buffer e).parity = t.parity := rfl
@[simp] theorem Task.buffer_gpoison (t : Task) (e : BufEntry) : (t.buffer e).gpoison = t.gpoison := rfl
@[simp] theorem Task.buffer_arrival (t : Task) (e : BufEntry) : (t.buffer e).arrival = t.arrival := rfl
@[simp] theorem Task.buffer_wireOut (t : Task) (e : BufEntry) : (t.buffer e).wireOut = t.wireOut := rfl
@[simp] theorem Task.buffer_single (t : Task) (e : BufEntry) : (t.buffer e).single = t.single := rfl
@[simp] theorem Task.buffer_onHearth (t : Task) (e : BufEntry) : (t.buffer e).onHearth = t.onHearth := rfl
@[simp] theorem Task.buffer_qin (t : Task) (e : BufEntry) : (t.buffer e).qin = t.qin := rfl
@[simp] theorem Task.buffer_qtake (t : Task) (e : BufEntry) : (t.buffer e).qtake = t.qtake := rfl
@[simp] theorem Task.deliver_status (t : Task) (alu : Bool) (r : SReg) (v : Val) : (t.deliver alu r v).status = t.status := by cases alu <;> cases r <;> rfl
@[simp] theorem Task.deliver_g (t : Task) (alu : Bool) (r : SReg) (v : Val) : (t.deliver alu r v).g = t.g := by cases alu <;> cases r <;> rfl
@[simp] theorem Task.deliver_pc (t : Task) (alu : Bool) (r : SReg) (v : Val) : (t.deliver alu r v).pc = t.pc := by cases alu <;> cases r <;> rfl
@[simp] theorem Task.deliver_tsw (t : Task) (alu : Bool) (r : SReg) (v : Val) : (t.deliver alu r v).tsw = t.tsw := by cases alu <;> cases r <;> rfl
@[simp] theorem Task.deliver_clabel (t : Task) (alu : Bool) (r : SReg) (v : Val) : (t.deliver alu r v).clabel = t.clabel := by cases alu <;> cases r <;> rfl
@[simp] theorem Task.deliver_tid (t : Task) (alu : Bool) (r : SReg) (v : Val) : (t.deliver alu r v).tid = t.tid := by cases alu <;> cases r <;> rfl
@[simp] theorem Task.deliver_tidReg (t : Task) (alu : Bool) (r : SReg) (v : Val) : (t.deliver alu r v).tidReg = t.tidReg := by cases alu <;> cases r <;> rfl
@[simp] theorem Task.deliver_tlevel (t : Task) (alu : Bool) (r : SReg) (v : Val) : (t.deliver alu r v).tlevel = t.tlevel := by cases alu <;> cases r <;> rfl
@[simp] theorem Task.deliver_utvec (t : Task) (alu : Bool) (r : SReg) (v : Val) : (t.deliver alu r v).utvec = t.utvec := by cases alu <;> cases r <;> rfl
@[simp] theorem Task.deliver_uepc (t : Task) (alu : Bool) (r : SReg) (v : Val) : (t.deliver alu r v).uepc = t.uepc := by cases alu <;> cases r <;> rfl
@[simp] theorem Task.deliver_ucause (t : Task) (alu : Bool) (r : SReg) (v : Val) : (t.deliver alu r v).ucause = t.ucause := by cases alu <;> cases r <;> rfl
@[simp] theorem Task.deliver_uval (t : Task) (alu : Bool) (r : SReg) (v : Val) : (t.deliver alu r v).uval = t.uval := by cases alu <;> cases r <;> rfl
@[simp] theorem Task.deliver_unitPc (t : Task) (alu : Bool) (r : SReg) (v : Val) : (t.deliver alu r v).unitPc = t.unitPc := by cases alu <;> cases r <;> rfl
@[simp] theorem Task.deliver_word (t : Task) (alu : Bool) (r : SReg) (v : Val) : (t.deliver alu r v).word = t.word := by cases alu <;> cases r <;> rfl
@[simp] theorem Task.deliver_pfxImm (t : Task) (alu : Bool) (r : SReg) (v : Val) : (t.deliver alu r v).pfxImm = t.pfxImm := by cases alu <;> cases r <;> rfl
@[simp] theorem Task.deliver_pfxMod (t : Task) (alu : Bool) (r : SReg) (v : Val) : (t.deliver alu r v).pfxMod = t.pfxMod := by cases alu <;> cases r <;> rfl
@[simp] theorem Task.deliver_midGroup (t : Task) (alu : Bool) (r : SReg) (v : Val) : (t.deliver alu r v).midGroup = t.midGroup := by cases alu <;> cases r <;> rfl
@[simp] theorem Task.deliver_lost (t : Task) (alu : Bool) (r : SReg) (v : Val) : (t.deliver alu r v).lost = t.lost := by cases alu <;> cases r <;> rfl
@[simp] theorem Task.deliver_held (t : Task) (alu : Bool) (r : SReg) (v : Val) : (t.deliver alu r v).held = t.held := by cases alu <;> cases r <;> rfl
@[simp] theorem Task.deliver_frames (t : Task) (alu : Bool) (r : SReg) (v : Val) : (t.deliver alu r v).frames = t.frames := by cases alu <;> cases r <;> rfl
@[simp] theorem Task.deliver_mark (t : Task) (alu : Bool) (r : SReg) (v : Val) : (t.deliver alu r v).mark = t.mark := by cases alu <;> cases r <;> rfl
@[simp] theorem Task.deliver_ops (t : Task) (alu : Bool) (r : SReg) (v : Val) : (t.deliver alu r v).ops = t.ops := by cases alu <;> cases r <;> rfl
@[simp] theorem Task.deliver_unsent (t : Task) (alu : Bool) (r : SReg) (v : Val) : (t.deliver alu r v).unsent = t.unsent := by cases alu <;> cases r <;> rfl
@[simp] theorem Task.deliver_replay (t : Task) (alu : Bool) (r : SReg) (v : Val) : (t.deliver alu r v).replay = t.replay := by cases alu <;> cases r <;> rfl
@[simp] theorem Task.deliver_inbox (t : Task) (alu : Bool) (r : SReg) (v : Val) : (t.deliver alu r v).inbox = t.inbox := by cases alu <;> cases r <;> rfl
@[simp] theorem Task.deliver_resv (t : Task) (alu : Bool) (r : SReg) (v : Val) : (t.deliver alu r v).resv = t.resv := by cases alu <;> cases r <;> rfl
@[simp] theorem Task.deliver_noticed (t : Task) (alu : Bool) (r : SReg) (v : Val) : (t.deliver alu r v).noticed = t.noticed := by cases alu <;> cases r <;> rfl
@[simp] theorem Task.deliver_anchor (t : Task) (alu : Bool) (r : SReg) (v : Val) : (t.deliver alu r v).anchor = t.anchor := by cases alu <;> cases r <;> rfl
@[simp] theorem Task.deliver_leases (t : Task) (alu : Bool) (r : SReg) (v : Val) : (t.deliver alu r v).leases = t.leases := by cases alu <;> cases r <;> rfl
@[simp] theorem Task.deliver_handlerOf (t : Task) (alu : Bool) (r : SReg) (v : Val) : (t.deliver alu r v).handlerOf = t.handlerOf := by cases alu <;> cases r <;> rfl
@[simp] theorem Task.deliver_pins (t : Task) (alu : Bool) (r : SReg) (v : Val) : (t.deliver alu r v).pins = t.pins := by cases alu <;> cases r <;> rfl
@[simp] theorem Task.deliver_deferred (t : Task) (alu : Bool) (r : SReg) (v : Val) : (t.deliver alu r v).deferred = t.deferred := by cases alu <;> cases r <;> rfl
@[simp] theorem Task.deliver_bounced (t : Task) (alu : Bool) (r : SReg) (v : Val) : (t.deliver alu r v).bounced = t.bounced := by cases alu <;> cases r <;> rfl
@[simp] theorem Task.deliver_trap (t : Task) (alu : Bool) (r : SReg) (v : Val) : (t.deliver alu r v).trap = t.trap := by cases alu <;> cases r <;> rfl
@[simp] theorem Task.deliver_trapped (t : Task) (alu : Bool) (r : SReg) (v : Val) : (t.deliver alu r v).trapped = t.trapped := by cases alu <;> cases r <;> rfl
@[simp] theorem Task.deliver_fromRing (t : Task) (alu : Bool) (r : SReg) (v : Val) : (t.deliver alu r v).fromRing = t.fromRing := by cases alu <;> cases r <;> rfl
@[simp] theorem Task.deliver_member (t : Task) (alu : Bool) (r : SReg) (v : Val) : (t.deliver alu r v).member = t.member := by cases alu <;> cases r <;> rfl
@[simp] theorem Task.deliver_ceil (t : Task) (alu : Bool) (r : SReg) (v : Val) : (t.deliver alu r v).ceil = t.ceil := by cases alu <;> cases r <;> rfl
@[simp] theorem Task.deliver_job (t : Task) (alu : Bool) (r : SReg) (v : Val) : (t.deliver alu r v).job = t.job := by cases alu <;> cases r <;> rfl
@[simp] theorem Task.deliver_launch (t : Task) (alu : Bool) (r : SReg) (v : Val) : (t.deliver alu r v).launch = t.launch := by cases alu <;> cases r <;> rfl
@[simp] theorem Task.deliver_entry (t : Task) (alu : Bool) (r : SReg) (v : Val) : (t.deliver alu r v).entry = t.entry := by cases alu <;> cases r <;> rfl
@[simp] theorem Task.deliver_eff (t : Task) (alu : Bool) (r : SReg) (v : Val) : (t.deliver alu r v).eff = t.eff := by cases alu <;> cases r <;> rfl
@[simp] theorem Task.deliver_age (t : Task) (alu : Bool) (r : SReg) (v : Val) : (t.deliver alu r v).age = t.age := by cases alu <;> cases r <;> rfl
@[simp] theorem Task.deliver_yieldTo (t : Task) (alu : Bool) (r : SReg) (v : Val) : (t.deliver alu r v).yieldTo = t.yieldTo := by cases alu <;> cases r <;> rfl
@[simp] theorem Task.deliver_passOver (t : Task) (alu : Bool) (r : SReg) (v : Val) : (t.deliver alu r v).passOver = t.passOver := by cases alu <;> cases r <;> rfl
@[simp] theorem Task.deliver_predict (t : Task) (alu : Bool) (r : SReg) (v : Val) : (t.deliver alu r v).predict = t.predict := by cases alu <;> cases r <;> rfl
@[simp] theorem Task.deliver_parity (t : Task) (alu : Bool) (r : SReg) (v : Val) : (t.deliver alu r v).parity = t.parity := by cases alu <;> cases r <;> rfl
@[simp] theorem Task.deliver_gpoison (t : Task) (alu : Bool) (r : SReg) (v : Val) : (t.deliver alu r v).gpoison = t.gpoison := by cases alu <;> cases r <;> rfl
@[simp] theorem Task.deliver_arrival (t : Task) (alu : Bool) (r : SReg) (v : Val) : (t.deliver alu r v).arrival = t.arrival := by cases alu <;> cases r <;> rfl
@[simp] theorem Task.deliver_wireOut (t : Task) (alu : Bool) (r : SReg) (v : Val) : (t.deliver alu r v).wireOut = t.wireOut := by cases alu <;> cases r <;> rfl
@[simp] theorem Task.deliver_single (t : Task) (alu : Bool) (r : SReg) (v : Val) : (t.deliver alu r v).single = t.single := by cases alu <;> cases r <;> rfl
@[simp] theorem Task.deliver_onHearth (t : Task) (alu : Bool) (r : SReg) (v : Val) : (t.deliver alu r v).onHearth = t.onHearth := by cases alu <;> cases r <;> rfl
@[simp] theorem Task.deliver_qin (t : Task) (alu : Bool) (r : SReg) (v : Val) : (t.deliver alu r v).qin = t.qin := by cases alu <;> cases r <;> rfl
@[simp] theorem Task.deliver_qtake (t : Task) (alu : Bool) (r : SReg) (v : Val) : (t.deliver alu r v).qtake = t.qtake := by cases alu <;> cases r <;> rfl
@[simp] theorem Task.orFlags_status (t : Task) (fl : Nat) (l : Label) : (t.orFlags fl l).status = t.status := by unfold Task.orFlags; split <;> rfl
@[simp] theorem Task.orFlags_g (t : Task) (fl : Nat) (l : Label) : (t.orFlags fl l).g = t.g := by unfold Task.orFlags; split <;> rfl
@[simp] theorem Task.orFlags_l (t : Task) (fl : Nat) (l : Label) : (t.orFlags fl l).l = t.l := by unfold Task.orFlags; split <;> rfl
@[simp] theorem Task.orFlags_pc (t : Task) (fl : Nat) (l : Label) : (t.orFlags fl l).pc = t.pc := by unfold Task.orFlags; split <;> rfl
@[simp] theorem Task.orFlags_tid (t : Task) (fl : Nat) (l : Label) : (t.orFlags fl l).tid = t.tid := by unfold Task.orFlags; split <;> rfl
@[simp] theorem Task.orFlags_tidReg (t : Task) (fl : Nat) (l : Label) : (t.orFlags fl l).tidReg = t.tidReg := by unfold Task.orFlags; split <;> rfl
@[simp] theorem Task.orFlags_tlevel (t : Task) (fl : Nat) (l : Label) : (t.orFlags fl l).tlevel = t.tlevel := by unfold Task.orFlags; split <;> rfl
@[simp] theorem Task.orFlags_utvec (t : Task) (fl : Nat) (l : Label) : (t.orFlags fl l).utvec = t.utvec := by unfold Task.orFlags; split <;> rfl
@[simp] theorem Task.orFlags_uepc (t : Task) (fl : Nat) (l : Label) : (t.orFlags fl l).uepc = t.uepc := by unfold Task.orFlags; split <;> rfl
@[simp] theorem Task.orFlags_ucause (t : Task) (fl : Nat) (l : Label) : (t.orFlags fl l).ucause = t.ucause := by unfold Task.orFlags; split <;> rfl
@[simp] theorem Task.orFlags_uval (t : Task) (fl : Nat) (l : Label) : (t.orFlags fl l).uval = t.uval := by unfold Task.orFlags; split <;> rfl
@[simp] theorem Task.orFlags_unitPc (t : Task) (fl : Nat) (l : Label) : (t.orFlags fl l).unitPc = t.unitPc := by unfold Task.orFlags; split <;> rfl
@[simp] theorem Task.orFlags_word (t : Task) (fl : Nat) (l : Label) : (t.orFlags fl l).word = t.word := by unfold Task.orFlags; split <;> rfl
@[simp] theorem Task.orFlags_pfxImm (t : Task) (fl : Nat) (l : Label) : (t.orFlags fl l).pfxImm = t.pfxImm := by unfold Task.orFlags; split <;> rfl
@[simp] theorem Task.orFlags_pfxMod (t : Task) (fl : Nat) (l : Label) : (t.orFlags fl l).pfxMod = t.pfxMod := by unfold Task.orFlags; split <;> rfl
@[simp] theorem Task.orFlags_midGroup (t : Task) (fl : Nat) (l : Label) : (t.orFlags fl l).midGroup = t.midGroup := by unfold Task.orFlags; split <;> rfl
@[simp] theorem Task.orFlags_buf (t : Task) (fl : Nat) (l : Label) : (t.orFlags fl l).buf = t.buf := by unfold Task.orFlags; split <;> rfl
@[simp] theorem Task.orFlags_lost (t : Task) (fl : Nat) (l : Label) : (t.orFlags fl l).lost = t.lost := by unfold Task.orFlags; split <;> rfl
@[simp] theorem Task.orFlags_held (t : Task) (fl : Nat) (l : Label) : (t.orFlags fl l).held = t.held := by unfold Task.orFlags; split <;> rfl
@[simp] theorem Task.orFlags_frames (t : Task) (fl : Nat) (l : Label) : (t.orFlags fl l).frames = t.frames := by unfold Task.orFlags; split <;> rfl
@[simp] theorem Task.orFlags_mark (t : Task) (fl : Nat) (l : Label) : (t.orFlags fl l).mark = t.mark := by unfold Task.orFlags; split <;> rfl
@[simp] theorem Task.orFlags_ops (t : Task) (fl : Nat) (l : Label) : (t.orFlags fl l).ops = t.ops := by unfold Task.orFlags; split <;> rfl
@[simp] theorem Task.orFlags_unsent (t : Task) (fl : Nat) (l : Label) : (t.orFlags fl l).unsent = t.unsent := by unfold Task.orFlags; split <;> rfl
@[simp] theorem Task.orFlags_replay (t : Task) (fl : Nat) (l : Label) : (t.orFlags fl l).replay = t.replay := by unfold Task.orFlags; split <;> rfl
@[simp] theorem Task.orFlags_inbox (t : Task) (fl : Nat) (l : Label) : (t.orFlags fl l).inbox = t.inbox := by unfold Task.orFlags; split <;> rfl
@[simp] theorem Task.orFlags_resv (t : Task) (fl : Nat) (l : Label) : (t.orFlags fl l).resv = t.resv := by unfold Task.orFlags; split <;> rfl
@[simp] theorem Task.orFlags_noticed (t : Task) (fl : Nat) (l : Label) : (t.orFlags fl l).noticed = t.noticed := by unfold Task.orFlags; split <;> rfl
@[simp] theorem Task.orFlags_anchor (t : Task) (fl : Nat) (l : Label) : (t.orFlags fl l).anchor = t.anchor := by unfold Task.orFlags; split <;> rfl
@[simp] theorem Task.orFlags_leases (t : Task) (fl : Nat) (l : Label) : (t.orFlags fl l).leases = t.leases := by unfold Task.orFlags; split <;> rfl
@[simp] theorem Task.orFlags_handlerOf (t : Task) (fl : Nat) (l : Label) : (t.orFlags fl l).handlerOf = t.handlerOf := by unfold Task.orFlags; split <;> rfl
@[simp] theorem Task.orFlags_pins (t : Task) (fl : Nat) (l : Label) : (t.orFlags fl l).pins = t.pins := by unfold Task.orFlags; split <;> rfl
@[simp] theorem Task.orFlags_deferred (t : Task) (fl : Nat) (l : Label) : (t.orFlags fl l).deferred = t.deferred := by unfold Task.orFlags; split <;> rfl
@[simp] theorem Task.orFlags_bounced (t : Task) (fl : Nat) (l : Label) : (t.orFlags fl l).bounced = t.bounced := by unfold Task.orFlags; split <;> rfl
@[simp] theorem Task.orFlags_trap (t : Task) (fl : Nat) (l : Label) : (t.orFlags fl l).trap = t.trap := by unfold Task.orFlags; split <;> rfl
@[simp] theorem Task.orFlags_trapped (t : Task) (fl : Nat) (l : Label) : (t.orFlags fl l).trapped = t.trapped := by unfold Task.orFlags; split <;> rfl
@[simp] theorem Task.orFlags_fromRing (t : Task) (fl : Nat) (l : Label) : (t.orFlags fl l).fromRing = t.fromRing := by unfold Task.orFlags; split <;> rfl
@[simp] theorem Task.orFlags_member (t : Task) (fl : Nat) (l : Label) : (t.orFlags fl l).member = t.member := by unfold Task.orFlags; split <;> rfl
@[simp] theorem Task.orFlags_ceil (t : Task) (fl : Nat) (l : Label) : (t.orFlags fl l).ceil = t.ceil := by unfold Task.orFlags; split <;> rfl
@[simp] theorem Task.orFlags_job (t : Task) (fl : Nat) (l : Label) : (t.orFlags fl l).job = t.job := by unfold Task.orFlags; split <;> rfl
@[simp] theorem Task.orFlags_launch (t : Task) (fl : Nat) (l : Label) : (t.orFlags fl l).launch = t.launch := by unfold Task.orFlags; split <;> rfl
@[simp] theorem Task.orFlags_entry (t : Task) (fl : Nat) (l : Label) : (t.orFlags fl l).entry = t.entry := by unfold Task.orFlags; split <;> rfl
@[simp] theorem Task.orFlags_eff (t : Task) (fl : Nat) (l : Label) : (t.orFlags fl l).eff = t.eff := by unfold Task.orFlags; split <;> rfl
@[simp] theorem Task.orFlags_age (t : Task) (fl : Nat) (l : Label) : (t.orFlags fl l).age = t.age := by unfold Task.orFlags; split <;> rfl
@[simp] theorem Task.orFlags_yieldTo (t : Task) (fl : Nat) (l : Label) : (t.orFlags fl l).yieldTo = t.yieldTo := by unfold Task.orFlags; split <;> rfl
@[simp] theorem Task.orFlags_passOver (t : Task) (fl : Nat) (l : Label) : (t.orFlags fl l).passOver = t.passOver := by unfold Task.orFlags; split <;> rfl
@[simp] theorem Task.orFlags_predict (t : Task) (fl : Nat) (l : Label) : (t.orFlags fl l).predict = t.predict := by unfold Task.orFlags; split <;> rfl
@[simp] theorem Task.orFlags_parity (t : Task) (fl : Nat) (l : Label) : (t.orFlags fl l).parity = t.parity := by unfold Task.orFlags; split <;> rfl
@[simp] theorem Task.orFlags_gpoison (t : Task) (fl : Nat) (l : Label) : (t.orFlags fl l).gpoison = t.gpoison := by unfold Task.orFlags; split <;> rfl
@[simp] theorem Task.orFlags_arrival (t : Task) (fl : Nat) (l : Label) : (t.orFlags fl l).arrival = t.arrival := by unfold Task.orFlags; split <;> rfl
@[simp] theorem Task.orFlags_wireOut (t : Task) (fl : Nat) (l : Label) : (t.orFlags fl l).wireOut = t.wireOut := by unfold Task.orFlags; split <;> rfl
@[simp] theorem Task.orFlags_single (t : Task) (fl : Nat) (l : Label) : (t.orFlags fl l).single = t.single := by unfold Task.orFlags; split <;> rfl
@[simp] theorem Task.orFlags_onHearth (t : Task) (fl : Nat) (l : Label) : (t.orFlags fl l).onHearth = t.onHearth := by unfold Task.orFlags; split <;> rfl
@[simp] theorem Task.orFlags_qin (t : Task) (fl : Nat) (l : Label) : (t.orFlags fl l).qin = t.qin := by unfold Task.orFlags; split <;> rfl
@[simp] theorem Task.orFlags_qtake (t : Task) (fl : Nat) (l : Label) : (t.orFlags fl l).qtake = t.qtake := by unfold Task.orFlags; split <;> rfl
@[simp] theorem Task.receive_status (t : Task) (m : Msg) : (t.receive m).status = t.status := rfl
@[simp] theorem Task.receive_g (t : Task) (m : Msg) : (t.receive m).g = t.g := rfl
@[simp] theorem Task.receive_l (t : Task) (m : Msg) : (t.receive m).l = t.l := rfl
@[simp] theorem Task.receive_pc (t : Task) (m : Msg) : (t.receive m).pc = t.pc := rfl
@[simp] theorem Task.receive_tsw (t : Task) (m : Msg) : (t.receive m).tsw = t.tsw := rfl
@[simp] theorem Task.receive_clabel (t : Task) (m : Msg) : (t.receive m).clabel = t.clabel := rfl
@[simp] theorem Task.receive_tid (t : Task) (m : Msg) : (t.receive m).tid = t.tid := rfl
@[simp] theorem Task.receive_tidReg (t : Task) (m : Msg) : (t.receive m).tidReg = t.tidReg := rfl
@[simp] theorem Task.receive_tlevel (t : Task) (m : Msg) : (t.receive m).tlevel = t.tlevel := rfl
@[simp] theorem Task.receive_utvec (t : Task) (m : Msg) : (t.receive m).utvec = t.utvec := rfl
@[simp] theorem Task.receive_uepc (t : Task) (m : Msg) : (t.receive m).uepc = t.uepc := rfl
@[simp] theorem Task.receive_ucause (t : Task) (m : Msg) : (t.receive m).ucause = t.ucause := rfl
@[simp] theorem Task.receive_uval (t : Task) (m : Msg) : (t.receive m).uval = t.uval := rfl
@[simp] theorem Task.receive_unitPc (t : Task) (m : Msg) : (t.receive m).unitPc = t.unitPc := rfl
@[simp] theorem Task.receive_word (t : Task) (m : Msg) : (t.receive m).word = t.word := rfl
@[simp] theorem Task.receive_pfxImm (t : Task) (m : Msg) : (t.receive m).pfxImm = t.pfxImm := rfl
@[simp] theorem Task.receive_pfxMod (t : Task) (m : Msg) : (t.receive m).pfxMod = t.pfxMod := rfl
@[simp] theorem Task.receive_midGroup (t : Task) (m : Msg) : (t.receive m).midGroup = t.midGroup := rfl
@[simp] theorem Task.receive_buf (t : Task) (m : Msg) : (t.receive m).buf = t.buf := rfl
@[simp] theorem Task.receive_lost (t : Task) (m : Msg) : (t.receive m).lost = t.lost := rfl
@[simp] theorem Task.receive_held (t : Task) (m : Msg) : (t.receive m).held = t.held := rfl
@[simp] theorem Task.receive_frames (t : Task) (m : Msg) : (t.receive m).frames = t.frames := rfl
@[simp] theorem Task.receive_mark (t : Task) (m : Msg) : (t.receive m).mark = t.mark := rfl
@[simp] theorem Task.receive_ops (t : Task) (m : Msg) : (t.receive m).ops = t.ops := rfl
@[simp] theorem Task.receive_unsent (t : Task) (m : Msg) : (t.receive m).unsent = t.unsent := rfl
@[simp] theorem Task.receive_replay (t : Task) (m : Msg) : (t.receive m).replay = t.replay := rfl
@[simp] theorem Task.receive_noticed (t : Task) (m : Msg) : (t.receive m).noticed = t.noticed := rfl
@[simp] theorem Task.receive_anchor (t : Task) (m : Msg) : (t.receive m).anchor = t.anchor := rfl
@[simp] theorem Task.receive_leases (t : Task) (m : Msg) : (t.receive m).leases = t.leases := rfl
@[simp] theorem Task.receive_handlerOf (t : Task) (m : Msg) : (t.receive m).handlerOf = t.handlerOf := rfl
@[simp] theorem Task.receive_pins (t : Task) (m : Msg) : (t.receive m).pins = t.pins := rfl
@[simp] theorem Task.receive_deferred (t : Task) (m : Msg) : (t.receive m).deferred = t.deferred := rfl
@[simp] theorem Task.receive_bounced (t : Task) (m : Msg) : (t.receive m).bounced = t.bounced := rfl
@[simp] theorem Task.receive_trap (t : Task) (m : Msg) : (t.receive m).trap = t.trap := rfl
@[simp] theorem Task.receive_trapped (t : Task) (m : Msg) : (t.receive m).trapped = t.trapped := rfl
@[simp] theorem Task.receive_fromRing (t : Task) (m : Msg) : (t.receive m).fromRing = t.fromRing := rfl
@[simp] theorem Task.receive_member (t : Task) (m : Msg) : (t.receive m).member = t.member := rfl
@[simp] theorem Task.receive_ceil (t : Task) (m : Msg) : (t.receive m).ceil = t.ceil := rfl
@[simp] theorem Task.receive_job (t : Task) (m : Msg) : (t.receive m).job = t.job := rfl
@[simp] theorem Task.receive_launch (t : Task) (m : Msg) : (t.receive m).launch = t.launch := rfl
@[simp] theorem Task.receive_entry (t : Task) (m : Msg) : (t.receive m).entry = t.entry := rfl
@[simp] theorem Task.receive_eff (t : Task) (m : Msg) : (t.receive m).eff = t.eff := rfl
@[simp] theorem Task.receive_age (t : Task) (m : Msg) : (t.receive m).age = t.age := rfl
@[simp] theorem Task.receive_yieldTo (t : Task) (m : Msg) : (t.receive m).yieldTo = t.yieldTo := rfl
@[simp] theorem Task.receive_passOver (t : Task) (m : Msg) : (t.receive m).passOver = t.passOver := rfl
@[simp] theorem Task.receive_predict (t : Task) (m : Msg) : (t.receive m).predict = t.predict := rfl
@[simp] theorem Task.receive_parity (t : Task) (m : Msg) : (t.receive m).parity = t.parity := rfl
@[simp] theorem Task.receive_gpoison (t : Task) (m : Msg) : (t.receive m).gpoison = t.gpoison := rfl
@[simp] theorem Task.receive_arrival (t : Task) (m : Msg) : (t.receive m).arrival = t.arrival := rfl
@[simp] theorem Task.receive_wireOut (t : Task) (m : Msg) : (t.receive m).wireOut = t.wireOut := rfl
@[simp] theorem Task.receive_single (t : Task) (m : Msg) : (t.receive m).single = t.single := rfl
@[simp] theorem Task.receive_onHearth (t : Task) (m : Msg) : (t.receive m).onHearth = t.onHearth := rfl
@[simp] theorem Task.receive_qin (t : Task) (m : Msg) : (t.receive m).qin = t.qin := rfl
@[simp] theorem Task.receive_qtake (t : Task) (m : Msg) : (t.receive m).qtake = t.qtake := rfl
@[simp] theorem Task.freeResv_status (t : Task) : t.freeResv.status = t.status := rfl
@[simp] theorem Task.freeResv_g (t : Task) : t.freeResv.g = t.g := rfl
@[simp] theorem Task.freeResv_l (t : Task) : t.freeResv.l = t.l := rfl
@[simp] theorem Task.freeResv_pc (t : Task) : t.freeResv.pc = t.pc := rfl
@[simp] theorem Task.freeResv_tsw (t : Task) : t.freeResv.tsw = t.tsw := rfl
@[simp] theorem Task.freeResv_clabel (t : Task) : t.freeResv.clabel = t.clabel := rfl
@[simp] theorem Task.freeResv_tid (t : Task) : t.freeResv.tid = t.tid := rfl
@[simp] theorem Task.freeResv_tidReg (t : Task) : t.freeResv.tidReg = t.tidReg := rfl
@[simp] theorem Task.freeResv_tlevel (t : Task) : t.freeResv.tlevel = t.tlevel := rfl
@[simp] theorem Task.freeResv_utvec (t : Task) : t.freeResv.utvec = t.utvec := rfl
@[simp] theorem Task.freeResv_uepc (t : Task) : t.freeResv.uepc = t.uepc := rfl
@[simp] theorem Task.freeResv_ucause (t : Task) : t.freeResv.ucause = t.ucause := rfl
@[simp] theorem Task.freeResv_uval (t : Task) : t.freeResv.uval = t.uval := rfl
@[simp] theorem Task.freeResv_unitPc (t : Task) : t.freeResv.unitPc = t.unitPc := rfl
@[simp] theorem Task.freeResv_word (t : Task) : t.freeResv.word = t.word := rfl
@[simp] theorem Task.freeResv_pfxImm (t : Task) : t.freeResv.pfxImm = t.pfxImm := rfl
@[simp] theorem Task.freeResv_pfxMod (t : Task) : t.freeResv.pfxMod = t.pfxMod := rfl
@[simp] theorem Task.freeResv_midGroup (t : Task) : t.freeResv.midGroup = t.midGroup := rfl
@[simp] theorem Task.freeResv_buf (t : Task) : t.freeResv.buf = t.buf := rfl
@[simp] theorem Task.freeResv_lost (t : Task) : t.freeResv.lost = t.lost := rfl
@[simp] theorem Task.freeResv_held (t : Task) : t.freeResv.held = t.held := rfl
@[simp] theorem Task.freeResv_frames (t : Task) : t.freeResv.frames = t.frames := rfl
@[simp] theorem Task.freeResv_mark (t : Task) : t.freeResv.mark = t.mark := rfl
@[simp] theorem Task.freeResv_ops (t : Task) : t.freeResv.ops = t.ops := rfl
@[simp] theorem Task.freeResv_unsent (t : Task) : t.freeResv.unsent = t.unsent := rfl
@[simp] theorem Task.freeResv_replay (t : Task) : t.freeResv.replay = t.replay := rfl
@[simp] theorem Task.freeResv_inbox (t : Task) : t.freeResv.inbox = t.inbox := rfl
@[simp] theorem Task.freeResv_noticed (t : Task) : t.freeResv.noticed = t.noticed := rfl
@[simp] theorem Task.freeResv_anchor (t : Task) : t.freeResv.anchor = t.anchor := rfl
@[simp] theorem Task.freeResv_leases (t : Task) : t.freeResv.leases = t.leases := rfl
@[simp] theorem Task.freeResv_handlerOf (t : Task) : t.freeResv.handlerOf = t.handlerOf := rfl
@[simp] theorem Task.freeResv_pins (t : Task) : t.freeResv.pins = t.pins := rfl
@[simp] theorem Task.freeResv_deferred (t : Task) : t.freeResv.deferred = t.deferred := rfl
@[simp] theorem Task.freeResv_bounced (t : Task) : t.freeResv.bounced = t.bounced := rfl
@[simp] theorem Task.freeResv_trap (t : Task) : t.freeResv.trap = t.trap := rfl
@[simp] theorem Task.freeResv_trapped (t : Task) : t.freeResv.trapped = t.trapped := rfl
@[simp] theorem Task.freeResv_fromRing (t : Task) : t.freeResv.fromRing = t.fromRing := rfl
@[simp] theorem Task.freeResv_member (t : Task) : t.freeResv.member = t.member := rfl
@[simp] theorem Task.freeResv_ceil (t : Task) : t.freeResv.ceil = t.ceil := rfl
@[simp] theorem Task.freeResv_job (t : Task) : t.freeResv.job = t.job := rfl
@[simp] theorem Task.freeResv_launch (t : Task) : t.freeResv.launch = t.launch := rfl
@[simp] theorem Task.freeResv_entry (t : Task) : t.freeResv.entry = t.entry := rfl
@[simp] theorem Task.freeResv_eff (t : Task) : t.freeResv.eff = t.eff := rfl
@[simp] theorem Task.freeResv_age (t : Task) : t.freeResv.age = t.age := rfl
@[simp] theorem Task.freeResv_yieldTo (t : Task) : t.freeResv.yieldTo = t.yieldTo := rfl
@[simp] theorem Task.freeResv_passOver (t : Task) : t.freeResv.passOver = t.passOver := rfl
@[simp] theorem Task.freeResv_predict (t : Task) : t.freeResv.predict = t.predict := rfl
@[simp] theorem Task.freeResv_parity (t : Task) : t.freeResv.parity = t.parity := rfl
@[simp] theorem Task.freeResv_gpoison (t : Task) : t.freeResv.gpoison = t.gpoison := rfl
@[simp] theorem Task.freeResv_arrival (t : Task) : t.freeResv.arrival = t.arrival := rfl
@[simp] theorem Task.freeResv_wireOut (t : Task) : t.freeResv.wireOut = t.wireOut := rfl
@[simp] theorem Task.freeResv_single (t : Task) : t.freeResv.single = t.single := rfl
@[simp] theorem Task.freeResv_onHearth (t : Task) : t.freeResv.onHearth = t.onHearth := rfl
@[simp] theorem Task.freeResv_qin (t : Task) : t.freeResv.qin = t.qin := rfl
@[simp] theorem Task.freeResv_qtake (t : Task) : t.freeResv.qtake = t.qtake := rfl
@[simp] theorem State.raiseLabel_c (s : State) (l : Label) : (s.raiseLabel l).c = s.c := rfl
@[simp] theorem State.raiseLabel_d (s : State) (l : Label) : (s.raiseLabel l).d = s.d := rfl
@[simp] theorem State.modAnchor_c (s : State) (f : Anchor → Anchor) : (s.modAnchor f).c = s.c := rfl
@[simp] theorem State.modAnchor_d (s : State) (f : Anchor → Anchor) : (s.modAnchor f).d = s.d := rfl
@[simp] theorem State.record_t (s : State) (n : Nat) (t : Task) (l : Label) (x y : Word) : (s.record n t l x y).t = s.t := rfl
@[simp] theorem State.record_d (s : State) (n : Nat) (t : Task) (l : Label) (x y : Word) : (s.record n t l x y).d = s.d := rfl
@[simp] theorem State.recordNone_t (s : State) (n : Nat) (x y : Word) : (s.recordNone n x y).t = s.t := rfl
@[simp] theorem State.recordNone_d (s : State) (n : Nat) (x y : Word) : (s.recordNone n x y).d = s.d := rfl
@[simp] theorem State.count_t (s : State) (n : Nat) : (s.count n).t = s.t := rfl
@[simp] theorem State.count_d (s : State) (n : Nat) : (s.count n).d = s.d := rfl
@[simp] theorem State.countDie_t (s : State) (die : BitVec 2) (n k : Nat) : (s.countDie die n k).t = s.t := rfl
@[simp] theorem State.countDie_c (s : State) (die : BitVec 2) (n k : Nat) : (s.countDie die n k).c = s.c := rfl
@[simp] theorem State.send_t (s : State) (dst : CoreId) (k : MsgKind) : (s.send dst k).t = s.t := rfl
@[simp] theorem State.send_c (s : State) (dst : CoreId) (k : MsgKind) : (s.send dst k).c = s.c := rfl
@[simp] theorem State.schedule_t (s : State) (l : List Turn) : (s.schedule l).t = s.t := rfl
@[simp] theorem State.schedule_c (s : State) (l : List Turn) : (s.schedule l).c = s.c := rfl
@[simp] theorem State.modPart_t (s : State) (p : BitVec 2) (f : Part → Part) : (s.modPart p f).t = s.t := rfl
@[simp] theorem State.modPart_c (s : State) (p : BitVec 2) (f : Part → Part) : (s.modPart p f).c = s.c := rfl
@[simp] theorem State.wake_d (s : State) : s.wake.d = s.d := rfl
@[simp] theorem State.tick_t (s : State) : s.tick.t = s.t := rfl
@[simp] theorem State.putVector_c (s : State) (r : VReg) (e : Entry) : (s.putVector r e).c = s.c := by cases r <;> rfl
@[simp] theorem State.putVector_d (s : State) (r : VReg) (e : Entry) : (s.putVector r e).d = s.d := by cases r <;> rfl
@[simp] theorem Core.setSlot_id (c : Core) (n : Nat) (t : Task) : (c.setSlot n t).id = c.id := rfl
@[simp] theorem Core.setSlot_fenced (c : Core) (n : Nat) (t : Task) : (c.setSlot n t).fenced = c.fenced := rfl
@[simp] theorem Core.setSlot_port (c : Core) (n : Nat) (t : Task) : (c.setSlot n t).port = c.port := rfl
@[simp] theorem Core.setSlot_lastAt (c : Core) (n : Nat) (t : Task) : (c.setSlot n t).lastAt = c.lastAt := rfl
@[simp] theorem Core.setSlot_lastClass (c : Core) (n : Nat) (t : Task) : (c.setSlot n t).lastClass = c.lastClass := rfl
@[simp] theorem Core.setSlot_seq (c : Core) (n : Nat) (t : Task) : (c.setSlot n t).seq = c.seq := rfl
@[simp] theorem Core.setSlot_seqWraps (c : Core) (n : Nat) (t : Task) : (c.setSlot n t).seqWraps = c.seqWraps := rfl
@[simp] theorem Core.setSlot_spad (c : Core) (n : Nat) (t : Task) : (c.setSlot n t).spad = c.spad := rfl
@[simp] theorem Core.setSlot_spadJob (c : Core) (n : Nat) (t : Task) : (c.setSlot n t).spadJob = c.spadJob := rfl
@[simp] theorem Core.setSlot_dirty (c : Core) (n : Nat) (t : Task) : (c.setSlot n t).dirty = c.dirty := rfl
@[simp] theorem Core.setSlot_dqBase (c : Core) (n : Nat) (t : Task) : (c.setSlot n t).dqBase = c.dqBase := rfl
@[simp] theorem Core.setSlot_dqLimit (c : Core) (n : Nat) (t : Task) : (c.setSlot n t).dqLimit = c.dqLimit := rfl
@[simp] theorem Core.setSlot_dqBot (c : Core) (n : Nat) (t : Task) : (c.setSlot n t).dqBot = c.dqBot := rfl
@[simp] theorem Core.setSlot_dqTop (c : Core) (n : Nat) (t : Task) : (c.setSlot n t).dqTop = c.dqTop := rfl
@[simp] theorem Core.setSlot_dqMeta (c : Core) (n : Nat) (t : Task) : (c.setSlot n t).dqMeta = c.dqMeta := rfl
@[simp] theorem Core.setSlot_jsel (c : Core) (n : Nat) (t : Task) : (c.setSlot n t).jsel = c.jsel := rfl
@[simp] theorem Core.setSlot_barown (c : Core) (n : Nat) (t : Task) : (c.setSlot n t).barown = c.barown := rfl
@[simp] theorem Core.setSlot_noticeReg (c : Core) (n : Nat) (t : Task) : (c.setSlot n t).noticeReg = c.noticeReg := rfl
@[simp] theorem Core.setSlot_jobs (c : Core) (n : Nat) (t : Task) : (c.setSlot n t).jobs = c.jobs := rfl
@[simp] theorem Core.setSlot_scb (c : Core) (n : Nat) (t : Task) : (c.setSlot n t).scb = c.scb := rfl
@[simp] theorem Core.setSlot_stores (c : Core) (n : Nat) (t : Task) : (c.setSlot n t).stores = c.stores := rfl
@[simp] theorem Core.setSlot_cache (c : Core) (n : Nat) (t : Task) : (c.setSlot n t).cache = c.cache := rfl
@[simp] theorem Core.setSlot_tlb (c : Core) (n : Nat) (t : Task) : (c.setSlot n t).tlb = c.tlb := rfl
@[simp] theorem Core.setSlot_tiles (c : Core) (n : Nat) (t : Task) : (c.setSlot n t).tiles = c.tiles := rfl
@[simp] theorem Core.setSlot_reserved (c : Core) (n : Nat) (t : Task) : (c.setSlot n t).reserved = c.reserved := rfl
@[simp] theorem Core.setSlot_anchorQ (c : Core) (n : Nat) (t : Task) : (c.setSlot n t).anchorQ = c.anchorQ := rfl
@[simp] theorem Core.setSlot_upcallQ (c : Core) (n : Nat) (t : Task) : (c.setSlot n t).upcallQ = c.upcallQ := rfl
@[simp] theorem Core.setSlot_startQ (c : Core) (n : Nat) (t : Task) : (c.setSlot n t).startQ = c.startQ := rfl
@[simp] theorem Core.setSlot_staging (c : Core) (n : Nat) (t : Task) : (c.setSlot n t).staging = c.staging := rfl
@[simp] theorem Core.setSlot_pendFires (c : Core) (n : Nat) (t : Task) : (c.setSlot n t).pendFires = c.pendFires := rfl
@[simp] theorem Core.setSlot_mx (c : Core) (n : Nat) (t : Task) : (c.setSlot n t).mx = c.mx := rfl
@[simp] theorem Core.setSlot_cp (c : Core) (n : Nat) (t : Task) : (c.setSlot n t).cp = c.cp := rfl
@[simp] theorem Core.setSlot_srt (c : Core) (n : Nat) (t : Task) : (c.setSlot n t).srt = c.srt := rfl
@[simp] theorem Core.setSlot_hearth (c : Core) (n : Nat) (t : Task) : (c.setSlot n t).hearth = c.hearth := rfl
@[simp] theorem Core.setSlot_search (c : Core) (n : Nat) (t : Task) : (c.setSlot n t).search = c.search := rfl
@[simp] theorem Core.setSlot_lastVictim (c : Core) (n : Nat) (t : Task) : (c.setSlot n t).lastVictim = c.lastVictim := rfl
@[simp] theorem Core.setSlot_region (c : Core) (n : Nat) (t : Task) : (c.setSlot n t).region = c.region := rfl
@[simp] theorem Core.setSlot_wphase (c : Core) (n : Nat) (t : Task) : (c.setSlot n t).wphase = c.wphase := rfl
@[simp] theorem Core.setSlot_warrived (c : Core) (n : Nat) (t : Task) : (c.setSlot n t).warrived = c.warrived := rfl
@[simp] theorem Core.setSlot_trace (c : Core) (n : Nat) (t : Task) : (c.setSlot n t).trace = c.trace := rfl
@[simp] theorem Core.setSlot_bank (c : Core) (n : Nat) (t : Task) : (c.setSlot n t).bank = c.bank := rfl
@[simp] theorem Core.setSlot_slotBal (c : Core) (n : Nat) (t : Task) : (c.setSlot n t).slotBal = c.slotBal := rfl
@[simp] theorem Core.setSlot_engBal (c : Core) (n : Nat) (t : Task) : (c.setSlot n t).engBal = c.engBal := rfl
@[simp] theorem Core.setJobRegs_id (c : Core) (j : JobRegs) : (c.setJobRegs j).id = c.id := rfl
@[simp] theorem Core.setJobRegs_fenced (c : Core) (j : JobRegs) : (c.setJobRegs j).fenced = c.fenced := rfl
@[simp] theorem Core.setJobRegs_port (c : Core) (j : JobRegs) : (c.setJobRegs j).port = c.port := rfl
@[simp] theorem Core.setJobRegs_slots (c : Core) (j : JobRegs) : (c.setJobRegs j).slots = c.slots := rfl
@[simp] theorem Core.setJobRegs_lastAt (c : Core) (j : JobRegs) : (c.setJobRegs j).lastAt = c.lastAt := rfl
@[simp] theorem Core.setJobRegs_lastClass (c : Core) (j : JobRegs) : (c.setJobRegs j).lastClass = c.lastClass := rfl
@[simp] theorem Core.setJobRegs_seq (c : Core) (j : JobRegs) : (c.setJobRegs j).seq = c.seq := rfl
@[simp] theorem Core.setJobRegs_seqWraps (c : Core) (j : JobRegs) : (c.setJobRegs j).seqWraps = c.seqWraps := rfl
@[simp] theorem Core.setJobRegs_spad (c : Core) (j : JobRegs) : (c.setJobRegs j).spad = c.spad := rfl
@[simp] theorem Core.setJobRegs_spadJob (c : Core) (j : JobRegs) : (c.setJobRegs j).spadJob = c.spadJob := rfl
@[simp] theorem Core.setJobRegs_dirty (c : Core) (j : JobRegs) : (c.setJobRegs j).dirty = c.dirty := rfl
@[simp] theorem Core.setJobRegs_dqBase (c : Core) (j : JobRegs) : (c.setJobRegs j).dqBase = c.dqBase := rfl
@[simp] theorem Core.setJobRegs_dqLimit (c : Core) (j : JobRegs) : (c.setJobRegs j).dqLimit = c.dqLimit := rfl
@[simp] theorem Core.setJobRegs_dqBot (c : Core) (j : JobRegs) : (c.setJobRegs j).dqBot = c.dqBot := rfl
@[simp] theorem Core.setJobRegs_dqTop (c : Core) (j : JobRegs) : (c.setJobRegs j).dqTop = c.dqTop := rfl
@[simp] theorem Core.setJobRegs_dqMeta (c : Core) (j : JobRegs) : (c.setJobRegs j).dqMeta = c.dqMeta := rfl
@[simp] theorem Core.setJobRegs_jsel (c : Core) (j : JobRegs) : (c.setJobRegs j).jsel = c.jsel := rfl
@[simp] theorem Core.setJobRegs_barown (c : Core) (j : JobRegs) : (c.setJobRegs j).barown = c.barown := rfl
@[simp] theorem Core.setJobRegs_noticeReg (c : Core) (j : JobRegs) : (c.setJobRegs j).noticeReg = c.noticeReg := rfl
@[simp] theorem Core.setJobRegs_scb (c : Core) (j : JobRegs) : (c.setJobRegs j).scb = c.scb := rfl
@[simp] theorem Core.setJobRegs_stores (c : Core) (j : JobRegs) : (c.setJobRegs j).stores = c.stores := rfl
@[simp] theorem Core.setJobRegs_cache (c : Core) (j : JobRegs) : (c.setJobRegs j).cache = c.cache := rfl
@[simp] theorem Core.setJobRegs_tlb (c : Core) (j : JobRegs) : (c.setJobRegs j).tlb = c.tlb := rfl
@[simp] theorem Core.setJobRegs_tiles (c : Core) (j : JobRegs) : (c.setJobRegs j).tiles = c.tiles := rfl
@[simp] theorem Core.setJobRegs_reserved (c : Core) (j : JobRegs) : (c.setJobRegs j).reserved = c.reserved := rfl
@[simp] theorem Core.setJobRegs_anchorQ (c : Core) (j : JobRegs) : (c.setJobRegs j).anchorQ = c.anchorQ := rfl
@[simp] theorem Core.setJobRegs_upcallQ (c : Core) (j : JobRegs) : (c.setJobRegs j).upcallQ = c.upcallQ := rfl
@[simp] theorem Core.setJobRegs_startQ (c : Core) (j : JobRegs) : (c.setJobRegs j).startQ = c.startQ := rfl
@[simp] theorem Core.setJobRegs_staging (c : Core) (j : JobRegs) : (c.setJobRegs j).staging = c.staging := rfl
@[simp] theorem Core.setJobRegs_pendFires (c : Core) (j : JobRegs) : (c.setJobRegs j).pendFires = c.pendFires := rfl
@[simp] theorem Core.setJobRegs_mx (c : Core) (j : JobRegs) : (c.setJobRegs j).mx = c.mx := rfl
@[simp] theorem Core.setJobRegs_cp (c : Core) (j : JobRegs) : (c.setJobRegs j).cp = c.cp := rfl
@[simp] theorem Core.setJobRegs_srt (c : Core) (j : JobRegs) : (c.setJobRegs j).srt = c.srt := rfl
@[simp] theorem Core.setJobRegs_hearth (c : Core) (j : JobRegs) : (c.setJobRegs j).hearth = c.hearth := rfl
@[simp] theorem Core.setJobRegs_search (c : Core) (j : JobRegs) : (c.setJobRegs j).search = c.search := rfl
@[simp] theorem Core.setJobRegs_lastVictim (c : Core) (j : JobRegs) : (c.setJobRegs j).lastVictim = c.lastVictim := rfl
@[simp] theorem Core.setJobRegs_region (c : Core) (j : JobRegs) : (c.setJobRegs j).region = c.region := rfl
@[simp] theorem Core.setJobRegs_wphase (c : Core) (j : JobRegs) : (c.setJobRegs j).wphase = c.wphase := rfl
@[simp] theorem Core.setJobRegs_warrived (c : Core) (j : JobRegs) : (c.setJobRegs j).warrived = c.warrived := rfl
@[simp] theorem Core.setJobRegs_trace (c : Core) (j : JobRegs) : (c.setJobRegs j).trace = c.trace := rfl
@[simp] theorem Core.setJobRegs_bank (c : Core) (j : JobRegs) : (c.setJobRegs j).bank = c.bank := rfl
@[simp] theorem Core.setJobRegs_slotBal (c : Core) (j : JobRegs) : (c.setJobRegs j).slotBal = c.slotBal := rfl
@[simp] theorem Core.setJobRegs_engBal (c : Core) (j : JobRegs) : (c.setJobRegs j).engBal = c.engBal := rfl
@[simp] theorem Device.modPart_agenda (d : Device) (p : BitVec 2) (f : Part → Part) : (d.modPart p f).agenda = d.agenda := rfl
@[simp] theorem Device.modPart_rota (d : Device) (p : BitVec 2) (f : Part → Part) : (d.modPart p f).rota = d.rota := rfl
@[simp] theorem Device.modPart_free (d : Device) (p : BitVec 2) (f : Part → Part) : (d.modPart p f).free = d.free := rfl
@[simp] theorem Device.modPart_nextOp (d : Device) (p : BitVec 2) (f : Part → Part) : (d.modPart p f).nextOp = d.nextOp := rfl
@[simp] theorem Device.modPart_cycle (d : Device) (p : BitVec 2) (f : Part → Part) : (d.modPart p f).cycle = d.cycle := rfl
@[simp] theorem Device.modPart_periods (d : Device) (p : BitVec 2) (f : Part → Part) : (d.modPart p f).periods = d.periods := rfl
@[simp] theorem Device.modPart_cores (d : Device) (p : BitVec 2) (f : Part → Part) : (d.modPart p f).cores = d.cores := rfl
@[simp] theorem Device.modPart_shared (d : Device) (p : BitVec 2) (f : Part → Part) : (d.modPart p f).shared = d.shared := rfl
@[simp] theorem Device.modPart_gmem (d : Device) (p : BitVec 2) (f : Part → Part) : (d.modPart p f).gmem = d.gmem := rfl
@[simp] theorem Device.modPart_decoded (d : Device) (p : BitVec 2) (f : Part → Part) : (d.modPart p f).decoded = d.decoded := rfl
@[simp] theorem Device.modPart_net (d : Device) (p : BitVec 2) (f : Part → Part) : (d.modPart p f).net = d.net := rfl
@[simp] theorem Device.modPart_orphans (d : Device) (p : BitVec 2) (f : Part → Part) : (d.modPart p f).orphans = d.orphans := rfl
@[simp] theorem Device.modPart_peerLines (d : Device) (p : BitVec 2) (f : Part → Part) : (d.modPart p f).peerLines = d.peerLines := rfl
@[simp] theorem Device.modPart_writes (d : Device) (p : BitVec 2) (f : Part → Part) : (d.modPart p f).writes = d.writes := rfl
@[simp] theorem Device.modPart_clusterLines (d : Device) (p : BitVec 2) (f : Part → Part) : (d.modPart p f).clusterLines = d.clusterLines := rfl
@[simp] theorem Device.modPart_barriers (d : Device) (p : BitVec 2) (f : Part → Part) : (d.modPart p f).barriers = d.barriers := rfl
@[simp] theorem Device.modPart_slices (d : Device) (p : BitVec 2) (f : Part → Part) : (d.modPart p f).slices = d.slices := rfl
@[simp] theorem Device.modPart_graphs (d : Device) (p : BitVec 2) (f : Part → Part) : (d.modPart p f).graphs = d.graphs := rfl
@[simp] theorem Device.modPart_generations (d : Device) (p : BitVec 2) (f : Part → Part) : (d.modPart p f).generations = d.generations := rfl
@[simp] theorem Device.modPart_launches (d : Device) (p : BitVec 2) (f : Part → Part) : (d.modPart p f).launches = d.launches := rfl
@[simp] theorem Device.modPart_saved (d : Device) (p : BitVec 2) (f : Part → Part) : (d.modPart p f).saved = d.saved := rfl
@[simp] theorem Device.modPart_saveAreas (d : Device) (p : BitVec 2) (f : Part → Part) : (d.modPart p f).saveAreas = d.saveAreas := rfl
@[simp] theorem Device.modPart_brfw (d : Device) (p : BitVec 2) (f : Part → Part) : (d.modPart p f).brfw = d.brfw := rfl
@[simp] theorem Device.modPart_funcs (d : Device) (p : BitVec 2) (f : Part → Part) : (d.modPart p f).funcs = d.funcs := rfl
@[simp] theorem Device.modPart_causes (d : Device) (p : BitVec 2) (f : Part → Part) : (d.modPart p f).causes = d.causes := rfl
@[simp] theorem Device.modPart_pidx (d : Device) (p : BitVec 2) (f : Part → Part) : (d.modPart p f).pidx = d.pidx := rfl
@[simp] theorem Device.modPart_cidx (d : Device) (p : BitVec 2) (f : Part → Part) : (d.modPart p f).cidx = d.cidx := rfl
@[simp] theorem Device.modPart_causeDrop (d : Device) (p : BitVec 2) (f : Part → Part) : (d.modPart p f).causeDrop = d.causeDrop := rfl
@[simp] theorem Device.modPart_msix (d : Device) (p : BitVec 2) (f : Part → Part) : (d.modPart p f).msix = d.msix := rfl
@[simp] theorem Device.modPart_msixArmed (d : Device) (p : BitVec 2) (f : Part → Part) : (d.modPart p f).msixArmed = d.msixArmed := rfl
@[simp] theorem Device.modPart_hdm (d : Device) (p : BitVec 2) (f : Part → Part) : (d.modPart p f).hdm = d.hdm := rfl
@[simp] theorem Device.modPart_fabric (d : Device) (p : BitVec 2) (f : Part → Part) : (d.modPart p f).fabric = d.fabric := rfl
@[simp] theorem Device.modPart_flips (d : Device) (p : BitVec 2) (f : Part → Part) : (d.modPart p f).flips = d.flips := rfl
@[simp] theorem Device.modPart_hostSees (d : Device) (p : BitVec 2) (f : Part → Part) : (d.modPart p f).hostSees = d.hostSees := rfl
@[simp] theorem Device.modPart_heldWork (d : Device) (p : BitVec 2) (f : Part → Part) : (d.modPart p f).heldWork = d.heldWork := rfl
@[simp] theorem Device.modPart_hostAtomic (d : Device) (p : BitVec 2) (f : Part → Part) : (d.modPart p f).hostAtomic = d.hostAtomic := rfl
@[simp] theorem Device.modPart_hostQueue (d : Device) (p : BitVec 2) (f : Part → Part) : (d.modPart p f).hostQueue = d.hostQueue := rfl
@[simp] theorem Device.modPart_dieBanks (d : Device) (p : BitVec 2) (f : Part → Part) : (d.modPart p f).dieBanks = d.dieBanks := rfl
@[simp] theorem Device.modPart_boot (d : Device) (p : BitVec 2) (f : Part → Part) : (d.modPart p f).boot = d.boot := rfl
@[simp] theorem Device.modPart_spdm (d : Device) (p : BitVec 2) (f : Part → Part) : (d.modPart p f).spdm = d.spdm := rfl
@[simp] theorem Device.modPart_qports (d : Device) (p : BitVec 2) (f : Part → Part) : (d.modPart p f).qports = d.qports := rfl
@[simp] theorem Device.modPart_withheld (d : Device) (p : BitVec 2) (f : Part → Part) : (d.modPart p f).withheld = d.withheld := rfl
@[simp] theorem Device.modPart_fencedSlices (d : Device) (p : BitVec 2) (f : Part → Part) : (d.modPart p f).fencedSlices = d.fencedSlices := rfl
@[simp] theorem Device.modPart_fencedChannels (d : Device) (p : BitVec 2) (f : Part → Part) : (d.modPart p f).fencedChannels = d.fencedChannels := rfl
@[simp] theorem Device.modPart_fencedDies (d : Device) (p : BitVec 2) (f : Part → Part) : (d.modPart p f).fencedDies = d.fencedDies := rfl
@[simp] theorem Device.modPart_used (d : Device) (p : BitVec 2) (f : Part → Part) : (d.modPart p f).used = d.used := rfl
@[simp] theorem Device.modPart_corrected (d : Device) (p : BitVec 2) (f : Part → Part) : (d.modPart p f).corrected = d.corrected := rfl
@[simp] theorem Device.modPart_dumps (d : Device) (p : BitVec 2) (f : Part → Part) : (d.modPart p f).dumps = d.dumps := rfl
@[simp] theorem Device.modLaunch_agenda (d : Device) (key : Nat) (f : Launch → Launch) : (d.modLaunch key f).agenda = d.agenda := rfl
@[simp] theorem Device.modLaunch_rota (d : Device) (key : Nat) (f : Launch → Launch) : (d.modLaunch key f).rota = d.rota := rfl
@[simp] theorem Device.modLaunch_free (d : Device) (key : Nat) (f : Launch → Launch) : (d.modLaunch key f).free = d.free := rfl
@[simp] theorem Device.modLaunch_nextOp (d : Device) (key : Nat) (f : Launch → Launch) : (d.modLaunch key f).nextOp = d.nextOp := rfl
@[simp] theorem Device.modLaunch_cycle (d : Device) (key : Nat) (f : Launch → Launch) : (d.modLaunch key f).cycle = d.cycle := rfl
@[simp] theorem Device.modLaunch_periods (d : Device) (key : Nat) (f : Launch → Launch) : (d.modLaunch key f).periods = d.periods := rfl
@[simp] theorem Device.modLaunch_cores (d : Device) (key : Nat) (f : Launch → Launch) : (d.modLaunch key f).cores = d.cores := rfl
@[simp] theorem Device.modLaunch_shared (d : Device) (key : Nat) (f : Launch → Launch) : (d.modLaunch key f).shared = d.shared := rfl
@[simp] theorem Device.modLaunch_gmem (d : Device) (key : Nat) (f : Launch → Launch) : (d.modLaunch key f).gmem = d.gmem := rfl
@[simp] theorem Device.modLaunch_decoded (d : Device) (key : Nat) (f : Launch → Launch) : (d.modLaunch key f).decoded = d.decoded := rfl
@[simp] theorem Device.modLaunch_net (d : Device) (key : Nat) (f : Launch → Launch) : (d.modLaunch key f).net = d.net := rfl
@[simp] theorem Device.modLaunch_orphans (d : Device) (key : Nat) (f : Launch → Launch) : (d.modLaunch key f).orphans = d.orphans := rfl
@[simp] theorem Device.modLaunch_peerLines (d : Device) (key : Nat) (f : Launch → Launch) : (d.modLaunch key f).peerLines = d.peerLines := rfl
@[simp] theorem Device.modLaunch_writes (d : Device) (key : Nat) (f : Launch → Launch) : (d.modLaunch key f).writes = d.writes := rfl
@[simp] theorem Device.modLaunch_clusterLines (d : Device) (key : Nat) (f : Launch → Launch) : (d.modLaunch key f).clusterLines = d.clusterLines := rfl
@[simp] theorem Device.modLaunch_barriers (d : Device) (key : Nat) (f : Launch → Launch) : (d.modLaunch key f).barriers = d.barriers := rfl
@[simp] theorem Device.modLaunch_slices (d : Device) (key : Nat) (f : Launch → Launch) : (d.modLaunch key f).slices = d.slices := rfl
@[simp] theorem Device.modLaunch_graphs (d : Device) (key : Nat) (f : Launch → Launch) : (d.modLaunch key f).graphs = d.graphs := rfl
@[simp] theorem Device.modLaunch_generations (d : Device) (key : Nat) (f : Launch → Launch) : (d.modLaunch key f).generations = d.generations := rfl
@[simp] theorem Device.modLaunch_saved (d : Device) (key : Nat) (f : Launch → Launch) : (d.modLaunch key f).saved = d.saved := rfl
@[simp] theorem Device.modLaunch_saveAreas (d : Device) (key : Nat) (f : Launch → Launch) : (d.modLaunch key f).saveAreas = d.saveAreas := rfl
@[simp] theorem Device.modLaunch_parts (d : Device) (key : Nat) (f : Launch → Launch) : (d.modLaunch key f).parts = d.parts := rfl
@[simp] theorem Device.modLaunch_brfw (d : Device) (key : Nat) (f : Launch → Launch) : (d.modLaunch key f).brfw = d.brfw := rfl
@[simp] theorem Device.modLaunch_funcs (d : Device) (key : Nat) (f : Launch → Launch) : (d.modLaunch key f).funcs = d.funcs := rfl
@[simp] theorem Device.modLaunch_causes (d : Device) (key : Nat) (f : Launch → Launch) : (d.modLaunch key f).causes = d.causes := rfl
@[simp] theorem Device.modLaunch_pidx (d : Device) (key : Nat) (f : Launch → Launch) : (d.modLaunch key f).pidx = d.pidx := rfl
@[simp] theorem Device.modLaunch_cidx (d : Device) (key : Nat) (f : Launch → Launch) : (d.modLaunch key f).cidx = d.cidx := rfl
@[simp] theorem Device.modLaunch_causeDrop (d : Device) (key : Nat) (f : Launch → Launch) : (d.modLaunch key f).causeDrop = d.causeDrop := rfl
@[simp] theorem Device.modLaunch_msix (d : Device) (key : Nat) (f : Launch → Launch) : (d.modLaunch key f).msix = d.msix := rfl
@[simp] theorem Device.modLaunch_msixArmed (d : Device) (key : Nat) (f : Launch → Launch) : (d.modLaunch key f).msixArmed = d.msixArmed := rfl
@[simp] theorem Device.modLaunch_hdm (d : Device) (key : Nat) (f : Launch → Launch) : (d.modLaunch key f).hdm = d.hdm := rfl
@[simp] theorem Device.modLaunch_fabric (d : Device) (key : Nat) (f : Launch → Launch) : (d.modLaunch key f).fabric = d.fabric := rfl
@[simp] theorem Device.modLaunch_flips (d : Device) (key : Nat) (f : Launch → Launch) : (d.modLaunch key f).flips = d.flips := rfl
@[simp] theorem Device.modLaunch_hostSees (d : Device) (key : Nat) (f : Launch → Launch) : (d.modLaunch key f).hostSees = d.hostSees := rfl
@[simp] theorem Device.modLaunch_heldWork (d : Device) (key : Nat) (f : Launch → Launch) : (d.modLaunch key f).heldWork = d.heldWork := rfl
@[simp] theorem Device.modLaunch_hostAtomic (d : Device) (key : Nat) (f : Launch → Launch) : (d.modLaunch key f).hostAtomic = d.hostAtomic := rfl
@[simp] theorem Device.modLaunch_hostQueue (d : Device) (key : Nat) (f : Launch → Launch) : (d.modLaunch key f).hostQueue = d.hostQueue := rfl
@[simp] theorem Device.modLaunch_dieBanks (d : Device) (key : Nat) (f : Launch → Launch) : (d.modLaunch key f).dieBanks = d.dieBanks := rfl
@[simp] theorem Device.modLaunch_boot (d : Device) (key : Nat) (f : Launch → Launch) : (d.modLaunch key f).boot = d.boot := rfl
@[simp] theorem Device.modLaunch_spdm (d : Device) (key : Nat) (f : Launch → Launch) : (d.modLaunch key f).spdm = d.spdm := rfl
@[simp] theorem Device.modLaunch_qports (d : Device) (key : Nat) (f : Launch → Launch) : (d.modLaunch key f).qports = d.qports := rfl
@[simp] theorem Device.modLaunch_withheld (d : Device) (key : Nat) (f : Launch → Launch) : (d.modLaunch key f).withheld = d.withheld := rfl
@[simp] theorem Device.modLaunch_fencedSlices (d : Device) (key : Nat) (f : Launch → Launch) : (d.modLaunch key f).fencedSlices = d.fencedSlices := rfl
@[simp] theorem Device.modLaunch_fencedChannels (d : Device) (key : Nat) (f : Launch → Launch) : (d.modLaunch key f).fencedChannels = d.fencedChannels := rfl
@[simp] theorem Device.modLaunch_fencedDies (d : Device) (key : Nat) (f : Launch → Launch) : (d.modLaunch key f).fencedDies = d.fencedDies := rfl
@[simp] theorem Device.modLaunch_used (d : Device) (key : Nat) (f : Launch → Launch) : (d.modLaunch key f).used = d.used := rfl
@[simp] theorem Device.modLaunch_corrected (d : Device) (key : Nat) (f : Launch → Launch) : (d.modLaunch key f).corrected = d.corrected := rfl
@[simp] theorem Device.modLaunch_dumps (d : Device) (key : Nat) (f : Launch → Launch) : (d.modLaunch key f).dumps = d.dumps := rfl
@[simp] theorem Device.causeAdd_agenda (d : Device) (kind part func : Nat) : (d.causeAdd kind part func).agenda = d.agenda := by unfold Device.causeAdd; split <;> rfl
@[simp] theorem Device.causeAdd_rota (d : Device) (kind part func : Nat) : (d.causeAdd kind part func).rota = d.rota := by unfold Device.causeAdd; split <;> rfl
@[simp] theorem Device.causeAdd_nextOp (d : Device) (kind part func : Nat) : (d.causeAdd kind part func).nextOp = d.nextOp := by unfold Device.causeAdd; split <;> rfl
@[simp] theorem Device.causeAdd_cycle (d : Device) (kind part func : Nat) : (d.causeAdd kind part func).cycle = d.cycle := by unfold Device.causeAdd; split <;> rfl
@[simp] theorem Device.causeAdd_periods (d : Device) (kind part func : Nat) : (d.causeAdd kind part func).periods = d.periods := by unfold Device.causeAdd; split <;> rfl
@[simp] theorem Device.causeAdd_cores (d : Device) (kind part func : Nat) : (d.causeAdd kind part func).cores = d.cores := by unfold Device.causeAdd; split <;> rfl
@[simp] theorem Device.causeAdd_shared (d : Device) (kind part func : Nat) : (d.causeAdd kind part func).shared = d.shared := by unfold Device.causeAdd; split <;> rfl
@[simp] theorem Device.causeAdd_gmem (d : Device) (kind part func : Nat) : (d.causeAdd kind part func).gmem = d.gmem := by unfold Device.causeAdd; split <;> rfl
@[simp] theorem Device.causeAdd_decoded (d : Device) (kind part func : Nat) : (d.causeAdd kind part func).decoded = d.decoded := by unfold Device.causeAdd; split <;> rfl
@[simp] theorem Device.causeAdd_net (d : Device) (kind part func : Nat) : (d.causeAdd kind part func).net = d.net := by unfold Device.causeAdd; split <;> rfl
@[simp] theorem Device.causeAdd_orphans (d : Device) (kind part func : Nat) : (d.causeAdd kind part func).orphans = d.orphans := by unfold Device.causeAdd; split <;> rfl
@[simp] theorem Device.causeAdd_peerLines (d : Device) (kind part func : Nat) : (d.causeAdd kind part func).peerLines = d.peerLines := by unfold Device.causeAdd; split <;> rfl
@[simp] theorem Device.causeAdd_writes (d : Device) (kind part func : Nat) : (d.causeAdd kind part func).writes = d.writes := by unfold Device.causeAdd; split <;> rfl
@[simp] theorem Device.causeAdd_clusterLines (d : Device) (kind part func : Nat) : (d.causeAdd kind part func).clusterLines = d.clusterLines := by unfold Device.causeAdd; split <;> rfl
@[simp] theorem Device.causeAdd_barriers (d : Device) (kind part func : Nat) : (d.causeAdd kind part func).barriers = d.barriers := by unfold Device.causeAdd; split <;> rfl
@[simp] theorem Device.causeAdd_slices (d : Device) (kind part func : Nat) : (d.causeAdd kind part func).slices = d.slices := by unfold Device.causeAdd; split <;> rfl
@[simp] theorem Device.causeAdd_graphs (d : Device) (kind part func : Nat) : (d.causeAdd kind part func).graphs = d.graphs := by unfold Device.causeAdd; split <;> rfl
@[simp] theorem Device.causeAdd_generations (d : Device) (kind part func : Nat) : (d.causeAdd kind part func).generations = d.generations := by unfold Device.causeAdd; split <;> rfl
@[simp] theorem Device.causeAdd_launches (d : Device) (kind part func : Nat) : (d.causeAdd kind part func).launches = d.launches := by unfold Device.causeAdd; split <;> rfl
@[simp] theorem Device.causeAdd_saved (d : Device) (kind part func : Nat) : (d.causeAdd kind part func).saved = d.saved := by unfold Device.causeAdd; split <;> rfl
@[simp] theorem Device.causeAdd_saveAreas (d : Device) (kind part func : Nat) : (d.causeAdd kind part func).saveAreas = d.saveAreas := by unfold Device.causeAdd; split <;> rfl
@[simp] theorem Device.causeAdd_parts (d : Device) (kind part func : Nat) : (d.causeAdd kind part func).parts = d.parts := by unfold Device.causeAdd; split <;> rfl
@[simp] theorem Device.causeAdd_brfw (d : Device) (kind part func : Nat) : (d.causeAdd kind part func).brfw = d.brfw := by unfold Device.causeAdd; split <;> rfl
@[simp] theorem Device.causeAdd_funcs (d : Device) (kind part func : Nat) : (d.causeAdd kind part func).funcs = d.funcs := by unfold Device.causeAdd; split <;> rfl
@[simp] theorem Device.causeAdd_cidx (d : Device) (kind part func : Nat) : (d.causeAdd kind part func).cidx = d.cidx := by unfold Device.causeAdd; split <;> rfl
@[simp] theorem Device.causeAdd_hdm (d : Device) (kind part func : Nat) : (d.causeAdd kind part func).hdm = d.hdm := by unfold Device.causeAdd; split <;> rfl
@[simp] theorem Device.causeAdd_fabric (d : Device) (kind part func : Nat) : (d.causeAdd kind part func).fabric = d.fabric := by unfold Device.causeAdd; split <;> rfl
@[simp] theorem Device.causeAdd_flips (d : Device) (kind part func : Nat) : (d.causeAdd kind part func).flips = d.flips := by unfold Device.causeAdd; split <;> rfl
@[simp] theorem Device.causeAdd_hostSees (d : Device) (kind part func : Nat) : (d.causeAdd kind part func).hostSees = d.hostSees := by unfold Device.causeAdd; split <;> rfl
@[simp] theorem Device.causeAdd_heldWork (d : Device) (kind part func : Nat) : (d.causeAdd kind part func).heldWork = d.heldWork := by unfold Device.causeAdd; split <;> rfl
@[simp] theorem Device.causeAdd_hostAtomic (d : Device) (kind part func : Nat) : (d.causeAdd kind part func).hostAtomic = d.hostAtomic := by unfold Device.causeAdd; split <;> rfl
@[simp] theorem Device.causeAdd_hostQueue (d : Device) (kind part func : Nat) : (d.causeAdd kind part func).hostQueue = d.hostQueue := by unfold Device.causeAdd; split <;> rfl
@[simp] theorem Device.causeAdd_dieBanks (d : Device) (kind part func : Nat) : (d.causeAdd kind part func).dieBanks = d.dieBanks := by unfold Device.causeAdd; split <;> rfl
@[simp] theorem Device.causeAdd_boot (d : Device) (kind part func : Nat) : (d.causeAdd kind part func).boot = d.boot := by unfold Device.causeAdd; split <;> rfl
@[simp] theorem Device.causeAdd_spdm (d : Device) (kind part func : Nat) : (d.causeAdd kind part func).spdm = d.spdm := by unfold Device.causeAdd; split <;> rfl
@[simp] theorem Device.causeAdd_qports (d : Device) (kind part func : Nat) : (d.causeAdd kind part func).qports = d.qports := by unfold Device.causeAdd; split <;> rfl
@[simp] theorem Device.causeAdd_withheld (d : Device) (kind part func : Nat) : (d.causeAdd kind part func).withheld = d.withheld := by unfold Device.causeAdd; split <;> rfl
@[simp] theorem Device.causeAdd_fencedSlices (d : Device) (kind part func : Nat) : (d.causeAdd kind part func).fencedSlices = d.fencedSlices := by unfold Device.causeAdd; split <;> rfl
@[simp] theorem Device.causeAdd_fencedChannels (d : Device) (kind part func : Nat) : (d.causeAdd kind part func).fencedChannels = d.fencedChannels := by unfold Device.causeAdd; split <;> rfl
@[simp] theorem Device.causeAdd_fencedDies (d : Device) (kind part func : Nat) : (d.causeAdd kind part func).fencedDies = d.fencedDies := by unfold Device.causeAdd; split <;> rfl
@[simp] theorem Device.causeAdd_used (d : Device) (kind part func : Nat) : (d.causeAdd kind part func).used = d.used := by unfold Device.causeAdd; split <;> rfl
@[simp] theorem Device.causeAdd_corrected (d : Device) (kind part func : Nat) : (d.causeAdd kind part func).corrected = d.corrected := by unfold Device.causeAdd; split <;> rfl
@[simp] theorem Device.causeAdd_dumps (d : Device) (kind part func : Nat) : (d.causeAdd kind part func).dumps = d.dumps := by unfold Device.causeAdd; split <;> rfl
@[simp] theorem Bank.put_labels (b : Bank) (a n v : Nat) : (b.put a n v).labels = b.labels := rfl
@[simp] theorem Bank.putBytes_labels (b : Bank) (a : Nat) (l : List Byte) : (b.putBytes a l).labels = b.labels := rfl
@[simp] theorem Bank.putMasked_tags (b : Bank) (a n mask v : Nat) : (b.putMasked a n mask v).tags = b.tags := rfl
@[simp] theorem Bank.putMasked_labels (b : Bank) (a n mask v : Nat) : (b.putMasked a n mask v).labels = b.labels := rfl
@[simp] theorem Bank.putCap_labels (b : Bank) (a : Nat) (v : Quad) (tag : Bool) : (b.putCap a v tag).labels = b.labels := by cases tag <;> rfl
@[simp] theorem Bank.setLabel_mem (b : Bank) (page : Nat) (l : Label) : (b.setLabel page l).mem = b.mem := rfl
@[simp] theorem Bank.setLabel_tags (b : Bank) (page : Nat) (l : Label) : (b.setLabel page l).tags = b.tags := rfl
@[simp] theorem Bank.setLabel_poison (b : Bank) (page : Nat) (l : Label) : (b.setLabel page l).poison = b.poison := rfl
@[simp] theorem Bank.poisonLine_mem (b : Bank) (a : Nat) : (b.poisonLine a).mem = b.mem := rfl
@[simp] theorem Bank.poisonLine_tags (b : Bank) (a : Nat) : (b.poisonLine a).tags = b.tags := rfl
@[simp] theorem Bank.poisonLine_labels (b : Bank) (a : Nat) : (b.poisonLine a).labels = b.labels := rfl
@[simp] theorem Anchor.setO_tiles (a : Anchor) (n : BitVec 3) (e : Entry) : (a.setO n e).tiles = a.tiles := rfl
@[simp] theorem Anchor.setO_lv (a : Anchor) (n : BitVec 3) (e : Entry) : (a.setO n e).lv = a.lv := rfl
@[simp] theorem Anchor.setO_m (a : Anchor) (n : BitVec 3) (e : Entry) : (a.setO n e).m = a.m := rfl
@[simp] theorem Anchor.setO_sort (a : Anchor) (n : BitVec 3) (e : Entry) : (a.setO n e).sort = a.sort := rfl
@[simp] theorem Anchor.setO_pipeA (a : Anchor) (n : BitVec 3) (e : Entry) : (a.setO n e).pipeA = a.pipeA := rfl
@[simp] theorem Anchor.setO_pipeB (a : Anchor) (n : BitVec 3) (e : Entry) : (a.setO n e).pipeB = a.pipeB := rfl
@[simp] theorem Anchor.setO_mprog (a : Anchor) (n : BitVec 3) (e : Entry) : (a.setO n e).mprog = a.mprog := rfl
@[simp] theorem Anchor.setO_cprog (a : Anchor) (n : BitVec 3) (e : Entry) : (a.setO n e).cprog = a.cprog := rfl
@[simp] theorem Anchor.setO_sprog (a : Anchor) (n : BitVec 3) (e : Entry) : (a.setO n e).sprog = a.sprog := rfl

/-! ### The fields that these operations change -/

@[simp] theorem State.count_c (s : State) (n : Nat) : (s.count n).c = { s.c with bank := s.c.bank.add n 1 } := rfl
@[simp] theorem State.countDie_d (s : State) (die : BitVec 2) (n k : Nat) :
    (s.countDie die n k).d = { s.d with dieBanks := vmod s.d.dieBanks die.toNat (·.add n k) } := rfl
@[simp] theorem State.send_d (s : State) (dst : CoreId) (k : MsgKind) :
    (s.send dst k).d = { s.d with net := s.d.net ++ [{ src := s.c.id, dst, kind := k }] } := rfl
@[simp] theorem State.schedule_d (s : State) (l : List Turn) : (s.schedule l).d = { s.d with agenda := s.d.agenda ++ l } := rfl
@[simp] theorem State.modPart_d (s : State) (p : BitVec 2) (f : Part → Part) : (s.modPart p f).d = s.d.modPart p f := rfl
@[simp] theorem Task.buffer_buf (t : Task) (e : BufEntry) : (t.buffer e).buf = t.buf ++ [e] := rfl
@[simp] theorem Task.receive_inbox (t : Task) (m : Msg) : (t.receive m).inbox = t.inbox ++ [m] := rfl
@[simp] theorem Task.receive_resv (t : Task) (m : Msg) : (t.receive m).resv = t.resv - 1 := rfl
@[simp] theorem Task.freeResv_resv (t : Task) : t.freeResv.resv = t.resv - 1 := rfl
@[simp] theorem State.raiseLabel_clabel (s : State) (l : Label) : (s.raiseLabel l).t.clabel = s.t.clabel ||| l := rfl
/-- Taking the doublewords that a unit has read from its maintenance ports leaves the task, but for the list of them. -/
@[simp] theorem State.takePorts_t (s : State) : s.takePorts.t = { s.t with qtake := [] } := by
  unfold State.takePorts
  split
  · rw [← List.isEmpty_iff.mp ‹_›]
  · rfl
@[simp] theorem State.takePorts_c (s : State) : s.takePorts.c = s.c := by
  unfold State.takePorts
  split <;> rfl
theorem State.takePorts_none (s : State) (h : s.t.qtake = []) : s.takePorts = s := by
  unfold State.takePorts
  rw [h]
  rfl
@[simp] theorem State.finish_pc (s : State) (sw : Bool) : (s.finish sw).t.pc = s.t.pc + 4 := by
  cases sw <;> simp [State.finish, State.finishAt]
@[simp] theorem State.finish_buf (s : State) (sw : Bool) : (s.finish sw).t.buf = s.t.buf := by
  cases sw <;> simp [State.finish, State.finishAt]
@[simp] theorem State.finish_g (s : State) (sw : Bool) : (s.finish sw).t.g = s.t.g := by
  cases sw <;> simp [State.finish, State.finishAt]
@[simp] theorem State.finish_clabel (s : State) (sw : Bool) : (s.finish sw).t.clabel = s.t.clabel := by
  cases sw <;> simp [State.finish, State.finishAt]
@[simp] theorem State.finish_tsw (s : State) (sw : Bool) : (s.finish sw).t.tsw = s.t.tsw := by
  cases sw <;> simp [State.finish, State.finishAt]
@[simp] theorem State.finish_status (s : State) (sw : Bool) :
    (s.finish sw).t.status = if sw then .parked .group else s.t.status := by cases sw <;> simp [State.finish, State.finishAt]
@[simp] theorem State.finish_spad (s : State) (sw : Bool) : (s.finish sw).c.spad = s.c.spad := by
  cases sw <;> simp [State.finish, State.finishAt, State.record]
/-- Without a maintenance port the device stays. -/
theorem State.finish_d (s : State) (sw : Bool) (h : s.t.qtake = []) : (s.finish sw).d = s.d := by
  cases sw <;> simp [State.finish, State.finishAt, State.takePorts_none s h]

end Sys2Proof.Machine
end

