-- ==== Sys2Proof/Laws/Canonical.lean ====
section
/-! SUPPORT. That the shared operations over memories, banks, cores and tasks keep every memory canonical: one lemma per operation,
from which the instructions' own lemmas follow without unfolding it. -/

namespace Sys2Proof.Machine

set_option Elab.async false

/-! ### Memories and banks -/

theorem memoryOf_wfFrom (l : List Byte) : ∀ lo, Memory.wfFrom lo (memoryOf lo l) = true := by
  induction l with
  | nil => exact fun _ => rfl
  | cons b r ih =>
    intro lo
    unfold memoryOf
    split
    · exact Memory.wfFrom_mono (Nat.le_succ lo) (ih _)
    · simp_all [Memory.wfFrom]

theorem memoryOf_wf (l : List Byte) : (memoryOf 0 l).wf = true := memoryOf_wfFrom l 0

theorem Memory.filter_canonical (p : Nat × Byte → Bool) (m : Memory) (w : m.wf = true) : Memory.wf (m.filter p) = true :=
  Memory.filter_wf p m 0 w


theorem Bank.setLabels_mem (b : Bank) (page n : Nat) (l : Label) : (b.setLabels page n l).mem = b.mem := by
  unfold Bank.setLabels
  induction rangeFrom page n generalizing b with
  | nil => rfl
  | cons p r ih => exact ih (b.setLabel p l)

theorem Bank.clearAreas_wf (b : Bank) (l : List Slice) (w : b.mem.wf = true) : (b.clearAreas l).mem.wf = true :=
  Memory.filter_canonical _ _ w

theorem Bank.putImage_wf (b : Bank) (i : Image) (w : b.mem.wf = true) : (b.putImage i).mem.wf = true := by
  have h (l : List (Nat × Quad)) : ∀ b : Bank, b.mem.wf = true → (l.foldl (fun b c => b.putCap c.1 c.2 true) b).mem.wf = true := by
    induction l with
    | nil => exact fun _ h => h
    | cons x r ih => exact fun b h => ih _ (Bank.putCap_wf b _ _ _ h)
  exact h _ _ (Bank.putBytes_wf b _ _ w)

theorem Bank.putImages_wf (l : List Image) : ∀ b : Bank, b.mem.wf = true → (l.foldl Bank.putImage b).mem.wf = true := by
  induction l with
  | nil => exact fun _ h => h
  | cons x r ih => exact fun b h => ih _ (Bank.putImage_wf b x h)

/-- An access at a bank leaves a canonical bank. -/
theorem Bank.perform_wf (b b' : Bank) (place : Nat) (a : Access) (r : Served) (w : b.mem.wf = true)
    (h : b.perform place a = .ok (r, b')) : b'.mem.wf = true := by
  have out (x : Option Nat) : (match x with
      | none => b
      | some v => if a.tag then b.putCap a.addr (BitVec.ofNat 128 v) true else b.put a.addr a.n v).mem.wf = true := by
    cases x with
    | none => exact w
    | some v =>
      dsimp only
      split
      · exact Bank.putCap_wf _ _ _ _ w
      · exact Bank.put_wf _ _ _ _ w
  have pick (p q : Bool) (e1 e2 : Nat × Nat) (z : Served × Bank) (hz : z.2.mem.wf = true)
      (h : (if p then .error e1 else if q then .error e2 else .ok z : Except (Nat × Nat) (Served × Bank)) = .ok (r, b')) :
      b'.mem.wf = true := by
    cases p <;> cases q <;> simp at h
    rw [h] at hz
    exact hz
  unfold Bank.perform at h
  dsimp only at h
  by_cases h1 : (!a.kind.isLoad && !b.accepts a.lo a.len a.vl) = true
  · rw [if_pos h1] at h; cases h
  · rw [if_neg h1] at h
    exact pick _ _ _ _ _ (out _) h

/-! ### Pages -/

/-- A write of bytes at a PA, which a fenced channel drops, keeps global memory canonical and touches nothing else. -/
theorem Device.putArea_wf (d : Device) (a : Nat) (l : List Byte) (w : d.gmem.mem.wf = true) :
    (d.putArea a l).gmem.mem.wf = true ∧ (d.putArea a l).shared = d.shared ∧ (d.putArea a l).cores = d.cores ∧
    (d.putArea a l).decoded = d.decoded := by
  unfold Device.putArea
  split
  · exact ⟨Bank.putBytes_wf _ _ _ w, rfl, rfl, rfl⟩
  · refine ⟨?_, rfl, rfl, rfl⟩
    have all (k : List (Byte × Nat)) : ∀ b : Bank, b.mem.wf = true →
        (k.foldl (fun (b : Bank) p => if d.channelDown (a + p.2) then b else b.putBytes (a + p.2) [p.1]) b).mem.wf = true := by
      induction k with
      | nil => exact fun _ h => h
      | cons x r ih =>
        intro b h
        rw [List.foldl_cons]
        apply ih
        split
        · exact h
        · exact Bank.putBytes_wf _ _ _ h
    exact all _ _ w

theorem Device.savePage_wf (d : Device) (spad : Memory) (base p : Nat) (w : d.gmem.mem.wf = true) :
    (d.savePage spad base p).gmem.mem.wf = true := by
  unfold Device.savePage
  generalize codePage (memoryOf 0 (spad.bytes (4096 * p) 4096)) = x
  obtain ⟨map, bytes⟩ := x
  exact (Device.putArea_wf _ _ _ (Device.putArea_wf d _ _ w).1).1

theorem stampTags_wf (l : List Window) : ∀ (m : Memory) (a : Nat), m.wf = true → (stampTags m a l).wf = true := by
  induction l with
  | nil => exact fun _ _ h => h
  | cons x r ih => exact fun m a h => ih _ _ (Memory.write_wf _ _ _ _ h)

/-! ### Cores -/

theorem storeCore_mem (c x : Core) (l : List Core) (h : x ∈ storeCore c l) : x = c ∨ x ∈ l := by
  induction l with
  | nil => exact .inl (by simpa [storeCore] using h)
  | cons k r ih =>
    unfold storeCore at h
    split at h
    · simpa using h
    · split at h
      · rcases List.mem_cons.mp h with h | h
        · exact .inl h
        · exact .inr (List.mem_cons_of_mem _ h)
      · rcases List.mem_cons.mp h with h | h
        · exact .inr (h ▸ List.mem_cons_self)
        · exact (ih h).imp_right (List.mem_cons_of_mem _)

theorem lookupCore_mem (id : CoreId) (l : List Core) (c : Core) (h : lookupCore id l = some c) : c ∈ l ∧ c.id = id := by
  induction l with
  | nil => cases h
  | cons k r ih =>
    unfold lookupCore at h
    split at h
    · cases h; exact ⟨List.mem_cons_self, ‹_›⟩
    · exact ⟨List.mem_cons_of_mem _ (ih h).1, (ih h).2⟩

theorem Core.reset_spad (id : CoreId) : (Core.reset id).spad = Bank.empty := rfl

/-- A core of a list whose scratchpads are canonical, or one at reset. -/
theorem lookupCore_wf (id : CoreId) (l : List Core) (w : ∀ c ∈ l, c.spad.mem.wf = true) :
    ((lookupCore id l).getD (Core.reset id)).spad.mem.wf = true := by
  cases h : lookupCore id l with
  | none => rfl
  | some c => exact w c (lookupCore_mem id l c h).1


@[simp] theorem State.whole_spad (s : State) : s.whole.spad = s.c.spad := by
  unfold State.whole; split <;> rfl

@[simp] theorem seat_spad (c : Core) (n : Nat) (d : Device) : (seat c n d).c.spad = c.spad := rfl
@[simp] theorem seat_d (c : Core) (n : Nat) (d : Device) : (seat c n d).d = d := rfl

/-! ### States -/

/-- A state whose memories are those of a canonical one is canonical. -/
theorem State.Canonical.of_eq {s t : State} (w : s.Canonical) (h1 : t.d.gmem.mem = s.d.gmem.mem) (h2 : t.d.shared.mem = s.d.shared.mem)
    (h3 : t.c.spad.mem = s.c.spad.mem) (h4 : t.d.cores = s.d.cores) (h5 : t.d.decoded = s.d.decoded) : t.Canonical := by
  unfold State.Canonical
  rw [h1, h2, h3, h4, h5]
  exact w

theorem State.takeSlot_canonical (s : State) (n : Nat) (w : s.Canonical) : (s.takeSlot n).Canonical :=
  w.of_eq rfl rfl (by simp [State.takeSlot]) rfl rfl

theorem State.fillSlot_canonical (s : State) (n : Nat) (t : Task) (w : s.Canonical) : (s.fillSlot n t).Canonical := by
  unfold State.fillSlot
  split <;> exact w

theorem State.toHearth_canonical (s : State) (w : s.Canonical) : s.toHearth.Canonical := by
  unfold State.toHearth
  split
  · split
    · exact w
    · exact w.of_eq rfl rfl (by simp) rfl rfl
  · exact w

theorem State.focus_canonical (s : State) (id : CoreId) (w : s.Canonical) : (s.focus id).Canonical := by
  unfold State.focus
  split
  · exact w
  · obtain ⟨w1, w2, w3, w4, w5⟩ := w
    refine ⟨w1, w2, lookupCore_wf id _ w4, fun c h => ?_, w5⟩
    rcases storeCore_mem _ _ _ h with h | h
    · rw [h, State.whole_spad]; exact w3
    · exact w4 c (List.mem_filter.mp h).1

theorem State.toPort_canonical (s : State) (tid : Tid) (w : s.Canonical) : (s.toPort tid).Canonical := by
  unfold State.toPort
  split
  · exact w
  · split
    · exact State.takeSlot_canonical s _ w
    · exact w

theorem State.focusTask_canonical (s t : State) (core : CoreId) (tid : Tid) (w : s.Canonical) (h : s.focusTask core tid = some t) :
    t.Canonical := by
  unfold State.focusTask at h
  simp only at h
  split at h
  · cases h; exact State.toPort_canonical _ _ (State.focus_canonical s core w)
  · cases h

theorem State.modTask_canonical (s : State) (tid : Tid) (f : Task → Task) (w : s.Canonical) : (s.modTask tid f).Canonical := by
  unfold State.modTask
  split <;> exact w

theorem State.modTaskOn_canonical (s : State) (id : CoreId) (tid : Tid) (f : Task → Task) (w : s.Canonical) :
    (s.modTaskOn id tid f).Canonical := by
  unfold State.modTaskOn
  split
  · exact State.modTask_canonical s tid f w
  · obtain ⟨w1, w2, w3, w4, w5⟩ := w
    refine ⟨w1, w2, w3, fun c h => ?_, w5⟩
    obtain ⟨k, hk, rfl⟩ := List.mem_map.mp h
    split <;> exact w4 k hk

theorem State.mapTasks_canonical (s : State) (f : Task → Task) (w : s.Canonical) : (s.mapTasks f).Canonical := w

theorem State.modCore_canonical (s : State) (id : CoreId) (f : Core → Core)
    (hf : ∀ c, c.spad.mem.wf = true → (f c).spad.mem.wf = true) (w : s.Canonical) : (s.modCore id f).Canonical := by
  obtain ⟨w1, w2, w3, w4, w5⟩ := w
  unfold State.modCore
  split
  · exact ⟨w1, w2, hf _ w3, w4, w5⟩
  · refine ⟨w1, w2, w3, fun c h => ?_, w5⟩
    rcases storeCore_mem _ _ _ h with h | h
    · exact h ▸ hf _ (lookupCore_wf id _ w4)
    · exact w4 c h

theorem State.atCore_canonical (s : State) (id : CoreId) (f : State → State) (hf : ∀ t : State, t.Canonical → (f t).Canonical)
    (w : s.Canonical) : (s.atCore id f).Canonical := by
  unfold State.atCore
  simp only
  split
  · exact hf s w
  · exact State.takeSlot_canonical _ _ (State.focus_canonical _ _ (hf _ (State.focus_canonical s id w)))

theorem State.modPart_canonical (s : State) (p : BitVec 2) (f : Part → Part) (w : s.Canonical) : (s.modPart p f).Canonical := w
theorem State.record_canonical (s : State) (type : Nat) (t : Task) (lab : Label) (a b : Word) (w : s.Canonical) :
    (s.record type t lab a b).Canonical := w
theorem State.recordNone_canonical (s : State) (type : Nat) (a b : Word) (w : s.Canonical) : (s.recordNone type a b).Canonical := w
theorem State.count_canonical (s : State) (n : Nat) (w : s.Canonical) : (s.count n).Canonical := w
theorem State.countDie_canonical (s : State) (die : BitVec 2) (n k : Nat) (w : s.Canonical) : (s.countDie die n k).Canonical := w
theorem State.freeBit_canonical (s : State) (w : s.Canonical) : s.freeBit.2.Canonical := w
theorem State.newOp_canonical (s : State) (w : s.Canonical) : s.newOp.2.Canonical := w
theorem State.send_canonical (s : State) (dst : CoreId) (k : MsgKind) (w : s.Canonical) : (s.send dst k).Canonical := w
theorem State.schedule_canonical (s : State) (l : List Turn) (w : s.Canonical) : (s.schedule l).Canonical := w

theorem State.freshTid_canonical (s : State) (w : s.Canonical) : s.freshTid.2.Canonical := by
  unfold State.freshTid
  simp only
  split <;> exact w

theorem State.newTid_canonical (s : State) (job : BitVec 16) (w : s.Canonical) : (s.newTid job).2.Canonical := by
  unfold State.newTid
  simp only
  split
  · split
    · exact w
    · exact State.freshTid_canonical s w
  · exact State.freshTid_canonical s w

theorem Device.causeAdd_memories (d : Device) (kind part func : Nat) :
    (d.causeAdd kind part func).gmem = d.gmem ∧ (d.causeAdd kind part func).shared = d.shared ∧
    (d.causeAdd kind part func).cores = d.cores ∧ (d.causeAdd kind part func).decoded = d.decoded := by
  unfold Device.causeAdd
  split
  · exact ⟨rfl, rfl, rfl, rfl⟩
  · exact ⟨rfl, rfl, rfl, rfl⟩

/-- A unit that is issued afresh is counted back in its trace unit and its hearth run alone. -/
theorem State.uncount_canonical (s : State) (x : Wait) (w : s.Canonical) : (s.uncount x).Canonical := by
  unfold State.uncount
  split
  · exact w
  · have h : s.unstep.Canonical := by
      unfold State.unstep
      dsimp only
      split
      · exact State.modCore_canonical _ _ _ (fun _ h => h) w
      · exact w
    generalize s.unstep = f at h
    dsimp only
    split <;> split <;> split <;> first | exact h | (split <;> exact h)

theorem State.park_canonical (s : State) (x : Wait) (w : s.Canonical) : (s.park x).Canonical := by
  unfold State.park
  exact State.record_canonical _ _ _ _ _ _ (State.uncount_canonical _ x w)

theorem State.wake_canonical (s : State) (w : s.Canonical) : s.wake.Canonical := w

/-! ### Accesses at their homes -/

theorem State.spadPut_canonical (s : State) (a n v : Nat) (w : s.Canonical) : (s.spadPut a n v).Canonical :=
  ⟨w.1, w.2.1, Bank.put_wf _ _ _ _ w.2.2.1, w.2.2.2⟩

theorem State.spadPutCap_canonical (s : State) (a : Nat) (q : Quad) (tag : Bool) (w : s.Canonical) : (s.spadPutCap a q tag).Canonical :=
  ⟨w.1, w.2.1, Bank.putCap_wf _ _ _ _ w.2.2.1, w.2.2.2⟩

/-- Decoded copies of compressed pages are canonical. -/
theorem Device.decodedPage_wf (d : Device) (frame : Nat) (w : ∀ p ∈ d.decoded, p.2.wf = true) : (d.decodedPage frame).wf = true := by
  unfold Device.decodedPage
  cases h : d.decoded.lookup frame with
  | none => exact memoryOf_wf _
  | some m =>
    obtain ⟨l1, l2, k, hl⟩ : ∃ l1 l2, ∃ k, d.decoded = l1 ++ (k, m) :: l2 := by
      generalize d.decoded = l at h
      induction l with
      | nil => cases h
      | cons x r ih =>
        rw [List.lookup_cons] at h
        split at h
        · cases h; exact ⟨[], r, x.1, rfl⟩
        · obtain ⟨l1, l2, k, h⟩ := ih h
          exact ⟨x :: l1, l2, k, by rw [h]; rfl⟩
    exact w (k, m) (by rw [hl]; simp)

/-- A write of global memory keeps global memory and the decoded copies canonical, and touches nothing else. -/
theorem Device.gwrite_wf (d : Device) (comp : Bool) (pa n mask v : Nat) (w1 : d.gmem.mem.wf = true) (w2 : ∀ p ∈ d.decoded, p.2.wf = true) :
    (d.gwrite comp pa n mask v).gmem.mem.wf = true ∧ (∀ p ∈ (d.gwrite comp pa n mask v).decoded, p.2.wf = true) ∧
    (d.gwrite comp pa n mask v).shared = d.shared ∧ (d.gwrite comp pa n mask v).cores = d.cores := by
  unfold Device.gwrite
  split
  · exact ⟨w1, w2, rfl, rfl⟩
  · split
    · refine ⟨w1, fun p h => ?_, rfl, rfl⟩
      rcases List.mem_cons.mp h with h | h
      · rw [h]; exact Memory.writeMasked_wf _ _ _ _ _ (Device.decodedPage_wf d _ w2)
      · exact w2 p (List.mem_filter.mp h).1
    · exact ⟨Bank.putMasked_wf _ _ _ _ _ w1, w2, rfl, rfl⟩

theorem State.gwrite_canonical (s : State) (comp : Bool) (pa n mask v : Nat) (w : s.Canonical) :
    State.Canonical { s with d := s.d.gwrite comp pa n mask v } := by
  obtain ⟨w1, w2, w3, w4, w5⟩ := w
  obtain ⟨h1, h2, h3, h4⟩ := Device.gwrite_wf s.d comp pa n mask v w1 w5
  exact ⟨h1, by rw [h3]; exact w2, w3, by rw [h4]; exact w4, h2⟩

/-- Moving a page between the host and its frame keeps global memory canonical and touches nothing else (R318, R319). -/
theorem Device.copyPage_wf (d : Device) (fc tc : Bool) (src dst : Nat) (w1 : d.gmem.mem.wf = true) (w2 : ∀ p ∈ d.decoded, p.2.wf = true) :
    (d.copyPage fc src tc dst).gmem.mem.wf = true ∧ (∀ p ∈ (d.copyPage fc src tc dst).decoded, p.2.wf = true) ∧
    (d.copyPage fc src tc dst).shared = d.shared ∧ (d.copyPage fc src tc dst).cores = d.cores := by
  unfold Device.copyPage
  generalize rangeFrom 0 64 = l
  induction l generalizing d with
  | nil => exact ⟨w1, w2, rfl, rfl⟩
  | cons i r ih =>
    rw [List.foldl_cons]
    obtain ⟨h1, h2, h3, h4⟩ := Device.gwrite_wf d tc (dst + 64 * i) 64 (2 ^ 64 - 1) (d.gread fc (src + 64 * i) 64) w1 w2
    dsimp only
    generalize d.gwrite tc (dst + 64 * i) 64 (2 ^ 64 - 1) (d.gread fc (src + 64 * i) 64) = e at h1 h2 h3 h4
    split
    · obtain ⟨k1, k2, k3, k4⟩ := ih { e with gmem := e.gmem.poisonLine (dst + 64 * i) } h1 h2
      exact ⟨k1, k2, k3.trans h3, k4.trans h4⟩
    · obtain ⟨k1, k2, k3, k4⟩ := ih e h1 h2
      exact ⟨k1, k2, k3.trans h3, k4.trans h4⟩

/-- Changing slices rewrites their ember areas alone (R201). -/
theorem Device.setSlices_wf (d : Device) (f : Slice → Slice) (w : d.shared.mem.wf = true) :
    (d.setSlices f).shared.mem.wf = true ∧ (d.setSlices f).gmem = d.gmem ∧ (d.setSlices f).cores = d.cores ∧
    (d.setSlices f).decoded = d.decoded := by
  refine ⟨?_, rfl, rfl, rfl⟩
  unfold Device.setSlices
  dsimp only
  generalize d.shared = b at w
  generalize d.slices = l
  induction l generalizing b with
  | nil => exact w
  | cons x r ih =>
    rw [List.foldl_cons]
    apply ih
    split
    · exact w
    · exact Bank.putBytes_wf _ _ _ w

theorem Device.recode_wf (d : Device) (frame : Nat) (w1 : d.gmem.mem.wf = true) (w2 : ∀ p ∈ d.decoded, p.2.wf = true) :
    (d.recode frame).gmem.mem.wf = true ∧ (∀ p ∈ (d.recode frame).decoded, p.2.wf = true) ∧
    (d.recode frame).shared = d.shared ∧ (d.recode frame).cores = d.cores := by
  unfold Device.recode
  split
  · exact ⟨w1, w2, rfl, rfl⟩
  · exact ⟨Bank.put_wf _ _ _ _ (Bank.putBytes_wf _ _ _ w1), fun p h => w2 p (List.mem_filter.mp h).1, rfl, rfl⟩

/-- At reset no other core and no decoded copy is listed. -/
theorem State.reset_spads : State.reset.d.cores = [] ∧ State.reset.d.decoded = [] := by
  constructor <;> with_unfolding_all rfl

end Sys2Proof.Machine
end

