-- ==== Sys2Proof/Laws/Encoding.lean ====
section
/-! SUPPORT. The fields of an encoded word are the fields it was written from, format by format (R95), and every code names the operand it
was written from (R97 to R100). -/

namespace Sys2Proof

set_option Elab.async false

/-! ### Codes -/

theorem SReg.code_lt (r : SReg) : r.code < 32 := by
  cases r <;> simp only [SReg.code] <;> omega
theorem VReg.code_lt (r : VReg) : r.code < 16 := by
  cases r <;> simp only [VReg.code] <;> omega
theorem Scope.code_lt (x : Scope) : x.code < 9 := by cases x <;> decide
theorem Order.code_lt (x : Order) : x.code < 4 := by cases x <;> decide
theorem Size.code_lt (x : Size) : x.code < 6 := by cases x <;> decide
theorem ASize.code_lt (x : ASize) : x.code < 2 := by cases x <;> decide
theorem SFmt.code_lt (x : SFmt) : x.code < 2 := by cases x <;> decide
theorem CFmt.code_lt (x : CFmt) : x.code < 8 := by cases x <;> decide
theorem VFmt.code_lt (x : VFmt) : x.code < 4 := by cases x <;> decide
theorem IFmt.code_lt (x : IFmt) : x.code < 4 := by cases x <;> decide
theorem RFmt.code_lt (x : RFmt) : x.code < 8 := by cases x <;> decide
theorem MFmt.code_lt (x : MFmt) : x.code < 8 := by cases x <;> decide
theorem FTag.code_lt (x : FTag) : x.code < 14 := by cases x <;> decide
theorem KFmt.code_lt (x : KFmt) : x.code < 7 := by cases x <;> decide
theorem KForm.code_lt (x : KForm) : x.code < 2 := by cases x <;> decide
theorem CpDest.code_lt (x : CpDest) : x.code < 3 := by cases x <;> decide
theorem Mig.code_lt (x : Mig) : x.code < 3 := by cases x <;> decide
theorem SysReg.code_lt (x : SysReg) : x.code < 4096 := by cases x <;> decide
theorem boolCode_lt (b : Bool) : boolCode b < 2 := by cases b <;> decide
theorem mskCode_lt (k : Option (BitVec 2)) : mskCode k < 5 := by
  cases k with
  | none => decide
  | some k => have := k.isLt; simp only [mskCode]; omega
theorem laneCode_lt (k : Option (BitVec 8)) : laneCode k < 512 := by
  cases k with
  | none => decide
  | some k => have := k.isLt; simp only [laneCode]; omega

@[simp] theorem sregOf_code (r : SReg) : sregOf r.code = .ok r := by
  cases r with
  | g n => simp [SReg.code, sregOf, n.isLt]
  | l => rfl
  | zero => rfl
  | tid => rfl
  | q n =>
    obtain ⟨⟨n, hn⟩⟩ := n
    match n, hn with
    | 0, _ | 1, _ | 2, _ | 3, _ | 4, _ | 5, _ | 6, _ | 7, _ => rfl
@[simp] theorem vregOf_code (r : VReg) : vregOf r.code = .ok r := by
  cases r with
  | o n => simp [VReg.code, vregOf, n.isLt]
  | lv => rfl
  | zv => rfl
@[simp] theorem scopeOf_code (x : Scope) : scopeOf x.code = .ok x := by cases x <;> rfl
@[simp] theorem orderOf_code (x : Order) : orderOf x.code = .ok x := by cases x <;> rfl
@[simp] theorem sizeOf_code (x : Size) : sizeOf x.code = .ok x := by cases x <;> rfl
@[simp] theorem asizeOf_code (x : ASize) : asizeOf x.code = .ok x := by cases x <;> rfl
@[simp] theorem sfmtOf_code (x : SFmt) : sfmtOf x.code = .ok x := by cases x <;> rfl
@[simp] theorem cfmtOf_code (x : CFmt) : cfmtOf x.code = .ok x := by cases x <;> rfl
@[simp] theorem vfmtOf_code (x : VFmt) : vfmtOf x.code = .ok x := by cases x <;> rfl
@[simp] theorem ifmtOf_code (x : IFmt) : ifmtOf x.code = .ok x := by cases x <;> rfl
@[simp] theorem rfmtOf_code (x : RFmt) : rfmtOf x.code = .ok x := by cases x <;> rfl
@[simp] theorem mfmtOf_code (x : MFmt) : mfmtOf x.code = .ok x := by cases x <;> rfl
@[simp] theorem ftagOf_code (x : FTag) : ftagOf x.code = .ok x := by cases x <;> rfl
@[simp] theorem kfmtOf_code (x : KFmt) : kfmtOf x.code = .ok x := by cases x <;> rfl
@[simp] theorem kformOf_code (x : KForm) : kformOf x.code = .ok x := by cases x <;> rfl
@[simp] theorem cpDestOf_code (x : CpDest) : cpDestOf x.code = .ok x := by cases x <;> rfl
@[simp] theorem migOf_code (x : Mig) : migOf x.code = .ok x := by cases x <;> rfl
@[simp] theorem sysRegOf_code (x : SysReg) : sysRegOf x.code = .ok x := by cases x <;> rfl
@[simp] theorem mskOf_code (k : Option (BitVec 2)) : mskOf (mskCode k) = .ok k := by
  cases k with
  | none => rfl
  | some k =>
    obtain ⟨⟨n, hn⟩⟩ := k
    match n, hn with
    | 0, _ | 1, _ | 2, _ | 3, _ => rfl
@[simp] theorem laneOf_code (k : Option (BitVec 8)) : laneOf (laneCode k) = .ok k := by
  cases k with
  | none => rfl
  | some k => simp [laneOf, laneCode]
@[simp] theorem maskOf_code (k : BitVec 2) : maskOf k.toNat = .ok k := by
  simp [maskOf, k.isLt]
@[simp] theorem bool_code (b : Bool) : (boolCode b == 1) = b := by cases b <;> rfl

/-! ### Fields -/

theorem encTop_eq (sw : Bool) (m : Nat) : encTop sw m = boolCode sw * 2147483648 + m * 33554432 := rfl

theorem fS_of (sw : Bool) (w r : Nat) (h : w = boolCode sw * 2147483648 + r) (hr : r < 2147483648) : fS w = sw := by
  have := boolCode_lt sw
  rw [fS, show w / 2147483648 % 2 = boolCode sw by omega, bool_code]

/-! ### Formats -/

theorem encA_fields (sw : Bool) (m d a b fn : Nat) (_ : m < 64) (_ : d < 32) (_ : a < 32) (_ : b < 32) (_ : fn < 1024) :
    fS (encA sw m d a b fn) = sw ∧ fMajor (encA sw m d a b fn) = m ∧ fD (encA sw m d a b fn) = d ∧ fA (encA sw m d a b fn) = a ∧ fB (encA sw m d a b fn) = b ∧ fFn (encA sw m d a b fn) = fn ∧ fFn8 (encA sw m d a b fn) = fn % 256 := by
  have hs := boolCode_lt sw
  refine ⟨fS_of sw _ (m * 33554432 + d * 1048576 + a * 32768 + b * 1024 + fn) (by simp only [encA, encTop]; omega) (by omega), ?_⟩
  simp only [encA, encTop, fMajor, fD, fA, fB, fFn, fFn8]
  refine ⟨?_, ?_, ?_, ?_, ?_, ?_⟩ <;> omega

theorem encI_fields (sw : Bool) (m d a fn3 imm : Nat) (_ : m < 64) (_ : d < 32) (_ : a < 32) (_ : fn3 < 8) (_ : imm < 4096) :
    fS (encI sw m d a fn3 imm) = sw ∧ fMajor (encI sw m d a fn3 imm) = m ∧ fD (encI sw m d a fn3 imm) = d ∧ fA (encI sw m d a fn3 imm) = a ∧ fFn3 (encI sw m d a fn3 imm) = fn3 ∧ fImm12 (encI sw m d a fn3 imm) = imm := by
  have hs := boolCode_lt sw
  refine ⟨fS_of sw _ (m * 33554432 + d * 1048576 + a * 32768 + fn3 * 4096 + imm) (by simp only [encI, encTop]; omega) (by omega), ?_⟩
  simp only [encI, encTop, fMajor, fD, fA, fFn3, fImm12]
  refine ⟨?_, ?_, ?_, ?_, ?_⟩ <;> omega

theorem encU_fields (sw : Bool) (m d imm : Nat) (_ : m < 64) (_ : d < 32) (_ : imm < 1048576) :
    fS (encU sw m d imm) = sw ∧ fMajor (encU sw m d imm) = m ∧ fD (encU sw m d imm) = d ∧ fImm20 (encU sw m d imm) = imm := by
  have hs := boolCode_lt sw
  refine ⟨fS_of sw _ (m * 33554432 + d * 1048576 + imm) (by simp only [encU, encTop]; omega) (by omega), ?_⟩
  simp only [encU, encTop, fMajor, fD, fImm20]
  refine ⟨?_, ?_, ?_⟩ <;> omega

theorem encB_fields (sw : Bool) (m a b cond off : Nat) (_ : m < 64) (_ : a < 32) (_ : b < 32) (_ : cond < 8) (_ : off < 4096) :
    fS (encB sw m a b cond off) = sw ∧ fMajor (encB sw m a b cond off) = m ∧ fD (encB sw m a b cond off) = a ∧ fA (encB sw m a b cond off) = b ∧ fFn3 (encB sw m a b cond off) = cond ∧ fImm12 (encB sw m a b cond off) = off := by
  have hs := boolCode_lt sw
  refine ⟨fS_of sw _ (m * 33554432 + a * 1048576 + b * 32768 + cond * 4096 + off) (by simp only [encB, encTop]; omega) (by omega), ?_⟩
  simp only [encB, encTop, fMajor, fD, fA, fFn3, fImm12]
  refine ⟨?_, ?_, ?_, ?_, ?_⟩ <;> omega

theorem encJ_fields (sw : Bool) (m off : Nat) (_ : m < 64) (_ : off < 33554432) :
    fS (encJ sw m off) = sw ∧ fMajor (encJ sw m off) = m ∧ fOff25 (encJ sw m off) = off := by
  have hs := boolCode_lt sw
  refine ⟨fS_of sw _ (m * 33554432 + off) (by simp only [encJ, encTop]; omega) (by omega), ?_⟩
  simp only [encJ, encTop, fMajor, fOff25]
  refine ⟨?_, ?_⟩ <;> omega

theorem encM_fields (sw : Bool) (m d a scope order size off : Nat) (_ : m < 64) (_ : d < 32) (_ : a < 32) (_ : scope < 16) (_ : order < 4) (_ : size < 8) (_ : off < 64) :
    fS (encM sw m d a scope order size off) = sw ∧ fMajor (encM sw m d a scope order size off) = m ∧ fD (encM sw m d a scope order size off) = d ∧ fA (encM sw m d a scope order size off) = a ∧ fScopeM (encM sw m d a scope order size off) = scope ∧ fOrderM (encM sw m d a scope order size off) = order ∧ fSizeM (encM sw m d a scope order size off) = size ∧ fOff6 (encM sw m d a scope order size off) = off := by
  have hs := boolCode_lt sw
  refine ⟨fS_of sw _ (m * 33554432 + d * 1048576 + a * 32768 + scope * 2048 + order * 512 + size * 64 + off) (by simp only [encM, encTop]; omega) (by omega), ?_⟩
  simp only [encM, encTop, fMajor, fD, fA, fScopeM, fOrderM, fSizeM, fOff6]
  refine ⟨?_, ?_, ?_, ?_, ?_, ?_, ?_⟩ <;> omega

theorem encV_fields (sw : Bool) (m d a b c fn9 : Nat) (_ : m < 64) (_ : d < 16) (_ : a < 16) (_ : b < 16) (_ : c < 16) (_ : fn9 < 512) :
    fS (encV sw m d a b c fn9) = sw ∧ fMajor (encV sw m d a b c fn9) = m ∧ fVd (encV sw m d a b c fn9) = d ∧ fVa (encV sw m d a b c fn9) = a ∧ fVb (encV sw m d a b c fn9) = b ∧ fVc (encV sw m d a b c fn9) = c ∧ fFn9 (encV sw m d a b c fn9) = fn9 := by
  have hs := boolCode_lt sw
  refine ⟨fS_of sw _ (m * 33554432 + d * 2097152 + a * 131072 + b * 8192 + c * 512 + fn9) (by simp only [encV, encTop]; omega) (by omega), ?_⟩
  simp only [encV, encTop, fMajor, fVd, fVa, fVb, fVc, fFn9]
  refine ⟨?_, ?_, ?_, ?_, ?_, ?_⟩ <;> omega

theorem encVR_fields (sw : Bool) (m d a row9 fn8 : Nat) (_ : m < 64) (_ : d < 16) (_ : a < 16) (_ : row9 < 512) (_ : fn8 < 256) :
    fS (encVR sw m d a row9 fn8) = sw ∧ fMajor (encVR sw m d a row9 fn8) = m ∧ fVd (encVR sw m d a row9 fn8) = d ∧ fVa (encVR sw m d a row9 fn8) = a ∧ fRow9 (encVR sw m d a row9 fn8) = row9 ∧ fFn8 (encVR sw m d a row9 fn8) = fn8 := by
  have hs := boolCode_lt sw
  refine ⟨fS_of sw _ (m * 33554432 + d * 2097152 + a * 131072 + row9 * 256 + fn8) (by simp only [encVR, encTop]; omega) (by omega), ?_⟩
  simp only [encVR, encTop, fMajor, fVd, fVa, fRow9, fFn8]
  refine ⟨?_, ?_, ?_, ?_, ?_⟩ <;> omega

theorem encX_fields (sw : Bool) (m a b eng fn12 : Nat) (_ : m < 64) (_ : a < 32) (_ : b < 32) (_ : eng < 8) (_ : fn12 < 4096) :
    fS (encX sw m a b eng fn12) = sw ∧ fMajor (encX sw m a b eng fn12) = m ∧ fD (encX sw m a b eng fn12) = a ∧ fA (encX sw m a b eng fn12) = b ∧ fEng (encX sw m a b eng fn12) = eng ∧ fFn12 (encX sw m a b eng fn12) = fn12 := by
  have hs := boolCode_lt sw
  refine ⟨fS_of sw _ (m * 33554432 + a * 1048576 + b * 32768 + eng * 4096 + fn12) (by simp only [encX, encTop]; omega) (by omega), ?_⟩
  simp only [encX, encTop, fMajor, fD, fA, fEng, fFn12]
  refine ⟨?_, ?_, ?_, ?_, ?_⟩ <;> omega

theorem encS_fields (sw : Bool) (m d a sysreg fn3 : Nat) (_ : m < 64) (_ : d < 32) (_ : a < 32) (_ : sysreg < 4096) (_ : fn3 < 8) :
    fS (encS sw m d a sysreg fn3) = sw ∧ fMajor (encS sw m d a sysreg fn3) = m ∧ fD (encS sw m d a sysreg fn3) = d ∧ fA (encS sw m d a sysreg fn3) = a ∧ fSys (encS sw m d a sysreg fn3) = sysreg ∧ fFn3S (encS sw m d a sysreg fn3) = fn3 := by
  have hs := boolCode_lt sw
  refine ⟨fS_of sw _ (m * 33554432 + d * 1048576 + a * 32768 + sysreg * 8 + fn3) (by simp only [encS, encTop]; omega) (by omega), ?_⟩
  simp only [encS, encTop, fMajor, fD, fA, fSys, fFn3S]
  refine ⟨?_, ?_, ?_, ?_, ?_⟩ <;> omega

theorem encH_fields (sw : Bool) (kind payload : Nat) (_ : kind < 8) (_ : payload < 4194304) :
    fS (encH sw kind payload) = sw ∧ fMajor (encH sw kind payload) = 0x3F ∧ fKind (encH sw kind payload) = kind ∧ fPay (encH sw kind payload) = payload := by
  have hs := boolCode_lt sw
  refine ⟨fS_of sw _ (0x3F * 33554432 + kind * 4194304 + payload) (by simp only [encH, encTop]; omega) (by omega), ?_⟩
  simp only [encH, encTop, fMajor, fKind, fPay]
  refine ⟨?_, ?_, ?_⟩ <;> omega

/-! ### Shapes -/

@[simp] theorem zero_ok (k : Except DecodeError Instr) : zero 0 k = k := rfl
@[simp] theorem withF_ok {α : Type} (x : α) (k : α → Except DecodeError Instr) : withF (.ok x) k = k x := rfl
@[simp] theorem pick_eq {α : Type} (l : List α) (n : Nat) : pick l n = match l[n]? with | some x => .ok x | none => .error .unlistedOperation := rfl
@[simp] theorem withD_eq (w : Nat) (k : SReg → Except DecodeError Instr) : withD w k = withF (sregOf (fD w)) k := by
  unfold withD withF; cases sregOf (fD w) <;> rfl
@[simp] theorem withA_eq (w : Nat) (k : SReg → Except DecodeError Instr) : withA w k = withF (sregOf (fA w)) k := by
  unfold withA withF; cases sregOf (fA w) <;> rfl
@[simp] theorem withB_eq (w : Nat) (k : SReg → Except DecodeError Instr) : withB w k = withF (sregOf (fB w)) k := by
  unfold withB withF; cases sregOf (fB w) <;> rfl
@[simp] theorem marked_eq (w : Nat) (k : Except DecodeError Instr) : marked w k = if fS w then k else .error .markerMissing := rfl
@[simp] theorem shDAB_eq (w : Nat) (k : Bool → SReg → SReg → SReg → Instr) :
    shDAB w k = withD w fun d => withA w fun a => withB w fun b => .ok (k (fS w) d a b) := rfl
@[simp] theorem shDA_eq (w : Nat) (k : Bool → SReg → SReg → Instr) :
    shDA w k = zero (fB w) (withD w fun d => withA w fun a => .ok (k (fS w) d a)) := rfl
@[simp] theorem shD_eq (w : Nat) (k : Bool → SReg → Instr) : shD w k = zero (fA w) (zero (fB w) (withD w fun d => .ok (k (fS w) d))) := rfl
@[simp] theorem shAB_eq (w : Nat) (k : Bool → SReg → SReg → Instr) :
    shAB w k = zero (fD w) (withA w fun a => withB w fun b => .ok (k (fS w) a b)) := rfl
@[simp] theorem shA_eq (w : Nat) (k : Bool → SReg → Instr) : shA w k = zero (fD w) (zero (fB w) (withA w fun a => .ok (k (fS w) a))) := rfl
@[simp] theorem sh0_eq (w : Nat) (k : Bool → Instr) : sh0 w k = zero (fD w) (zero (fA w) (zero (fB w) (.ok (k (fS w))))) := rfl
@[simp] theorem shX_eq (w : Nat) (k : Bool → SReg → SReg → Instr) : shX w k = withD w fun a => withA w fun b => .ok (k (fS w) a b) := rfl
@[simp] theorem shXA_eq (w : Nat) (k : Bool → SReg → Instr) : shXA w k = zero (fA w) (withD w fun a => .ok (k (fS w) a)) := rfl
@[simp] theorem shX0_eq (w : Nat) (k : Bool → Instr) : shX0 w k = zero (fD w) (zero (fA w) (.ok (k (fS w)))) := rfl
@[simp] theorem vDAB_eq (w : Nat) (k : Bool → VReg → VReg → VReg → Instr) : vDAB w k = zero (fVc w) (withF (vregOf (fVd w)) fun d =>
    withF (vregOf (fVa w)) fun a => withF (vregOf (fVb w)) fun b => .ok (k (fS w) d a b)) := rfl
@[simp] theorem vDABC_eq (w : Nat) (k : Bool → VReg → VReg → VReg → VReg → Instr) : vDABC w k = withF (vregOf (fVd w)) fun d =>
    withF (vregOf (fVa w)) fun a => withF (vregOf (fVb w)) fun b => withF (vregOf (fVc w)) fun c => .ok (k (fS w) d a b c) := rfl
@[simp] theorem vDA_eq (w : Nat) (k : Bool → VReg → VReg → Instr) : vDA w k =
    zero (fVb w) (zero (fVc w) (withF (vregOf (fVd w)) fun d => withF (vregOf (fVa w)) fun a => .ok (k (fS w) d a))) := rfl
@[simp] theorem vCmp_eq (w : Nat) (k : Bool → VReg → VReg → BitVec 2 → Instr) : vCmp w k = zero (fVd w) (withF (vregOf (fVa w)) fun a =>
    withF (vregOf (fVb w)) fun b => withF (maskOf (fVc w)) fun m => .ok (k (fS w) a b m)) := rfl
@[simp] theorem vSel_eq (w : Nat) (k : Bool → VReg → VReg → VReg → BitVec 2 → Instr) : vSel w k = withF (vregOf (fVd w)) fun d =>
    withF (vregOf (fVa w)) fun a => withF (vregOf (fVb w)) fun b => withF (maskOf (fVc w)) fun m => .ok (k (fS w) d a b m) := rfl

/-! ### The majors -/

theorem major_1 (w : Nat) (h : fMajor w = 0x01) : decodeMajor w = decIalu w := by simp only [decodeMajor, h]
theorem major_2 (w : Nat) (h : fMajor w = 0x02) : decodeMajor w = decIalui w := by simp only [decodeMajor, h]
theorem major_3 (w : Nat) (h : fMajor w = 0x03) : decodeMajor w = withD w fun d => .ok (.lui (fS w) d (BitVec.ofNat 20 (fImm20 w))) := by simp only [decodeMajor, h]
theorem major_4 (w : Nat) (h : fMajor w = 0x04) : decodeMajor w = decIbit w := by simp only [decodeMajor, h]
theorem major_5 (w : Nat) (h : fMajor w = 0x05) : decodeMajor w = decImul w := by simp only [decodeMajor, h]
theorem major_6 (w : Nat) (h : fMajor w = 0x06) : decodeMajor w = decCap w := by simp only [decodeMajor, h]
theorem major_7 (w : Nat) (h : fMajor w = 0x07) : decodeMajor w = decCapi w := by simp only [decodeMajor, h]
theorem major_8 (w : Nat) (h : fMajor w = 0x08) : decodeMajor w = decBr w := by simp only [decodeMajor, h]
theorem major_9 (w : Nat) (h : fMajor w = 0x09) : decodeMajor w = .ok (.jmp (fS w) (BitVec.ofNat 25 (fOff25 w))) := by simp only [decodeMajor, h]
theorem major_10 (w : Nat) (h : fMajor w = 0x0A) : decodeMajor w = .ok (.call (fS w) (BitVec.ofNat 25 (fOff25 w))) := by simp only [decodeMajor, h]
theorem major_11 (w : Nat) (h : fMajor w = 0x0B) : decodeMajor w = decJr w := by simp only [decodeMajor, h]
theorem major_12 (w : Nat) (h : fMajor w = 0x0C) : decodeMajor w = decFpu w := by simp only [decodeMajor, h]
theorem major_13 (w : Nat) (h : fMajor w = 0x0D) : decodeMajor w = decFcvt w := by simp only [decodeMajor, h]
theorem major_14 (w : Nat) (h : fMajor w = 0x0E) : decodeMajor w = decLbl w := by simp only [decodeMajor, h]
theorem major_16 (w : Nat) (h : fMajor w = 0x10) : decodeMajor w = decLdSt w .ld := by simp only [decodeMajor, h]
theorem major_17 (w : Nat) (h : fMajor w = 0x11) : decodeMajor w = decLdSt w .st := by simp only [decodeMajor, h]
theorem major_18 (w : Nat) (h : fMajor w = 0x12) : decodeMajor w = decAtom w := by simp only [decodeMajor, h]
theorem major_19 (w : Nat) (h : fMajor w = 0x13) : decodeMajor w = decFatom w := by simp only [decodeMajor, h]
theorem major_20 (w : Nat) (h : fMajor w = 0x14) : decodeMajor w = decFence w := by simp only [decodeMajor, h]
theorem major_21 (w : Nat) (h : fMajor w = 0x15) : decodeMajor w = decBar w := by simp only [decodeMajor, h]
theorem major_22 (w : Nat) (h : fMajor w = 0x16) : decodeMajor w = decInbox w := by simp only [decodeMajor, h]
theorem major_24 (w : Nat) (h : fMajor w = 0x18) : decodeMajor w = decTask w := by simp only [decodeMajor, h]
theorem major_25 (w : Nat) (h : fMajor w = 0x19) : decodeMajor w = decQueue w := by simp only [decodeMajor, h]
theorem major_26 (w : Nat) (h : fMajor w = 0x1A) : decodeMajor w = decPipe w := by simp only [decodeMajor, h]
theorem major_27 (w : Nat) (h : fMajor w = 0x1B) : decodeMajor w = decEv w := by simp only [decodeMajor, h]
theorem major_28 (w : Nat) (h : fMajor w = 0x1C) : decodeMajor w = decEng w := by simp only [decodeMajor, h]
theorem major_32 (w : Nat) (h : fMajor w = 0x20) : decodeMajor w = decVfp w := by simp only [decodeMajor, h]
theorem major_33 (w : Nat) (h : fMajor w = 0x21) : decodeMajor w = decVint w := by simp only [decodeMajor, h]
theorem major_34 (w : Nat) (h : fMajor w = 0x22) : decodeMajor w = decVmov w := by simp only [decodeMajor, h]
theorem major_35 (w : Nat) (h : fMajor w = 0x23) : decodeMajor w = decVcvt w := by simp only [decodeMajor, h]
theorem major_36 (w : Nat) (h : fMajor w = 0x24) : decodeMajor w = decVsf w := by simp only [decodeMajor, h]
theorem major_37 (w : Nat) (h : fMajor w = 0x25) : decodeMajor w = decVred w := by simp only [decodeMajor, h]
theorem major_38 (w : Nat) (h : fMajor w = 0x26) : decodeMajor w = decVldVst w .vld := by simp only [decodeMajor, h]
theorem major_39 (w : Nat) (h : fMajor w = 0x27) : decodeMajor w = decVldVst w .vst := by simp only [decodeMajor, h]
theorem major_40 (w : Nat) (h : fMajor w = 0x28) : decodeMajor w = decMx w := by simp only [decodeMajor, h]
theorem major_41 (w : Nat) (h : fMajor w = 0x29) : decodeMajor w = decMxc w := by simp only [decodeMajor, h]
theorem major_42 (w : Nat) (h : fMajor w = 0x2A) : decodeMajor w = decSort w := by simp only [decodeMajor, h]
theorem major_43 (w : Nat) (h : fMajor w = 0x2B) : decodeMajor w = decCp w := by simp only [decodeMajor, h]
theorem major_48 (w : Nat) (h : fMajor w = 0x30) : decodeMajor w = decSys w := by simp only [decodeMajor, h]
theorem major_49 (w : Nat) (h : fMajor w = 0x31) : decodeMajor w = decTrap w := by simp only [decodeMajor, h]
theorem major_50 (w : Nat) (h : fMajor w = 0x32) : decodeMajor w = decTlb w := by simp only [decodeMajor, h]
theorem major_51 (w : Nat) (h : fMajor w = 0x33) : decodeMajor w = decDbg w := by simp only [decodeMajor, h]
theorem major_63 (w : Nat) (h : fMajor w = 0x3F) : decodeMajor w = decHint w := by simp only [decodeMajor, h]

/-! ### From the fields to the instruction -/

theorem decodeWord_of (w : Nat) (i : Instr) (h : decodeMajor w = .ok i) (hw : i.wf = true) : decodeWord w = .ok i := by
  rw [decodeWord, h]; simp [hw]

theorem of_encA (i : Instr) (sw : Bool) (m d a b fn : Nat) (b0 : m < 64) (b1 : d < 32) (b2 : a < 32) (b3 : b < 32) (b4 : fn < 1024)
    (e : encode i = encA sw m d a b fn) (hw : i.wf = true)
    (k : ∀ w, fS w = sw → fMajor w = m → fD w = d → fA w = a → fB w = b → fFn w = fn → fFn8 w = fn % 256 → decodeMajor w = .ok i) : decodeWord (encode i) = .ok i := by
  obtain ⟨h0, h1, h2, h3, h4, h5, h6⟩ := encA_fields sw m d a b fn b0 b1 b2 b3 b4
  rw [e]
  exact decodeWord_of _ _ (k _ h0 h1 h2 h3 h4 h5 h6) hw

theorem of_encI (i : Instr) (sw : Bool) (m d a fn3 imm : Nat) (b0 : m < 64) (b1 : d < 32) (b2 : a < 32) (b3 : fn3 < 8) (b4 : imm < 4096)
    (e : encode i = encI sw m d a fn3 imm) (hw : i.wf = true)
    (k : ∀ w, fS w = sw → fMajor w = m → fD w = d → fA w = a → fFn3 w = fn3 → fImm12 w = imm → decodeMajor w = .ok i) : decodeWord (encode i) = .ok i := by
  obtain ⟨h0, h1, h2, h3, h4, h5⟩ := encI_fields sw m d a fn3 imm b0 b1 b2 b3 b4
  rw [e]
  exact decodeWord_of _ _ (k _ h0 h1 h2 h3 h4 h5) hw

theorem of_encU (i : Instr) (sw : Bool) (m d imm : Nat) (b0 : m < 64) (b1 : d < 32) (b2 : imm < 1048576)
    (e : encode i = encU sw m d imm) (hw : i.wf = true)
    (k : ∀ w, fS w = sw → fMajor w = m → fD w = d → fImm20 w = imm → decodeMajor w = .ok i) : decodeWord (encode i) = .ok i := by
  obtain ⟨h0, h1, h2, h3⟩ := encU_fields sw m d imm b0 b1 b2
  rw [e]
  exact decodeWord_of _ _ (k _ h0 h1 h2 h3) hw

theorem of_encB (i : Instr) (sw : Bool) (m a b cond off : Nat) (b0 : m < 64) (b1 : a < 32) (b2 : b < 32) (b3 : cond < 8) (b4 : off < 4096)
    (e : encode i = encB sw m a b cond off) (hw : i.wf = true)
    (k : ∀ w, fS w = sw → fMajor w = m → fD w = a → fA w = b → fFn3 w = cond → fImm12 w = off → decodeMajor w = .ok i) : decodeWord (encode i) = .ok i := by
  obtain ⟨h0, h1, h2, h3, h4, h5⟩ := encB_fields sw m a b cond off b0 b1 b2 b3 b4
  rw [e]
  exact decodeWord_of _ _ (k _ h0 h1 h2 h3 h4 h5) hw

theorem of_encJ (i : Instr) (sw : Bool) (m off : Nat) (b0 : m < 64) (b1 : off < 33554432)
    (e : encode i = encJ sw m off) (hw : i.wf = true)
    (k : ∀ w, fS w = sw → fMajor w = m → fOff25 w = off → decodeMajor w = .ok i) : decodeWord (encode i) = .ok i := by
  obtain ⟨h0, h1, h2⟩ := encJ_fields sw m off b0 b1
  rw [e]
  exact decodeWord_of _ _ (k _ h0 h1 h2) hw

theorem of_encM (i : Instr) (sw : Bool) (m d a scope order size off : Nat) (b0 : m < 64) (b1 : d < 32) (b2 : a < 32) (b3 : scope < 16) (b4 : order < 4) (b5 : size < 8) (b6 : off < 64)
    (e : encode i = encM sw m d a scope order size off) (hw : i.wf = true)
    (k : ∀ w, fS w = sw → fMajor w = m → fD w = d → fA w = a → fScopeM w = scope → fOrderM w = order → fSizeM w = size → fOff6 w = off → decodeMajor w = .ok i) : decodeWord (encode i) = .ok i := by
  obtain ⟨h0, h1, h2, h3, h4, h5, h6, h7⟩ := encM_fields sw m d a scope order size off b0 b1 b2 b3 b4 b5 b6
  rw [e]
  exact decodeWord_of _ _ (k _ h0 h1 h2 h3 h4 h5 h6 h7) hw

theorem of_encV (i : Instr) (sw : Bool) (m d a b c fn9 : Nat) (b0 : m < 64) (b1 : d < 16) (b2 : a < 16) (b3 : b < 16) (b4 : c < 16) (b5 : fn9 < 512)
    (e : encode i = encV sw m d a b c fn9) (hw : i.wf = true)
    (k : ∀ w, fS w = sw → fMajor w = m → fVd w = d → fVa w = a → fVb w = b → fVc w = c → fFn9 w = fn9 → decodeMajor w = .ok i) : decodeWord (encode i) = .ok i := by
  obtain ⟨h0, h1, h2, h3, h4, h5, h6⟩ := encV_fields sw m d a b c fn9 b0 b1 b2 b3 b4 b5
  rw [e]
  exact decodeWord_of _ _ (k _ h0 h1 h2 h3 h4 h5 h6) hw

theorem of_encVR (i : Instr) (sw : Bool) (m d a row9 fn8 : Nat) (b0 : m < 64) (b1 : d < 16) (b2 : a < 16) (b3 : row9 < 512) (b4 : fn8 < 256)
    (e : encode i = encVR sw m d a row9 fn8) (hw : i.wf = true)
    (k : ∀ w, fS w = sw → fMajor w = m → fVd w = d → fVa w = a → fRow9 w = row9 → fFn8 w = fn8 → decodeMajor w = .ok i) : decodeWord (encode i) = .ok i := by
  obtain ⟨h0, h1, h2, h3, h4, h5⟩ := encVR_fields sw m d a row9 fn8 b0 b1 b2 b3 b4
  rw [e]
  exact decodeWord_of _ _ (k _ h0 h1 h2 h3 h4 h5) hw

theorem of_encX (i : Instr) (sw : Bool) (m a b eng fn12 : Nat) (b0 : m < 64) (b1 : a < 32) (b2 : b < 32) (b3 : eng < 8) (b4 : fn12 < 4096)
    (e : encode i = encX sw m a b eng fn12) (hw : i.wf = true)
    (k : ∀ w, fS w = sw → fMajor w = m → fD w = a → fA w = b → fEng w = eng → fFn12 w = fn12 → decodeMajor w = .ok i) : decodeWord (encode i) = .ok i := by
  obtain ⟨h0, h1, h2, h3, h4, h5⟩ := encX_fields sw m a b eng fn12 b0 b1 b2 b3 b4
  rw [e]
  exact decodeWord_of _ _ (k _ h0 h1 h2 h3 h4 h5) hw

theorem of_encS (i : Instr) (sw : Bool) (m d a sysreg fn3 : Nat) (b0 : m < 64) (b1 : d < 32) (b2 : a < 32) (b3 : sysreg < 4096) (b4 : fn3 < 8)
    (e : encode i = encS sw m d a sysreg fn3) (hw : i.wf = true)
    (k : ∀ w, fS w = sw → fMajor w = m → fD w = d → fA w = a → fSys w = sysreg → fFn3S w = fn3 → decodeMajor w = .ok i) : decodeWord (encode i) = .ok i := by
  obtain ⟨h0, h1, h2, h3, h4, h5⟩ := encS_fields sw m d a sysreg fn3 b0 b1 b2 b3 b4
  rw [e]
  exact decodeWord_of _ _ (k _ h0 h1 h2 h3 h4 h5) hw

theorem of_encH (i : Instr) (sw : Bool) (kind payload : Nat) (b0 : kind < 8) (b1 : payload < 4194304)
    (e : encode i = encH sw kind payload) (hw : i.wf = true)
    (k : ∀ w, fS w = sw → fMajor w = 0x3F → fKind w = kind → fPay w = payload → decodeMajor w = .ok i) : decodeWord (encode i) = .ok i := by
  obtain ⟨h0, h1, h2, h3⟩ := encH_fields sw kind payload b0 b1
  rw [e]
  exact decodeWord_of _ _ (k _ h0 h1 h2 h3) hw

end Sys2Proof
end

