-- ==== Sys2Proof/Laws/Issue.lean ====
section
/-! SUPPORT. What the checks at issue answer, what a delivered result leaves, and the shapes of the scalar forms under `Ready`. -/

namespace Sys2Proof.Machine

set_option Elab.async false

theorem portsOf_plain (l : List SReg) (h : l.all srPlain = true) : portsOf l = [] := by
  unfold portsOf
  rw [List.filterMap_eq_nil_iff.mpr]
  · rfl
  · intro r hr
    have := List.all_eq_true.mp h r hr
    cases r <;> simp_all [srPlain]

/-- Without a maintenance port the port part of issue does nothing. -/
theorem State.withPorts_plain (s : State) (srcs : List SReg) (d : SReg) (k : State → State) (h : srcs.all srPlain = true)
    (hd : srPlain d = true) : s.withPorts srcs d k = k s := by
  have h2 : portsOf [d] = [] := portsOf_plain [d] (by simp [hd])
  simp [State.withPorts, portsOf_plain srcs h, h2]

/-- A ready unit passes every check. -/
theorem State.issue_ready (s : State) (a : Accept) (srcs : List SReg) (d : SReg) (k : State → State) (h : s.Ready a srcs d) :
    s.issue a srcs d k = k s := by
  obtain ⟨h1, h2, h3, h4, -⟩ := h
  simp only [State.issue, State.issueWith, h1, Bool.not_true, State.withPorts_plain s srcs d _ h2 h3]
  cases hw : srWrites d
  · simp
  · simp [Nat.not_le.mpr (h4 hw)]

/-- A ready unit without a destination passes every check. -/
theorem State.issueNone_ready (s : State) (a : Accept) (srcs : List SReg) (k : State → State) (h : s.Ready a srcs .zero) :
    s.issueNone a srcs k = k s := by
  obtain ⟨h1, h2, h3, h4, -⟩ := h
  simp [State.issueNone, State.issueWith, h1, State.withPorts_plain s srcs .zero _ h2 h3]

/-- A prefix that the form does not accept makes the unit illegal (R104). -/
theorem State.issueWith_refused (s : State) (a : Accept) (srcs : List SReg) (d : SReg) (r : Bool) (k : State → State)
    (h : s.t.accepts a = false) : s.issueWith a srcs d r k = s.raise 0x01 := by
  simp [State.issueWith, h]

/-- The seventeenth result-writing instruction of a group raises group overflow (R20). -/
theorem State.issue_full (s : State) (a : Accept) (srcs : List SReg) (d : SReg) (k : State → State) (h1 : s.t.accepts a = true)
    (h2 : srcs.all srPlain = true) (h3 : srPlain d = true) (hw : srWrites d = true) (hb : 16 ≤ s.t.buf.length + s.t.lost) :
    s.issue a srcs d k = s.raise 0x0D := by
  simp [State.issue, State.issueWith, h1, State.withPorts_plain s srcs d _ h2 h3, hw, hb]

/-- Delivering to a destination that is no maintenance port. -/
theorem State.put_plain (s : State) (alu : Bool) (d : SReg) (v : Val) (k : State → State) (h : srPlain d = true) :
    s.put alu d v k = k { s with t := s.t.deliver alu d v } := by
  cases d <;> simp_all [State.put, srPlain]

/-- Delivering and ending the unit is what `gives` says. -/
theorem State.put_finish (s : State) (alu sw : Bool) (d : SReg) (v : Val) (h : srPlain d = true) :
    s.put alu d v (fun s => s.finish sw) = s.gives alu sw d v := by
  rw [State.put_plain s alu d v _ h]
  cases d <;> cases alu <;> rfl

/-- A ready fixed-latency scalar ALU instruction. -/
theorem State.alu_ready (s : State) (a : Accept) (sw : Bool) (srcs : List SReg) (d : SReg) (f : State → Word) (h : s.Ready a srcs d) :
    s.alu a sw srcs d f = s.gives true sw d (wordVal (f s) (s.labs srcs)) := by
  rw [State.alu, State.issue_ready _ _ _ _ _ h, State.put_finish _ _ _ _ _ h.2.2.1]

/-- A ready scalar ALU instruction with a 128-bit or tagged result. -/
theorem State.aluVal_ready (s : State) (a : Accept) (sw : Bool) (srcs : List SReg) (d : SReg) (f : State → Except Nat Val) (v : Val)
    (h : s.Ready a srcs d) (hf : f s = .ok v) : s.aluVal a sw srcs d f = s.gives true sw d v := by
  rw [State.aluVal, State.issue_ready _ _ _ _ _ h, hf]
  exact State.put_finish _ _ _ _ _ h.2.2.1

/-- Raising flags leaves the enables of TSW alone. -/
theorem Task.fpTraps_orFlags (t : Task) (fl m : Nat) (l : Label) : (t.orFlags fl l).fpTraps m = t.fpTraps m := by
  have h (w : Word) : bitsOf (w ||| BitVec.ofNat 64 (fl % 32)).toNat 5 5 = bitsOf w.toNat 5 5 := by
    have h0 : fl % 32 / 2 ^ 5 = 0 := by omega
    simp only [bitsOf, BitVec.toNat_or, BitVec.toNat_ofNat, Nat.mod_eq_of_lt (show fl % 32 < 2 ^ 64 by omega),
      ← Nat.shiftRight_eq_div_pow, Nat.shiftRight_or_distrib]
    simp only [Nat.shiftRight_eq_div_pow, h0, Nat.or_zero]
  unfold Task.orFlags
  split
  · rfl
  · simp only [Task.fpTraps, tswFpen, h]

/-- A ready floating instruction whose flags do not trap. -/
theorem State.float_ready (s : State) (sw : Bool) (srcs : List SReg) (d : SReg) (f : State → Nat × Nat) (h : s.Ready Accept.none srcs d)
    (ht : s.t.fpTraps (f s).2 = false) :
    s.float sw srcs d f = State.gives { s with t := s.t.orFlags (f s).2 (s.labs srcs) } false sw d
      { bits := BitVec.ofNat 128 (f s).1, tag := false, label := s.labs srcs } := by
  rw [State.float, State.issue_ready _ _ _ _ _ h]
  simp only [Task.fpTraps_orFlags, ht]
  exact State.put_finish _ _ _ _ _ h.2.2.1

end Sys2Proof.Machine
end

