-- ==== Sys2Proof/Laws/PerInstr.lean ====
section
/-! SUPPORT. The family `DecodesBack`, instruction by instruction: what the encoder writes for a well-formed instruction, the decoder reads
back. An event row has no word: the encoder gives it 0. -/

namespace Sys2Proof.Laws.DecodesBack

set_option Elab.async false
set_option linter.unusedSimpArgs false

/-- The word of an instruction decodes to it. -/
def Statement (i : Instr) : Prop := i.wf = true → encode i ≠ 0 → decodeWord (encode i) = .ok i

theorem ialuAdd (sw : Bool) (d a b : SReg) : Statement (.ialuAdd sw d a b) := by
  intro hw _
  have b0 := d.code_lt
  have b1 := a.code_lt
  have b2 := b.code_lt
  refine of_encA _ sw 0x01 d.code a.code b.code 0 (by omega) (by omega) (by omega) (by omega) (by omega) rfl hw (fun w h0 h1 h2 h3 h4 h5 h6 => ?_)
  rw [major_1 w h1]
  simp [decIalu, h0, h2, h3, h4, h5]
theorem ialuSub (sw : Bool) (d a b : SReg) : Statement (.ialuSub sw d a b) := by
  intro hw _
  have b0 := d.code_lt
  have b1 := a.code_lt
  have b2 := b.code_lt
  refine of_encA _ sw 0x01 d.code a.code b.code 1 (by omega) (by omega) (by omega) (by omega) (by omega) rfl hw (fun w h0 h1 h2 h3 h4 h5 h6 => ?_)
  rw [major_1 w h1]
  simp [decIalu, h0, h2, h3, h4, h5]
theorem ialuAnd (sw : Bool) (d a b : SReg) : Statement (.ialuAnd sw d a b) := by
  intro hw _
  have b0 := d.code_lt
  have b1 := a.code_lt
  have b2 := b.code_lt
  refine of_encA _ sw 0x01 d.code a.code b.code 2 (by omega) (by omega) (by omega) (by omega) (by omega) rfl hw (fun w h0 h1 h2 h3 h4 h5 h6 => ?_)
  rw [major_1 w h1]
  simp [decIalu, h0, h2, h3, h4, h5]
theorem ialuOr (sw : Bool) (d a b : SReg) : Statement (.ialuOr sw d a b) := by
  intro hw _
  have b0 := d.code_lt
  have b1 := a.code_lt
  have b2 := b.code_lt
  refine of_encA _ sw 0x01 d.code a.code b.code 3 (by omega) (by omega) (by omega) (by omega) (by omega) rfl hw (fun w h0 h1 h2 h3 h4 h5 h6 => ?_)
  rw [major_1 w h1]
  simp [decIalu, h0, h2, h3, h4, h5]
theorem ialuXor (sw : Bool) (d a b : SReg) : Statement (.ialuXor sw d a b) := by
  intro hw _
  have b0 := d.code_lt
  have b1 := a.code_lt
  have b2 := b.code_lt
  refine of_encA _ sw 0x01 d.code a.code b.code 4 (by omega) (by omega) (by omega) (by omega) (by omega) rfl hw (fun w h0 h1 h2 h3 h4 h5 h6 => ?_)
  rw [major_1 w h1]
  simp [decIalu, h0, h2, h3, h4, h5]
theorem ialuAndn (sw : Bool) (d a b : SReg) : Statement (.ialuAndn sw d a b) := by
  intro hw _
  have b0 := d.code_lt
  have b1 := a.code_lt
  have b2 := b.code_lt
  refine of_encA _ sw 0x01 d.code a.code b.code 5 (by omega) (by omega) (by omega) (by omega) (by omega) rfl hw (fun w h0 h1 h2 h3 h4 h5 h6 => ?_)
  rw [major_1 w h1]
  simp [decIalu, h0, h2, h3, h4, h5]
theorem ialuSll (sw : Bool) (d a b : SReg) : Statement (.ialuSll sw d a b) := by
  intro hw _
  have b0 := d.code_lt
  have b1 := a.code_lt
  have b2 := b.code_lt
  refine of_encA _ sw 0x01 d.code a.code b.code 6 (by omega) (by omega) (by omega) (by omega) (by omega) rfl hw (fun w h0 h1 h2 h3 h4 h5 h6 => ?_)
  rw [major_1 w h1]
  simp [decIalu, h0, h2, h3, h4, h5]
theorem ialuSrl (sw : Bool) (d a b : SReg) : Statement (.ialuSrl sw d a b) := by
  intro hw _
  have b0 := d.code_lt
  have b1 := a.code_lt
  have b2 := b.code_lt
  refine of_encA _ sw 0x01 d.code a.code b.code 7 (by omega) (by omega) (by omega) (by omega) (by omega) rfl hw (fun w h0 h1 h2 h3 h4 h5 h6 => ?_)
  rw [major_1 w h1]
  simp [decIalu, h0, h2, h3, h4, h5]
theorem ialuSra (sw : Bool) (d a b : SReg) : Statement (.ialuSra sw d a b) := by
  intro hw _
  have b0 := d.code_lt
  have b1 := a.code_lt
  have b2 := b.code_lt
  refine of_encA _ sw 0x01 d.code a.code b.code 8 (by omega) (by omega) (by omega) (by omega) (by omega) rfl hw (fun w h0 h1 h2 h3 h4 h5 h6 => ?_)
  rw [major_1 w h1]
  simp [decIalu, h0, h2, h3, h4, h5]
theorem ialuSlt (sw : Bool) (d a b : SReg) : Statement (.ialuSlt sw d a b) := by
  intro hw _
  have b0 := d.code_lt
  have b1 := a.code_lt
  have b2 := b.code_lt
  refine of_encA _ sw 0x01 d.code a.code b.code 9 (by omega) (by omega) (by omega) (by omega) (by omega) rfl hw (fun w h0 h1 h2 h3 h4 h5 h6 => ?_)
  rw [major_1 w h1]
  simp [decIalu, h0, h2, h3, h4, h5]
theorem ialuSltu (sw : Bool) (d a b : SReg) : Statement (.ialuSltu sw d a b) := by
  intro hw _
  have b0 := d.code_lt
  have b1 := a.code_lt
  have b2 := b.code_lt
  refine of_encA _ sw 0x01 d.code a.code b.code 10 (by omega) (by omega) (by omega) (by omega) (by omega) rfl hw (fun w h0 h1 h2 h3 h4 h5 h6 => ?_)
  rw [major_1 w h1]
  simp [decIalu, h0, h2, h3, h4, h5]
theorem ialuMin (sw : Bool) (d a b : SReg) : Statement (.ialuMin sw d a b) := by
  intro hw _
  have b0 := d.code_lt
  have b1 := a.code_lt
  have b2 := b.code_lt
  refine of_encA _ sw 0x01 d.code a.code b.code 11 (by omega) (by omega) (by omega) (by omega) (by omega) rfl hw (fun w h0 h1 h2 h3 h4 h5 h6 => ?_)
  rw [major_1 w h1]
  simp [decIalu, h0, h2, h3, h4, h5]
theorem ialuMax (sw : Bool) (d a b : SReg) : Statement (.ialuMax sw d a b) := by
  intro hw _
  have b0 := d.code_lt
  have b1 := a.code_lt
  have b2 := b.code_lt
  refine of_encA _ sw 0x01 d.code a.code b.code 12 (by omega) (by omega) (by omega) (by omega) (by omega) rfl hw (fun w h0 h1 h2 h3 h4 h5 h6 => ?_)
  rw [major_1 w h1]
  simp [decIalu, h0, h2, h3, h4, h5]
theorem ialuMinu (sw : Bool) (d a b : SReg) : Statement (.ialuMinu sw d a b) := by
  intro hw _
  have b0 := d.code_lt
  have b1 := a.code_lt
  have b2 := b.code_lt
  refine of_encA _ sw 0x01 d.code a.code b.code 13 (by omega) (by omega) (by omega) (by omega) (by omega) rfl hw (fun w h0 h1 h2 h3 h4 h5 h6 => ?_)
  rw [major_1 w h1]
  simp [decIalu, h0, h2, h3, h4, h5]
theorem ialuMaxu (sw : Bool) (d a b : SReg) : Statement (.ialuMaxu sw d a b) := by
  intro hw _
  have b0 := d.code_lt
  have b1 := a.code_lt
  have b2 := b.code_lt
  refine of_encA _ sw 0x01 d.code a.code b.code 14 (by omega) (by omega) (by omega) (by omega) (by omega) rfl hw (fun w h0 h1 h2 h3 h4 h5 h6 => ?_)
  rw [major_1 w h1]
  simp [decIalu, h0, h2, h3, h4, h5]
theorem ialuiAdd (sw : Bool) (d a : SReg) (imm : BitVec 12) : Statement (.ialuiAdd sw d a imm) := by
  intro hw _
  have b0 := d.code_lt
  have b1 := a.code_lt
  have b2 := imm.isLt
  refine of_encI _ sw 0x02 d.code a.code 0 imm.toNat (by omega) (by omega) (by omega) (by omega) (by omega) rfl hw (fun w h0 h1 h2 h3 h4 h5 => ?_)
  rw [major_2 w h1]
  simp [decIalui, h0, h2, h3, h4, h5]
theorem ialuiAnd (sw : Bool) (d a : SReg) (imm : BitVec 12) : Statement (.ialuiAnd sw d a imm) := by
  intro hw _
  have b0 := d.code_lt
  have b1 := a.code_lt
  have b2 := imm.isLt
  refine of_encI _ sw 0x02 d.code a.code 1 imm.toNat (by omega) (by omega) (by omega) (by omega) (by omega) rfl hw (fun w h0 h1 h2 h3 h4 h5 => ?_)
  rw [major_2 w h1]
  simp [decIalui, h0, h2, h3, h4, h5]
theorem ialuiOr (sw : Bool) (d a : SReg) (imm : BitVec 12) : Statement (.ialuiOr sw d a imm) := by
  intro hw _
  have b0 := d.code_lt
  have b1 := a.code_lt
  have b2 := imm.isLt
  refine of_encI _ sw 0x02 d.code a.code 2 imm.toNat (by omega) (by omega) (by omega) (by omega) (by omega) rfl hw (fun w h0 h1 h2 h3 h4 h5 => ?_)
  rw [major_2 w h1]
  simp [decIalui, h0, h2, h3, h4, h5]
theorem ialuiXor (sw : Bool) (d a : SReg) (imm : BitVec 12) : Statement (.ialuiXor sw d a imm) := by
  intro hw _
  have b0 := d.code_lt
  have b1 := a.code_lt
  have b2 := imm.isLt
  refine of_encI _ sw 0x02 d.code a.code 3 imm.toNat (by omega) (by omega) (by omega) (by omega) (by omega) rfl hw (fun w h0 h1 h2 h3 h4 h5 => ?_)
  rw [major_2 w h1]
  simp [decIalui, h0, h2, h3, h4, h5]
theorem ialuiSll (sw : Bool) (d a : SReg) (sh : BitVec 6) : Statement (.ialuiSll sw d a sh) := by
  intro hw _
  have b0 := d.code_lt
  have b1 := a.code_lt
  have b2 := sh.isLt
  refine of_encI _ sw 0x02 d.code a.code 4 sh.toNat (by omega) (by omega) (by omega) (by omega) (by omega) rfl hw (fun w h0 h1 h2 h3 h4 h5 => ?_)
  have x0 : sh.toNat / 64 = 0 := by omega
  rw [major_2 w h1]
  simp [decIalui, h0, h2, h3, h4, h5, x0]
theorem ialuiSrl (sw : Bool) (d a : SReg) (sh : BitVec 6) : Statement (.ialuiSrl sw d a sh) := by
  intro hw _
  have b0 := d.code_lt
  have b1 := a.code_lt
  have b2 := sh.isLt
  refine of_encI _ sw 0x02 d.code a.code 5 sh.toNat (by omega) (by omega) (by omega) (by omega) (by omega) rfl hw (fun w h0 h1 h2 h3 h4 h5 => ?_)
  have x0 : sh.toNat / 64 = 0 := by omega
  rw [major_2 w h1]
  simp [decIalui, h0, h2, h3, h4, h5, x0]
theorem ialuiSra (sw : Bool) (d a : SReg) (sh : BitVec 6) : Statement (.ialuiSra sw d a sh) := by
  intro hw _
  have b0 := d.code_lt
  have b1 := a.code_lt
  have b2 := sh.isLt
  refine of_encI _ sw 0x02 d.code a.code 6 sh.toNat (by omega) (by omega) (by omega) (by omega) (by omega) rfl hw (fun w h0 h1 h2 h3 h4 h5 => ?_)
  have x0 : sh.toNat / 64 = 0 := by omega
  rw [major_2 w h1]
  simp [decIalui, h0, h2, h3, h4, h5, x0]
theorem ialuiSlt (sw : Bool) (d a : SReg) (imm : BitVec 12) : Statement (.ialuiSlt sw d a imm) := by
  intro hw _
  have b0 := d.code_lt
  have b1 := a.code_lt
  have b2 := imm.isLt
  refine of_encI _ sw 0x02 d.code a.code 7 imm.toNat (by omega) (by omega) (by omega) (by omega) (by omega) rfl hw (fun w h0 h1 h2 h3 h4 h5 => ?_)
  rw [major_2 w h1]
  simp [decIalui, h0, h2, h3, h4, h5]
theorem lui (sw : Bool) (d : SReg) (imm : BitVec 20) : Statement (.lui sw d imm) := by
  intro hw _
  have b0 := d.code_lt
  have b1 := imm.isLt
  refine of_encU _ sw 0x03 d.code imm.toNat (by omega) (by omega) (by omega) rfl hw (fun w h0 h1 h2 h3 => ?_)
  rw [major_3 w h1]
  simp [h0, h2, h3]
theorem ibitClz (sw : Bool) (d a : SReg) : Statement (.ibitClz sw d a) := by
  intro hw _
  have b0 := d.code_lt
  have b1 := a.code_lt
  refine of_encA _ sw 0x04 d.code a.code 0 0 (by omega) (by omega) (by omega) (by omega) (by omega) rfl hw (fun w h0 h1 h2 h3 h4 h5 h6 => ?_)
  rw [major_4 w h1]
  simp [decIbit, h0, h2, h3, h4, h5]
theorem ibitCtz (sw : Bool) (d a : SReg) : Statement (.ibitCtz sw d a) := by
  intro hw _
  have b0 := d.code_lt
  have b1 := a.code_lt
  refine of_encA _ sw 0x04 d.code a.code 0 1 (by omega) (by omega) (by omega) (by omega) (by omega) rfl hw (fun w h0 h1 h2 h3 h4 h5 h6 => ?_)
  rw [major_4 w h1]
  simp [decIbit, h0, h2, h3, h4, h5]
theorem ibitPopc (sw : Bool) (d a : SReg) : Statement (.ibitPopc sw d a) := by
  intro hw _
  have b0 := d.code_lt
  have b1 := a.code_lt
  refine of_encA _ sw 0x04 d.code a.code 0 2 (by omega) (by omega) (by omega) (by omega) (by omega) rfl hw (fun w h0 h1 h2 h3 h4 h5 h6 => ?_)
  rw [major_4 w h1]
  simp [decIbit, h0, h2, h3, h4, h5]
theorem ibitBrev (sw : Bool) (d a : SReg) : Statement (.ibitBrev sw d a) := by
  intro hw _
  have b0 := d.code_lt
  have b1 := a.code_lt
  refine of_encA _ sw 0x04 d.code a.code 0 3 (by omega) (by omega) (by omega) (by omega) (by omega) rfl hw (fun w h0 h1 h2 h3 h4 h5 h6 => ?_)
  rw [major_4 w h1]
  simp [decIbit, h0, h2, h3, h4, h5]
theorem ibitBswap (sw : Bool) (d a : SReg) : Statement (.ibitBswap sw d a) := by
  intro hw _
  have b0 := d.code_lt
  have b1 := a.code_lt
  refine of_encA _ sw 0x04 d.code a.code 0 4 (by omega) (by omega) (by omega) (by omega) (by omega) rfl hw (fun w h0 h1 h2 h3 h4 h5 h6 => ?_)
  rw [major_4 w h1]
  simp [decIbit, h0, h2, h3, h4, h5]
theorem ibitSext (sw : Bool) (d a b : SReg) : Statement (.ibitSext sw d a b) := by
  intro hw _
  have b0 := d.code_lt
  have b1 := a.code_lt
  have b2 := b.code_lt
  refine of_encA _ sw 0x04 d.code a.code b.code 5 (by omega) (by omega) (by omega) (by omega) (by omega) rfl hw (fun w h0 h1 h2 h3 h4 h5 h6 => ?_)
  rw [major_4 w h1]
  simp [decIbit, h0, h2, h3, h4, h5]
theorem ibitZext (sw : Bool) (d a b : SReg) : Statement (.ibitZext sw d a b) := by
  intro hw _
  have b0 := d.code_lt
  have b1 := a.code_lt
  have b2 := b.code_lt
  refine of_encA _ sw 0x04 d.code a.code b.code 6 (by omega) (by omega) (by omega) (by omega) (by omega) rfl hw (fun w h0 h1 h2 h3 h4 h5 h6 => ?_)
  rw [major_4 w h1]
  simp [decIbit, h0, h2, h3, h4, h5]
theorem ibitBext (sw : Bool) (d a b : SReg) : Statement (.ibitBext sw d a b) := by
  intro hw _
  have b0 := d.code_lt
  have b1 := a.code_lt
  have b2 := b.code_lt
  refine of_encA _ sw 0x04 d.code a.code b.code 7 (by omega) (by omega) (by omega) (by omega) (by omega) rfl hw (fun w h0 h1 h2 h3 h4 h5 h6 => ?_)
  rw [major_4 w h1]
  simp [decIbit, h0, h2, h3, h4, h5]
theorem ibitBins (sw : Bool) (d a b : SReg) : Statement (.ibitBins sw d a b) := by
  intro hw _
  have b0 := d.code_lt
  have b1 := a.code_lt
  have b2 := b.code_lt
  refine of_encA _ sw 0x04 d.code a.code b.code 8 (by omega) (by omega) (by omega) (by omega) (by omega) rfl hw (fun w h0 h1 h2 h3 h4 h5 h6 => ?_)
  rw [major_4 w h1]
  simp [decIbit, h0, h2, h3, h4, h5]
theorem ibitRol (sw : Bool) (d a b : SReg) : Statement (.ibitRol sw d a b) := by
  intro hw _
  have b0 := d.code_lt
  have b1 := a.code_lt
  have b2 := b.code_lt
  refine of_encA _ sw 0x04 d.code a.code b.code 9 (by omega) (by omega) (by omega) (by omega) (by omega) rfl hw (fun w h0 h1 h2 h3 h4 h5 h6 => ?_)
  rw [major_4 w h1]
  simp [decIbit, h0, h2, h3, h4, h5]
theorem ibitRor (sw : Bool) (d a b : SReg) : Statement (.ibitRor sw d a b) := by
  intro hw _
  have b0 := d.code_lt
  have b1 := a.code_lt
  have b2 := b.code_lt
  refine of_encA _ sw 0x04 d.code a.code b.code 10 (by omega) (by omega) (by omega) (by omega) (by omega) rfl hw (fun w h0 h1 h2 h3 h4 h5 h6 => ?_)
  rw [major_4 w h1]
  simp [decIbit, h0, h2, h3, h4, h5]
theorem imulMul (sw : Bool) (d a b : SReg) : Statement (.imulMul sw d a b) := by
  intro hw _
  have b0 := d.code_lt
  have b1 := a.code_lt
  have b2 := b.code_lt
  refine of_encA _ sw 0x05 d.code a.code b.code 0 (by omega) (by omega) (by omega) (by omega) (by omega) rfl hw (fun w h0 h1 h2 h3 h4 h5 h6 => ?_)
  rw [major_5 w h1]
  simp [decImul, h0, h2, h3, h4, h5]
theorem imulMulh (sw : Bool) (d a b : SReg) : Statement (.imulMulh sw d a b) := by
  intro hw _
  have b0 := d.code_lt
  have b1 := a.code_lt
  have b2 := b.code_lt
  refine of_encA _ sw 0x05 d.code a.code b.code 1 (by omega) (by omega) (by omega) (by omega) (by omega) rfl hw (fun w h0 h1 h2 h3 h4 h5 h6 => ?_)
  rw [major_5 w h1]
  simp [decImul, h0, h2, h3, h4, h5]
theorem imulMulhu (sw : Bool) (d a b : SReg) : Statement (.imulMulhu sw d a b) := by
  intro hw _
  have b0 := d.code_lt
  have b1 := a.code_lt
  have b2 := b.code_lt
  refine of_encA _ sw 0x05 d.code a.code b.code 2 (by omega) (by omega) (by omega) (by omega) (by omega) rfl hw (fun w h0 h1 h2 h3 h4 h5 h6 => ?_)
  rw [major_5 w h1]
  simp [decImul, h0, h2, h3, h4, h5]
theorem imulMulhsu (sw : Bool) (d a b : SReg) : Statement (.imulMulhsu sw d a b) := by
  intro hw _
  have b0 := d.code_lt
  have b1 := a.code_lt
  have b2 := b.code_lt
  refine of_encA _ sw 0x05 d.code a.code b.code 3 (by omega) (by omega) (by omega) (by omega) (by omega) rfl hw (fun w h0 h1 h2 h3 h4 h5 h6 => ?_)
  rw [major_5 w h1]
  simp [decImul, h0, h2, h3, h4, h5]
theorem imulDiv (sw : Bool) (d a b : SReg) : Statement (.imulDiv sw d a b) := by
  intro hw _
  have b0 := d.code_lt
  have b1 := a.code_lt
  have b2 := b.code_lt
  refine of_encA _ sw 0x05 d.code a.code b.code 4 (by omega) (by omega) (by omega) (by omega) (by omega) rfl hw (fun w h0 h1 h2 h3 h4 h5 h6 => ?_)
  rw [major_5 w h1]
  simp [decImul, h0, h2, h3, h4, h5]
theorem imulDivu (sw : Bool) (d a b : SReg) : Statement (.imulDivu sw d a b) := by
  intro hw _
  have b0 := d.code_lt
  have b1 := a.code_lt
  have b2 := b.code_lt
  refine of_encA _ sw 0x05 d.code a.code b.code 5 (by omega) (by omega) (by omega) (by omega) (by omega) rfl hw (fun w h0 h1 h2 h3 h4 h5 h6 => ?_)
  rw [major_5 w h1]
  simp [decImul, h0, h2, h3, h4, h5]
theorem imulRem (sw : Bool) (d a b : SReg) : Statement (.imulRem sw d a b) := by
  intro hw _
  have b0 := d.code_lt
  have b1 := a.code_lt
  have b2 := b.code_lt
  refine of_encA _ sw 0x05 d.code a.code b.code 6 (by omega) (by omega) (by omega) (by omega) (by omega) rfl hw (fun w h0 h1 h2 h3 h4 h5 h6 => ?_)
  rw [major_5 w h1]
  simp [decImul, h0, h2, h3, h4, h5]
theorem imulRemu (sw : Bool) (d a b : SReg) : Statement (.imulRemu sw d a b) := by
  intro hw _
  have b0 := d.code_lt
  have b1 := a.code_lt
  have b2 := b.code_lt
  refine of_encA _ sw 0x05 d.code a.code b.code 7 (by omega) (by omega) (by omega) (by omega) (by omega) rfl hw (fun w h0 h1 h2 h3 h4 h5 h6 => ?_)
  rw [major_5 w h1]
  simp [decImul, h0, h2, h3, h4, h5]
theorem capGetbase (sw : Bool) (d a : SReg) : Statement (.capGetbase sw d a) := by
  intro hw _
  have b0 := d.code_lt
  have b1 := a.code_lt
  refine of_encA _ sw 0x06 d.code a.code 0 0 (by omega) (by omega) (by omega) (by omega) (by omega) rfl hw (fun w h0 h1 h2 h3 h4 h5 h6 => ?_)
  rw [major_6 w h1]
  simp [decCap, h0, h2, h3, h4, h5]
theorem capGettop (sw : Bool) (d a : SReg) : Statement (.capGettop sw d a) := by
  intro hw _
  have b0 := d.code_lt
  have b1 := a.code_lt
  refine of_encA _ sw 0x06 d.code a.code 0 1 (by omega) (by omega) (by omega) (by omega) (by omega) rfl hw (fun w h0 h1 h2 h3 h4 h5 h6 => ?_)
  rw [major_6 w h1]
  simp [decCap, h0, h2, h3, h4, h5]
theorem capGetlen (sw : Bool) (d a : SReg) : Statement (.capGetlen sw d a) := by
  intro hw _
  have b0 := d.code_lt
  have b1 := a.code_lt
  refine of_encA _ sw 0x06 d.code a.code 0 2 (by omega) (by omega) (by omega) (by omega) (by omega) rfl hw (fun w h0 h1 h2 h3 h4 h5 h6 => ?_)
  rw [major_6 w h1]
  simp [decCap, h0, h2, h3, h4, h5]
theorem capGetperm (sw : Bool) (d a : SReg) : Statement (.capGetperm sw d a) := by
  intro hw _
  have b0 := d.code_lt
  have b1 := a.code_lt
  refine of_encA _ sw 0x06 d.code a.code 0 3 (by omega) (by omega) (by omega) (by omega) (by omega) rfl hw (fun w h0 h1 h2 h3 h4 h5 h6 => ?_)
  rw [major_6 w h1]
  simp [decCap, h0, h2, h3, h4, h5]
theorem capGetspace (sw : Bool) (d a : SReg) : Statement (.capGetspace sw d a) := by
  intro hw _
  have b0 := d.code_lt
  have b1 := a.code_lt
  refine of_encA _ sw 0x06 d.code a.code 0 4 (by omega) (by omega) (by omega) (by omega) (by omega) rfl hw (fun w h0 h1 h2 h3 h4 h5 h6 => ?_)
  rw [major_6 w h1]
  simp [decCap, h0, h2, h3, h4, h5]
theorem capGettag (sw : Bool) (d a : SReg) : Statement (.capGettag sw d a) := by
  intro hw _
  have b0 := d.code_lt
  have b1 := a.code_lt
  refine of_encA _ sw 0x06 d.code a.code 0 5 (by omega) (by omega) (by omega) (by omega) (by omega) rfl hw (fun w h0 h1 h2 h3 h4 h5 h6 => ?_)
  rw [major_6 w h1]
  simp [decCap, h0, h2, h3, h4, h5]
theorem capSetcur (sw : Bool) (d a b : SReg) : Statement (.capSetcur sw d a b) := by
  intro hw _
  have b0 := d.code_lt
  have b1 := a.code_lt
  have b2 := b.code_lt
  refine of_encA _ sw 0x06 d.code a.code b.code 6 (by omega) (by omega) (by omega) (by omega) (by omega) rfl hw (fun w h0 h1 h2 h3 h4 h5 h6 => ?_)
  rw [major_6 w h1]
  simp [decCap, h0, h2, h3, h4, h5]
theorem capAddcur (sw : Bool) (d a b : SReg) : Statement (.capAddcur sw d a b) := by
  intro hw _
  have b0 := d.code_lt
  have b1 := a.code_lt
  have b2 := b.code_lt
  refine of_encA _ sw 0x06 d.code a.code b.code 7 (by omega) (by omega) (by omega) (by omega) (by omega) rfl hw (fun w h0 h1 h2 h3 h4 h5 h6 => ?_)
  rw [major_6 w h1]
  simp [decCap, h0, h2, h3, h4, h5]
theorem capSetbnd (sw : Bool) (d a b : SReg) : Statement (.capSetbnd sw d a b) := by
  intro hw _
  have b0 := d.code_lt
  have b1 := a.code_lt
  have b2 := b.code_lt
  refine of_encA _ sw 0x06 d.code a.code b.code 8 (by omega) (by omega) (by omega) (by omega) (by omega) rfl hw (fun w h0 h1 h2 h3 h4 h5 h6 => ?_)
  rw [major_6 w h1]
  simp [decCap, h0, h2, h3, h4, h5]
theorem capSetbndx (sw : Bool) (d a b : SReg) : Statement (.capSetbndx sw d a b) := by
  intro hw _
  have b0 := d.code_lt
  have b1 := a.code_lt
  have b2 := b.code_lt
  refine of_encA _ sw 0x06 d.code a.code b.code 9 (by omega) (by omega) (by omega) (by omega) (by omega) rfl hw (fun w h0 h1 h2 h3 h4 h5 h6 => ?_)
  rw [major_6 w h1]
  simp [decCap, h0, h2, h3, h4, h5]
theorem capAndperm (sw : Bool) (d a b : SReg) : Statement (.capAndperm sw d a b) := by
  intro hw _
  have b0 := d.code_lt
  have b1 := a.code_lt
  have b2 := b.code_lt
  refine of_encA _ sw 0x06 d.code a.code b.code 10 (by omega) (by omega) (by omega) (by omega) (by omega) rfl hw (fun w h0 h1 h2 h3 h4 h5 h6 => ?_)
  rw [major_6 w h1]
  simp [decCap, h0, h2, h3, h4, h5]
theorem capSetspace (sw : Bool) (d a b : SReg) : Statement (.capSetspace sw d a b) := by
  intro hw _
  have b0 := d.code_lt
  have b1 := a.code_lt
  have b2 := b.code_lt
  refine of_encA _ sw 0x06 d.code a.code b.code 11 (by omega) (by omega) (by omega) (by omega) (by omega) rfl hw (fun w h0 h1 h2 h3 h4 h5 h6 => ?_)
  rw [major_6 w h1]
  simp [decCap, h0, h2, h3, h4, h5]
theorem capiAddcur (sw : Bool) (d a : SReg) (imm : BitVec 12) : Statement (.capiAddcur sw d a imm) := by
  intro hw _
  have b0 := d.code_lt
  have b1 := a.code_lt
  have b2 := imm.isLt
  refine of_encI _ sw 0x07 d.code a.code 0 imm.toNat (by omega) (by omega) (by omega) (by omega) (by omega) rfl hw (fun w h0 h1 h2 h3 h4 h5 => ?_)
  rw [major_7 w h1]
  simp [decCapi, h0, h2, h3, h4, h5]
theorem capiSetbnd (sw : Bool) (d a : SReg) (imm : BitVec 12) : Statement (.capiSetbnd sw d a imm) := by
  intro hw _
  have b0 := d.code_lt
  have b1 := a.code_lt
  have b2 := imm.isLt
  refine of_encI _ sw 0x07 d.code a.code 1 imm.toNat (by omega) (by omega) (by omega) (by omega) (by omega) rfl hw (fun w h0 h1 h2 h3 h4 h5 => ?_)
  rw [major_7 w h1]
  simp [decCapi, h0, h2, h3, h4, h5]
theorem capiSetbndx (sw : Bool) (d a : SReg) (imm : BitVec 12) : Statement (.capiSetbndx sw d a imm) := by
  intro hw _
  have b0 := d.code_lt
  have b1 := a.code_lt
  have b2 := imm.isLt
  refine of_encI _ sw 0x07 d.code a.code 2 imm.toNat (by omega) (by omega) (by omega) (by omega) (by omega) rfl hw (fun w h0 h1 h2 h3 h4 h5 => ?_)
  rw [major_7 w h1]
  simp [decCapi, h0, h2, h3, h4, h5]
theorem capiAndperm (sw : Bool) (d a : SReg) (imm : BitVec 12) : Statement (.capiAndperm sw d a imm) := by
  intro hw _
  have b0 := d.code_lt
  have b1 := a.code_lt
  have b2 := imm.isLt
  refine of_encI _ sw 0x07 d.code a.code 3 imm.toNat (by omega) (by omega) (by omega) (by omega) (by omega) rfl hw (fun w h0 h1 h2 h3 h4 h5 => ?_)
  rw [major_7 w h1]
  simp [decCapi, h0, h2, h3, h4, h5]
theorem brEq (sw : Bool) (a b : SReg) (off : BitVec 12) : Statement (.brEq sw a b off) := by
  intro hw _
  have b0 := a.code_lt
  have b1 := b.code_lt
  have b2 := off.isLt
  refine of_encB _ sw 0x08 a.code b.code 0 off.toNat (by omega) (by omega) (by omega) (by omega) (by omega) rfl hw (fun w h0 h1 h2 h3 h4 h5 => ?_)
  rw [major_8 w h1]
  simp [decBr, h0, h2, h3, h4, h5]
theorem brNe (sw : Bool) (a b : SReg) (off : BitVec 12) : Statement (.brNe sw a b off) := by
  intro hw _
  have b0 := a.code_lt
  have b1 := b.code_lt
  have b2 := off.isLt
  refine of_encB _ sw 0x08 a.code b.code 1 off.toNat (by omega) (by omega) (by omega) (by omega) (by omega) rfl hw (fun w h0 h1 h2 h3 h4 h5 => ?_)
  rw [major_8 w h1]
  simp [decBr, h0, h2, h3, h4, h5]
theorem brLt (sw : Bool) (a b : SReg) (off : BitVec 12) : Statement (.brLt sw a b off) := by
  intro hw _
  have b0 := a.code_lt
  have b1 := b.code_lt
  have b2 := off.isLt
  refine of_encB _ sw 0x08 a.code b.code 2 off.toNat (by omega) (by omega) (by omega) (by omega) (by omega) rfl hw (fun w h0 h1 h2 h3 h4 h5 => ?_)
  rw [major_8 w h1]
  simp [decBr, h0, h2, h3, h4, h5]
theorem brGe (sw : Bool) (a b : SReg) (off : BitVec 12) : Statement (.brGe sw a b off) := by
  intro hw _
  have b0 := a.code_lt
  have b1 := b.code_lt
  have b2 := off.isLt
  refine of_encB _ sw 0x08 a.code b.code 3 off.toNat (by omega) (by omega) (by omega) (by omega) (by omega) rfl hw (fun w h0 h1 h2 h3 h4 h5 => ?_)
  rw [major_8 w h1]
  simp [decBr, h0, h2, h3, h4, h5]
theorem brLtu (sw : Bool) (a b : SReg) (off : BitVec 12) : Statement (.brLtu sw a b off) := by
  intro hw _
  have b0 := a.code_lt
  have b1 := b.code_lt
  have b2 := off.isLt
  refine of_encB _ sw 0x08 a.code b.code 4 off.toNat (by omega) (by omega) (by omega) (by omega) (by omega) rfl hw (fun w h0 h1 h2 h3 h4 h5 => ?_)
  rw [major_8 w h1]
  simp [decBr, h0, h2, h3, h4, h5]
theorem brGeu (sw : Bool) (a b : SReg) (off : BitVec 12) : Statement (.brGeu sw a b off) := by
  intro hw _
  have b0 := a.code_lt
  have b1 := b.code_lt
  have b2 := off.isLt
  refine of_encB _ sw 0x08 a.code b.code 5 off.toNat (by omega) (by omega) (by omega) (by omega) (by omega) rfl hw (fun w h0 h1 h2 h3 h4 h5 => ?_)
  rw [major_8 w h1]
  simp [decBr, h0, h2, h3, h4, h5]
theorem brBset (sw : Bool) (a b : SReg) (off : BitVec 12) : Statement (.brBset sw a b off) := by
  intro hw _
  have b0 := a.code_lt
  have b1 := b.code_lt
  have b2 := off.isLt
  refine of_encB _ sw 0x08 a.code b.code 6 off.toNat (by omega) (by omega) (by omega) (by omega) (by omega) rfl hw (fun w h0 h1 h2 h3 h4 h5 => ?_)
  rw [major_8 w h1]
  simp [decBr, h0, h2, h3, h4, h5]
theorem brBclr (sw : Bool) (a b : SReg) (off : BitVec 12) : Statement (.brBclr sw a b off) := by
  intro hw _
  have b0 := a.code_lt
  have b1 := b.code_lt
  have b2 := off.isLt
  refine of_encB _ sw 0x08 a.code b.code 7 off.toNat (by omega) (by omega) (by omega) (by omega) (by omega) rfl hw (fun w h0 h1 h2 h3 h4 h5 => ?_)
  rw [major_8 w h1]
  simp [decBr, h0, h2, h3, h4, h5]
theorem jmp (sw : Bool) (off : BitVec 25) : Statement (.jmp sw off) := by
  intro hw _
  have b0 := off.isLt
  refine of_encJ _ sw 0x09 off.toNat (by omega) (by omega) rfl hw (fun w h0 h1 h2 => ?_)
  rw [major_9 w h1]
  simp [h0, h2]
theorem call (sw : Bool) (off : BitVec 25) : Statement (.call sw off) := by
  intro hw _
  have b0 := off.isLt
  refine of_encJ _ sw 0x0A off.toNat (by omega) (by omega) rfl hw (fun w h0 h1 h2 => ?_)
  rw [major_10 w h1]
  simp [h0, h2]
theorem jrGo (sw : Bool) (a : SReg) : Statement (.jrGo sw a) := by
  intro hw _
  have b0 := a.code_lt
  refine of_encA _ sw 0x0B 0 a.code 0 0 (by omega) (by omega) (by omega) (by omega) (by omega) rfl hw (fun w h0 h1 h2 h3 h4 h5 h6 => ?_)
  rw [major_11 w h1]
  simp [decJr, h0, h2, h3, h4, h5]
theorem jrLink (sw : Bool) (d a : SReg) : Statement (.jrLink sw d a) := by
  intro hw _
  have b0 := d.code_lt
  have b1 := a.code_lt
  refine of_encA _ sw 0x0B d.code a.code 0 1 (by omega) (by omega) (by omega) (by omega) (by omega) rfl hw (fun w h0 h1 h2 h3 h4 h5 h6 => ?_)
  rw [major_11 w h1]
  simp [decJr, h0, h2, h3, h4, h5]
theorem fpuAdd (sw : Bool) (d a b : SReg) (fmt : SFmt) : Statement (.fpuAdd sw d a b fmt) := by
  intro hw _
  have b0 := d.code_lt
  have b1 := a.code_lt
  have b2 := b.code_lt
  have b3 := fmt.code_lt
  refine of_encA _ sw 0x0C d.code a.code b.code (fmt.code * 256 + 0) (by omega) (by omega) (by omega) (by omega) (by omega) rfl hw (fun w h0 h1 h2 h3 h4 h5 h6 => ?_)
  have x0 : fFn w / 256 = fmt.code := by omega
  have x1 : fFn8 w = 0 := by omega
  rw [major_12 w h1]
  simp [decFpu, h0, h2, h3, h4, x0, x1]
theorem fpuSub (sw : Bool) (d a b : SReg) (fmt : SFmt) : Statement (.fpuSub sw d a b fmt) := by
  intro hw _
  have b0 := d.code_lt
  have b1 := a.code_lt
  have b2 := b.code_lt
  have b3 := fmt.code_lt
  refine of_encA _ sw 0x0C d.code a.code b.code (fmt.code * 256 + 1) (by omega) (by omega) (by omega) (by omega) (by omega) rfl hw (fun w h0 h1 h2 h3 h4 h5 h6 => ?_)
  have x0 : fFn w / 256 = fmt.code := by omega
  have x1 : fFn8 w = 1 := by omega
  rw [major_12 w h1]
  simp [decFpu, h0, h2, h3, h4, x0, x1]
theorem fpuMul (sw : Bool) (d a b : SReg) (fmt : SFmt) : Statement (.fpuMul sw d a b fmt) := by
  intro hw _
  have b0 := d.code_lt
  have b1 := a.code_lt
  have b2 := b.code_lt
  have b3 := fmt.code_lt
  refine of_encA _ sw 0x0C d.code a.code b.code (fmt.code * 256 + 2) (by omega) (by omega) (by omega) (by omega) (by omega) rfl hw (fun w h0 h1 h2 h3 h4 h5 h6 => ?_)
  have x0 : fFn w / 256 = fmt.code := by omega
  have x1 : fFn8 w = 2 := by omega
  rw [major_12 w h1]
  simp [decFpu, h0, h2, h3, h4, x0, x1]
theorem fpuDiv (sw : Bool) (d a b : SReg) (fmt : SFmt) : Statement (.fpuDiv sw d a b fmt) := by
  intro hw _
  have b0 := d.code_lt
  have b1 := a.code_lt
  have b2 := b.code_lt
  have b3 := fmt.code_lt
  refine of_encA _ sw 0x0C d.code a.code b.code (fmt.code * 256 + 3) (by omega) (by omega) (by omega) (by omega) (by omega) rfl hw (fun w h0 h1 h2 h3 h4 h5 h6 => ?_)
  have x0 : fFn w / 256 = fmt.code := by omega
  have x1 : fFn8 w = 3 := by omega
  rw [major_12 w h1]
  simp [decFpu, h0, h2, h3, h4, x0, x1]
theorem fpuSqrt (sw : Bool) (d a : SReg) (fmt : SFmt) : Statement (.fpuSqrt sw d a fmt) := by
  intro hw _
  have b0 := d.code_lt
  have b1 := a.code_lt
  have b2 := fmt.code_lt
  refine of_encA _ sw 0x0C d.code a.code 0 (fmt.code * 256 + 4) (by omega) (by omega) (by omega) (by omega) (by omega) rfl hw (fun w h0 h1 h2 h3 h4 h5 h6 => ?_)
  have x0 : fFn w / 256 = fmt.code := by omega
  have x1 : fFn8 w = 4 := by omega
  rw [major_12 w h1]
  simp [decFpu, h0, h2, h3, h4, x0, x1]
theorem fpuFma (sw : Bool) (d a b : SReg) (fmt : SFmt) : Statement (.fpuFma sw d a b fmt) := by
  intro hw _
  have b0 := d.code_lt
  have b1 := a.code_lt
  have b2 := b.code_lt
  have b3 := fmt.code_lt
  refine of_encA _ sw 0x0C d.code a.code b.code (fmt.code * 256 + 5) (by omega) (by omega) (by omega) (by omega) (by omega) rfl hw (fun w h0 h1 h2 h3 h4 h5 h6 => ?_)
  have x0 : fFn w / 256 = fmt.code := by omega
  have x1 : fFn8 w = 5 := by omega
  rw [major_12 w h1]
  simp [decFpu, h0, h2, h3, h4, x0, x1]
theorem fpuMin (sw : Bool) (d a b : SReg) (fmt : SFmt) : Statement (.fpuMin sw d a b fmt) := by
  intro hw _
  have b0 := d.code_lt
  have b1 := a.code_lt
  have b2 := b.code_lt
  have b3 := fmt.code_lt
  refine of_encA _ sw 0x0C d.code a.code b.code (fmt.code * 256 + 6) (by omega) (by omega) (by omega) (by omega) (by omega) rfl hw (fun w h0 h1 h2 h3 h4 h5 h6 => ?_)
  have x0 : fFn w / 256 = fmt.code := by omega
  have x1 : fFn8 w = 6 := by omega
  rw [major_12 w h1]
  simp [decFpu, h0, h2, h3, h4, x0, x1]
theorem fpuMax (sw : Bool) (d a b : SReg) (fmt : SFmt) : Statement (.fpuMax sw d a b fmt) := by
  intro hw _
  have b0 := d.code_lt
  have b1 := a.code_lt
  have b2 := b.code_lt
  have b3 := fmt.code_lt
  refine of_encA _ sw 0x0C d.code a.code b.code (fmt.code * 256 + 7) (by omega) (by omega) (by omega) (by omega) (by omega) rfl hw (fun w h0 h1 h2 h3 h4 h5 h6 => ?_)
  have x0 : fFn w / 256 = fmt.code := by omega
  have x1 : fFn8 w = 7 := by omega
  rw [major_12 w h1]
  simp [decFpu, h0, h2, h3, h4, x0, x1]
theorem fpuNeg (sw : Bool) (d a : SReg) (fmt : SFmt) : Statement (.fpuNeg sw d a fmt) := by
  intro hw _
  have b0 := d.code_lt
  have b1 := a.code_lt
  have b2 := fmt.code_lt
  refine of_encA _ sw 0x0C d.code a.code 0 (fmt.code * 256 + 8) (by omega) (by omega) (by omega) (by omega) (by omega) rfl hw (fun w h0 h1 h2 h3 h4 h5 h6 => ?_)
  have x0 : fFn w / 256 = fmt.code := by omega
  have x1 : fFn8 w = 8 := by omega
  rw [major_12 w h1]
  simp [decFpu, h0, h2, h3, h4, x0, x1]
theorem fpuAbs (sw : Bool) (d a : SReg) (fmt : SFmt) : Statement (.fpuAbs sw d a fmt) := by
  intro hw _
  have b0 := d.code_lt
  have b1 := a.code_lt
  have b2 := fmt.code_lt
  refine of_encA _ sw 0x0C d.code a.code 0 (fmt.code * 256 + 9) (by omega) (by omega) (by omega) (by omega) (by omega) rfl hw (fun w h0 h1 h2 h3 h4 h5 h6 => ?_)
  have x0 : fFn w / 256 = fmt.code := by omega
  have x1 : fFn8 w = 9 := by omega
  rw [major_12 w h1]
  simp [decFpu, h0, h2, h3, h4, x0, x1]
theorem fpuSgnj (sw : Bool) (d a b : SReg) (fmt : SFmt) : Statement (.fpuSgnj sw d a b fmt) := by
  intro hw _
  have b0 := d.code_lt
  have b1 := a.code_lt
  have b2 := b.code_lt
  have b3 := fmt.code_lt
  refine of_encA _ sw 0x0C d.code a.code b.code (fmt.code * 256 + 10) (by omega) (by omega) (by omega) (by omega) (by omega) rfl hw (fun w h0 h1 h2 h3 h4 h5 h6 => ?_)
  have x0 : fFn w / 256 = fmt.code := by omega
  have x1 : fFn8 w = 10 := by omega
  rw [major_12 w h1]
  simp [decFpu, h0, h2, h3, h4, x0, x1]
theorem fpuCmpeq (sw : Bool) (d a b : SReg) (fmt : SFmt) : Statement (.fpuCmpeq sw d a b fmt) := by
  intro hw _
  have b0 := d.code_lt
  have b1 := a.code_lt
  have b2 := b.code_lt
  have b3 := fmt.code_lt
  refine of_encA _ sw 0x0C d.code a.code b.code (fmt.code * 256 + 11) (by omega) (by omega) (by omega) (by omega) (by omega) rfl hw (fun w h0 h1 h2 h3 h4 h5 h6 => ?_)
  have x0 : fFn w / 256 = fmt.code := by omega
  have x1 : fFn8 w = 11 := by omega
  rw [major_12 w h1]
  simp [decFpu, h0, h2, h3, h4, x0, x1]
theorem fpuCmplt (sw : Bool) (d a b : SReg) (fmt : SFmt) : Statement (.fpuCmplt sw d a b fmt) := by
  intro hw _
  have b0 := d.code_lt
  have b1 := a.code_lt
  have b2 := b.code_lt
  have b3 := fmt.code_lt
  refine of_encA _ sw 0x0C d.code a.code b.code (fmt.code * 256 + 12) (by omega) (by omega) (by omega) (by omega) (by omega) rfl hw (fun w h0 h1 h2 h3 h4 h5 h6 => ?_)
  have x0 : fFn w / 256 = fmt.code := by omega
  have x1 : fFn8 w = 12 := by omega
  rw [major_12 w h1]
  simp [decFpu, h0, h2, h3, h4, x0, x1]
theorem fpuCmple (sw : Bool) (d a b : SReg) (fmt : SFmt) : Statement (.fpuCmple sw d a b fmt) := by
  intro hw _
  have b0 := d.code_lt
  have b1 := a.code_lt
  have b2 := b.code_lt
  have b3 := fmt.code_lt
  refine of_encA _ sw 0x0C d.code a.code b.code (fmt.code * 256 + 13) (by omega) (by omega) (by omega) (by omega) (by omega) rfl hw (fun w h0 h1 h2 h3 h4 h5 h6 => ?_)
  have x0 : fFn w / 256 = fmt.code := by omega
  have x1 : fFn8 w = 13 := by omega
  rw [major_12 w h1]
  simp [decFpu, h0, h2, h3, h4, x0, x1]
theorem fpuClass (sw : Bool) (d a : SReg) (fmt : SFmt) : Statement (.fpuClass sw d a fmt) := by
  intro hw _
  have b0 := d.code_lt
  have b1 := a.code_lt
  have b2 := fmt.code_lt
  refine of_encA _ sw 0x0C d.code a.code 0 (fmt.code * 256 + 14) (by omega) (by omega) (by omega) (by omega) (by omega) rfl hw (fun w h0 h1 h2 h3 h4 h5 h6 => ?_)
  have x0 : fFn w / 256 = fmt.code := by omega
  have x1 : fFn8 w = 14 := by omega
  rw [major_12 w h1]
  simp [decFpu, h0, h2, h3, h4, x0, x1]
theorem fcvt (sw : Bool) (d a : SReg) (dst src : CFmt) : Statement (.fcvt sw d a dst src) := by
  intro hw _
  have b0 := d.code_lt
  have b1 := a.code_lt
  have b2 := dst.code_lt
  have b3 := src.code_lt
  refine of_encA _ sw 0x0D d.code a.code 0 (dst.code * 32 + src.code) (by omega) (by omega) (by omega) (by omega) (by omega) rfl hw (fun w h0 h1 h2 h3 h4 h5 h6 => ?_)
  have x0 : fFn w / 32 = dst.code := by omega
  have x1 : fFn w % 32 = src.code := by omega
  rw [major_13 w h1]
  simp [decFcvt, h0, h2, h3, h4, x0, x1]
theorem lblGet (sw : Bool) (d a : SReg) : Statement (.lblGet sw d a) := by
  intro hw _
  have b0 := d.code_lt
  have b1 := a.code_lt
  refine of_encA _ sw 0x0E d.code a.code 0 0 (by omega) (by omega) (by omega) (by omega) (by omega) rfl hw (fun w h0 h1 h2 h3 h4 h5 h6 => ?_)
  rw [major_14 w h1]
  simp [decLbl, h0, h2, h3, h4, h5]
theorem lblCtl (sw : Bool) (d : SReg) : Statement (.lblCtl sw d) := by
  intro hw _
  have b0 := d.code_lt
  refine of_encA _ sw 0x0E d.code 0 0 1 (by omega) (by omega) (by omega) (by omega) (by omega) rfl hw (fun w h0 h1 h2 h3 h4 h5 h6 => ?_)
  rw [major_14 w h1]
  simp [decLbl, h0, h2, h3, h4, h5]
theorem lblRaise (sw : Bool) (d a b : SReg) : Statement (.lblRaise sw d a b) := by
  intro hw _
  have b0 := d.code_lt
  have b1 := a.code_lt
  have b2 := b.code_lt
  refine of_encA _ sw 0x0E d.code a.code b.code 2 (by omega) (by omega) (by omega) (by omega) (by omega) rfl hw (fun w h0 h1 h2 h3 h4 h5 h6 => ?_)
  rw [major_14 w h1]
  simp [decLbl, h0, h2, h3, h4, h5]
theorem lblSub (sw : Bool) (d a b : SReg) : Statement (.lblSub sw d a b) := by
  intro hw _
  have b0 := d.code_lt
  have b1 := a.code_lt
  have b2 := b.code_lt
  refine of_encA _ sw 0x0E d.code a.code b.code 3 (by omega) (by omega) (by omega) (by omega) (by omega) rfl hw (fun w h0 h1 h2 h3 h4 h5 h6 => ?_)
  rw [major_14 w h1]
  simp [decLbl, h0, h2, h3, h4, h5]
theorem ld (sw : Bool) (d a : SReg) (scope : Scope) (order : Order) (size : Size) (off : BitVec 6) : Statement (.ld sw d a scope order size off) := by
  intro hw _
  have b0 := d.code_lt
  have b1 := a.code_lt
  have b2 := scope.code_lt
  have b3 := order.code_lt
  have b4 := size.code_lt
  have b5 := off.isLt
  refine of_encM _ sw 0x10 d.code a.code scope.code order.code size.code off.toNat (by omega) (by omega) (by omega) (by omega) (by omega) (by omega) (by omega) rfl hw (fun w h0 h1 h2 h3 h4 h5 h6 h7 => ?_)
  rw [major_16 w h1]
  simp [decLdSt, h0, h2, h3, h4, h5, h6, h7]
theorem st (sw : Bool) (d a : SReg) (scope : Scope) (order : Order) (size : Size) (off : BitVec 6) : Statement (.st sw d a scope order size off) := by
  intro hw _
  have b0 := d.code_lt
  have b1 := a.code_lt
  have b2 := scope.code_lt
  have b3 := order.code_lt
  have b4 := size.code_lt
  have b5 := off.isLt
  refine of_encM _ sw 0x11 d.code a.code scope.code order.code size.code off.toNat (by omega) (by omega) (by omega) (by omega) (by omega) (by omega) (by omega) rfl hw (fun w h0 h1 h2 h3 h4 h5 h6 h7 => ?_)
  rw [major_17 w h1]
  simp [decLdSt, h0, h2, h3, h4, h5, h6, h7]
theorem atomSwap (sw : Bool) (d a b : SReg) (scope : Scope) (order : Order) (sz : ASize) : Statement (.atomSwap sw d a b scope order sz) := by
  intro hw _
  have b0 := d.code_lt
  have b1 := a.code_lt
  have b2 := b.code_lt
  have b3 := scope.code_lt
  have b4 := order.code_lt
  have b5 := sz.code_lt
  refine of_encA _ sw 0x12 d.code a.code b.code (scope.code * 64 + order.code * 16 + sz.code * 8 + 0) (by omega) (by omega) (by omega) (by omega) (by omega) rfl hw (fun w h0 h1 h2 h3 h4 h5 h6 => ?_)
  have x0 : fFn w / 64 = scope.code := by omega
  have x1 : fFn w / 16 % 4 = order.code := by omega
  have x2 : fFn w / 8 % 2 = sz.code := by omega
  have x3 : fFn w % 8 = 0 := by omega
  rw [major_18 w h1]
  simp [decAtom, h0, h2, h3, h4, x0, x1, x2, x3]
theorem atomCas (sw : Bool) (d a b : SReg) (scope : Scope) (order : Order) (sz : ASize) : Statement (.atomCas sw d a b scope order sz) := by
  intro hw _
  have b0 := d.code_lt
  have b1 := a.code_lt
  have b2 := b.code_lt
  have b3 := scope.code_lt
  have b4 := order.code_lt
  have b5 := sz.code_lt
  refine of_encA _ sw 0x12 d.code a.code b.code (scope.code * 64 + order.code * 16 + sz.code * 8 + 1) (by omega) (by omega) (by omega) (by omega) (by omega) rfl hw (fun w h0 h1 h2 h3 h4 h5 h6 => ?_)
  have x0 : fFn w / 64 = scope.code := by omega
  have x1 : fFn w / 16 % 4 = order.code := by omega
  have x2 : fFn w / 8 % 2 = sz.code := by omega
  have x3 : fFn w % 8 = 1 := by omega
  rw [major_18 w h1]
  simp [decAtom, h0, h2, h3, h4, x0, x1, x2, x3]
theorem atomAdd (sw : Bool) (d a b : SReg) (scope : Scope) (order : Order) (sz : ASize) : Statement (.atomAdd sw d a b scope order sz) := by
  intro hw _
  have b0 := d.code_lt
  have b1 := a.code_lt
  have b2 := b.code_lt
  have b3 := scope.code_lt
  have b4 := order.code_lt
  have b5 := sz.code_lt
  refine of_encA _ sw 0x12 d.code a.code b.code (scope.code * 64 + order.code * 16 + sz.code * 8 + 2) (by omega) (by omega) (by omega) (by omega) (by omega) rfl hw (fun w h0 h1 h2 h3 h4 h5 h6 => ?_)
  have x0 : fFn w / 64 = scope.code := by omega
  have x1 : fFn w / 16 % 4 = order.code := by omega
  have x2 : fFn w / 8 % 2 = sz.code := by omega
  have x3 : fFn w % 8 = 2 := by omega
  rw [major_18 w h1]
  simp [decAtom, h0, h2, h3, h4, x0, x1, x2, x3]
theorem atomAnd (sw : Bool) (d a b : SReg) (scope : Scope) (order : Order) (sz : ASize) : Statement (.atomAnd sw d a b scope order sz) := by
  intro hw _
  have b0 := d.code_lt
  have b1 := a.code_lt
  have b2 := b.code_lt
  have b3 := scope.code_lt
  have b4 := order.code_lt
  have b5 := sz.code_lt
  refine of_encA _ sw 0x12 d.code a.code b.code (scope.code * 64 + order.code * 16 + sz.code * 8 + 3) (by omega) (by omega) (by omega) (by omega) (by omega) rfl hw (fun w h0 h1 h2 h3 h4 h5 h6 => ?_)
  have x0 : fFn w / 64 = scope.code := by omega
  have x1 : fFn w / 16 % 4 = order.code := by omega
  have x2 : fFn w / 8 % 2 = sz.code := by omega
  have x3 : fFn w % 8 = 3 := by omega
  rw [major_18 w h1]
  simp [decAtom, h0, h2, h3, h4, x0, x1, x2, x3]
theorem atomOr (sw : Bool) (d a b : SReg) (scope : Scope) (order : Order) (sz : ASize) : Statement (.atomOr sw d a b scope order sz) := by
  intro hw _
  have b0 := d.code_lt
  have b1 := a.code_lt
  have b2 := b.code_lt
  have b3 := scope.code_lt
  have b4 := order.code_lt
  have b5 := sz.code_lt
  refine of_encA _ sw 0x12 d.code a.code b.code (scope.code * 64 + order.code * 16 + sz.code * 8 + 4) (by omega) (by omega) (by omega) (by omega) (by omega) rfl hw (fun w h0 h1 h2 h3 h4 h5 h6 => ?_)
  have x0 : fFn w / 64 = scope.code := by omega
  have x1 : fFn w / 16 % 4 = order.code := by omega
  have x2 : fFn w / 8 % 2 = sz.code := by omega
  have x3 : fFn w % 8 = 4 := by omega
  rw [major_18 w h1]
  simp [decAtom, h0, h2, h3, h4, x0, x1, x2, x3]
theorem atomMin (sw : Bool) (d a b : SReg) (scope : Scope) (order : Order) (sz : ASize) : Statement (.atomMin sw d a b scope order sz) := by
  intro hw _
  have b0 := d.code_lt
  have b1 := a.code_lt
  have b2 := b.code_lt
  have b3 := scope.code_lt
  have b4 := order.code_lt
  have b5 := sz.code_lt
  refine of_encA _ sw 0x12 d.code a.code b.code (scope.code * 64 + order.code * 16 + sz.code * 8 + 5) (by omega) (by omega) (by omega) (by omega) (by omega) rfl hw (fun w h0 h1 h2 h3 h4 h5 h6 => ?_)
  have x0 : fFn w / 64 = scope.code := by omega
  have x1 : fFn w / 16 % 4 = order.code := by omega
  have x2 : fFn w / 8 % 2 = sz.code := by omega
  have x3 : fFn w % 8 = 5 := by omega
  rw [major_18 w h1]
  simp [decAtom, h0, h2, h3, h4, x0, x1, x2, x3]
theorem atomMax (sw : Bool) (d a b : SReg) (scope : Scope) (order : Order) (sz : ASize) : Statement (.atomMax sw d a b scope order sz) := by
  intro hw _
  have b0 := d.code_lt
  have b1 := a.code_lt
  have b2 := b.code_lt
  have b3 := scope.code_lt
  have b4 := order.code_lt
  have b5 := sz.code_lt
  refine of_encA _ sw 0x12 d.code a.code b.code (scope.code * 64 + order.code * 16 + sz.code * 8 + 6) (by omega) (by omega) (by omega) (by omega) (by omega) rfl hw (fun w h0 h1 h2 h3 h4 h5 h6 => ?_)
  have x0 : fFn w / 64 = scope.code := by omega
  have x1 : fFn w / 16 % 4 = order.code := by omega
  have x2 : fFn w / 8 % 2 = sz.code := by omega
  have x3 : fFn w % 8 = 6 := by omega
  rw [major_18 w h1]
  simp [decAtom, h0, h2, h3, h4, x0, x1, x2, x3]
theorem atomDecf (sw : Bool) (d a b : SReg) (scope : Scope) (order : Order) (sz : ASize) : Statement (.atomDecf sw d a b scope order sz) := by
  intro hw _
  have b0 := d.code_lt
  have b1 := a.code_lt
  have b2 := b.code_lt
  have b3 := scope.code_lt
  have b4 := order.code_lt
  have b5 := sz.code_lt
  refine of_encA _ sw 0x12 d.code a.code b.code (scope.code * 64 + order.code * 16 + sz.code * 8 + 7) (by omega) (by omega) (by omega) (by omega) (by omega) rfl hw (fun w h0 h1 h2 h3 h4 h5 h6 => ?_)
  have x0 : fFn w / 64 = scope.code := by omega
  have x1 : fFn w / 16 % 4 = order.code := by omega
  have x2 : fFn w / 8 % 2 = sz.code := by omega
  have x3 : fFn w % 8 = 7 := by omega
  rw [major_18 w h1]
  simp [decAtom, h0, h2, h3, h4, x0, x1, x2, x3]
theorem fatomAdd (sw : Bool) (d a b : SReg) (scope : Scope) (order : Order) (fmt : SFmt) : Statement (.fatomAdd sw d a b scope order fmt) := by
  intro hw _
  have b0 := d.code_lt
  have b1 := a.code_lt
  have b2 := b.code_lt
  have b3 := scope.code_lt
  have b4 := order.code_lt
  have b5 := fmt.code_lt
  refine of_encA _ sw 0x13 d.code a.code b.code (scope.code * 64 + order.code * 16 + fmt.code * 8 + 0) (by omega) (by omega) (by omega) (by omega) (by omega) rfl hw (fun w h0 h1 h2 h3 h4 h5 h6 => ?_)
  have x0 : fFn w / 64 = scope.code := by omega
  have x1 : fFn w / 16 % 4 = order.code := by omega
  have x2 : fFn w / 8 % 2 = fmt.code := by omega
  have x3 : fFn w % 8 = 0 := by omega
  rw [major_19 w h1]
  simp [decFatom, h0, h2, h3, h4, x0, x1, x2, x3]
theorem fatomMin (sw : Bool) (d a b : SReg) (scope : Scope) (order : Order) (fmt : SFmt) : Statement (.fatomMin sw d a b scope order fmt) := by
  intro hw _
  have b0 := d.code_lt
  have b1 := a.code_lt
  have b2 := b.code_lt
  have b3 := scope.code_lt
  have b4 := order.code_lt
  have b5 := fmt.code_lt
  refine of_encA _ sw 0x13 d.code a.code b.code (scope.code * 64 + order.code * 16 + fmt.code * 8 + 1) (by omega) (by omega) (by omega) (by omega) (by omega) rfl hw (fun w h0 h1 h2 h3 h4 h5 h6 => ?_)
  have x0 : fFn w / 64 = scope.code := by omega
  have x1 : fFn w / 16 % 4 = order.code := by omega
  have x2 : fFn w / 8 % 2 = fmt.code := by omega
  have x3 : fFn w % 8 = 1 := by omega
  rw [major_19 w h1]
  simp [decFatom, h0, h2, h3, h4, x0, x1, x2, x3]
theorem fatomMax (sw : Bool) (d a b : SReg) (scope : Scope) (order : Order) (fmt : SFmt) : Statement (.fatomMax sw d a b scope order fmt) := by
  intro hw _
  have b0 := d.code_lt
  have b1 := a.code_lt
  have b2 := b.code_lt
  have b3 := scope.code_lt
  have b4 := order.code_lt
  have b5 := fmt.code_lt
  refine of_encA _ sw 0x13 d.code a.code b.code (scope.code * 64 + order.code * 16 + fmt.code * 8 + 2) (by omega) (by omega) (by omega) (by omega) (by omega) rfl hw (fun w h0 h1 h2 h3 h4 h5 h6 => ?_)
  have x0 : fFn w / 64 = scope.code := by omega
  have x1 : fFn w / 16 % 4 = order.code := by omega
  have x2 : fFn w / 8 % 2 = fmt.code := by omega
  have x3 : fFn w % 8 = 2 := by omega
  rw [major_19 w h1]
  simp [decFatom, h0, h2, h3, h4, x0, x1, x2, x3]
theorem fenceSc (sw : Bool) (scope : Scope) : Statement (.fenceSc sw scope) := by
  intro hw _
  have b0 := scope.code_lt
  refine of_encA _ sw 0x14 0 0 0 (scope.code * 64 + 0) (by omega) (by omega) (by omega) (by omega) (by omega) rfl hw (fun w h0 h1 h2 h3 h4 h5 h6 => ?_)
  have x0 : fFn w % 16 = 0 := by omega
  have x1 : fFn w / 64 = scope.code := by omega
  have x2 : fFn w / 16 % 4 = 0 := by omega
  rw [major_20 w h1]
  simp [decFence, h0, h2, h3, h4, x0, x1, x2]
theorem fenceAcq (sw : Bool) (scope : Scope) : Statement (.fenceAcq sw scope) := by
  intro hw _
  have b0 := scope.code_lt
  refine of_encA _ sw 0x14 0 0 0 (scope.code * 64 + 16) (by omega) (by omega) (by omega) (by omega) (by omega) rfl hw (fun w h0 h1 h2 h3 h4 h5 h6 => ?_)
  have x0 : fFn w % 16 = 0 := by omega
  have x1 : fFn w / 64 = scope.code := by omega
  have x2 : fFn w / 16 % 4 = 1 := by omega
  rw [major_20 w h1]
  simp [decFence, h0, h2, h3, h4, x0, x1, x2]
theorem fenceRel (sw : Bool) (scope : Scope) : Statement (.fenceRel sw scope) := by
  intro hw _
  have b0 := scope.code_lt
  refine of_encA _ sw 0x14 0 0 0 (scope.code * 64 + 32) (by omega) (by omega) (by omega) (by omega) (by omega) rfl hw (fun w h0 h1 h2 h3 h4 h5 h6 => ?_)
  have x0 : fFn w % 16 = 0 := by omega
  have x1 : fFn w / 64 = scope.code := by omega
  have x2 : fFn w / 16 % 4 = 2 := by omega
  rw [major_20 w h1]
  simp [decFence, h0, h2, h3, h4, x0, x1, x2]
theorem fenceAcqrel (sw : Bool) (scope : Scope) : Statement (.fenceAcqrel sw scope) := by
  intro hw _
  have b0 := scope.code_lt
  refine of_encA _ sw 0x14 0 0 0 (scope.code * 64 + 48) (by omega) (by omega) (by omega) (by omega) (by omega) rfl hw (fun w h0 h1 h2 h3 h4 h5 h6 => ?_)
  have x0 : fFn w % 16 = 0 := by omega
  have x1 : fFn w / 64 = scope.code := by omega
  have x2 : fFn w / 16 % 4 = 3 := by omega
  rw [major_20 w h1]
  simp [decFence, h0, h2, h3, h4, x0, x1, x2]
theorem barJoin (sw : Bool) (d a : SReg) : Statement (.barJoin sw d a) := by
  intro hw _
  have b0 := d.code_lt
  have b1 := a.code_lt
  refine of_encA _ sw 0x15 d.code a.code 0 0 (by omega) (by omega) (by omega) (by omega) (by omega) rfl hw (fun w h0 h1 h2 h3 h4 h5 h6 => ?_)
  rw [major_21 w h1]
  simp [decBar, h0, h2, h3, h4, h5, show scopeOf 0 = .ok .task from rfl]
theorem barLeave (sw : Bool) (a : SReg) : Statement (.barLeave sw a) := by
  intro hw _
  have b0 := a.code_lt
  refine of_encA _ sw 0x15 0 a.code 0 1 (by omega) (by omega) (by omega) (by omega) (by omega) rfl hw (fun w h0 h1 h2 h3 h4 h5 h6 => ?_)
  rw [major_21 w h1]
  simp [decBar, h0, h2, h3, h4, h5, show scopeOf 0 = .ok .task from rfl]
theorem barArrive (sw : Bool) (d a : SReg) (scope : Scope) : Statement (.barArrive sw d a scope) := by
  intro hw _
  have b0 := d.code_lt
  have b1 := a.code_lt
  have b2 := scope.code_lt
  refine of_encA _ sw 0x15 d.code a.code 0 (scope.code * 64 + 2) (by omega) (by omega) (by omega) (by omega) (by omega) rfl hw (fun w h0 h1 h2 h3 h4 h5 h6 => ?_)
  have x0 : fFn w / 16 % 4 = 0 := by omega
  have x1 : fFn w / 64 = scope.code := by omega
  have x2 : fFn w % 16 = 2 := by omega
  rw [major_21 w h1]
  simp [decBar, h0, h2, h3, h4, x0, x1, x2]
theorem barWait (sw : Bool) (a b : SReg) (scope : Scope) : Statement (.barWait sw a b scope) := by
  intro hw _
  have b0 := a.code_lt
  have b1 := b.code_lt
  have b2 := scope.code_lt
  refine of_encA _ sw 0x15 0 a.code b.code (scope.code * 64 + 3) (by omega) (by omega) (by omega) (by omega) (by omega) rfl hw (fun w h0 h1 h2 h3 h4 h5 h6 => ?_)
  have x0 : fFn w / 16 % 4 = 0 := by omega
  have x1 : fFn w / 64 = scope.code := by omega
  have x2 : fFn w % 16 = 3 := by omega
  rw [major_21 w h1]
  simp [decBar, h0, h2, h3, h4, x0, x1, x2]
theorem barSync (sw : Bool) (d a : SReg) (scope : Scope) : Statement (.barSync sw d a scope) := by
  intro hw _
  have b0 := d.code_lt
  have b1 := a.code_lt
  have b2 := scope.code_lt
  refine of_encA _ sw 0x15 d.code a.code 0 (scope.code * 64 + 4) (by omega) (by omega) (by omega) (by omega) (by omega) rfl hw (fun w h0 h1 h2 h3 h4 h5 h6 => ?_)
  have x0 : fFn w / 16 % 4 = 0 := by omega
  have x1 : fFn w / 64 = scope.code := by omega
  have x2 : fFn w % 16 = 4 := by omega
  rw [major_21 w h1]
  simp [decBar, h0, h2, h3, h4, x0, x1, x2]
theorem barMiss (sw : Bool) (d a : SReg) : Statement (.barMiss sw d a) := by
  intro hw _
  have b0 := d.code_lt
  have b1 := a.code_lt
  refine of_encA _ sw 0x15 d.code a.code 0 5 (by omega) (by omega) (by omega) (by omega) (by omega) rfl hw (fun w h0 h1 h2 h3 h4 h5 h6 => ?_)
  rw [major_21 w h1]
  simp [decBar, h0, h2, h3, h4, h5, show scopeOf 0 = .ok .task from rfl]
theorem barWregion (sw : Bool) (a : SReg) : Statement (.barWregion sw a) := by
  intro hw _
  have b0 := a.code_lt
  refine of_encA _ sw 0x15 0 a.code 0 6 (by omega) (by omega) (by omega) (by omega) (by omega) rfl hw (fun w h0 h1 h2 h3 h4 h5 h6 => ?_)
  rw [major_21 w h1]
  simp [decBar, h0, h2, h3, h4, h5, show scopeOf 0 = .ok .task from rfl]
theorem barWarrive (sw : Bool) (d : SReg) (scope : Scope) : Statement (.barWarrive sw d scope) := by
  intro hw _
  have b0 := d.code_lt
  have b1 := scope.code_lt
  refine of_encA _ sw 0x15 d.code 0 0 (scope.code * 64 + 7) (by omega) (by omega) (by omega) (by omega) (by omega) rfl hw (fun w h0 h1 h2 h3 h4 h5 h6 => ?_)
  have x0 : fFn w / 16 % 4 = 0 := by omega
  have x1 : fFn w / 64 = scope.code := by omega
  have x2 : fFn w % 16 = 7 := by omega
  rw [major_21 w h1]
  simp [decBar, h0, h2, h3, h4, x0, x1, x2]
theorem barWwait (sw : Bool) (d a : SReg) (scope : Scope) : Statement (.barWwait sw d a scope) := by
  intro hw _
  have b0 := d.code_lt
  have b1 := a.code_lt
  have b2 := scope.code_lt
  refine of_encA _ sw 0x15 d.code a.code 0 (scope.code * 64 + 8) (by omega) (by omega) (by omega) (by omega) (by omega) rfl hw (fun w h0 h1 h2 h3 h4 h5 h6 => ?_)
  have x0 : fFn w / 16 % 4 = 0 := by omega
  have x1 : fFn w / 64 = scope.code := by omega
  have x2 : fFn w % 16 = 8 := by omega
  rw [major_21 w h1]
  simp [decBar, h0, h2, h3, h4, x0, x1, x2]
theorem barWfcw (sw : Bool) (d a b : SReg) (scope : Scope) : Statement (.barWfcw sw d a b scope) := by
  intro hw _
  have b0 := d.code_lt
  have b1 := a.code_lt
  have b2 := b.code_lt
  have b3 := scope.code_lt
  refine of_encA _ sw 0x15 d.code a.code b.code (scope.code * 64 + 9) (by omega) (by omega) (by omega) (by omega) (by omega) rfl hw (fun w h0 h1 h2 h3 h4 h5 h6 => ?_)
  have x0 : fFn w / 16 % 4 = 0 := by omega
  have x1 : fFn w / 64 = scope.code := by omega
  have x2 : fFn w % 16 = 9 := by omega
  rw [major_21 w h1]
  simp [decBar, h0, h2, h3, h4, x0, x1, x2]
theorem barWfcd (sw : Bool) (d a b : SReg) (scope : Scope) : Statement (.barWfcd sw d a b scope) := by
  intro hw _
  have b0 := d.code_lt
  have b1 := a.code_lt
  have b2 := b.code_lt
  have b3 := scope.code_lt
  refine of_encA _ sw 0x15 d.code a.code b.code (scope.code * 64 + 10) (by omega) (by omega) (by omega) (by omega) (by omega) rfl hw (fun w h0 h1 h2 h3 h4 h5 h6 => ?_)
  have x0 : fFn w / 16 % 4 = 0 := by omega
  have x1 : fFn w / 64 = scope.code := by omega
  have x2 : fFn w % 16 = 10 := by omega
  rw [major_21 w h1]
  simp [decBar, h0, h2, h3, h4, x0, x1, x2]
theorem inboxPop (sw : Bool) (d a : SReg) : Statement (.inboxPop sw d a) := by
  intro hw _
  have b0 := d.code_lt
  have b1 := a.code_lt
  refine of_encA _ sw 0x16 d.code a.code 0 0 (by omega) (by omega) (by omega) (by omega) (by omega) rfl hw (fun w h0 h1 h2 h3 h4 h5 h6 => ?_)
  rw [major_22 w h1]
  simp [decInbox, h0, h2, h3, h4, h5]
theorem inboxPeek (sw : Bool) (d : SReg) : Statement (.inboxPeek sw d) := by
  intro hw _
  have b0 := d.code_lt
  refine of_encA _ sw 0x16 d.code 0 0 1 (by omega) (by omega) (by omega) (by omega) (by omega) rfl hw (fun w h0 h1 h2 h3 h4 h5 h6 => ?_)
  rw [major_22 w h1]
  simp [decInbox, h0, h2, h3, h4, h5]
theorem inboxCount (sw : Bool) (d : SReg) : Statement (.inboxCount sw d) := by
  intro hw _
  have b0 := d.code_lt
  refine of_encA _ sw 0x16 d.code 0 0 2 (by omega) (by omega) (by omega) (by omega) (by omega) rfl hw (fun w h0 h1 h2 h3 h4 h5 h6 => ?_)
  rw [major_22 w h1]
  simp [decInbox, h0, h2, h3, h4, h5]
theorem taskSpawn (d a : SReg) : Statement (.taskSpawn d a) := by
  intro hw _
  have b0 := d.code_lt
  have b1 := a.code_lt
  refine of_encA _ true 0x18 d.code a.code 0 0 (by omega) (by omega) (by omega) (by omega) (by omega) rfl hw (fun w h0 h1 h2 h3 h4 h5 h6 => ?_)
  rw [major_24 w h1]
  simp [decTask, h0, h2, h3, h4, h5]
theorem taskSpawnto (d a b : SReg) : Statement (.taskSpawnto d a b) := by
  intro hw _
  have b0 := d.code_lt
  have b1 := a.code_lt
  have b2 := b.code_lt
  refine of_encA _ true 0x18 d.code a.code b.code 1 (by omega) (by omega) (by omega) (by omega) (by omega) rfl hw (fun w h0 h1 h2 h3 h4 h5 h6 => ?_)
  rw [major_24 w h1]
  simp [decTask, h0, h2, h3, h4, h5]
theorem taskJoin (a : SReg) : Statement (.taskJoin a) := by
  intro hw _
  have b0 := a.code_lt
  refine of_encA _ true 0x18 0 a.code 0 2 (by omega) (by omega) (by omega) (by omega) (by omega) rfl hw (fun w h0 h1 h2 h3 h4 h5 h6 => ?_)
  rw [major_24 w h1]
  simp [decTask, h0, h2, h3, h4, h5]
theorem taskAnchor (a : SReg) : Statement (.taskAnchor a) := by
  intro hw _
  have b0 := a.code_lt
  refine of_encA _ true 0x18 0 a.code 0 3 (by omega) (by omega) (by omega) (by omega) (by omega) rfl hw (fun w h0 h1 h2 h3 h4 h5 h6 => ?_)
  rw [major_24 w h1]
  simp [decTask, h0, h2, h3, h4, h5]
theorem taskEnd (a : SReg) : Statement (.taskEnd a) := by
  intro hw _
  have b0 := a.code_lt
  refine of_encA _ true 0x18 0 a.code 0 5 (by omega) (by omega) (by omega) (by omega) (by omega) rfl hw (fun w h0 h1 h2 h3 h4 h5 h6 => ?_)
  rw [major_24 w h1]
  simp [decTask, h0, h2, h3, h4, h5]
theorem queuePush (sw : Bool) (a b : SReg) : Statement (.queuePush sw a b) := by
  intro hw _
  have b0 := a.code_lt
  have b1 := b.code_lt
  refine of_encA _ sw 0x19 0 a.code b.code 0 (by omega) (by omega) (by omega) (by omega) (by omega) rfl hw (fun w h0 h1 h2 h3 h4 h5 h6 => ?_)
  rw [major_25 w h1]
  simp [decQueue, h0, h2, h3, h4, h5]
theorem queuePop (sw : Bool) (d a b : SReg) : Statement (.queuePop sw d a b) := by
  intro hw _
  have b0 := d.code_lt
  have b1 := a.code_lt
  have b2 := b.code_lt
  refine of_encA _ sw 0x19 d.code a.code b.code 1 (by omega) (by omega) (by omega) (by omega) (by omega) rfl hw (fun w h0 h1 h2 h3 h4 h5 h6 => ?_)
  rw [major_25 w h1]
  simp [decQueue, h0, h2, h3, h4, h5]
theorem queueTail (sw : Bool) (a : SReg) : Statement (.queueTail sw a) := by
  intro hw _
  have b0 := a.code_lt
  refine of_encA _ sw 0x19 0 a.code 0 2 (by omega) (by omega) (by omega) (by omega) (by omega) rfl hw (fun w h0 h1 h2 h3 h4 h5 h6 => ?_)
  rw [major_25 w h1]
  simp [decQueue, h0, h2, h3, h4, h5]
theorem pipeSend (sw : Bool) (d a b : SReg) : Statement (.pipeSend sw d a b) := by
  intro hw _
  have b0 := d.code_lt
  have b1 := a.code_lt
  have b2 := b.code_lt
  refine of_encA _ sw 0x1A d.code a.code b.code 0 (by omega) (by omega) (by omega) (by omega) (by omega) rfl hw (fun w h0 h1 h2 h3 h4 h5 h6 => ?_)
  rw [major_26 w h1]
  simp [decPipe, h0, h2, h3, h4, h5]
theorem pipeRecv (sw : Bool) (d a b : SReg) : Statement (.pipeRecv sw d a b) := by
  intro hw _
  have b0 := d.code_lt
  have b1 := a.code_lt
  have b2 := b.code_lt
  refine of_encA _ sw 0x1A d.code a.code b.code 1 (by omega) (by omega) (by omega) (by omega) (by omega) rfl hw (fun w h0 h1 h2 h3 h4 h5 h6 => ?_)
  rw [major_26 w h1]
  simp [decPipe, h0, h2, h3, h4, h5]
theorem pipeClose (sw : Bool) (a : SReg) : Statement (.pipeClose sw a) := by
  intro hw _
  have b0 := a.code_lt
  refine of_encA _ sw 0x1A 0 a.code 0 2 (by omega) (by omega) (by omega) (by omega) (by omega) rfl hw (fun w h0 h1 h2 h3 h4 h5 h6 => ?_)
  rw [major_26 w h1]
  simp [decPipe, h0, h2, h3, h4, h5]
theorem evPost (sw : Bool) (d a b : SReg) : Statement (.evPost sw d a b) := by
  intro hw _
  have b0 := d.code_lt
  have b1 := a.code_lt
  have b2 := b.code_lt
  refine of_encA _ sw 0x1B d.code a.code b.code 0 (by omega) (by omega) (by omega) (by omega) (by omega) rfl hw (fun w h0 h1 h2 h3 h4 h5 h6 => ?_)
  rw [major_27 w h1]
  simp [decEv, h0, h2, h3, h4, h5]
theorem evPostw (sw : Bool) (d a b : SReg) : Statement (.evPostw sw d a b) := by
  intro hw _
  have b0 := d.code_lt
  have b1 := a.code_lt
  have b2 := b.code_lt
  refine of_encA _ sw 0x1B d.code a.code b.code 1 (by omega) (by omega) (by omega) (by omega) (by omega) rfl hw (fun w h0 h1 h2 h3 h4 h5 h6 => ?_)
  rw [major_27 w h1]
  simp [decEv, h0, h2, h3, h4, h5]
theorem evTake (sw : Bool) (d a b : SReg) : Statement (.evTake sw d a b) := by
  intro hw _
  have b0 := d.code_lt
  have b1 := a.code_lt
  have b2 := b.code_lt
  refine of_encA _ sw 0x1B d.code a.code b.code 2 (by omega) (by omega) (by omega) (by omega) (by omega) rfl hw (fun w h0 h1 h2 h3 h4 h5 h6 => ?_)
  rw [major_27 w h1]
  simp [decEv, h0, h2, h3, h4, h5]
theorem evDone (sw : Bool) (a b : SReg) : Statement (.evDone sw a b) := by
  intro hw _
  have b0 := a.code_lt
  have b1 := b.code_lt
  refine of_encA _ sw 0x1B 0 a.code b.code 3 (by omega) (by omega) (by omega) (by omega) (by omega) rfl hw (fun w h0 h1 h2 h3 h4 h5 h6 => ?_)
  rw [major_27 w h1]
  simp [decEv, h0, h2, h3, h4, h5]
theorem evThresh (sw : Bool) (a b : SReg) : Statement (.evThresh sw a b) := by
  intro hw _
  have b0 := a.code_lt
  have b1 := b.code_lt
  refine of_encA _ sw 0x1B 0 a.code b.code 4 (by omega) (by omega) (by omega) (by omega) (by omega) rfl hw (fun w h0 h1 h2 h3 h4 h5 h6 => ?_)
  rw [major_27 w h1]
  simp [decEv, h0, h2, h3, h4, h5]
theorem evFlush (sw : Bool) (a : SReg) : Statement (.evFlush sw a) := by
  intro hw _
  have b0 := a.code_lt
  refine of_encA _ sw 0x1B 0 a.code 0 5 (by omega) (by omega) (by omega) (by omega) (by omega) rfl hw (fun w h0 h1 h2 h3 h4 h5 h6 => ?_)
  rw [major_27 w h1]
  simp [decEv, h0, h2, h3, h4, h5]
theorem evStat (sw : Bool) (d a b : SReg) : Statement (.evStat sw d a b) := by
  intro hw _
  have b0 := d.code_lt
  have b1 := a.code_lt
  have b2 := b.code_lt
  refine of_encA _ sw 0x1B d.code a.code b.code 6 (by omega) (by omega) (by omega) (by omega) (by omega) rfl hw (fun w h0 h1 h2 h3 h4 h5 h6 => ?_)
  rw [major_27 w h1]
  simp [decEv, h0, h2, h3, h4, h5]
theorem engFork (sw : Bool) (a b : SReg) (mask : BitVec 3) : Statement (.engFork sw a b mask) := by
  intro hw _
  have b0 := a.code_lt
  have b1 := b.code_lt
  have b2 := mask.isLt
  refine of_encX _ sw 0x1C a.code b.code mask.toNat 0 (by omega) (by omega) (by omega) (by omega) (by omega) rfl hw (fun w h0 h1 h2 h3 h4 h5 => ?_)
  rw [major_28 w h1]
  simp [decEng, h0, h2, h3, h4, h5]
theorem engRdv (sw : Bool) (mask : BitVec 3) : Statement (.engRdv sw mask) := by
  intro hw _
  have b0 := mask.isLt
  refine of_encX _ sw 0x1C 0 0 mask.toNat 1 (by omega) (by omega) (by omega) (by omega) (by omega) rfl hw (fun w h0 h1 h2 h3 h4 h5 => ?_)
  rw [major_28 w h1]
  simp [decEng, h0, h2, h3, h4, h5]
theorem vfpAdd (sw : Bool) (d a b : VReg) (fmt : VFmt) : Statement (.vfpAdd sw d a b fmt) := by
  intro hw _
  have b0 := d.code_lt
  have b1 := a.code_lt
  have b2 := b.code_lt
  have b3 := fmt.code_lt
  refine of_encV _ sw 0x20 d.code a.code b.code 0 (fmt.code * 64 + 0) (by omega) (by omega) (by omega) (by omega) (by omega) (by omega) rfl hw (fun w h0 h1 h2 h3 h4 h5 h6 => ?_)
  have x0 : fFn9 w / 64 = fmt.code := by omega
  have x1 : fFn9 w % 64 = 0 := by omega
  rw [major_32 w h1]
  simp [decVfp, h0, h2, h3, h4, h5, x0, x1]
theorem vfpSub (sw : Bool) (d a b : VReg) (fmt : VFmt) : Statement (.vfpSub sw d a b fmt) := by
  intro hw _
  have b0 := d.code_lt
  have b1 := a.code_lt
  have b2 := b.code_lt
  have b3 := fmt.code_lt
  refine of_encV _ sw 0x20 d.code a.code b.code 0 (fmt.code * 64 + 1) (by omega) (by omega) (by omega) (by omega) (by omega) (by omega) rfl hw (fun w h0 h1 h2 h3 h4 h5 h6 => ?_)
  have x0 : fFn9 w / 64 = fmt.code := by omega
  have x1 : fFn9 w % 64 = 1 := by omega
  rw [major_32 w h1]
  simp [decVfp, h0, h2, h3, h4, h5, x0, x1]
theorem vfpMul (sw : Bool) (d a b : VReg) (fmt : VFmt) : Statement (.vfpMul sw d a b fmt) := by
  intro hw _
  have b0 := d.code_lt
  have b1 := a.code_lt
  have b2 := b.code_lt
  have b3 := fmt.code_lt
  refine of_encV _ sw 0x20 d.code a.code b.code 0 (fmt.code * 64 + 2) (by omega) (by omega) (by omega) (by omega) (by omega) (by omega) rfl hw (fun w h0 h1 h2 h3 h4 h5 h6 => ?_)
  have x0 : fFn9 w / 64 = fmt.code := by omega
  have x1 : fFn9 w % 64 = 2 := by omega
  rw [major_32 w h1]
  simp [decVfp, h0, h2, h3, h4, h5, x0, x1]
theorem vfpFma (sw : Bool) (d a b c : VReg) (fmt : VFmt) : Statement (.vfpFma sw d a b c fmt) := by
  intro hw _
  have b0 := d.code_lt
  have b1 := a.code_lt
  have b2 := b.code_lt
  have b3 := c.code_lt
  have b4 := fmt.code_lt
  refine of_encV _ sw 0x20 d.code a.code b.code c.code (fmt.code * 64 + 3) (by omega) (by omega) (by omega) (by omega) (by omega) (by omega) rfl hw (fun w h0 h1 h2 h3 h4 h5 h6 => ?_)
  have x0 : fFn9 w / 64 = fmt.code := by omega
  have x1 : fFn9 w % 64 = 3 := by omega
  rw [major_32 w h1]
  simp [decVfp, h0, h2, h3, h4, h5, x0, x1]
theorem vfpMin (sw : Bool) (d a b : VReg) (fmt : VFmt) : Statement (.vfpMin sw d a b fmt) := by
  intro hw _
  have b0 := d.code_lt
  have b1 := a.code_lt
  have b2 := b.code_lt
  have b3 := fmt.code_lt
  refine of_encV _ sw 0x20 d.code a.code b.code 0 (fmt.code * 64 + 4) (by omega) (by omega) (by omega) (by omega) (by omega) (by omega) rfl hw (fun w h0 h1 h2 h3 h4 h5 h6 => ?_)
  have x0 : fFn9 w / 64 = fmt.code := by omega
  have x1 : fFn9 w % 64 = 4 := by omega
  rw [major_32 w h1]
  simp [decVfp, h0, h2, h3, h4, h5, x0, x1]
theorem vfpMax (sw : Bool) (d a b : VReg) (fmt : VFmt) : Statement (.vfpMax sw d a b fmt) := by
  intro hw _
  have b0 := d.code_lt
  have b1 := a.code_lt
  have b2 := b.code_lt
  have b3 := fmt.code_lt
  refine of_encV _ sw 0x20 d.code a.code b.code 0 (fmt.code * 64 + 5) (by omega) (by omega) (by omega) (by omega) (by omega) (by omega) rfl hw (fun w h0 h1 h2 h3 h4 h5 h6 => ?_)
  have x0 : fFn9 w / 64 = fmt.code := by omega
  have x1 : fFn9 w % 64 = 5 := by omega
  rw [major_32 w h1]
  simp [decVfp, h0, h2, h3, h4, h5, x0, x1]
theorem vfpAbs (sw : Bool) (d a : VReg) (fmt : VFmt) : Statement (.vfpAbs sw d a fmt) := by
  intro hw _
  have b0 := d.code_lt
  have b1 := a.code_lt
  have b2 := fmt.code_lt
  refine of_encV _ sw 0x20 d.code a.code 0 0 (fmt.code * 64 + 6) (by omega) (by omega) (by omega) (by omega) (by omega) (by omega) rfl hw (fun w h0 h1 h2 h3 h4 h5 h6 => ?_)
  have x0 : fFn9 w / 64 = fmt.code := by omega
  have x1 : fFn9 w % 64 = 6 := by omega
  rw [major_32 w h1]
  simp [decVfp, h0, h2, h3, h4, h5, x0, x1]
theorem vfpNeg (sw : Bool) (d a : VReg) (fmt : VFmt) : Statement (.vfpNeg sw d a fmt) := by
  intro hw _
  have b0 := d.code_lt
  have b1 := a.code_lt
  have b2 := fmt.code_lt
  refine of_encV _ sw 0x20 d.code a.code 0 0 (fmt.code * 64 + 7) (by omega) (by omega) (by omega) (by omega) (by omega) (by omega) rfl hw (fun w h0 h1 h2 h3 h4 h5 h6 => ?_)
  have x0 : fFn9 w / 64 = fmt.code := by omega
  have x1 : fFn9 w % 64 = 7 := by omega
  rw [major_32 w h1]
  simp [decVfp, h0, h2, h3, h4, h5, x0, x1]
theorem vfpDiv (sw : Bool) (d a b : VReg) (fmt : VFmt) : Statement (.vfpDiv sw d a b fmt) := by
  intro hw _
  have b0 := d.code_lt
  have b1 := a.code_lt
  have b2 := b.code_lt
  have b3 := fmt.code_lt
  refine of_encV _ sw 0x20 d.code a.code b.code 0 (fmt.code * 64 + 8) (by omega) (by omega) (by omega) (by omega) (by omega) (by omega) rfl hw (fun w h0 h1 h2 h3 h4 h5 h6 => ?_)
  have x0 : fFn9 w / 64 = fmt.code := by omega
  have x1 : fFn9 w % 64 = 8 := by omega
  rw [major_32 w h1]
  simp [decVfp, h0, h2, h3, h4, h5, x0, x1]
theorem vfpSqrt (sw : Bool) (d a : VReg) (fmt : VFmt) : Statement (.vfpSqrt sw d a fmt) := by
  intro hw _
  have b0 := d.code_lt
  have b1 := a.code_lt
  have b2 := fmt.code_lt
  refine of_encV _ sw 0x20 d.code a.code 0 0 (fmt.code * 64 + 9) (by omega) (by omega) (by omega) (by omega) (by omega) (by omega) rfl hw (fun w h0 h1 h2 h3 h4 h5 h6 => ?_)
  have x0 : fFn9 w / 64 = fmt.code := by omega
  have x1 : fFn9 w % 64 = 9 := by omega
  rw [major_32 w h1]
  simp [decVfp, h0, h2, h3, h4, h5, x0, x1]
theorem vfpCmpeq (sw : Bool) (a b : VReg) (mk : BitVec 2) (fmt : VFmt) : Statement (.vfpCmpeq sw a b mk fmt) := by
  intro hw _
  have b0 := a.code_lt
  have b1 := b.code_lt
  have b2 := mk.isLt
  have b3 := fmt.code_lt
  refine of_encV _ sw 0x20 0 a.code b.code mk.toNat (fmt.code * 64 + 10) (by omega) (by omega) (by omega) (by omega) (by omega) (by omega) rfl hw (fun w h0 h1 h2 h3 h4 h5 h6 => ?_)
  have x0 : fFn9 w / 64 = fmt.code := by omega
  have x1 : fFn9 w % 64 = 10 := by omega
  rw [major_32 w h1]
  simp [decVfp, h0, h2, h3, h4, h5, x0, x1]
theorem vfpCmplt (sw : Bool) (a b : VReg) (mk : BitVec 2) (fmt : VFmt) : Statement (.vfpCmplt sw a b mk fmt) := by
  intro hw _
  have b0 := a.code_lt
  have b1 := b.code_lt
  have b2 := mk.isLt
  have b3 := fmt.code_lt
  refine of_encV _ sw 0x20 0 a.code b.code mk.toNat (fmt.code * 64 + 11) (by omega) (by omega) (by omega) (by omega) (by omega) (by omega) rfl hw (fun w h0 h1 h2 h3 h4 h5 h6 => ?_)
  have x0 : fFn9 w / 64 = fmt.code := by omega
  have x1 : fFn9 w % 64 = 11 := by omega
  rw [major_32 w h1]
  simp [decVfp, h0, h2, h3, h4, h5, x0, x1]
theorem vfpCmple (sw : Bool) (a b : VReg) (mk : BitVec 2) (fmt : VFmt) : Statement (.vfpCmple sw a b mk fmt) := by
  intro hw _
  have b0 := a.code_lt
  have b1 := b.code_lt
  have b2 := mk.isLt
  have b3 := fmt.code_lt
  refine of_encV _ sw 0x20 0 a.code b.code mk.toNat (fmt.code * 64 + 12) (by omega) (by omega) (by omega) (by omega) (by omega) (by omega) rfl hw (fun w h0 h1 h2 h3 h4 h5 h6 => ?_)
  have x0 : fFn9 w / 64 = fmt.code := by omega
  have x1 : fFn9 w % 64 = 12 := by omega
  rw [major_32 w h1]
  simp [decVfp, h0, h2, h3, h4, h5, x0, x1]
theorem vfpSel (sw : Bool) (d a b : VReg) (mk : BitVec 2) (fmt : VFmt) : Statement (.vfpSel sw d a b mk fmt) := by
  intro hw _
  have b0 := d.code_lt
  have b1 := a.code_lt
  have b2 := b.code_lt
  have b3 := mk.isLt
  have b4 := fmt.code_lt
  refine of_encV _ sw 0x20 d.code a.code b.code mk.toNat (fmt.code * 64 + 13) (by omega) (by omega) (by omega) (by omega) (by omega) (by omega) rfl hw (fun w h0 h1 h2 h3 h4 h5 h6 => ?_)
  have x0 : fFn9 w / 64 = fmt.code := by omega
  have x1 : fFn9 w % 64 = 13 := by omega
  rw [major_32 w h1]
  simp [decVfp, h0, h2, h3, h4, h5, x0, x1]
theorem vintAdd (sw : Bool) (d a b : VReg) (fmt : IFmt) : Statement (.vintAdd sw d a b fmt) := by
  intro hw _
  have b0 := d.code_lt
  have b1 := a.code_lt
  have b2 := b.code_lt
  have b3 := fmt.code_lt
  refine of_encV _ sw 0x21 d.code a.code b.code 0 (fmt.code * 64 + 0) (by omega) (by omega) (by omega) (by omega) (by omega) (by omega) rfl hw (fun w h0 h1 h2 h3 h4 h5 h6 => ?_)
  have x0 : fFn9 w / 64 = fmt.code := by omega
  have x1 : fFn9 w % 64 = 0 := by omega
  rw [major_33 w h1]
  simp [decVint, h0, h2, h3, h4, h5, x0, x1]
theorem vintSub (sw : Bool) (d a b : VReg) (fmt : IFmt) : Statement (.vintSub sw d a b fmt) := by
  intro hw _
  have b0 := d.code_lt
  have b1 := a.code_lt
  have b2 := b.code_lt
  have b3 := fmt.code_lt
  refine of_encV _ sw 0x21 d.code a.code b.code 0 (fmt.code * 64 + 1) (by omega) (by omega) (by omega) (by omega) (by omega) (by omega) rfl hw (fun w h0 h1 h2 h3 h4 h5 h6 => ?_)
  have x0 : fFn9 w / 64 = fmt.code := by omega
  have x1 : fFn9 w % 64 = 1 := by omega
  rw [major_33 w h1]
  simp [decVint, h0, h2, h3, h4, h5, x0, x1]
theorem vintMul (sw : Bool) (d a b : VReg) (fmt : IFmt) : Statement (.vintMul sw d a b fmt) := by
  intro hw _
  have b0 := d.code_lt
  have b1 := a.code_lt
  have b2 := b.code_lt
  have b3 := fmt.code_lt
  refine of_encV _ sw 0x21 d.code a.code b.code 0 (fmt.code * 64 + 2) (by omega) (by omega) (by omega) (by omega) (by omega) (by omega) rfl hw (fun w h0 h1 h2 h3 h4 h5 h6 => ?_)
  have x0 : fFn9 w / 64 = fmt.code := by omega
  have x1 : fFn9 w % 64 = 2 := by omega
  rw [major_33 w h1]
  simp [decVint, h0, h2, h3, h4, h5, x0, x1]
theorem vintAdds (sw : Bool) (d a b : VReg) (fmt : IFmt) : Statement (.vintAdds sw d a b fmt) := by
  intro hw _
  have b0 := d.code_lt
  have b1 := a.code_lt
  have b2 := b.code_lt
  have b3 := fmt.code_lt
  refine of_encV _ sw 0x21 d.code a.code b.code 0 (fmt.code * 64 + 3) (by omega) (by omega) (by omega) (by omega) (by omega) (by omega) rfl hw (fun w h0 h1 h2 h3 h4 h5 h6 => ?_)
  have x0 : fFn9 w / 64 = fmt.code := by omega
  have x1 : fFn9 w % 64 = 3 := by omega
  rw [major_33 w h1]
  simp [decVint, h0, h2, h3, h4, h5, x0, x1]
theorem vintSubs (sw : Bool) (d a b : VReg) (fmt : IFmt) : Statement (.vintSubs sw d a b fmt) := by
  intro hw _
  have b0 := d.code_lt
  have b1 := a.code_lt
  have b2 := b.code_lt
  have b3 := fmt.code_lt
  refine of_encV _ sw 0x21 d.code a.code b.code 0 (fmt.code * 64 + 4) (by omega) (by omega) (by omega) (by omega) (by omega) (by omega) rfl hw (fun w h0 h1 h2 h3 h4 h5 h6 => ?_)
  have x0 : fFn9 w / 64 = fmt.code := by omega
  have x1 : fFn9 w % 64 = 4 := by omega
  rw [major_33 w h1]
  simp [decVint, h0, h2, h3, h4, h5, x0, x1]
theorem vintMin (sw : Bool) (d a b : VReg) (fmt : IFmt) : Statement (.vintMin sw d a b fmt) := by
  intro hw _
  have b0 := d.code_lt
  have b1 := a.code_lt
  have b2 := b.code_lt
  have b3 := fmt.code_lt
  refine of_encV _ sw 0x21 d.code a.code b.code 0 (fmt.code * 64 + 5) (by omega) (by omega) (by omega) (by omega) (by omega) (by omega) rfl hw (fun w h0 h1 h2 h3 h4 h5 h6 => ?_)
  have x0 : fFn9 w / 64 = fmt.code := by omega
  have x1 : fFn9 w % 64 = 5 := by omega
  rw [major_33 w h1]
  simp [decVint, h0, h2, h3, h4, h5, x0, x1]
theorem vintMax (sw : Bool) (d a b : VReg) (fmt : IFmt) : Statement (.vintMax sw d a b fmt) := by
  intro hw _
  have b0 := d.code_lt
  have b1 := a.code_lt
  have b2 := b.code_lt
  have b3 := fmt.code_lt
  refine of_encV _ sw 0x21 d.code a.code b.code 0 (fmt.code * 64 + 6) (by omega) (by omega) (by omega) (by omega) (by omega) (by omega) rfl hw (fun w h0 h1 h2 h3 h4 h5 h6 => ?_)
  have x0 : fFn9 w / 64 = fmt.code := by omega
  have x1 : fFn9 w % 64 = 6 := by omega
  rw [major_33 w h1]
  simp [decVint, h0, h2, h3, h4, h5, x0, x1]
theorem vintAnd (sw : Bool) (d a b : VReg) (fmt : IFmt) : Statement (.vintAnd sw d a b fmt) := by
  intro hw _
  have b0 := d.code_lt
  have b1 := a.code_lt
  have b2 := b.code_lt
  have b3 := fmt.code_lt
  refine of_encV _ sw 0x21 d.code a.code b.code 0 (fmt.code * 64 + 7) (by omega) (by omega) (by omega) (by omega) (by omega) (by omega) rfl hw (fun w h0 h1 h2 h3 h4 h5 h6 => ?_)
  have x0 : fFn9 w / 64 = fmt.code := by omega
  have x1 : fFn9 w % 64 = 7 := by omega
  rw [major_33 w h1]
  simp [decVint, h0, h2, h3, h4, h5, x0, x1]
theorem vintOr (sw : Bool) (d a b : VReg) (fmt : IFmt) : Statement (.vintOr sw d a b fmt) := by
  intro hw _
  have b0 := d.code_lt
  have b1 := a.code_lt
  have b2 := b.code_lt
  have b3 := fmt.code_lt
  refine of_encV _ sw 0x21 d.code a.code b.code 0 (fmt.code * 64 + 8) (by omega) (by omega) (by omega) (by omega) (by omega) (by omega) rfl hw (fun w h0 h1 h2 h3 h4 h5 h6 => ?_)
  have x0 : fFn9 w / 64 = fmt.code := by omega
  have x1 : fFn9 w % 64 = 8 := by omega
  rw [major_33 w h1]
  simp [decVint, h0, h2, h3, h4, h5, x0, x1]
theorem vintXor (sw : Bool) (d a b : VReg) (fmt : IFmt) : Statement (.vintXor sw d a b fmt) := by
  intro hw _
  have b0 := d.code_lt
  have b1 := a.code_lt
  have b2 := b.code_lt
  have b3 := fmt.code_lt
  refine of_encV _ sw 0x21 d.code a.code b.code 0 (fmt.code * 64 + 9) (by omega) (by omega) (by omega) (by omega) (by omega) (by omega) rfl hw (fun w h0 h1 h2 h3 h4 h5 h6 => ?_)
  have x0 : fFn9 w / 64 = fmt.code := by omega
  have x1 : fFn9 w % 64 = 9 := by omega
  rw [major_33 w h1]
  simp [decVint, h0, h2, h3, h4, h5, x0, x1]
theorem vintSll (sw : Bool) (d a b : VReg) (fmt : IFmt) : Statement (.vintSll sw d a b fmt) := by
  intro hw _
  have b0 := d.code_lt
  have b1 := a.code_lt
  have b2 := b.code_lt
  have b3 := fmt.code_lt
  refine of_encV _ sw 0x21 d.code a.code b.code 0 (fmt.code * 64 + 10) (by omega) (by omega) (by omega) (by omega) (by omega) (by omega) rfl hw (fun w h0 h1 h2 h3 h4 h5 h6 => ?_)
  have x0 : fFn9 w / 64 = fmt.code := by omega
  have x1 : fFn9 w % 64 = 10 := by omega
  rw [major_33 w h1]
  simp [decVint, h0, h2, h3, h4, h5, x0, x1]
theorem vintSrl (sw : Bool) (d a b : VReg) (fmt : IFmt) : Statement (.vintSrl sw d a b fmt) := by
  intro hw _
  have b0 := d.code_lt
  have b1 := a.code_lt
  have b2 := b.code_lt
  have b3 := fmt.code_lt
  refine of_encV _ sw 0x21 d.code a.code b.code 0 (fmt.code * 64 + 11) (by omega) (by omega) (by omega) (by omega) (by omega) (by omega) rfl hw (fun w h0 h1 h2 h3 h4 h5 h6 => ?_)
  have x0 : fFn9 w / 64 = fmt.code := by omega
  have x1 : fFn9 w % 64 = 11 := by omega
  rw [major_33 w h1]
  simp [decVint, h0, h2, h3, h4, h5, x0, x1]
theorem vintSra (sw : Bool) (d a b : VReg) (fmt : IFmt) : Statement (.vintSra sw d a b fmt) := by
  intro hw _
  have b0 := d.code_lt
  have b1 := a.code_lt
  have b2 := b.code_lt
  have b3 := fmt.code_lt
  refine of_encV _ sw 0x21 d.code a.code b.code 0 (fmt.code * 64 + 12) (by omega) (by omega) (by omega) (by omega) (by omega) (by omega) rfl hw (fun w h0 h1 h2 h3 h4 h5 h6 => ?_)
  have x0 : fFn9 w / 64 = fmt.code := by omega
  have x1 : fFn9 w % 64 = 12 := by omega
  rw [major_33 w h1]
  simp [decVint, h0, h2, h3, h4, h5, x0, x1]
theorem vintCmpeq (sw : Bool) (a b : VReg) (mk : BitVec 2) (fmt : IFmt) : Statement (.vintCmpeq sw a b mk fmt) := by
  intro hw _
  have b0 := a.code_lt
  have b1 := b.code_lt
  have b2 := mk.isLt
  have b3 := fmt.code_lt
  refine of_encV _ sw 0x21 0 a.code b.code mk.toNat (fmt.code * 64 + 13) (by omega) (by omega) (by omega) (by omega) (by omega) (by omega) rfl hw (fun w h0 h1 h2 h3 h4 h5 h6 => ?_)
  have x0 : fFn9 w / 64 = fmt.code := by omega
  have x1 : fFn9 w % 64 = 13 := by omega
  rw [major_33 w h1]
  simp [decVint, h0, h2, h3, h4, h5, x0, x1]
theorem vintCmplt (sw : Bool) (a b : VReg) (mk : BitVec 2) (fmt : IFmt) : Statement (.vintCmplt sw a b mk fmt) := by
  intro hw _
  have b0 := a.code_lt
  have b1 := b.code_lt
  have b2 := mk.isLt
  have b3 := fmt.code_lt
  refine of_encV _ sw 0x21 0 a.code b.code mk.toNat (fmt.code * 64 + 14) (by omega) (by omega) (by omega) (by omega) (by omega) (by omega) rfl hw (fun w h0 h1 h2 h3 h4 h5 h6 => ?_)
  have x0 : fFn9 w / 64 = fmt.code := by omega
  have x1 : fFn9 w % 64 = 14 := by omega
  rw [major_33 w h1]
  simp [decVint, h0, h2, h3, h4, h5, x0, x1]
theorem vintSel (sw : Bool) (d a b : VReg) (mk : BitVec 2) (fmt : IFmt) : Statement (.vintSel sw d a b mk fmt) := by
  intro hw _
  have b0 := d.code_lt
  have b1 := a.code_lt
  have b2 := b.code_lt
  have b3 := mk.isLt
  have b4 := fmt.code_lt
  refine of_encV _ sw 0x21 d.code a.code b.code mk.toNat (fmt.code * 64 + 15) (by omega) (by omega) (by omega) (by omega) (by omega) (by omega) rfl hw (fun w h0 h1 h2 h3 h4 h5 h6 => ?_)
  have x0 : fFn9 w / 64 = fmt.code := by omega
  have x1 : fFn9 w % 64 = 15 := by omega
  rw [major_33 w h1]
  simp [decVint, h0, h2, h3, h4, h5, x0, x1]
theorem vmovGet (sw : Bool) (d : VReg) (tile : BitVec 3) (row : BitVec 6) : Statement (.vmovGet sw d tile row) := by
  intro hw _
  have b0 := d.code_lt
  have b1 := tile.isLt
  have b2 := row.isLt
  refine of_encVR _ sw 0x22 d.code 0 (tile.toNat * 64 + row.toNat) 0 (by omega) (by omega) (by omega) (by omega) (by omega) rfl hw (fun w h0 h1 h2 h3 h4 h5 => ?_)
  have x0 : fRow9 w / 64 = tile.toNat := by omega
  have x1 : fRow9 w % 64 = row.toNat := by omega
  rw [major_34 w h1]
  simp [decVmov, h0, h2, h3, h5, x0, x1]
theorem vmovPut (sw : Bool) (a : VReg) (tile : BitVec 3) (row : BitVec 6) : Statement (.vmovPut sw a tile row) := by
  intro hw _
  have b0 := a.code_lt
  have b1 := tile.isLt
  have b2 := row.isLt
  refine of_encVR _ sw 0x22 0 a.code (tile.toNat * 64 + row.toNat) 1 (by omega) (by omega) (by omega) (by omega) (by omega) rfl hw (fun w h0 h1 h2 h3 h4 h5 => ?_)
  have x0 : fRow9 w / 64 = tile.toNat := by omega
  have x1 : fRow9 w % 64 = row.toNat := by omega
  rw [major_34 w h1]
  simp [decVmov, h0, h2, h3, h5, x0, x1]
theorem vmovCopy (sw : Bool) (d a : VReg) (lane : Option (BitVec 8)) : Statement (.vmovCopy sw d a lane) := by
  intro hw _
  have b0 := d.code_lt
  have b1 := a.code_lt
  have b2 := laneCode_lt lane
  refine of_encVR _ sw 0x22 d.code a.code (laneCode lane) 2 (by omega) (by omega) (by omega) (by omega) (by omega) rfl hw (fun w h0 h1 h2 h3 h4 h5 => ?_)
  rw [major_34 w h1]
  simp [decVmov, h0, h2, h3, h4, h5]
theorem vmovClr (sw : Bool) (tile : BitVec 3) (row : BitVec 6) : Statement (.vmovClr sw tile row) := by
  intro hw _
  have b0 := tile.isLt
  have b1 := row.isLt
  refine of_encVR _ sw 0x22 0 0 (tile.toNat * 64 + row.toNat) 3 (by omega) (by omega) (by omega) (by omega) (by omega) rfl hw (fun w h0 h1 h2 h3 h4 h5 => ?_)
  have x0 : fRow9 w / 64 = tile.toNat := by omega
  have x1 : fRow9 w % 64 = row.toNat := by omega
  rw [major_34 w h1]
  simp [decVmov, h0, h2, h3, h5, x0, x1]
theorem vcvt (sw : Bool) (d a : VReg) (group : BitVec 4) (dst src : FTag) (hi : Bool) : Statement (.vcvt sw d a group dst src hi) := by
  intro hw _
  have b0 := d.code_lt
  have b1 := a.code_lt
  have b2 := group.isLt
  have b3 := dst.code_lt
  have b4 := src.code_lt
  have b5 := boolCode_lt hi
  refine of_encV _ sw 0x23 d.code a.code group.toNat 0 (dst.code * 32 + src.code * 2 + boolCode hi) (by omega) (by omega) (by omega) (by omega) (by omega) (by omega) rfl hw (fun w h0 h1 h2 h3 h4 h5 h6 => ?_)
  have x0 : fFn9 w / 32 = dst.code := by omega
  have x1 : fFn9 w / 2 % 16 = src.code := by omega
  have x2 : fFn9 w % 2 = boolCode hi := by omega
  rw [major_35 w h1]
  simp [decVcvt, h0, h2, h3, h4, h5, x0, x1, x2]
theorem vsfExp2 (sw : Bool) (d a : VReg) (fmt : VFmt) : Statement (.vsfExp2 sw d a fmt) := by
  intro hw _
  have b0 := d.code_lt
  have b1 := a.code_lt
  have b2 := fmt.code_lt
  refine of_encV _ sw 0x24 d.code a.code 0 0 (fmt.code * 64 + 0) (by omega) (by omega) (by omega) (by omega) (by omega) (by omega) rfl hw (fun w h0 h1 h2 h3 h4 h5 h6 => ?_)
  have x0 : fFn9 w / 64 = fmt.code := by omega
  have x1 : fFn9 w % 64 = 0 := by omega
  rw [major_36 w h1]
  simp [decVsf, h0, h2, h3, h4, h5, x0, x1]
theorem vsfLog2 (sw : Bool) (d a : VReg) (fmt : VFmt) : Statement (.vsfLog2 sw d a fmt) := by
  intro hw _
  have b0 := d.code_lt
  have b1 := a.code_lt
  have b2 := fmt.code_lt
  refine of_encV _ sw 0x24 d.code a.code 0 0 (fmt.code * 64 + 1) (by omega) (by omega) (by omega) (by omega) (by omega) (by omega) rfl hw (fun w h0 h1 h2 h3 h4 h5 h6 => ?_)
  have x0 : fFn9 w / 64 = fmt.code := by omega
  have x1 : fFn9 w % 64 = 1 := by omega
  rw [major_36 w h1]
  simp [decVsf, h0, h2, h3, h4, h5, x0, x1]
theorem vsfExp (sw : Bool) (d a : VReg) (fmt : VFmt) : Statement (.vsfExp sw d a fmt) := by
  intro hw _
  have b0 := d.code_lt
  have b1 := a.code_lt
  have b2 := fmt.code_lt
  refine of_encV _ sw 0x24 d.code a.code 0 0 (fmt.code * 64 + 2) (by omega) (by omega) (by omega) (by omega) (by omega) (by omega) rfl hw (fun w h0 h1 h2 h3 h4 h5 h6 => ?_)
  have x0 : fFn9 w / 64 = fmt.code := by omega
  have x1 : fFn9 w % 64 = 2 := by omega
  rw [major_36 w h1]
  simp [decVsf, h0, h2, h3, h4, h5, x0, x1]
theorem vsfLog (sw : Bool) (d a : VReg) (fmt : VFmt) : Statement (.vsfLog sw d a fmt) := by
  intro hw _
  have b0 := d.code_lt
  have b1 := a.code_lt
  have b2 := fmt.code_lt
  refine of_encV _ sw 0x24 d.code a.code 0 0 (fmt.code * 64 + 3) (by omega) (by omega) (by omega) (by omega) (by omega) (by omega) rfl hw (fun w h0 h1 h2 h3 h4 h5 h6 => ?_)
  have x0 : fFn9 w / 64 = fmt.code := by omega
  have x1 : fFn9 w % 64 = 3 := by omega
  rw [major_36 w h1]
  simp [decVsf, h0, h2, h3, h4, h5, x0, x1]
theorem vsfRcp (sw : Bool) (d a : VReg) (fmt : VFmt) : Statement (.vsfRcp sw d a fmt) := by
  intro hw _
  have b0 := d.code_lt
  have b1 := a.code_lt
  have b2 := fmt.code_lt
  refine of_encV _ sw 0x24 d.code a.code 0 0 (fmt.code * 64 + 4) (by omega) (by omega) (by omega) (by omega) (by omega) (by omega) rfl hw (fun w h0 h1 h2 h3 h4 h5 h6 => ?_)
  have x0 : fFn9 w / 64 = fmt.code := by omega
  have x1 : fFn9 w % 64 = 4 := by omega
  rw [major_36 w h1]
  simp [decVsf, h0, h2, h3, h4, h5, x0, x1]
theorem vsfRsqrt (sw : Bool) (d a : VReg) (fmt : VFmt) : Statement (.vsfRsqrt sw d a fmt) := by
  intro hw _
  have b0 := d.code_lt
  have b1 := a.code_lt
  have b2 := fmt.code_lt
  refine of_encV _ sw 0x24 d.code a.code 0 0 (fmt.code * 64 + 5) (by omega) (by omega) (by omega) (by omega) (by omega) (by omega) rfl hw (fun w h0 h1 h2 h3 h4 h5 h6 => ?_)
  have x0 : fFn9 w / 64 = fmt.code := by omega
  have x1 : fFn9 w % 64 = 5 := by omega
  rw [major_36 w h1]
  simp [decVsf, h0, h2, h3, h4, h5, x0, x1]
theorem vredSum (sw : Bool) (d a : VReg) (tile : BitVec 3) (row : BitVec 6) (fmt : RFmt) : Statement (.vredSum sw d a tile row fmt) := by
  intro hw _
  have b0 := d.code_lt
  have b1 := a.code_lt
  have b2 := tile.isLt
  have b3 := row.isLt
  have b4 := fmt.code_lt
  refine of_encVR _ sw 0x25 d.code a.code (tile.toNat * 64 + row.toNat) (fmt.code * 32 + 0) (by omega) (by omega) (by omega) (by omega) (by omega) rfl hw (fun w h0 h1 h2 h3 h4 h5 => ?_)
  have x0 : fRow9 w / 64 = tile.toNat := by omega
  have x1 : fRow9 w % 64 = row.toNat := by omega
  have x2 : fFn8 w / 32 = fmt.code := by omega
  have x3 : fFn8 w % 32 = 0 := by omega
  rw [major_37 w h1]
  simp [decVred, h0, h2, h3, x0, x1, x2, x3]
theorem vredMax (sw : Bool) (d a : VReg) (tile : BitVec 3) (row : BitVec 6) (fmt : RFmt) : Statement (.vredMax sw d a tile row fmt) := by
  intro hw _
  have b0 := d.code_lt
  have b1 := a.code_lt
  have b2 := tile.isLt
  have b3 := row.isLt
  have b4 := fmt.code_lt
  refine of_encVR _ sw 0x25 d.code a.code (tile.toNat * 64 + row.toNat) (fmt.code * 32 + 1) (by omega) (by omega) (by omega) (by omega) (by omega) rfl hw (fun w h0 h1 h2 h3 h4 h5 => ?_)
  have x0 : fRow9 w / 64 = tile.toNat := by omega
  have x1 : fRow9 w % 64 = row.toNat := by omega
  have x2 : fFn8 w / 32 = fmt.code := by omega
  have x3 : fFn8 w % 32 = 1 := by omega
  rw [major_37 w h1]
  simp [decVred, h0, h2, h3, x0, x1, x2, x3]
theorem vredMin (sw : Bool) (d a : VReg) (tile : BitVec 3) (row : BitVec 6) (fmt : RFmt) : Statement (.vredMin sw d a tile row fmt) := by
  intro hw _
  have b0 := d.code_lt
  have b1 := a.code_lt
  have b2 := tile.isLt
  have b3 := row.isLt
  have b4 := fmt.code_lt
  refine of_encVR _ sw 0x25 d.code a.code (tile.toNat * 64 + row.toNat) (fmt.code * 32 + 2) (by omega) (by omega) (by omega) (by omega) (by omega) rfl hw (fun w h0 h1 h2 h3 h4 h5 => ?_)
  have x0 : fRow9 w / 64 = tile.toNat := by omega
  have x1 : fRow9 w % 64 = row.toNat := by omega
  have x2 : fFn8 w / 32 = fmt.code := by omega
  have x3 : fFn8 w % 32 = 2 := by omega
  rw [major_37 w h1]
  simp [decVred, h0, h2, h3, x0, x1, x2, x3]
theorem vredRowstat (sw : Bool) (d : VReg) (tile : BitVec 3) (fmt : RFmt) : Statement (.vredRowstat sw d tile fmt) := by
  intro hw _
  have b0 := d.code_lt
  have b1 := tile.isLt
  have b2 := fmt.code_lt
  refine of_encVR _ sw 0x25 d.code 0 (tile.toNat * 64) (fmt.code * 32 + 3) (by omega) (by omega) (by omega) (by omega) (by omega) rfl hw (fun w h0 h1 h2 h3 h4 h5 => ?_)
  have x0 : fRow9 w / 64 = tile.toNat := by omega
  have x1 : fRow9 w % 64 = 0 := by omega
  have x2 : fFn8 w / 32 = fmt.code := by omega
  have x3 : fFn8 w % 32 = 3 := by omega
  rw [major_37 w h1]
  simp [decVred, h0, h2, h3, x0, x1, x2, x3]
theorem vld (sw : Bool) (d : VReg) (a : SReg) (scope : Scope) (order : Order) (fmt : MFmt) (off : BitVec 6) : Statement (.vld sw d a scope order fmt off) := by
  intro hw _
  have b0 := d.code_lt
  have b1 := a.code_lt
  have b2 := scope.code_lt
  have b3 := order.code_lt
  have b4 := fmt.code_lt
  have b5 := off.isLt
  refine of_encM _ sw 0x26 d.code a.code scope.code order.code fmt.code off.toNat (by omega) (by omega) (by omega) (by omega) (by omega) (by omega) (by omega) rfl hw (fun w h0 h1 h2 h3 h4 h5 h6 h7 => ?_)
  have x0 : d.code / 16 = 0 := by omega
  have x1 : d.code % 16 = d.code := by omega
  rw [major_38 w h1]
  simp [decVldVst, h0, h2, h3, h4, h5, h6, h7, x0, x1]
theorem vst (sw : Bool) (d : VReg) (a : SReg) (scope : Scope) (order : Order) (fmt : MFmt) (off : BitVec 6) : Statement (.vst sw d a scope order fmt off) := by
  intro hw _
  have b0 := d.code_lt
  have b1 := a.code_lt
  have b2 := scope.code_lt
  have b3 := order.code_lt
  have b4 := fmt.code_lt
  have b5 := off.isLt
  refine of_encM _ sw 0x27 d.code a.code scope.code order.code fmt.code off.toNat (by omega) (by omega) (by omega) (by omega) (by omega) (by omega) (by omega) rfl hw (fun w h0 h1 h2 h3 h4 h5 h6 h7 => ?_)
  have x0 : d.code / 16 = 0 := by omega
  have x1 : d.code % 16 = d.code := by omega
  rw [major_39 w h1]
  simp [decVldVst, h0, h2, h3, h4, h5, h6, h7, x0, x1]
theorem mxMma (sw : Bool) (a : SReg) (tile : BitVec 3) : Statement (.mxMma sw a tile) := by
  intro hw _
  have b0 := a.code_lt
  have b1 := tile.isLt
  refine of_encX _ sw 0x28 a.code 0 tile.toNat 0 (by omega) (by omega) (by omega) (by omega) (by omega) rfl hw (fun w h0 h1 h2 h3 h4 h5 => ?_)
  rw [major_40 w h1]
  simp [decMx, h0, h2, h3, h4, h5]
theorem mxMmaz (sw : Bool) (a : SReg) (tile : BitVec 3) : Statement (.mxMmaz sw a tile) := by
  intro hw _
  have b0 := a.code_lt
  have b1 := tile.isLt
  refine of_encX _ sw 0x28 a.code 0 tile.toNat 1 (by omega) (by omega) (by omega) (by omega) (by omega) rfl hw (fun w h0 h1 h2 h3 h4 h5 => ?_)
  rw [major_40 w h1]
  simp [decMx, h0, h2, h3, h4, h5]
theorem mxZero (sw : Bool) (a : SReg) (tile : BitVec 3) : Statement (.mxZero sw a tile) := by
  intro hw _
  have b0 := a.code_lt
  have b1 := tile.isLt
  refine of_encX _ sw 0x28 a.code 0 tile.toNat 2 (by omega) (by omega) (by omega) (by omega) (by omega) rfl hw (fun w h0 h1 h2 h3 h4 h5 => ?_)
  rw [major_40 w h1]
  simp [decMx, h0, h2, h3, h4, h5]
theorem mxcSend (sw : Bool) (a b : SReg) (tile pri : BitVec 3) : Statement (.mxcSend sw a b tile pri) := by
  intro hw _
  have b0 := a.code_lt
  have b1 := b.code_lt
  have b2 := tile.isLt
  have b3 := pri.isLt
  refine of_encX _ sw 0x29 a.code b.code tile.toNat (pri.toNat * 16 + 0) (by omega) (by omega) (by omega) (by omega) (by omega) rfl hw (fun w h0 h1 h2 h3 h4 h5 => ?_)
  have x0 : fFn12 w / 128 = 0 := by omega
  have x1 : fFn12 w % 16 = 0 := by omega
  have x2 : fFn12 w / 16 = pri.toNat := by omega
  rw [major_41 w h1]
  simp [decMxc, h0, h2, h3, h4, x0, x1, x2]
theorem sortLoad (sw : Bool) (a b : SReg) (tile : BitVec 3) (note : Bool) (kfmt : KFmt) (form : KForm) : Statement (.sortLoad sw a b tile note kfmt form) := by
  intro hw _
  have b0 := a.code_lt
  have b1 := b.code_lt
  have b2 := tile.isLt
  have b3 := kfmt.code_lt
  have b4 := form.code_lt
  have b5 := boolCode_lt note
  refine of_encX _ sw 0x2A a.code b.code tile.toNat (boolCode note * 1024 + kfmt.code * 64 + form.code * 16 + 0) (by omega) (by omega) (by omega) (by omega) (by omega) rfl hw (fun w h0 h1 h2 h3 h4 h5 => ?_)
  have x0 : fFn12 w / 1024 % 2 = boolCode note := by omega
  have x1 : fFn12 w / 2048 = 0 := by omega
  have x2 : fFn12 w / 16 % 4 = form.code := by omega
  have x3 : fFn12 w / 64 % 16 = kfmt.code := by omega
  have x4 : fFn12 w % 16 = 0 := by omega
  rw [major_42 w h1]
  simp [decSort, h0, h2, h3, h4, x0, x1, x2, x3, x4]
theorem sortStore (sw : Bool) (a b : SReg) (tile : BitVec 3) (note : Bool) (kfmt : KFmt) (form : KForm) : Statement (.sortStore sw a b tile note kfmt form) := by
  intro hw _
  have b0 := a.code_lt
  have b1 := b.code_lt
  have b2 := tile.isLt
  have b3 := kfmt.code_lt
  have b4 := form.code_lt
  have b5 := boolCode_lt note
  refine of_encX _ sw 0x2A a.code b.code tile.toNat (boolCode note * 1024 + kfmt.code * 64 + form.code * 16 + 1) (by omega) (by omega) (by omega) (by omega) (by omega) rfl hw (fun w h0 h1 h2 h3 h4 h5 => ?_)
  have x0 : fFn12 w / 1024 % 2 = boolCode note := by omega
  have x1 : fFn12 w / 2048 = 0 := by omega
  have x2 : fFn12 w / 16 % 4 = form.code := by omega
  have x3 : fFn12 w / 64 % 16 = kfmt.code := by omega
  have x4 : fFn12 w % 16 = 1 := by omega
  rw [major_42 w h1]
  simp [decSort, h0, h2, h3, h4, x0, x1, x2, x3, x4]
theorem sortRun (sw : Bool) (a : SReg) (tile : BitVec 3) (note : Bool) (kfmt : KFmt) (form : KForm) : Statement (.sortRun sw a tile note kfmt form) := by
  intro hw _
  have b0 := a.code_lt
  have b1 := tile.isLt
  have b2 := kfmt.code_lt
  have b3 := form.code_lt
  have b4 := boolCode_lt note
  refine of_encX _ sw 0x2A a.code 0 tile.toNat (boolCode note * 1024 + kfmt.code * 64 + form.code * 16 + 2) (by omega) (by omega) (by omega) (by omega) (by omega) rfl hw (fun w h0 h1 h2 h3 h4 h5 => ?_)
  have x0 : fFn12 w / 1024 % 2 = boolCode note := by omega
  have x1 : fFn12 w / 2048 = 0 := by omega
  have x2 : fFn12 w / 16 % 4 = form.code := by omega
  have x3 : fFn12 w / 64 % 16 = kfmt.code := by omega
  have x4 : fFn12 w % 16 = 2 := by omega
  rw [major_42 w h1]
  simp [decSort, h0, h2, h3, h4, x0, x1, x2, x3, x4]
theorem sortRows (sw : Bool) (tile : BitVec 3) (note : Bool) (kfmt : KFmt) (form : KForm) : Statement (.sortRows sw tile note kfmt form) := by
  intro hw _
  have b0 := tile.isLt
  have b1 := kfmt.code_lt
  have b2 := form.code_lt
  have b3 := boolCode_lt note
  refine of_encX _ sw 0x2A 0 0 tile.toNat (boolCode note * 1024 + kfmt.code * 64 + form.code * 16 + 3) (by omega) (by omega) (by omega) (by omega) (by omega) rfl hw (fun w h0 h1 h2 h3 h4 h5 => ?_)
  have x0 : fFn12 w / 1024 % 2 = boolCode note := by omega
  have x1 : fFn12 w / 2048 = 0 := by omega
  have x2 : fFn12 w / 16 % 4 = form.code := by omega
  have x3 : fFn12 w / 64 % 16 = kfmt.code := by omega
  have x4 : fFn12 w % 16 = 3 := by omega
  rw [major_42 w h1]
  simp [decSort, h0, h2, h3, h4, x0, x1, x2, x3, x4]
theorem sortTopk (sw : Bool) (a b : SReg) (tile : BitVec 3) (note : Bool) (kfmt : KFmt) (form : KForm) : Statement (.sortTopk sw a b tile note kfmt form) := by
  intro hw _
  have b0 := a.code_lt
  have b1 := b.code_lt
  have b2 := tile.isLt
  have b3 := kfmt.code_lt
  have b4 := form.code_lt
  have b5 := boolCode_lt note
  refine of_encX _ sw 0x2A a.code b.code tile.toNat (boolCode note * 1024 + kfmt.code * 64 + form.code * 16 + 4) (by omega) (by omega) (by omega) (by omega) (by omega) rfl hw (fun w h0 h1 h2 h3 h4 h5 => ?_)
  have x0 : fFn12 w / 1024 % 2 = boolCode note := by omega
  have x1 : fFn12 w / 2048 = 0 := by omega
  have x2 : fFn12 w / 16 % 4 = form.code := by omega
  have x3 : fFn12 w / 64 % 16 = kfmt.code := by omega
  have x4 : fFn12 w % 16 = 4 := by omega
  rw [major_42 w h1]
  simp [decSort, h0, h2, h3, h4, x0, x1, x2, x3, x4]
theorem cpTensor (sw : Bool) (a b : SReg) (dest : CpDest) (note : Bool) : Statement (.cpTensor sw a b dest note) := by
  intro hw _
  have b0 := a.code_lt
  have b1 := b.code_lt
  have b2 := dest.code_lt
  have b3 := boolCode_lt note
  refine of_encX _ sw 0x2B a.code b.code dest.code (boolCode note * 16 + 0) (by omega) (by omega) (by omega) (by omega) (by omega) rfl hw (fun w h0 h1 h2 h3 h4 h5 => ?_)
  have x0 : fFn12 w / 16 % 2 = boolCode note := by omega
  have x1 : fFn12 w / 32 = 0 := by omega
  have x2 : fFn12 w % 16 = 0 := by omega
  rw [major_43 w h1]
  simp [decCp, h0, h2, h3, h4, x0, x1, x2]
theorem cpBulk (sw : Bool) (a b : SReg) (note : Bool) : Statement (.cpBulk sw a b note) := by
  intro hw _
  have b0 := a.code_lt
  have b1 := b.code_lt
  have b2 := boolCode_lt note
  refine of_encX _ sw 0x2B a.code b.code 0 (boolCode note * 16 + 1) (by omega) (by omega) (by omega) (by omega) (by omega) rfl hw (fun w h0 h1 h2 h3 h4 h5 => ?_)
  have x0 : fFn12 w / 16 % 2 = boolCode note := by omega
  have x1 : fFn12 w / 32 = 0 := by omega
  have x2 : fFn12 w % 16 = 1 := by omega
  rw [major_43 w h1]
  simp [decCp, h0, h2, h3, h4, x0, x1, x2]
theorem cpRelease (sw : Bool) (a b : SReg) (note : Bool) : Statement (.cpRelease sw a b note) := by
  intro hw _
  have b0 := a.code_lt
  have b1 := b.code_lt
  have b2 := boolCode_lt note
  refine of_encX _ sw 0x2B a.code b.code 0 (boolCode note * 16 + 2) (by omega) (by omega) (by omega) (by omega) (by omega) rfl hw (fun w h0 h1 h2 h3 h4 h5 => ?_)
  have x0 : fFn12 w / 16 % 2 = boolCode note := by omega
  have x1 : fFn12 w / 32 = 0 := by omega
  have x2 : fFn12 w % 16 = 2 := by omega
  rw [major_43 w h1]
  simp [decCp, h0, h2, h3, h4, x0, x1, x2]
theorem cpRaw (sw : Bool) (a b : SReg) (note : Bool) : Statement (.cpRaw sw a b note) := by
  intro hw _
  have b0 := a.code_lt
  have b1 := b.code_lt
  have b2 := boolCode_lt note
  refine of_encX _ sw 0x2B a.code b.code 0 (boolCode note * 16 + 3) (by omega) (by omega) (by omega) (by omega) (by omega) rfl hw (fun w h0 h1 h2 h3 h4 h5 => ?_)
  have x0 : fFn12 w / 16 % 2 = boolCode note := by omega
  have x1 : fFn12 w / 32 = 0 := by omega
  have x2 : fFn12 w % 16 = 3 := by omega
  rw [major_43 w h1]
  simp [decCp, h0, h2, h3, h4, x0, x1, x2]
theorem sysRd (sw : Bool) (d : SReg) (reg : SysReg) : Statement (.sysRd sw d reg) := by
  intro hw _
  have b0 := d.code_lt
  have b1 := reg.code_lt
  refine of_encS _ sw 0x30 d.code 0 reg.code 0 (by omega) (by omega) (by omega) (by omega) (by omega) rfl hw (fun w h0 h1 h2 h3 h4 h5 => ?_)
  rw [major_48 w h1]
  simp [decSys, h0, h2, h3, h4, h5]
theorem sysWr (sw : Bool) (a : SReg) (reg : SysReg) : Statement (.sysWr sw a reg) := by
  intro hw _
  have b0 := a.code_lt
  have b1 := reg.code_lt
  refine of_encS _ sw 0x30 0 a.code reg.code 1 (by omega) (by omega) (by omega) (by omega) (by omega) rfl hw (fun w h0 h1 h2 h3 h4 h5 => ?_)
  rw [major_48 w h1]
  simp [decSys, h0, h2, h3, h4, h5]
theorem sysSet (sw : Bool) (d a : SReg) (reg : SysReg) : Statement (.sysSet sw d a reg) := by
  intro hw _
  have b0 := d.code_lt
  have b1 := a.code_lt
  have b2 := reg.code_lt
  refine of_encS _ sw 0x30 d.code a.code reg.code 2 (by omega) (by omega) (by omega) (by omega) (by omega) rfl hw (fun w h0 h1 h2 h3 h4 h5 => ?_)
  rw [major_48 w h1]
  simp [decSys, h0, h2, h3, h4, h5]
theorem sysClr (sw : Bool) (d a : SReg) (reg : SysReg) : Statement (.sysClr sw d a reg) := by
  intro hw _
  have b0 := d.code_lt
  have b1 := a.code_lt
  have b2 := reg.code_lt
  refine of_encS _ sw 0x30 d.code a.code reg.code 3 (by omega) (by omega) (by omega) (by omega) (by omega) rfl hw (fun w h0 h1 h2 h3 h4 h5 => ?_)
  rw [major_48 w h1]
  simp [decSys, h0, h2, h3, h4, h5]
theorem sysXchg (sw : Bool) (d a : SReg) (reg : SysReg) : Statement (.sysXchg sw d a reg) := by
  intro hw _
  have b0 := d.code_lt
  have b1 := a.code_lt
  have b2 := reg.code_lt
  refine of_encS _ sw 0x30 d.code a.code reg.code 4 (by omega) (by omega) (by omega) (by omega) (by omega) rfl hw (fun w h0 h1 h2 h3 h4 h5 => ?_)
  rw [major_48 w h1]
  simp [decSys, h0, h2, h3, h4, h5]
theorem trapCall (sw : Bool) (a : SReg) : Statement (.trapCall sw a) := by
  intro hw _
  have b0 := a.code_lt
  refine of_encA _ sw 0x31 0 a.code 0 0 (by omega) (by omega) (by omega) (by omega) (by omega) rfl hw (fun w h0 h1 h2 h3 h4 h5 h6 => ?_)
  rw [major_49 w h1]
  simp [decTrap, h0, h2, h3, h4, h5]
theorem trapRet (sw : Bool) : Statement (.trapRet sw) := by
  intro hw _
  refine of_encA _ sw 0x31 0 0 0 1 (by omega) (by omega) (by omega) (by omega) (by omega) rfl hw (fun w h0 h1 h2 h3 h4 h5 h6 => ?_)
  rw [major_49 w h1]
  simp [decTrap, h0, h2, h3, h4, h5]
theorem tlbInv1 (sw : Bool) (a b : SReg) : Statement (.tlbInv1 sw a b) := by
  intro hw _
  have b0 := a.code_lt
  have b1 := b.code_lt
  refine of_encA _ sw 0x32 0 a.code b.code 0 (by omega) (by omega) (by omega) (by omega) (by omega) rfl hw (fun w h0 h1 h2 h3 h4 h5 h6 => ?_)
  rw [major_50 w h1]
  simp [decTlb, h0, h2, h3, h4, h5]
theorem tlbInv2 (sw : Bool) (a b : SReg) : Statement (.tlbInv2 sw a b) := by
  intro hw _
  have b0 := a.code_lt
  have b1 := b.code_lt
  refine of_encA _ sw 0x32 0 a.code b.code 1 (by omega) (by omega) (by omega) (by omega) (by omega) rfl hw (fun w h0 h1 h2 h3 h4 h5 h6 => ?_)
  rw [major_50 w h1]
  simp [decTlb, h0, h2, h3, h4, h5]
theorem tlbInvid (sw : Bool) (a : SReg) : Statement (.tlbInvid sw a) := by
  intro hw _
  have b0 := a.code_lt
  refine of_encA _ sw 0x32 0 a.code 0 2 (by omega) (by omega) (by omega) (by omega) (by omega) rfl hw (fun w h0 h1 h2 h3 h4 h5 h6 => ?_)
  rw [major_50 w h1]
  simp [decTlb, h0, h2, h3, h4, h5]
theorem tlbInvall (sw : Bool) (a : SReg) : Statement (.tlbInvall sw a) := by
  intro hw _
  have b0 := a.code_lt
  refine of_encA _ sw 0x32 0 a.code 0 3 (by omega) (by omega) (by omega) (by omega) (by omega) rfl hw (fun w h0 h1 h2 h3 h4 h5 h6 => ?_)
  rw [major_50 w h1]
  simp [decTlb, h0, h2, h3, h4, h5]
theorem dbgBrk (sw : Bool) : Statement (.dbgBrk sw) := by
  intro hw _
  refine of_encA _ sw 0x33 0 0 0 0 (by omega) (by omega) (by omega) (by omega) (by omega) rfl hw (fun w h0 h1 h2 h3 h4 h5 h6 => ?_)
  rw [major_51 w h1]
  simp [decDbg, h0, h2, h3, h4, h5]
theorem dbgMark (sw : Bool) (a : SReg) : Statement (.dbgMark sw a) := by
  intro hw _
  have b0 := a.code_lt
  refine of_encA _ sw 0x33 0 a.code 0 1 (by omega) (by omega) (by omega) (by omega) (by omega) rfl hw (fun w h0 h1 h2 h3 h4 h5 h6 => ?_)
  rw [major_51 w h1]
  simp [decDbg, h0, h2, h3, h4, h5]
theorem dbgRdctr (sw : Bool) (d a : SReg) : Statement (.dbgRdctr sw d a) := by
  intro hw _
  have b0 := d.code_lt
  have b1 := a.code_lt
  refine of_encA _ sw 0x33 d.code a.code 0 2 (by omega) (by omega) (by omega) (by omega) (by omega) rfl hw (fun w h0 h1 h2 h3 h4 h5 h6 => ?_)
  rw [major_51 w h1]
  simp [decDbg, h0, h2, h3, h4, h5]
theorem hintImm (ext : BitVec 20) : Statement (.hintImm ext) := by
  intro hw _
  have b0 := ext.isLt
  refine of_encH _ false 0 ext.toNat (by omega) (by omega) rfl hw (fun w h0 h1 h2 h3 => ?_)
  have x0 : ext.toNat / 1048576 = 0 := by omega
  rw [major_63 w h1]
  simp [decHint, h0, h1, h2, h3, x0]
theorem hintSched (sw : Bool) (defer : BitVec 6) : Statement (.hintSched sw defer) := by
  intro hw _
  have b0 := defer.isLt
  refine of_encH _ sw 1 (defer.toNat * 65536) (by omega) (by omega) rfl hw (fun w h0 h1 h2 h3 => ?_)
  have x0 : fPay w % 65536 = 0 := by omega
  have x1 : fPay w / 65536 = defer.toNat := by omega
  rw [major_63 w h1]
  simp [decHint, h0, h1, h2, x0, x1]
theorem hintMod (mig : Mig) (msk : Option (BitVec 2)) (neg : Bool) : Statement (.hintMod mig msk neg) := by
  intro hw _
  have b0 := mig.code_lt
  have b1 := boolCode_lt neg
  have b2 := mskCode_lt msk
  refine of_encH _ false 2 (mig.code * 1048576 + mskCode msk * 131072 + boolCode neg * 65536) (by omega) (by omega) rfl hw (fun w h0 h1 h2 h3 => ?_)
  have x0 : fPay w % 65536 = 0 := by omega
  have x1 : fPay w / 1048576 = mig.code := by omega
  have x2 : fPay w / 131072 % 8 = mskCode msk := by omega
  have x3 : fPay w / 65536 % 2 = boolCode neg := by omega
  rw [major_63 w h1]
  simp [decHint, h0, h1, h2, x0, x1, x2, x3]
theorem hintBr (sw : Bool) (taken : Bool) : Statement (.hintBr sw taken) := by
  intro hw _
  have b0 := boolCode_lt taken
  refine of_encH _ sw 3 (boolCode taken * 2097152) (by omega) (by omega) rfl hw (fun w h0 h1 h2 h3 => ?_)
  have x0 : fPay w % 2097152 = 0 := by omega
  have x1 : fPay w / 2097152 = boolCode taken := by omega
  rw [major_63 w h1]
  simp [decHint, h0, h1, h2, x0, x1]
theorem tctl (unit : CoreId) (value : BitVec 64) : Statement (.tctl unit value) := fun _ h => absurd rfl h
theorem trd (unit : CoreId) (value : BitVec 64) : Statement (.trd unit value) := fun _ h => absurd rfl h
theorem stopreq (unit : CoreId) (value : BitVec 64) : Statement (.stopreq unit value) := fun _ h => absurd rfl h
theorem resume (unit : CoreId) (value : BitVec 64) : Statement (.resume unit value) := fun _ h => absurd rfl h
theorem dumpva (unit : CoreId) (value : BitVec 64) : Statement (.dumpva unit value) := fun _ h => absurd rfl h
theorem rctl (unit : CoreId) (value : BitVec 64) : Statement (.rctl unit value) := fun _ h => absurd rfl h
theorem bpctl (unit : CoreId) (n : BitVec 3) (value : BitVec 64) : Statement (.bpctl unit n value) := fun _ h => absurd rfl h
theorem unitRegisterWrite (unit : UnitId) (offset : BitVec 12) (value : BitVec 64) : Statement (.unitRegisterWrite unit offset value) := fun _ h => absurd rfl h
theorem setlabel (part : BitVec 2) (operands : BitVec 512) : Statement (.setlabel part operands) := fun _ h => absurd rfl h
theorem preempt (part : BitVec 2) (operands : BitVec 512) : Statement (.preempt part operands) := fun _ h => absurd rfl h
theorem getnonce (part : BitVec 2) (operands : BitVec 512) : Statement (.getnonce part operands) := fun _ h => absurd rfl h
theorem install (part : BitVec 2) (operands : BitVec 512) : Statement (.install part operands) := fun _ h => absurd rfl h
theorem remove (part : BitVec 2) (operands : BitVec 512) : Statement (.remove part operands) := fun _ h => absurd rfl h
theorem query (part : BitVec 2) (operands : BitVec 512) : Statement (.query part operands) := fun _ h => absurd rfl h
theorem claim (part : BitVec 2) (hyp : Bool) (operands : BitVec 512) : Statement (.claim part hyp operands) := fun _ h => absurd rfl h
theorem unclaim (part : BitVec 2) (hyp : Bool) (operands : BitVec 512) : Statement (.unclaim part hyp operands) := fun _ h => absurd rfl h
theorem reshape (part : BitVec 2) (operands : BitVec 512) : Statement (.reshape part operands) := fun _ h => absurd rfl h
theorem vfup (part : BitVec 2) (operands : BitVec 512) : Statement (.vfup part operands) := fun _ h => absurd rfl h
theorem vfdown (part : BitVec 2) (operands : BitVec 512) : Statement (.vfdown part operands) := fun _ h => absurd rfl h
theorem slotset (part : BitVec 2) (operands : BitVec 512) : Statement (.slotset part operands) := fun _ h => absurd rfl h
theorem launchPacket (part : BitVec 2) (dev : BitVec 12) (job : BitVec 16) (word : BitVec 64) : Statement (.launchPacket part dev job word) := fun _ h => absurd rfl h
theorem taskUnanchor  : Statement (.taskUnanchor) := by
  intro hw _
  refine of_encA _ true 0x18 0 0 0 4 (by omega) (by omega) (by omega) (by omega) (by omega) rfl hw (fun w h0 h1 h2 h3 h4 h5 h6 => ?_)
  rw [major_24 w h1]
  simp [decTask, h0, h2, h3, h4, h5]
theorem taskYield  : Statement (.taskYield) := by
  intro hw _
  refine of_encA _ true 0x18 0 0 0 6 (by omega) (by omega) (by omega) (by omega) (by omega) rfl hw (fun w h0 h1 h2 h3 h4 h5 h6 => ?_)
  rw [major_24 w h1]
  simp [decTask, h0, h2, h3, h4, h5]
theorem trapUret  : Statement (.trapUret) := by
  intro hw _
  refine of_encA _ true 0x31 0 0 0 2 (by omega) (by omega) (by omega) (by omega) (by omega) rfl hw (fun w h0 h1 h2 h3 h4 h5 h6 => ?_)
  rw [major_49 w h1]
  simp [decTrap, h0, h2, h3, h4, h5]
theorem tlbSync  : Statement (.tlbSync) := by
  intro hw _
  refine of_encA _ true 0x32 0 0 0 4 (by omega) (by omega) (by omega) (by omega) (by omega) rfl hw (fun w h0 h1 h2 h3 h4 h5 h6 => ?_)
  rw [major_50 w h1]
  simp [decTlb, h0, h2, h3, h4, h5]
theorem priorityAgeing (core : CoreId) : Statement (.priorityAgeing core) := fun _ h => absurd rfl h
theorem groupEnd (core : CoreId) (tid : Tid) : Statement (.groupEnd core tid) := fun _ h => absurd rfl h
theorem slotGrant (core : CoreId) : Statement (.slotGrant core) := fun _ h => absurd rfl h
theorem anchorGrant (core : CoreId) : Statement (.anchorGrant core) := fun _ h => absurd rfl h
theorem hearthRemoteAccess (core : CoreId) (src : Endpoint) : Statement (.hearthRemoteAccess core src) := fun _ h => absurd rfl h
theorem spawnRequest (core : CoreId) (src : Endpoint) : Statement (.spawnRequest core src) := fun _ h => absurd rfl h
theorem spawntoRefusal (core : CoreId) (src : Endpoint) : Statement (.spawntoRefusal core src) := fun _ h => absurd rfl h
theorem steal (core : CoreId) : Statement (.steal core) := fun _ h => absurd rfl h
theorem stealRequest (core : CoreId) (src : Endpoint) : Statement (.stealRequest core src) := fun _ h => absurd rfl h
theorem stealReply (core : CoreId) (src : Endpoint) : Statement (.stealReply core src) := fun _ h => absurd rfl h
theorem migration (core : CoreId) (tid : Tid) : Statement (.migration core tid) := fun _ h => absurd rfl h
theorem slotReservation (core : CoreId) (src : Endpoint) : Statement (.slotReservation core src) := fun _ h => absurd rfl h
theorem migrationRefused (core : CoreId) (src : Endpoint) : Statement (.migrationRefused core src) := fun _ h => absurd rfl h
theorem taskContextArrival (core : CoreId) (src : Endpoint) : Statement (.taskContextArrival core src) := fun _ h => absurd rfl h
theorem queueTailWrite (core : CoreId) (src : Endpoint) : Statement (.queueTailWrite core src) := fun _ h => absurd rfl h
theorem matrixCommand (core : CoreId) (src : Endpoint) : Statement (.matrixCommand core src) := fun _ h => absurd rfl h
theorem activeMessage (core : CoreId) (src : Endpoint) : Statement (.activeMessage core src) := fun _ h => absurd rfl h
theorem hearthOverrun (core : CoreId) : Statement (.hearthOverrun core) := fun _ h => absurd rfl h
theorem remoteReply (core : CoreId) (op : Nat) (ext : Option OutReply) : Statement (.remoteReply core op ext) := fun _ h => absurd rfl h
theorem deferredErrorReply (core : CoreId) (op : Nat) (status : BitVec 8) : Statement (.deferredErrorReply core op status) := fun _ h => absurd rfl h
theorem combiningBufferDrain (core : CoreId) (index : Nat) : Statement (.combiningBufferDrain core index) := fun _ h => absurd rfl h
theorem hostPortAtomic  : Statement (.hostPortAtomic) := fun _ h => absurd rfl h
theorem atomicopCompletion (value : BitVec 64) (ok : Bool) : Statement (.atomicopCompletion value ok) := fun _ h => absurd rfl h
theorem barrierWaitWake (core : CoreId) (tid : Tid) : Statement (.barrierWaitWake core tid) := fun _ h => absurd rfl h
theorem wirePhaseComplete (core : CoreId) : Statement (.wirePhaseComplete core) := fun _ h => absurd rfl h
theorem wireWaitTimeout (core : CoreId) (tid : Tid) : Statement (.wireWaitTimeout core tid) := fun _ h => absurd rfl h
theorem waitForChangeWake (core : CoreId) (tid : Tid) : Statement (.waitForChangeWake core tid) := fun _ h => absurd rfl h
theorem joinWake (core : CoreId) (tid : Tid) : Statement (.joinWake core tid) := fun _ h => absurd rfl h
theorem inboxMessage (core : CoreId) : Statement (.inboxMessage core) := fun _ h => absurd rfl h
theorem emberPostAccept (core : CoreId) (src : Endpoint) : Statement (.emberPostAccept core src) := fun _ h => absurd rfl h
theorem emberDispatch (core : CoreId) (job : BitVec 16) (store : BitVec 8) : Statement (.emberDispatch core job store) := fun _ h => absurd rfl h
theorem sliceTake (core : CoreId) (src : Endpoint) : Statement (.sliceTake core src) := fun _ h => absurd rfl h
theorem leaseRelease (core : CoreId) (src : Endpoint) : Statement (.leaseRelease core src) := fun _ h => absurd rfl h
theorem sliceThreshold (core : CoreId) (src : Endpoint) : Statement (.sliceThreshold core src) := fun _ h => absurd rfl h
theorem sliceFlush (core : CoreId) (src : Endpoint) : Statement (.sliceFlush core src) := fun _ h => absurd rfl h
theorem ashRepost (core : CoreId) (job : BitVec 16) (store : BitVec 8) : Statement (.ashRepost core job store) := fun _ h => absurd rfl h
theorem engineWord (core : CoreId) (tid : Tid) (eng : Engine) : Statement (.engineWord core tid eng) := fun _ h => absurd rfl h
theorem matrixKstep (core : CoreId) : Statement (.matrixKstep core) := fun _ h => absurd rfl h
theorem matrixQueueAgeing (core : CoreId) : Statement (.matrixQueueAgeing core) := fun _ h => absurd rfl h
theorem copySegment (core : CoreId) : Statement (.copySegment core) := fun _ h => absurd rfl h
theorem copyAgeing (core : CoreId) : Statement (.copyAgeing core) := fun _ h => absurd rfl h
theorem sortStep (core : CoreId) : Statement (.sortStep core) := fun _ h => absurd rfl h
theorem queuePull (core : CoreId) (job : BitVec 16) (queue : BitVec 8) (producer : CoreId) : Statement (.queuePull core job queue producer) := fun _ h => absurd rfl h
theorem stagedInputPin (core : CoreId) : Statement (.stagedInputPin core) := fun _ h => absurd rfl h
theorem fireRefusal (core : CoreId) (src : Endpoint) : Statement (.fireRefusal core src) := fun _ h => absurd rfl h
theorem pendingFirePush (core : CoreId) : Statement (.pendingFirePush core) := fun _ h => absurd rfl h
theorem notice (core : CoreId) (value : BitVec 64) : Statement (.notice core value) := fun _ h => absurd rfl h
theorem barown (core : CoreId) (value : BitVec 64) : Statement (.barown core value) := fun _ h => absurd rfl h
theorem dqBaseLimitWrite (core : CoreId) (limit : Bool) (value : BitVec 64) : Statement (.dqBaseLimitWrite core limit value) := fun _ h => absurd rfl h
theorem qPortRead (core : CoreId) (port : BitVec 3) : Statement (.qPortRead core port) := fun _ h => absurd rfl h
theorem qPortWrite (core : CoreId) (port : BitVec 3) (value : BitVec 64) (label : BitVec 16) : Statement (.qPortWrite core port value label) := fun _ h => absurd rfl h
theorem flipGrant (vmid : BitVec 16) (ia : BitVec 64) (hostPa : Option (BitVec 64)) : Statement (.flipGrant vmid ia hostPa) := fun _ h => absurd rfl h
theorem flipToHost (vmid : BitVec 16) (ia : BitVec 64) (hostPa : BitVec 64) : Statement (.flipToHost vmid ia hostPa) := fun _ h => absurd rfl h
theorem hostMemRead (addr : BitVec 64) (len : Nat) : Statement (.hostMemRead addr len) := fun _ h => absurd rfl h
theorem hostMemWrite (addr : BitVec 64) (data : List (BitVec 8)) : Statement (.hostMemWrite addr data) := fun _ h => absurd rfl h
theorem preemption (core : CoreId) (tid : Tid) : Statement (.preemption core tid) := fun _ h => absurd rfl h
theorem taskRestore (core : CoreId) (tid : Tid) : Statement (.taskRestore core tid) := fun _ h => absurd rfl h
theorem register (func : BitVec 6) (mailbox : BitVec 576) : Statement (.register func mailbox) := fun _ h => absurd rfl h
theorem unregister (func : BitVec 6) (word : BitVec 60) : Statement (.unregister func word) := fun _ h => absurd rfl h
theorem withdraw (func : BitVec 6) (word : BitVec 60) : Statement (.withdraw func word) := fun _ h => absurd rfl h
theorem launch (func : BitVec 6) (word : BitVec 64) : Statement (.launch func word) := fun _ h => absurd rfl h
theorem launchWordService (part : BitVec 2) : Statement (.launchWordService part) := fun _ h => absurd rfl h
theorem gangPlacement (part : BitVec 2) : Statement (.gangPlacement part) := fun _ h => absurd rfl h
theorem launchCompletion (part : BitVec 2) (number : BitVec 32) : Statement (.launchCompletion part number) := fun _ h => absurd rfl h
theorem qosPeriodStart  : Statement (.qosPeriodStart) := fun _ h => absurd rfl h
theorem cidx (value : BitVec 64) : Statement (.cidx value) := fun _ h => absurd rfl h
theorem fence (target : FenceTarget) : Statement (.fence target) := fun _ h => absurd rfl h
theorem uncorrectableError (place : MemPlace) (addr : Nat) : Statement (.uncorrectableError place addr) := fun _ h => absurd rfl h
theorem softError (place : MemPlace) (addr : Nat) : Statement (.softError place addr) := fun _ h => absurd rfl h
theorem scrub (die : BitVec 2) : Statement (.scrub die) := fun _ h => absurd rfl h
theorem flitGroupReceive (port : BitVec 5) (headers : BitVec 256) (payload : List (BitVec 8)) (tag : BitVec 128) : Statement (.flitGroupReceive port headers payload tag) := fun _ h => absurd rfl h
theorem nak (port : BitVec 5) (ack : BitVec 24) : Statement (.nak port ack) := fun _ h => absurd rfl h
theorem linkDown (port : BitVec 5) : Statement (.linkDown port) := fun _ h => absurd rfl h
theorem fabricRequest (port : BitVec 5) (header : BitVec 256) (data : List (BitVec 8)) : Statement (.fabricRequest port header data) := fun _ h => absurd rfl h
theorem requestResend (core : CoreId) (op : Nat) : Statement (.requestResend core op) := fun _ h => absurd rfl h
theorem requestTimeout (core : CoreId) (op : Nat) : Statement (.requestTimeout core op) := fun _ h => absurd rfl h
theorem acknowledgementPacket (core : CoreId) (dev : BitVec 12) : Statement (.acknowledgementPacket core dev) := fun _ h => absurd rfl h
theorem replyCacheReclaim (src : Endpoint) : Statement (.replyCacheReclaim src) := fun _ h => absurd rfl h
theorem rekey (port : BitVec 5) (sending : Bool) : Statement (.rekey port sending) := fun _ h => absurd rfl h
theorem rmsync (window : FabricWindow) : Statement (.rmsync window) := fun _ h => absurd rfl h
theorem traceDrain (unit : CoreId) : Statement (.traceDrain unit) := fun _ h => absurd rfl h
theorem sample (unit : CoreId) : Statement (.sample unit) := fun _ h => absurd rfl h
theorem replayChunk (unit : CoreId) : Statement (.replayChunk unit) := fun _ h => absurd rfl h
theorem packageReset (failures : List StepFailure) : Statement (.packageReset failures) := fun _ h => absurd rfl h
theorem powerLoss (inOrder : Bool) : Statement (.powerLoss inOrder) := fun _ h => absurd rfl h
theorem vcoreCurrentLimit (die : BitVec 2) : Statement (.vcoreCurrentLimit die) := fun _ h => absurd rfl h
theorem junctionTemperature (die : BitVec 2) (celsius : Nat) : Statement (.junctionTemperature die celsius) := fun _ h => absurd rfl h
theorem getVersion  : Statement (.getVersion) := fun _ h => absurd rfl h
theorem getCapabilities  : Statement (.getCapabilities) := fun _ h => absurd rfl h
theorem negotiateAlgorithms (asym hash : List (BitVec 32)) : Statement (.negotiateAlgorithms asym hash) := fun _ h => absurd rfl h
theorem getDigests  : Statement (.getDigests) := fun _ h => absurd rfl h
theorem getCertificate (offset length : Nat) : Statement (.getCertificate offset length) := fun _ h => absurd rfl h
theorem challenge (nonce : BitVec 256) : Statement (.challenge nonce) := fun _ h => absurd rfl h
theorem getMeasurements (index : BitVec 8) (nonce : BitVec 256) : Statement (.getMeasurements index nonce) := fun _ h => absurd rfl h
theorem keyExchange (exchange : List (BitVec 8)) : Statement (.keyExchange exchange) := fun _ h => absurd rfl h
theorem finish (verify : BitVec 256) : Statement (.finish verify) := fun _ h => absurd rfl h
theorem keyUpdate  : Statement (.keyUpdate) := fun _ h => absurd rfl h
theorem endSession  : Statement (.endSession) := fun _ h => absurd rfl h
theorem operationAcknowledgement (core : CoreId) (op : Nat) : Statement (.operationAcknowledgement core op) := fun _ h => absurd rfl h
theorem cxlCompletionTimeout  : Statement (.cxlCompletionTimeout) := fun _ h => absurd rfl h
theorem packagePowerLimit  : Statement (.packagePowerLimit) := fun _ h => absurd rfl h
theorem pipeMessageArrival (core : CoreId) (src : Endpoint) : Statement (.pipeMessageArrival core src) := fun _ h => absurd rfl h
theorem pipeCreditReturn (core : CoreId) (src : Endpoint) : Statement (.pipeCreditReturn core src) := fun _ h => absurd rfl h
theorem illegalInstruction  : Statement (.illegalInstruction) := fun _ h => absurd rfl h
theorem maintenancePortArrival (die : BitVec 2) (port : BitVec 3) (value : Option (BitVec 64)) (freed : Nat) : Statement (.maintenancePortArrival die port value freed) := fun _ h => absurd rfl h
theorem hostSkipAltRecord (alt : Bool) (step : BitVec 8) (unit : BitVec 16) (arg : BitVec 96) : Statement (.hostSkipAltRecord alt step unit arg) := fun _ h => absurd rfl h

end Sys2Proof.Laws.DecodesBack
end

