-- ==== Sys2Proof/Tests/Slice0.lean ====
section
/-! SUPPORT. Tests of the model's own: well-formedness, decoding, and for each statement states that meet its hypotheses, with the effect of one
step or one meaning on them. Expected values come from the rules named beside them. -/

namespace Sys2Proof.Machine.Tests

set_option Elab.async false

/-! ### Well-formedness: each check refuses a term that breaks it -/

theorem test_wf_refuses :
    [Instr.ialuAdd false .tid (.g 1) (.g 2), .imulDiv false .l (.g 1) (.g 2), .ld false .tid (.g 1) .die .plain .w 0, .fcvt false (.g 1) (.g 2) .f32 .f32,
     .fcvt false (.g 1) (.g 2) .i32 .u64, .jrLink false .l (.g 1), .ld false .l (.g 1) .die .plain .w 0, .ld false (.g 1) (.g 2) .die .rel .w 0,
     .st false (.q 0) (.g 1) .die .plain .w 0, .st false (.g 1) (.g 2) .die .acq .w 0, .barWait false (.g 1) (.g 2) .pod,
     .barArrive false (.g 1) (.g 2) .task, .barWfcw false (.g 1) (.g 2) (.g 3) .pod, .engFork false (.g 1) (.g 2) 0, .engRdv false 0,
     .vintCmplt false (.o 1) (.o 2) 0 .i8, .vintSel false (.o 1) (.o 2) (.o 3) 0 .i8, .vmovGet false .lv 0 0, .vmovPut false .zv 0 0,
     .vmovCopy false .zv (.o 1) none, .vcvt false (.o 1) (.o 2) 0 .fp32 .fp32 false, .vredRowstat false (.o 6) 0 .f32, .vredRowstat false (.o 1) 0 .i32,
     .vld false .lv (.g 1) .die .plain .raw 0, .vld false (.o 1) (.g 1) .die .rel .raw 0, .vst false (.o 1) (.g 1) .die .acq .raw 0,
     .sortRows false 1 false .i64 .k64, .sortRows false 0 false .f32 .k64, .sysRd false .l .tsw, .sysWr false (.g 1) .cycle,
     .sysSet false (.g 1) (.g 2) .jscap, .sysClr false (.g 1) (.g 2) .barown, .sysXchg false (.g 1) (.g 2) .coreId, .hintMod .none none true].all
      (fun i => !i.wf) = true := by decide

/-! ### Decoding: words written out in the specification -/

theorem test_decode_scalar :
    [(0x02308800, Instr.ialuAdd false (.g 3) (.g 1) (.g 2)), (0x84208678, .ialuiAdd true (.g 2) (.g 1) 0x678), (0x0471FFFB, .ialuiSlt false (.g 7) (.g 3) 0xFFB),
     (0x0C410C08, .capSetbnd false (.g 4) (.g 2) (.g 3)), (0x10112FFD, .brLt false (.g 1) (.g 2) 0xFFD), (0x16078000, .jrGo false (.g 15)),
     (0x18429905, .fpuFma false (.g 4) (.g 5) (.g 6) .f64), (0x1A208080, .fcvt false (.g 2) (.g 1) .i32 .f32), (0x7E012345, .hintImm 0x12345),
     (0x7E400000, .hintSched false 0), (0x7EA00000, .hintMod .migrate none false), (0x7EE00000, .hintBr false true),
     (0x7EC00000, .hintBr false false)].all (fun p => decodeTableWord 32 p.1 == some p.2) = true := by decide +kernel

theorem test_decode_memory :
    [(0xA0412284, Instr.ld true (.g 4) (.g 2) .die .acq .w 4), (0x205120C1, .ld false (.g 5) (.g 2) .die .plain .d 1),
     (0xA2612490, .st true (.g 6) (.g 2) .die .rel .w 16), (0x24410D3A, .atomAdd false (.g 4) (.g 2) (.g 3) .die .acqrel .d),
     (0x24531D27, .atomDecf false (.g 5) (.g 6) (.g 7) .die .rel .w), (0x26110D41, .fatomMin false (.g 1) (.g 2) (.g 3) .part .plain .f32),
     (0x28000100, .fenceSc false .die), (0x280000E0, .fenceRel false .clus), (0x2A4180C4, .barSync false (.g 4) (.g 3) .clus),
     (0x2A510D09, .barWfcw false (.g 5) (.g 2) (.g 3) .die), (0x2C110000, .inboxPop false (.g 1) (.g 2))].all
      (fun p => decodeTableWord 32 p.1 == some p.2) = true := by decide +kernel

theorem test_decode_tasks :
    [(0xB0410000, Instr.taskSpawn (.g 4) (.g 2)), (0xB0411801, .taskSpawnto (.g 4) (.g 2) (.g 6)), (0xB0020002, .taskJoin (.g 4)), (0xB0028003, .taskAnchor (.g 5)),
     (0xB0018005, .taskEnd (.g 3)), (0x32011400, .queuePush false (.g 2) (.g 5)), (0x32411401, .queuePop false (.g 4) (.g 2) (.g 5)), (0x32010002, .queueTail false (.g 2)),
     (0x34411400, .pipeSend false (.g 4) (.g 2) (.g 5)), (0x34411401, .pipeRecv false (.g 4) (.g 2) (.g 5)), (0x3821F000, .engFork false (.g 2) (.g 3) 7),
     (0x38003001, .engRdv false 3)].all (fun p => decodeTableWord 32 p.1 == some p.2) = true := by decide +kernel

theorem test_decode_ember :
    [(0x36531C00, Instr.evPost false (.g 5) (.g 6) (.g 7)), (0x36431C01, .evPostw false (.g 4) (.g 6) (.g 7)), (0x36810C02, .evTake false (.g 8) (.g 2) (.g 3)),
     (0x36020403, .evDone false (.g 4) (.g 1)), (0x36010C04, .evThresh false (.g 2) (.g 3)), (0x36010005, .evFlush false (.g 2)),
     (0x36610C06, .evStat false (.g 6) (.g 2) (.g 3))].all (fun p => decodeTableWord 32 p.1 == some p.2) = true := by decide +kernel

theorem test_decode_vector :
    [(0x40250603, Instr.vfpFma false (.o 1) (.o 2) .lv (.o 3) .f32), (0x41224001, .vfpSub false .zv (.o 1) (.o 2) .f32), (0x4004620B, .vfpCmplt false (.o 2) (.o 3) 1 .f32),
     (0x44208500, .vmovGet false (.o 1) 2 5), (0xC4490502, .vmovCopy true (.o 2) (.o 4) (some 5)), (0x46C20164, .vcvt false (.o 6) (.o 1) 0 .bq2 .bf16 false),
     (0x46A20043, .vcvt false (.o 5) (.o 1) 0 .bf16 .fp32 true), (0xC8700000, .vsfExp2 true (.o 3) .lv .f32), (0xCA808003, .vredRowstat true (.o 4) 2 .f32),
     (0x4C112242, .vld false (.o 1) (.g 2) .die .acq .f32 2)].all (fun p => decodeTableWord 32 p.1 == some p.2) = true := by decide +kernel

theorem test_decode_engines :
    [(0x50203000, Instr.mxMma false (.g 2) 3), (0xD0400001, .mxMmaz true (.g 4) 0), (0x50605002, .mxZero false (.g 6) 5), (0x5221A050, .mxcSend false (.g 2) (.g 3) 2 5),
     (0x56218010, .cpTensor false (.g 2) (.g 3) .spad true), (0x56219000, .cpTensor false (.g 2) (.g 3) .pipea false), (0x56428011, .cpBulk false (.g 4) (.g 5) true),
     (0x56638012, .cpRelease false (.g 6) (.g 7) true), (0x5421C040, .sortLoad false (.g 2) (.g 3) 4 false .u32 .k32p32), (0x54504442, .sortRun false (.g 5) 4 true .u32 .k32p32),
     (0xD421C441, .sortStore true (.g 2) (.g 3) 4 true .u32 .k32p32), (0x54000153, .sortRows false 0 false .i64 .k64),
     (0x5442E484, .sortTopk false (.g 4) (.g 5) 6 true .f32 .k32p32)].all (fun p => decodeTableWord 32 p.1 == some p.2) = true := by decide +kernel

theorem test_decode_system :
    [(0x60700108, Instr.sysRd false (.g 7) .jscap), (0x60020081, .sysWr false (.g 4) .dqBase), (0x603300A4, .sysXchg false (.g 3) (.g 6) .jsel), (0x62010000, .trapCall false (.g 2)),
     (0x62000001, .trapRet false), (0xE2000002, .trapUret), (0x64010C00, .tlbInv1 false (.g 2) (.g 3)), (0xE4000004, .tlbSync), (0x66000000, .dbgBrk false),
     (0x66428002, .dbgRdctr false (.g 4) (.g 5))].all (fun p => decodeTableWord 32 p.1 == some p.2) = true := by decide +kernel

/-- Words that the specification calls illegal. -/
theorem test_decode_refuses :
    [0, 0x80000000, 0x1E000000, 0x0200000F, 0x1A208120, 0x2A4180CB, 0x30410000, 0x38000000, 0x36000007, 0x400001C0, 0x420000CE, 0x45400000, 0x50203003, 0x56429011,
     0x56218110, 0x54000090, 0x540001C0, 0x54000800, 0x5421D040, 0x60700105, 0x60700F80].all (fun w => decodeTableWord 32 w == none) = true := by decide +kernel

/-! ### A small state: one ready task at the port of core (0, 0) of die 0 -/

/-- A state that an outcome answers has a property. -/
def after (o : Out) (p : State → Bool) : Bool :=
  match o with
  | .next t => p t
  | _ => false

def cap (base len perm space : Nat) : Val := (exactCap base len perm space 0).getD Val.zero

/-- The registers: two numbers with labels, capabilities of the scratchpad, of code and of the whole, and floating numbers. -/
def regs : Vector Val 16 :=
  #v[Val.zero, plainVal 5 1, plainVal 3 2, plainVal 0xFFFFFFFFFFFFFFF8 0, cap 0x1000 0x1000 0x3FF 0, cap 0x100010100 0x100 0x3FF 1, plainVal 0x40 0,
     plainVal 0x3F800000 0, plainVal 0x40000000 0, Val.zero, plainVal 16 0, plainVal 0x7F800001 0, plainVal 0x1020 0, cap 0x40001000 0x1000 0x3FF 0, Val.zero, Val.zero]

def tk : Task := { Task.vacant with
  status := .ready, g := regs, tid := 0x77, tidReg := 0x77, clabel := 4, pc := 0x100010000, unitPc := 0x100010000, tsw := 0x20000 }

def s0 : State := { t := tk, c := Core.reset 0, d := { Device.reset with boot := { Boot.reset with released := Vector.replicate 4 true } } }

/-- The value that the last entry of the buffer holds for a register. -/
def State.last (s : State) (n : BitVec 4) : Option (Nat × Bool × Label) :=
  match s.t.buf.getLast? with
  | some (.g k v) => if k = n then some (v.bits.toNat, v.tag, v.label) else none
  | _ => none

/-- A scalar instruction puts a value with a label into g14, and L has it too. -/
def gives (i : Instr) (v : Nat) (l : Label) : Bool := after (exec i s0) (fun t => State.last t 14 == some (v, false, l) && t.t.pc == 0x100010004)
/-- A cause without a handler: the task is gone. -/
def raised (o : Out) (c detail : Nat) : Bool :=
  after o (fun t => t.t.status == .vacant && (t.d.dumps.getLast?.any (fun d => d.causew.toNat % 256 == c && d.causew.toNat / 2 ^ 32 == detail)))
def raises (s : State) (i : Instr) (c detail : Nat) : Bool := raised (exec i s) c detail

theorem witness_ScalarAluResults :
    s0.Ready Accept.none [.g 1, .g 2] (.g 14) ∧ s0.Ready Accept.immOnly [.g 1] (.g 14) ∧ s0.Ready Accept.immOnly [] (.g 14) ∧
    (State.mk { tk with pfxImm := some 1 } s0.c s0.d).t.pfxImm = some (1 : BitVec 20) := by
  simp only [State.Ready]; decide +kernel

/-- R133: 5 − (−8), 5 < −8 unsigned, the shift of −8 by 3; R134: a sign-extended and a zero-extended immediate; R135. -/
theorem test_ialu : gives (.ialuSub false (.g 14) (.g 1) (.g 3)) 13 5 ∧ gives (.ialuSltu false (.g 14) (.g 1) (.g 3)) 1 5 ∧
    gives (.ialuSra false (.g 14) (.g 3) (.g 2)) 0xFFFFFFFFFFFFFFFF 6 ∧ gives (.ialuAndn false (.g 14) (.g 1) (.g 2)) 4 7 := by decide +kernel
theorem test_ialui : gives (.ialuiAdd false (.g 14) (.g 1) 0xFFF) 4 5 ∧ gives (.ialuiOr false (.g 14) (.g 1) 0x800) 0x805 5 ∧
    gives (.lui false (.g 14) 0x80000) 0xFFFFFFFF80000000 4 := by decide +kernel

theorem witness_BitAndMultiplyResults :
    s0.Ready Accept.none [.g 1] (.g 14) ∧ s0.Ready Accept.none [.g 1, .g 2] (.g 14) ∧ s0.Ready Accept.none [.g 1, .g 2, .g 14] (.g 14) ∧
    s0.x (.g 2) ≠ 0 ∧ s0.x (.g 0) = 0 := by
  simp only [State.Ready]; decide +kernel

/-- R136: leading zeros of 5; bytes of 5 reversed; 5 sign-extended from bit 0 (0x40 has pos 0); R137: −8 / 3, its remainder, and the high half of −8 × 5. -/
theorem test_ibit : gives (.ibitClz false (.g 14) (.g 1)) 61 5 ∧ gives (.ibitBswap false (.g 14) (.g 1)) (5 * 2 ^ 56) 5 ∧
    gives (.ibitSext false (.g 14) (.g 1) (.g 6)) 0xFFFFFFFFFFFFFFFF 5 ∧ gives (.ibitRor false (.g 14) (.g 1) (.g 2)) 0xA000000000000000 7 := by decide +kernel
theorem test_imul : gives (.imulDiv false (.g 14) (.g 3) (.g 2)) 0xFFFFFFFFFFFFFFFE 6 ∧ gives (.imulRem false (.g 14) (.g 3) (.g 2)) 0xFFFFFFFFFFFFFFFE 6 ∧
    gives (.imulMulh false (.g 14) (.g 3) (.g 1)) 0xFFFFFFFFFFFFFFFF 5 ∧ raises s0 (.imulDiv false (.g 14) (.g 3) (.g 0)) 0x0F 0 := by decide +kernel

/-- Capabilities: bounds, a cursor inside and far outside, a narrowing that fits and one that does not. -/
def capTest (i : Instr) (p : Val → Bool) : Bool := after (exec i s0) (fun t => t.t.buf.getLast?.any (fun e => match e with | .g _ v => p v | _ => false))

theorem witness_CapabilityReadResults : s0.Ready Accept.none [.g 4] (.g 14) ∧ s0.Ready Accept.none [.g 4, .g 6] (.g 14) ∧
    s0.Ready Accept.immOnly [.g 4] (.g 14) := by
  simp only [State.Ready]; decide +kernel
theorem test_cap_read : gives (.capGetbase false (.g 14) (.g 4)) 0x1000 4 ∧ gives (.capGettop false (.g 14) (.g 4)) 0x2000 4 ∧
    gives (.capGetperm false (.g 14) (.g 4)) 0x3FF 4 ∧ gives (.capGettag false (.g 14) (.g 4)) 1 4 ∧
    capTest (.capSetcur false (.g 14) (.g 4) (.g 6)) (fun v => capCursor v.bits == 0x40 && v.tag) ∧
    capTest (.capiAddcur false (.g 14) (.g 4) 0xFFF) (fun v => capCursor v.bits == 0xFFF) := by decide +kernel

theorem witness_CapabilityNarrowResults : s0.Ready Accept.none [.g 4, .g 6] (.g 14) ∧ s0.Ready Accept.immOnly [.g 4] (.g 14) ∧
    (s0.rd (.g 4)).tag = true ∧ (s0.rd (.g 1)).tag = false ∧ (narrow (s0.rd (.g 4)) 0x40 true 4).toBool = true ∧
    (narrow (s0.rd (.g 4)) 0x2000 true 4).toBool = false ∧ capSpace (s0.rd (.g 4)).bits = 0 ∧ spaceWin 1 ≠ none ∧ capSpace (s0.rd (.g 5)).bits ≠ 0 := by
  simp only [State.Ready]; decide +kernel
theorem test_cap_narrow : capTest (.capSetbnd false (.g 14) (.g 4) (.g 6)) (fun v => capBase v.bits == 0x1000 && capTop v.bits == 0x1040 && v.tag) ∧
    raises s0 (.capSetbndx false (.g 14) (.g 4) (.g 7)) 0x05 0 ∧ raises s0 (.capSetbnd false (.g 14) (.g 1) (.g 6)) 0x04 0 ∧
    capTest (.capiAndperm false (.g 14) (.g 4) 3) (fun v => capPerm v.bits == 3) ∧ raises s0 (.capSetspace false (.g 14) (.g 4) (.g 1)) 0x06 0 ∧
    capTest (.capSetspace false (.g 14) (.g 4) (.g 2)) (fun v => capSpace v.bits == 3 && v.tag) := by decide +kernel

theorem witness_ControlFlowResults : s0.Ready Accept.immOnly [.g 1, .g 2] .zero ∧ s0.Ready Accept.none [] .zero ∧ s0.Ready Accept.none [] (.g 15) ∧
    s0.Ready Accept.none [.g 5] .zero ∧ s0.Ready Accept.none [.g 5] (.g 14) ∧ (s0.rd (.g 5)).tag = true ∧ (s0.rd (.g 1)).tag = false ∧
    capSpace (s0.rd (.g 5)).bits = 1 ∧ hasPerm (s0.rd (.g 5)).bits pEXEC = true ∧ winOf (capCursor (s0.rd (.g 5)).bits) = some .glob ∧
    winOf (capCursor (s0.rd (.g 4)).bits) ≠ some .glob ∧ capCursor (s0.rd (.g 5)).bits % 4 = 0 := by
  simp only [State.Ready]; decide +kernel
/-- R142: a taken branch goes back twelve bytes and raises the control label; R143: a call's return capability; R144: a jump and its checks. -/
theorem test_control : after (exec (.brLt false (.g 2) (.g 1) 0xFFD) s0) (fun t => t.t.pc == 0x10000FFF4 && t.t.clabel == 7) ∧
    after (exec (.brEq false (.g 2) (.g 1) 0xFFD) s0) (fun t => t.t.pc == 0x100010004 && t.t.clabel == 7) ∧
    after (exec (.call true 4) s0) (fun t => t.t.pc == 0x100010010 && t.t.status == .parked .group && t.t.buf.getLast?.any (fun e => match e with
      | .g 15 v => v.tag && capBase v.bits == 0x100010004 && capTop v.bits == 0x100010008 && capPerm v.bits == pEXEC
      | _ => false)) ∧
    after (exec (.jrGo false (.g 5)) s0) (fun t => t.t.pc == 0x100010100) ∧ raises s0 (.jrGo false (.g 4)) 0x06 0 ∧ raises s0 (.jrGo false (.g 1)) 0x04 0 := by
  decide +kernel

theorem witness_LabelAndHintResults : s0.Ready Accept.none [.g 1] (.g 14) ∧ s0.Ready Accept.none [] (.g 14) ∧ s0.Ready Accept.none [.g 1, .g 2] (.g 14) ∧
    s0.t.pfxImm = none ∧ s0.t.pfxMod = none ∧ (State.mk { tk with pfxImm := some 1 } s0.c s0.d).t.pfxImm ≠ (none : Option (BitVec 20)) := by
  simp only [State.Ready]; decide +kernel
theorem test_labels : gives (.lblGet false (.g 14) (.g 2)) 2 6 ∧ gives (.lblCtl false (.g 14)) 4 4 ∧ gives (.lblRaise false (.g 14) (.g 2) (.g 10)) 3 22 ∧
    gives (.lblSub false (.g 14) (.g 2) (.g 2)) 1 6 ∧ gives (.lblSub false (.g 14) (.g 2) (.g 1)) 0 7 := by decide +kernel
theorem test_hints : after (exec (.hintImm 7) s0) (fun t => t.t.pfxImm == some 7 && t.t.unitPc == 0x100010000) ∧
    after (exec (.hintSched false 5) s0) (fun t => t.t.passOver == 5) ∧
    after (exec (.hintBr false true) s0) (fun t => t.t.predict == some true) ∧
    raises { s0 with t := { tk with pfxImm := some 1 } } (.hintMod .migrate none false) 0x01 0 := by decide +kernel

theorem witness_FpuResults : s0.Ready Accept.none [.g 7, .g 8] (.g 14) ∧ s0.Ready Accept.none [.g 7] (.g 14) ∧ s0.Ready Accept.none [.g 7, .g 8, .g 14] (.g 14) ∧
    s0.t.tsw.toNat / 2 ^ 5 % 32 &&& 1 = 0 ∧ (0x20 : BitVec 64).toNat / 2 ^ 5 % 32 &&& 1 ≠ 0 := by
  simp only [State.Ready]; decide +kernel
/-- R145: 1.0 + 2.0 and 1.0 < 2.0; R147: 2.0 as an integer; R60: a signalling NaN raises invalid; R58: an enabled flag raises FP trap. -/
theorem test_fpu : gives (.fpuAdd false (.g 14) (.g 7) (.g 8) .f32) 0x40400000 4 ∧ gives (.fpuCmplt false (.g 14) (.g 7) (.g 8) .f32) 1 4 ∧
    gives (.fcvt false (.g 14) (.g 8) .i32 .f32) 2 4 ∧ gives (.fpuAdd false (.g 14) (.g 7) (.g 11) .f32) 0x7FC00000 4 ∧
    gives (.fpuClass false (.g 14) (.g 11) .f32) 0x100 4 := by decide +kernel
/-- R54, R57: 1.0 divided by +0 is +infinity, and the flag stands in TSW. -/
theorem test_fpu_div_by_zero : after (exec (.fpuDiv false (.g 14) (.g 7) (.g 2) .f32) { s0 with t := { tk with g := tk.g.set 2 (plainVal 0 0) } })
    (fun t => State.last t 14 == some (0x7F800000, false, 4) && t.t.tsw.toNat % 32 != 0) := by decide +kernel

/-! ### Vectors: an anchored task with rows of 1.0, 2.0 and 0.0, integers, and tile 1 -/

def row (w : Nat) (f : Nat → Nat) : Row := rowOf w (2048 / w) f
def anc : Anchor := { Anchor.fresh 3 with
  o := #v[Entry.zero, { bits := row 32 (fun _ => 0x3F800000), fmt := .fp32, label := 1 }, { bits := row 32 (fun i => if i < 2 then 0x40000000 else 0), fmt := .fp32, label := 2 },
    { bits := row 32 (fun i => i), fmt := .int32, label := 0 }, { bits := row 32 (fun _ => 0xFFFFFFFE), fmt := .int32, label := 0 },
    { bits := row 16 (fun i => i), fmt := .bf16, label := 0 }, { bits := row 8 (fun i => i), fmt := .raw, label := 0 }, Entry.zero],
  m := #v[Mask.ones, { bits := 0x5, label := 8 }, Mask.ones, Mask.ones] }
def tile1 : Tile := { Tile.zero with rows := (Vector.replicate 64 (0 : Row)).set 2 (row 32 (fun i => if i < 2 then 0x40000000 else 0)), fmt := .fp32, label := 4 }
def sv : State := { s0 with t := { tk with anchor := some anc }, c := { s0.c with tiles := s0.c.tiles.set 1 tile1 } }
/-- The same behind a `hint.mod` that names M1: bits 0 and 2. -/
def svm : State := { sv with t := { sv.t with pfxMod := some { mig := .none, msk := some 1, neg := false } } }
/-- The same with the trap for the inexact and the other flags enabled. -/
def svt : State := { sv with t := { sv.t with tsw := 0x203E0 } }

/-- An entry waits in the buffer for `o7`. -/
def makes (s : State) (i : Instr) (fmt : FTag) (l : Label) (w : Nat) (p : Nat → Nat → Bool) : Bool := after (exec i s) (fun t => match t.t.buf.getLast? with
  | some (.o 7 e) => e.fmt == fmt && e.label == l && (List.range (2048 / w)).all (fun i => p i (lane e.bits w i))
  | _ => false)

theorem witness_VectorArithmeticResults :
    sv.ReadyV anc Accept.mskOnly true ∧ svm.ReadyV anc Accept.mskOnly true ∧ (svm.prefixMask anc).isSome = true ∧
    (∀ r ∈ [VReg.o 1, .o 2], r = .zv ∨ (anc.rd r).fmt = .fp32) ∧ (∃ r ∈ [VReg.o 1, .o 3], r ≠ .zv ∧ (anc.rd r).fmt ≠ .fp32) ∧
    (anc.rd (.o 7)).fmt = .none ∧ (anc.rd (.o 3)).fmt ≠ .none ∧ (anc.rd (.o 3)).fmt ≠ .fp32 ∧ (anc.rd (.o 3)).fmt = .int32 := by
  simp only [State.ReadyV]; decide +kernel
/-- R219 to R221: 1.0 + 2.0 in elements 0 and 1; under M1 elements 0 and 2; a wrong tag; a division by zero with its trap enabled. -/
theorem test_vfp : makes sv (.vfpAdd false (.o 7) (.o 1) (.o 2) .f32) .fp32 7 32 (fun i v => v == if i < 2 then 0x40400000 else 0x3F800000) ∧
    makes svm (.vfpAdd false (.o 7) (.o 1) (.o 2) .f32) .fp32 15 32 (fun i v => v == if i == 0 then 0x40400000 else if i == 2 then 0x3F800000 else 0) ∧
    raises sv (.vfpAdd false (.o 7) (.o 1) (.o 3) .f32) 0x03 0 ∧ raises svt (.vfpDiv false (.o 7) (.o 1) (.o 2) .f32) 0x10 8 ∧
    makes sv (.vfpNeg false (.o 7) (.o 2) .f32) .fp32 6 32 (fun i v => v == if i < 2 then 0xC0000000 else 0x80000000) ∧
    raises svm (.vfpAdd false (.o 3) (.o 1) (.o 2) .f32) 0x03 0 := by decide +kernel
/-- R223: i + (−2), the signed maximum, and −2 shifted right by i. -/
theorem test_vint : makes sv (.vintAdd false (.o 7) (.o 3) (.o 4) .i32) .int32 4 32 (fun i v => v == (i + 0xFFFFFFFE) % 2 ^ 32) ∧
    makes sv (.vintMax false (.o 7) (.o 3) (.o 4) .i32) .int32 4 32 (fun i v => v == i) ∧
    makes sv (.vintSra false (.o 7) (.o 4) (.o 3) .i32) .int32 4 32 (fun i v => v == if i % 32 == 0 then 0xFFFFFFFE else 0xFFFFFFFF) ∧
    makes sv (.vintSubs false (.o 7) (.o 3) .zv .i32) .int32 4 32 (fun i v => v == i) := by decide +kernel

theorem witness_VectorMoveResults :
    sv.ReadyV anc Accept.none true ∧ sv.ReadyV anc Accept.none false ∧ anc.tiles.getLsbD 1 = true ∧ anc.tiles.getLsbD 2 = false ∧
    sv.busyTiles.getLsbD 1 = false ∧ tile1.fmt ≠ .none ∧ tile1.poison.getLsbD 2 = false ∧ sv.tileTag 1 = (anc.rd (.o 1)).fmt ∧
    (anc.rd (.o 0)).fmt = .none ∧ (anc.rd (.o 1)).fmt ≠ .none ∧ (anc.rd (.o 6)).fmt.width = none ∧ (anc.rd (.o 1)).fmt.width = some 64 := by
  simp only [State.ReadyV]; decide +kernel
/-- R222: 0.0 < 1.0 from element 2 up, in a mask with label 7; R227: row 2 of tile 1, lane 1 broadcast, a tile that is not held. -/
theorem test_vector_move : after (exec (.vfpCmplt false (.o 2) (.o 1) 3 .f32) sv) (fun t => t.t.anchor.any (fun x => x.m[3] == { bits := 0xFFFFFFFFFFFFFFFC, label := 7 })) ∧
    makes sv (.vfpSel false (.o 7) (.o 1) (.o 2) 1 .f32) .fp32 15 32 (fun i v => v == if i == 0 ∨ i == 2 then 0x3F800000 else if i == 1 then 0x40000000 else 0) ∧
    makes sv (.vmovGet false (.o 7) 1 2) .fp32 4 32 (fun i v => v == if i < 2 then 0x40000000 else 0) ∧
    makes sv (.vmovCopy false (.o 7) (.o 2) (some 1)) .fp32 6 32 (fun _ v => v == 0x40000000) ∧
    raises sv (.vmovGet false (.o 7) 2 0) 0x01 0 ∧ raises sv (.vmovCopy false (.o 7) (.o 1) (some 64)) 0x01 0 ∧
    raises sv (.vmovPut false (.o 3) 1 0) 0x03 0 := by decide +kernel

theorem witness_VectorFunctionResults :
    sv.ReadyV anc Accept.mskOnly true ∧ sv.ReadyV anc Accept.none true ∧ (anc.rd (.o 5)).fmt = .bf16 ∧ (anc.rd (.o 6)).fmt = .raw ∧ sv.t.tsw.toNat / 2 ^ 5 % 32 = 0 ∧
    FTag.width .fp32 = some 64 ∧ FTag.width .bf16 = some 128 ∧ FTag.width .int32 = some 64 ∧ FTag.isBq .bq4 = true ∧ tile1.poison = 0 ∧ tile1.fmt = rfmtTag .f32 := by
  simp only [State.ReadyV]; decide +kernel
/-- R70, R224: 2 to the power 1.0, and the reciprocal of 1.0, under M1; R225: RAW keeps the bytes, an integer becomes a float. -/
theorem test_vector_function : makes svm (.vsfExp2 false (.o 7) (.o 1) .f32) .fp32 13 32 (fun i v => v == if i == 0 ∨ i == 2 then 0x40000000 else 0) ∧
    makes svm (.vsfRcp false (.o 7) (.o 1) .f32) .fp32 13 32 (fun i v => v == if i == 0 ∨ i == 2 then 0x3F800000 else 0) ∧
    makes sv (.vcvt false (.o 7) (.o 6) 0 .int8 .raw false) .int8 4 8 (fun i v => v == i) ∧
    makes sv (.vcvt false (.o 7) (.o 3) 0 .fp32 .int32 false) .fp32 4 32 (fun i v => i ≠ 3 || v == 0x40400000) ∧
    makes sv (.vcvt false (.o 7) (.o 1) 0 .bf16 .fp32 true) .bf16 5 16 (fun i v => v == if i < 64 then 0 else 0x3F80) := by decide +kernel
/-- R228: the sum of row 2 and the maximum of row 0. -/
theorem test_vred : makes sv (.vredSum false (.o 7) (.o 1) 1 2 .f32) .fp32 5 32 (fun i v => v == if i == 2 then 0x40800000 else 0x3F800000) ∧
    makes sv (.vredMax false (.o 7) (.o 1) 1 0 .f32) .fp32 5 32 (fun i v => v == if i == 0 then 0 else 0x3F800000) := by decide +kernel
/-- R229, R40: a tile of another tag. -/
theorem test_rowstat : raises sv (.vredRowstat false (.o 1) 1 .bf16) 0x03 0 ∧ raises sv (.vredRowstat false (.o 1) 5 .f32) 0x01 0 := by decide +kernel

/-! ### Issue, groups and traps -/

/-- The task changed in some fields. -/
def modT (s : State) (f : Task → Task) : State := { s with t := f s.t }
def modC (s : State) (f : Core → Core) : State := { s with c := f s.c }
def modD (s : State) (f : Device → Device) : State := { s with d := f s.d }
/-- A task at a level. -/
def atLevel (n : Nat) : State := modT s0 (fun t => { t with tlevel := BitVec.ofNat 64 n })
/-- The issue port with sixteen entries in the buffer. -/
def full : State := modT s0 (fun t => { t with buf := List.replicate 16 (.g 1 Val.zero) })
/-- A maintenance task at a controller: Q1 holds 9, Q2 nothing, Q3 goes out full. -/
def maint : State := modD (atLevel 11) (fun d => { d with qports := [{ die := 0, port := 5, inward := [9], outward := [] }, { die := 0, port := 6, inward := [], outward := List.replicate 16 1 }] })

theorem witness_ScalarOperands :
    scalarForm (.ialuAdd false (.q 1) (.g 1) (.g 2)) = some (Accept.none, [.g 1, .g 2], .q 1) ∧
    (modT s0 (fun t => { t with pfxImm := some 1 })).t.accepts Accept.none = false ∧ s0.t.accepts Accept.none = true ∧ s0.t.maint = false ∧
    (∃ p, SReg.q p ∈ [SReg.q 1, .g 1, .g 2]) ∧ (∃ n, SReg.g 3 = .g n) ∧ 16 ≤ full.t.buf.length + full.t.lost ∧
    maint.t.maint = true ∧ maint.t.accepts Accept.none = true ∧ maint.t.buf.length + maint.t.lost < 16 ∧ maint.t.qtake = [] ∧ maint.t.onHearth = false ∧ (maint.d.qpop (CoreId.die maint.c.id) 5).isSome = true ∧
    maint.d.qpop (CoreId.die maint.c.id) 6 = none ∧ maint.d.qfull (CoreId.die maint.c.id) 6 = true ∧ maint.d.qfull (CoreId.die maint.c.id) 5 = false ∧
    maint.lab (.g 1) ||| maint.t.clabel ≠ 0 ∧ (modT maint (fun t => { t with clabel := 0 })).lab (.g 3) ||| 0 = 0 := by
  and_intros
  case refine_2.refine_2.refine_2.refine_2.refine_1 => exact ⟨1, by decide⟩
  case refine_2.refine_2.refine_2.refine_2.refine_2.refine_1 => exact ⟨3, rfl⟩
  all_goals decide +kernel
/-- R298, R97, R20. -/
theorem test_operands : after (exec (.ialuOr false (.g 14) (.q 5) .zero) maint) (fun t => State.last t 14 == some (9, false, 4) && t.d.qpop 0 5 == none) ∧
    after (exec (.ialuOr false (.g 14) (.q 6) .zero) maint) (fun t => t.t.status == .parked (.qport 6 false)) ∧
    after (exec (.ialuOr false (.q 6) (.g 1) .zero) maint) (fun t => t.t.status == .parked (.qport 6 true)) ∧
    raises s0 (.ialuAdd false (.q 1) (.g 1) (.g 2)) 0x01 0 ∧ raises full (.ialuAdd false (.g 3) (.g 1) (.g 2)) 0x0D 0 := by decide +kernel

/-- A group that waits for its end, with two writes of g3. -/
def ended : State := modT s0 (fun t => { t with status := .parked .group, buf := [.g 3 (plainVal 8 0), .g 2 (plainVal 7 0), .g 3 (plainVal 9 1)], l := plainVal 1 1, midGroup := true })
theorem witness_GroupEndApplies : ended.t.status = .parked .group ∧ ended.t.onHearth = false ∧ ended.groupOver = true ∧ ended.t.bounced = [] ∧ ended.t.mark = none ∧
    ended.c.trace.chunkTask ≠ some ended.t.tid ∧ ended.t.parity = false ∧ ended.t.anchor = none ∧ (modT ended (fun t => { t with parity := true })).t.parity = true := by decide +kernel
/-- R18, R19, R51. -/
theorem test_group_end : after (exec (.groupEnd 0 0x77) ended) (fun t => t.t.g[3] == plainVal 9 1 && t.t.g[2] == plainVal 7 0 && t.t.g[1] == plainVal 5 1 &&
      t.t.l == Val.zero && t.t.buf == [] && t.t.status == .ready) ∧
    raises (modT ended (fun t => { t with parity := true })) (.groupEnd 0 0x77) 0x19 0 := by decide +kernel

/-- Registers of the task's job. -/
def jr : JobRegs := { job := 0, jscap := Val.zero, upentry := 0x100020000, udeleg := 2, pt1root := 0, asid := 0, pt2root := 0, vmid := 0 }
/-- Illegal instruction stays in the task, an absent translation starts an upcall. -/
def deleg : State := modC (modT s0 (fun t => { t with utvec := 0x100030000 })) (fun c => { c with jobs := [jr] })
/-- Illegal instruction goes to the supervisor, a format tag to the hypervisor, whose vectors stand. -/
def levels (v : Word) : State := modD s0 (fun d => { d with parts := d.parts.set 0 { Part.reset with sdeleg := 2, hdeleg := 8, stvec := v, htvec := v } })

theorem witness_CauseRouting :
    (deleg.t.level = 0 ∧ (deleg.c.jobRegs deleg.t.job).udeleg.getLsbD 1 = true ∧ deleg.t.utvec ≠ 0 ∧ deleg.t.tlevel.getLsbD 2 = false) ∧
    (deleg.c.jobRegs deleg.t.job).udeleg.getLsbD 9 = false ∧ (deleg.c.jobRegs deleg.t.job).upentry ≠ 0 ∧
    ((levels 0).t.level = 0 ∧ ((levels 0).d.partState (levels 0).part).sdeleg.getLsbD 1 = true) ∧ ((levels 0).d.partState (levels 0).part).hdeleg.getLsbD 3 = true ∧
    deleg.route 1 = .inTask ∧ deleg.route 9 = .upcall ∧ (levels 0).route 1 = .level 1 ∧ (levels 0).route 3 = .level 2 ∧ (levels 0).route 4 = .level 3 ∧
    (atLevel 1).route 9 = .level 3 := by decide +kernel
theorem witness_CausesAtUserLevel : deleg.t.onHearth = false ∧ deleg.route 1 = .inTask ∧ deleg.t.status ≠ .vacant ∧ deleg.route 9 = .upcall ∧ deleg.c.trace.creates = [] := by
  decide +kernel
theorem witness_CausesAtHigherLevel : (levels 0x100040000).t.onHearth = false ∧ (levels 0x100040000).t.level < 3 ∧ (levels 0x100040000).route 1 = .level 1 ∧
    (1 : BitVec 2) ≠ 3 ∧ (levels 0x100040000).vector 1 ≠ 0 ∧ State.quiet { levels 0x100040000 with t := { (levels 0x100040000).t.backTo 0x100010000 with status := .ready } } = true ∧ (levels 0x100040000).t.parity = false ∧ (levels 0x100040000).t.held.any (·.parity) = false ∧ (levels 0x100040000).c.trace.creates = [] ∧
    (levels 0x100040000).t.status = .ready ∧ (levels 0x100040000).t.status ≠ .vacant ∧ (levels 0x100040000).route 4 = .level 3 ∧ (levels 0).vector 1 = 0 := by
  decide +kernel
/-- R295: UCAUSE names cause 1 with INTASK, and the task goes on at UTVEC. -/
theorem test_in_task : after (exec .illegalInstruction deleg) (fun t => t.t.uepc == 0x100010000 && t.t.ucause == 0x401 && t.t.pc == 0x100030000 && t.t.tlevel == 4) := by decide +kernel
/-- R293: the handler runs in the slot, at supervisor level, with the cause word in g1 and the saved pc in g4. -/
theorem test_trap : after (exec .illegalInstruction (levels 0x100040000)) (fun t => t.t.pc == 0x100040000 && t.t.tlevel == 1 && t.t.g[1].bits == 1 && t.t.g[3].bits == 0x77 &&
    t.t.g[4].bits == 0x100010000 && t.d.saved.length == 1) := by decide +kernel

/-! ### System registers, trap instructions, invalidation, debug, maintenance ports -/

def ran (o : Out) : State := match o with
  | .next t => t
  | _ => State.reset

/-- A registered graph of job 0 in partition 0. -/
def gr : Graph :=
  { index := 1, gen := 2, part := 0, func := 0, job := 0, tenant := 0, priocap := 3, level := 0, logva := 0, logn := 0, bind := 0,
    kernels := [], images := [], stores := [], auth := [], live := true }
/-- A task at a level whose core has registers for job 0, in a partition with a graph of that job. -/
def withJob (n : Nat) : State := modD (modC (atLevel n) (fun c => { c with jobs := [jr] })) (fun d => { d with graphs := [gr] })

theorem witness_SysReads : s0.Ready Accept.none [] (.g 14) ∧ s0.t.level < (sysLevels .mtvec).1 ∧
    (sysLevels .jsel).1 ≤ (withJob 1).t.level ∧ (withJob 1).sysJob = some 0 ∧ (atLevel 1).sysJob = none ∧ sysScope .udeleg = .job ∧ s0.Runs := by
  simp only [State.Ready, State.Runs]; decide +kernel
/-- R284, R285: TSW, COREID and a job-scope register; MTVEC below its level. -/
theorem test_sys_read : gives (.sysRd false (.g 14) .tsw) 0x20000 4 ∧ gives (.sysRd false (.g 14) .coreId) 0 4 ∧ gives (.sysRd false (.g 14) .jobid) 0 4 ∧
    after (exec (.sysRd false (.g 14) .udeleg) (withJob 1)) (fun t => State.last t 14 == some (2, false, 4)) ∧
    raises s0 (.sysRd false (.g 14) .mtvec) 0x16 0 ∧ raises (atLevel 1) (.sysRd false (.g 14) .asid) 0x06 0 := by decide +kernel

/-- The same without labels, so that registers outside task scope may be written. -/
def plain (n : Nat) (v : Nat) : State := modT (withJob n) (fun t => { t with clabel := 0, g := t.g.set 9 (plainVal v 0) })
theorem witness_SysWriteResults :
    sysPlain .udeleg = true ∧ (sysLevels .udeleg).2 = some 1 ∧ (plain 1 8).Ready Accept.none [.g 9] (.g 14) ∧ (plain 1 8).Ready Accept.none [.g 9] .zero ∧
    (plain 1 8).sysJob = some 0 ∧ (plain 0 8).t.level < 1 ∧ (plain 1 8).sysValid .udeleg 8 = true ∧ (plain 1 2).sysValid .udeleg 2 = false ∧
    ((plain 1 8).rd (.g 1)).tag = false ∧ (plain 1 8).lab (.g 9) ||| (plain 1 8).t.clabel = 0 ∧ (plain 1 8).lab (.g 1) ||| (plain 1 8).t.clabel ≠ 0 ∧
    (plain 3 0x1040).t.level = 3 ∧ (plain 3 0x1040).sysValid .tsw 0x1040 = true ∧ (plain 3 8).sysValid .tlevel 8 = true ∧
    0 ≤ 0x100000 ∧ (plain 3 0).c.dqBot = (plain 3 0).c.dqTop ∧ (modC (plain 3 0) (fun c => { c with dqTop := 1 })).c.dqBot ≠ 1 ∧
    ((plain 3 0).d.barrier 0 5).members = 0 ∧ (plain 3 0x99).slotOf 0x99 = none ∧ (plain 3 0x99).d.saved = [] := by
  simp only [State.Ready]; decide +kernel
/-- A core with a task that awaits notice in slot 2. -/
def noticed : State := modC (plain 3 0x99) (fun c => { c with slots := c.slots.set 2 (some { tk with tid := 0x99, status := .parked .notice }) })
theorem witness_notice : noticed.slotOf 0x99 = some 2 ∧ noticed.c.port.toNat < 24 ∧ noticed.c.port.toNat ≠ 2 ∧
    noticed.c.slots[2]?.any (fun f => f.any (fun f => f.status == .parked .notice && !f.onHearth)) = true ∧ noticed.t.status = .ready ∧ noticed.t.onHearth = false := by decide +kernel
/-- R284 to R286: UDELEG set to 8 with the old value delivered, a forbidden bit, a labelled value; R11: the priority stays under the ceiling. -/
theorem test_sys_write : after (exec (.sysXchg false (.g 14) (.g 9) .udeleg) (plain 1 8)) (fun t => (t.c.jobRegs 0).udeleg == 8 && State.last t 14 == some (2, false, 0)) ∧
    after (exec (.sysSet false (.g 14) (.g 9) .udeleg) (modC (plain 1 8) (fun c => { c with jobs := [{ jr with udeleg := 32 }] }))) (fun t => (t.c.jobRegs 0).udeleg == 40) ∧
    raises (plain 1 2) (.sysWr false (.g 9) .udeleg) 0x02 1 ∧ raises (plain 1 8) (.sysWr false (.g 1) .stvec) 0x0B 0x10000 ∧
    raises (plain 0 8) (.sysWr false (.g 9) .udeleg) 0x16 0 ∧ raises (plain 1 8) (.sysWr false (.g 9) .jscap) 0x04 0 ∧
    after (exec (.sysWr false (.g 9) .tsw) (plain 0 0x7000)) (fun t => t.t.tsw == 0x20000) ∧
    after (exec (.sysWr false (.g 9) .utvec) (plain 0 0x100010203)) (fun t => t.t.utvec == 0x100010200) := by decide +kernel
theorem test_sys_special : after (exec (.sysWr false (.g 9) .dqLimit) (plain 3 0x1000)) (fun t => t.c.dqLimit == 0x1000 && t.c.dqBot == 0) ∧
    after (exec (.sysWr false (.g 9) .barown) (plain 3 0x70005)) (fun t => (t.d.barrier 0 5).owner == 7) ∧
    after (exec (.sysWr false (.g 9) .notice) noticed) (fun t => t.c.slots[2].any (fun f => f.status == .ready)) ∧
    after (exec (.sysWr false (.g 9) .tlevel) (plain 3 8)) (fun t => t.t.tlevel == 11) := by decide +kernel

/-- A handler at supervisor level that a trap has started. -/
def handler : State := ran (exec .illegalInstruction (levels 0x100040000))
/-- A task inside its own trap handler, with a held group. -/
def inside : State := modT s0 (fun t => { t with tlevel := 4, uepc := 0x100010040, held := some { buf := [.g 5 Val.zero], lost := 0, parity := false, l := plainVal 3 0, lv := Entry.zero, mark := none }, buf := [.g 2 (plainVal 8 0)] })
theorem witness_TrapForms : s0.Ready Accept.none [.g 1] .zero ∧ s0.t.status = .ready ∧ s0.Ready Accept.none [] .zero ∧ s0.t.level = 0 ∧ (atLevel 1).t.trapped = none ∧
    0 < handler.t.level ∧ handler.t.trapped.isSome = true ∧ handler.enginesDone = true ∧ handler.Runs ∧
    handler.d.saved.any (fun y => some y.area == handler.t.trapped && (readContext handler.d.gmem.mem y).any (fun w => w.task.replay == [])) = true ∧
    s0.t.ut = false ∧ inside.t.ut = true ∧ inside.t.ops = [] ∧ inside.t.rowTiles = 0 ∧ inside.t.parity = false ∧ inside.t.held.isSome = true ∧
    inside.c.trace.chunkTask ≠ some inside.t.tid := by
  simp only [State.Ready, State.Runs]; decide +kernel
theorem witness_TrapForms_still : handler.Still := by simp only [State.Still]; decide +kernel
/-- R293: cause 0x17 with the value 5, after the unit; R294: the trapped task returns; R295: the handler's write is applied and the held group returns. -/
theorem test_traps : raises s0 (.trapCall false (.g 1)) 0x17 0 ∧ after (exec (.trapCall true (.g 1)) s0) (fun t => t.t.deferred == [(0x17, 0, 5)] && t.t.clabel == 5) ∧
    after (exec (.trapRet false) handler) (fun t => t.t.tid == 0x77 && t.t.pc == 0x100010000 && t.t.g[5] == regs[5] && t.t.tlevel == 0 && t.d.saved == []) ∧
    raises (atLevel 1) (.trapRet false) 0x01 0 ∧ raises s0 (.trapRet false) 0x16 0 ∧
    after (exec .trapUret inside) (fun t => t.t.pc == 0x100010040 && t.t.tlevel == 0 && t.t.g[2] == plainVal 8 0 && t.t.buf == [.g 5 Val.zero] && t.t.l == plainVal 3 0) ∧
    raises s0 .trapUret 0x01 0 := by decide +kernel

def entry (asid va : Nat) : TlbEntry :=
  { asid := BitVec.ofNat 16 asid, vmid := 0, va, size := 4096, ia := va, pa := va, usr := true, rd := true, wr := true, ex := true,
    label := 0, tier := 0, comp := false, leaf1 := 0, leaf2 := 0, lvl1 := 0, lvl2 := 0, rd1 := true, wr1 := true, ex1 := true }
/-- Two translations of one page in address spaces 3 and 5. -/
def cached (n v : Nat) : State := modC (plain n v) (fun c => { c with tlb := [entry 3 0x1000, entry 5 0x1000] })
theorem witness_TlbAndDebugForms : (cached 1 0x1000).Ready Accept.none [.g 9, .g 2] .zero ∧ (cached 1 0x1000).sysJob = some 0 ∧ (cached 0 0).t.level = 0 ∧
    (cached 1 0x1000).x (.g 9) = 0x1000 ∧ ((cached 1 0x1000).x (.g 2)).toNat < 2 ^ 16 ∧ 2 ^ 57 ≤ ((cached 1 0).x (.g 3)).toNat ∧
    ((cached 1 7).x (.g 9)).setWidth 16 ≠ ((cached 1 7).c.jobRegs 0).vmid.setWidth 16 ∧
    s0.attachedTo = none ∧ s0.c.bank.holder = .free ∧ s0.c.bank.revoked = none ∧
    (modD s0 (fun d => { d with parts := d.parts.set 0 { Part.reset with attached := [(0x77, 4, 0)] } })).attachedTo = some 4 ∧
    (modC s0 (fun c => { c with bank := { c.bank with holder := .guest 0, bctl := 1 } })).c.bank.bctl.getLsbD 0 = true := by
  simp only [State.Ready]; decide +kernel
theorem witness_TlbAndDebugForms_still : (cached 1 0x1000).Still := by simp only [State.Still]; decide +kernel
/-- R299: one page of address space 3; R300; R416: counter 16 of a bank that nobody holds reads at supervisor level; counter 19 does not exist. -/
theorem test_tlb_debug : after (exec (.tlbInv1 false (.g 9) (.g 2)) (cached 1 0x1000)) (fun t => t.c.tlb == [entry 5 0x1000]) ∧
    after (exec (.tlbInvall false (.g 9)) (cached 1 0)) (fun t => t.c.tlb == []) ∧ raises (cached 1 7) (.tlbInvall false (.g 9)) 0x06 0 ∧
    raises (cached 0 0) .tlbSync 0x16 0 ∧ raises s0 (.dbgBrk false) 0x14 0 ∧ raises s0 (.dbgRdctr false (.g 14) (.g 10)) 0x16 0 ∧
    after (exec (.dbgRdctr false (.g 14) (.g 10)) (modC (plain 1 0) (fun c => { c with bank := { c.bank with counts := c.bank.counts.set 16 77 } })))
      (fun t => State.last t 14 == some (77, false, 0)) ∧ raises (plain 1 19) (.dbgRdctr false (.g 14) (.g 9)) 0x02 1 := by decide +kernel

/-- The task at the port awaits notice; and it is saved while it does. -/
def awaits : State := modT s0 (fun t => { t with status := .parked .notice, resv := 1 })
def savedAway : State := { modD s0 (fun d => { d with saved := [{ handler.d.saved.head?.getD (s0.c.saved tk 0 none none false) with awaiting := true }] }) with t := Task.vacant }
theorem witness_RegisterAndPortEvents_notice : awaits.d.fabric.held = [] ∧ awaits.slotOf 0x77 = some awaits.c.port.toNat ∧ awaits.t.onHearth = false ∧ awaits.t.status = .parked .notice ∧ s0.slotOf 0x77 = some s0.c.port.toNat ∧
    s0.t.status ≠ .parked .notice ∧ s0.slotOf 0x99 = none ∧ s0.d.saved = [] ∧ savedAway.d.fabric.held = [] ∧ savedAway.slotOf 0x77 = none ∧
    (savedAway.d.saved.find? (fun x => x.task.tid == 0x77 && x.core == savedAway.c.id)).any (fun x => x.awaiting) = true := by decide +kernel
/-- R296. -/
theorem test_notice_event : after (exec (.notice 0 0x77) awaits) (fun t => t.t.status == .ready && t.t.resv == 0 && t.c.noticeReg == 0x77) ∧ after (exec (.notice 0 0x99) awaits) (fun t => t.t == awaits.t && t.c.noticeReg == 0x99) ∧
    after (exec (.notice 0 0x1000000000077) awaits) (fun t => t.t == awaits.t && t.c.noticeReg == 0) ∧ after (exec (.notice 0 0x77) savedAway) (fun t => t.t == Task.vacant && t.d.saved.map (·.task.noticed) == [true]) := by decide +kernel

theorem witness_RegisterAndPortEvents : s0.c.dqBot = s0.c.dqTop ∧ (s0.d.barrier (CoreId.cluster s0.c.id) 5).members = 0 ∧ maint.t.status = .ready ∧ maint.t.maint = true ∧
    (maint.d.qpop (CoreId.die maint.c.id) 5).isSome = true ∧ maint.d.qpop (CoreId.die maint.c.id) 6 = none ∧ maint.d.qfull (CoreId.die maint.c.id) 6 = true ∧
    maint.d.qfull (CoreId.die maint.c.id) 5 = false ∧ (modT maint (fun t => { t with clabel := 0 })).t.clabel = 0 ∧ maint.d.cores = [] ∧ CoreId.die maint.c.id ≠ 1 ∧
    (maint.d.qport 1 6).inward.length < 16 := by decide +kernel
theorem test_port_events : after (exec (.dqBaseLimitWrite 0 true 0x1000) s0) (fun t => t.c.dqLimit == 0x1000) ∧ after (exec (.barown 0 0x70005) s0) (fun t => (t.d.barrier 0 5).owner == 7) ∧
    after (exec (.qPortRead 0 5) maint) (fun t => t.t.qin[5] == 9) ∧
    after (exec (.maintenancePortArrival 1 6 (some 4) 0) maint) (fun t => (t.d.qport 1 6).inward == [4]) := by decide +kernel

/-! ### Loads, stores, atomics and fences -/

/-- A scratchpad with the bytes 0x34 0x12 at 0x1000, a tagged granule at 0x1020, poison in the line at 0x1040, and a fire cell at 0x1080 that counts 3;
its pages 1 and 2 have the labels 7 and 2. -/
def bank : Bank := { mem := [(0x1000, 0x34), (0x1001, 0x12), (0x1020, 1), (0x1080, 3), (0x1091, 2), (0x1094, 1)], tags := [0x102], labels := [(1, 7), (2, 2)], poison := [0x41] }
/-- g4 is a capability of space 0 over these pages with a cursor. -/
def at_ (s : State) (a : Nat) (perm : Nat := 0x3FF) : State :=
  modT s (fun t => { t with g := t.g.set 4 (withCursor (cap 0x1000 0x2000 perm 0) a 0) })
def sm : State := at_ (modC s0 (fun c => { c with spad := bank })) 0x1000
def smv : State := at_ (modC sv (fun c => { c with spad := bank })) 0x1000
/-- Two, the compared value and a float in g9, under labels that the page holds. -/
def smx (v : Nat) : State := modT sm (fun t => { t with g := t.g.set 9 (plainVal v 0) })

/-- The outcome of an access check, and the hypotheses of an open access, as one Boolean. -/
def okIs (e : Except Nat Win) (w : Win) : Bool := match e with | .ok v => v == w | .error _ => false
theorem ok_of {e : Except Nat Win} {w : Win} (h : okIs e w = true) : e = .ok w := by cases e <;> simp_all [okIs]
def opens (s : State) (v : Val) (perm : Nat) (addr : Int) (n align : Nat) (loads stores : Bool) : Bool :=
  okIs (checkAccess v memSpaces perm addr n align none) .spad && (s.forbidden .spad addr.toNat n == false) && (s.dataBreak loads stores addr.toNat n).isNone &&
  s.t.ops.isEmpty && s.c.scb.isEmpty
theorem spad_open {s : State} {v : Val} {perm : Nat} {addr : Int} {n align : Nat} {loads stores : Bool} (h : opens s v perm addr n align loads stores = true) :
    s.SpadOpen v perm addr n align loads stores := by
  simp only [opens, Bool.and_eq_true, beq_iff_eq, Option.isNone_iff_eq_none, List.isEmpty_iff] at h
  exact ⟨ok_of h.1.1.1.1, h.1.1.1.2, h.1.1.2, h.1.2, by simp [h.2]⟩

/-- A value with a tag and a label waits for g14. -/
def gives' (s : State) (i : Instr) (v : Nat) (tag : Bool) (l : Label) : Bool := after (exec i s) (fun t => State.last t 14 == some (v, tag, l))

theorem witness_LoadAndStoreResults :
    sm.Ready Accept.mem [.g 4] (.g 14) ∧ sm.Ready Accept.mem [.g 4, .g 1] .zero ∧ smv.ReadyV anc Accept.mem true ∧ smv.ReadyV anc Accept.mem false ∧
    bank.poisoned 0x1000 2 = false ∧ bank.poisoned 0x1040 8 = true ∧ bank.poisoned 0x1100 256 = false ∧ bank.accepts 0x1008 8 5 = true ∧ bank.accepts 0x2000 8 5 = false ∧
    bank.mem.wf = true ∧ ((checkAccess (sm.rd (.g 4)) memSpaces pLD 0x3000 2 2 none).toBool = false) ∧
    (modC sm (fun c => { c with dqBase := 0x1000, dqLimit := 0x1100 })).forbidden .spad 0x1000 2 = true ∧
    (anc.rd (.o 1)).fmt = mfmtTag .f32 ∧ (anc.rd (.o 1)).fmt ≠ mfmtTag .bf16 := by
  simp only [State.Ready, State.ReadyV]; decide +kernel
theorem witness_LoadAndStoreResults_open :
    sm.SpadOpen (sm.rd (.g 4)) pLD 0x1000 2 2 true false ∧ sm.SpadOpen (sm.rd (.g 4)) pLD 0x1040 8 8 true false ∧ smv.SpadOpen (smv.rd (.g 4)) pLD 0x1100 256 64 true false ∧
    sm.SpadOpen (sm.rd (.g 4)) pST 0x1008 8 8 false true ∧ sm.SpadOpen (sm.rd (.g 4)) pST 0x2000 8 8 false true ∧ smv.SpadOpen (smv.rd (.g 4)) pST 0x1100 256 64 false true ∧
    checkAccess (sm.rd (.g 4)) memSpaces pLD 0x1000 2 2 none = .ok .spad :=
  by refine ⟨?_, ?_, ?_, ?_, ?_, ?_, ok_of (by decide +kernel)⟩ <;> (apply spad_open; decide +kernel)
/-- R153, R152, R44: a halfword; a capability with its tag; misaligned, poisoned, out of bounds, without permission. -/
theorem test_loads : gives' sm (.ld false (.g 14) (.g 4) .die .plain .h 0) 0x1234 false 7 ∧ gives' (at_ sm 0x1020) (.ld false (.g 14) (.g 4) .die .plain .cap 0) 1 true 7 ∧
    gives' sm (.ld false (.g 14) (.g 4) .die .plain .d 1) 0 false 7 ∧ raises (at_ sm 0x1001) (.ld false (.g 14) (.g 4) .die .plain .h 0) 0x08 0 ∧
    raises (at_ sm 0x1040) (.ld false (.g 14) (.g 4) .die .plain .b 0) 0x18 3 ∧ raises (at_ sm 0x3000) (.ld false (.g 14) (.g 4) .die .plain .b 0) 0x05 0 ∧
    raises (at_ sm 0x1000 2) (.ld false (.g 14) (.g 4) .die .plain .b 0) 0x06 0 ∧ raises (modC sm (fun c => { c with dqBase := 0x1000, dqLimit := 0x1100 })) (.ld false (.g 14) (.g 4) .die .plain .b 0) 0x06 0 := by
  decide +kernel
/-- R154, R46, R50: two bytes of 5, a cleared tag, a kept tag of a stored capability, a page that may not hold the label. -/
theorem test_stores : after (exec (.st false (.g 1) (.g 4) .die .plain .h 0) sm) (fun t => t.c.spad.mem.take 2 == [(0x1000, 5), (0x1020, 1)]) ∧
    after (exec (.st false (.g 1) (.g 4) .die .plain .b 0) (at_ sm 0x1020)) (fun t => t.c.spad.tags == []) ∧
    after (exec (.st false (.g 5) (.g 4) .die .plain .cap 0) (at_ sm 0x1030)) (fun t => t.c.spad.tags == [0x102, 0x103]) ∧
    raises (at_ sm 0x2000) (.st false (.g 1) (.g 4) .die .plain .d 0) 0x0B 0x50002 ∧
    after (exec (.vst false (.o 6) (.g 4) .die .plain .raw 1) smv) (fun t => t.c.spad.mem.read 0x1105 2 == 0x605) ∧ raises smv (.vst false (.o 1) (.g 4) .die .plain .bf16 1) 0x03 0 ∧
    after (exec (.vld false (.o 7) (.g 4) .die .plain .f32 4) smv) (fun t => t.t.buf == [.o 7 { bits := 0, fmt := .fp32, label := 7 }]) := by decide +kernel

theorem witness_AtomicForms :
    sm.Ready Accept.migOnly [.g 4, .g 1] (.g 14) ∧ sm.Ready Accept.migOnly [.g 4, .g 1, .g 14] (.g 14) ∧ bank.accepts 0x1080 8 5 = true ∧ bank.poisoned 0x1080 8 = false ∧ bank.poisoned 0x1040 8 = true ∧
    bank.accepts 0x2000 8 5 = false ∧
    ¬(bank.mem.read 0x1080 32 / 2 ^ 64 % 4 ≠ 0 ∨ bank.mem.read 0x1080 32 / 2 ^ 88 % 2 ^ 40 ≠ 0) ∧ bank.mem.read 0x1080 32 / 2 ^ 76 % 2 ^ 12 = sm.d.fabric.device.toNat ∧
    bank.mem.read 0x1080 8 = 3 ∧ sm.t.tsw.toNat / 2 ^ 5 % 32 = 0 := by
  simp only [State.Ready]; decide +kernel
theorem witness_AtomicForms_open : (at_ sm 0x1080).SpadOpen ((at_ sm 0x1080).rd (.g 4)) pATOM 0x1080 8 8 true true ∧
    (at_ sm 0x1080).SpadOpen ((at_ sm 0x1080).rd (.g 4)) pATOM 0x1080 8 32 true true ∧ (at_ sm 0x2000).SpadOpen ((at_ sm 0x2000).rd (.g 4)) pATOM 0x2000 8 8 true true :=
  by refine ⟨?_, ?_, ?_⟩ <;> (apply spad_open; decide +kernel)
/-- R156, R157: 3 + 5; a minimum; a `cas` that fails and one that agrees; a counter that reaches zero sends one fire; a misplaced cell. -/
theorem test_atomics : after (exec (.atomAdd false (.g 14) (.g 4) (.g 1) .die .plain .d) (at_ sm 0x1080)) (fun t => State.last t 14 == some (3, false, 7) && t.c.spad.mem.read 0x1080 8 == 8) ∧
    after (exec (.atomMin false (.g 14) (.g 4) (.g 3) .die .plain .w) (at_ sm 0x1080)) (fun t => t.c.spad.mem.read 0x1080 4 == 0xFFFFFFF8) ∧
    after (exec (.atomCas false (.g 14) (.g 4) (.g 1) .die .plain .d) (at_ sm 0x1080)) (fun t => State.last t 14 == some (3, false, 7) && t.c.spad == bank) ∧
    after (exec (.atomCas false (.g 9) (.g 4) (.g 1) .die .plain .d) (at_ (smx 3) 0x1080)) (fun t => t.c.spad.mem.read 0x1080 8 == 5) ∧
    after (exec (.atomDecf false (.g 14) (.g 4) (.g 9) .die .plain .d) (at_ (smx 3) 0x1080)) (fun t => t.c.spad.mem.read 0x1080 8 == 0 && t.d.net.length == 1 &&
      t.d.net.all (fun m => match m.kind with | .fire _ r c => r.entry == 0x100000200 && c == 0x1080 | _ => false)) ∧
    after (exec (.atomDecf false (.g 14) (.g 4) (.g 9) .die .plain .d) (at_ (smx 2) 0x1080)) (fun t => t.c.spad.mem.read 0x1080 8 == 1 && t.d.net == []) ∧
    raises (at_ (smx 3) 0x1088) (.atomDecf false (.g 14) (.g 4) (.g 9) .die .plain .d) 0x08 0 ∧ raises (at_ sm 0x2000) (.atomOr false (.g 14) (.g 4) (.g 1) .die .plain .d) 0x0B 0x50002 := by decide +kernel
/-- R159, R160: 1.0 added to 0, whatever the rounding mode; an enabled inexact flag raises FP trap after memory has been written. -/
theorem test_float_atomic : after (exec (.fatomAdd false (.g 14) (.g 4) (.g 7) .die .plain .f32) (at_ sm 0x1100)) (fun t => t.c.spad.mem.read 0x1100 4 == 0x3F800000) ∧
    after (exec (.fatomAdd false (.g 14) (.g 4) (.g 7) .die .plain .f32) (at_ (modT sm (fun t => { t with tsw := 0x203E0 })) 0x1000)) (fun t => t.c.spad.mem.read 0x1000 4 == 0x3F800000 &&
      t.d.dumps.all (fun d => d.causew.toNat % 256 == 0x10)) := by decide +kernel

/-- A task with a load outstanding at another core's slice. -/
def acc : Access := { kind := .ld .d, home := .slice 5, addr := 0x1000, va := 0x40001000, n := 8, lo := 0x1000, len := 8, data := 0, cmp := 0, vl := 0, al := 0, tag := false,
                      keep := false, prio := 0, launch := 0, page := 0, comp := false, scope := .die, order := .plain }
def op (a : Access) (stage : OpStage) : PendOp := { id := 7, pc := 0x100010000, next := 0x100010004, dest := some (.g 14), result := true, kind := .access a, stage, clabel := 4,
                                                    peer := false, host := false, seq := 0, cycle := 0 }
def waiting (o : PendOp) : State := modT s0 (fun t => { t with ops := [o], buf := [.wait o.id (.g 14)] })

theorem witness_FencesAndDrains : s0.Ready Accept.none [] .zero ∧ (∃ o ∈ (waiting (op acc .sent)).t.ops, o.awaited .die = true) ∧ ¬(∃ o ∈ s0.t.ops, o.awaited .die = true) ∧
    ¬(∃ o ∈ s0.drainTask.t.ops, o.awaited .die = true) := by
  simp only [State.Ready]; decide +kernel
theorem test_fences : after (exec (.fenceAcq false .die) (waiting (op acc .sent))) (fun t => t.t.status == .parked .order) ∧
    after (exec (.fenceSc false .die) (waiting (op acc .sent))) (fun t => t.t.status == .parked (.release .die)) ∧
    after (exec (.fenceAcq false .die) (modC s0 (fun c => { c with cache := [{ home := .channel, line := 1, data := 0, label := 0 }] }))) (fun t => t.c.cache == [] && t.t.pc == 0x100010004) ∧
    after (exec (.fenceAcq false .clus) (modC s0 (fun c => { c with cache := [{ home := .channel, line := 1, data := 0, label := 0 }] }))) (fun t => t.c.cache != []) := by decide +kernel

/-! ### Accesses away from the core -/

/-- The translation of 4 GiB and up to HBM, with g5 at 0x100010100. -/
def sg : State := s0.withFetchWord 32 0
/-- The entry that the walk finds, and a buffer that holds eight bytes of that task. -/
def sgEntry : Option TlbEntry := match sg.translate .store 0x100010100 with | (.ok e, _) => some e | _ => none
def scbE : ScbEntry := { line := 0x404, home := .channel, vaLine := 0x4000404, comp := false, mask := 0xFF, data := 0x77, tid := 0x77, job := 0, made := 0, scope := .die, rel := false,
                         first := 0, last := 0, label := 0 }
def sgb : State := modC sg (fun c => { c with scb := [scbE] })
theorem witness_FencesAndDrains_buffer : sg.Ready Accept.mem [.g 5, .g 10] .zero ∧ sg.Ready Accept.mem [.g 5] (.g 14) ∧
    okIs (checkAccess (sg.rd (.g 5)) memSpaces pST 0x100010100 8 8 none) .glob = true ∧ sg.forbidden .glob 0x100010100 8 = false ∧ sg.dataBreak false true 0x100010100 8 = none ∧
    sg.t.ops = [] ∧ sg.gplaceOf sg.t.job sg.t.level 0x100010100 = .here ∧ sgEntry.any (fun e => e.tier != 2 && e.at 0x100010100 == 0x10100) = true ∧
    ((4 : Label).sub 0 = false) ∧ (modT sg (fun t => { t with clabel := 0 })).t.clabel = 0 ∧ sg.c.scb.length < 32 ∧
    Scope.clus.code < 4 ∧ 4 ≤ Scope.die.code ∧ scbE.mask.toNat / 2 ^ 0 % 2 ^ 8 = 2 ^ 8 - 1 ∧ sgb.c.scb[0]? = some scbE ∧ sgb.d.fencedChannels = [] ∧ sysPieceOf sgb.d (64 * 0x404) = none := by
  simp only [State.Ready]; decide +kernel
/-- R76, R77: a store waits in the buffer, a label that the page does not hold, a load of buffered bytes, one at scope die that goes to the home, a drain. -/
theorem test_buffer : after (exec (.st false (.g 10) (.g 5) .die .plain .d 0) (modT sg (fun t => { t with clabel := 0 }))) (fun t => t.d.gmem == sg.d.gmem &&
      t.c.scb.map (fun x => (x.line, x.mask.toNat, x.data.toNat)) == [(0x404, 0xFF, 16)]) ∧
    raises sg (.st false (.g 10) (.g 5) .die .plain .d 0) 0x0B 0x40000 ∧ after (exec (.ld false (.g 14) (.g 5) .clus .plain .d 0) sgb) (fun t => State.last t 14 == some (0x77, false, 4)) ∧
    after (exec (.ld false (.g 14) (.g 5) .die .plain .d 0) sgb) (fun t => t.t.ops.length == 1 && t.c.scb == sgb.c.scb) ∧
    after (exec (.combiningBufferDrain 0 0) sgb) (fun t => t.c.scb == [] && t.d.gmem.mem.read 0x10100 8 == 0x77) := by decide +kernel

/-- Core 0 with an access to its slice at the head of the network. -/
def deliver (k : MsgKind) : State := modD s0 (fun d => { d with net := [{ src := 5, dst := 0, kind := k }] })
def homed (k : AccKind) : Access := { acc with kind := k, home := .slice 0, data := 9, vl := 2 }
theorem witness_RemoteAccesses : (deliver (.access 0x99 3 (homed (.ld .d)))).d.stopped (deliver (.access 0x99 3 (homed (.ld .d)))).part = false ∧ s0.c.fenced = false ∧ s0.c.hearth = none ∧ s0.c.trace.rctl = 0 ∧
    s0.d.fencedSlices.contains s0.c.id = false ∧ (modD s0 (fun d => { d with fencedSlices := [0] })).d.fencedSlices.contains s0.c.id = true ∧ (homed (.ld .d)).kind.isLoad = true ∧
    (homed (.st .d)).kind.isStore = true ∧ s0.d.shared.accepts 0x1000 8 2 = false ∧ (modD s0 (fun d => { d with shared := { Bank.empty with labels := [(1, 2)] } })).d.shared.accepts 0x1000 8 2 = true ∧
    (waiting (op acc .sent)).focusOp 0 7 = some (op acc .sent, waiting (op acc .sent)) ∧ s0.t.arrival = none ∧ s0.d.gpoisoned false 0x1000 8 = false ∧
    (waiting (op { acc with home := .channel } .sent)).buffered { acc with home := .channel } = none := by decide +kernel
/-- R22, R50: a load and a refused store at the home; R155, R353: a result, and the failure of a store. -/
theorem test_remote : after (exec (.hearthRemoteAccess 0 (s0.end_ 5)) (modD (deliver (.access 0x99 3 (homed (.st .d)))) (fun d => { d with shared := { Bank.empty with labels := [(1, 2)] } })))
      (fun t => t.d.shared.mem.read 0x1000 8 == 9 && t.d.net == []) ∧
    after (exec (.hearthRemoteAccess 0 (s0.end_ 5)) (deliver (.access 0x99 3 (homed (.st .d))))) (fun t => t.d.shared.mem == []) ∧
    after (exec (.remoteReply 0 7 none) (waiting (op acc (.executed { data := 0x55, tag := false, label := 2, flags := 0 })))) (fun t => State.last t 14 == some (0x55, false, 6) && t.t.ops == []) ∧
    raised (exec (.remoteReply 0 7 none) (waiting (op acc (.failed 0x18 4)))) 0x18 4 ∧
    after (exec (.deferredErrorReply 0 7 0) (waiting { op { acc with kind := .st .d } (.failed 0x0B 0x20000) with result := false, dest := none }))
      (fun t => t.t.deferred == [(0x0B, 0x20000, 0x40001000)] && t.t.ops == []) := by decide +kernel

def hostAcc (k : AccKind) : Access := { acc with kind := k, home := .host, addr := 0x10000001000, data := 4 }
def hostAt (k : AccKind) (cmp : Option (BitVec 64)) (tries : Nat) : HostAtomic := { core := 0, tid := 0x77, op := 7, acc := hostAcc k, compared := cmp, tries }
def hosted (h : Option HostAtomic) (q : List HostAtomic) : State := modD (waiting (op (hostAcc (.atom 2 .d)) .sent)) (fun d => { d with hostAtomic := h, hostQueue := q })
theorem witness_HostAtomicsAndActiveMessages : (hosted none [hostAt (.atom 2 .d) none 0]).d.fabric.pending = [] ∧ (hosted none []).d.fencedChannels = [] ∧
    (hostAcc (.atom 2 .d)).kind.oneRequest = true ∧ (hostAcc (.fatom 0 .f64)).kind.oneRequest = false ∧ ((hostAcc (.atom 4 .d)).effect 4).1.getD 4 = 4 ∧
    ((hostAcc (.atom 4 .d)).effect 3).1.getD 3 ≠ 3 := by decide +kernel
/-- R83: an add of 4 is one request; an `or` loops until the compared value returns. -/
theorem test_host_atomics : after (exec .hostPortAtomic (hosted none [hostAt (.atom 2 .d) none 0])) (fun t => t.d.hostAtomic == some (hostAt (.atom 2 .d) none 0) && t.d.hostQueue == []) ∧
    after (exec (.atomicopCompletion 3 true) (hosted (some (hostAt (.atom 2 .d) none 0)) [])) (fun t => t.d.gmem.mem.read 0x10000001000 8 == 7 && t.d.hostAtomic == none) ∧
    after (exec (.atomicopCompletion 3 true) (hosted (some (hostAt (.atom 4 .d) none 0)) [])) (fun t => t.d.hostAtomic == some (hostAt (.atom 4 .d) (some 3) 1)) ∧
    after (exec (.atomicopCompletion 3 true) (hosted (some (hostAt (.atom 4 .d) (some 3) 1)) [])) (fun t => t.d.hostAtomic == none && t.d.gmem.mem.read 0x10000001000 8 == 7) ∧
    after (exec .cxlCompletionTimeout (hosted (some (hostAt (.atom 2 .d) none 0)) [])) (fun t => t.t.ops.all (fun o => o.stage == .failed 0x11 0) && t.d.gmem.mem == []) := by decide +kernel

def active : MsgKind := .active 0x99 3 0x100050000 #v[1, 2, 3, 4] 2 0
def hearthRun (n : Nat) : State := modC s0 (fun c => { c with hearth := some { task := { tk with onHearth := true }, src := 5, op := 3, count := n } })
theorem witness_active : (deliver active).c.hearth = none ∧ (deliver active).t.onHearth = false ∧ (deliver active).c.trace.creates = [] ∧ (hearthRun 512).c.hearth.any (fun h =>
    decide (512 ≤ h.count) && h.task.status == .ready && h.task.onHearth) = true := by decide +kernel
/-- R22, R24. -/
theorem test_active : after (exec (.activeMessage 0 (s0.end_ 5)) (deliver active)) (fun t => t.c.hearth.any (fun h => h.task.pc == 0x100050000 && h.task.g[4] == plainVal 4 2 && h.task.clabel == 2)) ∧
    after (exec (.hearthOverrun 0) (hearthRun 512)) (fun t => t.c.hearth == none) ∧ after (exec (.hearthOverrun 0) (hearthRun 511)) (fun t => t.c.hearth.isSome) := by decide +kernel

/-! ### Barriers, waits for change and the inbox -/

/-- Object 5 of cluster 0 of job 7, with the members 0 and 1 of which 1 has arrived in phase 3; the task is member 0; g9 is a number. -/
def obj : BarObj := { cluster := 0, obj := 5, owner := 7, members := 3, arrived := 2, phase := 3, plabel := 8, labels := [(2, 16)] }
def sb (v : Nat) (o : BarObj) (m : Option (BitVec 6 × BitVec 6)) : State :=
  modD (modT s0 (fun t => { t with job := 7, member := m, g := t.g.set 9 (plainVal v 0) })) (fun d => { d with barriers := [o] })

theorem witness_BarrierResults : (sb 5 obj none).Ready Accept.none [.g 9] (.g 14) ∧ (sb 5 obj none).Ready Accept.none [.g 9] .zero ∧ (sb 5 obj none).Ready Accept.none [.g 9, .g 2] .zero ∧
    ((sb 5 obj none).d.barrier (CoreId.cluster 0) (((sb 5 obj none).x (.g 9)).setWidth 6)) = obj ∧ ((sb 5 obj none).x (.g 9)).toNat < 64 ∧ 64 ≤ ((sb 64 obj none).x (.g 9)).toNat ∧ obj.owner ≠ 0 ∧
    obj.owner = (sb 5 obj none).t.job ∧ ((sb 6 obj none).d.barrier 0 6).owner = 0 ∧ (sb 5 obj none).t.member = none ∧ (sb 5 obj (some (5, 0))).t.member = some (obj.obj, 0) ∧
    obj.members.getLsbD 2 = false ∧ (∀ j < 2, obj.members.getLsbD j = true) ∧ obj.arrived &&& 1 = 0 ∧ obj.arrived &&& 2 ≠ 0 ∧ (sb 5 obj (some (5, 0))).t.arrival = none ∧
    (sb 5 obj (some (5, 0))).t.pc = (sb 5 obj (some (5, 0))).t.unitPc ∧ passed 3 2 = true ∧ passed 3 3 = false ∧ s0.t.onHearth = false := by
  simp only [State.Ready]; decide +kernel
theorem witness_BarrierResults_still : (sb 5 obj none).Still := by simp only [State.Still]; decide +kernel
/-- R163: a join takes slot 2 and pins; the last arrival completes phase 3; a second one waits; `bar.wait` on phases 2 and 3; the mask of the missing; no membership. -/
theorem test_barriers : after (exec (.barJoin false (.g 14) (.g 9)) (sb 5 obj none)) (fun t => State.last t 14 == some (2, false, 4) && tswPin t.t.tsw && (t.d.barrier 0 5).members == 7) ∧
    after (exec (.barArrive false (.g 14) (.g 9) .clus) (sb 5 obj (some (5, 0)))) (fun t => State.last t 14 == some (3, false, 12) && (t.d.barrier 0 5).phase == 4 && (t.d.barrier 0 5).arrived == 0) ∧
    after (exec (.barSync false (.g 14) (.g 9) .clus) (sb 5 obj (some (5, 0)))) (fun t => t.t.pc == 0x100010004 && t.t.clabel == 12 && State.last t 14 == some (3, false, 12)) ∧
    after (exec (.barSync false (.g 14) (.g 9) .clus) (sb 5 { obj with arrived := 0 } (some (5, 0)))) (fun t => t.t.status == .parked (.phase 5 3) && (t.d.barrier 0 5).arrived == 1) ∧
    after (exec (.barArrive false (.g 14) (.g 9) .clus) (sb 5 obj (some (5, 1)))) (fun t => t.t.status == .parked (.rearrive 5 3)) ∧
    after (exec (.barWait false (.g 9) (.g 10) .clus) (modT (sb 5 obj (some (5, 0))) (fun t => { t with g := t.g.set 10 (plainVal 2 0) }))) (fun t => t.t.pc == 0x100010004 && t.t.clabel == 20) ∧
    after (exec (.barLeave false (.g 9)) (sb 5 obj (some (5, 0)))) (fun t => (t.d.barrier 0 5).phase == 4 && (t.d.barrier 0 5).members == 2 && t.t.member == none) ∧
    after (exec (.barMiss false (.g 14) (.g 9)) (sb 5 obj none)) (fun t => State.last t 14 == some (3 * 2 ^ 64 + 1, false, 12)) ∧
    raised (exec (.barArrive false (.g 14) (.g 9) .clus) (sb 5 obj none)) 0x06 0 ∧ raised (exec (.barMiss false (.g 14) (.g 9)) (sb 6 obj none)) 0x06 0 := by decide +kernel
theorem test_barrier_wake : after (exec (.barrierWaitWake 0 0x77) (modT (sb 5 obj (some (5, 0))) (fun t => { t with status := .parked (.phase 5 2) }))) (fun t => t.t.status == .ready) ∧
    after (exec (.barrierWaitWake 0 0x77) (modT (sb 5 obj (some (5, 0))) (fun t => { t with status := .parked (.phase 5 3) }))) (fun t => t.t.status == .parked (.phase 5 3)) := by decide +kernel

/-- A launch of job 7 whose kernel covers core 0 alone, and the region of that core with a timeout of 16 cycles. -/
def kern : Kernel :=
  { kind := 0, prio := 3, steal := 0, anchor := 0, recomp := 0, args := 0, text := 0x100010000, textSize := 0x1000, entry := 0x100010000, measure := 0, decls := [],
    die := 0, x0 := 0, y0 := 0, x1 := 0, y1 := 0, start := 1 }
def wired (v : Nat) (r : Option (BitVec 48)) (arrived : Bool) : State :=
  modD (modC (sb v obj none) (fun c => { c with region := r, warrived := arrived, wphase := 2 })) (fun d => { d with cycle := 100, graphs := [{ gr with job := 7, kernels := [kern] }] })
theorem witness_wire : (wired 0x100000 none false).Ready Accept.none [.g 9] .zero ∧ (wired 0x100000 none false).Ready Accept.none [] (.g 14) ∧ (wired 1 (some 0x100000) false).Ready Accept.none [.g 9] (.g 14) ∧
    (∀ c ∈ wireCores 0 0x100000, (wired 0 none false).d.jobHolds (wired 0 none false).part 7 c = true) ∧ ¬(∀ c ∈ wireCores 0 0x100100, (wired 0 none false).d.jobHolds (wired 0 none false).part 7 c = true) ∧
    (wired 0 none false).c.region = none ∧ (wired 0 (some 0x100000) true).c.warrived = true ∧ passed 2 1 = true ∧ passed 2 2 = false ∧
    (∀ c ∈ wireCores 0 0x100000, ((wired 0 (some 0x100000) true).core c).region = some 0x100000 ∧ ((wired 0 (some 0x100000) true).core c).warrived = true) ∧
    (wired 0 (some 0x100000) true).c.port.toNat < 24 ∧ (0x100000 : BitVec 48).toNat / 65536 % 2 ^ 32 ≠ 0 ∧ 80 + (0x100000 : BitVec 48).toNat / 65536 % 2 ^ 32 ≤ (wired 0 none false).d.cycle := by
  simp only [State.Ready]; decide +kernel
theorem witness_wire_still : (wired 0 none false).Still := by simp only [State.Still]; decide +kernel
/-- R165, R166: a region of one core; a region that holds another job's core; an arrival, a wait, the end of a phase and of the time. -/
theorem test_wire : after (exec (.barWregion false (.g 9)) (wired 0x100000 none false)) (fun t => t.c.region == some 0x100000 && t.c.wphase == 0) ∧
    raised (exec (.barWregion false (.g 9)) (wired 0x100100 none false)) 0x06 0 ∧ raised (exec (.barWregion false (.g 9)) (wired 0x101101 none false)) 0x05 0 ∧
    after (exec (.barWarrive false (.g 14) .die) (wired 0 (some 0x100000) false)) (fun t => State.last t 14 == some (2, false, 4) && t.c.warrived) ∧
    after (exec (.barWwait false (.g 14) (.g 9) .die) (wired 1 (some 0x100000) false)) (fun t => State.last t 14 == some (0, false, 4)) ∧
    after (exec (.barWwait false (.g 14) (.g 9) .die) (wired 2 (some 0x100000) false)) (fun t => t.t.status == .parked (.wire 2 100)) ∧
    after (exec (.wirePhaseComplete 0) (modT (wired 0 (some 0x100000) true) (fun t => { t with status := .parked (.wire 2 80) }))) (fun t => t.c.wphase == 3 && !t.c.warrived && t.t.status == .ready) ∧
    after (exec (.wireWaitTimeout 0 0x77) (modT (wired 0 (some 0x100000) false) (fun t => { t with status := .parked (.wire 2 80) }))) (fun t => t.t.wireOut == some 0x8000000000010001) := by decide +kernel

theorem witness_WaitsAndInbox : sm.Ready Accept.none [.g 4, .g 9] (.g 14) ∧ sm.t.ops = [] ∧ okIs (checkAccess (sm.rd (.g 4)) memSpaces pLD 0x1000 4 1 none) .spad = true ∧ 0x1000 < 0x100000 ∧
    sm.forbidden .spad 0x1000 4 = false ∧ sm.dataBreak true false 0x1000 4 = none ∧ bank.poisoned 0x1000 4 = false ∧ bank.mem.read 0x1000 4 = ((smx 0x1234).rd (.g 9)).bits.toNat % 2 ^ 32 ∧
    bank.mem.read 0x1000 4 ≠ ((smx 9).rd (.g 9)).bits.toNat % 2 ^ 32 ∧ okIs (checkAccess (sg.rd (.g 5)) memSpaces pLD 0x100010100 4 1 none) .glob = true := by
  simp only [State.Ready]; decide +kernel
/-- R167. -/
theorem test_wait_for_change : after (exec (.barWfcw false (.g 14) (.g 4) (.g 9) .die) (smx 0x1234)) (fun t => t.t.status == .parked (.change 0x1000 4 0x1234)) ∧
    after (exec (.barWfcw false (.g 14) (.g 4) (.g 9) .die) (smx 9)) (fun t => State.last t 14 == some (0x1234, false, 7) && t.t.clabel == 7) ∧
    raises (at_ sm 0x1002) (.barWfcw false (.g 14) (.g 4) (.g 9) .die) 0x08 0 ∧ raises sg (.barWfcd false (.g 14) (.g 5) (.g 9) .die) 0x06 0 ∧
    after (exec (.waitForChangeWake 0 0x77) (modT sm (fun t => { t with status := .parked (.change 0x1000 4 7) }))) (fun t => t.t.status == .ready) ∧
    after (exec (.waitForChangeWake 0 0x77) (modT sm (fun t => { t with status := .parked (.change 0x1000 4 0x1234) }))) (fun t => t.t.status == .parked (.change 0x1000 4 0x1234)) := by decide +kernel

def msg : Msg := { type := 1, src := 0, cause := 0, label := 2, optag := 0x55, payload := 0 }
def mail (l : List Msg) (resv : Nat) (a : Nat) : State := modT (at_ sm a) (fun t => { t with inbox := l, resv })
theorem witness_inbox : (mail [msg] 1 0x1100).Ready Accept.none [.g 4] (.g 14) ∧ (mail [] 0 0).Ready Accept.none [] (.g 14) ∧ (mail [] 0 0).t.inbox = [] ∧ 0 < (mail [] 1 0).t.resv ∧
    (mail [msg] 1 0x1100).t.inbox = msg :: [] ∧ okIs (checkAccess ((mail [msg] 1 0x1100).rd (.g 4)) memSpaces pST 0x1100 32 32 (some .spad)) .spad = true ∧
    (mail [msg] 1 0x1100).forbidden .spad 0x1100 32 = false ∧ (mail [msg] 1 0x1100).dataBreak false true 0x1100 32 = none ∧
    (mail [msg] 1 0x1100).t.ops.any (·.acquiring) = false ∧ (mail [msg] 1 0x1100).t.ops.any (·.touches 0x1100 32) = false ∧ bank.accepts 0x1100 32 6 = true ∧ bank.accepts 0x2000 32 6 = false ∧
    (deliver (.inbox 0x77 msg)).d.savedOf 0x77 = none ∧ (deliver (.inbox 0x77 msg)).t.tid = 0x77 ∧ (deliver (.inbox 0x99 msg)).focusTask 0 0x99 = none := by
  simp only [State.Ready]; decide +kernel
/-- R168, R169. -/
theorem test_inbox : after (exec (.inboxPop false (.g 14) (.g 4)) (mail [msg] 1 0x1100)) (fun t => t.t.inbox == [] && t.t.resv == 1 && t.c.spad.mem.read 0x1108 8 == 0x55 &&
      State.last t 14 == some (2 * 2 ^ 48 + 1, false, 6)) ∧
    after (exec (.inboxPop false (.g 14) (.g 4)) (mail [] 1 0x1100)) (fun t => t.t.status == .parked .inbox) ∧ after (exec (.inboxPop false (.g 14) (.g 4)) (mail [] 0 0x1100)) (fun t => State.last t 14 == some (0, false, 4)) ∧
    raises (mail [msg] 1 0x2000) (.inboxPop false (.g 14) (.g 4)) 0x0B 0x60002 ∧ after (exec (.inboxPeek false (.g 14)) (mail [msg] 1 0)) (fun t => State.last t 14 == some (2 * 2 ^ 48 + 1, false, 6)) ∧
    after (exec (.inboxCount false (.g 14)) (mail [msg] 3 0)) (fun t => State.last t 14 == some (0x30001, false, 6)) ∧
    after (exec (.inboxMessage 0) (modT (deliver (.inbox 0x77 msg)) (fun t => { t with resv := 1, status := .parked .inbox }))) (fun t => t.t.inbox == [msg] && t.t.resv == 0 && t.t.status == .ready) ∧
    after (exec (.inboxMessage 0) (deliver (.inbox 0x99 msg))) (fun t => t.d.net == [] && t.t.inbox == []) := by decide +kernel

/-! ### Tasks: a launch of job 7 on core 0, with a deque of two places and a source record in the scratchpad -/

def launch1 : Launch := { key := 1, word := 0, graph := 1, gen := 2, state := .live, rings := [], data := [], pipes := [] }
/-- The kernel on cores 0 and 1, with anchors of two tiles and stealing in the cluster. -/
def kern2 : Kernel := { kern with x1 := 1, anchor := 2, steal := 3 }
def rec0 : SpawnRec :=
  { join := 0, arg2 := 22, arg1 := 11, rkind := 0, tags := 0, prio := 2, entry := 0x100010000, tid := 0, clabel := 0, launch := 1 }
def stv (v : Nat) : State :=
  modD (modC (modT (at_ s0 0x1000) (fun t => { t with job := 7, launch := 1, g := t.g.set 9 (plainVal v 0) }))
      (fun c => { c with spad := { Bank.empty with mem := Memory.write [] 0x1000 64 rec0.bits }, dqBase := 0x2000, dqLimit := 0x2080 }))
    (fun d => { d with launches := [launch1], graphs := [{ gr with job := 7, kernels := [kern2] }] })
def st : State := stv 4
/-- The deque holds two records, which is all. -/
def fullDq : State := modC st (fun c => { c with
  spad := { c.spad with mem := (c.spad.mem.write 0x2000 64 rec0.bits).write 0x2040 64 rec0.bits }, dqBot := 2, dqMeta := [(0, 1, false), (1, 1, false)] })
/-- The record that the spawn forms: its priority is under the ceiling, its label that of the capability, the page and the control. -/
def formed : SpawnRec := { rec0 with clabel := 4 }

theorem witness_SpawnAndTaskForms : st.Ready Accept.none [.g 4] (.g 14) ∧ st.Ready Accept.none [.g 4, .g 9] (.g 14) ∧ st.c.trace.creates = [] ∧ st.c.dqLen < st.c.dqCap ∧ fullDq.c.dqCap ≤ fullDq.c.dqLen ∧
    st.t.frames.length + st.t.bounced.length < 16 ∧ st.t.pc + 4 = 0x100010004 ∧ 16 ≤ (List.replicate 16 (1 : Nat)).length ∧ (st.x (.g 9)).toNat < 2 ^ 24 ∧ (st.x (.g 9)).toNat % 4 = 0 ∧
    (st.x (.g 9)).toNat / 2 ^ 12 % 2 ^ 12 = st.d.fabric.device.toNat ∧ st.d.jobHolds st.part st.t.job 1 = true ∧ st.d.jobHolds st.part st.t.job 2 = false ∧
    ¬((stv 0x1004).x (.g 9)).toNat / 2 ^ 12 % 2 ^ 12 = st.d.fabric.device.toNat := by
  simp only [State.Ready]; decide +kernel
theorem witness_SpawnForms_still : st.Still ∧ fullDq.Still := by simp only [State.Still]; decide +kernel
theorem witness_SpawnForms_source : sourceOk st (.g 4) formed :=
  ⟨ok_of (by decide +kernel), by and_intros <;> decide +kernel⟩
/-- R175, R176: a push with TID 0, a child to run inline, queue overflow, a request to core 1, a core that is not the job's, a bad endpoint. -/
theorem test_spawn : after (exec (.taskSpawn (.g 14) (.g 4)) st) (fun t => State.last t 14 == some (0, false, 4) && t.c.dqBot == 1 && t.c.spad.mem.read 0x2000 64 == formed.bits && t.t.status == .parked .group) ∧
    after (exec (.taskSpawn (.g 14) (.g 4)) fullDq) (fun t => t.t.bounced == [({ formed with tid := 0 }, some 0x100010004)] && t.c.dqBot == 2) ∧
    raises (modT fullDq (fun t => { t with frames := List.replicate 16 { tid := 1, ret := 0 } })) (.taskSpawn (.g 14) (.g 4)) 0x0E 0 ∧
    after (exec (.taskSpawnto (.g 14) (.g 4) (.g 9)) st) (fun t => t.d.net == [{ src := 0, dst := 1, kind := .spawn 0x77 1 formed }] && t.t.buf == [.wait 1 (.g 14)]) ∧
    raises (stv 8) (.taskSpawnto (.g 14) (.g 4) (.g 9)) 0x06 0 ∧ raises (stv 5) (.taskSpawnto (.g 14) (.g 4) (.g 9)) 0x02 1 := by decide +kernel

/-- g13 is a counter in the own slice of the shared window, which holds n. -/
def joined (s : State) (n : Nat) : State := modD s (fun d => { d with shared := { Bank.empty with mem := Memory.write [] 0x40001000 8 n, labels := [(0x40001, 0xFFFF)] } })
theorem witness_TaskForms : (joined st 0).Ready Accept.none [.g 13] .zero ∧ (joined st 0).Ready Accept.none [] .zero ∧ (joined st 2).d.shared.mem.read 0x40001000 8 = 2 ∧
    okIs (checkAccess ((joined st 0).rd (.g 13)) memSpaces pLD 0x40001000 8 1 none) .shared = true ∧ okIs (checkAccess ((joined st 0).rd (.g 13)) memSpaces pATOM 0x40001000 8 8 (some .shared)) .shared = true ∧
    (joined st 0).forbidden .shared 0x40001000 8 = false ∧ (joined st 0).dataBreak true false 0x40001000 8 = none ∧ (joined st 0).dataBreak true true 0x40001000 8 = none ∧
    (joined st 0).d.shared.poisoned 0x40001000 8 = false ∧ st.c.dqLen = 0 ∧ fullDq.c.dqLen ≠ 0 ∧ (fullDq.c.dqRecord (fullDq.c.dqBot - 1).toNat) = some rec0 ∧ st.d.jobOfLaunch 1 = st.t.job ∧
    st.t.onHearth = false ∧ st.t.trapped = none ∧ st.c.trace.chunkTask ≠ some st.t.tid ∧ (st.rd (.g 1)).tag = false ∧ (st.rd (.g 13)).tag = true ∧ st.t.arrival = none ∧
    sliceCore (0x40001000 - 0x40000000) = st.c.id ∧ st.d.slices = [] ∧ 16 ≤ (modT fullDq (fun t => { t with frames := List.replicate 16 { tid := 1, ret := 0 } })).t.frames.length ∧ st.d.fencedSlices.contains st.c.id = false ∧ st.t.frames = [] ∧ st.enginesDone = true := by
  simp only [State.Ready]; decide +kernel
theorem witness_TaskForms_anchor : (stv 3).x (.g 9) ≠ 0 ∧ ((stv 3).x (.g 9)).toNat < 256 ∧ (stv 3).d.kernelAt 1 (stv 3).t.unitPc = some kern2 ∧ tileCount 3 ≤ 2 ∧ 2 < tileCount 7 ∧ (stv 3).t.anchor = none ∧
    sv.t.anchor = some anc ∧ anc.mprog = none ∧ anc.cprog = none ∧ anc.sprog = none ∧ anc.tiles &&& sv.busyTiles = 0 := by decide +kernel
/-- R177, R178: a join on 0 and on 2, with an empty deque and with records; an end that counts 2 down to 1, and one of an inline child. -/
theorem test_join_end : after (exec (.taskJoin (.g 13)) (joined st 0)) (fun t => t.t.status == .parked .group && t.t.pc == 0x100010004) ∧
    after (exec (.taskJoin (.g 13)) (joined st 2)) (fun t => t.t.status == .parked (.join 0x40001000 0) && t.t.pc == 0x100010000) ∧
    after (exec (.taskJoin (.g 13)) (joined fullDq 2)) (fun t => t.t.bounced == [(rec0, some 0x100010000)] && t.c.dqBot == 1) ∧
    after (exec (.taskEnd (.g 13)) (joined st 2)) (fun t => t.t == Task.vacant && t.d.shared.mem.read 0x40001000 8 == 1) ∧
    after (exec (.taskEnd (.g 1)) (modT st (fun t => { t with frames := [{ tid := 0x66, ret := 0x100010080 }] }))) (fun t => t.t.pc == 0x100010080 && t.t.tidReg == 0x66) := by decide +kernel
/-- R179, R180: a request for two tiles, for three, an anchor given up, the other ready tasks. -/
theorem test_anchor_yield : after (exec (.taskAnchor (.g 9)) (stv 3)) (fun t => t.t.status == .parked (.anchor 3 0) && t.c.anchorQ == [0x77]) ∧ raises (stv 7) (.taskAnchor (.g 9)) 0x06 0 ∧
    raises (stv 256) (.taskAnchor (.g 9)) 0x02 1 ∧ after (exec .taskUnanchor sv) (fun t => t.t.anchor == none && t.t.status == .parked .group) ∧ raises st .taskUnanchor 0x01 0 ∧
    after (exec .taskYield (modC st (fun c => { c with slots := c.slots.set 5 (some { tk with tid := 9 }) }))) (fun t => t.t.yieldTo == 32) := by decide +kernel

/-- The launch's core 0 with a message from core 5 (or 1) at the head of the network. -/
def deliverTo (s : State) (src : CoreId) (k : MsgKind) : State := modD s (fun d => { d with net := [{ src, dst := 0, kind := k }] })
def spawned : SpawnRec := { rec0 with tid := 0x123 }
theorem witness_SpawnAndWaitEvents : (deliverTo st 5 (.spawn 0x99 3 spawned)).d.stopped st.part = false ∧ st.c.fenced = false ∧ st.c.trace.rctl = 0 ∧ (5 : CoreId) ≠ st.c.id ∧
    (st.d.entryOk spawned.launch spawned.entry 0 = true ∧ st.d.jobHolds (launchPart 1) (st.d.jobOfLaunch 1) st.c.id = true) ∧ st.d.entryOk 1 0x100030000 0 = false ∧
    st.away 0x77 = false ∧ st.find 0x77 = some (0, 0) ∧ (modC st (fun c => { c with pendFires := [spawned] })).c.pendFires = spawned :: [] ∧
    (modC (modT st (fun t => { t with status := .parked (.anchor 2 8) })) (fun c => { c with anchorQ := [0x77] })).anchorDue = some (0x77, 2, 8) ∧
    24 ≤ (modT st (fun t => { t with age := 24 })).t.age ∧ st.c.port.toNat < 24 := by decide +kernel
def spawning : State := modT st (fun t => { t with ops := [{ op acc .sent with id := 3, kind := .spawnto 0x123 }], buf := [.wait 3 (.g 14)] })
/-- R157, R175, R176: pushed, bounced, refused; a refusal raises permission at the unit; a bounced child runs inline. -/
theorem test_spawn_events : after (exec (.spawnRequest 0 (s0.end_ 5)) (deliverTo st 5 (.spawn 0x99 3 spawned))) (fun t => t.c.dqBot == 1 && t.c.spad.mem.read 0x2000 64 == spawned.bits) ∧
    after (exec (.spawnRequest 0 (s0.end_ 5)) (deliverTo fullDq 5 (.spawn 0x99 3 spawned))) (fun t => t.d.net == [{ src := 0, dst := 5, kind := .spawnRefused 0x99 3 true spawned }]) ∧
    after (exec (.spawnRequest 0 (s0.end_ 5)) (deliverTo st 5 (.spawn 0x99 3 { spawned with entry := 0x100030000 }))) (fun t => t.d.net.map (·.dst) == [5] && t.c.dqBot == 0) ∧
    raised (exec (.spawntoRefusal 0 (s0.end_ 5)) (deliverTo spawning 5 (.spawnRefused 0x77 3 false spawned))) 0x06 0 ∧
    after (exec (.spawntoRefusal 0 (s0.end_ 5)) (deliverTo spawning 5 (.spawnRefused 0x77 3 true spawned))) (fun t => t.t.bounced == [(spawned, some 0x100010004)] && t.t.ops == []) ∧
    after (exec (.fireRefusal 0 (s0.end_ 5)) (deliverTo st 5 (.fireRefused 0x77 spawned 0 0x06))) (fun t => t.t.deferred == [(0x11, 0x106, 0)]) ∧
    after (exec (.pendingFirePush 0) (modC st (fun c => { c with pendFires := [spawned] }))) (fun t => t.c.dqBot == 1 && t.c.pendFires == []) := by decide +kernel
/-- R178, R14, R15. -/
theorem test_wait_events : after (exec (.joinWake 0 0x77) (modD (modT st (fun t => { t with status := .parked (.join 0x40001000 0) })) (fun d => { d with writes := [(0x8000200, 1)] }))) (fun t => t.t.status == .ready) ∧
    after (exec (.anchorGrant 0) (modC (modT st (fun t => { t with status := .parked (.anchor 2 8) })) (fun c => { c with anchorQ := [0x77], tiles := c.tiles.set 1 tile1 })))
      (fun t => t.t.anchor == some (Anchor.fresh 2) && t.t.clabel == 12 && t.c.tiles[1] == Tile.zero && t.c.anchorQ == []) ∧
    after (exec (.priorityAgeing 0) (modT st (fun t => { t with age := 24, eff := 3 }))) (fun t => t.t.age == 0 && t.t.eff == 4) := by decide +kernel

/-- Core 0 with no task to run, as a thief. -/
def idle : State := modT st (fun t => { t with status := .parked .notice })
theorem witness_StealingAndMigration : idle.thief = true ∧ idle.c.search = none ∧ idle.d.stealFor idle.part idle.c.id 0 ≠ [] ∧
    (rotateAfter (idle.c.lastVictim[0]) (idle.d.domain idle.c.id 0)).head? = some 1 ∧ st.c.dqLen = 0 ∧ fullDq.c.dqRecord fullDq.c.dqTop.toNat = some rec0 ∧
    (modD st (fun d => { d with cores := [{ Core.reset 1 with slots := (Core.reset 1).slots.set 0 (some { tk with tid := 0x99, status := .parked (.reserved 0) }) }] })).reserving 1 0x99 0 =
      some { tk with tid := 0x99, status := .parked (.reserved 0) } ∧ st.rotationSlot ≠ none ∧ (modC st (fun c => { c with upcallQ := [tk] })).rotationSlot = none ∧ (st.core 1).replays { tk with tid := 0x99 } = false ∧ st.t.onHearth = false ∧ st.c.trace.before = [] ∧
    (deliverTo st 1 (.reserve 0x99)).Delivers 1 (.reserve 0x99) [] ∧
    st.whole.emptySlots.head? = some 1 := by
  simp only [State.Delivers]; decide +kernel
/-- R29, R30, R26. -/
theorem test_steal_migrate : after (exec (.steal 0) idle) (fun t => t.d.net == [{ src := 0, dst := 1, kind := .stealReq 0 [7] }]) ∧
    after (exec (.stealRequest 0 (s0.end_ 1)) (deliverTo fullDq 1 (.stealReq 1 [7]))) (fun t => t.c.dqTop == 1 && t.d.net == [{ src := 0, dst := 1, kind := .stealReply (some rec0) }]) ∧
    after (exec (.stealRequest 0 (s0.end_ 1)) (deliverTo fullDq 1 (.stealReq 1 [6]))) (fun t => t.c.dqTop == 0 && t.d.net == [{ src := 0, dst := 1, kind := .stealReply none }]) ∧
    after (exec (.stealReply 0 (s0.end_ 1)) (deliverTo st 1 (.stealReply (some spawned)))) (fun t => t.c.startQ.map (fun x => (x.tid, x.pc, x.g[1])) == [(0x123, 0x100010000, plainVal 11 0)]) ∧
    after (exec (.migration 0 0x77) (modT st (fun t => { t with status := .parked (.migrate 1) }))) (fun t => t.t.status == .parked (.reserved 1) && t.d.net.map (·.dst) == [1]) ∧
    after (exec (.migrationRefused 0 (s0.end_ 1)) (deliverTo (modT st (fun t => { t with status := .parked (.reserved 1) })) 1 (.reserveRefused 0x77))) (fun t => t.t.status == .ready) ∧
    after (exec (.taskContextArrival 0 (s0.end_ 1)) (deliverTo st 1 (.context { tk with tid := 0x99 }))) (fun t => t.c.slots[1].any (fun x => x.tid == 0x99 && x.status == .ready)) := by decide +kernel

/-! ### Queues, pipes, forks: a kernel that pushes queue 3, pops queue 4, sends on pipe 6 and receives on pipe 7 -/

def ring0 : Ring := { queue := 3, producer := 0, consumer := 1, pa := 0x8000, entries := 4, size := 64, pushed := 5, recv := 0, pulled := 0, back := 2 }
def ring1 : Ring := { queue := 4, producer := 1, consumer := 0, pa := 0x9000, entries := 4, size := 64, pushed := 0, recv := 1, pulled := 0, back := 0 }
def pipe6 : Pipe := { id := 6, sender := 0, receiver := 1, base := 0x4000, size := 16, depth := 2, credits := 1, next := 3, held := [], closed := false, closeArrived := false, recvEnded := false }
def pipe7 : Pipe := { pipe6 with id := 7, sender := 1, receiver := 0, base := 0x3000, held := [(1, 2)] }
def kern4 : Kernel := { kern2 with decls := [.queue 3 4 64 false, .queue 4 4 64 true, .pipe 6 2 16 false, .pipe 7 2 16 true] }
def launchQ : Launch := { launch1 with rings := [ring0, ring1], pipes := [pipe6, pipe7], data := [{ queue := 4, ring := 1, bytes := toBytes 64 0xABCD, clabel := 2 }] }
/-- g9 is a name, g4 the record or the bytes in the scratchpad; nothing is labelled. -/
def sq (v : Nat) (rk : Nat := 0) : State :=
  modD (modC (modT (stv v) (fun t => { t with clabel := 0, entry := 0x100010000 })) (fun c => { c with
      dqBase := 0, dqLimit := 0, spad := { c.spad with mem := (c.spad.mem.write 0x1000 64 { rec0 with rkind := BitVec.ofNat 2 rk }.bits).write 0x3010 16 0x5678 } }))
    (fun d => { d with launches := [launchQ], graphs := [{ gr with job := 7, kernels := [kern4] }] })

theorem witness_QueueFormsAndEvents : (sq 0).Ready Accept.none [.g 9, .g 4] (.g 14) ∧ (sq 0).Ready Accept.none [.g 9, .g 4] .zero ∧ (sq 0).Ready Accept.none [.g 9] .zero ∧ ((sq 0).x (.g 9)).toNat = 0 ∧
    ((sq 0).d.kernelOf (sq 0).t) = some kern4 ∧ kern4.queues[0]? = some { id := 3, entries := 4, size := 64, pop := false } ∧ kern4.queues[1]? = some { id := 4, entries := 4, size := 64, pop := true } ∧
    kern4.queues[2]? = none ∧ (sq 0).d.ringOf 1 3 0 = some (0, ring0) ∧ (sq 0).d.ringOf 1 4 0 = none ∧ (sq 0).forbidden .spad 0x1000 64 = false ∧ (sq 0).c.spad.poisoned 0x1000 64 = false ∧
    (spawnOf ((sq 0).c.spad.mem.read 0x1000 64) 1).rkind ≠ 1 ∧ (sq 0).recordBad ((sq 0).c.spad.mem.read 0x1000 64) (spawnOf ((sq 0).c.spad.mem.read 0x1000 64) 1) 0 [] = none ∧
    (sq 0 2).recordBad ((sq 0 2).c.spad.mem.read 0x1000 64) (spawnOf ((sq 0 2).c.spad.mem.read 0x1000 64) 1) 0 [] = some (2, 2) ∧ ring0.pushed - ring0.back < ring0.entries ∧
    ringRefuses 0 (ring0.pa + ring0.pushed % ring0.entries * ring0.size) 64 = none ∧ 64 ≤ ring0.size ∧ (sq 0).d.fencedChannels = [] ∧ (sq 0).d.gmem.mem.wf = true ∧
    (sq 0).dataBreak false true 0x1000 64 = none ∧ (sq 0).c.staging = [] ∧ (sq 1).d.launchOf 1 = some launchQ ∧ ((sq 1).d.launchGraph 1).any (fun g => g.consumer 4 == 0) = true ∧ ((sq 1).d.launchGraph 1).any (fun g => g.consumer 4 == 1) = false ∧ (takeData 4 launchQ.data).isSome = true ∧ takeData 3 launchQ.data = none ∧
    (sq 0).c.trace.creates = [] ∧ (sq 0).d.pullDue 7 4 1 0 = some (1, 1, ring1) := by
  simp only [State.Ready]; decide +kernel
theorem witness_QueueForms_still : (sq 0).Still := by simp only [State.Still]; decide +kernel
/-- R183 to R185: a push to place 5 mod 4, a malformed data record, a full ring, a queue that the kernel pops; a tail; a pop and its size. -/
theorem test_queue_forms : after (exec (.queuePush false (.g 9) (.g 4)) (sq 0)) (fun t => t.d.gmem.mem.read 0x8040 64 == rec0.bits && (t.d.ringOf 1 3 0).any (fun p => p.2.pushed == 6)) ∧
    raises (sq 0 2) (.queuePush false (.g 9) (.g 4)) 0x02 2 ∧ raises (sq 1) (.queuePush false (.g 9) (.g 4)) 0x06 0 ∧ raises (sq 256) (.queueTail false (.g 9)) 0x02 1 ∧
    raises (modD (sq 0) (fun d => { d with launches := [{ launchQ with rings := [{ ring0 with back := 1 }] }] })) (.queuePush false (.g 9) (.g 4)) 0x0E 0 ∧
    after (exec (.queueTail false (.g 9)) (sq 0)) (fun t => t.d.net.map (fun m => (m.dst, m.kind)) == [(1, .tail 0x77 1 1 0 5)] && t.t.ops.map (·.id) == [1]) ∧
    after (exec (.queuePop false (.g 14) (.g 9) (.g 4)) (at_ (modC (sq 1) (fun c => { c with spad := { c.spad with labels := [(1, 2)] } })) 0x1100)) (fun t => State.last t 14 == some (64, false, 2) && t.c.spad.mem.read 0x1100 8 == 0xABCD) ∧
    raises (sq 1) (.queuePop false (.g 14) (.g 9) (.g 4)) 0x0B 0x20000 := by decide +kernel
/-- A light record, and a staged one without windows, in ring 1. -/
def pulling (rk : Nat) : State := modD (sq 0) (fun d => { d with gmem := { d.gmem with mem := Memory.write [] 0x9000 64 { rec0 with rkind := BitVec.ofNat 2 rk }.bits } })
def stagedRec : Staged := { spawn := { spawned with rkind := 1 }, windows := [], ring := 1 }
theorem witness_QueueEvents_pin : stagedRec.pages ≤ 4096 ∧ (sq 0).pinsUsed + stagedRec.pages ≤ 4096 ∧
    (match State.pinWindows (sq 0) 7 0 stagedRec.windows with | .ok (l, _) => l.isEmpty | _ => false) = true := by decide +kernel
/-- R184, R313. -/
theorem test_queue_events : after (exec (.queueTailWrite 0 (s0.end_ 1)) (deliverTo (sq 0) 1 (.tail 0x99 3 1 1 9))) (fun t => (t.d.ringOf 1 4 1).any (fun p => p.2.recv == 9)) ∧
    after (exec (.queuePull 0 7 4 1) (pulling 0)) (fun t => t.c.startQ.map (fun x => (x.pc, x.fromRing, x.kind)) == [(0x100010000, some 1, 0)] && t.c.seq == 1) ∧
    after (exec (.queuePull 0 7 4 1) (pulling 2)) (fun t => (t.d.launchOf 1).any (fun l => l.data.length == 2) && t.c.seq == 0) ∧
    after (exec (.queuePull 0 7 4 1) (pulling 1)) (fun t => t.c.staging.map (·.ring) == [1]) ∧
    after (exec (.stagedInputPin 0) (modC (sq 0) (fun c => { c with staging := [stagedRec] }))) (fun t => t.c.startQ.map (fun x => (x.tid, x.kind)) == [(0x123, 1)] && t.c.staging == []) := by decide +kernel

theorem witness_PipesAndForks : kern4.pipes[0]? = some (6, false) ∧ kern4.pipes[1]? = some (7, true) ∧ (sq 0).d.pipeOf 1 6 = some pipe6 ∧ (sq 1).d.pipeOf 1 7 = some pipe7 ∧ (sq 0).forbidden .spad 0x1000 16 = false ∧
    (sq 1).c.spad.accepts 0x1000 16 0 = true ∧ (modD (sq 1) (fun d => { d with launches := [{ launchQ with pipes := [{ pipe7 with held := [], closeArrived := true }] }] })).d.pipeComing 1 7 = false ∧
    sv.Ready Accept.none [.g 4, .g 1] .zero ∧ sv.t.anchor = some anc ∧ (∀ e ∈ enginesOf 5, anc.prog e = none) ∧ progEntry (0x1040 + 2 * 2 ^ 20) = some (0x1040, 2) ∧ progEntry 0 = none ∧ sv.roomForResv 2 = true ∧
    sv.Ready Accept.none [] .zero ∧ s0.t.anchor = none := by
  simp only [State.Ready]; decide +kernel
/-- R186, R187: a message into slot 1 of the receiver, no credit left, a message received, a second end; the events. -/
theorem test_pipes : after (exec (.pipeSend false (.g 14) (.g 9) (.g 4)) (at_ (sq 0) 0x1010)) (fun t => State.last t 14 == some (1, false, 0) && (t.core 1).spad.mem.read 0x4010 16 == 11 &&
      (t.d.pipeOf 1 6).any (fun p => p.credits == 0 && p.next == 2) && t.d.net.map (·.kind) == [.pipeMsg 1 6 1 0]) ∧
    after (exec (.pipeSend false (.g 14) (.g 9) (.g 4)) (modD (sq 0) (fun d => { d with launches := [{ launchQ with pipes := [{ pipe6 with credits := 0 }] }] }))) (fun t => t.t.status == .parked (.credit 6)) ∧
    after (exec (.pipeRecv false (.g 14) (.g 9) (.g 4)) (at_ (modC (sq 1) (fun c => { c with spad := { c.spad with labels := [(1, 2)] } })) 0x1100)) (fun t => State.last t 14 == some (16, false, 2) && t.c.spad.mem.read 0x1100 16 == 0x5678 &&
      t.d.net.map (·.kind) == [.pipeCredit 1 7]) ∧
    after (exec (.pipeClose false (.g 9)) (sq 0)) (fun t => (t.d.pipeOf 1 6).any (·.closed) && t.d.net.map (·.kind) == [.pipeClose 1 6]) ∧ raises (sq 0) (.pipeRecv false (.g 14) (.g 9) (.g 4)) 0x06 0 ∧
    after (exec (.pipeMessageArrival 0 (s0.end_ 1)) (deliverTo (modT (sq 0) (fun t => { t with status := .parked (.message 7) })) 1 (.pipeMsg 1 7 0 4))) (fun t => (t.d.pipeOf 1 7).any (fun p => p.held == [(1, 2), (0, 4)]) && t.t.status == .ready) ∧
    after (exec (.pipeCreditReturn 0 (s0.end_ 1)) (deliverTo (sq 0) 1 (.pipeCredit 1 6))) (fun t => (t.d.pipeOf 1 6).any (fun p => p.credits == 2)) := by decide +kernel
/-- A descriptor at 0x1020 whose matrix and sort programs have two words and one. -/
def forking : State := at_ (modC sv (fun c => { c with spad := { Bank.empty with mem := ((Memory.write [] 0x1020 8 (0x1040 + 2 * 2 ^ 20)).write 0x1030 8 (0x1040 + 2 ^ 20)).write 0x1040 8 0x5060500250203000 } })) 0x1020
/-- R188, R189, R191. -/
theorem test_forks : after (exec (.engFork false (.g 4) (.g 1) 5) forking) (fun t => t.t.anchor.any (fun x => x.mprog.any (fun p => p.words == [0x50203000, 0x50605002] && p.optag == 5) && x.sprog.any (fun p => p.words.length == 1) &&
      x.cprog == none) && t.t.resv == 2 && t.t.clabel == 7) ∧
    raises forking (.engFork false (.g 4) (.g 1) 2) 0x02 2 ∧ raises s0 (.engFork false (.g 4) (.g 1) 1) 0x01 0 ∧
    after (exec (.engRdv false 5) (ran (exec (.engFork false (.g 4) (.g 1) 5) forking))) (fun t => t.t.status == .parked (.engines 5)) ∧
    after (exec (.engRdv false 2) (ran (exec (.engFork false (.g 4) (.g 1) 5) forking))) (fun t => t.t.pc == 0x100010008 && t.t.resv == 2) := by decide +kernel

/-! ### The ember store: store 3 of job 7, integer addition under abs, with one slice at core (1, 0), and the same in a hashed region of two -/

def store3 : StoreDecl :=
  { num := 3, op := 2, rule := 0, hash := false, refuse := true, lease := true, pull := true, indexed := true, hprio := 0, hmax := 4, cap := 2, thresh := 0, hentry := 0x100010000, albase := 0,
    pbase := 0, pstride := 0, pkeys := 100, alsize := 4, lowat := 0, lmax := 7, die := 0, x0 := 1, y0 := 0, x1 := 1, y1 := 0, sloff := 0 }
def slice3 : Slice := { core := 0, job := 7, launch := 1, decl := store3, index := 0, embers := [{ key := 5, value := 10, mag := 10, label := 1 }, { key := 6, value := 30, mag := 30, label := 2 }], thresh := 0,
                        flushing := false, ash := [], ashHead := 0, created := 2, handlers := 0, leases := [], reposts := 0 }
/-- g4 is a store capability, g9 a key or an index; without labels. -/
def se (v : Nat) (x : StoreDecl := store3) : State :=
  modD (modT (stv v) (fun t => { t with g := (t.g.set 4 (cap 3 1 0x3FF 4)).set 12 (cap 0x1000 0x1000 0x3FF 3) })) (fun d => { d with
      graphs := [{ gr with job := 7, kernels := [kern2], stores := [x] }], parts := d.parts.set 0 { Part.reset with qos := Part.reset.qos.set 36 5 } })

theorem witness_EmberStoreForms : (se 5).Ready Accept.none [.g 4, .g 9, .g 1] .zero ∧ (se 5).Ready Accept.none [.g 4, .g 9, .g 1] (.g 4) ∧ (se 0).Ready Accept.none [.g 9, .g 4, .g 12] (.g 9) ∧
    (se 0).Ready Accept.none [.g 4, .g 9] (.g 14) ∧ (se 0).Ready Accept.none [.g 4] .zero ∧ checkCap ((se 5).rd (.g 4)) [4] pEVPOST = none ∧ checkCap ((se 5).rd (.g 4)) [4] pST = none ∧
    checkCap ((se 5).rd (.g 5)) [4] pST = some 6 ∧ checkCap ((se 5).rd (.g 1)) [4] pST = some 4 ∧ inBounds ((se 5).rd (.g 4)) 3 1 = true ∧ (se 5).storeOf 3 = some store3 ∧
    (modD (se 5) (fun d => { d with graphs := [] })).storeOf 3 = none ∧ ((5 : Label).sub 7 = true) ∧ ((8 : Label).sub 7 = false) ∧ ((se 5).x (.g 9)).toNat < store3.pkeys ∧ store3.pkeys ≤ ((se 100).x (.g 9)).toNat ∧
    (se 5).roomForResv 1 = true ∧ store3.count = 1 ∧ store3.count ≤ ((se 1).x (.g 9)).toNat ∧ okIs (checkAccess ((se 0).rd (.g 12)) memSpaces pST 0x1000 32 32 (some .spad)) .spad = true ∧
    (se 0).forbidden .spad 0x1000 32 = false ∧ (se 0).t.leases.length < 16 ∧ ((3, 5) ∈ (modT (se 5) (fun t => { t with leases := [(3, 5)] })).t.leases) ∧ ((3, (se 5).x (.g 9)) ∉ (se 5).t.leases) := by
  simp only [State.Ready]; decide +kernel
theorem witness_EmberForms_still : (se 5).Still := by simp only [State.Still]; decide +kernel
/-- R204 to R208. -/
theorem test_ember_forms : after (exec (.evPost false (.g 4) (.g 9) (.g 1)) (se 5)) (fun t => t.d.net.map (fun m => (m.dst, m.kind)) == [(1, .post 0x77 1 7 3 5 5 5 false 0x100010000)] && t.t.resv == 1) ∧
    after (exec (.evPostw false (.g 4) (.g 9) (.g 1)) (se 5)) (fun t => t.t.buf == [.wait 1 (.g 4)]) ∧ raises (se 100) (.evPost false (.g 4) (.g 9) (.g 1)) 0x05 0 ∧ raises (modT (se 5) (fun t => { t with clabel := 8 })) (.evPost false (.g 4) (.g 9) (.g 1)) 0x0B 0x90007 ∧
    after (exec (.evTake false (.g 9) (.g 4) (.g 12)) (se 0)) (fun t => t.d.net.map (·.kind) == [.take 0x77 1 7 3] && t.t.buf == [.wait 1 (.g 9)]) ∧ raises (se 1) (.evTake false (.g 9) (.g 4) (.g 12)) 0x05 0 ∧
    after (exec (.evStat false (.g 14) (.g 4) (.g 9)) (se 0)) (fun t => t.d.net.map (·.kind) == [.stat 0x77 1 7 3]) ∧ raises (se 5) (.evDone false (.g 4) (.g 9)) 0x06 0 ∧
    after (exec (.evDone false (.g 4) (.g 9)) (modT (se 5) (fun t => { t with leases := [(3, 5)] }))) (fun t => t.t.leases == [] && t.d.net.map (·.kind) == [.done 0x77 1 7 3 5]) ∧
    after (exec (.evThresh false (.g 4) (.g 1)) (se 5 { store3 with hash := true, x1 := 2 })) (fun t => t.d.net.map (fun m => (m.dst, m.kind)) == [(1, .thresh 0x77 1 7 3 5), (2, .thresh 0x77 1 7 3 5)]) ∧
    after (exec (.evFlush false (.g 4)) (se 5)) (fun t => t.d.net.map (·.kind) == [.flush 0x77 1 7 3]) ∧ raises (se 5) (.evFlush false (.g 5)) 0x06 0 := by decide +kernel
/-- R203: key 1 in a region of 2 by 2: the product is 0x9E3779B97F4A7C15, whose halves differ by an exclusive or in 0xE17D05AC, that is 0 modulo 4. -/
theorem test_ember_slice : ({ store3 with hash := true, x1 := 2, y1 := 1 } : StoreDecl).sliceOf 1 = 1 ∧ store3.sliceOf 1 = 1 := by decide +kernel

/-- The slice on core 0 with a message for it. -/
def atSlice (sl : Slice) (k : MsgKind) : State := modD (deliverTo (se 5) 5 k) (fun d => { d with slices := [sl] })
def sliceIs (t : State) (p : Slice → Bool) : Bool := (t.d.sliceAt 0 7 3).any p
/-- A record of an ash log that stands in memory. -/
def ashSlice : Slice := { slice3 with job := 0, decl := { store3 with albase := 0x100010000 }, ash := [(9, 4)], embers := [], flushing := true }
def ashing : State := modD sg (fun d => { d with
  gmem := { d.gmem with mem := d.gmem.mem.write 0x10000 16 (9 + 4 * 2 ^ 64) }, slices := [ashSlice], parts := d.parts.set 0 { Part.reset with qos := Part.reset.qos.set 36 5 } })
theorem witness_EmberEvents_ash : ashing.d.sliceAt 0 0 3 = some ashSlice ∧ ashing.mayRepost ashSlice = true ∧ ashing.d.ashHeld ashSlice = false ∧
    (match ashing.ashRead ashSlice with | .ok p => p == (9, 4) | _ => false) = true ∧ ashSlice.embers.length < ashSlice.decl.cap := by decide +kernel
theorem witness_EmberEvents : (atSlice slice3 (.stat 0x99 4 7 3)).d.sliceAt 0 7 3 = some slice3 ∧ (se 5).d.fencedSlices.contains 0 = false ∧ (5 : CoreId) ≠ (se 5).c.id ∧ (se 5).d.stopped (se 5).part = false ∧ (se 5).c.fenced = false ∧
    (se 5).c.trace.rctl = 0 ∧ slice3.embers.find? (fun e => e.key == 5) = some { key := 5, value := 10, mag := 10, label := 1 } ∧ slice3.embers.find? (fun e => e.key == 9) = none ∧ slice3.decl.cap ≤ slice3.embers.length ∧
    ({ slice3 with embers := [] } : Slice).embers.length < slice3.decl.cap ∧ (∃ e ∈ slice3.embers, slice3.eligible e = true ∧ slice3.leased e.key = false) ∧
    (se 5).mayRepost { slice3 with ash := [(9, 4)], embers := [], flushing := true } = true ∧ (rangeFrom 0 slice3.decl.count).all (fun i => !(se 5).d.fencedSlices.contains (slice3.decl.slice i)) = true := by decide +kernel
/-- R198 to R202: a fold, a creation, a refusal with a message; R205: the largest magnitude goes first and is leased; R206 to R208, R216. -/
theorem test_ember_events : after (exec (.emberPostAccept 0 (s0.end_ 5)) (atSlice slice3 (.post 0x99 4 7 3 5 7 2 true 0))) (fun t => sliceIs t (fun sl => sl.embers.map (fun e => (e.key, e.value, e.mag, e.label)) == [(5, 17, 17, 3), (6, 30, 30, 2)])) ∧
    after (exec (.emberPostAccept 0 (s0.end_ 5)) (atSlice { slice3 with embers := [] } (.post 0x99 4 7 3 9 0xFFFFFFFFFFFFFFFC 2 true 0))) (fun t => sliceIs t (fun sl => sl.embers == [{ key := 9, value := 0xFFFFFFFFFFFFFFFC, mag := 4, label := 2 }] && sl.created == 3)) ∧
    after (exec (.emberPostAccept 0 (s0.end_ 5)) (atSlice slice3 (.post 0x99 4 7 3 9 7 2 false 0x100010000))) (fun t => sliceIs t (· == slice3) && t.d.net.map (fun m => (m.dst, match m.kind with | .inbox tid m => (tid, m.type) | _ => (0, 0))) == [(5, (0x99, 5))]) ∧
    after (exec (.sliceTake 0 (s0.end_ 5)) (atSlice slice3 (.take 0x99 4 7 3))) (fun t => sliceIs t (fun sl => sl.embers.map (·.key) == [5] && sl.leases == [(6, 0x99)])) ∧
    after (exec (.leaseRelease 0 (s0.end_ 5)) (atSlice { slice3 with leases := [(6, 0x99)] } (.done 0x99 4 7 3 6))) (fun t => sliceIs t (fun sl => sl.leases == [])) ∧
    after (exec (.sliceThreshold 0 (s0.end_ 5)) (atSlice slice3 (.thresh 0x99 4 7 3 20))) (fun t => sliceIs t (fun sl => sl.thresh == 20)) ∧
    after (exec (.sliceFlush 0 (s0.end_ 5)) (atSlice slice3 (.flush 0x99 4 7 3))) (fun t => sliceIs t (·.flushing)) ∧
    after (exec (.ashRepost 0 0 3) ashing) (fun t => (t.d.sliceAt 0 0 3).any (fun sl => sl.ash == [] && sl.embers.map (fun e => (e.key, e.value, e.label)) == [(9, 4, 7)])) := by decide +kernel

/-! ### The engines: tiles 0 and 1, a descriptor of one fp32 k-step at 0x1100 and a wrong one at 0x1140, sort state over the pair, g4 at the descriptor, and g9 from
0x1200 to 0x1208 behind g8 from 0x2000 -/

def capBits (base len : Nat) : Nat := (cap base len 0x3FF 0).bits.toNat
def descWord (fmt : Nat) : Nat := capBits 0x1000 0x2000 + capBits 0x1000 0x2000 * 2 ^ 128 + 2 ^ 448 + fmt * 2 ^ 474
def bankE : Bank := { mem := (Memory.write [] 0x1100 64 (descWord 1)).write 0x1140 64 (descWord 5), tags := [0x110, 0x111], labels := [(1, 7), (2, 2)], poison := [] }
def tileK : Tile := { Tile.zero with fmt := .keys }
def sortK : SortState := { pairT := 0, bound := true, desc := false, kfmt := .u32, form := .k32p32, mid := false, ph := 0, step := 0, xprev := false, origins := 0 }
def ae (a : Nat) : State := at_ (modC (modT sv (fun t => { t with anchor := some { anc with sort := sortK }, g := (t.g.set 8 (cap 0x2000 8 0x3FF 0)).set 9 (cap 0x1200 8 0x3FF 0) }))
  (fun c => { c with spad := bankE })) a
def keysE (v : Nat) : State := modT (modC (ae 0x2000) (fun c => { c with tiles := (c.tiles.set 0 tileK).set 1 tileK })) (fun t => { t with g := t.g.set 9 (plainVal v 0) })
def isErr {α : Type} (e : Except Raised α) (c d : Nat) : Bool := match e with | .ok _ => false | .error (x, y, _) => x == c && y == d
def okOf {α : Type} (e : Except Raised α) (p : α → Bool) : Bool := match e with | .ok m => p m | .error _ => false
def prog (ended : Bool) (words : List IWord) : Prog :=
  { words, next := 0, regs := (keysE 1).t.g, optag := 0x55, forkPc := 0x100010000, running := false, suspended := false, ended, holds := true }
def withProg (e : Engine) (p : Prog) (s : State) : State := modT s (fun t => { t with anchor := t.anchor.map (fun a => match e with
  | .matrix => { a with mprog := some p } | .copy => { a with cprog := some p } | .sort => { a with sprog := some p }) })
def mxOf (s : State) (a : Nat) : MxOp := descOf (s.c.spad.mem.read a 64) true true 7 s s.direct 0 .fp32

theorem witness_MatrixForms_still : (ae 0x1100).Still ∧ (withProg .matrix (prog false []) (ae 0x1100)).Still := by simp only [State.Still]; decide +kernel
theorem witness_MatrixForms : (ae 0x1100).Ready Accept.none [.g 4] .zero ∧ (ae 0x1100).Ready Accept.none [.g 4, .g 4] .zero ∧ s0.t.anchor = none ∧ anc.holds 1 = true ∧ anc.holds 2 = false ∧
    (withProg .matrix (prog true []) (ae 0x1100)).t.anchor.any (fun x => x.prog .matrix == some (prog true [])) = true ∧ (prog true []).ended = true ∧ (prog false []).ended = false ∧
    (ae 0x1100).c.mx.length < 16 ∧ 16 ≤ (modC (ae 0x1100) (fun c => { c with mx := List.replicate 16 (mxOf (ae 0) 0x1100) })).c.mx.length ∧ (ae 0x1100).roomForResv 1 = true ∧
    (ae 0x1100).engRange ((ae 0x1100).rd (.g 4)) memSpaces (pLD + pLDCAP) 0x1100 64 64 (some .spad) = none ∧ bankE.poisoned 0x1100 64 = false ∧
    ((ae 0x3000).engRange ((ae 0x3000).rd (.g 4)) memSpaces (pLD + pLDCAP) 0x3000 64 64 (some .spad)).isSome = true ∧ mxFmt (bankE.mem.read 0x1140 64 / 2 ^ 474 % 16) = none ∧
    mxFmt (bankE.mem.read 0x1100 64 / 2 ^ 474 % 16) = some .fp32 ∧ descOk (bankE.mem.read 0x1100 64) (mxOf (ae 0) 0x1100) = true ∧
    bankE.mem.read 0x1100 64 / 2 ^ 480 % 2 = 0 ∧ (ae 0).operandsBad (mxOf (ae 0) 0x1100) none = none ∧
    ((ae 0).operandsBad { mxOf (ae 0) 0x1100 with ksteps := 4096 } none).isSome = true ∧ ((ae 0).futureTag 0x77 1).1 = accTag .fp32 ∧ ((ae 0).futureTag 0x77 0).1 ≠ accTag .fp32 := by
  simp only [State.Ready]; decide +kernel
/-- The command: g6 with space 6 at core 0 of another device, and a descriptor of global operands at 0x1180. -/
def descGlob : Nat := (cap 0x100010000 0x2000 0x3FF 1).bits.toNat * (1 + 2 ^ 128) + 2 ^ 448 + 2 ^ 474
def cmdState : State := modT (modC (ae 0x1180) (fun c => { c with spad := { bankE with mem := bankE.mem.write 0x1180 64 descGlob, tags := [0x118, 0x119] } })) (fun t => { t with g := t.g.set 6 (cap 0x100000 8 0x3FF 6) })
theorem witness_MatrixForms_send : cmdState.Ready Accept.none [.g 6, .g 4] .zero ∧ checkCap (cmdState.rd (.g 6)) [6] pCMD = none ∧ checkCap (cmdState.rd (.g 4)) [6] pCMD = some 6 ∧ capCursor (cmdState.rd (.g 6)).bits % 8 = 0 ∧
    Endpoint.kind (BitVec.ofNat 24 (capCursor (cmdState.rd (.g 6)).bits / 8)) = 0 ∧ inBounds (cmdState.rd (.g 6)) 0x100001 1 = true ∧ inBounds (cmdState.rd (.g 6)) 0x100008 1 = false ∧
    cmdState.engRange (cmdState.rd (.g 4)) memSpaces (pLD + pLDCAP) 0x1180 64 64 (some .spad) = none ∧ descOk descGlob (mxOf cmdState 0x1180) = true ∧
    cmdState.c.spad.mem.read 0x1180 64 = descGlob ∧ descGlob / 2 ^ 478 % 4 = 0 ∧ cmdState.operandsBad (mxOf cmdState 0x1180) (some .glob) = none ∧ hasPerm (mxOf cmdState 0x1180).acap.bits pGLOBAL = true ∧
    cmdState.roomForResv 1 = true := by
  simp only [State.Ready]; decide +kernel
/-- R232, R234, R237: a product into a tile of the accumulator's tag, its marks, a wrong tag, a reserved format, an ungranted tile; zeroing. -/
theorem test_matrix_forms : after (exec (.mxMma false (.g 4) 1) (ae 0x1100)) (fun t => t.c.mx.map (fun m => (m.tile, m.fmt, m.ksteps, m.zfirst)) == [(1, .fp32, 1, false)] && t.t.resv == 1 && t.t.clabel == 7) ∧
    after (exec (.mxMmaz false (.g 4) 0) (ae 0x1100)) (fun t => t.c.mx.map (fun m => (m.tile, m.zfirst)) == [(0, true)]) ∧ raises (ae 0x1100) (.mxMma false (.g 4) 0) 0x03 0 ∧
    raises (ae 0x1140) (.mxMma false (.g 4) 1) 0x02 2 ∧ raises (ae 0x1100) (.mxMma false (.g 4) 2) 0x01 0 ∧ raises s0 (.mxMma false (.g 5) 1) 0x01 0 ∧
    after (exec (.mxZero false (.g 1) 0) (ae 0)) (fun t => t.c.mx.map (fun m => m.zero) == [some .int32] && t.t.resv == 0) ∧ raises (ae 0) (.mxZero false (.g 3) 0) 0x02 1 ∧
    after (exec (.mxMma false (.g 4) 1) (withProg .matrix (prog false []) (ae 0x1100))) (fun t => t.t.status == .parked (.engine .matrix)) ∧
    after (exec (.mxcSend false (.g 6) (.g 4) 1 3) cmdState) (fun t => t.t.resv == 1 && t.t.ops.length == 1 && t.c.mx == []) ∧ raises cmdState (.mxcSend false (.g 6) (.g 4) 0 3) 0x01 0 = false := by decide +kernel

def mxRun (m : MxOp) : State := modC (ae 0) (fun c => { c with mx := [m] })
def mxZ : MxOp := { mxOf (ae 0) 0x1100 with tile := 1, zero := some .int32 }
def mxM : MxOp := { mxOf (ae 0) 0x1100 with tile := 1, begun := true, remote := none }
def mxC : MxOp := { mxM with job := tk.job, remote := some 5, owner := 0x99 }
theorem witness_MatrixEvents : (mxRun mxZ).mxChoice = some mxZ ∧ mxZ.begun = false ∧ mxZ.doomed = false ∧ (mxRun mxM).mxChoice = some mxM ∧ ((mxRun mxM).tile 1).poison = 0 ∧ (ae 0).c.trace.rctl = 0 ∧
    (ae 0).d.stopped (ae 0).part = false ∧ mxM.asrc = false ∧ mxM.bsrc = false ∧ mxM.remote = none ∧ mxM.answer = none ∧ capCursor mxM.acap.bits = 0x1000 ∧ mxM.astride = 0 ∧ mxM.bstride = 0 ∧ isBq mxM.fmt = false ∧
    bankE.poisoned 0x1000 64 = false ∧ mxM.ksteps ≤ mxM.kd + 1 ∧ mxM.kd + 1 < ({ mxM with ksteps := 2 } : MxOp).ksteps ∧ (mxRun mxZ).c.spadJob = mxZ.job ∧ (mxRun mxM).c.spadJob = mxM.job ∧ mxM.begun = true ∧
    (mxRun mxZ).pinsOf mxZ.owner = [] ∧ (mxRun mxM).pinsOf mxM.owner = [] ∧
    (mxRun mxM).engHeld mxM.launch = false ∧ mxM.age + 4096 ≤ (modD (mxRun mxM) (fun d => { d with cycle := 5000 })).d.cycle ∧
    ((deliverTo (ae 0) 5 (.matrix 0x99 7 mxC)).whole.tasks.any (fun p => p.2.job == mxC.job && p.2.anchor.any (fun x => x.holds mxC.tile))) = true ∧
    ((deliverTo s0 5 (.matrix 0x99 7 mxC)).whole.tasks.any (fun p => p.2.anchor.isSome)) = false ∧ (5 : CoreId) ≠ (ae 0).c.id := by decide +kernel
/-- R235: a zeroed tile takes the tag and the label; R236: 2·2 over sixteen int8 elements added to 5, and sixteen products of 1.0 added to 1.0; R240: a command that is taken, and one
whose tile nobody holds. -/
theorem test_matrix_events : after (exec (.matrixKstep 0) (mxRun mxZ)) (fun t => t.c.mx == [] && (t.tile 1).fmt == .int32 && (t.tile 1).label == 7 && (t.tile 1).rows[2] == 0) ∧
    accumulate .int8 5 (0x02020202020202020202020202020202, 0) (0x02020202020202020202020202020202, 0) = 69 ∧
    after (exec (.matrixQueueAgeing 0) (modD (mxRun mxM) (fun d => { d with cycle := 5000 }))) (fun t => t.c.mx.map (fun m => m.eff) == [tk.prio + 1]) ∧
    after (exec (.matrixCommand 0 (s0.end_ 5)) (deliverTo (ae 0) 5 (.matrix 0x99 7 mxC))) (fun t => t.c.mx.map (fun m => (m.tile, m.remote)) == [(1, some 5)] && t.d.net == []) ∧
    after (exec (.matrixCommand 0 (s0.end_ 5)) (deliverTo s0 5 (.matrix 0x99 7 mxC))) (fun t => t.d.net.map (fun m => (m.dst, match m.kind with | .inbox tid m => (tid, m.type, m.cause) | _ => (0, 0, 0))) == [(5, (0x99, 2, 6))]) := by decide +kernel

theorem witness_CopyForms_still : (ae 0).Still := by simp only [State.Still]; decide +kernel
theorem witness_CopyForms : (ae 0).Ready Accept.none [.g 8, .g 9] .zero ∧ (ae 0).roomForResv 1 = true ∧ (ae 0).c.cp.length < 64 ∧ okOf ((ae 0).bulkCheck (ae 0).direct .bulk true ((ae 0).rd (.g 8)) ((ae 0).rd (.g 9))) (fun m => m.len == 8) ∧
    okOf ((ae 0).bulkCheck (ae 0).direct .release true ((ae 0).rd (.g 9)) ((ae 0).rd (.g 8))) (fun m => m.len == 8 && m.dst == 0x2000) ∧
    isErr ((ae 0).bulkCheck (ae 0).direct .bulk true ((ae 0).rd (.g 8)) ((ae 0).rd (.g 8))) 5 0 ∧ checkCap ((ae 0).rd (.g 8)) memSpaces pST = none ∧
    checkCap ((ae 0).rd (.g 9)) memSpaces (pLD + pRELEASE) = none ∧ checkCap ((ae 0).rd (.g 1)) memSpaces pST = some 4 ∧ capTop ((ae 0).rd (.g 8)).bits - capCursor ((ae 0).rd (.g 8)).bits = 8 ∧
    capTop (withCursor ((ae 0).rd (.g 8)) 0x2008 0).bits - capCursor (withCursor ((ae 0).rd (.g 8)) 0x2008 0).bits = 0 ∧
    (ae 0).engRange ((ae 0).rd (.g 8)) memSpaces 0 0x2000 8 1 none = none ∧ (ae 0).engRange ((ae 0).rd (.g 9)) memSpaces 0 0x1200 8 1 none = none ∧
    (ae 0).t.level = 0 ∧ (modT (ae 0) (fun t => { t with tlevel := 1 })).t.level ≠ 0 ∧ s0.t.anchor = none := by
  simp only [State.Ready]; decide +kernel
/-- R249, R250: a contiguous copy of eight bytes; overlapping ranges; `cp.raw` is for supervisor level; a release whose destination is in the partition. -/
theorem test_copy_forms : after (exec (.cpBulk false (.g 8) (.g 9) true) (ae 0)) (fun t => t.c.cp.map (fun m => (m.kind, m.dst, m.src, m.len, m.note)) == [(.bulk, 0x2000, 0x1200, 8, true)] && t.t.resv == 1) ∧
    raises (ae 0) (.cpBulk false (.g 8) (.g 8) true) 0x05 0 ∧ raises (ae 0) (.cpRaw false (.g 8) (.g 9) true) 0x16 0 ∧ raises s0 (.cpTensor false (.g 5) (.g 5) .pipea true) 0x01 0 ∧
    raises (ae 0) (.cpRelease false (.g 9) (.g 8) false) 0x06 0 ∧ raises (ae 0) (.cpTensor false (.g 9) (.g 8) .spad true) 0x05 0 := by decide +kernel

def policy (place budget : Nat) : Policy := { place, id := 9, labelset := 7, cls := 2, peer := 5, budget, expiry := 100, measure := 0, body := [] }
/-- Two policies, and a region map that gives the 4 GiB from 4 GiB to device 5. -/
def gated : State := modD (modT (ae 0) (fun t => { t with g := t.g.set 8 (cap 0x100020000 8 0x3FF 1) })) (fun d => { d with
    parts := d.parts.set 0 { Part.reset with policies := [policy 0 4, policy 1 64] }
    fabric := { d.fabric with jobs := [(0, { pod := 3, job := tk.job, part := 0, valid := true })], regions := [(0, 0, BitVec.ofNat 128 (32 + 2 ^ 6 + 0x100000000 + 5 * 2 ^ 76))] } })
theorem witness_ReleaseGate : (gated.gate 3 (2, 5) 0 16).1 = none ∧ (gated.gate 8 (2, 5) 0 16).1 = some 1 ∧ (gated.gate 3 (2, 6) 0 16).1 = some 5 ∧ (gated.gate 3 (2, 5) 7 16).1 = some 4 ∧
    (gated.gate 3 (2, 5) 0 65).1 = some 2 ∧ ((modD gated (fun d => { d with cycle := 100 })).gate 3 (2, 5) 0 16).1 = some 3 ∧
    ((gated.gate 3 (2, 5) 0 16).2.d.partState 0).policies = [policy 0 4, policy 1 48] ∧ (((modD gated (fun d => { d with cycle := 100 })).gate 3 (2, 5) 0 16).2.d.partState 0).policies = [] := by decide +kernel
/-- The release of eight bytes to the peer takes them from the second policy and sees the label of the source page. -/
theorem test_release : after (exec (.cpRelease false (.g 9) (.g 8) false) gated) (fun t => t.c.cp.map (fun m => (m.kind, m.len, m.seen)) == [(.release, 8, 7)] && (t.d.partState 0).policies.map (·.budget) == [4, 56]) := by
  decide +kernel

def cpM : CpOp := match (ae 0).bulkCheck (ae 0).direct .bulk true ((ae 0).rd (.g 8)) ((ae 0).rd (.g 9)) with
  | .ok m => m
  | .error _ => { id := 0, owner := 0, job := 0, launch := 0, level := 0, kind := .bulk, note := false, src := 0, dst := 0, record := 0, len := 0, seg := 0, lab := 0, flags := 0, written := 0, prio := 0, eff := 0,
                  age := 0, lastEnd := 0, pc := 0, optag := 0, prog := false, word := 0, holds := false, suspended := false, acks := [], ended := none, seen := 0 }
def copying (m : CpOp) : State := modC (ae 0) (fun c => { c with cp := [m], spad := { bankE with mem := Memory.write [] 0x1200 8 0x1122334455667788, labels := [(1, 7), (2, 7)] } })
theorem witness_CopyEvents : bestCp ((copying cpM).c.cp.filter (copying cpM).cpEligible) = some cpM ∧ (copying cpM).c.cp.find? (fun o => o.ended.isSome && o.acks.isEmpty) = none ∧ cpM.kind = .bulk ∧ cpM.acks = [] ∧
    4096 * cpM.seg < cpM.len ∧ rangesOverlap cpM.dst cpM.src cpM.len = false ∧ (copying cpM).c.spad.poisoned 0x1200 8 = false ∧ (copying cpM).c.spad.mem.wf = true ∧ (copying cpM).d.stopped (copying cpM).part = false ∧
    (copying cpM).c.spad.accepts 0x2000 8 7 = true ∧ bankE.accepts 0x2000 8 (cpM.lab ||| bankE.labelOf 0x1200 8) = false ∧ cpM.len ≤ 4096 ∧ (copying cpM).c.spadJob = cpM.job ∧ (copying cpM).pinsOf cpM.owner = [] ∧ cpM.src + cpM.len ≤ 0x100000 ∧ cpM.dst + cpM.len ≤ 0x100000 ∧ (copying cpM).c.trace.rctl = 0 ∧
    (ae 0).c.held .engine ((ae 0).d.tenantOf cpM.launch) = false ∧ cpM.age + 4096 ≤ (modD (copying cpM) (fun d => { d with cycle := 5000 })).d.cycle := by decide +kernel
theorem test_copy_events : after (exec (.copySegment 0) (copying cpM)) (fun t => t.c.spad.mem.read 0x2000 8 == 0x1122334455667788 && t.c.cp == [] &&
      t.d.net.map (fun m => match m.kind with | .inbox tid m => (tid, m.type, m.cause, m.payload) | _ => (0, 0, 0, 0)) == [(0x77, 1, 0, 8)]) ∧
    after (exec (.copySegment 0) (modC (copying cpM) (fun c => { c with spad := bankE }))) (fun t => t.c.spad == bankE && t.c.cp == [] && t.d.net.map (fun m => match m.kind with | .inbox _ m => m.cause | _ => 0) == [11]) ∧
    after (exec (.copyAgeing 0) (modD (copying cpM) (fun d => { d with cycle := 5000 }))) (fun t => t.c.cp.map (fun m => m.eff) == [tk.prio + 1]) := by decide +kernel

def sortM (k : SortKind) : SortOp := (keysE 0).sortOf (keysE 0).direct 0 true .u32 .k32p32 k 0x2000 2 none
theorem witness_SortForms_still : (keysE 0).Still := by simp only [State.Still]; decide +kernel
theorem witness_SortForms : (keysE 0).Ready Accept.none [.g 4, .g 9] .zero ∧ (keysE 0).Ready Accept.none [.g 4] .zero ∧ (keysE 0).Ready Accept.none [] .zero ∧ (keysE 0).roomForResv 1 = true ∧ anc.holds 0 = true ∧ anc.holds 1 = true ∧
    okOf ((keysE (2 ^ 20)).loadCheck { anc with sort := sortK } (keysE 0).direct (withCursor (cap 0 0x100000 0x3FF 0) 0x1000 0) (plainVal (2 ^ 20) 0) 0 true .u32 .k32p32) (fun m => m.kind == .load 0 true 0) ∧
    okOf ((keysE 0).storeCheck { anc with sort := sortK } (keysE 0).direct (withCursor (cap 0 0x100000 0x3FF 0) 0x1000 0) (plainVal (2 ^ 21) 0) 0 true .u32 .k32p32) (fun m => m.kind == .store 1 false) ∧
    okOf ((keysE 0).topkCheck { anc with sort := sortK } (keysE 0).direct ((keysE 0).rd (.g 4)) (plainVal 5 0) 0 true .u32 .k32p32) (fun m => m.kind == .topk 5) ∧
    okOf ((keysE 0).runCheck { anc with sort := sortK } (keysE 0).direct (plainVal 0 0) 0 true .u32 .k32p32) (fun m => m.kind == .run 13) ∧
    okOf ((keysE 0).rowsCheck { anc with sort := sortK } (keysE 0).direct 0 true .u32 .k32p32) (fun m => m.kind == .rows) := by
  simp only [State.Ready]; decide +kernel
/-- R260, R263 to R265: a run of what is left, a row sort, a selection of 5, of none, and a pair that does not begin even. -/
theorem test_sort_forms : after (exec (.sortRun false .zero 0 true .u32 .k32p32) (keysE 0)) (fun t => t.c.srt.map (fun m => m.kind) == [.run 13] && t.t.resv == 1) ∧
    after (exec (.sortRows false 0 true .u32 .k32p32) (keysE 0)) (fun t => t.c.srt.map (fun m => (m.kind, m.note)) == [(.rows, true)]) ∧
    after (exec (.sortTopk false (.g 4) (.g 9) 0 false .u32 .k32p32) (keysE 5)) (fun t => t.c.srt.map (fun m => (m.kind, m.addr)) == [(.topk 5, 0x2000)]) ∧
    raises (keysE 0) (.sortTopk false (.g 4) (.g 9) 0 false .u32 .k32p32) 0x02 1 ∧ raises (keysE 0) (.sortRun false (.g 1) 0 true .i32 .k32p32) 0x03 0 ∧ raises (keysE 0) (.sortRun false (.g 9) 1 true .u32 .k32p32) 0x01 0 ∧
    raises (keysE 0) (.sortLoad false (.g 4) (.g 9) 0 true .u32 .k32p32) 0x05 0 ∧ raises (ae 0) (.sortStore false (.g 4) .zero 0 true .u32 .k32p32) 0x03 0 := by decide +kernel

def sorting (k : SortKind) : State := modC (keysE 0) (fun c => { c with srt := [{ sortM k with addr := 0x1000, begun := true }] })
theorem witness_SortEvents : (∀ k ∈ [SortKind.load 0 true 0, .run 13, .store 1 false], (sorting k).c.srt = [{ sortM k with addr := 0x1000, begun := true }] ∧ (sortM k).owner = (keysE 0).t.tid ∧ (sortM k).doomed = false ∧ (sortM k).prog = false ∧
      (sortM k).tile.toNat % 2 = 0 ∧ (sorting k).taskOf (sortM k).owner = some (sorting k).t ∧ (sorting k).d.stopped (sorting k).part = false) ∧ (keysE 0).c.trace.rctl = 0 ∧ (keysE 0).t.status ≠ .vacant ∧
    (sorting (.run 13)).sortPoisoned (sortM (.run 13)) = false ∧ bankE.poisoned 0x1000 32768 = false ∧ bankE.mem.wf = true ∧ halfRange 1 = (0, 2048) ∧ bankE.accepts 0x3000 0x4000 0 = true ∧ sortK.step = 0 := by decide +kernel
/-- R254, R256: positions 63 and 64 stand in column 63, a row step 0 pairs 2 with 3 and an odd one with 1; the smaller key goes first, and of equal keys the smaller origin. -/
theorem test_sort_order : posCol 63 = 63 ∧ posCol 64 = 63 ∧ partner true 0 2 = some (3, true) ∧ partner true 1 2 = some (1, false) ∧ partner true 1 0 = none ∧ partner false 0 5 = some (122, true) ∧
    ranksBefore .u32 false { bits := 1, org := 5 } { bits := 0xFFFFFFFF, org := 2 } = true ∧ ranksBefore .i32 false { bits := 1, org := 5 } { bits := 0xFFFFFFFF, org := 2 } = false ∧
    ranksBefore .u32 true { bits := 4, org := 1 } { bits := 4, org := 2 } = true := by decide +kernel

/-- Programs of one word each: `mx.zero t1, g1`, `cp.bulk g8, g9`, `sort.rows` and a word of another major. -/
def worded (e : Engine) (i : Instr) : State := withProg e { prog false [BitVec.ofNat 32 (encode i)] with regs := (keysE 0).t.g } (keysE 0)
theorem witness_EngineWords : wordForm .matrix (BitVec.ofNat 32 (encode (.mxZero false (.g 1) 1))) = some (.zero (.g 1) 1) ∧ wordForm .sort (BitVec.ofNat 32 (encode (.sortRows false 0 true .u32 .k32p32))) = some (.rows 0 true .u32 .k32p32) ∧
    wordForm .copy (BitVec.ofNat 32 (encode (.cpBulk false (.g 8) (.g 9) true))) = some (.copy .bulk (.g 8) (.g 9) true) ∧ wordForm .matrix 0 = none ∧ portsOf [SReg.g 1] = [] ∧ portsOf [SReg.q 1] ≠ [] ∧ anc.holdsFor (.zero (.g 1) 1) = true ∧
    anc.holdsFor (.zero (.g 1) 2) = false ∧ (keysE 0).t.status ≠ .vacant ∧ (keysE 0).t.onHearth = false ∧ (keysE 0).engFull .matrix = false ∧ (keysE 0).t.level = 0 ∧
    okOf ((keysE 0).zeroCheck (plainVal 5 1) (keysE 0).direct 1) (fun m => m.zero == some .int32) ∧ isErr ((keysE 0).zeroCheck (plainVal 3 1) (keysE 0).direct 1) 2 1 := by decide +kernel
/-- R90, R189, R190. -/
theorem test_engine_words : after (exec (.engineWord 0 0x77 .matrix) (worded .matrix (.mxZero false (.g 1) 1))) (fun t => t.c.mx.map (fun m => (m.zero, m.prog)) == [(some .int32, true)] && t.t.anchor.any (fun x => x.mprog.any (fun p => p.next == 1 && p.running)) && t.t.resv == 0) ∧
    after (exec (.engineWord 0 0x77 .sort) (worded .sort (.sortRows false 0 true .u32 .k32p32))) (fun t => t.c.srt.map (fun m => (m.kind, m.optag)) == [(.rows, 0x55)] && t.t.resv == 1) ∧
    after (exec (.engineWord 0 0x77 .matrix) (worded .matrix (.mxZero false (.g 1) 2))) (fun t => t.c.mx == [] && t.t.anchor.any (fun x => x.mprog.any (fun p => p.ended && !p.holds)) &&
      t.d.net.map (fun m => match m.kind with | .inbox tid m => (tid, m.type, m.cause, m.optag) | _ => (0, 0, 0, 0)) == [(0x77, 4, 1, 0x55)]) ∧
    after (exec (.engineWord 0 0x77 .copy) (worded .copy (.cpRaw false (.g 8) (.g 9) true))) (fun t => t.c.cp == [] && t.d.net.map (fun m => match m.kind with | .inbox _ m => m.cause | _ => 0) == [0x16]) := by decide +kernel

/-! ### The debug units: the trace unit of core 0, held by the guest of partition 0, with the translation of `sg` and a record to write -/

def recT : TraceRec := { type := 3, cycle := 5, tid := some 0x77, label := 0, arg0 := 0xAA, arg1 := 0xBB }
def unitT : TraceUnit := { TraceUnit.reset with holder := .guest 0, tctl := 1, tbase := 0x100020000, tsize := 12, twr := 64, trd := 32 }
def su (u : TraceUnit := unitT) : State := modD (modC sg (fun c => { c with trace := u })) (fun d => { d with parts := d.parts.set 0 { Part.reset with qos := (Part.reset.qos.set 34 1024).set 35 1024 } })
def unitOf (t : State) (p : TraceUnit → Bool) : Bool := p (t.core 0).trace

theorem witness_DebugRegisters : (su.traceRefuses 0 0 1).isNone ∧ (su.traceRefuses 0 0 4).isSome ∧ (su.traceRefuses 0 0x28 48).isNone ∧ (su.traceRefuses 0 0x28 65).isSome ∧ (su.traceRefuses 0 0x48 0x10000000000).isNone ∧
    (su.traceRefuses 0 0x108 0x770085).isNone ∧ (su.traceRefuses 0 0x50 0x77).isNone ∧ (su.traceRefuses 0 0x58 0x77).isNone ∧ (su.traceRefuses 0 0x60 0x100020000).isNone ∧ (su.unitRefuses (.trace 0) 0x10 13 0).isNone ∧
    (su.unitRefuses (.trace 0) 0x10 33 0).isSome ∧ su.holderOf (.trace 0) ≠ .free ∧ su.holderOf (.trace 1) = .free ∧ su.holderOf (.bank 0) = .free ∧
    (modC su (fun c => { c with bank := { c.bank with holder := .guest 0 } })).holderOf (.bank 0) ≠ .free ∧ ((su.unitRefuses (.bank 0) 0x200 1 0).isNone) ∧ su.taskPart 0x77 = some 0 ∧ su.taskPart 0x99 = none ∧
    (∀ k ∈ su.allCores, k.trace.pendingStops = []) ∧ su.d.saved = [] := by decide +kernel
/-- R399, R400, R408, R411. -/
theorem test_debug_registers : after (exec (.tctl 0 0x101) su) (fun t => unitOf t (fun u => u.tctl == 0x101 && u.tstat == 0)) ∧ after (exec (.tctl 0 4) su) (fun t => unitOf t (· == unitT)) ∧ after (exec (.trd 0 64) su) (fun t => unitOf t (fun u => u.trd == 64)) ∧
    after (exec (.bpctl 0 2 0x770085) su) (fun t => unitOf t (fun u => u.bpctl[2] == 0x770085) && (t.d.partState 0).attached == [(0x77, 0, 2)]) ∧
    after (exec (.stopreq 0 0x77) su) (fun t => unitOf t (fun u => u.pendingStops == [(0x77, 0xFF)])) ∧ after (exec (.stopreq 0 0x99) su) (fun t => unitOf t (fun u => u.pendingStops == [])) ∧
    after (exec (.resume 0 0x77) (su { unitT with heldTids := [(0x77, 1), (0x99, 2)] })) (fun t => unitOf t (fun u => u.heldTids == [(0x99, 2)])) ∧
    after (exec (.rctl 0 0x10000000000) su) (fun t => unitOf t (fun u => u.rctl == 0x10000000000 && u.rctlOf 0x77 == 0 && u.rctlOf 0x99 == 0x10000000000)) ∧
    after (exec (.dumpva 0 0x100020000) su) (fun t => unitOf t (fun u => u.staged.map (fun r => (r.type, r.arg0)) == [(21, 0)]) && t.d.gmem == su.d.gmem) ∧
    after (exec (.unitRegisterWrite (.trace 0) 0x10 13) su) (fun t => unitOf t (fun u => u.tsize == 13)) ∧ after (exec (.unitRegisterWrite (.trace 1) 0x10 13) su) (fun t => (t.core 1).trace.tsize == 12) := by decide +kernel

def writing (u : TraceUnit) : State := su { u with staged := [recT], needTime := false }
/-- The same without a translation. -/
def nowhere : State := modC (writing unitT) (fun c => { c with jobs := [] })
def sampling : State := modD (su { unitT with tctl := 0x100000001 }) (fun d => { d with cycle := 64 })
/-- A replaying unit whose chunk of kind 0 is the next of its partition. -/
def unitR : TraceUnit := { unitT with rctl := 0x20000, chunk := some { place := 1, task := some 0x77, kind := 0, left := 0 } }
theorem witness_DebugEvents : (writing unitT).d.leftOf 0 2 = 1024 ∧ (writing unitT).c.trace.toWrite = [(recT, 5)] ∧ (unitT.twr - unitT.trd).toNat + 32 ≤ 2 ^ unitT.tsize.toNat ∧ 2 ^ unitT.tsize.toNat < ((5000 : Word) - unitT.trd).toNat ∧
    ((writing unitT).ringPut unitT ((writing unitT).jobRoots 0 0) 64 [(recT, 5)]).toBool = true ∧ (nowhere.ringPut unitT (nowhere.jobRoots 0 0) 64 [(recT, 5)]).toBool = false ∧ recT.type ≠ 19 ∧
    sampling.c.trace.sampleDue 64 = true ∧ sampling.t.status ≠ .vacant ∧ unitT.sampleDue 64 = false ∧ unitR.rctl.toNat / 2 ^ 16 % 4 = 2 ∧ unitR.tstat.toNat / 2 % 2 = 0 ∧ (su.d.partState su.part).commits = 0 ∧
    (su unitR).t.atUnit = true ∧ su.t.status = .ready ∧ (su unitR).whole.tasks.find? (fun q => some q.2.tidReg == some 0x77) = some ((su unitR).c.port.toNat, (su unitR).t) := by decide +kernel
/-- R406: the record stands in the ring and the place moves; a ring without translation stops with its cause; R402; R421: the log's next chunk is read, and a chunk commits. -/
theorem test_debug_events : after (exec (.traceDrain 0) (writing unitT)) (fun t => unitOf t (fun u => u.staged == [] && u.twr == 96 && u.tstat == 0) && t.d.gmem.mem.read 0x20040 4 == 5 + 3 * 2 ^ 16) ∧
    after (exec (.traceDrain 0) nowhere) (fun t => unitOf t (fun u => u.staged == [recT] && u.twr == 64 && u.tstat.toNat % 2 == 1)) ∧
    after (exec (.sample 0) sampling) (fun t => unitOf t (fun u => u.staged.map (fun r => (r.type, r.tid, r.arg0)) == [(15, some 0x77, 0x100010000)] && u.sampled == 64)) ∧
    after (exec (.replayChunk 0) (su unitR)) (fun t => unitOf t (fun u => u.chunk == none) && (t.d.partState 0).commits == 1) := by decide +kernel
/-- R401: delta 5, type 3, the task, and the two arguments. -/
theorem test_trace_record : ofBytes (recT.bytes 5 false) = 5 + 3 * 2 ^ 16 + 0x77 * 2 ^ 80 + 0xAA * 2 ^ 128 + 0xBB * 2 ^ 192 ∧ ofBytes (recT.bytes 5 true) = 5 + 3 * 2 ^ 16 + 2 ^ 24 + 0x77 * 2 ^ 80 := by decide +kernel

/-! ### The partition control block: a mailbox of partition 0 that runs command n, with key slots 0 to 2 -/

def keySlot : PartySlot := { keyva := 0x100000000008000, tenants := 1, keyhash := 5 }
def q0 : Part := { Part.reset with slots := ((Part.reset.slots.set 0 keySlot).set 1 keySlot).set 2 keySlot, policies := [policy 0 4], nonce := some 0xABC }
def mb (n : Nat) (ops : BitVec 512) : Mailbox := { operands := ops, command := BitVec.ofNat 64 n, result := 0 }
def sup (n : Nat) (ops : BitVec 512) (s : State := s0) : State := modD s (fun d => { d with parts := d.parts.set 0 { q0 with sup := mb n ops } })
def hyp (n : Nat) (ops : BitVec 512) (s : State := s0) : State := modD s (fun d => { d with parts := d.parts.set 0 { q0 with hyp := mb n ops } })
/-- The result of a command: STATUS and VALUE. -/
def status (i : Instr) (s : State) (h : Bool) (st v : Nat) : Bool := after (exec i s) (fun t => ((t.d.partState 0).box h).result.toNat == 1 + 16 * st + 65536 * v)
/-- SETLABEL of page 1 of the scratchpad of core 0, or of its first shared page, with label 7 or 9. -/
def opsLabel (addr l : Nat) : BitVec 512 := BitVec.ofNat 512 (addr * 2 ^ 64 + 2 ^ 128 + l * 2 ^ 192)

theorem witness_SupervisorCommands : q0.runs false 1 0 = false ∧ (∀ n ∈ [1, 2, 3, 4, 5, 6], ({ q0 with sup := mb n 9 } : Part).runs false n 9 = true) ∧ opField (opsLabel 0x1000 7) 26 38 = 0 ∧ opField (opsLabel 0x1000 7) 24 2 = 7 ∧
    (∀ i < 16, (7 : Label).getLsbD i = true → q0.slotValid i = true) ∧ ¬(∀ i < 16, (9 : Label).getLsbD i = true → q0.slotValid i = true) ∧ s0.spadKept 0 0x1000 4096 = false ∧ s0.d.emberGuarded 0x40000000 4096 = false ∧
    (modC s0 (fun c => { c with dqBase := 0x1000, dqLimit := 0x1100 })).spadKept 0 0x1000 4096 = true ∧ s0.d.partOf (CoreId.die (sliceCore 0)) = 0 ∧ Endpoint.dev 0 = s0.d.fabric.device ∧
    s0.taskPart 0x77 = some 0 ∧ (s0.find 0x77).isSome = true ∧ s0.taskPart 0x99 ≠ some 0 ∧ s0.d.gmem.mem.wf = true ∧ (policy 0 4).id = 9 := by decide +kernel
theorem test_supervisor : after (exec (.setlabel 0 (opsLabel 0x1000 7)) (sup 1 (opsLabel 0x1000 7) sm)) (fun t => t.c.spad.labels == [(1, 7), (2, 2)]) ∧ after (exec (.setlabel 0 (opsLabel 0x2000 6)) (sup 1 (opsLabel 0x2000 6) sm)) (fun t => t.c.spad.labels == [(1, 7), (2, 6)]) ∧
    after (exec (.setlabel 0 (opsLabel 0x40001000 3)) (sup 1 (opsLabel 0x40001000 3))) (fun t => t.d.shared.labels == [(0x40001, 3)]) ∧ status (.setlabel 0 (opsLabel 0x1000 9)) (sup 1 (opsLabel 0x1000 9)) false 2 0 ∧
    status (.setlabel 0 (opsLabel 0x1008 7)) (sup 1 (opsLabel 0x1008 7)) false 1 0 ∧ after (exec (.preempt 0 0x77) (sup 2 0x77)) (fun t => (t.d.partState 0).preempting == [0x77]) ∧ status (.preempt 0 0x99) (sup 2 0x99) false 4 0 ∧
    after (exec (.remove 0 9) (sup 5 9)) (fun t => (t.d.partState 0).policies == []) ∧ status (.remove 0 8) (sup 5 8) false 4 0 ∧ status (.query 0 9) (sup 6 9) false 0 4 ∧ status (.getnonce 0 1) (sup 3 1) false 1 0 ∧
    after (exec (.remove 0 9) (sup 4 9)) (fun t => (t.d.partState 0).policies == [policy 0 4] && (t.d.partState 0).sup == mb 4 9) := by decide +kernel

/-- A policy at 0x8000 in the system window: form 1, labels 7, class 1, ID 0x11, budget 64, expiry 100, and the nonce. -/
def policyBytes (nonce expiry : Nat) : Nat := 1 + 7 * 2 ^ 16 + 2 ^ 40 + 0x11 * 2 ^ 320 + 64 * 2 ^ 384 + expiry * 2 ^ 448 + nonce * 2 ^ 768
def installing (nonce expiry : Nat) : State := modD (sup 4 0x100000000008000) (fun d => { d with gmem := { d.gmem with mem := Memory.write [] 0x8000 128 (policyBytes nonce expiry) } })
theorem witness_SupervisorCommands_install : ((installing 0xABC 100).hypBytes 0 0x100000000008000 128).toOption.any (fun b => policyShape b && policyOf b 0 == { policy 0 64 with id := 0x11, cls := 1, peer := 0, body := b } &&
      bytesAt b 96 32 == 0xABC && (slotsOf (BitVec.ofNat 16 (bytesAt b 2 2))).length == 3) = true ∧ (s0.hypBytes 0 0x100000000008000 128).toOption.any (fun b => !(policyShape b)) = true ∧ (s0.hypBytes 0 0x8000 128).toBool = false ∧ s0.d.installHeld 0 = false ∧
    (installing 0xABC 100).d.cycle < 100 := by decide +kernel
/-- R376: a nonce that was not asked for, an expired policy, no record, a misaligned one. -/
theorem test_install : status (.install 0 0x100000000008000) (installing 0xABD 100) false 6 0 ∧ status (.install 0 0x100000000008000) (installing 0xABC 0) false 7 0 ∧ status (.install 0 0x100000000008000) (sup 4 0x100000000008000) false 1 0 ∧
    status (.install 0 0x8008) (sup 4 0x8008) false 1 0 := by decide +kernel

theorem witness_UnitClaims : (unitNamed 0x8001).toOption = some (.trace 1) ∧ (unitNamed 0x4000).toOption = some (.bank 0) ∧ (unitNamed 0x8400).toBool = false ∧ s0.holderOf (.trace 1) = .free ∧ su.holderOf (.trace 0) = .guest 0 ∧ s0.d.partOf (unitDie (.trace 1)) = 0 ∧
    (hyp 7 0x8000 su).holderOf (.trace 0) = .guest 0 ∧ s0.d.gmem.mem.wf = true ∧ s0.d.pidx < s0.d.cidx + 4096 ∧ (modC s0 (fun c => { c with trace := { unitT with holder := .hyp, revoked := some 0 } })).revokedTo (.trace 0) 0 = true := by
  decide +kernel
/-- R378. -/
theorem test_claims : after (exec (.claim 0 false 0x8001) (sup 7 0x8001)) (fun t => t.holderOf (.trace 1) == .guest 0) ∧
    after (exec (.claim 0 true 0x8000) (hyp 7 0x8000 su)) (fun t => t.holderOf (.trace 0) == .hyp && t.revokedTo (.trace 0) 0 && t.d.causes.map (fun e => (e.kind, e.part, e.func)) == [(5, 0, 0xFF)]) ∧
    status (.claim 0 false 0x8000) (modD (sup 7 0x8000) (fun d => d) |> fun s => modC s (fun c => { c with trace := { unitT with holder := .hyp } })) false 3 0 ∧ status (.claim 0 false 0x8400) (sup 7 0x8400) false 4 0 ∧
    after (exec (.unclaim 0 false 0x8000) (sup 8 0x8000 su)) (fun t => t.holderOf (.trace 0) == .free) ∧ status (.unclaim 0 false 0x8001) (sup 8 0x8001) false 2 0 := by decide +kernel

/-- RESHAPE to four partitions of one die, and to one of four dies: four bits for each die. -/
def vf : BitVec 512 := BitVec.ofNat 512 (3 + 2 * 2 ^ 16 + 1 * 2 ^ 24)
theorem witness_HypervisorCommands : q0.runs true 9 0 = false ∧ (∀ n ∈ [9, 10, 11, 12], ({ q0 with hyp := mb n 9 } : Part).runs true n 9 = true) ∧ arcs 0x3210 = true ∧ arcs 0 = true ∧ arcs 0x3232 = false ∧ arcs 0x0123 = false ∧
    s0.d.launches = [] ∧ (st.d.launches.any (fun l => st.d.reshaped 0x3210 (launchPart l.key) || st.d.reshaped 0x3333 (launchPart l.key))) = true ∧ (s0.d.func 3).valid = false ∧ (s0.d.func 3).quarantine ≤ s0.d.cycle ∧ partDies s0.d 0 ≠ [] ∧ s0.d.hostFunc 0 = none ∧
    s0.slotUsed 0 5 = false ∧ (modC sm (fun c => { c with spad := { bank with labels := [(1, 32)] } })).slotUsed 0 5 = true := by decide +kernel
/-- R369 to R374. -/
theorem test_hypervisor : after (exec (.reshape 0 0x3210) (hyp 9 0x3210)) (fun t => (List.range 4).all (fun d => (t.d.partOf (BitVec.ofNat 2 d)).toNat == d) && t.d.brfw[1].toNat % 4 == 0) ∧
    after (exec (.reshape 0 0) (hyp 9 0)) (fun t => (List.range 4).all (fun d => t.d.partOf (BitVec.ofNat 2 d) == 0) && t.d.brfw[1].toNat % 4 == 3) ∧ status (.reshape 0 0x3232) (hyp 9 0x3232) true 1 0 ∧
    after (exec (.vfup 0 vf) (hyp 10 vf)) (fun t => (t.d.func 3).valid && (t.d.func 3).tenant == 2 && (t.d.func 3).slot == 1) ∧ status (.vfup 0 0) (hyp 10 0) true 1 0 ∧ status (.vfdown 0 3) (hyp 11 3) true 4 0 ∧
    after (exec (.vfdown 0 3) (modD (hyp 11 3) (fun d => { d with funcs := d.funcs.set 3 { valid := true, host := false, part := 0, tenant := 0, slot := 0, request := 0, result := 0, ldrop := 0, quarantine := 0, pending := none, withdrawing := none } })))
      (fun t => !(t.d.func 3).valid && (t.d.func 3).quarantine == 10500000) ∧
    after (exec (.slotset 0 (5 + 0x9000 * 2 ^ 64 + 2 ^ 128)) (hyp 12 (5 + 0x9000 * 2 ^ 64 + 2 ^ 128))) (fun t => (t.d.partState 0).slots[5] == { keyva := 0x9000, tenants := 1, keyhash := 0 }) ∧ status (.slotset 0 2) (hyp 12 2 sm) true 9 0 ∧
    after (exec (.cidx 3) s0) (fun t => t.d.cidx == 3 && t.d.msix == 1 && !t.d.msixArmed) := by decide +kernel

/-! ### Graphs and launches: function 1 is valid, and partition 0 has a graph of job 0 with one kernel that starts on core 0 and a log at 0x100030000 -/

def kernS : Kernel := { kern with entry := 0x100010040 }
def grS : Graph := { gr with func := 1, logva := 0x100030000, logn := 4, kernels := [kernS] }
def fn1 : Func := { Func.reset with valid := true, result := 1 }
def word1 : Word := 0x2001 <<< 44
def sl1 (f : Func := fn1) : State := modD su (fun d => { d with graphs := [grS], funcs := d.funcs.set 1 f, parts := d.parts.set 0 { Part.reset with launchNo := 6 } })
/-- The job's save area on core 0 stands already. -/
def queued (l : List (Word × Option (BitVec 6))) (s : State := sl1) : State := modD s (fun d => { d with saveAreas := [{ job := 0, core := 0, base := 0x1000000000, tags := [], labels := [], poison := [] }], parts := d.parts.set 0 { Part.reset with queue := l, launchNo := 6, qos := Part.reset.qos.set 64 (1 + 0x2001 * 2 ^ 16 + 3 * 2 ^ 52) } })
def launched (l : LaunchState) (s : State := sl1) : State := modD s (fun d => { d with launches := [{ launch1 with word := word1, state := l }] })
/-- The result word and the cause entry of a command of function 1. -/
def funcIs (o : Out) (st h : Nat) : Bool := after o (fun t => (t.d.func 1).result.toNat == 1 + 16 * st + 256 * h && t.d.causes.any (fun e => e.kind == 4 && e.func == 1))

theorem witness_GraphCommands : (sl1.d.func 1).valid = true ∧ (sl1.d.func 1).result.toNat % 2 = 1 ∧ (sl1.d.func 0).valid = false ∧ (requestOf 0).ok 1 fn1 = false ∧ sl1.d.pidx < sl1.d.cidx + 4096 ∧
    sl1.d.funcGraph 1 0x2001 = some grS ∧ sl1.d.funcGraph 1 0x2002 = none ∧ sl1.d.hasLaunch 0 1 2 = false ∧ grS.handle = 0x2001 ∧ sl1.d.pidx + 64 ≤ sl1.d.cidx + 4096 ∧ (launched .live).d.hasLaunch 0 1 2 = true ∧ (launched .live).d.launchOf 1 = some { launch1 with word := word1 } ∧
    (launched .live).d.launchGraph 1 = some grS ∧ (launched .live).d.launchOf 2 = none := by decide +kernel
/-- R322, R326, R334: a request that breaks its form; an index that is freed at once, and one that waits for its launch; a withdrawal. -/
theorem test_graphs : funcIs (exec (.register 1 (1#64 ++ 0#512)) sl1) 10 0 ∧ funcIs (exec (.register 1 (4#64 ++ 0#512)) sl1) 10 0 ∧ funcIs (exec (.register 1 (0x20012#64 ++ 0#512)) sl1) 0 0 ∧ after (exec (.register 0 (1#64 ++ 0#512)) sl1) (fun t => t.d.funcs == sl1.d.funcs && t.d.causes == []) ∧ funcIs (exec (.unregister 1 0x2001) sl1) 0 0 ∧ funcIs (exec (.unregister 1 0x2002) sl1) 1 0 ∧
    after (exec (.unregister 1 0x2001) sl1) (fun t => t.d.graphs == [] && t.d.genOf 0 1 == 3) ∧ after (exec (.unregister 1 0x2001) (launched .live)) (fun t => t.d.graphs.map (·.live) == [false] && (t.d.func 1).pending == some (1, 2)) ∧
    funcIs (exec (.withdraw 1 0x202001) sl1) 1 0 ∧ funcIs (exec (.withdraw 1 0x10000000102001) sl1) 10 0 ∧ after (exec (.withdraw 1 0x102001) (launched .live)) (fun t => t.d.launches.map (·.state) == [.withdrawing] && (t.d.func 1).withdrawing == some 1) := by decide +kernel

/-- A graph whose kernel is a gang of core 0 with one task. -/
def grG : Graph := { grS with kernels := [{ kernS with kind := 3, decls := [.gang 0] }] }
def gang (s : State := sl1) : State := modD s (fun d => { d with graphs := [grG], launches := [{ launch1 with state := .gangWaiting }], parts := d.parts.set 0 { Part.reset with gangs := [(1, 0)] } })
theorem witness_LaunchEvents : sl1.d.funcGraph 1 (wordHandle word1) = some grS ∧ sl1.d.funcGraph 1 (wordHandle 0) = none ∧ (queued []).d.stopped 0 = false ∧ ((queued []).d.partState 0).admitsLaunch 3 0 (wordHandle word1) = true ∧
    ((queued []).d.partState 0).admitsLaunch 4 0 (wordHandle word1) = false ∧ sl1.d.graphOf 0 (wordHandle word1) = some grS ∧ sl1.d.graphOf 0 (wordHandle 0) = none ∧ (sl1.argFault grS word1).1 = 0 ∧
    (sl1.argFault { grS with kernels := [{ kernS with args := 16 }] } word1).1 ≠ 0 ∧ sl1.d.areasHeld grS = false ∧ (modD sl1 (fun d => { d with graphs := [{ grS with stores := [store3] }], launches := [launch1] })).d.areasHeld { grS with stores := [store3] } = true ∧
    sl1.d.reserveRings grS [] grS.rings = some [] ∧ (sl1.d.reserveAreas grS.job grS.cores).isSome = true ∧ sl1.d.reserveRings grS [] [(3, 0, 4, 64)] = none ∧ gang.d.launchGraph 1 = some grG ∧ gang.d.launchOf 1 = some { launch1 with state := .gangWaiting } ∧
    (gang.focus 0).holds (grG.need 0 0) = true ∧ (grG.need 0 0).1 ≠ 0 ∧ (∀ c ∈ grG.cores, c = 0) ∧ (modC gang (fun c => { c with fenced := true })).holds (grG.need 0 0) = false ∧
    (modT (launched .live) (fun t => { t with launch := 1 })).lives { launch1 with word := word1 } = true ∧ (launched .live).lives { launch1 with word := word1 } = false ∧ (launched .withdrawing).draining 1 = false ∧
    (modD (launched .withdrawing) (fun d => { d with orphans := [(0, 0x77, op { acc with launch := 1 } .sent)] })).draining 1 = true := by decide +kernel
/-- R328, R329, R333, R335: doorbells; packets; a word that is served, with the task in the start queue, its argument and the log's record; a gang that starts; completion. -/
theorem test_launches : after (exec (.launch 1 word1) sl1) (fun t => (t.d.partState 0).queue == [(word1, some 1)]) ∧ after (exec (.launch 1 0) sl1) (fun t => (t.d.func 1).ldrop == 1 && (t.d.partState 0).queue == []) ∧
    after (exec (.launchPacket 0 3 0 word1) (queued [])) (fun t => (t.d.partState 0).queue == [(word1, none)]) ∧ after (exec (.launchPacket 0 4 0 word1) (queued [])) (fun t => (t.d.partState 0).queue == []) ∧
    after (exec (.launchWordService 0) (queued [(word1, none)])) (fun t => t.d.launches.map (fun l => (l.key, l.word, l.state)) == [(7, word1, .live)] && (t.d.partState 0).launchNo == 7 && (t.d.partState 0).queue == [] &&
      t.c.startQ.map (fun k => (k.pc, k.launch, k.g[2])) == [(0x100010040, 7, Val.zero)] && t.d.gmem.mem.read 0x30040 16 == word1.toNat + 2 ^ 64 + 7 * 2 ^ 96 && t.d.gmem.mem.read 0x30000 8 == 1) ∧
    after (exec (.launchWordService 0) (queued [(0, none)])) (fun t => t.d.launches == [] && (t.d.partState 0).queue == []) ∧
    after (exec (.gangPlacement 0) gang) (fun t => t.d.launches.map (·.state) == [.live] && (t.d.partState 0).gangs == [] && (t.whole.tasks.filter (fun p => p.2.launch == 1)).map (fun p => p.2.pc) == [0x100010040]) ∧
    after (exec (.launchCompletion 0 1) (launched .live)) (fun t => t.d.launches == [] && t.d.gmem.mem.read 0x30048 2 == 2) ∧ after (exec (.launchCompletion 0 1) (launched .gangWaiting)) (fun t => t.d.launches.length == 1) := by decide +kernel

def upcall : Task := { tk with tid := 0x99, pc := 0x100020000 }
def slH : Slice := { slice3 with decl := { store3 with pull := false }, thresh := 0 }
def granting (f : Core → Core) : State := modC (se 0) f
def dispatching : State := modD (granting (fun c => { c with lastClass := 0 })) (fun d => { d with slices := [slH] })
theorem witness_SlotsAndPeriods : (granting id).halted = false ∧ (granting id).freeSlot.isSome = true ∧ (granting id).rotationSlot.isSome = true ∧ (granting (fun c => { c with upcallQ := [upcall] })).rotationSlot = none ∧
    (granting (fun c => { c with startQ := [upcall], lastClass := 2 })).turnClass = some 0 ∧ upcall.fromRing = none ∧ (fullDq.c.dqLive = true) ∧ fullDq.rotationSlot.isSome = true ∧ fullDq.turnClass = some 2 ∧
    (Core.popBot { fullDq.c with lastClass := 2 } (fun _ => true)).1 = some { rec0 with launch := 1 } ∧ (modC s0 (fun c => { c with fenced := true })).halted = true ∧ dispatching.turnClass = some 1 ∧ dispatching.c.trace.creates = [] ∧
    dispatching.dispatchable.find? (fun x => x.job == 7 && x.decl.num == 3) = some slH ∧ slH.next = some { key := 6, value := 30, mag := 30, label := 2 } ∧ dispatching.d.sliceAt 0 7 3 = some slH ∧
    (modD s0 (fun d => { d with cycle := 1, periods := 1 })).d.cycle < 52500 ∧ 52500 * s0.d.periods ≤ s0.d.cycle := by decide +kernel
/-- R432, R210, R336. -/
theorem test_slots : after (exec (.slotGrant 0) (granting (fun c => { c with upcallQ := [upcall] }))) (fun t => t.c.upcallQ == [] && t.whole.tasks.any (fun p => p.2.tid == 0x99 && p.2.status == .ready)) ∧
    after (exec (.slotGrant 0) (granting (fun c => { c with startQ := [upcall], lastClass := 2 }))) (fun t => t.c.startQ == [] && t.c.lastClass == 0 && t.whole.tasks.any (fun p => p.2.tid == 0x99)) ∧
    after (exec (.slotGrant 0) fullDq) (fun t => t.c.lastClass == 2 && t.whole.tasks.any (fun p => p.2.g[1].bits == 11 && p.2.g[2].bits == 22)) ∧
    after (exec (.emberDispatch 0 7 3) dispatching) (fun t => sliceIs t (fun z => z.embers.map (·.key) == [5] && z.handlers == 1) && t.whole.tasks.any (fun p => p.2.pc == 0x100010000 && p.2.kind == 2 && p.2.g[1].bits == 6 && p.2.g[2].bits == 30)) ∧
    after (exec .qosPeriodStart s0) (fun t => t.d.periods == s0.d.periods + 1) := by decide +kernel

/-! ### A registration that is accepted: an image at 0x100100000 with one kernel, whose measurements are what the uninterpreted hash says -/

def textAt : Nat := 0x100020000
/-- The kernel's 32 fixed bytes: its text of 64 bytes, priority 3, stealing within a cluster. -/
def fixed32 : List Byte := toBytes 32 (textAt * 2 ^ 64 + 64 * 2 ^ 128 + 3 * 2 ^ 192 + 2 * 2 ^ 200)
def measured1 : List Byte := List.replicate 68 0 ++ fixed32.drop 4 ++ [0]
def measureK : BitVec 256 := Config.shake256 measured1
def measureI : BitVec 256 := Config.shake256 (toBytes 32 measureK.toNat)
/-- The header, the section records of the text and of the kernel headers, the text, the kernel header, and the strings: the empty one and "a". -/
def image1 : List Byte :=
  toBytes 64 (0x464F43 + 2 ^ 32 + 2 * 2 ^ 48 + 2 * 2 ^ 64 + 2 ^ 160 + 128 * 2 ^ 192 + 192 * 2 ^ 256 + 320 * 256 ^ 48 + 3 * 256 ^ 56) ++ toBytes 32 measureI.toNat ++ toBytes 32 0 ++
  toBytes 32 (2 ^ 32 + 2 * 2 ^ 40 + 64 * 2 ^ 64 + 192 * 2 ^ 128 + textAt * 2 ^ 192) ++ toBytes 32 (1 + 7 * 2 ^ 32 + 64 * 2 ^ 64 + 256 * 2 ^ 128) ++ toBytes 64 0 ++ fixed32 ++ toBytes 32 measureK.toNat ++ toBytes 64 0x6100
def zipAt : Nat → List Byte → Memory
  | _, [] => []
  | a, b :: r => (a, b) :: zipAt (a + 1) r
/-- The placement table at 0x100110000 starts the kernel on core 0. -/
def sR : State := modD sl1 (fun d => { d with gmem := { d.gmem with mem := su.d.gmem.mem ++ (zipAt 0x100000 image1 ++ [(0x110002, 0x80)]) } })
def request1 : BitVec 512 := BitVec.ofNat 512 (4 * 2 ^ 104 + 3 * 2 ^ 128 + 384 * 2 ^ 160 + 0x100100000 * 2 ^ 256 + 0x100110000 * 256 ^ 40 + 0x100030000 * 256 ^ 56)
def uR : State := sR.modFunc 1 (fun x => { x with request := request1 })
def rootsR : Roots := uR.jobRoots 0 0
def cofR : Cof := { img := image1, secs := sectionsOf image1, ks := rawKernels 1 ((image1.drop 256).take 64) }

theorem toBytes_read (m : Memory) : ∀ n a, toBytes n (m.read a n) = m.bytes a n
  | 0, _ => rfl
  | n + 1, a => by
    have h : ((m.get a).toNat + 256 * m.read (a + 1) n) / 256 = m.read (a + 1) n := by have := (m.get a).isLt; omega
    have k : BitVec.ofNat 8 ((m.get a).toNat + 256 * m.read (a + 1) n) = m.get a := by
      apply BitVec.eq_of_toNat_eq; simp; exact (m.get a).isLt
    rw [Memory.read, toBytes, Memory.bytes, h, k, toBytes_read m n (a + 1)]
theorem ofBytes_toBytes : ∀ n v, ofBytes (toBytes n v) = v % 256 ^ n
  | 0, v => by simp [toBytes, ofBytes, Nat.mod_one]
  | n + 1, v => by simp only [toBytes, ofBytes, ofBytes_toBytes n]; simp [Nat.pow_succ, Nat.mul_comm (256 ^ n), Nat.mod_mul]
theorem get_append (r : Memory) (a : Nat) : ∀ m : Memory, (m.all fun p => decide (p.1 < a)) = true → Memory.get (m ++ r) a = r.get a
  | [], _ => rfl
  | (b, v) :: m, h => by
    simp only [List.all_cons, Bool.and_eq_true, decide_eq_true_eq] at h
    rw [List.cons_append, Memory.get, if_neg (by omega), if_neg (by omega), get_append r a m h.2]
theorem get_zipAt (r : Memory) : ∀ (l : List Byte) (a i : Nat) (h : i < l.length), Memory.get (zipAt a l ++ r) (a + i) = l[i]
  | b :: l, a, 0, _ => by simp [zipAt, Memory.get]
  | b :: l, a, i + 1, h => by
    rw [zipAt, List.cons_append, Memory.get, if_neg (by omega), if_neg (by omega), show a + (i + 1) = a + 1 + i by omega,
      get_zipAt r l (a + 1) i (by simpa using h)]; rfl
theorem bytes_eq (m : Memory) (a : Nat) : ∀ (l : List Byte) (i : Nat), (∀ j, ∀ h : j < l.length, m.get (a + i + j) = l[j]) → m.bytes (a + i) l.length = l
  | [], _, _ => rfl
  | b :: l, i, h => by
    have h0 := h 0 (by simp)
    have h1 := bytes_eq m a l (i + 1) (fun j hj => by rw [show a + (i + 1) + j = a + i + (j + 1) by omega]; exact h (j + 1) (by simpa using hj))
    rw [List.length_cons, Memory.bytes, show a + i + 1 = a + (i + 1) by omega, h1]; simp at h0; rw [h0]
theorem bytes_add (m : Memory) (k : Nat) : ∀ n a, m.bytes a (n + k) = m.bytes a n ++ m.bytes (a + n) k
  | 0, a => by simp [Memory.bytes]
  | n + 1, a => by rw [show n + 1 + k = n + k + 1 by omega, Memory.bytes, Memory.bytes, bytes_add m k n, List.cons_append, show a + 1 + n = a + (n + 1) by omega]
/-- One line of a job's memory is read at a constant distance. -/
def lineOk (s : State) (r : Roots) (a n dist l : Nat) : Bool :=
  match combine s.d r .load false (max a (64 * l)) with
  | .ok e => !e.comp && !(s.d.gpoisoned e.comp (e.at (max a (64 * l))) (min (a + n) (64 * l + 64) - max a (64 * l))) && e.at (max a (64 * l)) + dist == max a (64 * l)
  | .error _ => false
theorem jobRead_ok (s : State) (r : Roots) (a n dist : Nat) : ∀ ls, ls.all (lineOk s r a n dist) = true →
    s.jobRead r ls a n = .ok (ls.flatMap (fun l => s.d.gmem.mem.bytes (max a (64 * l) - dist) (min (a + n) (64 * l + 64) - max a (64 * l))))
  | [], _ => rfl
  | l :: ls, h => by
    simp only [List.all_cons, Bool.and_eq_true] at h
    obtain ⟨h1, h2⟩ := h
    unfold lineOk at h1
    rw [State.jobRead]
    split at h1
    · rename_i e he
      simp only [Bool.and_eq_true, Bool.not_eq_true', beq_iff_eq] at h1
      obtain ⟨⟨h3, h4⟩, h5⟩ := h1
      have h6 : e.at (max a (64 * l)) = max a (64 * l) - dist := by omega
      rw [h3, h6] at h4
      simp [he, h3, h6, h4, jobRead_ok s r a n dist ls h2, Device.gread, toBytes_read]
    · exact absurd h1 (by simp)

theorem uR_mem : uR.d.gmem.mem = su.d.gmem.mem ++ (zipAt 0x100000 image1 ++ [(0x110002, 0x80)]) := rfl
theorem image1_length : image1.length = 384 := by decide +kernel
theorem uR_image : uR.d.gmem.mem.bytes 0x100000 384 = image1 := by
  have h := bytes_eq uR.d.gmem.mem 0x100000 image1 0 (fun j hj => by
    rw [uR_mem, get_append _ _ _ (List.all_eq_true.mpr fun p hp => ?_)]
    · exact get_zipAt _ image1 0x100000 j hj
    · have := List.all_eq_true.mp (show (su.d.gmem.mem.all fun p => decide (p.1 < 0x100000)) = true by decide +kernel) p hp
      simp only [decide_eq_true_eq] at this ⊢; omega)
  rwa [image1_length] at h
theorem uR_units : units 64 0x100100000 384 = [0x4004000, 0x4004001, 0x4004002, 0x4004003, 0x4004004, 0x4004005] := by decide +kernel
theorem readImage : uR.jobBytes rootsR 0x100100000 384 = .ok image1 := by
  rw [State.jobBytes, jobRead_ok uR rootsR _ _ 0x100000000 _ (by decide +kernel), uR_units, ← uR_image]
  simp only [List.flatMap_cons, List.flatMap_nil, List.append_nil]
  rw [show (384 : Nat) = 64 + (64 + (64 + (64 + (64 + 64)))) from rfl]
  simp only [bytes_add]
  rfl
theorem measured_eq : (cofR.ks.map fun k => k.measured cofR.secs image1) = [measured1] := by decide +kernel
theorem cofR_form : (headerOk image1 && cofR.secs.all (fun x => x.ok image1.length && nameOk image1 x.name) && placementsOk image1 cofR.secs && symbolsOk image1 &&
    recordsOk cofR.secs 1 cofR.ks && cofR.ks.all (fun k => k.ok image1 cofR.secs) && partiesOk image1 cofR.ks && namesOk image1 cofR.ks && handlersOk cofR.secs image1 cofR.ks &&
    decide ((storeAddrs cofR.ks).length ≤ 256) && (extentOf cofR.secs 5).isNone && bytesAt image1 20 4 == 1 &&
    ((cofR.secs.find? (fun x => x.kind == 7)).map (fun x => (x.off, x.size, x.kind))) == some (256, 64, 7)) = true := by decide +kernel
theorem sliceK : bytesAt image1 288 32 = ofBytes (toBytes 32 measureK.toNat) := by
  unfold bytesAt; congr 1
theorem sliceI : bytesAt image1 64 32 = ofBytes (toBytes 32 measureI.toNat) := by
  unfold bytesAt; congr 1
theorem kernels_eq : cofR.ks.map RawKernel.measure = [BitVec.ofNat 256 (bytesAt image1 288 32)] := by rfl
theorem hash_back (h : BitVec 256) : BitVec.ofNat 256 (ofBytes (toBytes 32 h.toNat)) = h := by
  rw [ofBytes_toBytes]; apply BitVec.eq_of_toNat_eq; have := h.isLt; simpa using this
theorem readCof_image1 : readCof image1 = some cofR := by
  have h := cofR_form
  simp only [Bool.and_eq_true, beq_iff_eq, Option.isNone_iff_eq_none] at h
  obtain ⟨⟨h, hn⟩, h9⟩ := h
  obtain ⟨h, h5⟩ := h
  obtain ⟨x, hx, hv⟩ := Option.map_eq_some_iff.mp h9
  simp only [Prod.mk.injEq] at hv
  have hk : rawKernels 1 (((sectionsOf image1).find? (fun x => x.kind == 7)).elim [] (fun x => x.bytes image1)) = cofR.ks := by
    rw [show (sectionsOf image1).find? (fun x => x.kind == 7) = some x from hx]
    simp only [Option.elim_some, Section.bytes, hv, show (7 : Nat) ≠ 4 by decide, if_false]; rfl
  have hm : cofR.ks.map (fun k => k.measurement (sectionsOf image1) image1) = [measureK] := by
    have := congrArg (List.map Config.shake256) measured_eq
    simpa [List.map_map, Function.comp_def, RawKernel.measurement, measureK, show cofR.secs = sectionsOf image1 from rfl] using this
  simp only [show cofR.secs = sectionsOf image1 from rfl] at h h5
  unfold readCof
  simp only [hn, hk, hm, h, h5, kernels_eq, sliceK, sliceI, hash_back, List.flatMap_cons, List.flatMap_nil, List.append_nil]
  simp [measureI, cofR]

def kernelsR : List Kernel := placeAll cofR cofR.ks [toBytes 16 (2 ^ 23)]
theorem exceptEq {α : Type} [DecidableEq α] {e : Except XFail α} {v : α} (h : (match e with | .ok b => b == v | .error _ => false) = true) : e = .ok v := by
  cases e <;> simp_all
theorem readRequestR : uR.readRequest rootsR (requestOf request1) = .ok (some (cofR, kernelsR, [], true)) := by
  have h1 : uR.jobBytes rootsR (requestOf request1).imageva (requestOf request1).imagesize = .ok image1 := by
    rw [show (requestOf request1).imageva = 0x100100000 by decide +kernel, show (requestOf request1).imagesize = 384 by decide +kernel, readImage]
  have h2 : uR.jobBytes rootsR (requestOf request1).placeva (16 * cofR.ks.length) = .ok (toBytes 16 (2 ^ 23)) := exceptEq (by decide +kernel)
  have h3 : (requestOf request1).authn = 0 := by decide +kernel
  have h4 : (requestOf request1).authva = 0 := by decide +kernel
  have h5 : uR.jobBytes rootsR 0 0 = .ok [] := exceptEq (by decide +kernel)
  simp only [State.readRequest, h1, readCof_image1, h2, h3, h4, Nat.mul_zero, h5]
  rfl
/-- The hypotheses of an accepted registration, all together. -/
theorem witness_GraphCommands_register : (sR.d.func 1).valid = true ∧ (sR.d.func 1).result.toNat % 2 = 1 ∧ (requestOf request1).ok 1 (sR.d.func 1) = true ∧
    (uR.jobRoots (sR.d.func 1).part (requestOf request1).job) = rootsR ∧ uR.readRequest rootsR (requestOf request1) = .ok (some (cofR, kernelsR, [], true)) ∧
    uR.checkGraph ((requestOf request1).graph cofR 1 (sR.d.func 1) kernelsR []) cofR rootsR = 0 ∧
    sR.d.freeIndex (sR.d.func 1).part = some 0 ∧ (uR.writeSections rootsR cofR.img cofR.secs).toBool = true :=
  by refine ⟨?_, ?_, ?_, ?_, readRequestR, ?_, ?_, ?_⟩ <;> decide +kernel

/-! ### Pre-emption and restore, and pages shared with the host -/

def asked (s : State := s0) (tid : Tid := 0x77) : State := modD s (fun d => { d with parts := d.parts.set 0 { Part.reset with preempting := [tid], sup := mb 2 0x77 } })
theorem witness_PreemptionAndRestore_still : (asked).Still := by simp only [State.Still]; decide +kernel
/-- The state in which the task has been saved, and its context is read back. -/
def gone : State := ran (execPreemption 0 0x77 asked)
theorem witness_PreemptionAndRestore : s0.t.status ≠ .vacant ∧ s0.t.onHearth = false ∧ (s0.d.partState s0.part).preempting.contains 0x77 = false ∧ ((asked).d.partState 0).preempting.contains 0x77 = true ∧ (asked).t.anchor = none ∧
    ((asked).d.poolFit 0 64 (((asked).c.saved (asked).t.stopUnit 0xFF none none false).bytes 0).length).isSome = true ∧
    (asked).c.trace.chunkTask = none ∧ ((asked s0 0x99).focusTask 0 0x99).isNone = true ∧ (asked s0 0x99).ended 0x99 = true ∧ (s0.d.savedOf 0x77).isNone = true ∧
    (gone.d.savedOf 0x77).any (fun v => v.mayReturn && gone.restorable v 0 && v.task.anchor.isNone && gone.c.spadJob == v.task.job && v.core == 0 && !({ v with slot := some 1 } : Saved).mayReturn &&
      (readContext gone.d.gmem.mem v).any (fun u => u.task.replay == [])) = true ∧ gone.halted = false ∧ gone.rotationSlot.isSome = true := by decide +kernel
/-- R343, R345, R369: the command ends with the task saved; it returns as its area then says; a task that has ended is not found. -/
theorem test_preempt : after (exec (.preemption 0 0x77) asked) (fun t => t.t == Task.vacant && t.d.saved.map (fun v => (v.core, v.task.tid, v.task.pc)) == [(0, 0x77, 0x100010000)] && (t.d.partState 0).sup.result == 1 && (t.d.partState 0).preempting == []) ∧
    after (exec (.taskRestore 0 0x77) gone) (fun t => t.t.tid == 0x77 && t.t.g[5] == regs[5] && t.t.status == .ready && t.d.saved == []) ∧ after (exec (.preemption 0 0x77) s0) (fun t => t.t == tk) ∧
    after (exec (.preemption 0 0x99) (asked s0 0x99)) (fun t => (t.d.partState 0).sup.result == 0x41 && t.t == tk) := by decide +kernel

/-- Second-stage tables of VMID 5 whose entry of IA 0x1000 is w; function 1 is the host of partition 0, with slot 2, and a decoder gives host address 0x800000001000 the IA 0x1000. -/
def shared (w : Nat) (flips : List Flip) : State := modD (modC s0 (fun c => { c with jobs := [{ jr with vmid := 5, pt2root := 0x8000 }] })) (fun d => { d with
    gmem := { d.gmem with mem := ((((Memory.write [] 0x8000 8 0x9001).write 0x9000 8 0xA001).write 0xA000 8 0xB001).write 0xB000 8 0xC001).write 0xC008 8 w }, flips, boot := { d.boot with cxlUp := true }
    funcs := d.funcs.set 1 { Func.reset with valid := true, host := true, slot := 2 }
    hdm := d.hdm.set 0 { base := 0x800000000000, size := 0x10000, en := true, iabase := 0, slot := 2, vmid := 5 } })
/-- A page of the host at the frame 0x20000; one of the device with the label of slot 2. -/
def hostPg : Nat := 0x20000 + 2 ^ 8
def devPg : Nat := 0x20000 + 0x1B + 4 * 2 ^ 48
def flip1 : Flip := { vmid := 5, ia := 0x1000, part := 0, frame := 0x20000, hostPa := none, begun := true }
/-- A request of the host for the same page. -/
def flipH (begun : Bool) : Flip := { flip1 with hostPa := some 0x5000, begun }
def waitingFlip : State := modT (shared hostPg [flip1]) (fun t => { t with status := .parked (.flip 5 0x1000) })
def down (s : State) : State := modD s (fun d => { d with boot := { d.boot with cxlUp := false } })
theorem witness_PageFlips : waitingFlip.d.flips.find? (fun f => f.vmid == 5 && f.ia == 0x1000 && f.hostPa.isNone && f.begun) = some flip1 ∧ (shared hostPg [flipH false]).d.flips.find? (fun f => f.vmid == 5 && f.ia == 0x1000 && f.hostPa.isNone && f.begun) = none ∧
    waitingFlip.d.boot.cxlUp = true ∧ (down waitingFlip).d.boot.cxlUp = false ∧ waitingFlip.pageOf 5 0x1000 = some (0xC008, hostPg) ∧ (shared devPg [flip1]).pageOf 5 0x1000 = some (0xC008, devPg) ∧ hostOwned hostPg = true ∧ hostOwned devPg = false ∧
    bitsOf hostPg 9 1 = 0 ∧ bitsOf hostPg 12 36 * 4096 = 0x20000 ∧ waitingFlip.d.fencedChannels = [] ∧ waitingFlip.d.gmem.mem.wf = true ∧ 0x20000 + 4096 ≤ hostBase ∧ 0xC008 + 8 ≤ 0x20000 ∧ waitingFlip.t.status = .parked (.flip 5 0x1000) ∧
    s0.vmRoot 5 = none ∧ (shared devPg []).vmRoot 5 = some (0, 0x8000) ∧ ((shared devPg [flipH false]).d.flips.filter (fun g => g.vmid == 5 && g.ia == 0x1000)).getLast? = some (flipH false) ∧
    ((shared devPg [flip1]).d.flips.filter (fun g => g.vmid == 5 && g.ia == 0x1000)).getLast? = some flip1 ∧ s0.d.pidx < s0.d.cidx + 4096 ∧
    (match walk2 (shared devPg [flipH false]).d 0 .load 0x1000 5 0x8000 with | .ok lf => lf.lvl == 0 && lf.tier == 0 && lf.label.sub 4 && lf.ent == 0xC008 | .error _ => false) = true ∧ ((shared devPg []).d.hostFunc 0).map (fun q => q.2.slot) = some 2 ∧
    (match walk2 (shared (devPg + 2 ^ 48) []).d 0 .load 0x1000 5 0x8000 with | .ok lf => !(lf.label.sub 4) | .error _ => false) = true ∧
    (shared devPg [flipH true]).d.cores = [] ∧ (shared devPg [flipH true]).c.scb = [] ∧ (shared devPg [flipH true]).frameBusy 0x20000 = false ∧ (flipH true).frame + 4096 ≤ hostBase := by decide +kernel
theorem witness_HostMemory : (shared devPg []).d.boot.cxlUp = true ∧ (shared devPg []).hostPage .load 0x1000 = none ∧ ((shared devPg []).hostPage .store 0x800000001010).map (fun x => (x.1.comp, x.2)) = some (false, 0x20010) ∧
    ((shared devPg []).hostPage .load 0x800000001010).map (fun x => (x.1.comp, x.2)) = some (false, 0x20010) ∧ (shared devPg []).d.fencedChannels = [] ∧ (shared devPg []).d.gmem.mem.wf = true ∧ s0.d.pidx < s0.d.cidx + 4096 ∧
    0x1010 % 64 + 4 ≤ 64 := by decide +kernel
/-- R318, R319: there is no page, so the entry loses its host bit and the task goes on; a request of the host is queued, and refused where the page does not exist; it begins with the entry given to
the host, or ends at a label that the host's slot does not pass. R321: a host write, and a refused one; what a read receives. -/
theorem test_host_pages : after (exec (.flipGrant 5 0x1234 none) waitingFlip) (fun t => t.t.status == .ready && t.d.flips == [] && t.d.gmem.mem.read 0xC008 8 == 0x20000) ∧
    after (exec (.flipToHost 5 0x1000 0x5000) (shared devPg [])) (fun t => t.d.flips == [flipH false]) ∧ after (exec (.flipToHost 6 0x1000 0x5000) (shared devPg [])) (fun t => t.d.hostSees == [.refused 6 0x1000]) ∧
    ((shared devPg [flipH false]).turnFlip (flipH false)).d.gmem.mem.read 0xC008 8 = devPg - 1 + 256 ∧ ((shared (devPg + 2 ^ 48) [flipH false]).turnFlip (flipH false)).d.hostSees = [.refused 5 0x1000] ∧
    after (exec (.hostMemWrite 0x800000001010 [1, 2]) (shared devPg [])) (fun t => t.d.gmem.mem.read 0x20010 2 == 0x201 && t.d.causes == []) ∧
    after (exec (.hostMemWrite 0x1010 [1, 2]) (shared devPg [])) (fun t => t.d.gmem.mem.read 0x20010 2 == 0 && t.d.causes.map (fun e => (e.kind, e.part)) == [(2, 0xFF)]) ∧
    after (exec (.hostMemRead 0x800000001010 2) (ran (exec (.hostMemWrite 0x800000001010 [1, 2]) (shared devPg [])))) (fun t => t.d.hostSees == [.line 0x800000001010 [1, 2] false]) ∧
    after (exec (.hostMemRead 0x1010 4) (shared devPg [])) (fun t => t.d.causes.map (fun e => (e.kind, e.part)) == [(2, 0xFF)] && t.d.hostSees == [.line 0x1010 [0xFF, 0xFF, 0xFF, 0xFF] true]) := by decide +kernel

/-! ### Fences, errors and the power manager -/

/-- A task of launch 1 is saved on core 0. -/
def savedL : State := ran (execPreemption 0 0x77 (asked st))
theorem witness_Fences : savedL.d.saved.any (fun v => v.core == 0 && (savedL.d.launchOf v.task.launch).isSome) = true ∧ savedL.isFenced (.core 0) = false ∧ savedL.c.hearth = none ∧ savedL.t.onHearth = false ∧ savedL.c.id = 0 ∧
    s0.isFenced (.core 0) = false ∧ s0.c.hearth = none ∧ s0.t.onHearth = false ∧ s0.isFenced (.slice 1) = false ∧ s0.isFenced (.channel 0 3) = false ∧ s0.isFenced (.link 5) = false ∧ s0.isFenced (.die 1) = false ∧
    (modC s0 (fun c => { c with fenced := true })).isFenced (.core 0) = true ∧ (st.whole.tasks.any (fun q => q.2.launch == 1)) = true ∧ st.d.launchOf 1 = some launch1 ∧ s0.d.pidx < s0.d.cidx + 4096 := by decide +kernel
/-- R356. -/
theorem test_fences_of_functions : after (exec (.fence (.core 0)) st) (fun t => t.c.fenced && t.halted && t.d.fencedSlices == [0] && t.whole.tasks == [] && t.d.dumps.length == 1 && t.d.launches.all (fun l => l.state == .withdrawing) &&
      t.d.boot.journal.length == 1 && t.d.causes.map (·.kind) == [1]) ∧
    after (exec (.fence (.core 0)) savedL) (fun t => t.d.launches.all (fun l => l.state == .withdrawing)) ∧
    after (exec (.fence (.channel 0 3)) s0) (fun t => t.d.fencedChannels == [(0, 3)] && t.d.boot.journal.length == 1) ∧ after (exec (.fence (.link 5)) s0) (fun t => t.d.fabric.links[5].fenced && !t.d.fabric.links[5].up) ∧
    after (exec (.fence (.die 1)) s0) (fun t => t.d.stopped 1 && !t.d.stopped 0) := by decide +kernel

def budget (n : Nat) (l : List Nat) : State := modD s0 (fun d => { d with parts := d.parts.set 0 { Part.reset with qos := Part.reset.qos.set 33 (BitVec.ofNat 64 n) }, corrected := l })
theorem witness_MemoryErrors : placeHolds .phys 0x1000 = true ∧ placeHolds .phys hostBase = false ∧ placeHolds .shared 0x40000000 = true ∧ placeHolds (.spad 0) 0x1000 = true ∧ placeHolds (.tile 0) 512 = false ∧ s0.t.status ≠ .vacant ∧
    s0.t.onHearth = false ∧ s0.c.port.toNat < 24 ∧ (budget 64 [3]).d.corrected.find? (fun l => dieOfPa (64 * l) == 0) = some 3 ∧ (budget 64 [3]).d.leftOf 0 1 = 64 ∧ (budget 63 [3]).d.leftOf 0 1 = 63 ∧
    (∀ l ∈ (budget 64 [3]).d.corrected, dieOfPa (64 * l) ≠ 1) := by decide +kernel
/-- R51, R357, R358: marks and counts; the bytes stay. -/
theorem test_errors : after (exec (.uncorrectableError .phys 0x1008) s0) (fun t => t.d.gmem.poison == [0x40] && t.d.gmem.mem == []) ∧ after (exec (.uncorrectableError (.spad 0) 0x1008) sm) (fun t => t.c.spad.poison == [0x40, 0x41] && t.c.spad.mem == bank.mem) ∧
    after (exec (.uncorrectableError (.tile 0) 66) s0) (fun t => t.c.tiles[1].poison == 4 && t.c.tiles[0].poison == 0) ∧ after (exec (.softError (.regs 0) (16 * tk.age + 5)) s0) (fun t => t.t.gpoison == 32) ∧
    after (exec (.softError (.regs 0) 384) s0) (fun t => t.t.parity) ∧ after (exec (.softError .phys 0x1008) s0) (fun t => t.d.corrected == [0x40] && t.d.gmem.poison == [] && t.d.dieBanks[0].counts[4] == 1) ∧
    after (exec (.softError (.spad 0) 0x1008) s0) (fun t => t.c.bank.counts[17] == 1 && t.c.spad.poison == []) ∧ after (exec (.scrub 0) (budget 64 [3])) (fun t => t.d.corrected == [] && t.d.dieBanks[0].counts[11] == 1) ∧
    after (exec (.scrub 0) (budget 63 [3])) (fun t => t.d.corrected == [3]) ∧ after (exec (.uncorrectableError .phys hostBase) s0) (fun t => t.d.gmem.poison == []) := by decide +kernel
/-- R424. -/
theorem test_power : after (exec (.junctionTemperature 2 115) s0) (fun t => t.d.stopped 2) ∧ after (exec (.junctionTemperature 2 104) s0) (fun t => t.d.withheld == s0.d.withheld && t.d.free == s0.d.free) ∧
    after (exec (.vcoreCurrentLimit 1) s0) (fun t => t.d.free == s0.d.free + 1 && t.t == tk) := by decide +kernel

/-! ### The fabric: device 3, whose port 5 admits pod job 9 to partition 0 as job 7 and leads to device 5; a link that is up, and its first group is expected next -/

def linkU : Link := { Link.reset with up := true, recvSeq := 8, sendSeq := 4, recvKeys := #v[some (1, 2), none], sendKeys := #v[some (3, 4), none], kept := [(0, false, [])] }
def fab : State := modD s0 (fun d => { d with cycle := 42000, fabric := { d.fabric with
    device := 3, jobs := [(0, { pod := 9, job := 7, part := 0, valid := true })], routes := [(5, 0x20)], links := d.fabric.links.set 5 linkU } })
/-- Four flit headers of a group under bank 0, numbered from n, without a packet. -/
def flits (n : Nat) : BitVec 256 := BitVec.ofNat 256 ((n + (n + 1) * 2 ^ 64 + (n + 2) * 2 ^ 128 + (n + 3) * 2 ^ 192) * 2 ^ 38)
theorem witness_LinkEvents : fab.d.fabric.links[(5 : BitVec 5).toNat]? = some linkU ∧ linkU.up = true ∧ linkU.fails.1 < 1000 ∧ linkU.retried.2 < 15 ∧ linkU.stream = [] ∧ Link.reset.up = false ∧
    (∀ i < 4, bitsOf (bitsOf (flits 8).toNat (64 * i) 64) 63 1 = 0 ∧ bitsOf (bitsOf (flits 8).toNat (64 * i) 64) 38 24 = (linkU.recvSeq + BitVec.ofNat 24 i).toNat) ∧ bitsOf (bitsOf (flits 9).toNat 0 64) 38 24 ≠ linkU.recvSeq.toNat ∧
    bitsOf (flits 8).toNat 254 1 = 0 ∧ linkU.sendKeys[0] ≠ none ∧ linkU.sendKeys[1] = none ∧ linkU.recvKeys[0] ≠ none ∧ linkU.recvKeys[1] = none ∧ bankIndex linkU.sendGen = 0 ∧ ackCovers 3 (0 + 3) = true := by decide +kernel
/-- Whatever the cipher opens the group to, it is one of the answers that the statement speaks of. -/
theorem witness_LinkEvents_opened (payload : List Byte) (tag : BitVec 128) : ∃ (b : Option (List Byte)) (key : BitVec 256) (salt : BitVec 32), linkU.recvKeys[0]? = some (some (key, salt)) ∧
    Config.gcmOpen key (groupIv salt (linkU.recvCount[0]?.getD 0)) (flits 8) payload tag = b := ⟨_, 1, 2, rfl, rfl⟩
/-- R382, R383, R396: a group whose numbers do not agree asks for a NAK; a NAK that acknowledges the first group; a key into each idle bank; a link that is taken down. -/
theorem test_links : after (exec (.flitGroupReceive 5 (flits 9) [] 0) fab) (fun t => t.d.fabric.links[5].recvSeq == 8 && t.d.fabric.links[5].fails.1 == 1) ∧ after (exec (.nak 5 3) fab) (fun t => t.d.fabric.links[5].kept == []) ∧
    after (exec (.nak 5 0) fab) (fun t => t.d.fabric.links[5].kept.map (·.1) == [0]) ∧ after (exec (.rekey 5 true) fab) (fun t => t.d.fabric.links[5].sendGen && t.d.fabric.links[5].sendKeys[1].isSome) ∧
    after (exec (.rekey 5 false) fab) (fun t => !t.d.fabric.links[5].recvGen && t.d.fabric.links[5].recvKeys[1].isSome) ∧ after (exec (.linkDown 4) fab) (fun t => t.d.boot.journal == []) := by decide +kernel

def hdr (seq op dst : Nat) : BitVec 256 := BitVec.ofNat 256 (op + (dst * 4096 + 1) * 2 ^ 80 + (5 * 4096) * 2 ^ 104 + seq * 2 ^ 144 + 9 * 2 ^ 160)
def srcG (cache : List CachedReply) (ahead : List (BitVec 5 × Packet) := []) : Source := { src := 5 * 4096, part := 0, high := 6, cache, last := 0, ahead, granted := true }
def known (x : Source) : State := modD fab (fun d => { d with cycle := 105000, fabric := { d.fabric with sources := [x] } })
theorem witness_RequestSequence : Endpoint.dev (headerOf (hdr 7 0x0F 3).toNat).dst = fab.d.fabric.device ∧ Endpoint.dev (headerOf (hdr 7 0x0F 4).toNat).dst ≠ fab.d.fabric.device ∧ fab.d.jobAt 5 (headerOf (hdr 7 0x0F 3).toNat).job = some (0, 7) ∧
    fab.d.jobAt 5 8 = none ∧ (known (srcG [])).d.fabric.source 0 (headerOf (hdr 7 0x0F 3).toNat).src = some (srcG []) ∧ (srcG []).granted = true ∧ seqAhead 6 7 = 1 ∧ seqAhead 6 6 = 0 ∧ seqAhead 6 9 = 3 ∧ 256 < seqAhead 6 5 ∧
    (headerOf (hdr 7 0x0F 3).toNat).op = 0x0F ∧ Endpoint.valid (headerOf (hdr 7 0x0F 3).toNat).dst = true ∧ (headerOf (hdr 7 0x0F 3).toNat).reserved = false ∧ (known (srcG [])).d.fabric.pending = [] ∧ (srcG []).last + 105000 ≤ (known (srcG [])).d.cycle := by decide +kernel
def srcIs (o : Out) (p : State → Source → Bool) : Bool := after o (fun t => (t.d.fabric.source 0 (5 * 4096)).any (p t))
/-- R386, R391, R392: one for another device; one of a job that the port does not let in; the next request, one ahead, a repeated one and an old one; a source that is reclaimed; a new window. -/
theorem test_requests : after (exec (.fabricRequest 5 (hdr 7 0x0F 4) []) (known (srcG []))) (fun t => t.d.fabric.dropped == 1) ∧
    srcIs (exec (.fabricRequest 5 (hdr 7 0x0F 3) []) (known (srcG []))) (fun t x => x.high == 7 && x.cache.map (fun c => (c.seq, c.reply.isSome)) == [(7, true)] && t.d.fabric.dropped == 0) ∧
    srcIs (exec (.fabricRequest 5 (hdr 9 0x0F 3) []) (known (srcG []))) (fun _ x => x.high == 6 && x.ahead.map (fun q => q.2.hdr.seq) == [9]) ∧
    srcIs (exec (.fabricRequest 5 (hdr 6 0x0F 3) []) (known (srcG [{ seq := 6, reply := none }]))) (fun t x => x.high == 6 && x.cache.length == 1 && t.d.fabric.dropped == 0) ∧
    srcIs (exec (.fabricRequest 5 (hdr 5 0x0F 3) []) (known (srcG []))) (fun t x => x.high == 6 && t.d.fabric.dropped == 1) ∧ srcIs (exec (.replyCacheReclaim (5 * 4096)) (known (srcG []))) (fun _ x => !x.granted && x.high == 6) ∧
    after (exec (.rmsync { jobs := [(2, BitVec.ofNat 128 (9 + 7 * 2 ^ 16 + 2 ^ 32 + 2 ^ 34))], routes := [(6, 1)], regions := [] }) fab) (fun t => t.d.fabric.jobs == [(2, { pod := 9, job := 7, part := 1, valid := true })] && t.d.fabric.routes == [(6, 1)]) := by decide +kernel

/-- A load of core 0 from device 5 that was sent in cycle 0. -/
def askP : Packet := { hdr := headerOf (hdr 7 1 5).toNat, data := [] }
def opP : PendOp := { op { acc with home := .peer 5 } .sent with peer := true, dev := 5, packet := some askP }
def sentP (now : Nat) : State := modD (modT fab (fun t => { t with ops := [opP], buf := [.wait 7 (.g 14)] })) (fun d => { d with cycle := now })
/-- The same without a path to device 5. -/
def cut (s : State) : State := modD s (fun d => { d with fabric := { d.fabric with routes := [] } })
def answered (now : Nat) : State := modD fab (fun d => { d with cycle := now, fabric := { d.fabric with lastReply := [(0, 5, 100, 9)] } })
theorem witness_RequestsInTime : (sentP 8400).unanswered 0 7 = some (askP, 0, 0) ∧ fab.unanswered 0 7 = none ∧ (cut (sentP 8400)).unanswered 0 7 = some (askP, 0, 0) ∧ (cut (sentP 8400)).d.pathTo 0 (Endpoint.dev askP.hdr.dst) = none ∧ Endpoint.core askP.hdr.src = 0 ∧ (sentP 0).d.pathTo 0 5 = some 5 ∧ (sentP 0).d.pathTo 0 6 = none ∧ (sentP 0).d.pathTo 0 (Endpoint.dev askP.hdr.dst) = some 5 ∧ (sentP 0).t.onHearth = false ∧
    opP.id = 7 ∧ opP.kind = .access { acc with home := .peer 5 } ∧ (sentP 42000).focusOp 0 7 = some (opP, sentP 42000) ∧ (answered 2200).d.fabric.lastReply.find? (fun p => p.1 == 0 && p.2.1 == 5) = some (0, 5, 100, 9) ∧
    ((sentP 0).peerOps 0).any (fun x => x.dev == 5 && x.stage.isSent) = true ∧ (answered 2200).peerOps 0 = [] ∧ (answered 2200).d.peerLines = [] := by
  and_intros <;> first | rfl | decide +kernel
/-- R391 to R393. -/
theorem test_resend : after (exec (.requestResend 0 7) (sentP 8400)) (fun t => t.t.ops.map (·.resends) == [1] && t.d.fabric.out.length + t.d.fabric.links[5].tx.length > 0) ∧ after (exec (.requestResend 0 7) (cut (sentP 8400))) (fun t => t.t.ops.map (·.resends) == [1] && t.d.fabric.out.length + t.d.fabric.links[5].tx.length == 0) ∧
    after (exec (.requestResend 0 7) (sentP 8399)) (fun t => t.t.ops.map (·.resends) == [0]) ∧
    after (exec (.requestTimeout 0 7) (sentP 42000)) (fun t => t.t.ops == [] && t.d.dumps.map (fun d => d.causew.toNat % 256) == [0x11]) ∧
    after (exec (.acknowledgementPacket 0 5) (answered 2200)) (fun t => t.d.orphans.map (fun x => x.2.2.kind) == [.ack] && t.d.fabric.lastReply == []) ∧
    after (exec (.acknowledgementPacket 0 5) (answered 2199)) (fun t => t.d.orphans == []) := by decide +kernel

/-! ### Power, bring-up and attestation -/

/-- A release of reset in the second boot, with a SKIP record of the first for link 1 of die 2, and with a byte in host memory. -/
def booting : State := modD s0 (fun d => { d with gmem := { d.gmem with mem := [(0x1000, 1), (hostBase, 2)] }, boot := { d.boot with count := 1, journal := [jRecord 0 0 0 0 1 0, jRecord 3 4 6 0 1 0] } })
/-- Without an image of either kind bring-up stops at step 1. Whether an image is valid is the answer of uninterpreted functions (R426): a slot that holds an accepted one is used. -/
theorem witness_PowerAndBringUp : booting.d.boot.select 1 booting.d.boot.firmware = none ∧ booting.d.boot.next = 2 ∧ (({ booting.d.boot with count := booting.d.boot.next } : Boot).waiting 4 6).isSome = true ∧
    (({ booting.d.boot with count := booting.d.boot.next } : Boot).waiting 4 7).isNone = true ∧ skippable 2 4 3 = true ∧ skippable 2 5 3 = false ∧ (6 % 4 = 2 ∧ 3 ≤ 4 ∧ 4 ≤ 9) := by decide +kernel
theorem witness_PowerAndBringUp_images (b : Boot) (fw cfg : FlashImage) (h : b.accepts 1 fw = true) (k : b.accepts 2 cfg = true) :
    b.select 1 #v[some fw, none] = some fw ∧ b.select 2 #v[none, some cfg] = some cfg := by
  simp [Boot.select, h, k, Option.filter]
/-- R423, R427, R428. -/
theorem test_power_and_reset : after (exec (.powerLoss true) booting) (fun t => t.t == Task.vacant && !t.d.boot.powered && !t.d.boot.cold && t.d.gmem.mem == [(hostBase, 2)] && t.d.boot.journal.length == 2) ∧
    after (exec (.packageReset []) booting) (fun t => t.d.boot.powered && t.d.boot.count == 2 && t.d.boot.stopped[0] == some 1 && t.d.boot.failed.getLsbD 1 && !t.d.boot.released[0] && t.d.gmem.mem == [(hostBase, 2)] && 2 < t.d.boot.journal.length) := by
  decide +kernel

def spdmAt (p : Spdm) : State := modD s0 (fun d => { d with spdm := p })
def spdmDone : Spdm := { started := true, versioned := true, capabilities := true, negotiated := true, session := true, finished := true, generation := 4, out := [] }
theorem witness_Attestation : spdmDone.started = true ∧ spdmDone.versioned = true ∧ spdmDone.capabilities = true ∧ spdmDone.negotiated = true ∧ spdmDone.session = true ∧ spdmDone.finished = true ∧ State.reset.d.spdm.started = false ∧
    ({ spdmDone with negotiated := false } : Spdm).negotiated = false ∧ (extAsym ∈ [0, extAsym]) ∧ ¬(extAsym ∈ [(0 : BitVec 32)]) ∧ (spdmAt spdmDone).d.boot.chain.length ≤ 0 ∧
    0 < (modD (spdmAt spdmDone) (fun d => { d with boot := { d.boot with chain := [1, 2] } })).d.boot.chain.length := by decide +kernel
def said (o : Out) (p : Spdm → Bool) : Bool := after o (fun t => p t.d.spdm)
/-- R430. -/
theorem test_attestation : said (exec .getVersion (spdmAt spdmDone)) (fun p => p.out == [.version] && !p.capabilities && !p.finished) ∧ said (exec .getCapabilities (spdmAt { spdmDone with versioned := false })) (fun p => p.out == [.error]) ∧
    said (exec (.negotiateAlgorithms [extAsym] [0]) (spdmAt spdmDone)) (fun p => p.out == [.error] && !p.negotiated) ∧ said (exec .keyUpdate (spdmAt spdmDone)) (fun p => p.out == [.keyUpdate] && p.generation == 5) ∧
    said (exec .endSession (spdmAt spdmDone)) (fun p => p.out == [.endSession] && !p.session) ∧ said (exec (.getMeasurements 9 0) (spdmAt spdmDone)) (fun p => p.out == [.error]) ∧
    said (exec (.getCertificate 1 5) (modD (spdmAt spdmDone) (fun d => { d with boot := { d.boot with chain := [1, 2] } }))) (fun p => p.out == [.certificate [2]]) ∧ said (exec .getVersion State.reset) (fun p => p.out == []) ∧
    after (exec (.hostSkipAltRecord false 4 6 0) (modD booting (fun d => { d with spdm := spdmDone }))) (fun t => t.d.boot.journal.getLast? == some (jRecord 3 4 6 0 1 0)) ∧
    after (exec (.hostSkipAltRecord false 4 6 0) booting) (fun t => t.d.boot.journal.length == 2) := by decide +kernel

/-! ### A step, decoding and reset -/

/-- A word that the fetch finds: `ialu.add g3, g1, g2`, and one of no encoding. -/
def placed (w : Nat) : State := s0.withFetchWord 32 w
/-- The same in the middle of a unit. -/
def midUnit : State := modT (placed 0x02308800) (fun t => { t with unitPc := 0x100000000, pfxImm := some 1 })
/-- At the boundary of a unit: the state after the turn's round. -/
def turn (w : Nat) : State := State.tick { placed w with d := { (placed w).d with agenda := [] } }
/-- The same once the task is chosen and the core's scratchpad is its job's. -/
def turned (w : Nat) : State := ((turn w).settle.round 0).giveSpad ((turn w).settle.round 0).t.job
def word? (f : Fetched) : Option Nat := match f with | .word w _ => some w | _ => none
theorem witness_StepRunsDecodedInstruction : (placed 0x02308800).d.agenda = [.core 0] ∧ (placed 0x02308800).c.id = 0 ∧ midUnit.t.status = .ready ∧ midUnit.t.atUnit = false ∧ midUnit.t.onHearth = false ∧
    (State.canIssue { midUnit with d := { midUnit.d with agenda := [] } }) = true ∧ State.midUnit { midUnit with d := { midUnit.d with agenda := [] } } = some midUnit.c.port.toNat ∧
    State.midUnit { placed 0x02308800 with d := { (placed 0x02308800).d with agenda := [] } } = none ∧ word? midUnit.fetch = some 0x02308800 ∧ (placed 0x02308800).t.atUnit = true ∧ (turn 0x02308800).canIssue = true ∧ (turn 0x02308800).settle.agesNow = false ∧
    (turn 0x02308800).settle.select = some 0 ∧ (turned 0x02308800).t.atUnit = true ∧ (turned 0x02308800).stopOf.isNone = true ∧ (turned 0x02308800).t.deferred = [] ∧ (turned 0x02308800).t.single = none ∧
    ((turned 0x02308800).execBreak (turned 0x02308800).t.pc).isNone = true ∧ (turned 0x02308800).records (turned 0x02308800).t = false ∧ (turned 0x02308800).replays (turned 0x02308800).t = false ∧ winOf s0.t.pc.toNat = some .glob ∧ s0.d.boot.powered = true ∧ s0.d.agenda = [] ∧ s0.nextCore = s0.c.id ∧ (modD s0 (fun d => { d with rota := { d.rota with kind := 1 } })).d.rota.kind = 1 := by decide +kernel
theorem witness_StepRunsDecodedInstruction_words : decodeWord 0x02308800 = .ok (.ialuAdd false (.g 3) (.g 1) (.g 2)) ∧ decodeWord 0x1E000000 = .error .unassignedMajor := ⟨rfl, rfl⟩
/-- R94, R101: the placed sum is in the buffer after one step, and a word of no encoding raises illegal instruction. -/
theorem test_step : after (step (placed 0x02308800)) (fun t => State.last t 3 == some (8, false, 7) && t.t.pc == 0x100010004) ∧ raised (step (placed 0x1E000000)) 1 0 := by decide +kernel
theorem witness_MemoryStaysCanonical : (placed 0x02308800).Canonical ∧ after (step (placed 0x02308800)) (fun t => t.d.gmem.mem.wf) := by
  unfold State.Canonical; decide +kernel
theorem witness_DecodeEncode : (Instr.ialuAdd false (.g 3) (.g 1) (.g 2)).wf = true ∧ encode (.ialuAdd false (.g 3) (.g 1) (.g 2)) ≠ 0 := by decide +kernel

end Sys2Proof.Machine.Tests
end

/-! The scalar and control family: the integer forms (R133 to R137), the capabilities that are read or moved (R138, R139), the labels
(R148) and the hint words (R104, R105, R149, R150). Each form is one of a few shapes; what a shape leaves under `State.Ready` is said
once, and the function of each form is then a fact about words alone. -/

namespace Sys2Proof.Machine

open Host

/-! ### What the forms of the scalar pipe leave when nothing stands in their way -/

/-- R49 for one source. -/
theorem State.labs_one (s : State) (a : SReg) : s.labs [a] = s.lab a ||| s.t.clabel := BitVec.or_comm _ _

/-- R49 for two sources. -/
theorem State.labs_two (s : State) (a b : SReg) : s.labs [a, b] = s.lab a ||| s.lab b ||| s.t.clabel := by
  have h : s.labs [a, b] = s.labs [a] ||| s.lab b := rfl
  rw [h, State.labs_one, BitVec.or_assoc, BitVec.or_assoc, BitVec.or_comm s.t.clabel]

/-- R49 for three sources. -/
theorem State.labs_three (s : State) (a b c : SReg) :
    s.labs [a, b, c] = s.lab a ||| s.lab b ||| s.t.clabel ||| s.lab c := by
  rw [← State.labs_two]
  rfl

/-- The destination of a ready unit is no maintenance port (R97). -/
theorem State.Ready.srPlain_dest {s : State} {acc : Accept} {srcs : List SReg} {d : SReg} (h : s.Ready acc srcs d) :
    srPlain d = true := by
  obtain ⟨-, -, hd, -⟩ := h
  exact hd

section Ready

variable {s : State} {sw : Bool} {d a b : SReg}

theorem State.alu1_ready {f : Word → Word} {w : Word} (h : s.Ready Accept.none [a] d) (hw : f (s.x a) = w) :
    s.alu1 sw d a f = s.gives true sw d (wordVal w (s.lab a ||| s.t.clabel)) := by
  rw [State.alu1, State.alu_ready _ _ _ _ _ _ h, hw, State.labs_one]

theorem State.alu2_ready {f : Word → Word → Word} {w : Word} (h : s.Ready Accept.none [a, b] d)
    (hw : f (s.x a) (s.x b) = w) :
    s.alu2 sw d a b f = s.gives true sw d (wordVal w (s.lab a ||| s.lab b ||| s.t.clabel)) := by
  rw [State.alu2, State.alu_ready _ _ _ _ _ _ h, hw, State.labs_two]

theorem State.aluS_ready {imm : BitVec 12} {f : Word → Word → Word} {w : Word} (h : s.Ready Accept.immOnly [a] d)
    (hw : f (s.x a) (BitVec.ofInt 64 (s.t.immS 12 imm.toNat)) = w) :
    s.aluS sw d a imm f = s.gives true sw d (wordVal w (s.lab a ||| s.t.clabel)) := by
  rw [State.aluS, State.alu_ready _ _ _ _ _ _ h, hw, State.labs_one]

theorem State.aluZ_ready {imm : BitVec 12} {f : Word → Word → Word} {w : Word} (h : s.Ready Accept.immOnly [a] d)
    (hw : f (s.x a) (BitVec.ofNat 64 (s.t.immZ 12 imm.toNat)) = w) :
    s.aluZ sw d a imm f = s.gives true sw d (wordVal w (s.lab a ||| s.t.clabel)) := by
  rw [State.aluZ, State.alu_ready _ _ _ _ _ _ h, hw, State.labs_one]

/-- A shift by an immediate whose field has no bit above imm[5:0] (R134). -/
theorem State.aluSh_ready {sh : BitVec 6} {f : Word → Nat → Word} {w : Word} (h : s.Ready Accept.immOnly [a] d)
    (h0 : ∀ ext, s.t.pfxImm = some ext → ext = 0) (hw : f (s.x a) sh.toNat = w) :
    s.aluSh sw d a sh f = s.gives true sw d (wordVal w (s.lab a ||| s.t.clabel)) := by
  have hany : s.t.pfxImm.any (· != 0) = false := by
    cases hp : s.t.pfxImm with
    | none => rfl
    | some ext => simp [h0 ext hp]
  rw [State.aluSh, hany, if_neg Bool.false_ne_true, State.alu_ready _ _ _ _ _ _ h, hw, State.labs_one]

/-- A shift whose EXT is not zero is illegal (R134). -/
theorem State.aluSh_refused {sh : BitVec 6} {f : Word → Nat → Word} {ext : BitVec 20} (hp : s.t.pfxImm = some ext)
    (h0 : ext ≠ 0) : s.aluSh sw d a sh f = s.raise 0x01 := by
  have hany : s.t.pfxImm.any (· != 0) = true := by
    rw [hp, Option.any_some, bne_iff_ne]
    exact h0
  rw [State.aluSh, hany, if_pos rfl]

end Ready

/-! ### The functions of R133 in unbounded arithmetic -/

section WordArithmetic

variable {w : Nat} (x y : BitVec w)

theorem add_eq_ofNat : x + y = BitVec.ofNat w (x.toNat + y.toNat) := by
  rw [BitVec.ofNat_add, BitVec.ofNat_toNat, BitVec.ofNat_toNat, BitVec.setWidth_eq, BitVec.setWidth_eq]

theorem sub_eq_ofInt : x - y = BitVec.ofInt w (x.toNat - y.toNat) := by
  rw [Int.sub_eq_add_neg, BitVec.ofInt_add, BitVec.ofInt_neg, BitVec.ofInt_natCast, BitVec.ofInt_natCast,
    BitVec.ofNat_toNat, BitVec.ofNat_toNat, BitVec.setWidth_eq, BitVec.setWidth_eq, BitVec.sub_eq_add_neg]

theorem shiftLeft_eq_ofNat (n : Nat) : x <<< n = BitVec.ofNat w (x.toNat * 2 ^ n) :=
  BitVec.eq_of_toNat_eq (by rw [BitVec.toNat_shiftLeft, BitVec.toNat_ofNat, Nat.shiftLeft_eq])

theorem ushiftRight_eq_ofNat (n : Nat) : x >>> n = BitVec.ofNat w (x.toNat / 2 ^ n) := by
  rw [← Nat.shiftRight_eq_div_pow, ← BitVec.toNat_ushiftRight, BitVec.ofNat_toNat, BitVec.setWidth_eq]

theorem sshiftRight_eq_ofInt (n : Nat) : x.sshiftRight n = BitVec.ofInt w (x.toInt / 2 ^ n) := by
  rw [BitVec.sshiftRight_eq, Int.shiftRight_eq_div_pow]
  exact congrArg (fun k : Int => BitVec.ofInt w (x.toInt / k)) (Int.natCast_pow 2 n)

theorem ofBool_slt : ofBool (x.slt y) = if x.toInt < y.toInt then 1 else 0 := by
  simp only [ofBool, BitVec.slt_iff_toInt_lt]

theorem ofBool_ult : ofBool (x.ult y) = if x.toNat < y.toNat then 1 else 0 := by
  simp only [ofBool, BitVec.ult_iff_lt, BitVec.lt_def]

/-- A choice between two words, made on their values. -/
theorem ofInt_toInt_ite (c : Prop) [Decidable c] :
    BitVec.ofInt w (if c then x.toInt else y.toInt) = if c then x else y := by
  split <;> exact BitVec.ofInt_toInt

theorem ofNat_toNat_ite (c : Prop) [Decidable c] :
    BitVec.ofNat w (if c then x.toNat else y.toNat) = if c then x else y := by
  split <;> rw [BitVec.ofNat_toNat, BitVec.setWidth_eq]

theorem signedMin_eq : (if x.slt y then x else y) = BitVec.ofInt w (min x.toInt y.toInt) := by
  simp only [BitVec.slt_iff_toInt_lt]
  have h : min x.toInt y.toInt = if x.toInt < y.toInt then x.toInt else y.toInt := by split <;> omega
  rw [h, ofInt_toInt_ite]

theorem signedMax_eq : (if x.slt y then y else x) = BitVec.ofInt w (max x.toInt y.toInt) := by
  simp only [BitVec.slt_iff_toInt_lt]
  have h : max x.toInt y.toInt = if x.toInt < y.toInt then y.toInt else x.toInt := by split <;> omega
  rw [h, ofInt_toInt_ite]

theorem unsignedMin_eq : (if x.ult y then x else y) = BitVec.ofNat w (min x.toNat y.toNat) := by
  simp only [BitVec.ult_iff_lt, BitVec.lt_def]
  have h : min x.toNat y.toNat = if x.toNat < y.toNat then x.toNat else y.toNat := by split <;> omega
  rw [h, ofNat_toNat_ite]

theorem unsignedMax_eq : (if x.ult y then y else x) = BitVec.ofNat w (max x.toNat y.toNat) := by
  simp only [BitVec.ult_iff_lt, BitVec.lt_def]
  have h : max x.toNat y.toNat = if x.toNat < y.toNat then y.toNat else x.toNat := by split <;> omega
  rw [h, ofNat_toNat_ite]

end WordArithmetic

/-! ### Immediate fields, and the field that a hint.imm widens (R106) -/

theorem toNat_append_eq {v w : Nat} (x : BitVec v) (y : BitVec w) : (x ++ y).toNat = x.toNat * 2 ^ w + y.toNat := by
  rw [BitVec.toNat_append, ← Nat.shiftLeft_add_eq_or_of_lt y.isLt, Nat.shiftLeft_eq]

/-- The model's sign extension of a number is the library's reading of a word. -/
theorem signed_eq_toInt (w n : Nat) : signed w n = (BitVec.ofNat w n).toInt := by
  rw [BitVec.toInt_eq_toNat_cond, BitVec.toNat_ofNat]
  rfl

theorem signed_toNat {w : Nat} (x : BitVec w) : signed w x.toNat = x.toInt := by
  rw [signed_eq_toInt, BitVec.ofNat_toNat, BitVec.setWidth_eq]

theorem ofInt_signed (v w n : Nat) : BitVec.ofInt v (signed w n) = (BitVec.ofNat w n).signExtend v := by
  rw [signed_eq_toInt]
  rfl

section Field

variable {t : Task} {ext : BitVec 20} {w : Nat} (imm : BitVec w)

theorem Task.field_plain (h : t.pfxImm = none) : t.field w imm.toNat = (w, imm.toNat) := by
  simp only [Task.field, h]

theorem Task.field_wide (h : t.pfxImm = some ext) : t.field w imm.toNat = (20 + w, (ext ++ imm).toNat) := by
  simp only [Task.field, h, toNat_append_eq, Nat.add_comm w]

theorem Task.immS_plain (h : t.pfxImm = none) : BitVec.ofInt 64 (t.immS w imm.toNat) = imm.signExtend 64 := by
  rw [Task.immS, Task.field_plain imm h, signed_toNat]
  rfl

theorem Task.immS_wide (h : t.pfxImm = some ext) :
    BitVec.ofInt 64 (t.immS w imm.toNat) = (ext ++ imm).signExtend 64 := by
  rw [Task.immS, Task.field_wide imm h, signed_toNat]
  rfl

theorem Task.immZ_plain (h : t.pfxImm = none) : BitVec.ofNat 64 (t.immZ w imm.toNat) = imm.setWidth 64 := by
  rw [Task.immZ, Task.field_plain imm h, BitVec.ofNat_toNat]

theorem Task.immZ_wide (h : t.pfxImm = some ext) :
    BitVec.ofNat 64 (t.immZ w imm.toNat) = (ext ++ imm).setWidth 64 := by
  rw [Task.immZ, Task.field_wide imm h, BitVec.ofNat_toNat]

/-- A field above twelve zero bits, as `lui` takes it (R135). -/
theorem ofInt_signed_aboveZeros :
    BitVec.ofInt 64 (signed (w + 12) (imm.toNat * 4096)) = (imm ++ 0#12).signExtend 64 := by
  have happ : imm.toNat * 4096 = (imm ++ 0#12).toNat := by rw [toNat_append_eq]; simp
  rw [happ, signed_toNat]
  rfl

end Field

/-! ### The scalar ALU (R133 to R135) -/

theorem ialuResults : Claim.IaluResults := by
  intro s sw d a b h x y out
  exact ⟨congrArg Outcome.next (State.alu2_ready h (add_eq_ofNat x y)),
    congrArg Outcome.next (State.alu2_ready h (sub_eq_ofInt x y)),
    congrArg Outcome.next (State.alu2_ready h rfl),
    congrArg Outcome.next (State.alu2_ready h rfl),
    congrArg Outcome.next (State.alu2_ready h rfl),
    congrArg Outcome.next (State.alu2_ready h rfl),
    congrArg Outcome.next (State.alu2_ready h (shiftLeft_eq_ofNat x _)),
    congrArg Outcome.next (State.alu2_ready h (ushiftRight_eq_ofNat x _)),
    congrArg Outcome.next (State.alu2_ready h (sshiftRight_eq_ofInt x _)),
    congrArg Outcome.next (State.alu2_ready h (ofBool_slt x y)),
    congrArg Outcome.next (State.alu2_ready h (ofBool_ult x y)),
    congrArg Outcome.next (State.alu2_ready h (signedMin_eq x y)),
    congrArg Outcome.next (State.alu2_ready h (signedMax_eq x y)),
    congrArg Outcome.next (State.alu2_ready h (unsignedMin_eq x y)),
    congrArg Outcome.next (State.alu2_ready h (unsignedMax_eq x y))⟩

theorem ialuiResults : Claim.IaluiResults := by
  intro s sw d a imm sh x ys yz out
  have hys : BitVec.ofInt 64 (s.t.immS 12 imm.toNat) = ys := by
    simp only [ys]
    split
    · next ext hp => exact Task.immS_wide imm hp
    · next hp => exact Task.immS_plain imm hp
  have hyz : BitVec.ofNat 64 (s.t.immZ 12 imm.toNat) = yz := by
    simp only [yz]
    split
    · next ext hp => exact Task.immZ_wide imm hp
    · next hp => exact Task.immZ_plain imm hp
  refine ⟨fun h => ?_, fun h h0 => ?_, fun ext hp h0 => ?_⟩
  · exact ⟨congrArg Outcome.next (State.aluS_ready h (by rw [hys])),
      congrArg Outcome.next (State.aluZ_ready h (by rw [hyz])),
      congrArg Outcome.next (State.aluZ_ready h (by rw [hyz])),
      congrArg Outcome.next (State.aluZ_ready h (by rw [hyz])),
      congrArg Outcome.next (State.aluS_ready h (by rw [hys]; exact ofBool_slt x ys))⟩
  · exact ⟨congrArg Outcome.next (State.aluSh_ready h h0 (shiftLeft_eq_ofNat x _)),
      congrArg Outcome.next (State.aluSh_ready h h0 (ushiftRight_eq_ofNat x _)),
      congrArg Outcome.next (State.aluSh_ready h h0 (sshiftRight_eq_ofInt x _))⟩
  · exact ⟨congrArg Outcome.next (State.aluSh_refused hp h0), congrArg Outcome.next (State.aluSh_refused hp h0),
      congrArg Outcome.next (State.aluSh_refused hp h0)⟩

theorem luiResult : Claim.LuiResult := by
  intro s sw d imm h
  refine congrArg Outcome.next ((State.alu_ready s _ sw [] d _ h).trans (congrArg (fun w => s.gives true sw d (wordVal w s.t.clabel)) ?_))
  split
  · next ext hp =>
    rw [Task.field_wide imm hp]
    exact ofInt_signed_aboveZeros (ext ++ imm)
  · next hp =>
    rw [Task.field_plain imm hp]
    exact ofInt_signed_aboveZeros imm

/-- Settles O1: each form is one of the shapes above, and its function is the unbounded one modulo 2^64. -/
theorem scalarAluResults : Obligations.ScalarAluResults := ⟨ialuResults, ialuiResults, luiResult⟩

/-! ### Bits of fields -/

theorem testBit_bitsOf (n lo len i : Nat) : (bitsOf n lo len).testBit i = (decide (i < len) && n.testBit (lo + i)) := by
  rw [bitsOf, Nat.testBit_mod_two_pow, Nat.testBit_div_two_pow, Nat.add_comm i]

/-- A number cut at both ends of a field. -/
theorem eq_above_field_below (n lo len : Nat) :
    n = 2 ^ lo * (2 ^ len * (n / 2 ^ lo / 2 ^ len) + bitsOf n lo len) + n % 2 ^ lo := by
  rw [bitsOf, Nat.div_add_mod, Nat.div_add_mod]

/-- Inside a replaced field stand the bits of the value, outside it those of the word. -/
theorem getLsbD_setBits (z : Word) (lo len v i : Nat) (hi : i < 64) :
    (setBits z lo len v).getLsbD i = if lo ≤ i ∧ i < lo + len then v.testBit (i - lo) else z.getLsbD i := by
  have hcut := eq_above_field_below z.toNat lo len
  have hset : z.toNat - bitsOf z.toNat lo len * 2 ^ lo + v % 2 ^ len * 2 ^ lo
      = 2 ^ lo * (2 ^ len * (z.toNat / 2 ^ lo / 2 ^ len) + v % 2 ^ len) + z.toNat % 2 ^ lo := by
    simp only [Nat.mul_add, Nat.mul_comm _ (2 ^ lo)] at hcut ⊢
    omega
  have hv : v % 2 ^ len < 2 ^ len := Nat.mod_lt _ (Nat.two_pow_pos len)
  have hlow : z.toNat % 2 ^ lo < 2 ^ lo := Nat.mod_lt _ (Nat.two_pow_pos lo)
  rw [setBits, BitVec.getLsbD_ofNat, hset, Nat.testBit_two_pow_mul_add _ hlow, Nat.testBit_two_pow_mul_add _ hv,
    Nat.testBit_mod_two_pow, Nat.testBit_mod_two_pow, Nat.testBit_div_two_pow, Nat.testBit_div_two_pow,
    ← BitVec.testBit_toNat, decide_eq_true hi, Bool.true_and]
  by_cases h1 : i < lo
  · rw [if_pos h1, if_neg (by omega), decide_eq_true h1, Bool.true_and]
  · by_cases h2 : i - lo < len
    · rw [if_neg h1, if_pos h2, if_pos (by omega), decide_eq_true h2, Bool.true_and]
    · rw [if_neg h1, if_neg h2, if_neg (by omega), show i - lo - len + len + lo = i by omega]

/-! ### The functions of R136, by the bits of their results -/

theorem clz64_le (x : Word) : clz64 x ≤ 64 := by
  unfold clz64; split <;> omega

theorem log2_toNat_lt {x : Word} (hx : x ≠ 0) : x.toNat.log2 < 64 :=
  (Nat.log2_lt fun h => hx (BitVec.eq_of_toNat_eq h)).2 x.isLt

theorem getLsbD_of_clz64_le (x : Word) (i : Nat) (hi : 64 - clz64 x ≤ i) : x.getLsbD i = false := by
  by_cases hx : x = 0
  · rw [hx]; exact BitVec.getLsbD_zero
  · have hlog := log2_toNat_lt hx
    rw [clz64, if_neg hx] at hi
    rw [← BitVec.testBit_toNat]
    apply Nat.testBit_lt_two_pow
    calc x.toNat < 2 ^ (x.toNat.log2 + 1) := Nat.lt_log2_self
      _ ≤ 2 ^ i := Nat.pow_le_pow_right (by decide) (by omega)

theorem getLsbD_at_clz64 (x : Word) (h : clz64 x < 64) : x.getLsbD (63 - clz64 x) = true := by
  have hx : x ≠ 0 := by rintro rfl; exact absurd h (by decide)
  have hlog := log2_toNat_lt hx
  rw [clz64, if_neg hx, show 63 - (63 - x.toNat.log2) = x.toNat.log2 by omega, ← BitVec.testBit_toNat]
  exact Nat.testBit_log2 fun h0 => hx (BitVec.eq_of_toNat_eq h0)

/-- What counting up over the highest n bits finds: a run of zeros, and a one behind it unless the word ends. -/
theorem ctzFrom_spec (x : Word) (n : Nat) (hn : n ≤ 64) :
    ctzFrom x n ≤ n ∧ (∀ i, 64 - n ≤ i → i < 64 - n + ctzFrom x n → x.getLsbD i = false) ∧
      (ctzFrom x n < n → x.getLsbD (64 - n + ctzFrom x n) = true) := by
  induction n with
  | zero => exact ⟨Nat.le_refl 0, fun i h1 h2 => absurd h2 (Nat.not_lt.mpr h1), fun h => absurd h (Nat.lt_irrefl 0)⟩
  | succ n ih =>
    obtain ⟨hle, hzero, hone⟩ := ih (by omega)
    have hpos : 64 - (n + 1) = 63 - n := by omega
    have hnext : 64 - n = 63 - n + 1 := by omega
    rw [hnext] at hzero hone
    rw [hpos]
    by_cases hb : x.getLsbD (63 - n) = true
    · rw [ctzFrom, if_pos hb]
      exact ⟨Nat.zero_le _, fun i h1 h2 => absurd h2 (Nat.not_lt.mpr h1), fun _ => hb⟩
    · rw [ctzFrom, if_neg hb]
      refine ⟨by omega, fun i h1 h2 => ?_, fun h => ?_⟩
      · by_cases hi : i = 63 - n
        · rw [hi]; exact eq_false_of_ne_true hb
        · exact hzero i (by omega) (by omega)
      · rw [← Nat.add_assoc]; exact hone (by omega)

theorem popcBelow_eq_countP (x : Word) (n : Nat) : popcBelow x n = (List.range n).countP (fun i => x.getLsbD i) := by
  induction n with
  | zero => rfl
  | succ n ih => rw [popcBelow, ih, List.range_succ, List.countP_append, List.countP_singleton, Nat.add_comm]

theorem getLsbD_reverse_word (x : Word) (i : Nat) (hi : i < 64) : x.reverse.getLsbD i = x.getLsbD (63 - i) := by
  rw [BitVec.getLsbD_reverse, BitVec.getMsbD, decide_eq_true hi, Bool.true_and]

theorem toBytes_length (n v : Nat) : (toBytes n v).length = n := by
  induction n generalizing v with
  | zero => rfl
  | succ n ih => rw [toBytes, List.length_cons, ih]

/-- Byte i of a number written as bytes. -/
theorem getElem_toBytes (n v i : Nat) (hi : i < (toBytes n v).length) :
    (toBytes n v)[i] = BitVec.ofNat 8 (v / 256 ^ i) := by
  induction n generalizing v i with
  | zero => exact absurd hi (Nat.not_lt_zero i)
  | succ n ih =>
    cases i with
    | zero => simp [toBytes]
    | succ i => simp only [toBytes, List.getElem_cons_succ, ih, Nat.div_div_eq_div_mul, Nat.pow_succ']

/-- Byte i of a number read from bytes. -/
theorem ofBytes_div_mod (l : List Byte) (i : Nat) (hi : i < l.length) : ofBytes l / 256 ^ i % 256 = l[i].toNat := by
  induction l generalizing i with
  | nil => exact absurd hi (Nat.not_lt_zero i)
  | cons b r ih =>
    have hb : b.toNat < 256 := b.isLt
    cases i with
    | zero => simp only [ofBytes, Nat.pow_zero, List.getElem_cons_zero]; omega
    | succ i =>
      have hdiv : (b.toNat + 256 * ofBytes r) / 256 = ofBytes r := by omega
      rw [ofBytes, Nat.pow_succ', ← Nat.div_div_eq_div_mul, hdiv, List.getElem_cons_succ]
      exact ih i (by simpa using hi)

/-- Byte i of a word. -/
theorem extractLsb'_byte (n i : Nat) (hi : i < 8) :
    (BitVec.ofNat 64 n).extractLsb' (8 * i) 8 = BitVec.ofNat 8 (n / 256 ^ i) := by
  apply BitVec.eq_of_getLsbD_eq
  intro j hj
  rw [BitVec.getLsbD_extractLsb', BitVec.getLsbD_ofNat, BitVec.getLsbD_ofNat, show 256 = 2 ^ 8 by rfl, ← Nat.pow_mul,
    Nat.testBit_div_two_pow, decide_eq_true hj, decide_eq_true (show 8 * i + j < 64 by omega), Nat.add_comm j]
  rfl

theorem extractLsb'_bswap64 (x : Word) (i : Nat) (hi : i < 8) :
    (bswap64 x).extractLsb' (8 * i) 8 = x.extractLsb' (8 * (7 - i)) 8 := by
  have hlen : i < (toBytes 8 x.toNat).reverse.length := by rw [List.length_reverse, toBytes_length]; exact hi
  have hx : x.extractLsb' (8 * (7 - i)) 8 = BitVec.ofNat 8 (x.toNat / 256 ^ (7 - i)) := by
    rw [← extractLsb'_byte x.toNat (7 - i) (by omega), BitVec.ofNat_toNat, BitVec.setWidth_eq]
  rw [bswap64, extractLsb'_byte _ i hi, hx]
  apply BitVec.eq_of_toNat_eq
  rw [BitVec.toNat_ofNat, show 2 ^ 8 = 256 by rfl, ofBytes_div_mod _ i hlen, List.getElem_reverse, getElem_toBytes]
  simp only [toBytes_length]

/-- POS of R136 is y[5:0]. -/
theorem bfPos_eq (y : Word) : bfPos y = y.toNat % 64 := congrArg (· % 64) (Nat.div_one y.toNat)

/-- LEN of R136 is y[14:8]. -/
theorem bfLen_eq (y : Word) : bfLen y = y.toNat / 256 % 128 := rfl

theorem getLsbD_sextAt (x y : Word) (i : Nat) (hi : i < 64) :
    (sextAt x y).getLsbD i = x.getLsbD (min i (y.toNat % 64)) := by
  rw [sextAt, bfPos_eq, ofInt_signed, BitVec.getLsbD_signExtend, decide_eq_true hi, Bool.true_and]
  by_cases h : i < y.toNat % 64 + 1
  · rw [if_pos h, BitVec.getLsbD_ofNat, decide_eq_true h, Bool.true_and, BitVec.testBit_toNat, Nat.min_eq_left (by omega)]
  · rw [if_neg h, BitVec.msb_eq_getLsbD_last, BitVec.getLsbD_ofNat, Nat.add_sub_cancel, decide_eq_true (Nat.lt_succ_self _),
      Bool.true_and, BitVec.testBit_toNat, Nat.min_eq_right (by omega)]

theorem getLsbD_zextAt (x y : Word) (i : Nat) (hi : i < 64) :
    (zextAt x y).getLsbD i = (decide (i ≤ y.toNat % 64) && x.getLsbD i) := by
  rw [zextAt, bfPos_eq, BitVec.getLsbD_ofNat, Nat.testBit_mod_two_pow, BitVec.testBit_toNat, decide_eq_true hi,
    Bool.true_and, decide_eq_decide.mpr Nat.lt_succ_iff]

theorem getLsbD_bextAt (x y : Word) (i : Nat) (hi : i < 64) :
    (bextAt x y).getLsbD i = (decide (i < y.toNat / 256 % 128) && x.getLsbD (y.toNat % 64 + i)) := by
  rw [bextAt, BitVec.getLsbD_ofNat, testBit_bitsOf, BitVec.testBit_toNat, decide_eq_true hi, Bool.true_and, bfPos_eq, bfLen_eq]

theorem getLsbD_binsAt (z x y : Word) (i : Nat) (hi : i < 64) :
    (binsAt z x y).getLsbD i =
      if y.toNat % 64 ≤ i ∧ i < y.toNat % 64 + y.toNat / 256 % 128 then x.getLsbD (i - y.toNat % 64) else z.getLsbD i := by
  have hclip : (bfPos y ≤ i ∧ i < bfPos y + min (bfLen y) (64 - bfPos y)) ↔ (bfPos y ≤ i ∧ i < bfPos y + bfLen y) := by omega
  rw [binsAt, getLsbD_setBits _ _ _ _ _ hi, BitVec.testBit_toNat, ← bfPos_eq, ← bfLen_eq]
  exact ite_congr (propext hclip) (fun _ => rfl) (fun _ => rfl)

theorem getLsbD_rotateLeft_add (x : Word) (p i : Nat) (hp : p < 64) (hi : i < 64) :
    (x.rotateLeft p).getLsbD ((i + p) % 64) = x.getLsbD i := by
  rw [BitVec.getLsbD_rotateLeft, Nat.mod_eq_of_lt hp]
  by_cases h : i + p < 64
  · rw [Nat.mod_eq_of_lt h, decide_eq_false (by omega), decide_eq_true h, cond_false, Bool.true_and, Nat.add_sub_cancel]
  · have hwrap : (i + p) % 64 = i + p - 64 := by omega
    rw [hwrap, decide_eq_true (by omega), cond_true, show 64 - p + (i + p - 64) = i by omega]

theorem getLsbD_rotateRight_add (x : Word) (p i : Nat) (hp : p < 64) (hi : i < 64) :
    (x.rotateRight p).getLsbD i = x.getLsbD ((i + p) % 64) := by
  rw [BitVec.getLsbD_rotateRight, Nat.mod_eq_of_lt hp]
  by_cases h : i + p < 64
  · rw [Nat.mod_eq_of_lt h, decide_eq_true (by omega), cond_true, Nat.add_comm]
  · have hwrap : (i + p) % 64 = i - (64 - p) := by omega
    rw [hwrap, decide_eq_false (by omega), cond_false, decide_eq_true hi, Bool.true_and]

theorem ibitResults : Claim.IbitResults := by
  intro s sw d a b x y pos len out la lb
  have hpos : pos < 64 := Nat.mod_lt _ (by decide)
  refine ⟨fun h => ?_, fun h => ?_, fun h => ?_⟩
  · obtain ⟨hle, hzero, hone⟩ := ctzFrom_spec x 64 (Nat.le_refl 64)
    simp only [Nat.sub_self, Nat.zero_add] at hzero hone
    exact ⟨⟨clz64 x, congrArg Outcome.next (State.alu1_ready h rfl), clz64_le x, getLsbD_of_clz64_le x, getLsbD_at_clz64 x⟩,
      ⟨ctz64 x, congrArg Outcome.next (State.alu1_ready h rfl), hle, fun i => hzero i (Nat.zero_le i), hone⟩,
      congrArg Outcome.next (State.alu1_ready h (congrArg (BitVec.ofNat 64) (popcBelow_eq_countP x 64))),
      ⟨x.reverse, congrArg Outcome.next (State.alu1_ready h rfl), getLsbD_reverse_word x⟩,
      ⟨bswap64 x, congrArg Outcome.next (State.alu1_ready h rfl), extractLsb'_bswap64 x⟩⟩
  · exact ⟨⟨sextAt x y, congrArg Outcome.next (State.alu2_ready h rfl), getLsbD_sextAt x y⟩,
      ⟨zextAt x y, congrArg Outcome.next (State.alu2_ready h rfl), getLsbD_zextAt x y⟩,
      ⟨bextAt x y, congrArg Outcome.next (State.alu2_ready h rfl), getLsbD_bextAt x y⟩,
      ⟨x.rotateLeft pos, congrArg Outcome.next (State.alu2_ready h rfl), fun i => getLsbD_rotateLeft_add x pos i hpos⟩,
      ⟨x.rotateRight pos, congrArg Outcome.next (State.alu2_ready h rfl), fun i => getLsbD_rotateRight_add x pos i hpos⟩⟩
  · refine ⟨binsAt (s.x d) x y, ?_, getLsbD_binsAt (s.x d) x y⟩
    exact congrArg Outcome.next (by rw [State.alu_ready _ _ _ _ _ _ h, State.labs_three]; rfl)

/-! ### Products and quotients (R137) -/

theorem mul_eq_ofInt {w : Nat} (x y : BitVec w) : x * y = BitVec.ofInt w (x.toInt * y.toInt) := by
  rw [BitVec.ofInt_mul, BitVec.ofInt_toInt, BitVec.ofInt_toInt]

/-- The upper half of a product is bits [127:64] of its 128. -/
theorem mulHigh_eq_extractLsb' (p : Int) : mulHigh p = (BitVec.ofInt 128 p).extractLsb' 64 64 := by
  apply BitVec.eq_of_toNat_eq
  rw [mulHigh, BitVec.toNat_ofInt, BitVec.extractLsb'_toNat, BitVec.toNat_ofInt, Nat.shiftRight_eq_div_pow]
  omega

theorem sdiv_eq_ofInt {w : Nat} (x y : BitVec w) : x.sdiv y = BitVec.ofInt w (x.toInt.tdiv y.toInt) :=
  BitVec.eq_of_toInt_eq (by rw [BitVec.toInt_sdiv, BitVec.toInt_ofInt])

theorem srem_eq_ofInt {w : Nat} (x y : BitVec w) : x.srem y = BitVec.ofInt w (x.toInt.tmod y.toInt) := by
  rw [← BitVec.toInt_srem, BitVec.ofInt_toInt]

theorem udiv_eq_ofNat {w : Nat} (x y : BitVec w) : x / y = BitVec.ofNat w (x.toNat / y.toNat) := by
  rw [← BitVec.toNat_udiv, BitVec.ofNat_toNat, BitVec.setWidth_eq]

theorem umod_eq_ofNat {w : Nat} (x y : BitVec w) : x % y = BitVec.ofNat w (x.toNat % y.toNat) := by
  rw [← BitVec.toNat_umod, BitVec.ofNat_toNat, BitVec.setWidth_eq]

section Divide

variable {s : State} {sw : Bool} {d a b : SReg}

theorem State.divide_ready {f : Word → Word → Word} {w : Word} (h : s.Ready Accept.none [a, b] d) (hy : s.x b ≠ 0)
    (hw : f (s.x a) (s.x b) = w) :
    s.divide sw d a b f = s.gives false sw d (wordVal w (s.lab a ||| s.lab b ||| s.t.clabel)) := by
  rw [State.divide, State.issue_ready _ _ _ _ _ h, if_neg hy, State.put_finish _ _ _ _ _ h.srPlain_dest, hw, State.labs_two]

theorem State.divide_by_zero {f : Word → Word → Word} (h : s.Ready Accept.none [a, b] d) (hy : s.x b = 0) :
    s.divide sw d a b f = s.raise 0x0F := by
  rw [State.divide, State.issue_ready _ _ _ _ _ h, if_pos hy]

end Divide

theorem imulResults : Claim.ImulResults := by
  intro s sw d a b h x y v out late
  refine ⟨congrArg Outcome.next (State.alu2_ready h (mul_eq_ofInt x y)),
    congrArg Outcome.next (State.alu2_ready h (mulHigh_eq_extractLsb' _)),
    congrArg Outcome.next (State.alu2_ready h ((mulHigh_eq_extractLsb' _).trans ?_)),
    congrArg Outcome.next (State.alu2_ready h (mulHigh_eq_extractLsb' _)), fun hy => ?_, fun hy => ?_⟩
  · rw [BitVec.ofInt_natCast]
  · exact ⟨congrArg Outcome.next (State.divide_ready h hy (sdiv_eq_ofInt x y)),
      congrArg Outcome.next (State.divide_ready h hy (udiv_eq_ofNat x y)),
      congrArg Outcome.next (State.divide_ready h hy (srem_eq_ofInt x y)),
      congrArg Outcome.next (State.divide_ready h hy (umod_eq_ofNat x y))⟩
  · exact ⟨congrArg Outcome.next (State.divide_by_zero h hy), congrArg Outcome.next (State.divide_by_zero h hy),
      congrArg Outcome.next (State.divide_by_zero h hy), congrArg Outcome.next (State.divide_by_zero h hy)⟩

/-- Settles O2: the bit functions bit by bit, the products and quotients in unbounded arithmetic. -/
theorem bitAndMultiplyResults : Obligations.BitAndMultiplyResults := ⟨ibitResults, imulResults⟩

/-! ### Capabilities that are read, and capabilities with another cursor (R138, R139) -/

section Ready

variable {s : State} {sw : Bool} {d a b : SReg}

theorem State.capGet_ready {f : Val → Quad} {q : Quad} (h : s.Ready Accept.none [a] d) (hq : f (s.rd a) = q) :
    s.capGet sw d a f = s.gives true sw d { bits := q, tag := false, label := s.lab a ||| s.t.clabel } := by
  refine State.aluVal_ready s _ sw [a] d _ _ h ?_
  rw [hq, State.labs_one]

theorem State.cap2_ready {f : Val → Word → Label → Except Nat Val} {v : Val} (h : s.Ready Accept.none [a, b] d)
    (hv : f (s.rd a) (s.x b) (s.lab a ||| s.lab b ||| s.t.clabel) = .ok v) :
    s.cap2 sw d a b f = s.gives true sw d v := by
  rw [State.cap2, State.issue_ready _ _ _ _ _ h, State.labs_two, hv]
  exact State.put_finish s true sw d v h.srPlain_dest

theorem State.capI_ready {f : State → Val → Label → Except Nat Val} {v : Val} (h : s.Ready Accept.immOnly [a] d)
    (hv : f s (s.rd a) (s.lab a ||| s.t.clabel) = .ok v) : s.capI sw d a f = s.gives true sw d v := by
  rw [State.capI, State.issue_ready _ _ _ _ _ h, State.labs_one, hv]
  exact State.put_finish s true sw d v h.srPlain_dest

end Ready

theorem ofNat_bitsOf (q : Quad) (lo len : Nat) :
    BitVec.ofNat 128 (bitsOf q.toNat lo len) = (q.extractLsb' lo len).setWidth 128 := by
  rw [← BitVec.ofNat_toNat, BitVec.extractLsb'_toNat, Nat.shiftRight_eq_div_pow, bitsOf]

/-- A capability with its cursor replaced: bits [127:64] stay (R139). -/
def setCursor (q : Quad) (cursor : Word) : Quad := q.extractLsb' 64 64 ++ cursor

theorem setCursor_toNat (q : Quad) (cursor : Word) :
    (setCursor q cursor).toNat = q.toNat / 2 ^ 64 * 2 ^ 64 + cursor.toNat := by
  have hq : q.toNat / 2 ^ 64 < 2 ^ 64 := Nat.div_lt_of_lt_mul q.isLt
  rw [setCursor, toNat_append_eq, BitVec.extractLsb'_toNat, Nat.shiftRight_eq_div_pow, Nat.mod_eq_of_lt hq]

theorem ofNat_eq_setCursor (q : Quad) (c : Nat) :
    BitVec.ofNat 128 (q.toNat / 2 ^ 64 * 2 ^ 64 + c % 2 ^ 64) = setCursor q (BitVec.ofNat 64 c) := by
  rw [← BitVec.toNat_ofNat, ← setCursor_toNat, BitVec.ofNat_toNat, BitVec.setWidth_eq]

theorem capCursor_setCursor (q : Quad) (cursor : Word) : capCursor (setCursor q cursor) = cursor.toNat := by
  have hc := cursor.isLt
  rw [capCursor, bitsOf, setCursor_toNat]
  omega

/-- A field above the cursor stays. -/
theorem bitsOf_setCursor (q : Quad) (cursor : Word) (lo len : Nat) (hlo : 64 ≤ lo) :
    bitsOf (setCursor q cursor).toNat lo len = bitsOf q.toNat lo len := by
  have hhigh : (setCursor q cursor).toNat / 2 ^ 64 = q.toNat / 2 ^ 64 := by
    have hc := cursor.isLt
    rw [setCursor_toNat]
    omega
  obtain ⟨k, rfl⟩ := Nat.exists_eq_add_of_le hlo
  rw [bitsOf, bitsOf, Nat.pow_add, ← Nat.div_div_eq_div_mul, ← Nat.div_div_eq_div_mul, hhigh]

/-- The bounds depend on the cursor only where the decoding reads it. -/
theorem boundsAt_setCursor (q : Quad) (cursor : Word) (n : Nat) : boundsAt (setCursor q cursor) n = boundsAt q n := by
  have hE : capExp (setCursor q cursor) = capExp q := congrArg (min · 44) (bitsOf_setCursor q cursor 80 6 (by decide))
  have hB : capB (setCursor q cursor) = capB q := bitsOf_setCursor q cursor 86 20 (by decide)
  have hT : capT (setCursor q cursor) = capT q := bitsOf_setCursor q cursor 106 20 (by decide)
  rw [boundsAt, hE, hB, hT, boundsAt]

/-- The bounds are unchanged exactly when base and top are. -/
theorem boundsAt_eq_iff (q : Quad) (cursor : Word) :
    boundsAt q cursor.toNat = boundsAt q (capCursor q) ↔
      capBase (setCursor q cursor) = capBase q ∧ capTop (setCursor q cursor) = capTop q := by
  rw [capBase, capTop, capCursor_setCursor, boundsAt_setCursor]
  exact Prod.ext_iff

theorem withCursor_eq (v : Val) (c : Nat) (l : Label) :
    withCursor v c l =
      { bits := setCursor v.bits (BitVec.ofNat 64 c), label := l
        tag := v.tag && decide (capBase (setCursor v.bits (BitVec.ofNat 64 c)) = capBase v.bits ∧
          capTop (setCursor v.bits (BitVec.ofNat 64 c)) = capTop v.bits) } := by
  rw [withCursor, ofNat_eq_setCursor, ← BitVec.toNat_ofNat, decide_eq_decide.mpr (boundsAt_eq_iff v.bits _)]

/-- Bits [63:0] of a capability are its cursor. -/
theorem ofNat_capCursor (q : Quad) : BitVec.ofNat 64 (capCursor q) = q.setWidth 64 := by
  rw [← BitVec.ofNat_toNat]
  apply BitVec.eq_of_toNat_eq
  rw [capCursor, bitsOf, Nat.pow_zero, Nat.div_one, BitVec.toNat_ofNat, BitVec.toNat_ofNat, Nat.mod_mod]

theorem capGetResults : Claim.CapGetResults := by
  intro s sw d a h c out
  exact ⟨congrArg Outcome.next (State.capGet_ready h rfl),
    congrArg Outcome.next (State.capGet_ready h rfl),
    congrArg Outcome.next (State.capGet_ready h rfl),
    congrArg Outcome.next (State.capGet_ready h (ofNat_bitsOf c.bits 68 12)),
    congrArg Outcome.next (State.capGet_ready h (ofNat_bitsOf c.bits 64 4)),
    congrArg Outcome.next (State.capGet_ready h rfl)⟩

theorem capCursorResults : Claim.CapCursorResults := by
  intro s sw d a b imm c moved out off
  have hmoved (n : Nat) (w : Word) (l : Label) (hw : BitVec.ofNat 64 n = w) : withCursor c n l = moved w l := by
    rw [withCursor_eq, hw]
    rfl
  have hoff : BitVec.ofInt 64 (s.t.immS 12 imm.toNat) = off := by
    simp only [off]
    split
    · next ext hp => exact Task.immS_wide imm hp
    · next hp => exact Task.immS_plain imm hp
  have hcur : BitVec.ofNat 64 (capCursor c.bits) = s.x a := ofNat_capCursor c.bits
  refine ⟨fun h => ⟨?_, ?_⟩, fun h => ?_⟩
  · have hw : BitVec.ofNat 64 (s.x b).toNat = s.x b := by rw [BitVec.ofNat_toNat, BitVec.setWidth_eq]
    exact congrArg Outcome.next (State.cap2_ready h (congrArg Except.ok (hmoved _ _ _ hw)))
  · have hw : BitVec.ofNat 64 (capCursor c.bits + (s.x b).toNat) = s.x a + s.x b := by
      rw [BitVec.ofNat_add, hcur, BitVec.ofNat_toNat, BitVec.setWidth_eq]
    exact congrArg Outcome.next (State.cap2_ready h (congrArg Except.ok (hmoved _ _ _ hw)))
  · have hw : BitVec.ofNat 64 (BitVec.ofInt 64 ((capCursor c.bits : Int) + s.t.immS 12 imm.toNat)).toNat = s.x a + off := by
      rw [BitVec.ofNat_toNat, BitVec.setWidth_eq, BitVec.ofInt_add, BitVec.ofInt_natCast, hcur, hoff]
    exact congrArg Outcome.next (State.capI_ready h (congrArg Except.ok (hmoved _ _ _ hw)))

/-- Settles O3: the get forms read the decoded fields; a new cursor leaves every field above it, so the bounds change only through
the cursor. -/
theorem capabilityReadResults : Obligations.CapabilityReadResults := ⟨capGetResults, capCursorResults⟩

/-! ### Labels (R148) and hint words (R104, R105, R149, R150) -/

/-- One label is a subset of another, held in the low bits of a word, when the word has each of its bits. -/
theorem label_sub_iff (l : Label) (x : Word) :
    Label.sub l (x.setWidth 16) = true ↔ ∀ i : Fin 16, l.getLsbD i = true → x.getLsbD i = true := by
  rw [Label.sub, beq_iff_eq]
  constructor
  · intro h i hl
    have hi := congrArg (fun w => w.getLsbD i) h
    simpa [hl] using hi
  · intro h
    apply BitVec.eq_of_getLsbD_eq
    intro i hi
    have hbit := h ⟨i, hi⟩
    simpa [hi] using hbit

theorem ofBool_label_sub (l : Label) (x : Word) :
    (ofBool (Label.sub l (x.setWidth 16))).setWidth 128 =
      if ∀ i : Fin 16, l.getLsbD i = true → x.getLsbD i = true then (1 : Quad) else 0 := by
  by_cases h : Label.sub l (x.setWidth 16) = true
  · rw [if_pos ((label_sub_iff l x).mp h), h]
    rfl
  · rw [if_neg (mt (label_sub_iff l x).mpr h), eq_false_of_ne_true h]
    rfl

theorem labelResults : Claim.LabelResults := by
  intro s sw d a b out
  refine ⟨fun h => ?_, fun h => ?_, fun h => ⟨?_, ?_⟩⟩
  · have hbits : ((s.lab a).setWidth 64).setWidth 128 = (s.lab a).setWidth 128 := by simp
    exact congrArg Outcome.next (by rw [State.alu_ready _ _ _ _ _ _ h, State.labs_one, wordVal, hbits])
  · have hbits : (s.t.clabel.setWidth 64).setWidth 128 = s.t.clabel.setWidth 128 := by simp
    exact congrArg Outcome.next (by rw [State.alu_ready _ _ _ _ _ _ h, wordVal, hbits]; rfl)
  · exact congrArg Outcome.next (State.aluVal_ready _ _ _ _ _ _ _ h (by rw [State.labs_two]))
  · exact congrArg Outcome.next (by rw [State.alu_ready _ _ _ _ _ _ h, State.labs_two, wordVal, ofBool_label_sub])

/-- A hint.imm or a hint.mod stands before the word (R105). -/
theorem Task.prefixed_iff (t : Task) : t.prefixed = true ↔ t.pfxImm ≠ none ∨ t.pfxMod ≠ none := by
  rw [Task.prefixed, Bool.or_eq_true, Option.isSome_iff_ne_none, Option.isSome_iff_ne_none]

theorem hintResults : Claim.HintResults := by
  intro s sw ext n mig msk neg taken
  refine ⟨fun h => ?_, fun h => ?_, fun hi hm => ?_, fun h => ?_⟩
  · have hnone : ¬s.t.pfxImm.isSome = true := by rw [h]; exact Bool.false_ne_true
    exact congrArg Outcome.next (if_neg hnone)
  · exact congrArg Outcome.next (if_pos (Option.isSome_iff_ne_none.mpr h))
  · have hpre : ¬s.t.prefixed = true := by
      rw [Task.prefixed_iff, hi, hm]
      exact fun h => h.elim (· rfl) (· rfl)
    exact ⟨congrArg Outcome.next (if_neg hpre), congrArg Outcome.next (if_neg hpre), congrArg Outcome.next (if_neg hpre)⟩
  · have hpre : s.t.prefixed = true := (Task.prefixed_iff s.t).mpr h
    exact ⟨congrArg Outcome.next (if_pos hpre), congrArg Outcome.next (if_pos hpre), congrArg Outcome.next (if_pos hpre)⟩

/-- Settles O6: a label form is one of the scalar shapes, and a hint word is refused exactly behind the words that R105
forbids before it. -/
theorem labelAndHintResults : Obligations.LabelAndHintResults := ⟨labelResults, hintResults⟩

end Sys2Proof.Machine
